-- ==== Sys2Proof/Word.lean ====
section
/-! DEFINITION. The word types of the Stoxian model and their plainest arithmetic (R2, R3, R109). -/

namespace Sys2Proof

/-- A byte of memory (R3). -/
abbrev Byte := BitVec 8

/-- A 64-bit register value (R103). -/
abbrev Word := BitVec 64

/-- A 48-bit virtual address (R81). -/
abbrev VAddr := BitVec 48

/-- A 512-bit vector register, stream element, descriptor or message (R103, R155, R345). -/
abbrev Vec := BitVec 512

/-- A sparse table: keys strictly rising; an unlisted key holds the table's default. -/
abbrev Tbl (α : Type) := List (Nat × α)

end Sys2Proof
end

