-- ==== Sys2Proof/Syntax.lean ====
section
/-! DEFINITION. The instruction set: Instr, one constructor per row of the opcode table, and the data its rows carry. -/

namespace Sys2Proof

/-- The four kinds of scalar core (R103, R108). -/
inductive Role where
  | a | x | c | s
  deriving DecidableEq, Repr, Inhabited

/-- Names one core: its cell (for a supervisor core, cluster × 16, R108) and its role. -/
structure CoreRef where
  cell : Nat
  role : Role
  deriving DecidableEq, Repr, Inhabited

/-- A 6-bit register field (R26, R28). -/
abbrev Reg := BitVec 6

/-- The second source of a format V instruction: a vector register, or an accumulator fragment acT.R (R22, R46). -/
inductive VSrc where
  | reg (r : Reg)
  | frag (tile : BitVec 6) (row : BitVec 4)
  deriving DecidableEq, Repr

/-- A fabric packet by its named fields (R250 to R255). A field that the packet's TYPE does not carry is zero.
`seq` is SEQ or START, `bytes` is BYTES or COUNT, `status` is STATUS or CHUNK, `addr` is FADDR, FLAG or RADDR. -/
structure Packet where
  dchip : BitVec 12
  schip : BitVec 12
  scell : BitVec 10
  ctxid : BitVec 16
  type : BitVec 4
  vn : BitVec 2
  flits : BitVec 4
  round : BitVec 3
  rsv0 : Bool := false
  addr : BitVec 64
  ctr : BitVec 13 := 0
  seq : BitVec 16 := 0
  bytes : BitVec 11 := 0
  dcell : BitVec 10 := 0
  pcrc : BitVec 32 := 0
  rslot : BitVec 4 := 0
  fsz : BitVec 2 := 0
  fval : BitVec 64 := 0
  status : BitVec 2 := 0
  reason : BitVec 8 := 0
  ltag : BitVec 4 := 0
  answers : BitVec 2 := 0
  size : BitVec 2 := 0
  fetchAdd : Bool := false
  atag : BitVec 16 := 0
  data : BitVec 64 := 0
  rsvBody : Bool := false
  payload : List Byte := []
  deriving DecidableEq, Repr

/-- What a scrubber finds in a sector's codeword (R101). -/
inductive ScrubFound where
  | valid | correctable | uncorrectable
  deriving DecidableEq, Repr

/-- An attachment of a sorter kernel: its rule and its window (R275, R276). -/
structure Attachment where
  ctx : Nat
  cls : BitVec 8
  lo : Nat
  hi : Nat
  sorter : Nat
  fb : Nat
  fc : Nat
  /-- index of the kernel in the sorter's kernel memory -/
  kernel : Nat
  deriving DecidableEq, Repr

/-- The five control operations of a sorter (R277). -/
inductive SorterOp where
  | load (ctx sorter : Nat) (record : List Byte)
  | attach (a : Attachment) (zero : Bool)
  | detach (ctx cls lo hi : Nat)
  | rearm (ctx sorter : Nat) (flow : Option Nat) (fb fc : Nat)
  | state (ctx sorter flow : Nat) (write : Option Vec)
  deriving DecidableEq, Repr

/-- What each bring-up stage of R386 reports. -/
inductive BringUp where
  /-- stage 1: the boot ROM has checked the firmware under R387 -/
  | verified
  /-- stage 2: units that failed their self-test, as (class, index) -/
  | selfTest (failed : List (Nat × Nat))
  | linkUp
  | firmwareRuns
  | portsTrained
  deriving DecidableEq, Repr

/-- What a register write without a row of its own reaches: the n-th store-buffer entry of a core, or a
host register of R383. -/
inductive RegTarget where
  | core (c : CoreRef) (n : Nat)
  | host (offset : Nat) (value : Word)
  deriving DecidableEq, Repr

/-- A CXL.mem access of the host to device memory, a vault or LPDDR byte range, a request to the CDAT mailbox, or an IDE key management
message over SPDM (R382). -/
inductive HostAccess where
  | read (pa : Nat) (len : Nat)
  | write (pa : Nat) (bytes : List Byte)
  | cdat (request : List Byte)
  | ideKeys (request : List Byte)
  deriving DecidableEq, Repr

/-- What selects a device, network or host step: which unit, queue entry or operand it concerns. A step reads only the
fields its own description names; the environment or the free choice of the next turn fills them (R321, R385). -/
structure Args where
  core : CoreRef := ⟨0, .a⟩
  cell : Nat := 0
  cluster : Nat := 0
  ctx : Nat := 0
  /-- index in a list of pending things: a packet, a write, a store-buffer entry, a miss, a record -/
  index : Nat := 0
  ctr : Nat := 0
  slot : Nat := 0
  port : Nat := 0
  rail : Nat := 0
  chip : BitVec 12 := 0
  cls : Nat := 0
  lid : Nat := 0
  queue : Nat := 0
  memory : Nat := 0
  round : Nat := 0
  amount : Nat := 0
  flag : Bool := false
  word : Word := 0
  vec : Vec := 0
  bytes : List Byte := []
  cells : List Nat := []
  pairs : List (Nat × Nat) := []
  packet : Option Packet := none
  found : ScrubFound := .valid
  stage : BringUp := .linkUp
  target : RegTarget := .host 0 0
  access : HostAccess := .read 0 0
  deriving DecidableEq, Repr

/-- The one instruction type: a constructor for every row of the opcode table. Core instructions carry the
fields their encodings use (R20-R24), sorter instructions those of R280. The device, network and host rows take what
selects the step from State.args (see Args). NOP, AUTO, SHARE, NBRSET and the three SYS rows with a code take their
operands from the fetched word State.cur.word: Lean's runtime allows at most 244 constructors with fields (log 22, DESIGN CHOICE). -/
inductive Instr where
  | add (d : Reg) (a : Reg) (b : Reg)
  | adds (d : Reg) (a : Reg) (b : Reg)
  | addus (d : Reg) (a : Reg) (b : Reg)
  | sub (d : Reg) (a : Reg) (b : Reg)
  | subs (d : Reg) (a : Reg) (b : Reg)
  | subus (d : Reg) (a : Reg) (b : Reg)
  | and (d : Reg) (a : Reg) (b : Reg)
  | andn (d : Reg) (a : Reg) (b : Reg)
  | or (d : Reg) (a : Reg) (b : Reg)
  | xor (d : Reg) (a : Reg) (b : Reg)
  | shl (d : Reg) (a : Reg) (b : Reg)
  | shr (d : Reg) (a : Reg) (b : Reg)
  | sha (d : Reg) (a : Reg) (b : Reg)
  | cmpeq (d : Reg) (a : Reg) (b : Reg)
  | cmpne (d : Reg) (a : Reg) (b : Reg)
  | cmplt (d : Reg) (a : Reg) (b : Reg)
  | cmpge (d : Reg) (a : Reg) (b : Reg)
  | cmpltu (d : Reg) (a : Reg) (b : Reg)
  | cmpgeu (d : Reg) (a : Reg) (b : Reg)
  | addi (d : Reg) (a : Reg) (imm : BitVec 25)
  | andi (d : Reg) (a : Reg) (imm : BitVec 25)
  | ori (d : Reg) (a : Reg) (imm : BitVec 25)
  | xori (d : Reg) (a : Reg) (imm : BitVec 25)
  | shil (d : Reg) (a : Reg) (imm : BitVec 6)
  | shir (d : Reg) (a : Reg) (imm : BitVec 6)
  | shia (d : Reg) (a : Reg) (imm : BitVec 6)
  | cmpieq (d : Reg) (a : Reg) (imm : BitVec 25)
  | cmpine (d : Reg) (a : Reg) (imm : BitVec 25)
  | cmpilt (d : Reg) (a : Reg) (imm : BitVec 25)
  | cmpige (d : Reg) (a : Reg) (imm : BitVec 25)
  | cmpiltu (d : Reg) (a : Reg) (imm : BitVec 25)
  | cmpigeu (d : Reg) (a : Reg) (imm : BitVec 25)
  | li (d : Reg) (imm : BitVec 32)
  | liu (d : Reg) (imm : BitVec 32)
  | liw (d : Reg) (ext : BitVec 64)
  | mul (d : Reg) (a : Reg) (b : Reg)
  | mulh (d : Reg) (a : Reg) (b : Reg)
  | mulhu (d : Reg) (a : Reg) (b : Reg)
  | mula (d : Reg) (a : Reg) (b : Reg) (c : Reg)
  | div (d : Reg) (a : Reg) (b : Reg)
  | divu (d : Reg) (a : Reg) (b : Reg)
  | divrem (d : Reg) (a : Reg) (b : Reg)
  | divremu (d : Reg) (a : Reg) (b : Reg)
  | bitcnt (d : Reg) (a : Reg)
  | bitclz (d : Reg) (a : Reg)
  | bitctz (d : Reg) (a : Reg)
  | sel (d : Reg) (a : Reg) (b : Reg) (c : Reg)
  | beq (a : Reg) (b : Reg) (nul : BitVec 2) (disp : BitVec 19)
  | bne (a : Reg) (b : Reg) (nul : BitVec 2) (disp : BitVec 19)
  | blt (a : Reg) (b : Reg) (nul : BitVec 2) (disp : BitVec 19)
  | bge (a : Reg) (b : Reg) (nul : BitVec 2) (disp : BitVec 19)
  | bltu (a : Reg) (b : Reg) (nul : BitVec 2) (disp : BitVec 19)
  | bgeu (a : Reg) (b : Reg) (nul : BitVec 2) (disp : BitVec 19)
  | bz (a : Reg) (nul : BitVec 2) (disp : BitVec 19)
  | bzn (a : Reg) (nul : BitVec 2) (disp : BitVec 19)
  | j (nul : BitVec 2) (imm : BitVec 25)
  | jl (d : Reg) (nul : BitVec 2) (imm : BitVec 25)
  | jr (d : Reg) (a : Reg) (nul : BitVec 2)
  | csrd (d : Reg) (imm : BitVec 12)
  | cswr (a : Reg) (imm : BitVec 12)
  | csset (d : Reg) (a : Reg) (imm : BitVec 12)
  | csclr (d : Reg) (a : Reg) (imm : BitVec 12)
  | ld (d : Reg) (a : Reg) (esz : BitVec 2) (ord : BitVec 2) (scope : BitVec 3) (imm : BitVec 25)
  | lds (d : Reg) (a : Reg) (esz : BitVec 2) (ord : BitVec 2) (scope : BitVec 3) (imm : BitVec 25)
  | st (d : Reg) (a : Reg) (esz : BitVec 2) (ord : BitVec 2) (scope : BitVec 3) (imm : BitVec 25)
  | ld64 (d : Reg) (a : Reg) (ord : BitVec 2) (scope : BitVec 3) (imm : BitVec 25)
  | st64 (d : Reg) (a : Reg) (ord : BitVec 2) (scope : BitVec 3) (imm : BitVec 25)
  | amoswap (d : Reg) (a : Reg) (b : Reg) (esz : BitVec 2) (ord : BitVec 2) (scope : BitVec 3)
  | amoadd (d : Reg) (a : Reg) (b : Reg) (esz : BitVec 2) (ord : BitVec 2) (scope : BitVec 3)
  | amoand (d : Reg) (a : Reg) (b : Reg) (esz : BitVec 2) (ord : BitVec 2) (scope : BitVec 3)
  | amoor (d : Reg) (a : Reg) (b : Reg) (esz : BitVec 2) (ord : BitVec 2) (scope : BitVec 3)
  | amoxor (d : Reg) (a : Reg) (b : Reg) (esz : BitVec 2) (ord : BitVec 2) (scope : BitVec 3)
  | amomin (d : Reg) (a : Reg) (b : Reg) (esz : BitVec 2) (ord : BitVec 2) (scope : BitVec 3)
  | amomax (d : Reg) (a : Reg) (b : Reg) (esz : BitVec 2) (ord : BitVec 2) (scope : BitVec 3)
  | amominu (d : Reg) (a : Reg) (b : Reg) (esz : BitVec 2) (ord : BitVec 2) (scope : BitVec 3)
  | amomaxu (d : Reg) (a : Reg) (b : Reg) (esz : BitVec 2) (ord : BitVec 2) (scope : BitVec 3)
  | amocas (d : Reg) (a : Reg) (b : Reg) (c : Reg) (esz : BitVec 2) (ord : BitVec 2) (scope : BitVec 3)
  | fence (ord : BitVec 2) (scope : BitVec 3)
  | qlen (d : Reg) (a : Reg)
  | qroom (d : Reg) (a : Reg)
  | qpeek (d : Reg) (a : Reg)
  | strgo (a : Reg) (k : BitVec 2) (out : Bool) (core : Bool) (ext : BitVec 64)
  | strstop (k : BitVec 2)
  | strwait (k : BitVec 2)
  | strcnt (d : Reg) (k : BitVec 2)
  | semw (imm : BitVec 13)
  | semp (imm : BitVec 13)
  | semtry (d : Reg) (imm : BitVec 13)
  | semrd (d : Reg) (imm : BitVec 5)
  | barset (d : Reg) (a : Reg) (imm : BitVec 25)
  | bararr (d : Reg) (a : Reg) (imm : BitVec 25)
  | barwait (d : Reg) (a : Reg) (imm : BitVec 25)
  | bartest (d : Reg) (a : Reg) (imm : BitVec 25)
  | barexp (d : Reg) (a : Reg) (imm : BitVec 25)
  | copy (d : Reg) (a : Reg) (b : Reg) (c : Reg) (rm : BitVec 3) (ext : BitVec 64)
  | cwait (imm : BitVec 4)
  | ctest (d : Reg) (imm : BitVec 4)
  | ccnt (d : Reg)
  | tidld (a : Reg) (imm : BitVec 25)
  | tidst (a : Reg) (imm : BitVec 25)
  | tidbase (a : Reg) (imm : BitVec 6)
  | osclaim (imm : BitVec 5)
  | ostry (d : Reg) (imm : BitVec 5)
  | osrel (imm : BitVec 5)
  | osst (d : Reg)
  | vadd (d : Reg) (a : Reg) (b : VSrc) (rm : BitVec 3)
  | vsub (d : Reg) (a : Reg) (b : VSrc) (rm : BitVec 3)
  | vmul (d : Reg) (a : Reg) (b : VSrc) (rm : BitVec 3)
  | vfma (d : Reg) (a : Reg) (b : VSrc) (c : Reg) (rm : BitVec 3)
  | vmin (d : Reg) (a : Reg) (b : VSrc)
  | vmax (d : Reg) (a : Reg) (b : VSrc)
  | vabs (d : Reg) (b : VSrc)
  | vneg (d : Reg) (b : VSrc)
  | vexp2 (d : Reg) (b : VSrc)
  | vrcp (d : Reg) (b : VSrc)
  | vrsq (d : Reg) (b : VSrc)
  | viadd (d : Reg) (a : Reg) (b : VSrc) (esz : BitVec 2)
  | viadds (d : Reg) (a : Reg) (b : VSrc) (esz : BitVec 2)
  | viaddus (d : Reg) (a : Reg) (b : VSrc) (esz : BitVec 2)
  | visub (d : Reg) (a : Reg) (b : VSrc) (esz : BitVec 2)
  | visubs (d : Reg) (a : Reg) (b : VSrc) (esz : BitVec 2)
  | visubus (d : Reg) (a : Reg) (b : VSrc) (esz : BitVec 2)
  | vimul (d : Reg) (a : Reg) (b : VSrc) (esz : BitVec 2)
  | vimulh (d : Reg) (a : Reg) (b : VSrc) (esz : BitVec 2)
  | vimulhu (d : Reg) (a : Reg) (b : VSrc) (esz : BitVec 2)
  | vimin (d : Reg) (a : Reg) (b : VSrc) (esz : BitVec 2)
  | vimax (d : Reg) (a : Reg) (b : VSrc) (esz : BitVec 2)
  | viminu (d : Reg) (a : Reg) (b : VSrc) (esz : BitVec 2)
  | vimaxu (d : Reg) (a : Reg) (b : VSrc) (esz : BitVec 2)
  | viand (d : Reg) (a : Reg) (b : VSrc) (esz : BitVec 2)
  | vior (d : Reg) (a : Reg) (b : VSrc) (esz : BitVec 2)
  | vixor (d : Reg) (a : Reg) (b : VSrc) (esz : BitVec 2)
  | viandn (d : Reg) (a : Reg) (b : VSrc) (esz : BitVec 2)
  | vcmpfeq (d : Reg) (a : Reg) (b : VSrc)
  | vcmpflt (d : Reg) (a : Reg) (b : VSrc)
  | vcmpfle (d : Reg) (a : Reg) (b : VSrc)
  | vcmpfun (d : Reg) (a : Reg) (b : VSrc)
  | vcmpieq (d : Reg) (a : Reg) (b : VSrc) (esz : BitVec 2)
  | vcmpilt (d : Reg) (a : Reg) (b : VSrc) (esz : BitVec 2)
  | vcmpiltu (d : Reg) (a : Reg) (b : VSrc) (esz : BitVec 2)
  | vcmpsel (d : Reg) (a : Reg) (b : VSrc) (c : Reg) (esz : BitVec 2)
  | vshl (d : Reg) (a : Reg) (b : Reg) (esz : BitVec 2)
  | vshr (d : Reg) (a : Reg) (b : Reg) (esz : BitVec 2)
  | vsha (d : Reg) (a : Reg) (b : Reg) (esz : BitVec 2)
  | vshls (d : Reg) (a : Reg) (c : Reg) (esz : BitVec 2)
  | vshrs (d : Reg) (a : Reg) (c : Reg) (esz : BitVec 2)
  | vshas (d : Reg) (a : Reg) (c : Reg) (esz : BitVec 2)
  | vredsum (d : Reg) (b : VSrc) (rm : BitVec 3)
  | vredmax (d : Reg) (b : VSrc)
  | vredmin (d : Reg) (b : VSrc)
  | vredisum (d : Reg) (b : VSrc) (esz : BitVec 2)
  | vredimax (d : Reg) (b : VSrc) (esz : BitVec 2)
  | vredimin (d : Reg) (b : VSrc) (esz : BitVec 2)
  | vredor (d : Reg) (b : VSrc) (esz : BitVec 2)
  | vredcnt (d : Reg) (b : VSrc) (esz : BitVec 2)
  | vmov (d : Reg) (b : VSrc)
  | vmovs (d : Reg) (a : Reg) (esz : BitVec 2)
  | vmovx (d : Reg) (a : Reg) (c : Reg) (esz : BitVec 2)
  | vmovi (d : Reg) (a : Reg) (b : Reg) (c : Reg) (esz : BitVec 2)
  | vmovp (d : Reg) (a : Reg) (b : Reg) (esz : BitVec 2)
  | vmovsr (d : Reg) (b : VSrc) (c : Reg)
  | vcvif (d : Reg) (b : VSrc) (rm : BitVec 3)
  | vcvn (d : Reg) (a : Reg) (b : VSrc) (f : BitVec 6) (rm : BitVec 3)
  | vcvfi (d : Reg) (b : VSrc) (rm : BitVec 3)
  | vcvw (d : Reg) (b : Reg) (f : BitVec 6)
  | vqpq8 (d : Reg) (a : Reg) (b : VSrc) (c : Reg) (rm : BitVec 3)
  | vqpq4 (d : Reg) (a : Reg) (b : VSrc) (c : Reg) (rm : BitVec 3)
  | vqpf8ab (d : Reg) (a : Reg) (b : VSrc) (c : Reg) (rm : BitVec 3)
  | vqpf4ab (d : Reg) (a : Reg) (b : VSrc) (c : Reg) (rm : BitVec 3)
  | vqpdq8 (d : Reg) (b : Reg) (c : Reg)
  | vqpdq4 (d : Reg) (b : Reg) (c : Reg)
  | vstrleft (d : Reg) (imm : BitVec 2)
  | vstrrow (d : Reg) (imm : BitVec 2)
  | vstrdrain (imm : BitVec 2)
  | rst (d : Reg) (a : Reg) (esz : BitVec 2) (imm : BitVec 25)
  | rstcp (d : Reg) (a : Reg) (imm : BitVec 6)
  | rstpm (a : Reg)
  | rstpmrd (d : Reg)
  | rld (d : Reg) (a : Reg) (esz : BitVec 2) (imm : BitVec 25)
  | rlds (d : Reg) (a : Reg) (esz : BitVec 2) (imm : BitVec 25)
  | rldadd (d : Reg) (a : Reg) (esz : BitVec 2) (imm : BitVec 25)
  | mcst (d : Reg) (a : Reg) (b : Reg) (c : Reg)
  | crel (d : Reg) (a : Reg) (b : Reg) (esz : BitVec 2) (ext : BitVec 64)
  | crelm (d : Reg) (a : Reg) (b : Reg) (c : Reg) (esz : BitVec 2) (ext : BitVec 64)
  | rcptw (d : Reg) (imm : BitVec 4)
  | rcpttest (d : Reg) (imm : BitVec 4)
  | mixreg (d : Reg) (a : Reg)
  | mixadd (d : Reg) (a : Reg) (b : Reg)
  | mixrd (d : Reg) (a : Reg) (b : Reg) (esz : BitVec 2)
  | mixst (d : Reg) (a : Reg) (b : Reg)
  | mixstep (d : Reg) (a : Reg) (b : Reg)
  | mixwait (d : Reg) (a : Reg)
  | dereg (d : Reg) (a : Reg) (b : Reg) (c : Reg)
  | ohand (d : Reg) (a : Reg) (imm : BitVec 25)
  | otake (d : Reg) (a : Reg) (imm : BitVec 25)
  | odrop (a : Reg) (imm : BitVec 25)
  | otest (d : Reg) (a : Reg) (imm : BitVec 25)
  | msend (a : Reg) (b : Reg) (c : Reg)
  | mpop (d : Reg)
  | mlen (d : Reg) (a : Reg)
  | mlaunch (d : Reg) (b : Reg)
  | chmask (imm : BitVec 6)
  | chunmask (imm : BitVec 6)
  | chrd (d : Reg) (imm : BitVec 6)
  | chprio (a : Reg) (imm : BitVec 6)
  | creg (imm : BitVec 25)
  | sysflush (a : Reg)
  | sigen (a : Reg)
  | sigrd (d : Reg)
  | sorterAdd (kd : BitVec 4) (ka : BitVec 4) (kb : BitVec 4)
  | sorterSub (kd : BitVec 4) (ka : BitVec 4) (kb : BitVec 4)
  | sorterAnd (kd : BitVec 4) (ka : BitVec 4) (kb : BitVec 4)
  | sorterOr (kd : BitVec 4) (ka : BitVec 4) (kb : BitVec 4)
  | sorterXor (kd : BitVec 4) (ka : BitVec 4) (kb : BitVec 4)
  | sorterShl (kd : BitVec 4) (ka : BitVec 4) (kb : BitVec 4)
  | sorterShr (kd : BitVec 4) (ka : BitVec 4) (kb : BitVec 4)
  | setltu (kd : BitVec 4) (ka : BitVec 4) (kb : BitVec 4)
  | seteq (kd : BitVec 4) (ka : BitVec 4) (kb : BitVec 4)
  | addk (kd : BitVec 4) (ka : BitVec 4) (imm : BitVec 18)
  | andk (kd : BitVec 4) (ka : BitVec 4) (imm : BitVec 18)
  | shlk (kd : BitVec 4) (ka : BitVec 4) (n : BitVec 6)
  | shrk (kd : BitVec 4) (ka : BitVec 4) (n : BitVec 6)
  | movk (kd : BitVec 4) (imm : BitVec 18)
  | sorterBeq (ka : BitVec 4) (kb : BitVec 4) (off : BitVec 8)
  | sorterBne (ka : BitVec 4) (kb : BitVec 4) (off : BitVec 8)
  | sorterBltu (ka : BitVec 4) (kb : BitVec 4) (off : BitVec 8)
  | jmp (off : BitVec 8)
  | hget (kd : BitVec 4) (f : BitVec 5)
  | hset (ka : BitVec 4) (f : BitVec 5)
  | pldw (wd : BitVec 4) (f : BitVec 3)
  | pstw (wa : BitVec 4) (f : BitVec 3)
  | wget (kd : BitVec 4) (wa : BitVec 4) (l : BitVec 2)
  | wset (wd : BitVec 4) (ka : BitVec 4) (l : BitVec 2)
  | fsel (ka : BitVec 4)
  | sld (kd : BitVec 4) (off : BitVec 3)
  | sst (ka : BitVec 4) (off : BitVec 3)
  | sldw (wd : BitVec 4) (off : BitVec 1)
  | sstw (wa : BitVec 4) (off : BitVec 1)
  | gld (kd : BitVec 4) (ka : BitVec 4)
  | gmem (kd : BitVec 4) (ka : BitVec 4) (kb : BitVec 4)
  | emit (ka : BitVec 4)
  | emitg (ka : BitVec 4)
  | nack (n : BitVec 8)
  | sorterTrap (n : BitVec 8)
  | nop
  | cseal
  | auto
  | share
  | nbrset
  | fend
  | cend
  | eret
  | syscall
  | sysbrk
  | sysabort
  | syspark
  | fwd
  | drop
  | annulledPass
  | interrupt
  | deferredEvent
  | streamElement
  | semaphoreStore
  | copySector
  | copyCompletion
  | mac
  | matrixMul
  | fill
  | mark
  | matrixGate
  | matrixComplete
  | flush
  | resume
  | countedWrite
  | release
  | outcomeRecordExpiry
  | roundExpiry
  | senderRoundExpiry
  | shortfallNotice
  | receipt
  | nackPacket
  | readRequest
  | readReply
  | rldRoundExpiry
  | linkControl
  | bufferInterval
  | flitBeat
  | messageLeavesSendBuffer
  | sorterPacket
  | load
  | attach
  | detach
  | rearm
  | state
  | mixInterval
  | perform
  | drain
  | widen
  | firingBegin
  | launchPacket
  | launchCompletion
  | energyInterval
  | watchdog
  | quantumEnd
  | boundary
  | preemptionRequest
  | switchOut
  | restore
  | contextRemoval
  | pageWalk
  | scrubVisit
  | unitFence
  | powerWindow
  | thermalLimit
  | moduleReset
  | evhead
  | tail
  | plimit
  | registerWrite
  | ctxset
  | ctxremove
  | sorter
  | fabcfg
  | serviceFence
  | declare
  | railcal
  | railReturn
  | fwstage
  | mode
  | errcnt
  | walkans
  | fwact
  | resend
  | getVersion
  | getCapabilities
  | negotiateAlgorithms
  | getDigests
  | getCertificate
  | challenge
  | getMeasurements
  | keyExchange
  | finish
  | hostMemoryAccess
  | failureDeclaration
  deriving DecidableEq, Repr

end Sys2Proof
end

