-- ==== Sys2Proof/Machine/State.lean ====
section
/-! DEFINITION. The state of one Stoxian module as plain data, its reset value, and the reasons a step can stop. -/

namespace Sys2Proof.Machine

/-- Sparse byte memory: addresses strictly rising, no entry holding the byte 0 that an unlisted address reads as
(log 3, DESIGN CHOICE; operand and accumulator memory: R201). -/
abbrev Memory := List Host.Cell

/-- The form every memory of the model has. -/
def Memory.wf (m : Memory) : Bool :=
  decide (List.Pairwise (· < ·) (m.map Prod.fst)) && m.all (fun c => decide (c.2 ≠ 0#8))

/-- A register of a core: scalar x or vector v. -/
inductive RegName where
  | x (n : Nat)
  | v (n : Nat)
  deriving DecidableEq, Repr

/-- A key of a party: one core of the chip. -/
abbrev Party := CoreRef

/-! ### The abstract machine of R319 -/

/-- Who makes a write, for "every earlier access of a core is visible" (R319) and the joins of R325. -/
inductive Owner where
  | core (c : Party)
  | copy (id : Nat)
  | stream (cell k : Nat)
  | engine
  /-- the counted write or the flag of a packet, by the cell that sent it and its postmark (R242, R244, R334) -/
  | fabric (schip scell ctx ctr seq : Nat)
  deriving DecidableEq, Repr

/-- One write of the coherence order that is not yet visible at its widest scope (R319). -/
structure Write where
  id : Nat
  data : List Host.Cell
  /-- the cell around which scopes are judged (R318) -/
  cell : Nat
  owner : Owner
  /-- 0 cell, 1 cluster, 2 chip, 3 domain, 4 system -/
  scope : Nat
  /-- the widest scope of its location: 2 for a scratchpad, 4 elsewhere (R318) -/
  top : Nat
  /-- quarters of sectors (16 bytes, address / 16) that it fills with the poison marker (true) or clears of it (false)
  (R100, R336) -/
  marks : List (Nat × Bool) := []
  /-- the sector of the 64-byte store of which it is one of the four parts (R133, R145) -/
  quad : Option Nat := none
  deriving DecidableEq, Repr

/-- Where a store-buffer entry goes. -/
inductive StoreTarget where
  | mem (data : List Host.Cell)
  /-- a FENCE.REL or FENCE.AR still waiting under R136 -/
  | fence
  /-- a control-page register at this page offset (R83) -/
  | control (offset : Nat) (value : Word)
  deriving DecidableEq, Repr

/-- A store that has retired and not yet drained (R319). -/
structure StoreEntry where
  /-- names the access; its writes carry the same number -/
  id : Nat
  target : StoreTarget
  /-- the sector or page-offset sector, for the order of R321 -/
  sector : Nat
  /-- the scope of a release store, none for a plain one -/
  release : Option Nat
  /-- accesses of the core it waits for: for a release and a fence every earlier one, for a plain store the acquire
  loads before it (R321, R322) -/
  after : List Nat
  /-- the physical leaf page when the leaf has O = 1 (R332) -/
  owned : Option Nat
  /-- one of the four parts of a 64-byte store, which together clear poison (R100, R133) -/
  quad : Bool
  deriving DecidableEq, Repr

/-- A load that has retired and is not yet performed (R319). -/
structure OutLoad where
  id : Nat
  addr : Nat
  size : Nat
  signed : Bool
  /-- none when the result is discarded (D = x0, R131) -/
  dst : Option RegName
  ea : VAddr
  acquire : Bool
  /-- bytes that an LD64 has already read, in parts of 16 bytes (R133) -/
  got : List Host.Cell := []
  deriving DecidableEq, Repr

/-- What a pending register waits for. -/
inductive PendSource where
  | load
  | tag (t : Nat)
  | boundary
  deriving DecidableEq, Repr

structure Pend where
  reg : RegName
  source : PendSource
  deriving DecidableEq, Repr

/-- A deferred event (R369): its cause and trap value. -/
structure Deferred where
  cause : Nat
  tval : Word
  deriving DecidableEq, Repr

/-- A running firing (R351). -/
structure Firing where
  channel : Nat
  /-- consumed inbox slots, in arrival order -/
  slots : List Nat
  popped : Nat
  /-- send-buffer entries still reserved -/
  produce : Nat
  lid : Nat
  deriving DecidableEq, Repr

/-- A message (R345) on its way: the 64 bytes and the cell it goes to. -/
structure Message where
  body : Vec
  deriving DecidableEq, Repr

/-- A committed message in a send buffer, the accesses of the sender that must be visible at chip scope before it leaves
(R353), and its number in the send order (R340). -/
structure SendEntry where
  msg : Message
  after : List Nat
  num : Nat := 0
  deriving DecidableEq, Repr

/-- The fold of an entered signature block (R380). -/
structure Fold where
  start : Nat
  length : Nat
  wantCfs : BitVec 32
  wantDds : BitVec 32
  cfs : BitVec 32
  dds : BitVec 32
  /-- an instruction of the block has been folded -/
  begun : Bool := false
  deriving DecidableEq, Repr

/-- The ordering of a collected atomic (R322, R323): the number that names the access, the scope of a release, and whether it is an
acquire. -/
structure AmoOrder where
  id : Nat
  release : Option Nat := none
  acquire : Bool := false
  deriving DecidableEq, Repr

/-- An operation collected for a boundary (R340). Atomics, takes and semaphore tests have a number, as accesses have. -/
inductive Collected where
  | amo (fn : Nat) (wide : Bool) (addr : Nat) (b c : Word) (dst : Option RegName) (ea : Word) (owned : Option Nat) (order : AmoOrder)
  | semPost (n amount : Nat)
  | semWait (n amount : Nat)
  | semTry (n amount : Nat) (dst : Option RegName) (id : Nat)
  | semStore (n : Nat) (count : Byte)
  | barSet (addr : Nat) (count : Nat)
  | barArrive (addr : Nat)
  | barExpect (addr : Nat) (n : BitVec 32)
  | barWait (addr : Nat) (gen : Nat)
  | hand (page : Nat) (heir : Word)
  | take (page : Nat) (dst : Option RegName) (id : Nat)
  | drop (page : Nat)
  | channel (op : Nat) (n : Nat) (value : Nat)
  deriving DecidableEq, Repr

/-- A core's part in its context's deterministic group (R337 to R342). -/
structure Member where
  active : Bool := false
  count : Nat := 0
  paused : Bool := false
  /-- the boundary wait that the boundary has satisfied and whose instruction has not retired yet -/
  granted : Option Collected := none
  /-- whether it had arrived when its last turn outside trap mode began (R342) -/
  arrived : Bool := false
  /-- the scalar fields of the instruction that it had reached then, by which its wait is judged while it is in trap mode or
  switched out (R339, R342) -/
  fields : List Reg := []
  /-- the instruction at the head waits for a collected operation, which only a boundary applies (R323, R339) -/
  behind : Bool := false
  ops : List Collected := []
  deriving DecidableEq, Repr

/-- One scalar core (R103). -/
structure Core where
  x : Tbl Word := []
  v : Tbl Vec := []
  c0 : VAddr := 0
  c1 : VAddr := 0
  c2 : VAddr := 0
  n0 : Bool := false
  n1 : Bool := false
  n2 : Bool := false
  s1 : Bool := false
  s2 : Bool := false
  fcsr : Word := 0
  /-- the flags that FCSR held before a write of it last changed them, which FLAGOR may still show (R197) -/
  stale : Option (BitVec 5) := none
  srseed : Word := 0
  srcnt : Word := 0
  quant : Word := 0
  sigbase : Word := 0
  cregh : Word := 0
  retired : Word := 0
  tcause : Word := 0
  tval : Word := 0
  tepc : Word := 0
  tepc1 : Word := 0
  tepc2 : Word := 0
  tepcn : Word := 0
  tstat : Word := 0
  firing : Option Firing := none
  /-- it runs its chain; else, outside trap mode, it is in selection (R350, R371) -/
  running : Bool := false
  lastFired : Nat := 0
  sendBuffer : List SendEntry := []
  stores : List StoreEntry := []
  loads : List OutLoad := []
  /-- (load, write): a performed load and a write it read, until that write is visible everywhere (R319) -/
  seen : List (Nat × Nat) := []
  pending : List Pend := []
  /-- L of the fragment read at the head: LASTW of its tile as the instruction reached the head (R219) -/
  fragMark : Option (BitVec 32) := none
  events : List Deferred := []
  preempt : Bool := false
  /-- it has taken a pre-emption request: replies to its remote loads go to the pending-load record until a restore applies it
  (R373, R374) -/
  saving : Bool := false
  /-- it is in the handler of a pre-emption request, from taking the interrupt to its ERET (R342, R373) -/
  handling : Bool := false
  /-- results of collected operations that a boundary gave while the handler ran or the context was switched out (R342) -/
  lateD : List (Nat × Word) := []
  watchdog : Option Nat := none
  sigEn : Bool := true
  /-- EN was set inside a block: checking begins at the next block entry (R381) -/
  sigWait : Bool := false
  fold : Option Fold := none
  member : Member := {}
  parked : Bool := false
  halted : Bool := false
  deriving DecidableEq, Repr

/-! ### A cell and its context state -/

/-- A waiter of a semaphore line (R148). -/
inductive Waiter where
  | core (r : Role)
  | sequencer
  deriving DecidableEq, Repr

/-- A waiter that has taken its amount of a semaphore, and the posts before it, whose earlier accesses it still waits for
(R148, R150). -/
structure SemGrant where
  who : Waiter
  sem : Nat
  amount : Nat
  posts : List (Role × List Nat)
  deriving DecidableEq, Repr

/-- An entry of a queue, and the accesses of the pushing core that must be visible at cell scope before it can be
popped (R139). -/
structure QEntry where
  value : Word
  after : List Nat
  deriving DecidableEq, Repr

/-- A pigeonhole (R347, R348). WAITING is the length of the channel's line. -/
structure Pigeon where
  ctl : Word := 0
  fired : BitVec 32 := 0
  deriving DecidableEq, Repr

/-- A stream generator (R141 to R145). -/
structure Stream where
  /-- 0 IDLE, 1 RUNNING, 2 DONE -/
  mode : Nat := 0
  out : Bool := false
  coreC : Bool := false
  base : Word := 0
  cnt0 : Nat := 0
  cnt1 : Nat := 0
  stride0 : Int := 0
  stride1 : Int := 0
  /-- elements that have passed through vk -/
  passed : Nat := 0
  /-- elements the generator has read (IN) or written (OUT) -/
  moved : Nat := 0
  /-- the port buffer, oldest first; none marks a poisoned element -/
  port : List (Option Vec) := []
  /-- OUT: the launch of the firing that pushed each element of the port buffer (R360) -/
  lids : List Nat := []
  /-- accesses of the A-core before STRGO that an element read must see (R145) -/
  after : List Nat := []
  /-- quantum in which STRGO forked it (R325, R340) -/
  quantum : Nat := 0
  deriving DecidableEq, Repr

/-- A queued matrix command (R208, R213). -/
structure MatrixCmd where
  word : Vec
  number : BitVec 32
  /-- accesses of the C-core before the ST64 (R325) -/
  after : List Nat
  lid : Nat
  /-- quantum in which it was forked (R341) -/
  quantum : Nat := 0
  deriving DecidableEq, Repr

/-- What the executing command has computed and not yet made visible. -/
structure MatrixResult where
  tile : List (BitVec 32)
  flags : BitVec 5
  writes : Bool
  poisoned : Bool
  /-- elements that are visible already (R215, R226) -/
  shown : List Nat := []
  deriving DecidableEq, Repr

/-- The matrix sequencer of a cell (R205 to R222). -/
structure Matrix where
  queue : List MatrixCmd := []
  enq : BitVec 32 := 0
  done : BitVec 32 := 0
  stopped : Bool := false
  fcause : Nat := 0
  gated : Bool := false
  /-- the head command has passed its gate -/
  passed : Bool := false
  /-- bytes that the head command has read before the others (R215) -/
  early : List (Nat × Byte) := []
  result : Option MatrixResult := none
  lastw : Tbl (BitVec 32) := []
  deriving DecidableEq, Repr

/-- A sealed batch (R178): its copies, and the latest quantum in which one was forked (R341). -/
structure Batch where
  copies : List Nat
  quantum : Nat
  deriving DecidableEq, Repr

/-- An engine's post or barrier count of a member, kept until its quantum enters the view (R341): a semaphore to post, or
the key of a barrier object to perform "outbound done" on. -/
structure HeldPost where
  quantum : Nat
  role : Role
  sem : Option Nat
  bar : Option Nat
  deriving DecidableEq, Repr

/-- What a boundary takes of a cell (R341). -/
structure CellView where
  sems : Tbl Byte := []
  queues : Tbl Nat := []
  lines : Tbl (List Nat) := []
  /-- CTL of each pigeonhole, by which a member's next firing is chosen -/
  ctls : Tbl Word := []
  /-- GEN of barrier objects: the scratchpad as it stood -/
  spad : Memory := []
  deriving DecidableEq, Repr

/-- The context state of a cell, saved and restored with the context (R103, R372). -/
structure CellCtx where
  coreA : Core := {}
  coreX : Core := {}
  coreC : Core := {}
  sems : Tbl Byte := []
  /-- the waiters of each semaphore with the amounts they wait for, first in line first (R148) -/
  semLines : Tbl (List (Waiter × Nat)) := []
  /-- the waiters that have taken their amounts and not yet passed on (R148, R150) -/
  grants : List SemGrant := []
  queues : Tbl (List QEntry) := []
  /-- posts by cores to each semaphore whose earlier accesses are not yet known visible at cell scope (R150) -/
  posts : Tbl (List (Role × List Nat)) := []
  pigeons : Tbl Pigeon := []
  lines : Tbl (List Nat) := []
  inbox : Tbl Vec := []
  taken : List Nat := []
  windows : Tbl Word := []
  tids : Tbl Vec := []
  held : BitVec 32 := 0
  slotLines : Tbl (List Role) := []
  streams : Tbl Stream := []
  matrix : Matrix := {}
  unsealed : List Nat := []
  /-- latest quantum in which an unsealed copy was forked -/
  unsealedQuantum : Nat := 0
  sealed : List Batch := []
  pmk : Word := 0
  /-- the poste restante, and after a restore what of it still waits for inbox slots (R374); each message with whether the view of the
  group's last boundary holds it (R341) -/
  poste : List (Message × Bool) := []
  /-- messages held for the next boundary (R340): for a member its LCN and the number of the send, none for others -/
  heldMessages : List (Option (Nat × Nat) × Message) := []
  heldPosts : List HeldPost := []
  view : CellView := {}
  deriving DecidableEq, Repr

/-- A cell of the compute die. -/
structure Cell where
  fenced : Bool := false
  /-- CTXID of the context that occupies the cell -/
  resident : Option Nat := none
  ctx : CellCtx := {}
  /-- ATAG of the next fetch-and-add of its A-core (R259) -/
  atag : BitVec 16 := 0
  deriving DecidableEq, Repr

/-- A switched-out context of a cell: its private image part, with the poste restante (R372 to R374). -/
structure Saved where
  ctxid : Nat
  cell : Nat
  ctx : CellCtx
  /-- false until the context has been resident once: nothing to load from its image -/
  imaged : Bool := false
  deriving DecidableEq, Repr

/-! ### Network interface -/

/-- A release slot of an A-core (R261, R262). -/
inductive RelState where
  | free
  | pending
  | complete
  | refused (reason : Nat) (raddr : Word)
  | failed
  deriving DecidableEq, Repr

structure RelSlot where
  state : RelState := .free
  ctr : Nat := 0
  start : BitVec 16 := 0
  count : Nat := 0
  /-- the release as it is sent again by the round timer -/
  packet : Option Packet := none
  /-- round 1 to 5, 0 when the timer is stopped -/
  round : Nat := 0
  deadline : Nat := 0
  /-- the rounds for which a notice has arrived (R249) -/
  noticed : List Nat := []
  /-- registry entry of the mixing exchange that holds the slot (R309) -/
  mixing : Option Nat := none
  lid : Nat := 0
  quantum : Nat := 0
  deriving DecidableEq, Repr

/-- The source of a counted write's payload (R247). -/
inductive SendSource where
  | data
  /-- the payload bytes as (key in memory, address the core named), read at each sending -/
  | memory (addrs : List (Nat × Nat))
  deriving DecidableEq, Repr

/-- A send record (R247). -/
structure SendRec where
  packet : Packet
  source : SendSource
  /-- accesses of the A-core before the fork, which a read of the source must see (R325) -/
  after : List Nat := []
  /-- notices it was sent again for: the notifying chip and the round (R249) -/
  sent : List (BitVec 12 × BitVec 3) := []
  deriving DecidableEq, Repr

/-- A sending of a counted write whose source lies in memory, while the interface reads it (R247, R267, R325): the bytes that it has
read, by key. -/
structure Sending where
  record : SendRec
  round : BitVec 3
  got : List (Nat × Byte) := []
  deriving DecidableEq, Repr

/-- A load tag in use (R259). -/
structure LoadTag where
  /-- names the access among those of its core (R319) -/
  id : Nat
  packet : Packet
  dst : Option RegName
  signed : Bool
  fa : Word
  round : Nat
  deadline : Nat
  /-- a cancelled load writes nothing and raises nothing (R379) -/
  cancelled : Bool := false
  deriving DecidableEq, Repr

/-- A pending-load entry of the save area (R374): status 0 data, 1 poison, 2 refused, 3 failed, with the cause that a
status other than 0 will raise. -/
structure LateReply where
  tag : Nat
  status : Nat
  data : Word
  cause : Nat
  deriving DecidableEq, Repr

/-- The network-interface state of one context in one cell; it stays while the context is switched out (R373). -/
structure Ni where
  rel : Tbl RelSlot := []
  recs : List SendRec := []
  /-- sendings whose source is being read, oldest first -/
  outgoing : List Sending := []
  tags : Tbl LoadTag := []
  /-- the pending-load record (R374) -/
  late : List LateReply := []
  deriving DecidableEq, Repr

/-- State of a horizon position (R240). -/
inductive Pos where
  | awaited | arrived | released
  | refused (reason : Nat) (faddr : Word)
  deriving DecidableEq, Repr

structure PendRel where
  packet : Packet
  round : Nat
  deadline : Nat
  deriving DecidableEq, Repr

/-- An outcome record (R246). -/
structure OutcomeRec where
  start : BitVec 16
  count : Nat
  status : Nat
  reason : Nat
  raddr : Word
  time : Nat
  deriving DecidableEq, Repr

/-- A postmark counter (R240). -/
structure Counter where
  count : BitVec 32 := 0
  base : BitVec 16 := 0
  pos : Tbl Pos := []
  pending : List PendRel := []
  outcomes : List OutcomeRec := []
  deriving DecidableEq, Repr

/-- A kept fetch-and-add reply (R259). -/
structure KeptReply where
  schip : Nat
  scell : Nat
  atag : BitVec 16
  poison : Bool
  data : Word
  deriving DecidableEq, Repr

/-- A packet at the sorting office: whether it goes out, and whether a kernel has had it (R274, R275). -/
structure NetItem where
  packet : Packet
  outbound : Bool
  offered : Bool
  /-- the scale-up or scale-out port by which it came in: it occupies that port's receive buffer (R268, R269) -/
  port : Option Nat := none
  /-- one of its translations waits for a walk (R93) -/
  waits : Bool := false
  deriving DecidableEq, Repr

/-- A scale-up or scale-out port (R268, R269). -/
structure Port where
  fenced : Bool := false
  /-- rails out for recalibration or fenced -/
  railsOut : List Nat := []
  railsFenced : List Nat := []
  /-- a beat of the packet being received could not be rebuilt -/
  rxBad : Bool := false
  /-- occupancy of the receive buffer per virtual network over the interval, in 64-byte units: what it held at the beginning and what
  has arrived since (R269) -/
  occupancy : Tbl Nat := []
  /-- limits announced to the peer, and limits this port's sender obeys, per virtual network -/
  announced : Tbl Nat := []
  limits : Tbl Nat := []
  /-- the limit before the last that lowered it: its space is kept until the buffer has drained to the new limit (R269) -/
  old : Tbl Nat := []
  /-- units of the packets sent by this port that the peer's buffer still holds, per virtual network (R268) -/
  out : Tbl Nat := []
  lastInterval : Nat := 0
  deriving DecidableEq, Repr

/-! ### Sorters -/

/-- A kernel run of a sorter (R279). -/
structure Run where
  packet : Packet
  outbound : Bool
  key : Nat
  attachment : Attachment
  code : List (BitVec 32)
  pc : Nat
  k : Tbl Word
  w : Tbl (BitVec 256)
  flow : Nat
  /-- payload length at entry -/
  length : Nat
  emitted : List Packet
  wrotePayload : Bool
  deriving DecidableEq, Repr

/-- A loaded kernel (R277). -/
structure Kernel where
  ctx : Nat
  cls : BitVec 8
  lo : Nat
  hi : Nat
  code : List (BitVec 32)
  deriving DecidableEq, Repr

structure Sorter where
  fenced : Bool := false
  kernels : List Kernel := []
  flows : Tbl Vec := []
  suspended : List Nat := []
  /-- flows whose state meets an uncorrectable error (R286) -/
  badFlows : List Nat := []
  run : Option Run := none
  deriving DecidableEq, Repr

/-! ### Mixing -/

/-- The outstanding exchange of a block (R309). -/
structure Exchange where
  half : List Int
  mass : Nat
  entry : Nat
  chip : BitVec 12
  slot : Nat
  /-- quantum in which a member's MIXSTEP forked it; none for an automatic one (R325, R340) -/
  forked : Option Nat := none
  deriving DecidableEq, Repr

/-- A registered block (R295, R296). Its elements and staging area lie in memory at the kept translations. -/
structure Block where
  ctx : Nat
  cell : Nat
  num : Nat
  e : Int
  n : Nat
  nslot : Nat
  /-- physical addresses of the 4 KiB pages of the element range and of the staging area, with their first offsets -/
  xpages : List Nat
  xoff : Nat
  spages : List Nat
  soff : Nat
  m : Nat
  nbr : Tbl Word := []
  seqs : Tbl (BitVec 16) := []
  next : Nat := 0
  /-- TARGET of the state word: the entry of the last exchange started (R305, R309) -/
  target : Nat := 0
  out : Option Exchange := none
  dis : BitVec 32 := 0x7F800000#32
  ddec : BitVec 32 := 0x7F800000#32
  exch : Word := 0
  fails : Word := 0
  auto : Bool := false
  last : Nat := 0
  deriving DecidableEq, Repr

/-! ### Copies, launches, contexts -/

/-- One destination byte of a copy and where its bits come from are computed when a sector is served; the copy keeps
what it read at issue (R154, R162, R168). -/
structure Copy where
  id : Nat
  ctx : Nat
  cell : Nat
  dst : Vec
  src : Vec
  dorg : Word
  sorg : Word
  xf : Nat
  mode : Nat
  /-- SRSEED and SRCNT at issue (R166) -/
  seed : Word
  key : Word
  index : List Nat
  /-- translated pages of both ends: virtual 4 KiB page, key of its first byte, and the leaf page when the leaf has O = 1 -/
  pages : List (Nat × Nat × Option Nat)
  /-- destination sectors still to serve, in order -/
  todo : List Nat
  /-- bytes read before any write, for a plain copy that overlaps itself (R170) -/
  snapshot : Option (List (Nat × Byte))
  /-- source bytes of the sector served next that the engine has already read (R175) -/
  early : List (Nat × Byte) := []
  flags : BitVec 5
  slack : Nat
  issue : Nat
  sem : Option Nat
  bar : Option Nat
  unit : Bool
  lid : Nat
  quantum : Nat
  /-- accesses of the issuing A-core that its reads must see (R325) -/
  after : List Nat
  /-- numbers of matrix commands an ACCM source waits for (R176): tile and LASTW -/
  tiles : List (BitVec 32)
  /-- counted writes of an RSTCP still to leave (R257) -/
  writes : List SendRec
  deriving DecidableEq, Repr

/-- An ended firing as its launch's completion record waits for it: its core, the accesses that must be visible, and whether operations
that it collected wait for a boundary, whose writes then join them (R334, R340). -/
structure Ended where
  core : CoreRef
  ids : List Nat
  held : Bool := false
  deriving DecidableEq, Repr

/-- A running launch (R359, R360, R363, R364). -/
structure Launch where
  ctx : Nat
  cls : Nat
  persistent : Bool
  first : Nat
  ncell : Nat
  wdog : Nat
  energy : Nat
  crec : Word
  user : BitVec 32
  parent : Option Nat
  inflight : Nat := 0
  active : Nat := 0
  children : Nat := 0
  used : Nat := 0
  metered : Nat := 0
  exhausted : Bool := false
  fired : Nat := 0
  accepted : Nat := 0
  /-- the packet is still in the device-side queue -/
  queued : Bool := false
  /-- cycles that each cluster's watchdog has counted since it last restarted (R364) -/
  watch : Tbl Nat := []
  /-- what its completion record waits for of its ended firings (R334) -/
  after : List Ended := []
  deriving DecidableEq, Repr

/-- A host launch queue (R357). -/
structure HostQueue where
  qbase : Word := 0
  qcfg : Word := 0
  tail : BitVec 32 := 0
  head : BitVec 32 := 0
  deriving DecidableEq, Repr

/-- An ownership record (R329). -/
structure OwnRec where
  holder : Option (Nat × Word) := none
  pending : Option (Nat × Word) := none
  handedBy : Option (Nat × Word) := none
  written : Bool := false
  deriving DecidableEq, Repr

/-- A resident context's descriptor (R370) and what the device keeps with it. -/
structure Context where
  ctxid : Nat
  cbase : Nat
  climit : Nat
  mbbase : Nat
  mblimit : Nat
  fclog2 : Nat
  root : Word
  trapvec : Word
  savebase : Word
  fcbase : Word
  gtbase : Word
  sigbase : Word
  /-- records written to the fault channel (R376) -/
  fcSeq : BitVec 32 := 0
  /-- a fatal fault has been declared: the KIND 3 record to write (R377) -/
  dying : Option (List Byte) := none
  /-- quantum number of the deterministic group (R339) -/
  quantum : Nat := 0
  /-- ownership records as the group's last boundary took them (R341) -/
  ownView : Tbl OwnRec := []
  deriving DecidableEq, Repr

/-! ### Translation -/

/-- A cached translation (R93): one 4 KiB page of a context on one cluster. -/
structure TlbEntry where
  cluster : Nat
  ctx : Nat
  page : Nat
  leaf : Word
  level : Nat
  deriving DecidableEq, Repr

/-- A translation miss waiting for or in a walker (R93). -/
structure Miss where
  cluster : Nat
  ctx : Nat
  page : Nat
  waiters : List Party
  /-- begun in host-assisted mode: answered by WALKANS (R389) -/
  assisted : Bool
  deriving DecidableEq, Repr

/-! ### Service -/

/-- An event record to the host (R384): KIND, ARG0, ARG1, ARG2. -/
structure HostEvent where
  kind : Nat
  arg0 : Word
  arg1 : Word
  arg2 : Word
  deriving DecidableEq, Repr

/-- An entry of a PCIe DOE mailbox: the code of the message, the request and the answer, and the opaque data that the answer carries
(R388). -/
structure DoeEntry where
  code : Nat
  request : List Byte
  body : List Byte
  opaqueData : List Byte := []
  deriving DecidableEq, Repr

/-- The part of a record that follows its other bytes (R361, R376, R384). -/
inductive Second where
  /-- the last byte or SEQ of a record -/
  | bytes (cells : List Host.Cell)
  /-- EVTAIL moves past a record of the event ring, and MSI-X vector 0 is raised (R384) -/
  | tail
  /-- byte 0x1F of the completion record of launch `lid`, whose LID is free after it (R361) -/
  | record (cells : List Host.Cell) (lid : Nat)
  deriving DecidableEq, Repr

/-- The host-facing registers and the service state (R383 to R390). -/
structure Service where
  stage : Nat := 1
  secure : Bool := false
  /-- the boot ROM has refused the firmware: nothing else starts until the module is reset (R386) -/
  bootFailed : Bool := false
  /-- the ports have been given the chip identifier and trained (R386 stage 5) -/
  portsEnabled : Bool := false
  /-- FABCFG has given the chip identifier (R385, R386) -/
  chipGiven : Bool := false
  fwVersion : BitVec 32 := 0
  staged : Option (List Byte) := none
  active : Tbl (List Byte) := []
  /-- the cluster that FWACT is restarting, and those it has still to restart (R389) -/
  restart : Option Nat := none
  toRestart : List Nat := []
  evbase : Word := 0
  evcfg : Word := 0
  evhead : BitVec 32 := 0
  evtail : BitVec 32 := 0
  heldEvents : List HostEvent := []
  msix : Nat := 0
  /-- the command register MBCMD, and the opcode of the command in execution: BUSY (R383, R385) -/
  mbcmd : Vec := 0
  busy : Option Nat := none
  mbstatus : Nat := 0
  mbresult : Word := 0
  plimit : Nat := 1500
  /-- functions in host-assisted mode: 0 page walks, 1 retransmission, 2 launch parsing, 3 scrubbing,
  4 failure declaration, 5 energy metering (R389) -/
  assisted : List Nat := []
  corrected : Tbl Nat := []
  uncorrectable : Tbl Nat := []
  idleInserted : Bool := false
  halfRate : Bool := false
  shutDown : Bool := false
  fenced : List (Nat × Nat) := []
  /-- chips that every switch reports fenced, and chips declared failed -/
  switchFenced : List Nat := []
  declared : List Nat := []
  proxies : Tbl Nat := []
  doe : List DoeEntry := []
  hostReads : List (List Byte) := []
  deriving DecidableEq, Repr

/-! ### The module -/

/-- Whose turn it is (log 1, DESIGN CHOICE): one instruction of a core, one instruction of a sorter's running kernel, or a device,
network or host step. -/
inductive Turn where
  | core (c : CoreRef)
  | sorter (n : Nat)
  | event (i : Instr) (a : Args)
  deriving DecidableEq, Repr, Inhabited

/-- The core whose turn it is, and the word it fetched. -/
structure Current where
  core : CoreRef := ⟨0, .a⟩
  word : BitVec 128 := 0
  /-- the sorter whose turn it is -/
  sorter : Nat := 0
  deriving DecidableEq, Repr

/-- The state of one module. -/
structure State where
  cells : Tbl Cell := []
  supervisors : Tbl Core := []
  saved : List Saved := []
  nis : Tbl Ni := []
  mem : Memory := []
  /-- poisoned quarters of sectors (address / 16), strictly rising: a sector is poisoned while one of its quarters is (R100) -/
  poison : List Nat := []
  writes : List Write := []
  own : Tbl OwnRec := []
  tlb : List TlbEntry := []
  misses : List Miss := []
  /-- answers of failed walks that their waiters have not met: core, CTXID, page (R93) -/
  failedWalks : List (Party × Nat × Nat) := []
  contexts : List Context := []
  copies : List Copy := []
  launches : Tbl Launch := []
  /-- initial messages of launches that have not reached an inbox (R359) -/
  initial : List Message := []
  deviceQueue : List (Nat × Vec) := []
  hostQueues : Tbl HostQueue := []
  nextQueue : Nat := 0
  counters : Tbl Counter := []
  kept : List KeptReply := []
  /-- remote adds held for a boundary, each with the key its word has (R340) -/
  heldAdds : List (Packet × Nat) := []
  net : List NetItem := []
  sent : List Packet := []
  /-- packets that have left by a port, with the port (R268) -/
  crossed : List (Nat × Packet) := []
  ports : Tbl Port := []
  sorters : Tbl Sorter := []
  rules : List (Attachment × Kernel) := []
  blocks : Tbl Block := []
  shares : Tbl Byte := []
  mixUsed : Tbl Nat := []
  mixNext : Tbl Nat := []
  mixTime : Tbl Nat := []
  /-- contexts of a cluster whose next block did not fit in the last interval (R313), keyed as mixNext -/
  mixLate : List Nat := []
  chip : BitVec 12 := 0
  /-- base timeout T of R248, in cycles of 0.8 ns -/
  timeout : Nat := 20000
  service : Service := {}
  /-- second parts of records that the device is still writing, in order (R361, R376, R384) -/
  trailing : List Second := []
  energyTime : Nat := 0
  turns : List Turn := []
  /-- steps taken: the index of every free value (log 1, DESIGN CHOICE) -/
  tick : Nat := 0
  /-- cycles since module reset (R107) -/
  now : Nat := 0
  fresh : Nat := 0
  cur : Current := {}
  args : Args := {}
  deriving DecidableEq, Repr

/-- The module right after reset (R386, R107): nothing placed, nothing running, bring-up at stage 1. -/
def State.reset : State := {}

/-- Why the machine stops with a fault. Each is safe: the hardware may go on, the model claims nothing after it. -/
inductive Fault where
  /-- raised by an exception of a supervisor core in trap mode: the fatal fault of R377 falls on a context, and a supervisor core
  belongs to none (R371); safe -/
  | supervisorTrap (cause : Nat)
  deriving DecidableEq, Repr

/-- Why an instruction is not given a meaning. -/
inductive Refusal where
  /-- raised by an arm of exec that is not modelled yet; safe -/
  | notModelled (mnemonic : String)
  deriving DecidableEq, Repr

end Sys2Proof.Machine
end

