-- ==== Sys2Proof/Config.lean ====
section
/-! DEFINITION. What the spec leaves open, as constants without a body: nothing can be proved of their values. -/

namespace Sys2Proof.Config

open Sys2Proof.Machine

/-- The agent that moves next, by the number of the step (R321: "in any order that the conditions permit"; log 1, DESIGN CHOICE). -/
opaque nextTurn : Nat → Turn

/-- Core cycles that pass in a step, by the number of the step (R6, R107; log 2, DESIGN CHOICE). -/
opaque elapsed : Nat → Nat

/-- Which free inbox slot a message takes (R346: "in no fixed order"; log 23, DESIGN CHOICE). -/
opaque slotChoice : Nat → Nat

/-- Whether the Ed25519 signature of an image verifies (R387; log 15, DESIGN CHOICE). -/
opaque ed25519Verifies : List Byte → Bool

/-- Whether the ML-DSA-65 signature of an image verifies (R387; log 15, DESIGN CHOICE). -/
opaque mldsaVerifies : List Byte → Bool

/-- The version number that an image carries (R383, R387; log 15, DESIGN CHOICE). -/
opaque imageVersion : List Byte → BitVec 32

/-- The fused rollback counter, below which no image's version may lie (R387; log 15, DESIGN CHOICE). -/
opaque fusedRollback : BitVec 32

/-- The firmware image that the boot ROM finds at a boot, by the number of the step (R387; log 15, DESIGN CHOICE). -/
opaque bootImage : Nat → List Byte

/-- The boot ROM, which every measurement covers (R388; log 15, DESIGN CHOICE). -/
opaque bootRom : List Byte

/-- The hashes of the fused keys, which every measurement covers (R388; log 15, DESIGN CHOICE). -/
opaque keyHashes : List Byte

/-- The answer to an SPDM request, by its request code, its bytes, what is measured, and the transcript: the requests and answers before
it (R388; log 15, DESIGN CHOICE). -/
opaque spdmAnswer : Nat → List Byte → List (List Byte) → List (List Byte × List Byte) → List Byte

/-- The ML-DSA-65 signature over a transcript, which a report carries as opaque data (R388; log 15, DESIGN CHOICE). -/
opaque mldsaSign : List (List Byte × List Byte) → List Byte

/-- The answer to an IDE key management message over SPDM, by its bytes and the transcript (R382; log 105, DESIGN CHOICE). -/
opaque ideAnswer : List Byte → List (List Byte × List Byte) → List Byte

/-- The answer of the CDAT mailbox to a request, by its bytes (R382; log 15, DESIGN CHOICE). -/
opaque cdatAnswer : List Byte → List Byte

/-- A byte under a poison marker as an engine meets it that has no instruction to trap (R100 gives the lost data no value),
by the number of the step and the byte's key (log 37, DESIGN CHOICE). -/
opaque lostByte : Nat → Nat → Byte

/-- A byte of the private part of a backing image as a save leaves it, by the number of the step and its offset (R372: "in a
layout private to the device"; log 7, DESIGN CHOICE). -/
opaque imageByte : Nat → Nat → Byte

/-- A word to which the spec gives no value, by the number of the step and its place: TVAL of a pre-emption interrupt (R366
names none), the x and v registers of a restored core until its handler reloads them (R373), and what R376 and R383 name no
value for (log 48, DESIGN CHOICE). -/
opaque freeWord : Nat → Nat → Word

/-- Whether the second part of a record under way lands in a step, by the number of the step (R361, R376, R384; log 83, DESIGN CHOICE). -/
opaque lands : Nat → Bool

/-- The lent part of a port's receive buffer, in 64-byte units: the spec gives its floors and not its size (R269;
log 40, DESIGN CHOICE). -/
opaque lentBuffer : Nat

end Sys2Proof.Config
end

