-- ==== Sys2Proof/Decode.lean ====
section
/-! DEFINITION. The decoder of core words (R17 to R33, checks 3 to 8, 10 and 11) and of sorter words (R280), total and
rejecting by name; after it the encoder, written from the same field tables. -/

namespace Sys2Proof

/-- The six formats of R22 to R24, and the any-length format of NOP. -/
inductive Format where
  | any | r | v | b | i | l | x
  deriving DecidableEq, Repr

/-- The fields of an instruction word: those of R20 and R21, bits [63:39] as one field, and bits [127:64]. -/
structure Raw where
  len : BitVec 2 := 0
  maj : BitVec 7 := 0
  fn : BitVec 6 := 0
  d : Reg := 0
  a : Reg := 0
  nul : BitVec 2 := 0
  rm : BitVec 3 := 0
  scope : BitVec 3 := 0
  ord : BitVec 2 := 0
  esz : BitVec 2 := 0
  hi : BitVec 25 := 0
  up : BitVec 64 := 0
  deriving DecidableEq, Repr

/-- Splits a word into its fields (R20, R21). -/
def Raw.ofWord (w : BitVec 128) : Raw :=
  { len := w.extractLsb' 0 2, maj := w.extractLsb' 2 7, fn := w.extractLsb' 9 6, d := w.extractLsb' 15 6,
    a := w.extractLsb' 21 6, nul := w.extractLsb' 27 2, rm := w.extractLsb' 29 3, scope := w.extractLsb' 32 3,
    ord := w.extractLsb' 35 2, esz := w.extractLsb' 37 2, hi := w.extractLsb' 39 25, up := w.extractLsb' 64 64 }

/-- Joins the fields into a word (R20, R21). -/
def Raw.toWord (r : Raw) : BitVec 128 :=
  r.up ++ r.hi ++ r.esz ++ r.ord ++ r.scope ++ r.rm ++ r.nul ++ r.a ++ r.d ++ r.fn ++ r.maj ++ r.len

/-- Field B, bits [44:39] (R22). -/
def Raw.b (r : Raw) : Reg := r.hi.extractLsb' 0 6

/-- Field C, bits [50:45] (R22). -/
def Raw.c (r : Raw) : Reg := r.hi.extractLsb' 6 6

/-- DISP of format B, bits [63:45] (R23). -/
def Raw.disp (r : Raw) : BitVec 19 := r.hi.extractLsb' 6 19

/-- SK of format V, bit 63 (R22). -/
def Raw.sk (r : Raw) : Bool := r.hi.getLsbD 24

/-- The second source of a fragment-capable function (R22, R224). -/
def Raw.vsrc (r : Raw) : VSrc :=
  if r.sk then .frag (r.hi.extractLsb' 18 6) (r.hi.extractLsb' 14 4) else .reg r.b

/-- S of STR, bits [63:62] (R142). -/
def Raw.strK (r : Raw) : BitVec 2 := r.hi.extractLsb' 23 2

/-- DIR of STR, bit 61 (R142). -/
def Raw.strOut (r : Raw) : Bool := r.hi.getLsbD 22

/-- CORE of STR, bit 60 (R142). -/
def Raw.strCore (r : Raw) : Bool := r.hi.getLsbD 21

/-- XF of COPY, bits [109:107] (R160). -/
def copyXf (ext : BitVec 64) : Nat := (ext.extractLsb' 43 3).toNat

/-- The EXT bits that a COPY uses: SEMN only with SEMEN, BAROFF only with BAREN (R160). -/
def copyUpMask (ext : BitVec 64) : BitVec 64 :=
  0xFFFFFFC100000000#64 ||| (if ext.getLsbD 38 then 0x3E00000000#64 else 0#64) |||
    (if ext.getLsbD 32 then 0xFFFE0000#64 else 0#64)

/-- What a register field names (R26, R28, R140). -/
inductive Kind where
  | none | scalar | vector | queue
  deriving DecidableEq, Repr

/-- Whether a field of this kind may hold this code (R26, R28, R140). -/
def Kind.valid (k : Kind) (c : Reg) : Bool :=
  match k with
  | .none => true
  | .scalar => c.toNat < 39
  | .vector => c.toNat < 32
  | .queue => 32 ≤ c.toNat ∧ c.toNat < 39

/-- The fields and sub-fields one function uses (R32), the reserved combinations of its owning chapter (check 11),
and the instruction it stands for. -/
structure Row where
  d : Kind := .none
  a : Kind := .none
  b : Kind := .none
  c : Kind := .none
  esz : Bool := false
  ord : Bool := false
  scope : Bool := false
  rm : Bool := false
  nul : Bool := false
  /-- bits of `hi` used besides B, C and the fragment fields -/
  imm : BitVec 25 := 0
  up : BitVec 64 := 0
  frag : Bool := false
  combo : Bool := false
  instr : Instr

/-- Why a word is not an instruction (R33, checks 3, 5 to 8, 10 and 11). -/
inductive Reject where
  | lenZero | majorUnassigned | lenMismatch | functionUnassigned | reservedValue | reservedBits | reservedCombination
  deriving DecidableEq, Repr

/-- The decoder's answer. -/
inductive Decoded where
  | ok (i : Instr)
  | bad (why : Reject)
  deriving DecidableEq, Repr

/-- The format of each assigned major (R29); NOP takes any length. -/
def majFormat (maj : Nat) : Option Format :=
  match maj with
  | 0x00 => some .any
  | 0x01 => some .r
  | 0x02 => some .r
  | 0x03 => some .r
  | 0x04 => some .r
  | 0x05 => some .r
  | 0x06 => some .r
  | 0x07 => some .r
  | 0x08 => some .i
  | 0x09 => some .i
  | 0x0A => some .i
  | 0x0B => some .i
  | 0x0C => some .i
  | 0x0D => some .i
  | 0x0E => some .l
  | 0x0F => some .x
  | 0x10 => some .r
  | 0x11 => some .r
  | 0x12 => some .r
  | 0x13 => some .r
  | 0x18 => some .b
  | 0x19 => some .b
  | 0x1A => some .i
  | 0x20 => some .i
  | 0x21 => some .i
  | 0x22 => some .i
  | 0x23 => some .i
  | 0x24 => some .r
  | 0x25 => some .i
  | 0x28 => some .r
  | 0x29 => some .x
  | 0x2A => some .i
  | 0x2B => some .i
  | 0x30 => some .r
  | 0x31 => some .i
  | 0x32 => some .i
  | 0x38 => some .x
  | 0x39 => some .i
  | 0x3A => some .i
  | 0x3B => some .i
  | 0x40 => some .v
  | 0x41 => some .v
  | 0x42 => some .v
  | 0x43 => some .v
  | 0x44 => some .v
  | 0x45 => some .v
  | 0x46 => some .v
  | 0x47 => some .v
  | 0x48 => some .i
  | 0x50 => some .i
  | 0x51 => some .i
  | 0x52 => some .r
  | 0x53 => some .x
  | 0x54 => some .i
  | 0x58 => some .r
  | 0x59 => some .i
  | 0x5A => some .i
  | 0x5B => some .i
  | 0x60 => some .i
  | 0x61 => some .i
  | 0x62 => some .i
  | 0x63 => some .i
  | _ => none

/-- The formats that VCVN and VCVW name: 1-7 and 10-13 (R235). -/
def vcvFormat (f : Nat) : Bool := (1 ≤ f ∧ f ≤ 7) ∨ (10 ≤ f ∧ f ≤ 13)

/-- The functions of major 0x01. -/
def row01 (r : Raw) : Option Row :=
  match r.fn.toNat with
  | 0 => some { d := .scalar, a := .scalar, b := .scalar, instr := .add r.d r.a r.b }
  | 1 => some { d := .scalar, a := .scalar, b := .scalar, instr := .adds r.d r.a r.b }
  | 2 => some { d := .scalar, a := .scalar, b := .scalar, instr := .addus r.d r.a r.b }
  | _ => none

/-- The functions of major 0x02. -/
def row02 (r : Raw) : Option Row :=
  match r.fn.toNat with
  | 0 => some { d := .scalar, a := .scalar, b := .scalar, instr := .sub r.d r.a r.b }
  | 1 => some { d := .scalar, a := .scalar, b := .scalar, instr := .subs r.d r.a r.b }
  | 2 => some { d := .scalar, a := .scalar, b := .scalar, instr := .subus r.d r.a r.b }
  | _ => none

/-- The functions of major 0x03. -/
def row03 (r : Raw) : Option Row :=
  match r.fn.toNat with
  | 0 => some { d := .scalar, a := .scalar, b := .scalar, instr := .and r.d r.a r.b }
  | 1 => some { d := .scalar, a := .scalar, b := .scalar, instr := .andn r.d r.a r.b }
  | _ => none

/-- The functions of major 0x04. -/
def row04 (r : Raw) : Option Row :=
  match r.fn.toNat with
  | 0 => some { d := .scalar, a := .scalar, b := .scalar, instr := .or r.d r.a r.b }
  | _ => none

/-- The functions of major 0x05. -/
def row05 (r : Raw) : Option Row :=
  match r.fn.toNat with
  | 0 => some { d := .scalar, a := .scalar, b := .scalar, instr := .xor r.d r.a r.b }
  | _ => none

/-- The functions of major 0x06. -/
def row06 (r : Raw) : Option Row :=
  match r.fn.toNat with
  | 0 => some { d := .scalar, a := .scalar, b := .scalar, instr := .shl r.d r.a r.b }
  | 1 => some { d := .scalar, a := .scalar, b := .scalar, instr := .shr r.d r.a r.b }
  | 2 => some { d := .scalar, a := .scalar, b := .scalar, instr := .sha r.d r.a r.b }
  | _ => none

/-- The functions of major 0x07. -/
def row07 (r : Raw) : Option Row :=
  match r.fn.toNat with
  | 0 => some { d := .scalar, a := .scalar, b := .scalar, instr := .cmpeq r.d r.a r.b }
  | 1 => some { d := .scalar, a := .scalar, b := .scalar, instr := .cmpne r.d r.a r.b }
  | 2 => some { d := .scalar, a := .scalar, b := .scalar, instr := .cmplt r.d r.a r.b }
  | 3 => some { d := .scalar, a := .scalar, b := .scalar, instr := .cmpge r.d r.a r.b }
  | 4 => some { d := .scalar, a := .scalar, b := .scalar, instr := .cmpltu r.d r.a r.b }
  | 5 => some { d := .scalar, a := .scalar, b := .scalar, instr := .cmpgeu r.d r.a r.b }
  | _ => none

/-- The functions of major 0x08. -/
def row08 (r : Raw) : Option Row :=
  match r.fn.toNat with
  | 0 => some { d := .scalar, a := .scalar, imm := 0x1ffffff#25, instr := .addi r.d r.a r.hi }
  | _ => none

/-- The functions of major 0x09. -/
def row09 (r : Raw) : Option Row :=
  match r.fn.toNat with
  | 0 => some { d := .scalar, a := .scalar, imm := 0x1ffffff#25, instr := .andi r.d r.a r.hi }
  | _ => none

/-- The functions of major 0x0A. -/
def row0A (r : Raw) : Option Row :=
  match r.fn.toNat with
  | 0 => some { d := .scalar, a := .scalar, imm := 0x1ffffff#25, instr := .ori r.d r.a r.hi }
  | _ => none

/-- The functions of major 0x0B. -/
def row0B (r : Raw) : Option Row :=
  match r.fn.toNat with
  | 0 => some { d := .scalar, a := .scalar, imm := 0x1ffffff#25, instr := .xori r.d r.a r.hi }
  | _ => none

/-- The functions of major 0x0C. -/
def row0C (r : Raw) : Option Row :=
  match r.fn.toNat with
  | 0 => some { d := .scalar, a := .scalar, imm := 0x3f#25, instr := .shil r.d r.a (r.hi.setWidth 6) }
  | 1 => some { d := .scalar, a := .scalar, imm := 0x3f#25, instr := .shir r.d r.a (r.hi.setWidth 6) }
  | 2 => some { d := .scalar, a := .scalar, imm := 0x3f#25, instr := .shia r.d r.a (r.hi.setWidth 6) }
  | _ => none

/-- The functions of major 0x0D. -/
def row0D (r : Raw) : Option Row :=
  match r.fn.toNat with
  | 0 => some { d := .scalar, a := .scalar, imm := 0x1ffffff#25, instr := .cmpieq r.d r.a r.hi }
  | 1 => some { d := .scalar, a := .scalar, imm := 0x1ffffff#25, instr := .cmpine r.d r.a r.hi }
  | 2 => some { d := .scalar, a := .scalar, imm := 0x1ffffff#25, instr := .cmpilt r.d r.a r.hi }
  | 3 => some { d := .scalar, a := .scalar, imm := 0x1ffffff#25, instr := .cmpige r.d r.a r.hi }
  | 4 => some { d := .scalar, a := .scalar, imm := 0x1ffffff#25, instr := .cmpiltu r.d r.a r.hi }
  | 5 => some { d := .scalar, a := .scalar, imm := 0x1ffffff#25, instr := .cmpigeu r.d r.a r.hi }
  | _ => none

/-- The functions of major 0x0E. -/
def row0E (r : Raw) : Option Row :=
  match r.fn.toNat with
  | 0 => some { d := .scalar, up := 0xffffffff#64, instr := .li r.d (r.up.setWidth 32) }
  | 1 => some { d := .scalar, up := 0xffffffff#64, instr := .liu r.d (r.up.setWidth 32) }
  | _ => none

/-- The functions of major 0x0F. -/
def row0F (r : Raw) : Option Row :=
  match r.fn.toNat with
  | 0 => some { d := .scalar, up := 0xffffffffffffffff#64, instr := .liw r.d r.up }
  | _ => none

/-- The functions of major 0x10. -/
def row10 (r : Raw) : Option Row :=
  match r.fn.toNat with
  | 0 => some { d := .scalar, a := .scalar, b := .scalar, instr := .mul r.d r.a r.b }
  | 1 => some { d := .scalar, a := .scalar, b := .scalar, instr := .mulh r.d r.a r.b }
  | 2 => some { d := .scalar, a := .scalar, b := .scalar, instr := .mulhu r.d r.a r.b }
  | 3 => some { d := .scalar, a := .scalar, b := .scalar, c := .scalar, instr := .mula r.d r.a r.b r.c }
  | _ => none

/-- The functions of major 0x11. -/
def row11 (r : Raw) : Option Row :=
  match r.fn.toNat with
  | 0 => some { d := .scalar, a := .scalar, b := .scalar, instr := .div r.d r.a r.b }
  | 1 => some { d := .scalar, a := .scalar, b := .scalar, instr := .divu r.d r.a r.b }
  | 2 => some { d := .scalar, a := .scalar, b := .scalar, instr := .divrem r.d r.a r.b }
  | 3 => some { d := .scalar, a := .scalar, b := .scalar, instr := .divremu r.d r.a r.b }
  | _ => none

/-- The functions of major 0x12. -/
def row12 (r : Raw) : Option Row :=
  match r.fn.toNat with
  | 0 => some { d := .scalar, a := .scalar, instr := .bitcnt r.d r.a }
  | 1 => some { d := .scalar, a := .scalar, instr := .bitclz r.d r.a }
  | 2 => some { d := .scalar, a := .scalar, instr := .bitctz r.d r.a }
  | _ => none

/-- The functions of major 0x13. -/
def row13 (r : Raw) : Option Row :=
  match r.fn.toNat with
  | 0 => some { d := .scalar, a := .scalar, b := .scalar, c := .scalar, instr := .sel r.d r.a r.b r.c }
  | _ => none

/-- The functions of major 0x18. -/
def row18 (r : Raw) : Option Row :=
  match r.fn.toNat with
  | 0 => some { a := .scalar, b := .scalar, nul := true, imm := 0x1ffffc0#25, instr := .beq r.a r.b r.nul r.disp }
  | 1 => some { a := .scalar, b := .scalar, nul := true, imm := 0x1ffffc0#25, instr := .bne r.a r.b r.nul r.disp }
  | 2 => some { a := .scalar, b := .scalar, nul := true, imm := 0x1ffffc0#25, instr := .blt r.a r.b r.nul r.disp }
  | 3 => some { a := .scalar, b := .scalar, nul := true, imm := 0x1ffffc0#25, instr := .bge r.a r.b r.nul r.disp }
  | 4 => some { a := .scalar, b := .scalar, nul := true, imm := 0x1ffffc0#25, instr := .bltu r.a r.b r.nul r.disp }
  | 5 => some { a := .scalar, b := .scalar, nul := true, imm := 0x1ffffc0#25, instr := .bgeu r.a r.b r.nul r.disp }
  | _ => none

/-- The functions of major 0x19. -/
def row19 (r : Raw) : Option Row :=
  match r.fn.toNat with
  | 0 => some { a := .scalar, nul := true, imm := 0x1ffffc0#25, instr := .bz r.a r.nul r.disp }
  | 1 => some { a := .scalar, nul := true, imm := 0x1ffffc0#25, instr := .bzn r.a r.nul r.disp }
  | _ => none

/-- The functions of major 0x1A. -/
def row1A (r : Raw) : Option Row :=
  match r.fn.toNat with
  | 0 => some { nul := true, imm := 0x1ffffff#25, instr := .j r.nul r.hi }
  | 1 => some { d := .scalar, nul := true, imm := 0x1ffffff#25, instr := .jl r.d r.nul r.hi }
  | 2 => some { d := .scalar, a := .scalar, nul := true, instr := .jr r.d r.a r.nul }
  | _ => none

/-- The functions of major 0x20. -/
def row20 (r : Raw) : Option Row :=
  match r.fn.toNat with
  | 0 => some { d := .scalar, a := .scalar, esz := true, ord := true, scope := true, imm := 0x1ffffff#25, combo := r.ord.toNat ≥ 2, instr := .ld r.d r.a r.esz r.ord r.scope r.hi }
  | 1 => some { d := .scalar, a := .scalar, esz := true, ord := true, scope := true, imm := 0x1ffffff#25, combo := r.ord.toNat ≥ 2 ∨ r.esz = 3#2, instr := .lds r.d r.a r.esz r.ord r.scope r.hi }
  | _ => none

/-- The functions of major 0x21. -/
def row21 (r : Raw) : Option Row :=
  match r.fn.toNat with
  | 0 => some { d := .scalar, a := .scalar, esz := true, ord := true, scope := true, imm := 0x1ffffff#25, combo := r.ord.toNat % 2 = 1, instr := .st r.d r.a r.esz r.ord r.scope r.hi }
  | _ => none

/-- The functions of major 0x22. -/
def row22 (r : Raw) : Option Row :=
  match r.fn.toNat with
  | 0 => some { d := .vector, a := .scalar, ord := true, scope := true, imm := 0x1ffffff#25, combo := r.ord.toNat ≥ 2, instr := .ld64 r.d r.a r.ord r.scope r.hi }
  | _ => none

/-- The functions of major 0x23. -/
def row23 (r : Raw) : Option Row :=
  match r.fn.toNat with
  | 0 => some { d := .vector, a := .scalar, ord := true, scope := true, imm := 0x1ffffff#25, combo := r.ord.toNat % 2 = 1, instr := .st64 r.d r.a r.ord r.scope r.hi }
  | _ => none

/-- The functions of major 0x24. -/
def row24 (r : Raw) : Option Row :=
  match r.fn.toNat with
  | 0 => some { d := .scalar, a := .scalar, b := .scalar, esz := true, ord := true, scope := true, combo := r.esz.toNat < 2, instr := .amoswap r.d r.a r.b r.esz r.ord r.scope }
  | 1 => some { d := .scalar, a := .scalar, b := .scalar, esz := true, ord := true, scope := true, combo := r.esz.toNat < 2, instr := .amoadd r.d r.a r.b r.esz r.ord r.scope }
  | 2 => some { d := .scalar, a := .scalar, b := .scalar, esz := true, ord := true, scope := true, combo := r.esz.toNat < 2, instr := .amoand r.d r.a r.b r.esz r.ord r.scope }
  | 3 => some { d := .scalar, a := .scalar, b := .scalar, esz := true, ord := true, scope := true, combo := r.esz.toNat < 2, instr := .amoor r.d r.a r.b r.esz r.ord r.scope }
  | 4 => some { d := .scalar, a := .scalar, b := .scalar, esz := true, ord := true, scope := true, combo := r.esz.toNat < 2, instr := .amoxor r.d r.a r.b r.esz r.ord r.scope }
  | 5 => some { d := .scalar, a := .scalar, b := .scalar, esz := true, ord := true, scope := true, combo := r.esz.toNat < 2, instr := .amomin r.d r.a r.b r.esz r.ord r.scope }
  | 6 => some { d := .scalar, a := .scalar, b := .scalar, esz := true, ord := true, scope := true, combo := r.esz.toNat < 2, instr := .amomax r.d r.a r.b r.esz r.ord r.scope }
  | 7 => some { d := .scalar, a := .scalar, b := .scalar, esz := true, ord := true, scope := true, combo := r.esz.toNat < 2, instr := .amominu r.d r.a r.b r.esz r.ord r.scope }
  | 8 => some { d := .scalar, a := .scalar, b := .scalar, esz := true, ord := true, scope := true, combo := r.esz.toNat < 2, instr := .amomaxu r.d r.a r.b r.esz r.ord r.scope }
  | 9 => some { d := .scalar, a := .scalar, b := .scalar, c := .scalar, esz := true, ord := true, scope := true, combo := r.esz.toNat < 2, instr := .amocas r.d r.a r.b r.c r.esz r.ord r.scope }
  | _ => none

/-- The functions of major 0x25. -/
def row25 (r : Raw) : Option Row :=
  match r.fn.toNat with
  | 0 => some { ord := true, scope := true, combo := r.ord = 0#2, instr := .fence r.ord r.scope }
  | _ => none

/-- The functions of major 0x28. -/
def row28 (r : Raw) : Option Row :=
  match r.fn.toNat with
  | 0 => some { d := .scalar, a := .queue, instr := .qlen r.d r.a }
  | 1 => some { d := .scalar, a := .queue, instr := .qroom r.d r.a }
  | 2 => some { d := .scalar, a := .queue, instr := .qpeek r.d r.a }
  | _ => none

/-- The functions of major 0x29. -/
def row29 (r : Raw) : Option Row :=
  match r.fn.toNat with
  | 0 => some { a := .scalar, imm := 0x1e00000#25, up := 0xffffffffffffffff#64, instr := .strgo r.a r.strK r.strOut r.strCore r.up }
  | 1 => some { imm := 0x1800000#25, instr := .strstop r.strK }
  | 2 => some { imm := 0x1800000#25, instr := .strwait r.strK }
  | 3 => some { d := .scalar, imm := 0x1800000#25, instr := .strcnt r.d r.strK }
  | _ => none

/-- The functions of major 0x2A. -/
def row2A (r : Raw) : Option Row :=
  match r.fn.toNat with
  | 0 => some { imm := 0x1fff#25, instr := .semw (r.hi.setWidth 13) }
  | 1 => some { imm := 0x1fff#25, instr := .semp (r.hi.setWidth 13) }
  | 2 => some { d := .scalar, imm := 0x1fff#25, instr := .semtry r.d (r.hi.setWidth 13) }
  | 3 => some { d := .scalar, imm := 0x1f#25, instr := .semrd r.d (r.hi.setWidth 5) }
  | _ => none

/-- The functions of major 0x2B. -/
def row2B (r : Raw) : Option Row :=
  match r.fn.toNat with
  | 0 => some { d := .scalar, a := .scalar, imm := 0x1ffffff#25, instr := .barset r.d r.a r.hi }
  | 1 => some { d := .scalar, a := .scalar, imm := 0x1ffffff#25, instr := .bararr r.d r.a r.hi }
  | 2 => some { d := .scalar, a := .scalar, imm := 0x1ffffff#25, instr := .barwait r.d r.a r.hi }
  | 3 => some { d := .scalar, a := .scalar, imm := 0x1ffffff#25, instr := .bartest r.d r.a r.hi }
  | 4 => some { d := .scalar, a := .scalar, imm := 0x1ffffff#25, instr := .barexp r.d r.a r.hi }
  | _ => none

/-- The functions of major 0x30. -/
def row30 (r : Raw) : Option Row :=
  match r.fn.toNat with
  | 0 => some { a := .scalar, b := .scalar, c := .scalar, instr := .msend r.a r.b r.c }
  | 1 => some { d := .scalar, instr := .mpop r.d }
  | 2 => some { d := .scalar, a := .scalar, instr := .mlen r.d r.a }
  | 3 => some { d := .scalar, b := .scalar, instr := .mlaunch r.d r.b }
  | _ => none

/-- The functions of major 0x31. -/
def row31 (r : Raw) : Option Row :=
  match r.fn.toNat with
  | 0 => some { instr := .fend }
  | _ => none

/-- The functions of major 0x32. -/
def row32 (r : Raw) : Option Row :=
  match r.fn.toNat with
  | 0 => some { imm := 0x3f#25, instr := .chmask (r.hi.setWidth 6) }
  | 1 => some { imm := 0x3f#25, instr := .chunmask (r.hi.setWidth 6) }
  | 2 => some { d := .scalar, imm := 0x3f#25, instr := .chrd r.d (r.hi.setWidth 6) }
  | 3 => some { a := .scalar, imm := 0x3f#25, instr := .chprio r.a (r.hi.setWidth 6) }
  | _ => none

/-- The functions of major 0x38. -/
def row38 (r : Raw) : Option Row :=
  match r.fn.toNat with
  | 0 => some { d := .scalar, a := .scalar, b := .scalar, c := if copyXf r.up = 6 ∨ copyXf r.up = 7 then .scalar else .none, rm := copyXf r.up = 2, up := copyUpMask r.up, instr := .copy r.d r.a r.b r.c r.rm r.up }
  | _ => none

/-- The functions of major 0x39. -/
def row39 (r : Raw) : Option Row :=
  match r.fn.toNat with
  | 0 => some { instr := .cseal }
  | 1 => some { imm := 0xf#25, instr := .cwait (r.hi.setWidth 4) }
  | 2 => some { d := .scalar, imm := 0xf#25, instr := .ctest r.d (r.hi.setWidth 4) }
  | 3 => some { d := .scalar, instr := .ccnt r.d }
  | _ => none

/-- The functions of major 0x3A. -/
def row3A (r : Raw) : Option Row :=
  match r.fn.toNat with
  | 0 => some { a := .scalar, imm := 0x1ffffff#25, instr := .tidld r.a r.hi }
  | 1 => some { a := .scalar, imm := 0x1ffffff#25, instr := .tidst r.a r.hi }
  | 2 => some { a := .scalar, imm := 0x3f#25, instr := .tidbase r.a (r.hi.setWidth 6) }
  | _ => none

/-- The functions of major 0x3B. -/
def row3B (r : Raw) : Option Row :=
  match r.fn.toNat with
  | 0 => some { imm := 0x1f#25, instr := .osclaim (r.hi.setWidth 5) }
  | 1 => some { d := .scalar, imm := 0x1f#25, instr := .ostry r.d (r.hi.setWidth 5) }
  | 2 => some { imm := 0x1f#25, instr := .osrel (r.hi.setWidth 5) }
  | 3 => some { d := .scalar, instr := .osst r.d }
  | _ => none

/-- The functions of major 0x40. -/
def row40 (r : Raw) : Option Row :=
  match r.fn.toNat with
  | 0 => some { d := .vector, a := .vector, b := .vector, rm := true, frag := true, combo := r.rm = 6#3, instr := .vadd r.d r.a r.vsrc r.rm }
  | 1 => some { d := .vector, a := .vector, b := .vector, rm := true, frag := true, combo := r.rm = 6#3, instr := .vsub r.d r.a r.vsrc r.rm }
  | 2 => some { d := .vector, a := .vector, b := .vector, rm := true, frag := true, combo := r.rm = 6#3, instr := .vmul r.d r.a r.vsrc r.rm }
  | 3 => some { d := .vector, a := .vector, b := .vector, c := .vector, rm := true, frag := true, combo := r.rm = 6#3, instr := .vfma r.d r.a r.vsrc r.c r.rm }
  | 4 => some { d := .vector, a := .vector, b := .vector, frag := true, instr := .vmin r.d r.a r.vsrc }
  | 5 => some { d := .vector, a := .vector, b := .vector, frag := true, instr := .vmax r.d r.a r.vsrc }
  | 6 => some { d := .vector, b := .vector, frag := true, instr := .vabs r.d r.vsrc }
  | 7 => some { d := .vector, b := .vector, frag := true, instr := .vneg r.d r.vsrc }
  | 8 => some { d := .vector, b := .vector, frag := true, instr := .vexp2 r.d r.vsrc }
  | 9 => some { d := .vector, b := .vector, frag := true, instr := .vrcp r.d r.vsrc }
  | 10 => some { d := .vector, b := .vector, frag := true, instr := .vrsq r.d r.vsrc }
  | _ => none

/-- The functions of major 0x41. -/
def row41 (r : Raw) : Option Row :=
  match r.fn.toNat with
  | 0 => some { d := .vector, a := .vector, b := .vector, esz := true, frag := true, combo := (r.sk = true ∧ r.esz ≠ 2#2), instr := .viadd r.d r.a r.vsrc r.esz }
  | 1 => some { d := .vector, a := .vector, b := .vector, esz := true, frag := true, combo := (r.sk = true ∧ r.esz ≠ 2#2), instr := .viadds r.d r.a r.vsrc r.esz }
  | 2 => some { d := .vector, a := .vector, b := .vector, esz := true, frag := true, combo := (r.sk = true ∧ r.esz ≠ 2#2), instr := .viaddus r.d r.a r.vsrc r.esz }
  | 3 => some { d := .vector, a := .vector, b := .vector, esz := true, frag := true, combo := (r.sk = true ∧ r.esz ≠ 2#2), instr := .visub r.d r.a r.vsrc r.esz }
  | 4 => some { d := .vector, a := .vector, b := .vector, esz := true, frag := true, combo := (r.sk = true ∧ r.esz ≠ 2#2), instr := .visubs r.d r.a r.vsrc r.esz }
  | 5 => some { d := .vector, a := .vector, b := .vector, esz := true, frag := true, combo := (r.sk = true ∧ r.esz ≠ 2#2), instr := .visubus r.d r.a r.vsrc r.esz }
  | 6 => some { d := .vector, a := .vector, b := .vector, esz := true, frag := true, combo := (r.sk = true ∧ r.esz ≠ 2#2), instr := .vimul r.d r.a r.vsrc r.esz }
  | 7 => some { d := .vector, a := .vector, b := .vector, esz := true, frag := true, combo := (r.sk = true ∧ r.esz ≠ 2#2), instr := .vimulh r.d r.a r.vsrc r.esz }
  | 8 => some { d := .vector, a := .vector, b := .vector, esz := true, frag := true, combo := (r.sk = true ∧ r.esz ≠ 2#2), instr := .vimulhu r.d r.a r.vsrc r.esz }
  | 9 => some { d := .vector, a := .vector, b := .vector, esz := true, frag := true, combo := (r.sk = true ∧ r.esz ≠ 2#2), instr := .vimin r.d r.a r.vsrc r.esz }
  | 10 => some { d := .vector, a := .vector, b := .vector, esz := true, frag := true, combo := (r.sk = true ∧ r.esz ≠ 2#2), instr := .vimax r.d r.a r.vsrc r.esz }
  | 11 => some { d := .vector, a := .vector, b := .vector, esz := true, frag := true, combo := (r.sk = true ∧ r.esz ≠ 2#2), instr := .viminu r.d r.a r.vsrc r.esz }
  | 12 => some { d := .vector, a := .vector, b := .vector, esz := true, frag := true, combo := (r.sk = true ∧ r.esz ≠ 2#2), instr := .vimaxu r.d r.a r.vsrc r.esz }
  | 13 => some { d := .vector, a := .vector, b := .vector, esz := true, frag := true, combo := (r.sk = true ∧ r.esz ≠ 2#2), instr := .viand r.d r.a r.vsrc r.esz }
  | 14 => some { d := .vector, a := .vector, b := .vector, esz := true, frag := true, combo := (r.sk = true ∧ r.esz ≠ 2#2), instr := .vior r.d r.a r.vsrc r.esz }
  | 15 => some { d := .vector, a := .vector, b := .vector, esz := true, frag := true, combo := (r.sk = true ∧ r.esz ≠ 2#2), instr := .vixor r.d r.a r.vsrc r.esz }
  | 16 => some { d := .vector, a := .vector, b := .vector, esz := true, frag := true, combo := (r.sk = true ∧ r.esz ≠ 2#2), instr := .viandn r.d r.a r.vsrc r.esz }
  | _ => none

/-- The functions of major 0x42. -/
def row42 (r : Raw) : Option Row :=
  match r.fn.toNat with
  | 0 => some { d := .vector, a := .vector, b := .vector, frag := true, instr := .vcmpfeq r.d r.a r.vsrc }
  | 1 => some { d := .vector, a := .vector, b := .vector, frag := true, instr := .vcmpflt r.d r.a r.vsrc }
  | 2 => some { d := .vector, a := .vector, b := .vector, frag := true, instr := .vcmpfle r.d r.a r.vsrc }
  | 3 => some { d := .vector, a := .vector, b := .vector, frag := true, instr := .vcmpfun r.d r.a r.vsrc }
  | 4 => some { d := .vector, a := .vector, b := .vector, esz := true, frag := true, combo := (r.sk = true ∧ r.esz ≠ 2#2), instr := .vcmpieq r.d r.a r.vsrc r.esz }
  | 5 => some { d := .vector, a := .vector, b := .vector, esz := true, frag := true, combo := (r.sk = true ∧ r.esz ≠ 2#2), instr := .vcmpilt r.d r.a r.vsrc r.esz }
  | 6 => some { d := .vector, a := .vector, b := .vector, esz := true, frag := true, combo := (r.sk = true ∧ r.esz ≠ 2#2), instr := .vcmpiltu r.d r.a r.vsrc r.esz }
  | 7 => some { d := .vector, a := .vector, b := .vector, c := .vector, esz := true, frag := true, combo := (r.sk = true ∧ r.esz ≠ 2#2), instr := .vcmpsel r.d r.a r.vsrc r.c r.esz }
  | _ => none

/-- The functions of major 0x43. -/
def row43 (r : Raw) : Option Row :=
  match r.fn.toNat with
  | 0 => some { d := .vector, a := .vector, b := .vector, esz := true, instr := .vshl r.d r.a r.b r.esz }
  | 1 => some { d := .vector, a := .vector, b := .vector, esz := true, instr := .vshr r.d r.a r.b r.esz }
  | 2 => some { d := .vector, a := .vector, b := .vector, esz := true, instr := .vsha r.d r.a r.b r.esz }
  | 3 => some { d := .vector, a := .vector, c := .scalar, esz := true, instr := .vshls r.d r.a r.c r.esz }
  | 4 => some { d := .vector, a := .vector, c := .scalar, esz := true, instr := .vshrs r.d r.a r.c r.esz }
  | 5 => some { d := .vector, a := .vector, c := .scalar, esz := true, instr := .vshas r.d r.a r.c r.esz }
  | _ => none

/-- The functions of major 0x44. -/
def row44 (r : Raw) : Option Row :=
  match r.fn.toNat with
  | 0 => some { d := .vector, b := .vector, rm := true, frag := true, combo := r.rm = 6#3, instr := .vredsum r.d r.vsrc r.rm }
  | 1 => some { d := .vector, b := .vector, frag := true, instr := .vredmax r.d r.vsrc }
  | 2 => some { d := .vector, b := .vector, frag := true, instr := .vredmin r.d r.vsrc }
  | 3 => some { d := .vector, b := .vector, esz := true, frag := true, combo := (r.sk = true ∧ r.esz ≠ 2#2), instr := .vredisum r.d r.vsrc r.esz }
  | 4 => some { d := .vector, b := .vector, esz := true, frag := true, combo := (r.sk = true ∧ r.esz ≠ 2#2), instr := .vredimax r.d r.vsrc r.esz }
  | 5 => some { d := .vector, b := .vector, esz := true, frag := true, combo := (r.sk = true ∧ r.esz ≠ 2#2), instr := .vredimin r.d r.vsrc r.esz }
  | 6 => some { d := .vector, b := .vector, esz := true, frag := true, combo := (r.sk = true ∧ r.esz ≠ 2#2), instr := .vredor r.d r.vsrc r.esz }
  | 7 => some { d := .scalar, b := .vector, esz := true, frag := true, combo := (r.sk = true ∧ r.esz ≠ 2#2), instr := .vredcnt r.d r.vsrc r.esz }
  | _ => none

/-- The functions of major 0x45. -/
def row45 (r : Raw) : Option Row :=
  match r.fn.toNat with
  | 0 => some { d := .vector, b := .vector, rm := true, frag := true, instr := .vcvif r.d r.vsrc r.rm }
  | 32 => some { d := .vector, b := .vector, rm := true, frag := true, instr := .vcvfi r.d r.vsrc r.rm }
  | n =>
    if vcvFormat n then some { d := .vector, a := .vector, b := .vector, rm := true, frag := true, instr := .vcvn r.d r.a r.vsrc r.fn r.rm }
    else if 32 ≤ n ∧ vcvFormat (n - 32) then some { d := .vector, b := .vector, instr := .vcvw r.d r.b (r.fn - 32#6) }
    else none

/-- The functions of major 0x46. -/
def row46 (r : Raw) : Option Row :=
  match r.fn.toNat with
  | 0 => some { d := .vector, a := .vector, b := .vector, c := .scalar, rm := true, frag := true, instr := .vqpq8 r.d r.a r.vsrc r.c r.rm }
  | 1 => some { d := .vector, a := .vector, b := .vector, c := .scalar, rm := true, frag := true, instr := .vqpq4 r.d r.a r.vsrc r.c r.rm }
  | 2 => some { d := .vector, a := .vector, b := .vector, c := .scalar, rm := true, frag := true, instr := .vqpf8ab r.d r.a r.vsrc r.c r.rm }
  | 3 => some { d := .vector, a := .vector, b := .vector, c := .scalar, rm := true, frag := true, instr := .vqpf4ab r.d r.a r.vsrc r.c r.rm }
  | 4 => some { d := .vector, b := .vector, c := .scalar, instr := .vqpdq8 r.d r.b r.c }
  | 5 => some { d := .vector, b := .vector, c := .scalar, instr := .vqpdq4 r.d r.b r.c }
  | _ => none

/-- The functions of major 0x47. -/
def row47 (r : Raw) : Option Row :=
  match r.fn.toNat with
  | 0 => some { d := .vector, b := .vector, frag := true, instr := .vmov r.d r.vsrc }
  | 1 => some { d := .vector, a := .scalar, esz := true, instr := .vmovs r.d r.a r.esz }
  | 2 => some { d := .scalar, a := .vector, c := .scalar, esz := true, instr := .vmovx r.d r.a r.c r.esz }
  | 3 => some { d := .vector, a := .vector, b := .scalar, c := .scalar, esz := true, instr := .vmovi r.d r.a r.b r.c r.esz }
  | 4 => some { d := .vector, a := .vector, b := .vector, esz := true, instr := .vmovp r.d r.a r.b r.esz }
  | 5 => some { d := .vector, b := .vector, c := .scalar, frag := true, instr := .vmovsr r.d r.vsrc r.c }
  | _ => none

/-- The functions of major 0x48. -/
def row48 (r : Raw) : Option Row :=
  match r.fn.toNat with
  | 0 => some { d := .scalar, imm := 0x3#25, instr := .vstrleft r.d (r.hi.setWidth 2) }
  | 1 => some { d := .scalar, imm := 0x3#25, instr := .vstrrow r.d (r.hi.setWidth 2) }
  | 2 => some { imm := 0x3#25, instr := .vstrdrain (r.hi.setWidth 2) }
  | _ => none

/-- The functions of major 0x50. -/
def row50 (r : Raw) : Option Row :=
  match r.fn.toNat with
  | 0 => some { d := .scalar, a := .scalar, esz := true, imm := 0x1ffffff#25, instr := .rld r.d r.a r.esz r.hi }
  | 1 => some { d := .scalar, a := .scalar, esz := true, imm := 0x1ffffff#25, combo := r.esz = 3#2, instr := .rlds r.d r.a r.esz r.hi }
  | 2 => some { d := .scalar, a := .scalar, esz := true, imm := 0x1ffffff#25, combo := r.esz.toNat < 2, instr := .rldadd r.d r.a r.esz r.hi }
  | _ => none

/-- The functions of major 0x51. -/
def row51 (r : Raw) : Option Row :=
  match r.fn.toNat with
  | 0 => some { d := .scalar, a := .scalar, esz := true, imm := 0x1ffffff#25, instr := .rst r.d r.a r.esz r.hi }
  | 1 => some { d := .scalar, a := .scalar, imm := 0x3f#25, instr := .rstcp r.d r.a (r.hi.setWidth 6) }
  | 2 => some { a := .scalar, instr := .rstpm r.a }
  | 3 => some { d := .scalar, instr := .rstpmrd r.d }
  | _ => none

/-- The functions of major 0x52. -/
def row52 (r : Raw) : Option Row :=
  match r.fn.toNat with
  | 0 => some { d := .scalar, a := .scalar, b := .scalar, c := .scalar, instr := .mcst r.d r.a r.b r.c }
  | _ => none

/-- The functions of major 0x53. -/
def row53 (r : Raw) : Option Row :=
  match r.fn.toNat with
  | 0 => some { d := .scalar, a := .scalar, b := .scalar, esz := true, up := 0xffffffffff000000#64, combo := r.esz.toNat < 2, instr := .crel r.d r.a r.b r.esz r.up }
  | 1 => some { d := .scalar, a := .scalar, b := .scalar, c := .scalar, esz := true, up := 0xffffffffff000000#64, combo := r.esz.toNat < 2, instr := .crelm r.d r.a r.b r.c r.esz r.up }
  | _ => none

/-- The functions of major 0x54. -/
def row54 (r : Raw) : Option Row :=
  match r.fn.toNat with
  | 0 => some { d := .scalar, imm := 0xf#25, instr := .rcptw r.d (r.hi.setWidth 4) }
  | 1 => some { d := .scalar, imm := 0xf#25, instr := .rcpttest r.d (r.hi.setWidth 4) }
  | _ => none

/-- The functions of major 0x58. -/
def row58 (r : Raw) : Option Row :=
  match r.fn.toNat with
  | 0 => some { d := .scalar, a := .scalar, instr := .mixreg r.d r.a }
  | 1 => some { d := .scalar, a := .scalar, b := .scalar, instr := .mixadd r.d r.a r.b }
  | 2 => some { d := .scalar, a := .scalar, b := .scalar, esz := true, instr := .mixrd r.d r.a r.b r.esz }
  | 3 => some { d := .scalar, a := .scalar, b := .scalar, instr := .mixst r.d r.a r.b }
  | 4 => some { d := .scalar, a := .scalar, b := .scalar, instr := .mixstep r.d r.a r.b }
  | 5 => some { d := .scalar, a := .scalar, instr := .mixwait r.d r.a }
  | 6 => some { d := .scalar, a := .scalar, b := .scalar, c := .scalar, instr := .dereg r.d r.a r.b r.c }
  | _ => none

/-- The functions of major 0x59. -/
def row59 (r : Raw) : Option Row :=
  match r.fn.toNat with
  | 0 => some { d := .scalar, a := .scalar, imm := 0x1ffffff#25, instr := .ohand r.d r.a r.hi }
  | 1 => some { d := .scalar, a := .scalar, imm := 0x1ffffff#25, instr := .otake r.d r.a r.hi }
  | 2 => some { a := .scalar, imm := 0x1ffffff#25, instr := .odrop r.a r.hi }
  | 3 => some { d := .scalar, a := .scalar, imm := 0x1ffffff#25, instr := .otest r.d r.a r.hi }
  | _ => none

/-- The functions of major 0x5A. -/
def row5A (r : Raw) : Option Row :=
  match r.fn.toNat with
  | 0 => some { imm := 0x1ffffff#25, instr := .creg r.hi }
  | _ => none

/-- The functions of major 0x5B. -/
def row5B (r : Raw) : Option Row :=
  match r.fn.toNat with
  | 0 => some { instr := .cend }
  | _ => none

/-- The functions of major 0x60. -/
def row60 (r : Raw) : Option Row :=
  match r.fn.toNat with
  | 0 => some { d := .scalar, imm := 0xfff#25, instr := .csrd r.d (r.hi.setWidth 12) }
  | 1 => some { a := .scalar, imm := 0xfff#25, instr := .cswr r.a (r.hi.setWidth 12) }
  | 2 => some { d := .scalar, a := .scalar, imm := 0xfff#25, instr := .csset r.d r.a (r.hi.setWidth 12) }
  | 3 => some { d := .scalar, a := .scalar, imm := 0xfff#25, instr := .csclr r.d r.a (r.hi.setWidth 12) }
  | _ => none

/-- The functions of major 0x61. -/
def row61 (r : Raw) : Option Row :=
  match r.fn.toNat with
  | 0 => some { instr := .eret }
  | _ => none

/-- The functions of major 0x62. -/
def row62 (r : Raw) : Option Row :=
  match r.fn.toNat with
  | 0 => some { imm := 0xffff#25, instr := .syscall }
  | 1 => some { imm := 0xffff#25, instr := .sysbrk }
  | 2 => some { a := .scalar, instr := .sysflush r.a }
  | 3 => some { imm := 0xffff#25, instr := .sysabort }
  | 4 => some { instr := .syspark }
  | _ => none

/-- The functions of major 0x63. -/
def row63 (r : Raw) : Option Row :=
  match r.fn.toNat with
  | 0 => some { a := .scalar, instr := .sigen r.a }
  | 1 => some { d := .scalar, instr := .sigrd r.d }
  | _ => none

/-- The row that MAJ and FN name, or none when FN is not assigned in the major (R33, check 7). -/
def rowOf (r : Raw) : Option Row :=
  match r.maj.toNat with
  | 0x00 => if r.fn = 0#6 then some { instr := .nop } else none
  | 0x01 => row01 r
  | 0x02 => row02 r
  | 0x03 => row03 r
  | 0x04 => row04 r
  | 0x05 => row05 r
  | 0x06 => row06 r
  | 0x07 => row07 r
  | 0x08 => row08 r
  | 0x09 => row09 r
  | 0x0A => row0A r
  | 0x0B => row0B r
  | 0x0C => row0C r
  | 0x0D => row0D r
  | 0x0E => row0E r
  | 0x0F => row0F r
  | 0x10 => row10 r
  | 0x11 => row11 r
  | 0x12 => row12 r
  | 0x13 => row13 r
  | 0x18 => row18 r
  | 0x19 => row19 r
  | 0x1A => row1A r
  | 0x20 => row20 r
  | 0x21 => row21 r
  | 0x22 => row22 r
  | 0x23 => row23 r
  | 0x24 => row24 r
  | 0x25 => row25 r
  | 0x28 => row28 r
  | 0x29 => row29 r
  | 0x2A => row2A r
  | 0x2B => row2B r
  | 0x30 => row30 r
  | 0x31 => row31 r
  | 0x32 => row32 r
  | 0x38 => row38 r
  | 0x39 => row39 r
  | 0x3A => row3A r
  | 0x3B => row3B r
  | 0x40 => row40 r
  | 0x41 => row41 r
  | 0x42 => row42 r
  | 0x43 => row43 r
  | 0x44 => row44 r
  | 0x45 => row45 r
  | 0x46 => row46 r
  | 0x47 => row47 r
  | 0x48 => row48 r
  | 0x50 => row50 r
  | 0x51 => row51 r
  | 0x52 => row52 r
  | 0x53 => row53 r
  | 0x54 => row54 r
  | 0x58 => row58 r
  | 0x59 => row59 r
  | 0x5A => row5A r
  | 0x5B => row5B r
  | 0x60 => row60 r
  | 0x61 => row61 r
  | 0x62 => row62 r
  | 0x63 => row63 r
  | _ => none

/-- Whether LEN suits the format (R29). -/
def lenFits (f : Format) (len : BitVec 2) : Bool :=
  match f with
  | .any => len ≠ 0#2
  | .r | .v | .b | .i => len = 1#2
  | .l => len = 2#2
  | .x => len = 3#2

/-- Check 8 of R33: a used field holds a reserved value, or SK = 1 on a function without a fragment source. -/
def reservedValue (f : Format) (r : Raw) (w : Row) : Bool :=
  (w.scope ∧ 5 ≤ r.scope.toNat) ∨ (w.rm ∧ r.rm = 7#3) ∨ (w.nul ∧ r.nul = 3#2) ∨
  ¬ w.d.valid r.d ∨ ¬ w.a.valid r.a ∨ (¬ (w.frag ∧ r.sk) ∧ ¬ w.b.valid r.b) ∨ ¬ w.c.valid r.c ∨
  (f = .v ∧ r.sk ∧ ¬ w.frag)

/-- The bits of `hi` that the function uses (R22 to R24). -/
def hiUsed (r : Raw) (w : Row) : BitVec 25 :=
  (if w.b ≠ .none ∧ ¬ (w.frag ∧ r.sk) then 0x3F#25 else 0#25) ||| (if w.c ≠ .none then 0xFC0#25 else 0#25) |||
  (if w.frag ∧ r.sk then 0x1FFC000#25 else 0#25) ||| w.imm

/-- Check 10 of R33: a bit the instruction does not use is set (R32). -/
def reservedBits (r : Raw) (w : Row) : Bool :=
  (w.d = .none ∧ r.d ≠ 0#6) ∨ (w.a = .none ∧ r.a ≠ 0#6) ∨ (¬ w.esz ∧ r.esz ≠ 0#2) ∨ (¬ w.ord ∧ r.ord ≠ 0#2) ∨
  (¬ w.scope ∧ r.scope ≠ 0#3) ∨ (¬ w.rm ∧ r.rm ≠ 0#3) ∨ (¬ w.nul ∧ r.nul ≠ 0#2) ∨
  r.hi &&& ~~~ (hiUsed r w) ≠ 0#25 ∨ r.up &&& ~~~ w.up ≠ 0#64

/-- Decodes the fields of a word in the order of R33 (checks 3, 5 to 8, 10, 11; check 9 needs the core and is made
where the word is fetched). -/
def decodeRaw (r : Raw) : Decoded :=
  if r.len = 0#2 then .bad .lenZero else
  match majFormat r.maj.toNat with
  | none => .bad .majorUnassigned
  | some f =>
    if ¬ lenFits f r.len then .bad .lenMismatch else
    match rowOf r with
    | none => .bad .functionUnassigned
    | some w =>
      if reservedValue f r w then .bad .reservedValue
      else if reservedBits r w then .bad .reservedBits
      else if w.combo then .bad .reservedCombination
      else .ok w.instr

/-- The length in bytes that LEN names, 0 for the illegal 0b00 (R17). -/
def lenBytes (len : BitVec 2) : Nat :=
  match len.toNat with
  | 1 => 8
  | 2 => 12
  | 3 => 16
  | _ => 0

/-- A word cut to the length its LEN names. -/
def cutWord (w : BitVec 128) : BitVec 128 :=
  match (w.extractLsb' 0 2).toNat with
  | 1 => (w.setWidth 64).setWidth 128
  | 2 => (w.setWidth 96).setWidth 128
  | _ => w

/-- Decodes a core word of 64, 96 or 128 bits, bit 0 the least significant bit of its byte 0 (R17). -/
def decodeWord (w : BitVec 128) : Decoded := decodeRaw (Raw.ofWord (cutWord w))

/-- The number that bytes stand for, byte 0 least significant (R3). -/
def bytesToNat : List Byte → Nat
  | [] => 0
  | b :: bs => b.toNat + 256 * bytesToNat bs

/-- The first n bytes of a number, byte 0 least significant (R3). -/
def natToBytes : Nat → Nat → List Byte
  | 0, _ => []
  | n + 1, v => BitVec.ofNat 8 v :: natToBytes n (v / 256)

/-- Decodes the instruction whose bytes stand first in a list, as they stand in memory (R17). -/
def decodeBytes (bs : List Byte) : Decoded := decodeWord (BitVec.ofNat 128 (bytesToNat (bs.take 16)))

/-- Reads one 32-bit sorter word (R280 to R289); none where R278 condition 1 refuses its fields. -/
def decodeSorter (w : BitVec 32) : Option Instr :=
  let kd : BitVec 4 := w.extractLsb' 22 4
  let ka : BitVec 4 := w.extractLsb' 18 4
  let kb : BitVec 4 := w.extractLsb' 14 4
  let zero (mask : BitVec 32) : Bool := w &&& mask = 0#32
  let vec (r : BitVec 4) : Bool := r.toNat < 4
  match (w.extractLsb' 26 6).toNat with
  | 0x0 => if zero 0x3fff#32 then some (.sorterAdd kd ka kb) else none
  | 0x1 => if zero 0x3fff#32 then some (.sorterSub kd ka kb) else none
  | 0x2 => if zero 0x3fff#32 then some (.sorterAnd kd ka kb) else none
  | 0x3 => if zero 0x3fff#32 then some (.sorterOr kd ka kb) else none
  | 0x4 => if zero 0x3fff#32 then some (.sorterXor kd ka kb) else none
  | 0x5 => if zero 0x3fff#32 then some (.sorterShl kd ka kb) else none
  | 0x6 => if zero 0x3fff#32 then some (.sorterShr kd ka kb) else none
  | 0x7 => if zero 0x3fff#32 then some (.setltu kd ka kb) else none
  | 0x8 => if zero 0x3fff#32 then some (.seteq kd ka kb) else none
  | 0x9 => if zero 0x0#32 then some (.addk kd ka (w.setWidth 18)) else none
  | 0xa => if zero 0x0#32 then some (.andk kd ka (w.setWidth 18)) else none
  | 0xb => if zero 0x3ffc0#32 then some (.shlk kd ka (w.setWidth 6)) else none
  | 0xc => if zero 0x3ffc0#32 then some (.shrk kd ka (w.setWidth 6)) else none
  | 0xd => if zero 0x3c0000#32 then some (.movk kd (w.setWidth 18)) else none
  | 0xe => if zero 0x3c03f00#32 then some (.sorterBeq ka kb (w.setWidth 8)) else none
  | 0xf => if zero 0x3c03f00#32 then some (.sorterBne ka kb (w.setWidth 8)) else none
  | 0x10 => if zero 0x3c03f00#32 then some (.sorterBltu ka kb (w.setWidth 8)) else none
  | 0x11 => if zero 0x3ffff00#32 then some (.jmp (w.setWidth 8)) else none
  | 0x12 => if zero 0x3fffe0#32 ∧ w.extractLsb' 0 5 ≤ 13#5 then some (.hget kd (w.setWidth 5)) else none
  | 0x13 => if zero 0x3c3ffe0#32 ∧ w.extractLsb' 0 5 ≤ 13#5 then some (.hset ka (w.setWidth 5)) else none
  | 0x14 => if zero 0x3ffff8#32 ∧ vec kd then some (.pldw kd (w.setWidth 3)) else none
  | 0x15 => if zero 0x3c3fff8#32 ∧ vec ka then some (.pstw ka (w.setWidth 3)) else none
  | 0x16 => if zero 0x3fffc#32 ∧ vec ka then some (.wget kd ka (w.setWidth 2)) else none
  | 0x17 => if zero 0x3fffc#32 ∧ vec kd then some (.wset kd ka (w.setWidth 2)) else none
  | 0x18 => if zero 0x3c3ffff#32 then some (.fsel ka) else none
  | 0x19 => if zero 0x3fffc7#32 then some (.sld kd (w.extractLsb' 3 3)) else none
  | 0x1a => if zero 0x3c3ffc7#32 then some (.sst ka (w.extractLsb' 3 3)) else none
  | 0x1b => if zero 0x3fffdf#32 ∧ vec kd then some (.sldw kd (w.extractLsb' 5 1)) else none
  | 0x1c => if zero 0x3c3ffdf#32 ∧ vec ka then some (.sstw ka (w.extractLsb' 5 1)) else none
  | 0x1d => if zero 0x3ffff#32 then some (.gld kd ka) else none
  | 0x1e => if zero 0x3fff#32 then some (.gmem kd ka kb) else none
  | 0x1f => if zero 0x3c3ffff#32 then some (.emit ka) else none
  | 0x20 => if zero 0x3c3ffff#32 then some (.emitg ka) else none
  | 0x21 => if zero 0x3ffffff#32 then some (.fwd) else none
  | 0x22 => if zero 0x3ffffff#32 then some (.drop) else none
  | 0x23 => if zero 0x3ffff00#32 then some (.nack (w.setWidth 8)) else none
  | 0x24 => if zero 0x3ffff00#32 then some (.sorterTrap (w.setWidth 8)) else none
  | _ => none

/-- The instruction that the decoder reads from a word of the opcode table: 32-bit words are sorter words (R280), all
longer ones core words (R17). -/
def decodeTableWord (nbits w : Nat) : Option Instr :=
  if nbits = 32 then decodeSorter (BitVec.ofNat 32 (bytesToNat (natToBytes 4 w)))
  else
    match decodeBytes (natToBytes 16 w) with
    | .ok i => some i
    | .bad _ => none

/-- Bits [63:39] of formats R and X: B and C (R22, R24). -/
def hiR (b c : Reg) : BitVec 25 := 0#13 ++ c ++ b

/-- Bits [63:39] of format V with a fragment-capable second source (R22, R46). -/
def hiV (b : VSrc) (c : Reg) : BitVec 25 :=
  match b with
  | .reg r => 0#13 ++ c ++ r
  | .frag t row => 1#1 ++ t ++ row ++ 0#2 ++ c ++ 0#6

/-- Bits [63:39] of STR: S, DIR and CORE (R142). -/
def hiStr (k : BitVec 2) (out core : Bool) : BitVec 25 := k ++ BitVec.ofBool out ++ BitVec.ofBool core ++ 0#21

/-- A sorter word from its OP, KD, KA and bits [17:0] (R280). -/
def sorterWord (op : BitVec 6) (kd ka : BitVec 4) (low : BitVec 18) : BitVec 32 := op ++ kd ++ ka ++ low

/-- The fields of a core instruction's encoding (R20 to R24, R38); none for an instruction without one. -/
def toRaw (i : Instr) : Option Raw :=
  match i with
  | .nop => some { len := 1#2 }
  | .add d a b =>
    some { len := 1#2, maj := 0x01#7, d := d, a := a, hi := hiR b 0#6 }
  | .adds d a b =>
    some { len := 1#2, maj := 0x01#7, fn := 1#6, d := d, a := a, hi := hiR b 0#6 }
  | .addus d a b =>
    some { len := 1#2, maj := 0x01#7, fn := 2#6, d := d, a := a, hi := hiR b 0#6 }
  | .sub d a b =>
    some { len := 1#2, maj := 0x02#7, d := d, a := a, hi := hiR b 0#6 }
  | .subs d a b =>
    some { len := 1#2, maj := 0x02#7, fn := 1#6, d := d, a := a, hi := hiR b 0#6 }
  | .subus d a b =>
    some { len := 1#2, maj := 0x02#7, fn := 2#6, d := d, a := a, hi := hiR b 0#6 }
  | .and d a b =>
    some { len := 1#2, maj := 0x03#7, d := d, a := a, hi := hiR b 0#6 }
  | .andn d a b =>
    some { len := 1#2, maj := 0x03#7, fn := 1#6, d := d, a := a, hi := hiR b 0#6 }
  | .or d a b =>
    some { len := 1#2, maj := 0x04#7, d := d, a := a, hi := hiR b 0#6 }
  | .xor d a b =>
    some { len := 1#2, maj := 0x05#7, d := d, a := a, hi := hiR b 0#6 }
  | .shl d a b =>
    some { len := 1#2, maj := 0x06#7, d := d, a := a, hi := hiR b 0#6 }
  | .shr d a b =>
    some { len := 1#2, maj := 0x06#7, fn := 1#6, d := d, a := a, hi := hiR b 0#6 }
  | .sha d a b =>
    some { len := 1#2, maj := 0x06#7, fn := 2#6, d := d, a := a, hi := hiR b 0#6 }
  | .cmpeq d a b =>
    some { len := 1#2, maj := 0x07#7, d := d, a := a, hi := hiR b 0#6 }
  | .cmpne d a b =>
    some { len := 1#2, maj := 0x07#7, fn := 1#6, d := d, a := a, hi := hiR b 0#6 }
  | .cmplt d a b =>
    some { len := 1#2, maj := 0x07#7, fn := 2#6, d := d, a := a, hi := hiR b 0#6 }
  | .cmpge d a b =>
    some { len := 1#2, maj := 0x07#7, fn := 3#6, d := d, a := a, hi := hiR b 0#6 }
  | .cmpltu d a b =>
    some { len := 1#2, maj := 0x07#7, fn := 4#6, d := d, a := a, hi := hiR b 0#6 }
  | .cmpgeu d a b =>
    some { len := 1#2, maj := 0x07#7, fn := 5#6, d := d, a := a, hi := hiR b 0#6 }
  | .addi d a imm =>
    some { len := 1#2, maj := 0x08#7, d := d, a := a, hi := imm }
  | .andi d a imm =>
    some { len := 1#2, maj := 0x09#7, d := d, a := a, hi := imm }
  | .ori d a imm =>
    some { len := 1#2, maj := 0x0A#7, d := d, a := a, hi := imm }
  | .xori d a imm =>
    some { len := 1#2, maj := 0x0B#7, d := d, a := a, hi := imm }
  | .shil d a imm =>
    some { len := 1#2, maj := 0x0C#7, d := d, a := a, hi := imm.setWidth 25 }
  | .shir d a imm =>
    some { len := 1#2, maj := 0x0C#7, fn := 1#6, d := d, a := a, hi := imm.setWidth 25 }
  | .shia d a imm =>
    some { len := 1#2, maj := 0x0C#7, fn := 2#6, d := d, a := a, hi := imm.setWidth 25 }
  | .cmpieq d a imm =>
    some { len := 1#2, maj := 0x0D#7, d := d, a := a, hi := imm }
  | .cmpine d a imm =>
    some { len := 1#2, maj := 0x0D#7, fn := 1#6, d := d, a := a, hi := imm }
  | .cmpilt d a imm =>
    some { len := 1#2, maj := 0x0D#7, fn := 2#6, d := d, a := a, hi := imm }
  | .cmpige d a imm =>
    some { len := 1#2, maj := 0x0D#7, fn := 3#6, d := d, a := a, hi := imm }
  | .cmpiltu d a imm =>
    some { len := 1#2, maj := 0x0D#7, fn := 4#6, d := d, a := a, hi := imm }
  | .cmpigeu d a imm =>
    some { len := 1#2, maj := 0x0D#7, fn := 5#6, d := d, a := a, hi := imm }
  | .li d imm =>
    some { len := 2#2, maj := 0x0E#7, d := d, up := imm.setWidth 64 }
  | .liu d imm =>
    some { len := 2#2, maj := 0x0E#7, fn := 1#6, d := d, up := imm.setWidth 64 }
  | .liw d ext =>
    some { len := 3#2, maj := 0x0F#7, d := d, up := ext }
  | .mul d a b =>
    some { len := 1#2, maj := 0x10#7, d := d, a := a, hi := hiR b 0#6 }
  | .mulh d a b =>
    some { len := 1#2, maj := 0x10#7, fn := 1#6, d := d, a := a, hi := hiR b 0#6 }
  | .mulhu d a b =>
    some { len := 1#2, maj := 0x10#7, fn := 2#6, d := d, a := a, hi := hiR b 0#6 }
  | .mula d a b c =>
    some { len := 1#2, maj := 0x10#7, fn := 3#6, d := d, a := a, hi := hiR b c }
  | .div d a b =>
    some { len := 1#2, maj := 0x11#7, d := d, a := a, hi := hiR b 0#6 }
  | .divu d a b =>
    some { len := 1#2, maj := 0x11#7, fn := 1#6, d := d, a := a, hi := hiR b 0#6 }
  | .divrem d a b =>
    some { len := 1#2, maj := 0x11#7, fn := 2#6, d := d, a := a, hi := hiR b 0#6 }
  | .divremu d a b =>
    some { len := 1#2, maj := 0x11#7, fn := 3#6, d := d, a := a, hi := hiR b 0#6 }
  | .bitcnt d a =>
    some { len := 1#2, maj := 0x12#7, d := d, a := a }
  | .bitclz d a =>
    some { len := 1#2, maj := 0x12#7, fn := 1#6, d := d, a := a }
  | .bitctz d a =>
    some { len := 1#2, maj := 0x12#7, fn := 2#6, d := d, a := a }
  | .sel d a b c =>
    some { len := 1#2, maj := 0x13#7, d := d, a := a, hi := hiR b c }
  | .beq a b nul disp =>
    some { len := 1#2, maj := 0x18#7, a := a, nul := nul, hi := disp ++ b }
  | .bne a b nul disp =>
    some { len := 1#2, maj := 0x18#7, fn := 1#6, a := a, nul := nul, hi := disp ++ b }
  | .blt a b nul disp =>
    some { len := 1#2, maj := 0x18#7, fn := 2#6, a := a, nul := nul, hi := disp ++ b }
  | .bge a b nul disp =>
    some { len := 1#2, maj := 0x18#7, fn := 3#6, a := a, nul := nul, hi := disp ++ b }
  | .bltu a b nul disp =>
    some { len := 1#2, maj := 0x18#7, fn := 4#6, a := a, nul := nul, hi := disp ++ b }
  | .bgeu a b nul disp =>
    some { len := 1#2, maj := 0x18#7, fn := 5#6, a := a, nul := nul, hi := disp ++ b }
  | .bz a nul disp =>
    some { len := 1#2, maj := 0x19#7, a := a, nul := nul, hi := disp ++ 0#6 }
  | .bzn a nul disp =>
    some { len := 1#2, maj := 0x19#7, fn := 1#6, a := a, nul := nul, hi := disp ++ 0#6 }
  | .j nul imm =>
    some { len := 1#2, maj := 0x1A#7, nul := nul, hi := imm }
  | .jl d nul imm =>
    some { len := 1#2, maj := 0x1A#7, fn := 1#6, d := d, nul := nul, hi := imm }
  | .jr d a nul =>
    some { len := 1#2, maj := 0x1A#7, fn := 2#6, d := d, a := a, nul := nul }
  | .csrd d imm =>
    some { len := 1#2, maj := 0x60#7, d := d, hi := imm.setWidth 25 }
  | .cswr a imm =>
    some { len := 1#2, maj := 0x60#7, fn := 1#6, a := a, hi := imm.setWidth 25 }
  | .csset d a imm =>
    some { len := 1#2, maj := 0x60#7, fn := 2#6, d := d, a := a, hi := imm.setWidth 25 }
  | .csclr d a imm =>
    some { len := 1#2, maj := 0x60#7, fn := 3#6, d := d, a := a, hi := imm.setWidth 25 }
  | .ld d a esz ord scope imm =>
    some { len := 1#2, maj := 0x20#7, d := d, a := a, esz := esz, ord := ord, scope := scope, hi := imm }
  | .lds d a esz ord scope imm =>
    some { len := 1#2, maj := 0x20#7, fn := 1#6, d := d, a := a, esz := esz, ord := ord, scope := scope, hi := imm }
  | .st d a esz ord scope imm =>
    some { len := 1#2, maj := 0x21#7, d := d, a := a, esz := esz, ord := ord, scope := scope, hi := imm }
  | .ld64 d a ord scope imm =>
    some { len := 1#2, maj := 0x22#7, d := d, a := a, ord := ord, scope := scope, hi := imm }
  | .st64 d a ord scope imm =>
    some { len := 1#2, maj := 0x23#7, d := d, a := a, ord := ord, scope := scope, hi := imm }
  | .amoswap d a b esz ord scope =>
    some { len := 1#2, maj := 0x24#7, d := d, a := a, esz := esz, ord := ord, scope := scope, hi := hiR b 0#6 }
  | .amoadd d a b esz ord scope =>
    some { len := 1#2, maj := 0x24#7, fn := 1#6, d := d, a := a, esz := esz, ord := ord, scope := scope, hi := hiR b 0#6 }
  | .amoand d a b esz ord scope =>
    some { len := 1#2, maj := 0x24#7, fn := 2#6, d := d, a := a, esz := esz, ord := ord, scope := scope, hi := hiR b 0#6 }
  | .amoor d a b esz ord scope =>
    some { len := 1#2, maj := 0x24#7, fn := 3#6, d := d, a := a, esz := esz, ord := ord, scope := scope, hi := hiR b 0#6 }
  | .amoxor d a b esz ord scope =>
    some { len := 1#2, maj := 0x24#7, fn := 4#6, d := d, a := a, esz := esz, ord := ord, scope := scope, hi := hiR b 0#6 }
  | .amomin d a b esz ord scope =>
    some { len := 1#2, maj := 0x24#7, fn := 5#6, d := d, a := a, esz := esz, ord := ord, scope := scope, hi := hiR b 0#6 }
  | .amomax d a b esz ord scope =>
    some { len := 1#2, maj := 0x24#7, fn := 6#6, d := d, a := a, esz := esz, ord := ord, scope := scope, hi := hiR b 0#6 }
  | .amominu d a b esz ord scope =>
    some { len := 1#2, maj := 0x24#7, fn := 7#6, d := d, a := a, esz := esz, ord := ord, scope := scope, hi := hiR b 0#6 }
  | .amomaxu d a b esz ord scope =>
    some { len := 1#2, maj := 0x24#7, fn := 8#6, d := d, a := a, esz := esz, ord := ord, scope := scope, hi := hiR b 0#6 }
  | .amocas d a b c esz ord scope =>
    some { len := 1#2, maj := 0x24#7, fn := 9#6, d := d, a := a, esz := esz, ord := ord, scope := scope, hi := hiR b c }
  | .fence ord scope =>
    some { len := 1#2, maj := 0x25#7, ord := ord, scope := scope }
  | .qlen d a =>
    some { len := 1#2, maj := 0x28#7, d := d, a := a }
  | .qroom d a =>
    some { len := 1#2, maj := 0x28#7, fn := 1#6, d := d, a := a }
  | .qpeek d a =>
    some { len := 1#2, maj := 0x28#7, fn := 2#6, d := d, a := a }
  | .strgo a k out core ext =>
    some { len := 3#2, maj := 0x29#7, a := a, up := ext, hi := hiStr k out core }
  | .strstop k =>
    some { len := 3#2, maj := 0x29#7, fn := 1#6, hi := hiStr k false false }
  | .strwait k =>
    some { len := 3#2, maj := 0x29#7, fn := 2#6, hi := hiStr k false false }
  | .strcnt d k =>
    some { len := 3#2, maj := 0x29#7, fn := 3#6, d := d, hi := hiStr k false false }
  | .semw imm =>
    some { len := 1#2, maj := 0x2A#7, hi := imm.setWidth 25 }
  | .semp imm =>
    some { len := 1#2, maj := 0x2A#7, fn := 1#6, hi := imm.setWidth 25 }
  | .semtry d imm =>
    some { len := 1#2, maj := 0x2A#7, fn := 2#6, d := d, hi := imm.setWidth 25 }
  | .semrd d imm =>
    some { len := 1#2, maj := 0x2A#7, fn := 3#6, d := d, hi := imm.setWidth 25 }
  | .barset d a imm =>
    some { len := 1#2, maj := 0x2B#7, d := d, a := a, hi := imm }
  | .bararr d a imm =>
    some { len := 1#2, maj := 0x2B#7, fn := 1#6, d := d, a := a, hi := imm }
  | .barwait d a imm =>
    some { len := 1#2, maj := 0x2B#7, fn := 2#6, d := d, a := a, hi := imm }
  | .bartest d a imm =>
    some { len := 1#2, maj := 0x2B#7, fn := 3#6, d := d, a := a, hi := imm }
  | .barexp d a imm =>
    some { len := 1#2, maj := 0x2B#7, fn := 4#6, d := d, a := a, hi := imm }
  | .copy d a b c rm ext =>
    some { len := 3#2, maj := 0x38#7, d := d, a := a, rm := rm, up := ext, hi := hiR b c }
  | .cseal =>
    some { len := 1#2, maj := 0x39#7 }
  | .cwait imm =>
    some { len := 1#2, maj := 0x39#7, fn := 1#6, hi := imm.setWidth 25 }
  | .ctest d imm =>
    some { len := 1#2, maj := 0x39#7, fn := 2#6, d := d, hi := imm.setWidth 25 }
  | .ccnt d =>
    some { len := 1#2, maj := 0x39#7, fn := 3#6, d := d }
  | .tidld a imm =>
    some { len := 1#2, maj := 0x3A#7, a := a, hi := imm }
  | .tidst a imm =>
    some { len := 1#2, maj := 0x3A#7, fn := 1#6, a := a, hi := imm }
  | .tidbase a imm =>
    some { len := 1#2, maj := 0x3A#7, fn := 2#6, a := a, hi := imm.setWidth 25 }
  | .osclaim imm =>
    some { len := 1#2, maj := 0x3B#7, hi := imm.setWidth 25 }
  | .ostry d imm =>
    some { len := 1#2, maj := 0x3B#7, fn := 1#6, d := d, hi := imm.setWidth 25 }
  | .osrel imm =>
    some { len := 1#2, maj := 0x3B#7, fn := 2#6, hi := imm.setWidth 25 }
  | .osst d =>
    some { len := 1#2, maj := 0x3B#7, fn := 3#6, d := d }
  | .vadd d a b rm =>
    some { len := 1#2, maj := 0x40#7, d := d, a := a, rm := rm, hi := hiV b 0#6 }
  | .vsub d a b rm =>
    some { len := 1#2, maj := 0x40#7, fn := 1#6, d := d, a := a, rm := rm, hi := hiV b 0#6 }
  | .vmul d a b rm =>
    some { len := 1#2, maj := 0x40#7, fn := 2#6, d := d, a := a, rm := rm, hi := hiV b 0#6 }
  | .vfma d a b c rm =>
    some { len := 1#2, maj := 0x40#7, fn := 3#6, d := d, a := a, rm := rm, hi := hiV b c }
  | .vmin d a b =>
    some { len := 1#2, maj := 0x40#7, fn := 4#6, d := d, a := a, hi := hiV b 0#6 }
  | .vmax d a b =>
    some { len := 1#2, maj := 0x40#7, fn := 5#6, d := d, a := a, hi := hiV b 0#6 }
  | .vabs d b =>
    some { len := 1#2, maj := 0x40#7, fn := 6#6, d := d, hi := hiV b 0#6 }
  | .vneg d b =>
    some { len := 1#2, maj := 0x40#7, fn := 7#6, d := d, hi := hiV b 0#6 }
  | .vexp2 d b =>
    some { len := 1#2, maj := 0x40#7, fn := 8#6, d := d, hi := hiV b 0#6 }
  | .vrcp d b =>
    some { len := 1#2, maj := 0x40#7, fn := 9#6, d := d, hi := hiV b 0#6 }
  | .vrsq d b =>
    some { len := 1#2, maj := 0x40#7, fn := 10#6, d := d, hi := hiV b 0#6 }
  | .viadd d a b esz =>
    some { len := 1#2, maj := 0x41#7, d := d, a := a, esz := esz, hi := hiV b 0#6 }
  | .viadds d a b esz =>
    some { len := 1#2, maj := 0x41#7, fn := 1#6, d := d, a := a, esz := esz, hi := hiV b 0#6 }
  | .viaddus d a b esz =>
    some { len := 1#2, maj := 0x41#7, fn := 2#6, d := d, a := a, esz := esz, hi := hiV b 0#6 }
  | .visub d a b esz =>
    some { len := 1#2, maj := 0x41#7, fn := 3#6, d := d, a := a, esz := esz, hi := hiV b 0#6 }
  | .visubs d a b esz =>
    some { len := 1#2, maj := 0x41#7, fn := 4#6, d := d, a := a, esz := esz, hi := hiV b 0#6 }
  | .visubus d a b esz =>
    some { len := 1#2, maj := 0x41#7, fn := 5#6, d := d, a := a, esz := esz, hi := hiV b 0#6 }
  | .vimul d a b esz =>
    some { len := 1#2, maj := 0x41#7, fn := 6#6, d := d, a := a, esz := esz, hi := hiV b 0#6 }
  | .vimulh d a b esz =>
    some { len := 1#2, maj := 0x41#7, fn := 7#6, d := d, a := a, esz := esz, hi := hiV b 0#6 }
  | .vimulhu d a b esz =>
    some { len := 1#2, maj := 0x41#7, fn := 8#6, d := d, a := a, esz := esz, hi := hiV b 0#6 }
  | .vimin d a b esz =>
    some { len := 1#2, maj := 0x41#7, fn := 9#6, d := d, a := a, esz := esz, hi := hiV b 0#6 }
  | .vimax d a b esz =>
    some { len := 1#2, maj := 0x41#7, fn := 10#6, d := d, a := a, esz := esz, hi := hiV b 0#6 }
  | .viminu d a b esz =>
    some { len := 1#2, maj := 0x41#7, fn := 11#6, d := d, a := a, esz := esz, hi := hiV b 0#6 }
  | .vimaxu d a b esz =>
    some { len := 1#2, maj := 0x41#7, fn := 12#6, d := d, a := a, esz := esz, hi := hiV b 0#6 }
  | .viand d a b esz =>
    some { len := 1#2, maj := 0x41#7, fn := 13#6, d := d, a := a, esz := esz, hi := hiV b 0#6 }
  | .vior d a b esz =>
    some { len := 1#2, maj := 0x41#7, fn := 14#6, d := d, a := a, esz := esz, hi := hiV b 0#6 }
  | .vixor d a b esz =>
    some { len := 1#2, maj := 0x41#7, fn := 15#6, d := d, a := a, esz := esz, hi := hiV b 0#6 }
  | .viandn d a b esz =>
    some { len := 1#2, maj := 0x41#7, fn := 16#6, d := d, a := a, esz := esz, hi := hiV b 0#6 }
  | .vcmpfeq d a b =>
    some { len := 1#2, maj := 0x42#7, d := d, a := a, hi := hiV b 0#6 }
  | .vcmpflt d a b =>
    some { len := 1#2, maj := 0x42#7, fn := 1#6, d := d, a := a, hi := hiV b 0#6 }
  | .vcmpfle d a b =>
    some { len := 1#2, maj := 0x42#7, fn := 2#6, d := d, a := a, hi := hiV b 0#6 }
  | .vcmpfun d a b =>
    some { len := 1#2, maj := 0x42#7, fn := 3#6, d := d, a := a, hi := hiV b 0#6 }
  | .vcmpieq d a b esz =>
    some { len := 1#2, maj := 0x42#7, fn := 4#6, d := d, a := a, esz := esz, hi := hiV b 0#6 }
  | .vcmpilt d a b esz =>
    some { len := 1#2, maj := 0x42#7, fn := 5#6, d := d, a := a, esz := esz, hi := hiV b 0#6 }
  | .vcmpiltu d a b esz =>
    some { len := 1#2, maj := 0x42#7, fn := 6#6, d := d, a := a, esz := esz, hi := hiV b 0#6 }
  | .vcmpsel d a b c esz =>
    some { len := 1#2, maj := 0x42#7, fn := 7#6, d := d, a := a, esz := esz, hi := hiV b c }
  | .vshl d a b esz =>
    some { len := 1#2, maj := 0x43#7, d := d, a := a, esz := esz, hi := hiR b 0#6 }
  | .vshr d a b esz =>
    some { len := 1#2, maj := 0x43#7, fn := 1#6, d := d, a := a, esz := esz, hi := hiR b 0#6 }
  | .vsha d a b esz =>
    some { len := 1#2, maj := 0x43#7, fn := 2#6, d := d, a := a, esz := esz, hi := hiR b 0#6 }
  | .vshls d a c esz =>
    some { len := 1#2, maj := 0x43#7, fn := 3#6, d := d, a := a, esz := esz, hi := hiR 0#6 c }
  | .vshrs d a c esz =>
    some { len := 1#2, maj := 0x43#7, fn := 4#6, d := d, a := a, esz := esz, hi := hiR 0#6 c }
  | .vshas d a c esz =>
    some { len := 1#2, maj := 0x43#7, fn := 5#6, d := d, a := a, esz := esz, hi := hiR 0#6 c }
  | .vredsum d b rm =>
    some { len := 1#2, maj := 0x44#7, d := d, rm := rm, hi := hiV b 0#6 }
  | .vredmax d b =>
    some { len := 1#2, maj := 0x44#7, fn := 1#6, d := d, hi := hiV b 0#6 }
  | .vredmin d b =>
    some { len := 1#2, maj := 0x44#7, fn := 2#6, d := d, hi := hiV b 0#6 }
  | .vredisum d b esz =>
    some { len := 1#2, maj := 0x44#7, fn := 3#6, d := d, esz := esz, hi := hiV b 0#6 }
  | .vredimax d b esz =>
    some { len := 1#2, maj := 0x44#7, fn := 4#6, d := d, esz := esz, hi := hiV b 0#6 }
  | .vredimin d b esz =>
    some { len := 1#2, maj := 0x44#7, fn := 5#6, d := d, esz := esz, hi := hiV b 0#6 }
  | .vredor d b esz =>
    some { len := 1#2, maj := 0x44#7, fn := 6#6, d := d, esz := esz, hi := hiV b 0#6 }
  | .vredcnt d b esz =>
    some { len := 1#2, maj := 0x44#7, fn := 7#6, d := d, esz := esz, hi := hiV b 0#6 }
  | .vmov d b =>
    some { len := 1#2, maj := 0x47#7, d := d, hi := hiV b 0#6 }
  | .vmovs d a esz =>
    some { len := 1#2, maj := 0x47#7, fn := 1#6, d := d, a := a, esz := esz, hi := hiR 0#6 0#6 }
  | .vmovx d a c esz =>
    some { len := 1#2, maj := 0x47#7, fn := 2#6, d := d, a := a, esz := esz, hi := hiR 0#6 c }
  | .vmovi d a b c esz =>
    some { len := 1#2, maj := 0x47#7, fn := 3#6, d := d, a := a, esz := esz, hi := hiR b c }
  | .vmovp d a b esz =>
    some { len := 1#2, maj := 0x47#7, fn := 4#6, d := d, a := a, esz := esz, hi := hiR b 0#6 }
  | .vmovsr d b c =>
    some { len := 1#2, maj := 0x47#7, fn := 5#6, d := d, hi := hiV b c }
  | .vcvif d b rm =>
    some { len := 1#2, maj := 0x45#7, d := d, rm := rm, hi := hiV b 0#6 }
  | .vcvn d a b f rm =>
    some { len := 1#2, maj := 0x45#7, fn := f, d := d, a := a, rm := rm, hi := hiV b 0#6 }
  | .vcvfi d b rm =>
    some { len := 1#2, maj := 0x45#7, fn := 32#6, d := d, rm := rm, hi := hiV b 0#6 }
  | .vcvw d b f =>
    some { len := 1#2, maj := 0x45#7, fn := f + 32#6, d := d, hi := hiR b 0#6 }
  | .vqpq8 d a b c rm =>
    some { len := 1#2, maj := 0x46#7, d := d, a := a, rm := rm, hi := hiV b c }
  | .vqpq4 d a b c rm =>
    some { len := 1#2, maj := 0x46#7, fn := 1#6, d := d, a := a, rm := rm, hi := hiV b c }
  | .vqpf8ab d a b c rm =>
    some { len := 1#2, maj := 0x46#7, fn := 2#6, d := d, a := a, rm := rm, hi := hiV b c }
  | .vqpf4ab d a b c rm =>
    some { len := 1#2, maj := 0x46#7, fn := 3#6, d := d, a := a, rm := rm, hi := hiV b c }
  | .vqpdq8 d b c =>
    some { len := 1#2, maj := 0x46#7, fn := 4#6, d := d, hi := hiR b c }
  | .vqpdq4 d b c =>
    some { len := 1#2, maj := 0x46#7, fn := 5#6, d := d, hi := hiR b c }
  | .vstrleft d imm =>
    some { len := 1#2, maj := 0x48#7, d := d, hi := imm.setWidth 25 }
  | .vstrrow d imm =>
    some { len := 1#2, maj := 0x48#7, fn := 1#6, d := d, hi := imm.setWidth 25 }
  | .vstrdrain imm =>
    some { len := 1#2, maj := 0x48#7, fn := 2#6, hi := imm.setWidth 25 }
  | .rst d a esz imm =>
    some { len := 1#2, maj := 0x51#7, d := d, a := a, esz := esz, hi := imm }
  | .rstcp d a imm =>
    some { len := 1#2, maj := 0x51#7, fn := 1#6, d := d, a := a, hi := imm.setWidth 25 }
  | .rstpm a =>
    some { len := 1#2, maj := 0x51#7, fn := 2#6, a := a }
  | .rstpmrd d =>
    some { len := 1#2, maj := 0x51#7, fn := 3#6, d := d }
  | .rld d a esz imm =>
    some { len := 1#2, maj := 0x50#7, d := d, a := a, esz := esz, hi := imm }
  | .rlds d a esz imm =>
    some { len := 1#2, maj := 0x50#7, fn := 1#6, d := d, a := a, esz := esz, hi := imm }
  | .rldadd d a esz imm =>
    some { len := 1#2, maj := 0x50#7, fn := 2#6, d := d, a := a, esz := esz, hi := imm }
  | .mcst d a b c =>
    some { len := 1#2, maj := 0x52#7, d := d, a := a, hi := hiR b c }
  | .crel d a b esz ext =>
    some { len := 3#2, maj := 0x53#7, d := d, a := a, esz := esz, up := ext, hi := hiR b 0#6 }
  | .crelm d a b c esz ext =>
    some { len := 3#2, maj := 0x53#7, fn := 1#6, d := d, a := a, esz := esz, up := ext, hi := hiR b c }
  | .rcptw d imm =>
    some { len := 1#2, maj := 0x54#7, d := d, hi := imm.setWidth 25 }
  | .rcpttest d imm =>
    some { len := 1#2, maj := 0x54#7, fn := 1#6, d := d, hi := imm.setWidth 25 }
  | .mixreg d a =>
    some { len := 1#2, maj := 0x58#7, d := d, a := a }
  | .mixadd d a b =>
    some { len := 1#2, maj := 0x58#7, fn := 1#6, d := d, a := a, hi := hiR b 0#6 }
  | .mixrd d a b esz =>
    some { len := 1#2, maj := 0x58#7, fn := 2#6, d := d, a := a, esz := esz, hi := hiR b 0#6 }
  | .mixst d a b =>
    some { len := 1#2, maj := 0x58#7, fn := 3#6, d := d, a := a, hi := hiR b 0#6 }
  | .mixstep d a b =>
    some { len := 1#2, maj := 0x58#7, fn := 4#6, d := d, a := a, hi := hiR b 0#6 }
  | .mixwait d a =>
    some { len := 1#2, maj := 0x58#7, fn := 5#6, d := d, a := a }
  | .dereg d a b c =>
    some { len := 1#2, maj := 0x58#7, fn := 6#6, d := d, a := a, hi := hiR b c }
  | .ohand d a imm =>
    some { len := 1#2, maj := 0x59#7, d := d, a := a, hi := imm }
  | .otake d a imm =>
    some { len := 1#2, maj := 0x59#7, fn := 1#6, d := d, a := a, hi := imm }
  | .odrop a imm =>
    some { len := 1#2, maj := 0x59#7, fn := 2#6, a := a, hi := imm }
  | .otest d a imm =>
    some { len := 1#2, maj := 0x59#7, fn := 3#6, d := d, a := a, hi := imm }
  | .msend a b c =>
    some { len := 1#2, maj := 0x30#7, a := a, hi := hiR b c }
  | .mpop d =>
    some { len := 1#2, maj := 0x30#7, fn := 1#6, d := d }
  | .mlen d a =>
    some { len := 1#2, maj := 0x30#7, fn := 2#6, d := d, a := a }
  | .mlaunch d b =>
    some { len := 1#2, maj := 0x30#7, fn := 3#6, d := d, hi := hiR b 0#6 }
  | .fend =>
    some { len := 1#2, maj := 0x31#7 }
  | .chmask imm =>
    some { len := 1#2, maj := 0x32#7, hi := imm.setWidth 25 }
  | .chunmask imm =>
    some { len := 1#2, maj := 0x32#7, fn := 1#6, hi := imm.setWidth 25 }
  | .chrd d imm =>
    some { len := 1#2, maj := 0x32#7, fn := 2#6, d := d, hi := imm.setWidth 25 }
  | .chprio a imm =>
    some { len := 1#2, maj := 0x32#7, fn := 3#6, a := a, hi := imm.setWidth 25 }
  | .creg imm =>
    some { len := 1#2, maj := 0x5A#7, hi := imm }
  | .cend =>
    some { len := 1#2, maj := 0x5B#7 }
  | .eret =>
    some { len := 1#2, maj := 0x61#7 }
  | .syscall =>
    some { len := 1#2, maj := 0x62#7 }
  | .sysbrk =>
    some { len := 1#2, maj := 0x62#7, fn := 1#6 }
  | .sysflush a =>
    some { len := 1#2, maj := 0x62#7, fn := 2#6, a := a }
  | .sysabort =>
    some { len := 1#2, maj := 0x62#7, fn := 3#6 }
  | .syspark =>
    some { len := 1#2, maj := 0x62#7, fn := 4#6 }
  | .sigen a =>
    some { len := 1#2, maj := 0x63#7, a := a }
  | .sigrd d =>
    some { len := 1#2, maj := 0x63#7, fn := 1#6, d := d }
  | _ => none

/-- The 32-bit word of a sorter instruction (R280); none for any other. -/
def encodeSorter (i : Instr) : Option (BitVec 32) :=
  match i with
  | .sorterAdd kd ka kb => some (sorterWord 0#6 kd ka (kb ++ 0#14))
  | .sorterSub kd ka kb => some (sorterWord 1#6 kd ka (kb ++ 0#14))
  | .sorterAnd kd ka kb => some (sorterWord 2#6 kd ka (kb ++ 0#14))
  | .sorterOr kd ka kb => some (sorterWord 3#6 kd ka (kb ++ 0#14))
  | .sorterXor kd ka kb => some (sorterWord 4#6 kd ka (kb ++ 0#14))
  | .sorterShl kd ka kb => some (sorterWord 5#6 kd ka (kb ++ 0#14))
  | .sorterShr kd ka kb => some (sorterWord 6#6 kd ka (kb ++ 0#14))
  | .setltu kd ka kb => some (sorterWord 7#6 kd ka (kb ++ 0#14))
  | .seteq kd ka kb => some (sorterWord 8#6 kd ka (kb ++ 0#14))
  | .addk kd ka imm => some (sorterWord 9#6 kd ka (imm))
  | .andk kd ka imm => some (sorterWord 10#6 kd ka (imm))
  | .shlk kd ka n => some (sorterWord 11#6 kd ka (0#12 ++ n))
  | .shrk kd ka n => some (sorterWord 12#6 kd ka (0#12 ++ n))
  | .movk kd imm => some (sorterWord 13#6 kd 0#4 (imm))
  | .sorterBeq ka kb off => some (sorterWord 14#6 0#4 ka (kb ++ 0#6 ++ off))
  | .sorterBne ka kb off => some (sorterWord 15#6 0#4 ka (kb ++ 0#6 ++ off))
  | .sorterBltu ka kb off => some (sorterWord 16#6 0#4 ka (kb ++ 0#6 ++ off))
  | .jmp off => some (sorterWord 17#6 0#4 0#4 (0#4 ++ 0#6 ++ off))
  | .hget kd f => some (sorterWord 18#6 kd 0#4 (0#13 ++ f))
  | .hset ka f => some (sorterWord 19#6 0#4 ka (0#13 ++ f))
  | .pldw wd f => some (sorterWord 20#6 wd 0#4 (0#15 ++ f))
  | .pstw wa f => some (sorterWord 21#6 0#4 wa (0#15 ++ f))
  | .wget kd wa l => some (sorterWord 22#6 kd wa (0#16 ++ l))
  | .wset wd ka l => some (sorterWord 23#6 wd ka (0#16 ++ l))
  | .fsel ka => some (sorterWord 24#6 0#4 ka (0#4 ++ 0#14))
  | .sld kd off => some (sorterWord 25#6 kd 0#4 (0#12 ++ off ++ 0#3))
  | .sst ka off => some (sorterWord 26#6 0#4 ka (0#12 ++ off ++ 0#3))
  | .sldw wd off => some (sorterWord 27#6 wd 0#4 (0#12 ++ off ++ 0#5))
  | .sstw wa off => some (sorterWord 28#6 0#4 wa (0#12 ++ off ++ 0#5))
  | .gld kd ka => some (sorterWord 29#6 kd ka (0#4 ++ 0#14))
  | .gmem kd ka kb => some (sorterWord 30#6 kd ka (kb ++ 0#14))
  | .emit ka => some (sorterWord 31#6 0#4 ka (0#4 ++ 0#14))
  | .emitg ka => some (sorterWord 32#6 0#4 ka (0#4 ++ 0#14))
  | .fwd => some (sorterWord 33#6 0#4 0#4 (0#4 ++ 0#14))
  | .drop => some (sorterWord 34#6 0#4 0#4 (0#4 ++ 0#14))
  | .nack n => some (sorterWord 35#6 0#4 0#4 (0#10 ++ n))
  | .sorterTrap n => some (sorterWord 36#6 0#4 0#4 (0#10 ++ n))
  | _ => none

/-- The word of a core instruction, upper bits zero beyond its length; none for an instruction without one. -/
def encode (i : Instr) : Option (BitVec 128) := (toRaw i).map Raw.toWord

/-- The length in bytes of a core instruction (R17). -/
def Instr.length (i : Instr) : Nat := match toRaw i with
  | some r => lenBytes r.len
  | none => 0

end Sys2Proof
end

