-- ==== Sys2Proof/Machine/Table.lean ====
section
/-! DEFINITION. Reading and writing sparse tables. -/

namespace Sys2Proof.Machine

/-- The entry of a key, or the table's default. -/
def tget {α : Type} (t : Tbl α) (dflt : α) (k : Nat) : α :=
  match t with
  | [] => dflt
  | (k', v) :: rest => if k' = k then v else tget rest dflt k

/-- Sets the entry of a key, keeping keys in rising order. -/
def tset {α : Type} (t : Tbl α) (k : Nat) (v : α) : Tbl α :=
  match t with
  | [] => [(k, v)]
  | (k', v') :: rest =>
    if k' = k then (k, v) :: rest
    else if k < k' then (k, v) :: (k', v') :: rest
    else (k', v') :: tset rest k v

/-- Applies a function to the entry of a key. -/
def tupd {α : Type} (t : Tbl α) (dflt : α) (k : Nat) (f : α → α) : Tbl α := tset t k (f (tget t dflt k))

/-- Drops the entry of a key. -/
def tdel {α : Type} (t : Tbl α) (k : Nat) : Tbl α := t.filter fun e => decide (e.1 ≠ k)

/-- The entry of a key, if it is listed. -/
def tfind {α : Type} (t : Tbl α) (k : Nat) : Option α :=
  match t with
  | [] => none
  | (k', v) :: rest => if k' = k then some v else tfind rest k

end Sys2Proof.Machine
end

