-- ==== Sys2Proof/Machine/Memory.lean ====
section
/-! DEFINITION. Bytes of memory: where each space lies in the one key space, the canonical sparse memory, the coherence
order (R319, R320) and poison (R100). -/

namespace Sys2Proof.Machine

/-- The key of a byte of a physical space: SPC 0 LPDDR, 1 vault, 2 host (R86). -/
def physKey (spc pa : Nat) : Nat := spc * 2 ^ 52 + pa

/-- The key of a byte of a cell's SRAM: scratchpad at 0, operand memory at 0x60000, accumulator memory at 0xA0000
(R81, R201, R372). -/
def cellKey (cell off : Nat) : Nat := 3 * 2 ^ 52 + cell * 2 ^ 20 + off

/-- The key of a byte of a supervisor core's own memory (log 5, DESIGN CHOICE). -/
def superKey (cluster ea : Nat) : Nat := 4 * 2 ^ 52 + cluster * 2 ^ 48 + ea

/-- Whether a key lies in a cell's SRAM. -/
def isCellKey (k : Nat) : Bool := decide (k / 2 ^ 52 = 3)

/-- The cell whose SRAM holds the key. -/
def keyCell (k : Nat) : Nat := k % 2 ^ 52 / 2 ^ 20

/-- Offset of operand memory in a cell's keys (R201). -/
def operandBase : Nat := 0x60000

/-- Offset of accumulator memory in a cell's keys (R201). -/
def accumBase : Nat := 0xA0000

/-- Size of a scratchpad in bytes (R81). -/
def spadSize : Nat := 0x60000

/-- The byte at a key; an unlisted byte is 0 (log 3, DESIGN CHOICE; R201). -/
def memGet (m : Memory) (a : Nat) : Byte :=
  match m with
  | [] => 0
  | (a', b) :: rest => if a' = a then b else memGet rest a

/-- Writes a byte, keeping the canonical form. -/
def memPut (m : Memory) (a : Nat) (b : Byte) : Memory :=
  match m with
  | [] => if b = 0 then [] else [(a, b)]
  | (a', b') :: rest =>
    if a < a' then (if b = 0 then (a', b') :: rest else (a, b) :: (a', b') :: rest)
    else if a' = a then (if b = 0 then rest else (a, b) :: rest)
    else (a', b') :: memPut rest a b

/-- Writes bytes; of two for one address the first counts, as where cells are read. -/
def memPuts (m : Memory) (cells : List Host.Cell) : Memory := cells.foldr (fun c m => memPut m c.1 c.2) m

/-- Bytes as cells from an address upward. -/
def cellsFrom (a : Nat) (bs : List Byte) : List Host.Cell := (List.range bs.length).zipWith (fun i b => (a + i, b)) bs

/-- Bytes at a list of addresses, paired. -/
def cellsAt (addrs : List Nat) (bs : List Byte) : List Host.Cell := addrs.zip bs

/-- The addresses of n bytes from a. -/
def span (a n : Nat) : List Nat := (List.range n).map (a + ·)

/-- The byte that a list of cells gives an address. -/
def cellAt (cells : List Host.Cell) (a : Nat) : Option Byte :=
  match cells with
  | [] => none
  | (a', b) :: rest => if a' = a then some b else cellAt rest a

/-- A party as far as visibility goes (R318). -/
inductive Viewer where
  | cell (c : Nat)
  | cluster (k : Nat)
  | chip
  /-- a core of another chip of the domain -/
  | far
  | host
  deriving DecidableEq, Repr

/-- Whether a write is visible to a party (R318, R319). -/
def Write.visibleTo (w : Write) (v : Viewer) : Bool :=
  match v with
  | .cell c => decide (2 ≤ w.scope) || (decide (w.scope = 1) && decide (w.cell / 16 = c / 16)) || decide (w.cell = c)
  | .cluster k => decide (2 ≤ w.scope) || (decide (w.scope = 1) && decide (w.cell / 16 = k))
  | .chip => decide (2 ≤ w.scope)
  | .far => decide (min 3 w.top ≤ w.scope)
  | .host => decide (min 4 w.top ≤ w.scope)

/-- The coherence-latest visible byte among not yet universal writes, oldest first, then memory (R320). -/
def readWrites (ws : List Write) (v : Viewer) (a : Nat) (base : Byte) : Byte :=
  match ws with
  | [] => base
  | w :: rest =>
    readWrites rest v a (if w.visibleTo v then (cellAt w.data a).getD base else base)

/-- One byte as a party sees it (R320, without the party's own store buffer). -/
def State.byteFor (s : State) (v : Viewer) (a : Nat) : Byte := readWrites s.writes v a (memGet s.mem a)

/-- The coherence-last byte, wherever it is visible (R323). -/
def lastWrites (ws : List Write) (a : Nat) (base : Byte) : Byte :=
  match ws with
  | [] => base
  | w :: rest => lastWrites rest a ((cellAt w.data a).getD base)

/-- The coherence-last byte of an address (R323). -/
def State.byteLast (s : State) (a : Nat) : Byte := lastWrites s.writes a (memGet s.mem a)

/-- Bytes at addresses as a party sees them. -/
def State.bytesFor (s : State) (v : Viewer) (addrs : List Nat) : List Byte := addrs.map (s.byteFor v)

/-- The little-endian number at addresses as a party sees it (R3). -/
def State.natFor (s : State) (v : Viewer) (addrs : List Nat) : Nat := bytesToNat (s.bytesFor v addrs)

/-- The number at n bytes from a, as coherence has it last. -/
def State.natLast (s : State) (a n : Nat) : Nat := bytesToNat ((span a n).map s.byteLast)

/-- The coherence-latest visible write of a byte among not yet universal ones, which is the one that a read takes (R320). -/
def readSource (ws : List Write) (v : Viewer) (a : Nat) (base : Option Nat) : Option Nat :=
  match ws with
  | [] => base
  | w :: rest => readSource rest v a (if w.visibleTo v && (cellAt w.data a).isSome then some w.id else base)

/-- The numbers of the not yet universal writes that a read of these bytes takes a byte from (R319, R320). -/
def State.sourcesFor (s : State) (v : Viewer) (addrs : List Nat) : List Nat :=
  (addrs.filterMap fun a => readSource s.writes v a none).eraseDups

/-- Widest scope of a location: chip for cell SRAM, system elsewhere (R318). -/
def topOf (a : Nat) : Nat := if isCellKey a then 2 else 4

/-- The sector of a byte. -/
def sectorOf (a : Nat) : Nat := a / 64

/-- Inserts in a strictly rising list. -/
def insertNat (l : List Nat) (n : Nat) : List Nat :=
  match l with
  | [] => [n]
  | m :: rest => if m = n then m :: rest else if n < m then n :: m :: rest else m :: insertNat rest n

/-- The quarter of a sector that holds a byte: the 16 bytes of which a 64-byte store is single-copy atomic (R133). -/
def quarterOf (a : Nat) : Nat := a / 16

/-- The four quarters of a sector. -/
def quartersOf (sector : Nat) : List Nat := span (4 * sector) 4

/-- The marks that put the poison marker into sectors, or clear them. -/
def marksOf (bad : Bool) (sectors : List Nat) : List (Nat × Bool) := sectors.flatMap fun k => (quartersOf k).map fun q => (q, bad)

/-- Marks applied to a set of poisoned quarters, oldest first. -/
def applyMarks (p : List Nat) (marks : List (Nat × Bool)) : List Nat :=
  marks.foldl (fun p m => if m.2 then insertNat p m.1 else p.filter fun q => decide (q ≠ m.1)) p

/-- What a newer write has brought to every party is dropped from older writes: its bytes and its marks. -/
def shadow (ws : List Write) (cells : List Host.Cell) (marks : List (Nat × Bool)) : List Write :=
  ws.map fun w =>
    { w with
      data := w.data.filter fun c => (cellAt cells c.1).isNone
      marks := w.marks.filter fun m => !(marks.any fun n => decide (n.1 = m.1)) }

/-- Takes every write that has reached its widest scope out of the list and into memory, oldest first; what it covers of the
older writes is dropped (R319). -/
def settleWrites (pre : List Write) (ws : List Write) (m : Memory) (p : List Nat) : List Write × Memory × List Nat :=
  match ws with
  | [] => (pre, m, p)
  | w :: rest =>
    if w.top ≤ w.scope then settleWrites (shadow pre w.data w.marks) rest (memPuts m w.data) (applyMarks p w.marks)
    else settleWrites (pre ++ [w]) rest m p

/-- Settles the writes of a state. -/
def State.settle (s : State) : State :=
  let r := settleWrites [] s.writes s.mem s.poison
  { s with writes := r.1, mem := r.2.1, poison := r.2.2 }

/-- The next unused number. -/
def State.bump (s : State) : State := { s with fresh := s.fresh + 1 }

/-- Appends a write to the coherence order (R319, R321 Drain, R323, R336). -/
def State.append (s : State) (w : Write) : State := { s with writes := s.writes ++ [w] }.settle

/-- Appends a write of bytes to the coherence order. -/
def State.addWrite (s : State) (id : Nat) (cells : List Host.Cell) (cell : Nat) (owner : Owner) (scope : Nat) : State :=
  match cells with
  | [] => s
  | c :: _ => s.append { id := id, data := cells, cell := cell, owner := owner, scope := scope, top := topOf c.1 }

/-- A write that is visible everywhere at once (device and host writes whose visibility the spec does not delay). -/
def State.addGlobal (s : State) (cells : List Host.Cell) : State :=
  { s with writes := shadow s.writes cells [], mem := memPuts s.mem cells }

/-! ### Poison (R100, R336; log 18, DEDUCED)

The poison marker is a write of the coherence order like any other (R336): it is kept for each quarter of a sector, and a
64-byte store clears the quarter that each of its four parts covers. -/

/-- Whether a quarter holds the marker among not yet universal writes, oldest first, then in memory (R320). -/
def readMarks (ws : List Write) (sees : Write → Bool) (q : Nat) (base : Bool) : Bool :=
  match ws with
  | [] => base
  | w :: rest => readMarks rest sees q (if sees w then ((w.marks.find? fun m => decide (m.1 = q)).map Prod.snd).getD base else base)

/-- Whether a quarter holds the marker as a party sees it. -/
def State.quarterBad (s : State) (v : Viewer) (q : Nat) : Bool := readMarks s.writes (·.visibleTo v) q (s.poison.contains q)

/-- Whether a sector holds the poison marker as a party sees it (R100, R320). -/
def State.poisonedFor (s : State) (v : Viewer) (sector : Nat) : Bool := (quartersOf sector).any (s.quarterBad v)

/-- Whether the coherence-last write of a sector is the poison marker (R323, R336). -/
def State.poisonedLast (s : State) (sector : Nat) : Bool :=
  (quartersOf sector).any fun q => readMarks s.writes (fun _ => true) q (s.poison.contains q)

/-- The first poisoned byte address among addresses, as the first byte of its sector. -/
def State.poisonAmong (s : State) (v : Viewer) (addrs : List Nat) : Option Nat :=
  (addrs.find? fun a => s.poisonedFor v (sectorOf a)).map fun a => sectorOf a * 64

/-- Marks that reach every party at once. -/
def State.setMarks (s : State) (marks : List (Nat × Bool)) : State :=
  { s with writes := shadow s.writes [] marks, poison := applyMarks s.poison marks }

/-- The device writes the poison marker into a sector (R100). -/
def State.addPoison (s : State) (sector : Nat) : State := s.setMarks (marksOf true [sector])

/-- The poison of a sector goes. -/
def State.clearPoison (s : State) (sector : Nat) : State := s.setMarks (marksOf false [sector])

/-- Every sector that the cells cover completely. -/
def wholeSectors (cells : List Host.Cell) : List Nat :=
  ((cells.map fun c => sectorOf c.1).eraseDups).filter fun k => (span (k * 64) 64).all fun a => (cellAt cells a).isSome

/-- A write of bytes that is visible everywhere at once and clears the poison of every sector that it covers completely (R100). -/
def State.addGlobalWhole (s : State) (cells : List Host.Cell) : State := (s.addGlobal cells).setMarks (marksOf false (wholeSectors cells))

/-- Appends a write of bytes that clears the poison of every sector that it covers completely (R100). -/
def State.addWhole (s : State) (id : Nat) (cells : List Host.Cell) (cell : Nat) (owner : Owner) (scope : Nat) : State :=
  match cells with
  | [] => s
  | c :: _ =>
    s.append { id := id, data := cells, cell := cell, owner := owner, scope := scope, top := topOf c.1, marks := marksOf false (wholeSectors cells) }

/-- Appends the poison marker of sectors to the coherence order, as one write (R171, R220, R336). -/
def State.addMarker (s : State) (id : Nat) (sectors : List Nat) (cell : Nat) (owner : Owner) (scope : Nat) : State :=
  match sectors with
  | [] => s
  | k :: _ =>
    s.append { id := id, data := [], cell := cell, owner := owner, scope := scope, top := topOf (64 * k), marks := marksOf true sectors }

/-- Every poisoned quarter once all writes made are counted, visible everywhere or not. -/
def State.flatPoison (s : State) : List Nat := s.writes.foldl (fun p w => applyMarks p w.marks) s.poison

end Sys2Proof.Machine
end

