-- ==== Sys2Proof/Machine/Signature.lean ====
section
/-! DEFINITION. CRC-32C (R78), used by the signature folds (R380) and by the payload check of counted writes (R251). -/

namespace Sys2Proof.Machine

/-- One bit of the reflected CRC. -/
def crcBit (c : BitVec 32) : BitVec 32 := if c.getLsbD 0 then (c >>> 1) ^^^ 0x82F63B78#32 else c >>> 1

/-- One byte of the reflected CRC. -/
def crcByte (c : BitVec 32) (b : Byte) : BitVec 32 :=
  crcBit (crcBit (crcBit (crcBit (crcBit (crcBit (crcBit (crcBit (c ^^^ b.setWidth 32))))))))

/-- Bytes folded into a running CRC. -/
def crcBytes (c : BitVec 32) (bs : List Byte) : BitVec 32 := bs.foldl crcByte c

/-- CRC-32C of bytes (R78). -/
def crc32c (bs : List Byte) : BitVec 32 := crcBytes 0xFFFFFFFF#32 bs ^^^ 0xFFFFFFFF#32

/-- A field code as the data-dependence signature takes it: 0xFF for a field the instruction does not use (R78). -/
def ddsCode (k : Kind) (r : Reg) : Byte := if k = .none then 0xFF#8 else r.setWidth 8

/-- Whether a word has SK: majors 0x40 to 0x47 are of format V (R23, R28). -/
def hasSk (r : Raw) : Bool := decide (0x40 ≤ r.maj.toNat) && decide (r.maj.toNat ≤ 0x47)

/-- The four bytes that the data-dependence signature covers (R78): B counts as 0xFF whenever SK = 1; a word that names no
function uses no field (log 59, DEDUCED). -/
def ddsBytes (word : BitVec 128) : List Byte :=
  let r := Raw.ofWord (cutWord word)
  match rowOf r with
  | none => [0xFF#8, 0xFF#8, 0xFF#8, 0xFF#8]
  | some w => [ddsCode w.d r.d, ddsCode w.a r.a, if hasSk r && r.sk then 0xFF#8 else ddsCode w.b r.b, ddsCode w.c r.c]

/-- Folds one instruction into the entered block, if any (R78, R380 step 2). -/
def foldOne (f : Option Fold) (addr : VAddr) (word : BitVec 128) : Option Fold :=
  f.map fun g =>
    { g with cfs := crcBytes g.cfs (natToBytes 8 addr.toNat), dds := crcBytes g.dds (ddsBytes word), begun := true }

end Sys2Proof.Machine
end

