-- ==== Sys2Proof/Machine/Ops.lean ====
section
/-! DEFINITION. Named operations over cores, contexts and the coherence order: access, retirement, taking an exception and
returning from it (R121, R122, R128, R368, R371, R377, R379). -/

namespace Sys2Proof.Machine

/-- The three outcomes of a step of this machine. -/
abbrev Out := Host.Outcome State Fault Refusal

/-! ### Access to the parts of the state -/

/-- A cell. -/
def State.cellOf (s : State) (c : Nat) : Cell := tget s.cells {} c

/-- Replaces a cell. -/
def State.setCell (s : State) (c : Nat) (x : Cell) : State := { s with cells := tset s.cells c x }

/-- The context state that a cell holds. -/
def State.ctxOf (s : State) (c : Nat) : CellCtx := (s.cellOf c).ctx

/-- Replaces the context state of a cell. -/
def State.setCtx (s : State) (c : Nat) (x : CellCtx) : State := s.setCell c { s.cellOf c with ctx := x }

/-- Applies a function to the context state of a cell. -/
def State.updCtx (s : State) (c : Nat) (f : CellCtx → CellCtx) : State := s.setCtx c (f (s.ctxOf c))

/-- A core of a cell; the supervisor core is none of them. -/
def CellCtx.core (x : CellCtx) (r : Role) : Core :=
  match r with
  | .a => x.coreA
  | .x => x.coreX
  | .c => x.coreC
  | .s => {}

/-- Replaces a core of a cell. -/
def CellCtx.setCore (x : CellCtx) (r : Role) (k : Core) : CellCtx :=
  match r with
  | .a => { x with coreA := k }
  | .x => { x with coreX := k }
  | .c => { x with coreC := k }
  | .s => x

/-- Any core of the chip: a supervisor core is listed by its cluster (R108). -/
def State.coreOf (s : State) (p : CoreRef) : Core :=
  match p.role with
  | .s => tget s.supervisors {} (p.cell / 16)
  | r => (s.ctxOf p.cell).core r

/-- Replaces a core. -/
def State.setCore (s : State) (p : CoreRef) (k : Core) : State :=
  match p.role with
  | .s => { s with supervisors := tset s.supervisors (p.cell / 16) k }
  | r => s.updCtx p.cell (·.setCore r k)

/-- Applies a function to a core. -/
def State.updCore (s : State) (p : CoreRef) (f : Core → Core) : State := s.setCore p (f (s.coreOf p))

/-- The core whose turn it is. -/
def State.me (s : State) : Core := s.coreOf s.cur.core

/-- Applies a function to the core whose turn it is. -/
def State.updMe (s : State) (f : Core → Core) : State := s.updCore s.cur.core f

/-- The cell of the core whose turn it is. -/
def State.myCell (s : State) : Nat := s.cur.core.cell

/-- The context state of the cell whose core's turn it is. -/
def State.myCtx (s : State) : CellCtx := s.ctxOf s.myCell

/-- Applies a function to the context state of the cell whose core's turn it is. -/
def State.updMyCtx (s : State) (f : CellCtx → CellCtx) : State := s.updCtx s.myCell f

/-- The CTXID resident in a cell (R107, R95). -/
def State.residentIn (s : State) (c : Nat) : Option Nat := (s.cellOf c).resident

/-- The CTXID of the core whose turn it is; 0 on a supervisor core, which belongs to none. -/
def State.myCtxId (s : State) : Nat :=
  match s.cur.core.role with
  | .s => 0
  | _ => (s.residentIn s.myCell).getD 0

/-- The descriptor of a context on this chip (R370). -/
def State.context (s : State) (id : Nat) : Option Context := s.contexts.find? fun c => decide (c.ctxid = id)

/-- Applies a function to the descriptor of a context. -/
def State.updContext (s : State) (id : Nat) (f : Context → Context) : State :=
  { s with contexts := s.contexts.map fun c => if c.ctxid = id then f c else c }

/-! ### Contexts in cells -/

/-- The switched-out part of a context in a cell. -/
def State.savedOf (s : State) (ctx cell : Nat) : Option Saved := s.saved.find? fun v => decide (v.ctxid = ctx) && decide (v.cell = cell)

/-- Applies a function to the switched-out part of a context in a cell. -/
def State.updSaved (s : State) (ctx cell : Nat) (f : Saved → Saved) : State :=
  { s with saved := s.saved.map fun v => if v.ctxid = ctx ∧ v.cell = cell then f v else v }

/-- The context state of a context in a cell, resident or switched out (R373). -/
def State.held (s : State) (ctx cell : Nat) : Option CellCtx :=
  if s.residentIn cell = some ctx then some (s.ctxOf cell) else (s.savedOf ctx cell).map (·.ctx)

/-- Applies a function to it. -/
def State.updHeld (s : State) (ctx cell : Nat) (f : CellCtx → CellCtx) : State :=
  if s.residentIn cell = some ctx then s.updCtx cell f else s.updSaved ctx cell fun v => { v with ctx := f v.ctx }

/-- The cells of a context, ascending: resident ones and switched-out ones. -/
def State.cellsWith (s : State) (ctx : Nat) : List Nat := (List.range 1024).filter fun c => (s.held ctx c).isSome

/-- A core of a context, resident or switched out. -/
def State.heldCore (s : State) (ctx : Nat) (p : CoreRef) : Core :=
  match s.held ctx p.cell with
  | some x => x.core p.role
  | none => {}

/-- Applies a function to a core of a context, resident or switched out. -/
def State.updHeldCore (s : State) (ctx : Nat) (p : CoreRef) (f : Core → Core) : State :=
  s.updHeld ctx p.cell fun x => x.setCore p.role (f (x.core p.role))

/-- The key of the network-interface state of a context in a cell (R373). -/
def niKey (ctx cell : Nat) : Nat := ctx * 1024 + cell

/-- The network-interface state of a context in a cell. -/
def State.niOf (s : State) (ctx cell : Nat) : Ni := tget s.nis {} (niKey ctx cell)

/-- Replaces the network-interface state of a context in a cell. -/
def State.setNi (s : State) (ctx cell : Nat) (n : Ni) : State := { s with nis := tset s.nis (niKey ctx cell) n }

/-- ROLE as COREID and the message header number it (R108, R345). -/
def roleCode : Role → Nat
  | .a => 0
  | .x => 1
  | .c => 2
  | .s => 3

/-- The role of a number, if it names a core of a cell. -/
def roleOf (n : Nat) : Option Role :=
  match n with
  | 0 => some .a
  | 1 => some .x
  | 2 => some .c
  | _ => none

/-- COREID (R108). -/
def State.coreId (s : State) (p : CoreRef) : Word :=
  (s.chip.setWidth 64 <<< 16) ||| BitVec.ofNat 64 (roleCode p.role * 1024 + p.cell % 1024)

/-- The logical-core number of R337. -/
def lcn (p : CoreRef) : Nat := 3 * p.cell + roleCode p.role

/-! ### Registers and the chain -/

/-- A scalar register: x0 reads as zero (R26). -/
def Core.xr (k : Core) (n : Nat) : Word := if n = 0 then 0 else tget k.x 0 n

/-- Writes a scalar register: a write to x0 is discarded (R26). -/
def Core.setX (k : Core) (n : Nat) (v : Word) : Core := if n = 0 then k else { k with x := tset k.x n v }

/-- A vector register's own contents (R144, R223). -/
def Core.vr (k : Core) (n : Nat) : Vec := tget k.v 0 n

/-- Writes a vector register's own contents. -/
def Core.setV (k : Core) (n : Nat) (v : Vec) : Core := { k with v := tset k.v n v }

/-- Whether the core is in trap mode: TM of TSTAT (R367). -/
def Core.trapMode (k : Core) : Bool := k.tstat.getLsbD 0

/-- The chain at a firing's begin, a trap entry and an unwind (R120). -/
def Core.startChain (k : Core) (h : VAddr) : Core :=
  { k with c0 := h, c1 := 0, c2 := 0, s1 := true, s2 := true, n0 := false, n1 := false, n2 := false }

/-- The chain with every entry discarded (R355, R371). -/
def Core.noChain (k : Core) : Core :=
  { k with c0 := 0, c1 := 0, c2 := 0, s1 := false, s2 := false, n0 := false, n1 := false, n2 := false }

/-- The chain moves forward (R122). -/
def Core.advance (k : Core) (taken : Bool) (target : VAddr) (annul : Bool) : Core :=
  { k with
    c0 := k.c1, n0 := k.n1 || annul
    c1 := k.c2, s1 := k.s2, n1 := k.n2 || annul
    c2 := if taken then target else 0, s2 := !taken, n2 := false }

/-- LEN of QUANT (R338). -/
def Core.quantLen (k : Core) : Nat := (k.quant.extractLsb' 0 21).toNat

/-- LAG of QUANT (R338). -/
def Core.quantLag (k : Core) : Nat := (k.quant.extractLsb' 28 4).toNat

/-- A retired instruction of a member counts toward the quantum outside trap mode (R339). -/
def Core.countQuantum (k : Core) : Core :=
  if k.member.active && !k.trapMode then
    { k with member := { k.member with count := k.member.count + 1, granted := none, behind := false } }
  else k

/-- Whether a member has counted LEN instructions in its quantum (R339). -/
def Core.atEnd (k : Core) : Bool := k.member.active && decide (k.quantLen ≠ 0) && decide (k.quantLen ≤ k.member.count)

/-- The checker folds the instruction at the head, outside trap mode (R380). -/
def Core.foldHead (k : Core) (word : BitVec 128) : Core :=
  if k.trapMode || !k.sigEn || k.sigbase = 0 then k else { k with fold := foldOne k.fold k.c0 word }

/-- The head instruction retires (R121, R122). -/
def Core.retire (k : Core) (word : BitVec 128) (taken : Bool) (target : VAddr) (annul : Bool) : Core :=
  let k1 := (k.foldHead word).countQuantum
  { k1 with retired := k1.retired + 1, fragMark := none }.advance taken target annul

/-- Retires the instruction of the core whose turn it is. -/
def State.retireWith (s : State) (taken : Bool) (target : VAddr) (annul : Bool) : State :=
  s.updMe fun k => k.retire s.cur.word taken target annul

/-- Retires an instruction that is neither a branch nor a jump. -/
def State.retire (s : State) : State := s.retireWith false 0 false

/-- The instruction waits: it has done nothing and is attempted again (R127). -/
def wait (s : State) : Out := .next s

/-- Whether a member of a deterministic group acts outside trap mode (R337, R340). -/
def State.inGroup (s : State) : Bool := s.me.member.active && !s.me.trapMode

/-- An instruction at the head waits for a collected operation before it, which only a boundary applies (R323, R339, R340; log 96,
DEDUCED). -/
def waitCollected (s : State) : Out := .next (s.updMe fun k => { k with member := { k.member with behind := true } })

/-! ### Visibility of earlier accesses (R319) -/

/-- A load tag is in use and has no late reply: its load is not performed (R259, R374). -/
def Ni.tagWaits (n : Ni) (t : Nat) : Bool := (tfind n.tags t).isSome && n.late.all fun e => decide (e.tag ≠ t)

/-- The numbers of the remote loads of an interface that are not yet performed and that a test accepts. -/
def Ni.loading (n : Ni) (sel : LoadTag → Bool) : List Nat :=
  (n.tags.filter fun t => sel t.2 && n.late.all fun e => decide (e.tag ≠ t.1)).map fun t => t.2.id

/-- The remote loads of a core that are not yet performed: an A-core's, in the interface of its cell (R259). -/
def State.remote (s : State) (p : CoreRef) (sel : LoadTag → Bool) : List Nat :=
  match p.role, s.residentIn p.cell with
  | .a, some ctx => (s.niOf ctx p.cell).loading sel
  | _, _ => []

/-- The number of a collected access: an atomic, a take, or a semaphore test. -/
def Collected.number : Collected → Option Nat
  | .amo _ _ _ _ _ _ _ _ o => some o.id
  | .take _ _ id => some id
  | .semTry _ _ _ id => some id
  | _ => none

/-- Whether a collected operation is an acquire: an atomic with ACQ, a take, or a semaphore test (R150, R323, R331). -/
def Collected.acquires : Collected → Bool
  | .amo _ _ _ _ _ _ _ _ o => o.acquire
  | .take _ _ _ => true
  | .semTry _ _ _ _ => true
  | _ => false

/-- The collected accesses of a core that a boundary has still to apply (R340). -/
def Core.collected (k : Core) : List Nat := k.member.ops.filterMap Collected.number

/-- Whether a boundary has still to apply an acquire of a core: no later access is performed before it (R323, R340; log 96, DEDUCED). -/
def Core.acquiring (k : Core) : Bool := k.member.ops.any Collected.acquires

/-- Whether every not yet universal write numbered in `ids` is visible at scope `sc` of its writer. -/
def State.writesAt (s : State) (ids : List Nat) (sc : Nat) : Bool :=
  s.writes.all fun w => !ids.contains w.id || decide (min sc w.top ≤ w.scope)

/-- The writes that the loads numbered in `ids` have read. -/
def Core.readBy (k : Core) (ids : List Nat) : List Nat := (k.seen.filter fun e => ids.contains e.1).map Prod.snd

/-- Whether the accesses `ids` of a core are visible at scope `sc`: the stores drained and their writes visible, the loads, local and
remote, performed and what they read visible, the collected ones applied (R319, R340). -/
def State.settled (s : State) (p : CoreRef) (ids : List Nat) (sc : Nat) : Bool :=
  let k := s.coreOf p
  (k.stores.all fun e => !ids.contains e.id) && (k.loads.all fun l => !ids.contains l.id) && (k.collected.all fun n => !ids.contains n) &&
    (s.nis.all fun n => (n.2.loading fun _ => true).all fun t => !ids.contains t) && s.writesAt ids sc && s.writesAt (k.readBy ids) sc

/-- The accesses of a core to memory, its remote loads and collected operations apart, that are not yet visible everywhere (R319). -/
def State.pastLocal (s : State) (p : CoreRef) : List Nat :=
  let k := s.coreOf p
  (k.stores.map (·.id)) ++ (k.loads.map (·.id)) ++ (k.seen.map Prod.fst) ++
    ((s.writes.filter fun w => decide (w.owner = .core p)).map (·.id))

/-- Every access of a core that is not yet visible everywhere (R319). -/
def State.past (s : State) (p : CoreRef) : List Nat := s.pastLocal p ++ (s.coreOf p).collected ++ s.remote p fun _ => true

/-- Whether every earlier access of the core whose turn it is is visible at a scope (R319). -/
def State.allSettled (s : State) (sc : Nat) : Bool := s.settled s.cur.core (s.past s.cur.core) sc

/-! ### Fatal faults of a context (R377) -/

/-- A fault channel record without its SEQ: bytes 0x04 to 0x3F (R376). -/
def faultRecord (kind : Nat) (chip : BitVec 12) (cause tval : Word) (detail : List Byte) : List Byte :=
  natToBytes 1 kind ++ natToBytes 1 0 ++ natToBytes 2 chip.toNat ++ natToBytes 8 cause.toNat ++ natToBytes 8 tval.toNat ++
    detail ++ List.replicate (40 - detail.length) 0

/-- The DETAIL of a KIND 3 record (R376). -/
def fatalDetail (cell role code : Nat) (pc : Word) : List Byte :=
  natToBytes 2 cell ++ natToBytes 1 role ++ natToBytes 1 0 ++ natToBytes 2 code ++ natToBytes 2 0 ++ natToBytes 8 pc.toNat

/-- Declares a fatal fault of a context: the cores stop; CONTEXT_REMOVAL does the rest (R377). The first fault stands. -/
def State.fatal (s : State) (ctx : Nat) (record : List Byte) : State :=
  s.updContext ctx fun c => { c with dying := some (c.dying.getD record) }

/-- A context whose removal has begun (R377). -/
def State.isDying (s : State) (ctx : Nat) : Bool :=
  match s.context ctx with
  | some c => c.dying.isSome
  | none => false

/-- A fatal fault on the core whose turn it is: it stops before the instruction (R377). -/
def State.fatalHere (s : State) (cause : Word) (tval : Word) (code : Nat) (pc : Word) : State :=
  (s.updMe fun k => { k with halted := true }).fatal s.myCtxId
    (faultRecord 3 s.chip cause tval (fatalDetail s.myCell (roleCode s.cur.core.role) code pc))

/-! ### Taking an exception, and returning from one -/

/-- The annul and resolution bits as TEPCN holds them (R128). -/
def Core.chainBits (k : Core) : Word :=
  BitVec.ofNat 64 (k.n0.toNat + 2 * k.n1.toNat + 4 * k.n2.toNat + 8 * k.s1.toNat + 16 * k.s2.toNat)

/-- A core that takes a trap or an interrupt leaves every waiting line (R148, R127). -/
def CellCtx.leaveLines (x : CellCtx) (r : Role) : CellCtx :=
  { x with
    semLines := x.semLines.map fun e => (e.1, e.2.filter fun w => decide (w.1 ≠ .core r))
    slotLines := x.slotLines.map fun e => (e.1, e.2.filter fun w => decide (w ≠ r)) }

/-- A core gives up its translations under way: it waits for no walk, and no answer of a failed one is kept for it (R93). -/
def State.dropFailed (s : State) (p : CoreRef) : State :=
  { s with
    failedWalks := s.failedWalks.filter fun f => decide (f.1 ≠ p)
    misses := s.misses.map fun m => { m with waiters := m.waiters.filter fun q => decide (q ≠ p) } }

/-- Whether a collected operation is a boundary wait that its instruction has not left (R340). -/
def Collected.waits : Collected → Bool
  | .semWait _ _ => true
  | .barWait _ _ => true
  | _ => false

/-- Takes a trap or an interrupt into trap mode (R128, R368): the chain is saved, the trap registers and TSTAT are set,
and the core starts at TRAPVEC. A boundary wait of a member stays collected: the member stays arrived, and the wait is retried
after ERET (R340, R342). -/
def Core.enterTrap (k : Core) (cause tval : Word) (defer : Bool) (vec : VAddr) : Core :=
  let on := k.running
  let k1 := { k with
    tepc := if on then k.c0.setWidth 64 else 0
    tepc1 := if on then k.c1.setWidth 64 else 0
    tepc2 := if on then k.c2.setWidth 64 else 0
    tepcn := if on then k.chainBits else 0
    tcause := cause, tval := tval
    tstat := BitVec.ofNat 64 (1 + 2 * defer.toNat + 4 * (k.cregh.getLsbD 0).toNat + 8 * on.toNat)
    fragMark := none }
  k1.startChain vec

/-- The trap vector of a context (R370). -/
def State.trapVec (s : State) (ctx : Nat) : VAddr :=
  match s.context ctx with
  | some c => c.trapvec.setWidth 48
  | none => 0

/-- Where the core whose turn it is begins in trap mode: TRAPVEC of its context (R370); a supervisor core at an address of its
firmware's that the spec does not give (R371; log 5, DESIGN CHOICE). -/
def State.myVec (s : State) : VAddr :=
  match s.cur.core.role with
  | .s => (Config.freeWord 0 (300 + s.myCell / 16)).setWidth 48
  | _ => s.trapVec s.myCtxId

/-- Enters trap mode on the core whose turn it is. -/
def State.enterTrap (s : State) (cause tval : Word) (defer : Bool) : State :=
  let vec := s.myVec
  (s.updMyCtx (·.leaveLines s.cur.core.role)).updMe fun k => k.enterTrap cause tval defer vec

/-- Handler address of an open region (R378). -/
def Core.regionHandler (k : Core) : VAddr := (k.cregh &&& 0xFFFFFFFFFFFC#64).setWidth 48

/-- A pending register that an unwind or a firing's begin overwrites: nothing arrives in it any more. -/
def Core.dropPending (k : Core) (regs : List Nat) : Core :=
  { k with
    pending := k.pending.filter fun p => !(regs.any fun n => decide (p.reg = .x n))
    loads := k.loads.map fun l => if regs.any fun n => decide (l.dst = some (.x n)) then { l with dst := none } else l }

/-- The unwind to the region handler (R379). -/
def Core.unwind (k : Core) (cause tval : Word) : Core :=
  let pc : Word := if k.running then k.c0.setWidth 64 else 0
  let k1 := (k.dropPending [1, 2, 3]).setX 1 cause
  let k2 := (k1.setX 2 tval).setX 3 pc
  { k2 with
    cregh := k2.cregh &&& 0xFFFFFFFFFFFFFFFE#64, fold := none, fragMark := none, running := true
    member := { k2.member with granted := none, behind := false, ops := k2.member.ops.filter fun o => !o.waits } }.startChain k.regionHandler

/-- A remote load whose register an unwind takes is cancelled (R379). -/
def Ni.cancel (n : Ni) (regs : List Nat) : Ni :=
  { n with tags := n.tags.map fun e =>
      (e.1, if regs.any fun r => decide (e.2.dst = some (.x r)) then { e.2 with cancelled := true } else e.2) }

/-- Unwinds the core whose turn it is (R379). -/
def State.unwindHere (s : State) (cause tval : Word) : State :=
  let s1 := (s.updMyCtx fun x => { x.leaveLines s.cur.core.role with grants := x.grants.filter fun g => decide (g.who ≠ .core s.cur.core.role) }).updMe fun k => k.unwind cause tval
  match s.cur.core.role with
  | .a => s1.setNi s.myCtxId s.myCell ((s1.niOf s.myCtxId s.myCell).cancel [1, 2, 3])
  | _ => s1

/-- Takes an exception on the core whose turn it is (R366 to R369, R377, R379): fatal in trap mode, and for causes 28
and 29 an unwind inside a region and fatal outside one; else trap mode. A supervisor core has no region and no context: it
enters trap mode for every cause (R34, R128, R371; log 5, DESIGN CHOICE). -/
def State.exception (s0 : State) (cause : Nat) (tval : Word) (defer : Bool) : Out :=
  let s := s0.dropFailed s0.cur.core
  let c := BitVec.ofNat 64 cause
  let k := s.me
  match s.cur.core.role with
  | .s => if k.trapMode then .fault (.supervisorTrap cause) else .next (s.enterTrap c tval defer)
  | _ =>
    if k.trapMode then .next (s.fatalHere c tval 0 (k.c0.setWidth 64))
    else if cause = 28 ∨ cause = 29 then
      if k.cregh.getLsbD 0 then .next (s.unwindHere c tval)
      else .next (s.fatalHere c tval 0 (if k.running then k.c0.setWidth 64 else 0))
    else .next (s.enterTrap c tval defer)

/-- Takes a precise trap (R34). -/
def trap (s : State) (cause : Nat) (tval : Word) : Out := s.exception cause tval false

/-- Takes an interrupt: bit 63 of TCAUSE is set (R366). -/
def State.interrupt (s : State) (code : Nat) (tval : Word) : State :=
  (s.dropFailed s.cur.core).enterTrap (0x8000000000000000#64 ||| BitVec.ofNat 64 code) tval false

/-- The chain loaded back from the trap registers (R128, R371). -/
def Core.restoreChain (k : Core) : Core :=
  { k with
    c0 := k.tepc.setWidth 48, c1 := k.tepc1.setWidth 48, c2 := k.tepc2.setWidth 48
    n0 := k.tepcn.getLsbD 0, n1 := k.tepcn.getLsbD 1, n2 := k.tepcn.getLsbD 2
    s1 := k.tepcn.getLsbD 3, s2 := k.tepcn.getLsbD 4 }

/-- The x registers with what boundaries have given meanwhile to registers that the handler of a pre-emption saved and reloads (R342;
log 97, DEDUCED). -/
def Core.lateX (k : Core) : Tbl Word := k.lateD.foldl (fun x e => if e.1 = 0 then x else tset x e.1 e.2) k.x

/-- The return from trap mode (R371): TM := 0, and the chain comes back when FIRING = 1; else the core returns to
selection. The x registers take what boundaries gave them meanwhile (R342). -/
def Core.leaveTrap (k : Core) : Core :=
  let k1 := { k with x := k.lateX, tstat := k.tstat &&& 0xFFFFFFFFFFFFFFFE#64, handling := false, lateD := [] }
  if k.tstat.getLsbD 3 then { k1.restoreChain with running := true } else { k1.noChain with running := false }

/-- Queues a deferred event of a core (R369). -/
def State.postEvent (s : State) (p : CoreRef) (cause : Nat) (tval : Word) : State :=
  s.updCore p fun k => { k with events := k.events ++ [{ cause := cause, tval := tval }] }

end Sys2Proof.Machine
end

