-- ==== Sys2Proof/Machine/Events.lean ====
section
/-! DEFINITION. The event ring to the host (R384), and the records that the device finishes in a second step (R361, R376, R384). -/

namespace Sys2Proof.Machine

/-- Entries of the event ring, 0 while the ring is not enabled with a legal size (R383, R384). -/
def Service.ringSize (v : Service) : Nat :=
  let lg := (v.evcfg.extractLsb' 0 5).toNat
  if v.evcfg.getLsbD 63 ∧ 4 ≤ lg ∧ lg ≤ 16 then 2 ^ lg else 0

/-- Records written and not yet consumed (R384). -/
def Service.ringUsed (v : Service) : Nat := (v.evtail - v.evhead).toNat

/-- The bytes of an event record (R384). -/
def eventBytes (seq : BitVec 32) (e : HostEvent) : List Byte :=
  natToBytes 4 seq.toNat ++ natToBytes 1 e.kind ++ List.replicate 3 0 ++
    natToBytes 8 e.arg0.toNat ++ natToBytes 8 e.arg1.toNat ++ natToBytes 8 e.arg2.toNat

/-- Event records written whose EVTAIL step is still to come (R384). -/
def State.tailsDue (s : State) : Nat := (s.trailing.filter fun t => decide (t = .tail)).length

/-- The second part of the oldest record under way: the byte or number that is written last, or EVTAIL and the interrupt that follow
a record of the event ring (R361, R376, R384). -/
def State.land (s : State) : State :=
  match s.trailing with
  | [] => s
  | t :: rest =>
    let s1 := { s with trailing := rest }
    match t with
    | .bytes cells => s1.addGlobal cells
    | .record cells _ => s1.addGlobal cells
    | .tail => { s1 with service := { s1.service with evtail := s1.service.evtail + 1, msix := s1.service.msix + 1 } }

/-- The second part lands at a step of the device's choosing (log 83, DESIGN CHOICE). -/
def State.landNow (s : State) : State :=
  match s.trailing with
  | [] => s
  | _ :: _ => if Config.lands s.tick then s.land else s

/-- Writes the held events that the ring has room for, in order: bytes 0x04 to 0x1F, then SEQ, then EVTAIL with MSI-X vector 0
(R384). -/
def State.flushEvents (s : State) (fuel : Nat) : State :=
  match fuel with
  | 0 => s
  | n + 1 =>
    match s.service.heldEvents with
    | [] => s
    | e :: rest =>
      let size := s.service.ringSize
      if size ≤ s.service.ringUsed + s.tailsDue then s
      else
        let last := s.service.evtail + BitVec.ofNat 32 s.tailsDue
        let addr := physKey 2 (s.service.evbase.toNat + 32 * (last.toNat % size))
        let cells := cellsFrom addr (eventBytes (last + 1) e)
        let s1 := s.addGlobal (cells.drop 4)
        { s1 with trailing := s1.trailing ++ [Second.bytes (cells.take 4), Second.tail], service := { s1.service with heldEvents := rest } }.flushEvents n

/-- Reports an event to the host; held in order while the ring is full (R384). -/
def State.report (s : State) (kind : Nat) (arg0 arg1 arg2 : Word) : State :=
  let e : HostEvent := { kind := kind, arg0 := arg0, arg1 := arg1, arg2 := arg2 }
  let held := s.service.heldEvents ++ [e]
  { s with service := { s.service with heldEvents := held } }.flushEvents held.length

end Sys2Proof.Machine
end

