-- ==== Sys2Proof/Machine/Translate.lean ====
section
/-! DEFINITION. The virtual map (R81, R82), page table entries and walks (R89 to R91), translation caches (R93), and the
window check of remote scratchpad accesses (R94, R95). -/

namespace Sys2Proof.Machine

/-- What an access does (R91, R95). -/
inductive AccKind where
  | load | store | atomic | fetch
  deriving DecidableEq, Repr

/-- The range of the virtual map that holds an address (R81). -/
inductive Region where
  | spad
  | hole
  | control
  /-- the remote window: cell and offset in it -/
  | remote (cell off : Nat)
  | translated
  deriving DecidableEq, Repr

/-- The virtual map (R81). -/
def regionOf (ea : Nat) : Region :=
  if ea < 0x60000 then .spad
  else if ea < 0x100000 then .hole
  else if ea < 0x110000 then .control
  else if ea < 0x100000000 then .hole
  else if ea < 0x140000000 then .remote ((ea - 0x100000000) / 0x100000) ((ea - 0x100000000) % 0x100000)
  else if ea < 0x1000000000 then .hole
  else .translated

/-- The cause of a hole, a refused range or a missing right (R82, R91). -/
def AccKind.faultCause : AccKind → Nat
  | .load => 5
  | .store => 7
  | .atomic => 7
  | .fetch => 1

/-- The cause of a failed translation (R91). -/
def AccKind.pageCause : AccKind → Nat
  | .load => 13
  | .store => 15
  | .atomic => 15
  | .fetch => 12

/-- The cause of a misaligned address (R130). -/
def AccKind.alignCause : AccKind → Nat
  | .load => 4
  | .store => 6
  | .atomic => 6
  | .fetch => 0

/-! ### Units that are fenced (R14, R15, R87) -/

/-- Whether a unit is fenced, by class and index (R384 KIND 1). -/
def State.unitOut (s : State) (cls idx : Nat) : Bool := s.service.fenced.contains (cls, idx)

/-- Whether a cell is out of service. -/
def State.cellOut (s : State) (cell : Nat) : Bool := (s.cellOf cell).fenced || s.unitOut 0 cell || s.unitOut 1 (cell / 16)

/-- Whether the memory that holds a key is switched off: a fenced DRAM stack, vault or cell (R15, R86, R87). -/
def State.keyOut (s : State) (key : Nat) : Bool :=
  if key / 2 ^ 52 = 0 then s.unitOut 3 (key / 2 ^ 37)
  else if key / 2 ^ 52 = 1 then s.unitOut 2 (key % 2 ^ 52 / 2 ^ 27)
  else isCellKey key && s.cellOut (keyCell key)

/-! ### Page table entries (R90, R91) -/

/-- V of an entry. -/
def pteV (e : Word) : Bool := e.getLsbD 0

/-- RD of an entry. -/
def pteRD (e : Word) : Bool := e.getLsbD 1

/-- WR of an entry. -/
def pteWR (e : Word) : Bool := e.getLsbD 2

/-- X of an entry. -/
def pteX (e : Word) : Bool := e.getLsbD 3

/-- C of an entry. -/
def pteC (e : Word) : Bool := e.getLsbD 7

/-- D of an entry. -/
def pteD (e : Word) : Bool := e.getLsbD 8

/-- O of an entry. -/
def pteO (e : Word) : Bool := e.getLsbD 9

/-- SPC of an entry. -/
def pteSpc (e : Word) : Nat := (e.extractLsb' 56 2).toNat

/-- The byte address PA[51:12] × 4096 of an entry. -/
def ptePa (e : Word) : Nat := (e.extractLsb' 12 40).toNat * 4096

/-- Whether a valid entry is a leaf (R90). -/
def pteLeaf (e : Word) : Bool := pteRD e || pteWR e || pteX e

/-- Bytes of the page of a leaf at a level (R89). -/
def pageSize (level : Nat) : Nat := 2 ^ (12 + 9 * (4 - level))

/-- Bytes of a physical space (R86). -/
def spaceSize (spc : Nat) : Nat :=
  match spc with
  | 0 => 2 ^ 40
  | 1 => 2 ^ 33
  | 2 => 2 ^ 52
  | _ => 0

/-- The malformed entries of R91 at a level; level 0 is the root pointer, which points to the table of level 1. -/
def pteMalformed (e : Word) (level : Nat) : Bool :=
  let size := if pteLeaf e then pageSize level else 4096
  decide (e &&& 0xFCF0000000000C70#64 ≠ 0) || decide (pteSpc e = 3) ||
    decide (spaceSize (pteSpc e) < ptePa e + size) ||
    (if pteLeaf e then
      decide (level ≤ 1) || (pteWR e && !pteRD e) || decide (ptePa e % size ≠ 0) ||
        (decide (pteSpc e = 2) && (pteO e || pteD e))
    else
      pteO e || pteD e || pteC e || decide (level = 4) || decide (pteSpc e = 2))

/-- The answer of a walk. -/
inductive Walk where
  | leaf (e : Word) (level : Nat)
  | fail
  deriving DecidableEq, Repr

/-- Table index of a virtual address at a level (R89). -/
def tableIndex (va level : Nat) : Nat := va / 2 ^ (12 + 9 * (4 - level)) % 512

/-- One 8-byte read of a walker on a cluster; a poisoned sector reads as an invalid entry (log 24, DEDUCED), and so does memory that
is switched off (log 79, DESIGN CHOICE). -/
def State.walkRead (s : State) (cluster key : Nat) : Word :=
  if s.poisonedFor (.cluster cluster) (sectorOf key) || s.keyOut key then 0 else BitVec.ofNat 64 (s.natFor (.cluster cluster) (span key 8))

/-- Walks down from an entry met at `level`; the fuel is the number of levels left (R89 to R91). -/
def walkDown (read : Nat → Word) (va : Nat) (fuel level : Nat) (e : Word) : Walk :=
  if !pteV e || pteMalformed e level then .fail
  else if pteLeaf e then .leaf e level
  else
    match fuel with
    | 0 => .fail
    | n + 1 =>
      walkDown read va n (level + 1) (read (physKey (pteSpc e) (ptePa e + 8 * tableIndex va (level + 1))))

/-- A page walk for a context on a cluster. -/
def State.walk (s : State) (cluster ctx va : Nat) : Walk :=
  match s.context ctx with
  | none => .fail
  | some c => walkDown (s.walkRead cluster) va 4 0 c.root

/-- The key of the byte that a leaf translates a virtual address to. -/
def leafKey (e : Word) (level va : Nat) : Nat := physKey (pteSpc e) (ptePa e + va % pageSize level)

/-- The key of the first byte of a leaf page, which names its ownership record (R329). -/
def leafPage (e : Word) : Nat := physKey (pteSpc e) (ptePa e)

/-- The cached translation of an address for a context on a cluster (R93; log 73, DESIGN CHOICE). -/
def State.cached (s : State) (cluster ctx va : Nat) : Option TlbEntry :=
  s.tlb.find? fun t => decide (t.cluster = cluster) && decide (t.ctx = ctx) && decide (t.page = va / 4096)

/-- Whether a leaf grants an access (R91). -/
def leafGrants (e : Word) (k : AccKind) : Bool :=
  match k with
  | .load => pteRD e
  | .store => pteWR e
  | .atomic => pteWR e
  | .fetch => pteX e

/-- What a core's translation request finds. -/
inductive Trans where
  | leaf (e : Word) (level : Nat)
  /-- not cached and not known to fail: a walk is needed -/
  | miss
  | fail
  deriving DecidableEq, Repr

/-- A translation as a core meets it (R93): the caches, then the answer of a walk that failed. -/
def State.transFor (s : State) (p : CoreRef) (ctx va : Nat) : Trans :=
  match s.cached (p.cell / 16) ctx va with
  | some t => .leaf t.leaf t.level
  | none => if s.failedWalks.contains (p, ctx, va / 4096) then .fail else .miss

/-- Whether a leaf lets an access of a kind reach an address: the right (R91), and memory in service: the range of a fenced stack or
vault is gone, and the access takes the cause of a range that does not exist (R15, R87; log 79, DESIGN CHOICE). -/
def State.reaches (s : State) (e : Word) (level va : Nat) (k : AccKind) : Bool := leafGrants e k && !s.keyOut (leafKey e level va)

/-- A party joins the walk of a page on a cluster, or starts one; in host-assisted mode the miss raises KIND 6 with the virtual
address (R93, R384, R389). -/
def State.requestWalkOn (s : State) (cluster : Nat) (p : Party) (ctx va : Nat) : State :=
  let same (m : Miss) : Bool := decide (m.cluster = cluster) && decide (m.ctx = ctx) && decide (m.page = va / 4096)
  if s.misses.any same then
    { s with misses := s.misses.map fun m => if same m && !m.waiters.contains p then { m with waiters := m.waiters ++ [p] } else m }
  else
    let assisted := s.service.assisted.contains 0
    let m : Miss := { cluster := cluster, ctx := ctx, page := va / 4096, waiters := [p], assisted := assisted }
    let s1 := { s with misses := s.misses ++ [m] }
    if assisted then s1.report 6 (BitVec.ofNat 64 ctx) (BitVec.ofNat 64 va) (BitVec.ofNat 64 cluster) else s1

/-- A core joins the walk of a page on its cluster, or starts one. -/
def State.requestWalk (s : State) (p : CoreRef) (ctx va : Nat) : State := s.requestWalkOn (p.cell / 16) p ctx va

/-- The device's own accesses on a cluster as a party that waits for walks. -/
def deviceParty (cluster : Nat) : Party := ⟨16 * cluster + 2, .s⟩

/-- A translation made by the device itself (a record, an image, a group table): caches first, then the answer of a walk that failed, then
a walk in the same step (log 12, DEDUCED). -/
def State.deviceWalk (s : State) (cluster ctx va : Nat) : Walk :=
  match s.cached cluster ctx va with
  | some t => .leaf t.leaf t.level
  | none => if s.failedWalks.contains (deviceParty cluster, ctx, va / 4096) then .fail else s.walk cluster ctx va

/-- What a step of the device that reaches these addresses waits for in host-assisted mode: the first page that is not cached and not known to
fail raises KIND 6; a walk that has begun so is waited for in hardware mode too (R389; log 12, DEDUCED). -/
def State.assistWait (s : State) (cluster ctx : Nat) (vas : List Nat) : Option State :=
  let p := deviceParty cluster
  let begun (va : Nat) : Bool := s.misses.any fun m => decide (m.cluster = cluster) && decide (m.ctx = ctx) && decide (m.page = va / 4096) && m.waiters.contains p
  let waits (va : Nat) : Bool :=
    decide (regionOf va = .translated) && (s.cached cluster ctx va).isNone && !s.failedWalks.contains (p, ctx, va / 4096) &&
      (s.service.assisted.contains 0 || begun va)
  (vas.find? waits).map fun va => s.requestWalkOn cluster p ctx va

/-- The device has met the answers of failed walks of its own accesses for a context (R93). -/
def State.deviceForget (s : State) (cluster ctx : Nat) : State :=
  { s with failedWalks := s.failedWalks.filter fun f => !(decide (f.1 = deviceParty cluster) && decide (f.2.1 = ctx)) }

/-- The keys that the device reaches for bytes of a translated range, or the cause and the first address that failed
(R91). -/
def State.deviceKeys (s : State) (cluster ctx : Nat) (kind : AccKind) (vas : List Nat) : Except (Nat × Nat) (List Nat) :=
  vas.foldr (fun va acc =>
    match (if regionOf va = .translated then s.deviceWalk cluster ctx va else .fail) with
    | .fail => .error (if regionOf va = .translated then kind.pageCause else kind.faultCause, va)
    | .leaf e l =>
      if s.reaches e l va kind then
        match acc with
        | .error x => .error x
        | .ok ks => .ok (leafKey e l va :: ks)
      else .error (kind.faultCause, va)) (.ok [])

/-! ### Windows (R94, R95) -/

/-- Whether one window register covers offsets `off` to `off + size − 1` (R94). -/
def windowCovers (w : Word) (off size : Nat) : Bool :=
  let base := (w.extractLsb' 0 13).toNat
  let len := (w.extractLsb' 32 13).toNat
  decide (64 * base ≤ off) && decide (off + size ≤ min (64 * (base + len)) spadSize)

/-- Whether one window register grants an access (R95). -/
def windowGrants (w : Word) (off size : Nat) (kind : AccKind) (ownChip : Bool) : Bool :=
  w.getLsbD 63 && windowCovers w off size &&
    (match kind with
      | .load => w.getLsbD 59
      | .store => w.getLsbD 60
      | .atomic => w.getLsbD 60 && w.getLsbD 61
      | .fetch => false) &&
    (ownChip || w.getLsbD 62)

/-- The window check at the target cell (R95); a fenced cell's memories are gone (R15). -/
def State.granted (s : State) (cell ctx off size : Nat) (kind : AccKind) (ownChip : Bool) : Bool :=
  !s.cellOut cell && decide (s.residentIn cell = some ctx) &&
    (List.range 8).any fun w => windowGrants (tget (s.ctxOf cell).windows 0 w) off size kind ownChip

end Sys2Proof.Machine
end

