-- ==== Sys2Proof/Machine/Operands.lean ====
section
/-! DEFINITION. Operand forms: scalar register fields and queue codes (R26, R27, R137 to R139), and registers that wait for a
reply (R259, R321, R340). -/

namespace Sys2Proof.Machine

/-- Whether a field code names a queue (R26). -/
def isQueue (r : Reg) : Bool := decide (32 ≤ r.toNat)

/-- The core that pushes a queue (R137). -/
def queuePusher (q : Nat) : Role :=
  match q with
  | 0 => .a
  | 1 => .a
  | 2 => .c
  | 3 => .a
  | 4 => .x
  | 5 => .x
  | _ => .c

/-- The core that pops a queue (R137). -/
def queuePopper (q : Nat) : Role :=
  match q with
  | 0 => .c
  | 1 => .c
  | 2 => .a
  | 3 => .x
  | 4 => .a
  | 5 => .c
  | _ => .x

/-- The queue number of a queue code (R137). -/
def queueOf (r : Reg) : Nat := r.toNat - 32

/-- A source field whose queue end this core is not (R137). -/
def badSource (role : Role) (r : Reg) : Bool := isQueue r && decide (queuePopper (queueOf r) ≠ role)

/-- A destination field whose queue end this core is not (R137). -/
def badDest (role : Role) (r : Reg) : Bool := isQueue r && decide (queuePusher (queueOf r) ≠ role)

/-- Check 12: the first field, sources in pop order and the destination last, that names a queue whose end this core is
not (R27, R137). -/
def badQueue (role : Role) (srcs : List Reg) (dst : Option Reg) : Option Reg :=
  match srcs.find? (badSource role) with
  | some r => some r
  | none =>
    match dst with
    | some d => if badDest role d then some d else none
    | none => none

/-- The entries of a queue of the own cell. -/
def State.queue (s : State) (q : Nat) : List QEntry := tget s.myCtx.queues [] q

/-- Occurrences of a field code. -/
def countCode (rs : List Reg) (r : Reg) : Nat := (rs.filter fun r' => decide (r' = r)).length

/-- Whether the first n entries of a queue are there and may be popped: what their pusher accessed before is visible at
cell scope (R138, R139). -/
def State.poppable (s : State) (q n : Nat) : Bool :=
  let es := s.queue q
  decide (n ≤ es.length) && (es.take n).all fun e => s.settled ⟨s.myCell, queuePusher q⟩ e.after 0

/-- Whether an x register waits for a reply, a load or a boundary. Reading what a remote load will write does not wait in
trap mode (R368). A register that waits for a boundary does not wait in the context switch handler: its D value belongs to
the context and is saved with it, and the boundary comes only once the group has arrived (R342; log 97, DEDUCED). -/
def Core.waitsFor (k : Core) (r : Reg) (reading : Bool) : Bool :=
  k.pending.any fun p => decide (p.reg = .x r.toNat) &&
    !(match p.source with
      | .tag _ => reading && k.trapMode
      | .boundary => k.trapMode && k.handling
      | _ => false)

/-- Whether every scalar field is ready: registers not pending, entries to pop, room to push (R27, R138, R259). -/
def State.scalarReady (s : State) (srcs : List Reg) (dst : Option Reg) : Bool :=
  (srcs.all fun r => if isQueue r then s.poppable (queueOf r) (countCode srcs r) else !s.me.waitsFor r true) &&
    (match dst with
      | none => true
      | some d => (!isQueue d || decide ((s.queue (queueOf d)).length < 8)) && !s.me.waitsFor d false)

/-- What stops an instruction at its scalar fields: a queue protocol error (check 12), or a wait. -/
def State.blocked (s : State) (srcs : List Reg) (dst : Option Reg) : Option Out :=
  match badQueue s.cur.core.role srcs dst with
  | some r => some (trap s 35 (r.setWidth 64))
  | none => if s.scalarReady srcs dst then none else some (wait s)

/-- The value read through a source field; `prev` are the fields before it, each of which pops its own entry (R27). -/
def State.sval (s : State) (prev : List Reg) (r : Reg) : Word :=
  if isQueue r then
    match (s.queue (queueOf r)).drop (countCode prev r) with
    | e :: _ => e.value
    | [] => 0
  else s.me.xr r.toNat

/-- Pops one entry for every queue code among the sources (R27). -/
def State.popAll (s : State) (srcs : List Reg) : State :=
  srcs.foldl (fun s r =>
    if isQueue r then s.updMyCtx fun x => { x with queues := tupd x.queues [] (queueOf r) (·.drop 1) } else s) s

/-- Writes a result through D: a register, or a push whose entry may be popped once the core's earlier accesses are
visible at cell scope (R26, R27, R139). -/
def State.writeD (s : State) (d : Reg) (v : Word) : State :=
  if isQueue d then
    let e : QEntry := { value := v, after := s.past s.cur.core }
    s.updMyCtx fun x => { x with queues := tupd x.queues [] (queueOf d) (· ++ [e]) }
  else s.updMe fun k => k.setX d.toNat v

/-- Pops the sources, writes the result and retires (R27). -/
def State.finish (s : State) (srcs : List Reg) (d : Reg) (v : Word) : State := ((s.popAll srcs).writeD d v).retire

/-- Pops the sources and retires without a result. -/
def State.finishNone (s : State) (srcs : List Reg) : State := (s.popAll srcs).retire

/-- An instruction of one scalar source and one result. -/
def alu1 (s : State) (d a : Reg) (f : Word → Word) : Out :=
  match s.blocked [a] (some d) with
  | some o => o
  | none => .next (s.finish [a] d (f (s.sval [] a)))

/-- An instruction of two scalar sources and one result. -/
def alu2 (s : State) (d a b : Reg) (f : Word → Word → Word) : Out :=
  match s.blocked [a, b] (some d) with
  | some o => o
  | none => .next (s.finish [a, b] d (f (s.sval [] a) (s.sval [a] b)))

/-- An instruction of three scalar sources and one result. -/
def alu3 (s : State) (d a b c : Reg) (f : Word → Word → Word → Word) : Out :=
  match s.blocked [a, b, c] (some d) with
  | some o => o
  | none => .next (s.finish [a, b, c] d (f (s.sval [] a) (s.sval [a] b) (s.sval [a, b] c)))

/-- An instruction without a source that writes a result. -/
def alu0 (s : State) (d : Reg) (v : Word) : Out :=
  match s.blocked [] (some d) with
  | some o => o
  | none => .next (s.finish [] d v)

end Sys2Proof.Machine
end

