-- ==== Sys2Proof/Machine/Flags.lean ====
section
/-! DEFINITION. FCSR, rounding modes and the control registers (R106 to R108, R191 to R197, R338). -/

namespace Sys2Proof.Machine

/-- The bits of FCSR that hold something: DMODE and the five flags (R191). -/
def fcsrMask : Word := 0xF1F00#64

/-- Flag bits in the order of FLAGOR: NV, DZ, OF, UF, NX (R197). -/
abbrev Flags := BitVec 5

/-- NV. -/
def flagNV : Flags := 1#5
/-- DZ. -/
def flagDZ : Flags := 2#5
/-- OF. -/
def flagOF : Flags := 4#5
/-- UF. -/
def flagUF : Flags := 8#5
/-- NX. -/
def flagNX : Flags := 16#5

/-- The flags that FCSR holds. -/
def Core.flags (k : Core) : Flags := k.fcsr.extractLsb' 8 5

/-- Sets sticky flags; hardware never clears one (R196). A flag newly set ends what FLAGOR may show of a value before it (R197). -/
def Core.raise (k : Core) (f : Flags) : Core :=
  { k with fcsr := k.fcsr ||| (f.setWidth 64 <<< 8), stale := if k.flags ||| f = k.flags then k.stale else none }

/-- Writes FCSR (R191). FLAGOR may show the flags that it held before shortly afterwards where the write clears one of them (R197). -/
def Core.writeFcsr (k : Core) (v : Word) : Core :=
  let k1 := { k with fcsr := v }
  { k1 with stale := if k.flags &&& ~~~k1.flags ≠ 0 then some k.flags else if k1.flags = k.flags then k.stale else none }

/-- The six rounding modes (R21, R191). -/
inductive RMode where
  | rne | rtz | rup | rdn | rna | sr
  deriving DecidableEq, Repr

/-- A mode code of RM or DMODE; none for a reserved one (R191). -/
def modeOfCode (n : Nat) : Option RMode :=
  match n with
  | 0 => some .rne
  | 1 => some .rne
  | 2 => some .rtz
  | 3 => some .rup
  | 4 => some .rdn
  | 5 => some .rna
  | 6 => some .sr
  | _ => none

/-- The mode of an instruction that rounds (R192, R193): RM, or DMODE when RM is 0; DMODE = SR gives SR to a narrowing
conversion and RNE to every other rounding. None where DMODE is reserved. -/
def Core.mode (k : Core) (rm : BitVec 3) (narrowing : Bool) : Option RMode :=
  if rm = 0#3 then
    match modeOfCode (k.fcsr.extractLsb' 16 4).toNat with
    | some .sr => some (if narrowing then .sr else .rne)
    | m => m
  else modeOfCode rm.toNat

/-! ### Control registers -/

/-- Who may read and write a control register (R107). -/
inductive CsrAccess where
  | rw | ro | rt | tr | sv
  deriving DecidableEq, Repr

/-- The map of R107; none for an unassigned number. -/
def csrAccess (n : Nat) : Option CsrAccess :=
  match n with
  | 0x001 => some .rw
  | 0x002 => some .rw
  | 0x003 => some .rw
  | 0x010 => some .ro
  | 0x011 => some .rt
  | 0x012 => some .rt
  | 0x013 => some .ro
  | 0x020 => some .ro
  | 0x021 => some .ro
  | 0x022 => some .ro
  | 0x040 => some .tr
  | 0x041 => some .tr
  | 0x042 => some .tr
  | 0x043 => some .tr
  | 0x044 => some .tr
  | 0x045 => some .tr
  | 0x046 => some .tr
  | 0x080 => some .sv
  | _ => none

/-- Whether a core may access a control register (R106, R107): RW by a core of a context, RO by any core, RT written only
in trap mode, TR in trap mode only, SV read by the supervisor core. Every core holds the trap registers (R103). -/
def csrPermitted (a : CsrAccess) (role : Role) (trapMode writes : Bool) : Bool :=
  match a with
  | .rw => decide (role ≠ .s)
  | .ro => !writes
  | .rt => !writes || trapMode
  | .tr => trapMode
  | .sv => decide (role = .s) && !writes

/-- What a read of FLAGOR returns for a core: its flags as they stand, or those that a write of FCSR has just changed (R197; log 25,
DEDUCED). -/
def Core.sampled (k : Core) (late : Bool) : Flags :=
  match k.stale with
  | some f => if late then f else k.flags
  | none => k.flags

/-- FLAGOR of a cluster: a cell without a resident context, or fenced, contributes zeros; CORES at bits [55:8], the OR of the flags
at bits [4:0] (R197). Which cores' cleared flags still appear is free (log 25, DEDUCED). -/
def State.flagor (s : State) (cluster : Nat) : Word :=
  (List.range 48).foldl (fun acc i =>
    let cell := cluster * 16 + i / 3
    let c := s.cellOf cell
    if c.resident.isNone || s.cellOut cell then acc
    else
      let f := (c.ctx.core ((roleOf (i % 3)).getD .a)).sampled ((Config.freeWord s.tick (400 + i)).getLsbD 0)
      if f = 0 then acc else acc ||| f.setWidth 64 ||| (1#64 <<< (8 + i))) 0

/-- Reads a control register (R107). -/
def State.csrRead (s : State) (n : Nat) : Word :=
  let k := s.me
  match n with
  | 0x001 => k.fcsr
  | 0x002 => k.srseed
  | 0x003 => k.srcnt
  | 0x010 => BitVec.ofNat 64 s.myCtxId
  | 0x011 => k.quant
  | 0x012 => k.sigbase
  | 0x013 => k.cregh
  | 0x020 => s.coreId s.cur.core
  | 0x021 => BitVec.ofNat 64 s.now
  | 0x022 => k.retired
  | 0x040 => k.tcause
  | 0x041 => k.tval
  | 0x042 => k.tepc
  | 0x043 => k.tepc1
  | 0x044 => k.tepc2
  | 0x045 => k.tepcn
  | 0x046 => k.tstat
  | 0x080 => s.flagor (s.myCell / 16)
  | _ => 0

/-- Bits [47:0] of a saved chain entry (R107). -/
def mask48 (v : Word) : Word := v &&& 0xFFFFFFFFFFFF#64

/-- Writes a control register: reserved bits are ignored, and TM of TSTAT does not change (R107, R128, R191, R367). -/
def Core.csrWrite (k : Core) (n : Nat) (v : Word) : Core :=
  match n with
  | 0x001 => k.writeFcsr (v &&& fcsrMask)
  | 0x002 => { k with srseed := v }
  | 0x003 => { k with srcnt := v }
  | 0x011 => { k with quant := v }
  | 0x012 => { k with sigbase := v }
  | 0x040 => { k with tcause := v }
  | 0x041 => { k with tval := v }
  | 0x042 => { k with tepc := mask48 v }
  | 0x043 => { k with tepc1 := mask48 v }
  | 0x044 => { k with tepc2 := mask48 v }
  | 0x045 => { k with tepcn := v &&& 0x1F#64 }
  | 0x046 => { k with tstat := (v &&& 0x1E#64) ||| (k.tstat &&& 1#64) }
  | _ => k

/-- A legal value of QUANT (R338). -/
def quantOk (v : Word) : Bool :=
  let len := (v.extractLsb' 0 21).toNat
  decide (v &&& 0xFFFFFFFF0FE00000#64 = 0) &&
    (decide (len = 0) || (decide (4096 ≤ len) && decide (len ≤ 1048576) && decide (v.extractLsb' 28 4 ≠ 0)))

end Sys2Proof.Machine
end

