-- ==== Sys2Proof/Machine/Ports.lean ====
section
/-! DEFINITION. Vector operands: v0 to v31, stream ports (R141 to R145) and accumulator fragments (R219, R224, R225). -/

namespace Sys2Proof.Machine

/-- Elements of a stream (R142). -/
def Stream.total (t : Stream) : Nat := t.cnt0 * t.cnt1

/-- The address e(j) of element j, in unbounded arithmetic (R143). -/
def Stream.elem (t : Stream) (j : Nat) : Int :=
  (t.base.toNat : Int) + 64 * (((j / t.cnt0 : Nat) : Int) * t.stride1 + ((j % t.cnt0 : Nat) : Int) * t.stride0)

/-- Whether a stream is bound to a core (R141, R142). -/
def Stream.boundTo (t : Stream) (role : Role) : Bool :=
  decide (t.mode ≠ 0) && (if t.coreC then decide (role = .c) else decide (role = .x))

/-- A stream of the own cell. -/
def State.stream (s : State) (k : Nat) : Stream := tget s.myCtx.streams {} k

/-- Applies a function to a stream of the own cell. -/
def State.updStream (s : State) (k : Nat) (f : Stream → Stream) : State :=
  s.updMyCtx fun x => { x with streams := tupd x.streams {} k f }

/-- Whether a vector register of the core is a stream port now (R144). -/
def State.isPort (s : State) (n : Nat) : Bool := decide (n < 4) && (s.stream n).boundTo s.cur.core.role

/-- Occurrences of a register number. -/
def countNat (ns : List Nat) (n : Nat) : Nat := (ns.filter fun m => decide (m = n)).length

/-- Whether naming a port so traps with cause 33 (R144): a write of an IN stream, a read of an OUT stream, a DONE
stream, or more appearances than elements still to pass. -/
def Stream.misused (t : Stream) (reads writes : Nat) : Bool :=
  (if t.out then decide (0 < reads) else decide (0 < writes)) || decide (t.mode = 2) ||
    decide (t.total - t.passed < reads + writes)

/-- The first port, in the field order A, B, C, D, whose use traps (R144, R225). -/
def State.portTrap (s : State) (vs : List Nat) (vd : Option Nat) : Option Nat :=
  let names := match vd with
    | none => vs
    | some d => vs ++ [d]
  names.find? fun n => s.isPort n && (s.stream n).misused (countNat vs n) (if vd = some n then 1 else 0)

/-- Whether a vector register waits for a load. -/
def Core.waitsForV (k : Core) (n : Nat) : Bool := k.pending.any fun p => decide (p.reg = .v n)

/-- Whether every vector field is ready: ports with elements or room, registers not pending (R144). -/
def State.vectorReady (s : State) (vs : List Nat) (vd : Option Nat) : Bool :=
  (vs.all fun n => if s.isPort n then decide (countNat vs n ≤ (s.stream n).port.length) else !s.me.waitsForV n) &&
    (match vd with
      | none => true
      | some d => if s.isPort d then decide ((s.stream d).port.length < 4) else !s.me.waitsForV d)

/-- The element that an appearance of a port takes; none when it is marked poisoned (R145). -/
def State.portElem (s : State) (prev : List Nat) (n : Nat) : Option Vec :=
  match (s.stream n).port.drop (countNat prev n) with
  | e :: _ => e
  | [] => some 0

/-- The value read through a vector source; `prev` are the vector sources before it (R144). -/
def State.vval (s : State) (prev : List Nat) (n : Nat) : Vec :=
  if s.isPort n then (s.portElem prev n).getD 0 else s.me.vr n

/-- The scratchpad address of the first poisoned element that the sources would pop, in field order (R145, R225). -/
def State.poisonedPort (s : State) (prev : List Nat) (vs : List Nat) : Option Word :=
  match vs with
  | [] => none
  | n :: rest =>
    if s.isPort n && (s.portElem prev n).isNone then
      some (BitVec.ofInt 64 ((s.stream n).elem ((s.stream n).passed + countNat prev n)))
    else s.poisonedPort (prev ++ [n]) rest

/-- One element passes through a port; after the last the stream is DONE (R143). -/
def Stream.pass (t : Stream) : Stream :=
  { t with passed := t.passed + 1, mode := if t.total ≤ t.passed + 1 then 2 else t.mode }

/-- Pops one element for each appearance of a port among the sources (R144). -/
def State.popPorts (s : State) (vs : List Nat) : State :=
  let names := vs.filter s.isPort
  names.foldl (fun s n => s.updStream n fun t => { t with port := t.port.drop 1 }.pass) s

/-- The launch that the running firing belongs to (R351, R360). -/
def State.myLid (s : State) : Nat :=
  match s.me.firing with
  | some f => f.lid
  | none => 0

/-- Writes a vector result: a push where the register is a port, else the register itself (R144). -/
def State.writeV (s : State) (d : Nat) (v : Vec) : State :=
  if s.isPort d then s.updStream d fun t => { t with port := t.port ++ [some v], lids := t.lids ++ [s.myLid] }.pass
  else s.updMe fun k => k.setV d v

/-! ### Fragments -/

/-- Keys of row R of tile T (R159, R201, R224). -/
def fragKeys (cell tile row : Nat) : List Nat := span (cellKey cell (accumBase + 1024 * tile + 64 * row)) 64

/-- Whether MDONE has reached L in serial-number order (R219). -/
def Matrix.reached (m : Matrix) (l : BitVec 32) : Bool := decide ((m.done - l).toNat < 2 ^ 31)

/-- L of the fragment read of the core whose turn it is: LASTW as its instruction reached the head (R219). -/
def State.fragL (s : State) (tile : Nat) : BitVec 32 := s.me.fragMark.getD (tget s.myCtx.matrix.lastw 0 tile)

/-- The 512 bits of a fragment (R224), read at one moment: a command in flight that the read does not wait for shows its lanes one
by one (R226; log 62, DEDUCED). -/
def State.fragVal (s : State) (tile row : Nat) : Vec :=
  BitVec.ofNat 512 (s.natFor (.cell s.myCell) (fragKeys s.myCell tile row))

/-- The vector registers that a second source names. -/
def vsrcRegs (b : VSrc) : List Nat :=
  match b with
  | .reg r => [r.toNat]
  | .frag _ _ => []

/-- The value of a second source (R224). -/
def State.vsrcVal (s : State) (prev : List Nat) (b : VSrc) : Vec :=
  match b with
  | .reg r => s.vval prev r.toNat
  | .frag t r => s.fragVal t.toNat r.toNat

/-- Whether a second source is ready: a fragment once MDONE has reached L; a command enqueued after L was recorded is not waited for
(R219). -/
def State.vsrcReady (s : State) (b : VSrc) : Bool :=
  match b with
  | .reg _ => true
  | .frag t _ => s.myCtx.matrix.reached (s.fragL t.toNat)

/-- A poisoned fragment row: TVAL 2^33 + 16 × T + R (R225). -/
def State.vsrcPoison (s : State) (b : VSrc) : Option Word :=
  match b with
  | .reg _ => none
  | .frag t r =>
    if (s.poisonAmong (.cell s.myCell) (fragKeys s.myCell t.toNat r.toNat)).isSome then
      some (BitVec.ofNat 64 (2 ^ 33 + 16 * t.toNat + r.toNat))
    else none

/-- What stops a vector instruction at its operands: a queue end (R137), which R225 does not place and which comes first (log 104, DESIGN
CHOICE), then in the order of R225 stream checks (cause 33), waits, a poisoned fragment, a poisoned element. A push after a collected
acquire waits for the boundary (R323; log 96, DEDUCED). -/
def State.vblocked (s : State) (ss : List Reg) (sd : Option Reg) (vs : List Nat) (frag : Option VSrc) (vd : Option Nat) :
    Option Out :=
  match badQueue s.cur.core.role ss sd with
  | some r => some (trap s 35 (r.setWidth 64))
  | none =>
    match s.portTrap vs vd with
    | some k => some (trap s 33 (BitVec.ofNat 64 k))
    | none =>
      let src := frag.getD (.reg 0)
      if s.inGroup && s.me.acquiring && vd.any s.isPort then some (waitCollected s)
      else if s.scalarReady ss sd && s.vectorReady vs vd && s.vsrcReady src then
        match s.vsrcPoison src with
        | some v => some (trap s 29 v)
        | none =>
          match s.poisonedPort [] vs with
          | some v => some (trap s 29 v)
          | none => none
      else some (wait s)

end Sys2Proof.Machine
end

