-- ==== Sys2Proof/Machine/ControlPage.lean ====
section
/-! DEFINITION. The control page: what each area permits (R83, R84), what a load reads, and what a store does when it leaves
the store buffer (R94, R146, R154, R205 to R207, R221, R346 to R348). -/

namespace Sys2Proof.Machine

/-- Whether the control page permits a load of this width at this offset (R84, R94, R146, R154, R205, R346, R347). -/
def controlLoadOk (off size : Nat) : Bool :=
  if off < 0x1000 then decide (size = 8) && (decide (off = 0x40) || decide (off = 0x48) || decide (off = 0x50) || decide (off = 0x58))
  else if off < 0x1100 then decide (size = 8)
  else if off < 0x2000 then false
  else if off < 0x3000 then decide (size = 8) && (decide (off % 64 = 0) || decide (off % 64 = 8))
  else if off < 0x4000 then false
  else if off < 0x8000 then true
  else if off < 0x8040 then decide (size = 8)
  else if off < 0x9000 then false
  else if off < 0xA000 then decide (size = 8)
  else false

/-- Whether the control page permits a scalar store of this width at this offset by a core of this role. -/
def controlStoreOk (role : Role) (off size : Nat) : Bool :=
  decide (size = 8) &&
    ((decide (off = 0x58) && decide (role = .c)) || (decide (0x1000 ≤ off) && decide (off < 0x1100)) ||
      (decide (0x2000 ≤ off) && decide (off < 0x3000) && decide (off % 64 = 0)) ||
      (decide (0x8000 ≤ off) && decide (off < 0x8040)) || (decide (0x9000 ≤ off) && decide (off < 0xA000)))

/-- PRODUCE of CTL (R347). -/
def ctlProduce (v : Word) : Nat := (v.extractLsb' 52 4).toNat

/-- CONSUME of CTL (R347). -/
def ctlConsume (v : Word) : Nat := (v.extractLsb' 48 4).toNat

/-- ROLE of CTL (R347). -/
def ctlRole (v : Word) : Nat := (v.extractLsb' 56 2).toNat

/-- PRIO of CTL (R347). -/
def ctlPrio (v : Word) : Nat := (v.extractLsb' 58 3).toNat

/-- MASK of CTL (R347). -/
def ctlMask (v : Word) : Bool := v.getLsbD 61

/-- DET of CTL (R347). -/
def ctlDet (v : Word) : Bool := v.getLsbD 62

/-- EN of CTL (R347). -/
def ctlEn (v : Word) : Bool := v.getLsbD 63

/-- Whether CTL may be stored: with EN = 1 every field must be valid (R347). -/
def ctlOk (v : Word) : Bool :=
  !ctlEn v || (decide (ctlRole v ≠ 3) && decide (ctlProduce v ≤ 8) && decide (1 ≤ ctlConsume v) && decide (ctlConsume v ≤ 8) &&
    decide (v.extractLsb' 0 2 = 0))

/-- Whether the value of a control-page store is legal: reserved bits zero (R94, R146, R207), CTL valid (R347). -/
def controlValueOk (off : Nat) (v : Word) : Bool :=
  if off = 0x58 then decide (v &&& 0xFFFFFFFFFFFFFFFC#64 = 0)
  else if off < 0x1100 then decide (v &&& 0xFFFFFFFFFFFFFF00#64 = 0)
  else if off < 0x3000 then ctlOk v
  else if off < 0x8040 then decide (v &&& 0x07FFE000FFFFE000#64 = 0)
  else true

/-- MSTAT (R206). -/
def Matrix.mstat (m : Matrix) : Word :=
  BitVec.ofNat 64 (m.queue.length + 256 * m.stopped.toNat + 512 * m.gated.toNat + 65536 * m.fcause)

/-- PSTAT of a channel (R348). -/
def CellCtx.pstat (x : CellCtx) (n : Nat) : Word :=
  BitVec.ofNat 64 ((tget x.pigeons {} n).fired.toNat + 2 ^ 32 * (tget x.lines [] n).length)

/-- The little-endian number of n bytes of a 64-byte value from byte b. -/
def vecBytes (v : Vec) (b n : Nat) : Nat := v.toNat / 2 ^ (8 * b) % 2 ^ (8 * n)

/-- What a permitted load of the control page reads, as a number (R94, R146, R154, R205, R346 to R348). -/
def CellCtx.controlRead (x : CellCtx) (off size : Nat) : Nat :=
  if off < 0x1000 then
    if off = 0x40 then x.matrix.mstat.toNat
    else if off = 0x48 then x.matrix.enq.toNat
    else if off = 0x50 then x.matrix.done.toNat
    else 0
  else if off < 0x2000 then (tget x.sems 0 ((off - 0x1000) / 8)).toNat
  else if off < 0x4000 then
    let n := (off - 0x2000) / 64
    if off % 64 = 0 then (tget x.pigeons {} n).ctl.toNat else (x.pstat n).toNat
  else if off < 0x8000 then vecBytes (tget x.inbox 0 ((off - 0x4000) / 64)) (off % 64) size
  else if off < 0x9000 then (tget x.windows 0 ((off - 0x8000) / 8)).toNat
  else vecBytes (tget x.tids 0 ((off - 0x9000) / 64)) (off % 64) size

/-- Replaces n bytes of a 64-byte value from byte b. -/
def vecPut (v : Vec) (b n value : Nat) : Vec :=
  let mask : Vec := BitVec.ofNat 512 ((2 ^ (8 * n) - 1) * 2 ^ (8 * b))
  (v &&& ~~~mask) ||| (BitVec.ofNat 512 (value % 2 ^ (8 * n) * 2 ^ (8 * b)))

/-- A store to CTL, a window register or the tensor identifier image takes effect (R94, R154, R347). -/
def CellCtx.controlWrite (x : CellCtx) (off : Nat) (v : Word) : CellCtx :=
  if off < 0x2000 then x
  else if off < 0x3000 then
    { x with pigeons := tupd x.pigeons {} ((off - 0x2000) / 64) fun p => { p with ctl := v } }
  else if off < 0x8000 then x
  else if off < 0x9000 then { x with windows := tset x.windows ((off - 0x8000) / 8) v }
  else { x with tids := tupd x.tids 0 ((off - 0x9000) / 64) fun t => vecPut t (off % 64) 8 v.toNat }

/-- FLUSH of MCTL: every queued command is discarded (R221). -/
def Matrix.flush (m : Matrix) : Matrix :=
  { m with queue := [], done := m.enq, gated := false, passed := false, early := [], result := none }

/-- RESUME of MCTL: the sequencer takes the head command again from its gate (R207, R221). -/
def Matrix.restart (m : Matrix) : Matrix := { m with stopped := false, fcause := 0, gated := false, passed := false }

/-- The matrix sequencer leaves a semaphore's line. -/
def CellCtx.ungate (x : CellCtx) : CellCtx :=
  { x with semLines := x.semLines.map fun e => (e.1, e.2.filter fun w => decide (w.1 ≠ .sequencer)) }

/-- A waiter gives up what it has taken and not yet passed on with. -/
def CellCtx.dropGrant (x : CellCtx) (w : Waiter) : CellCtx := { x with grants := x.grants.filter fun g => decide (g.who ≠ w) }

/-- A store to MCTL takes effect: nothing while STOPPED = 0; FLUSH before RESUME (R207, R221). -/
def CellCtx.mctl (x : CellCtx) (v : Word) : CellCtx :=
  if x.matrix.stopped then
    let x1 := if v.getLsbD 1 then { x.ungate.dropGrant .sequencer with matrix := x.matrix.flush } else x
    if v.getLsbD 0 then { x1.ungate.dropGrant .sequencer with matrix := x1.matrix.restart } else x1
  else x

end Sys2Proof.Machine
end

