-- ==== Sys2Proof/Machine/Image.lean ====
section
/-! DEFINITION. What the device reads and writes of a context on its own: the fault channel (R376) and the backing image of a
cell (R372). -/

namespace Sys2Proof.Machine

/-- Writes a fault channel record, bytes 0x04 to 0x3F first and SEQ last; a record that cannot be written is dropped and reported, and keeps its
number (R376, R384 KIND 4; log 41, DEDUCED). -/
def State.writeFault (s : State) (ctx : Nat) (record : List Byte) : State :=
  match s.context ctx with
  | none => s
  | some c =>
    let seq := c.fcSeq + 1
    let va := c.fcbase.toNat + 64 * (c.fcSeq.toNat % 2 ^ c.fclog2)
    let s1 := s.updContext ctx fun c => { c with fcSeq := seq }
    match s.deviceKeys 0 ctx .store (span va 64) with
    | .ok keys =>
      let cells := cellsAt keys (natToBytes 4 seq.toNat ++ record)
      let s2 := (s1.addGlobal (cells.drop 4)).setMarks (marksOf false (wholeSectors cells))
      { s2 with trailing := s2.trailing ++ [Second.bytes (cells.take 4)] }
    | .error _ => s1.report 4 (BitVec.ofNat 64 ctx) (BitVec.ofNat 64 (bytesToNat (record.take 1))) 0

/-- Virtual address of offset `off` of the backing image of a cell (R372). -/
def Context.imageAddr (c : Context) (cell off : Nat) : Nat := c.savebase.toNat + cell * 2 ^ 20 + off

/-- Whether a leaf may hold a part of an image: LPDDR or vault, RD = 1 and WR = 1 (R372). -/
def imageLeaf (e : Word) : Bool := decide (pteSpc e ≤ 1) && pteRD e && pteWR e

/-- An access of a kind to a byte of a backing image: its key, or the cause and the address of the failed access (R372, R373). -/
def State.imageReach (s : State) (ctx cell off : Nat) (kind : AccKind) : Except (Nat × Nat) Nat :=
  match s.context ctx with
  | none => .error (kind.faultCause, 0)
  | some c =>
    let va := c.imageAddr cell off
    if regionOf va ≠ .translated then .error (kind.faultCause, va)
    else
      match s.deviceWalk (cell / 16) ctx va with
      | .fail => .error (kind.pageCause, va)
      | .leaf e l => if imageLeaf e && !s.keyOut (leafKey e l va) then .ok (leafKey e l va) else .error (kind.faultCause, va)

/-- The key of a byte of a backing image, if it can be reached. -/
def State.imageKey (s : State) (ctx cell off : Nat) : Option Nat := (s.imageReach ctx cell off .load).toOption

/-- A failed image access is a fatal fault of the context; the record names the device (R373). -/
def State.imageFatal (s : State) (ctx cell cause va : Nat) : State :=
  s.fatal ctx (faultRecord 3 s.chip (BitVec.ofNat 64 cause) (BitVec.ofNat 64 va) (fatalDetail cell 0xFF 0 0))

/-- A key of the own scratchpad of a context in a cell: the scratchpad while the context is resident, the same offset of
its backing image while it is switched out, or the cause and the address of the failed image access (R373). Other keys stand. -/
def State.spadReach (s : State) (ctx cell key : Nat) (kind : AccKind) : Except (Nat × Nat) Nat :=
  if isCellKey key ∧ keyCell key = cell ∧ s.residentIn cell ≠ some ctx then s.imageReach ctx cell (key % 2 ^ 20) kind else .ok key

/-- The key, where it can be reached. -/
def State.spadOrImage (s : State) (ctx cell key : Nat) : Option Nat := (s.spadReach ctx cell key .load).toOption

/-- The first failed image access among accesses to keys. -/
def State.spadFault (s : State) (ctx cell : Nat) (keys : List Nat) (kind : AccKind) : Option (Nat × Nat) :=
  keys.findSome? fun k =>
    match s.spadReach ctx cell k kind with
    | .error e => some e
    | .ok _ => none

/-- Writes bytes into the save area of a context in a cell, in the scratchpad or in the backing image (R374); a failed image access
is fatal (R373). -/
def State.saveAreaPut (s : State) (ctx cell off : Nat) (bytes : List Byte) : State :=
  let cells := cellsFrom (cellKey cell off) bytes
  match s.spadFault ctx cell (cells.map Prod.fst) .store with
  | some (cause, va) => s.imageFatal ctx cell cause va
  | none => s.addGlobal (cells.filterMap fun c => (s.spadOrImage ctx cell c.1).map fun k => (k, c.2))

end Sys2Proof.Machine
end

