-- ==== Sys2Proof/Machine/Packets.lean ====
section
/-! DEFINITION. Fabric packets (R97, R250 to R255): building them, sending them through the sorting office, and the send
records of counted writes (R247, R405). -/

namespace Sys2Proof.Machine

/-! ### Fabric addresses (R97) -/

/-- CHIP of a fabric address. -/
def faChip (fa : Word) : BitVec 12 := fa.extractLsb' 52 12

/-- KIND of a fabric address. -/
def faKind (fa : Word) : Nat := (fa.extractLsb' 48 4).toNat

/-- CADDR of a fabric address. -/
def faAddr (fa : Word) : Nat := (fa.extractLsb' 0 48).toNat

/-- Whether CADDR lies in the range that its kind requires (R97, R241). -/
def faInRange (fa : Word) : Bool :=
  match faKind fa with
  | 0 => decide (0x1000000000 ≤ faAddr fa)
  | 1 => decide (0x100000000 ≤ faAddr fa) && decide (faAddr fa < 0x140000000)
  | 2 => decide (faAddr fa % 8 = 0) && decide (faAddr fa < 8 * 8192)
  | _ => false

/-- The cell and offset that a kind 1 address names (R81, R97). -/
def faCell (fa : Word) : Nat := (faAddr fa - 0x100000000) / 0x100000

/-- The scratchpad offset that a kind 1 address names. -/
def faOffset (fa : Word) : Nat := (faAddr fa - 0x100000000) % 0x100000

/-- The address with its chip replaced (R288). -/
def faWithChip (fa : Word) (chip : BitVec 12) : Word := (chip.setWidth 64 <<< 52) ||| (fa &&& 0x000FFFFFFFFFFFFF#64)

/-! ### Headers -/

/-- VN of a TYPE (R250). -/
def vnOf (type : Nat) : BitVec 2 :=
  match type with
  | 0 => 0
  | 1 => 0
  | 7 => 0
  | 2 => 1
  | 3 => 1
  | 9 => 3
  | _ => 2

/-- FLITS of a packet with this payload (R250, R251). -/
def flitsOf (payload : List Byte) : BitVec 4 := BitVec.ofNat 4 (1 + (payload.length + 31) / 32)

/-- A packet of a TYPE with its header fields composed (R250). -/
def packetOf (type : Nat) (dchip schip : BitVec 12) (scell ctx : Nat) (addr : Word) : Packet :=
  { dchip := dchip, schip := schip, scell := BitVec.ofNat 10 scell, ctxid := BitVec.ofNat 16 ctx, type := BitVec.ofNat 4 type
    vn := vnOf type, flits := 1, round := 0, addr := addr }

end Sys2Proof.Machine

namespace Sys2Proof

open Sys2Proof.Machine

/-- A packet with a payload: FLITS and PCRC follow (R250, R251). -/
def Packet.withPayload (p : Packet) (bytes : List Byte) : Packet :=
  { p with payload := bytes, flits := flitsOf bytes, pcrc := crc32c bytes }

/-- A packet of another TYPE with VN set to match (R288). -/
def Packet.asType (p : Packet) (type : Nat) : Packet := { p with type := BitVec.ofNat 4 type, vn := vnOf type }

/-- TYPE as a number. -/
def Packet.kind (p : Packet) : Nat := p.type.toNat

/-- What a NACK answers (R254). -/
def Packet.answerCode (p : Packet) : BitVec 2 :=
  match p.kind with
  | 0 => 0
  | 7 => 0
  | 1 => 1
  | 4 => 2
  | 8 => 2
  | _ => 3

/-- The NACK that answers a packet (R254). It carries the packet's SCELL, to which it returns (R250; log 32, DEDUCED). -/
def Packet.nack (p : Packet) (own : BitVec 12) (reason : Nat) : Packet :=
  let n := packetOf 3 p.schip own p.scell.toNat p.ctxid.toNat p.addr
  let read := decide (p.kind = 1)
  { n with
    ctr := if read then 0 else p.ctr, seq := if read then 0 else p.seq, reason := BitVec.ofNat 8 reason
    ltag := if read then p.ltag else 0, rslot := if p.answerCode = 2 then p.rslot else 0, answers := p.answerCode }

/-- A receipt for a release (R253). -/
def Packet.receipt (p : Packet) (own : BitVec 12) (status reason : Nat) (raddr : Word) : Packet :=
  let n := packetOf 5 p.schip own p.scell.toNat p.ctxid.toNat raddr
  { n with ctr := p.ctr, seq := p.seq, bytes := p.bytes, rslot := p.rslot, status := BitVec.ofNat 2 status, reason := BitVec.ofNat 8 reason }

/-- Whether the fields of a packet hold values that a sender composes: BYTES, COUNT, FSZ and STATUS (R251 to R255;
log 38, DEDUCED). -/
def Packet.inRange (p : Packet) : Bool :=
  match p.kind with
  | 0 => decide (1 ≤ p.bytes.toNat) && decide (p.bytes.toNat ≤ 256) && decide (p.payload.length = p.bytes.toNat)
  | 1 => decide (p.ltag.toNat < 8)
  | 2 => decide (p.status.toNat ≤ 1)
  | 4 => decide (1 ≤ p.bytes.toNat) && decide (p.bytes.toNat ≤ 1024) && decide (2 ≤ p.fsz.toNat)
  | 5 => decide (p.status.toNat ≤ 2)
  | 6 => decide (p.payload.length = 32)
  | _ => true

/-- Whether a packet passes the checks of any receiver: TYPE, VN and RSV (R250, R251), and fields in range. -/
def Packet.wellFormed (p : Packet) : Bool :=
  decide (p.kind ≤ 9) && decide (p.vn = vnOf p.kind) && !p.rsv0 && !p.rsvBody && p.inRange &&
    !((decide (p.kind = 0) || decide (p.kind = 7) || decide (p.kind = 4) || decide (p.kind = 8)) && decide (faKind p.addr ≤ 1) && decide (p.dcell ≠ 0))

end Sys2Proof

namespace Sys2Proof.Machine

/-! ### Sending -/

/-- A packet enters the sorting office: outbound when it goes to another chip or to a group (R274). -/
def State.transmit (s : State) (p : Packet) : State :=
  let out := decide (p.kind = 7) || decide (p.kind = 8) || decide (p.dchip ≠ s.chip)
  { s with net := s.net ++ [{ packet := p, outbound := out, offered := false }] }

/-- A deferred event for the A-core of a context in a cell, resident or switched out (R264, R369, R373). -/
def State.postTo (s : State) (ctx cell cause : Nat) (tval : Word) : State :=
  if s.residentIn cell = some ctx then s.postEvent ⟨cell, .a⟩ cause tval
  else
    { s with saved := s.saved.map fun v =>
        if v.ctxid = ctx ∧ v.cell = cell then
          { v with ctx := { v.ctx with coreA := { v.ctx.coreA with events := v.ctx.coreA.events ++ [{ cause := cause, tval := tval }] } } }
        else v }

/-- The payload of a send record as it is read at a sending, or the address of a poisoned sector (R267, R405). A source in
the own scratchpad of a switched-out context lies in its backing image (R373); memory that is switched off is withheld like poison
(log 79, DESIGN CHOICE). -/
def State.readSource (s : State) (ctx cell : Nat) (addrs : List (Nat × Nat)) : Except Word (List Byte) :=
  let keys := addrs.map fun a => (s.spadOrImage ctx cell a.1, a.2)
  match keys.find? fun a => (a.1.map fun k => s.poisonedFor (.cell cell) (sectorOf k) || s.keyOut k).getD true with
  | some a => .error (BitVec.ofNat 64 (a.2 / 64 * 64))
  | none => .ok (s.bytesFor (.cell cell) (keys.filterMap Prod.fst))

/-- Events of the interface that wait at an A-core, or in its pending-load record until a restore (R264, R374). -/
def State.niEvents (s : State) (ctx cell : Nat) : Nat :=
  let count (k : Core) : Nat := (k.events.filter fun e => [25, 27, 29, 43].contains e.cause).length
  let late := ((s.niOf ctx cell).late.filter fun e => decide (e.status ≠ 0)).length
  late + if s.residentIn cell = some ctx then count (s.ctxOf cell).coreA
    else ((s.saved.filter fun v => decide (v.ctxid = ctx) && decide (v.cell = cell)).map fun v => count v.ctx.coreA).sum

/-- Whether the interface has room for one more event of an A-core: it holds up to 16 (R264). -/
def State.niRoom (s : State) (ctx cell : Nat) : Bool := decide (s.niEvents ctx cell < 16)

/-- Sends a counted write whose source bytes have been read, some of them, `early`, before the others (R267, R325), or withholds it when its
source is poisoned (R405). A source in a backing image that cannot be reached is a failed image access (R373). -/
def State.sendFirst (s : State) (ctx cell : Nat) (r : SendRec) (round : BitVec 3) (early : List (Nat × Byte)) : State :=
  match r.source with
  | .data => s.transmit { r.packet with round := round }
  | .memory addrs =>
    match s.spadFault ctx cell (addrs.map Prod.fst) .load with
    | some (cause, va) => s.imageFatal ctx cell cause va
    | none =>
      match s.readSource ctx cell addrs with
      | .error a => s.postTo ctx cell 29 a
      | .ok bytes =>
        let read := addrs.zipWith (fun a b => (tfind early a.1).getD b) bytes
        s.transmit { (r.packet.withPayload read) with round := round }

/-- Whether the copy engine can send a record now: a sending that is withheld needs room for its event (R264, R405; log 84, DEDUCED). -/
def State.canSend (s : State) (ctx cell : Nat) (r : SendRec) : Bool :=
  s.niRoom ctx cell || match r.source with
    | .data => true
    | .memory addrs => match s.readSource ctx cell addrs with
      | .error _ => false
      | .ok _ => true

/-- Begins a sending of a counted write from its record: one that holds its data is transmitted, one whose source lies in memory waits
until the interface has read it (R247, R267, R325; log 101, DESIGN CHOICE). -/
def State.sendWrite (s : State) (ctx cell : Nat) (r : SendRec) (round : BitVec 3) : State :=
  match r.source with
  | .data => s.transmit { r.packet with round := round }
  | .memory _ =>
    let n := s.niOf ctx cell
    s.setNi ctx cell { n with outgoing := n.outgoing ++ [{ record := r, round := round }] }

/-- The source bytes, as (key, address), that a sending has still to read. -/
def Sending.rest (x : Sending) : List (Nat × Nat) :=
  match x.record.source with
  | .data => []
  | .memory addrs => addrs.filter fun a => (tfind x.got a.1).isNone

/-- The payload that a sending has read. -/
def Sending.payload (x : Sending) : List Byte :=
  match x.record.source with
  | .data => x.record.packet.payload
  | .memory addrs => addrs.map fun a => (tfind x.got a.1).getD 0

/-- The interface reads source bytes of a sending: the rest of one sector, or of it the bytes `only` before the others. With the last byte the
write leaves. A poisoned sector withholds the sending, whose event needs room (R264, R405; log 84, DEDUCED); a source in a backing image
that cannot be reached is a failed image access (R373). -/
def State.readSending (s : State) (ctx cell i : Nat) (only : Option (List Nat)) : State :=
  let n := s.niOf ctx cell
  match n.outgoing[i]? with
  | none => s
  | some x =>
    let sector := sectorOf ((x.rest.map Prod.fst).headD 0)
    let part := x.rest.filter fun a => decide (sectorOf a.1 = sector) && (match only with | some ks => ks.contains a.1 | none => true)
    let dropped := s.setNi ctx cell { n with outgoing := n.outgoing.eraseIdx i }
    if !s.settled ⟨cell, .a⟩ x.record.after 0 then s
    else
      match s.spadFault ctx cell (part.map Prod.fst) .load with
      | some (cause, va) => s.imageFatal ctx cell cause va
      | none =>
        match s.readSource ctx cell part with
        | .error a => if s.niRoom ctx cell then dropped.postTo ctx cell 29 a else s
        | .ok bytes =>
          let y := { x with got := x.got ++ (part.map Prod.fst).zip bytes }
          if y.rest.isEmpty then dropped.transmit { (x.record.packet.withPayload y.payload) with round := x.round }
          else s.setNi ctx cell { n with outgoing := n.outgoing.set i y }

/-- Keeps a send record in the interface of a cell (R247). -/
def State.keepRecord (s : State) (ctx cell : Nat) (r : SendRec) : State :=
  let n := s.niOf ctx cell
  s.setNi ctx cell { n with recs := n.recs ++ [r] }

/-- Send records that the interface of a cell keeps, of every context placed there (R247). -/
def State.recordsIn (s : State) (cell : Nat) : Nat := ((s.nis.filter fun e => decide (e.1 % 1024 = cell)).map fun e => e.2.recs.length).sum

/-- Whether a cell's interface has room for more send records (R247). -/
def State.recordRoom (s : State) (cell more : Nat) : Bool := decide (s.recordsIn cell + more ≤ 4096)

/-- Whether a sequence number lies in a window (R243). -/
def inWindow (start : BitVec 16) (count : Nat) (seq : BitVec 16) : Bool := decide ((seq - start).toNat < count)

/-- Whether a record belongs to a window of a counter at a destination; a multicast record names the group (R247). -/
def SendRec.covered (r : SendRec) (dchip : BitVec 12) (multicast : Bool) (ctr : BitVec 13) (start : BitVec 16) (count : Nat) : Bool :=
  decide (r.packet.ctr = ctr) && inWindow start count r.packet.seq && decide (r.packet.dchip = dchip) &&
    (decide (r.packet.kind = 7) == multicast)

end Sys2Proof.Machine
end

