-- ==== Sys2Proof/Machine/Remote.lean ====
section
/-! DEFINITION. Fabric accesses at their target (R93, R95, R99), and the order of a core's remote loads among its other accesses
(R319 to R321). -/

namespace Sys2Proof.Machine

/-! ### Accesses at the target (R95, R99) -/

/-- What stops an access at the target: a refusal with a reason, or a translation that waits for a walk. -/
inductive FabStop where
  | refuse (reason : Nat)
  | walk (va : Nat)
  deriving DecidableEq, Repr

/-- The cluster whose translation caches and walkers serve the network interface: the lowest in service (R93; log 12, DEDUCED). -/
def State.fabCluster (s : State) : Nat := ((List.range 64).find? fun k => !s.unitOut 1 k).getD 0

/-- The network interface as a party that waits for walks. -/
def fabParty (cluster : Nat) : Party := ⟨16 * cluster + 1, .s⟩

/-- An access at the target: its bytes' keys and its leaf for kind 0, or what stops it (R93, R99). The first byte that fails decides.
The spec gives a fetch-and-add in a host-space page no reason of its own; it is refused as a missing right is (log 91, DESIGN CHOICE). -/
def State.fabKeys (s : State) (ctx : Nat) (schip : BitVec 12) (fa : Word) (n : Nat) (kind : AccKind) : Except FabStop (List Nat × Option Word) :=
  if faKind fa = 1 then
    if s.cellOut (faCell fa) then .error (.refuse 5)
    else if s.granted (faCell fa) ctx (faOffset fa) n kind (decide (schip = s.chip)) then .ok (span (cellKey (faCell fa) (faOffset fa)) n, none)
    else .error (.refuse 1)
  else
    let one (va : Nat) : Except FabStop (Nat × Word) :=
      match (if regionOf va = .translated then s.transFor (fabParty s.fabCluster) ctx va else .fail) with
      | .miss => .error (.walk va)
      | .fail => .error (.refuse 2)
      | .leaf e l =>
        if leafGrants e kind = false ∨ (kind ≠ .load ∧ pteO e) ∨ (kind = .atomic ∧ pteSpc e = 2) then .error (.refuse 3)
        else if s.keyOut (leafKey e l va) then .error (.refuse 5)
        else .ok (leafKey e l va, e)
    (span (faAddr fa) n).foldr (fun va acc =>
      match one (va % 2 ^ 48) with
      | .error r => .error r
      | .ok (k, e) =>
        match acc with
        | .error r => .error r
        | .ok (ks, _) => .ok (k :: ks, some e)) (.ok ([], none))

/-! ### Remote loads among a core's other accesses (R319 to R321) -/

/-- Whether a remote load of a context on this chip may read or add at a key that a test accepts: while its translation waits for a walk it
may. -/
def State.tagMayHit (s : State) (ctx : Nat) (t : LoadTag) (hit : Nat → Bool) : Bool :=
  let p := t.packet
  decide (p.dchip = s.chip) && decide (faKind p.addr ≠ 2) &&
    (match s.fabKeys ctx p.schip p.addr (2 ^ p.size.toNat) (if p.fetchAdd then .atomic else .load) with
      | .ok (ks, _) => ks.any hit
      | .error (.walk _) => true
      | .error (.refuse _) => false)

/-- Whether a remote load of the A-core of a context in a cell, earlier than access `id` and not yet performed, may reach a key that a test
accepts. -/
def State.tagsBefore (s : State) (ctx cell id : Nat) (hit : Nat → Bool) : Bool :=
  let n := s.niOf ctx cell
  n.tags.any fun t => decide (t.2.id < id) && n.tagWaits t.1 && s.tagMayHit ctx t.2 hit

/-- The same of a core. -/
def State.remoteBefore (s : State) (p : CoreRef) (id : Nat) (hit : Nat → Bool) : Bool :=
  match p.role, s.residentIn p.cell with
  | .a, some ctx => s.tagsBefore ctx p.cell id hit
  | _, _ => false

end Sys2Proof.Machine
end

