-- ==== Sys2Proof/Machine/Scalar.lean ====
section
/-! DEFINITION. The scalar integer instructions (R109 to R118). -/

namespace Sys2Proof.Machine

/-- wrap(n): n mod 2^64 (R109). -/
def wrap (n : Int) : Word := BitVec.ofInt 64 n

/-- sat_s(n) (R109). -/
def satS (n : Int) : Word := if n < -2 ^ 63 then wrap (-2 ^ 63) else if 2 ^ 63 - 1 < n then wrap (2 ^ 63 - 1) else wrap n

/-- sat_u(n) (R109). -/
def satU (n : Int) : Word := if n < 0 then 0 else if 2 ^ 64 - 1 < n then wrap (2 ^ 64 - 1) else wrap n

/-- uns(v) (R109). -/
def uns (v : Word) : Int := (v.toNat : Int)

/-- sgn(v) (R109). -/
def sgn (v : Word) : Int := v.toInt

/-- The sign-extended 25-bit immediate of R113. -/
def imm25 (imm : BitVec 25) : Word := imm.signExtend 64

/-- A left shift by any amount (R111). -/
def shiftL (a : Word) (n : Nat) : Word := if n < 64 then wrap (uns a * 2 ^ n) else 0

/-- A logical right shift by any amount (R111). -/
def shiftR (a : Word) (n : Nat) : Word := if n < 64 then wrap (uns a / 2 ^ n) else 0

/-- An arithmetic right shift by any amount (R111). -/
def shiftA (a : Word) (n : Nat) : Word := if n < 64 then wrap (sgn a / 2 ^ n) else if sgn a < 0 then wrap (-1) else 0

/-- 1 or 0 as a condition holds (R112). -/
def flag (b : Bool) : Word := if b then 1 else 0

/-- The signed quotient, truncated toward zero (R116). -/
def quotS (a b : Word) : Word := if b = 0 then wrap (-1) else wrap (Int.tdiv (sgn a) (sgn b))

/-- The unsigned quotient (R116). -/
def quotU (a b : Word) : Word := if b = 0 then wrap (2 ^ 64 - 1) else wrap (uns a / uns b)

/-- The signed remainder, with the sign of the dividend (R116). -/
def remS (a b : Word) : Word := if b = 0 then a else wrap (Int.tmod (sgn a) (sgn b))

/-- The unsigned remainder (R116). -/
def remU (a b : Word) : Word := if b = 0 then a else wrap (uns a % uns b)

/-- One bits among the lowest n bits (R117). -/
def countOnes (a : Word) : Nat → Nat
  | 0 => 0
  | n + 1 => (a.getLsbD n).toNat + countOnes a n

/-- Zero bits above the highest one bit among the lowest n bits (R117). -/
def leadingZeros (a : Word) : Nat → Nat
  | 0 => 0
  | n + 1 => if a.getLsbD n then 0 else 1 + leadingZeros a n

/-- Zero bits below the lowest one bit, from bit `64 - n` upward (R117). -/
def trailingZeros (a : Word) : Nat → Nat
  | 0 => 0
  | n + 1 => if a.getLsbD (63 - n) then 0 else 1 + trailingZeros a n

/-- ADD (R110). -/
def execAdd (d a b : Reg) (s : State) : Out := alu2 s d a b fun x y => x + y

/-- ADDS (R110). -/
def execAdds (d a b : Reg) (s : State) : Out := alu2 s d a b fun x y => satS (sgn x + sgn y)

/-- ADDUS (R110). -/
def execAddus (d a b : Reg) (s : State) : Out := alu2 s d a b fun x y => satU (uns x + uns y)

/-- SUB (R110). -/
def execSub (d a b : Reg) (s : State) : Out := alu2 s d a b fun x y => x - y

/-- SUBS (R110). -/
def execSubs (d a b : Reg) (s : State) : Out := alu2 s d a b fun x y => satS (sgn x - sgn y)

/-- SUBUS (R110). -/
def execSubus (d a b : Reg) (s : State) : Out := alu2 s d a b fun x y => satU (uns x - uns y)

/-- AND (R110). -/
def execAnd (d a b : Reg) (s : State) : Out := alu2 s d a b fun x y => x &&& y

/-- ANDN (R110). -/
def execAndn (d a b : Reg) (s : State) : Out := alu2 s d a b fun x y => x &&& ~~~y

/-- OR (R110). -/
def execOr (d a b : Reg) (s : State) : Out := alu2 s d a b fun x y => x ||| y

/-- XOR (R110). -/
def execXor (d a b : Reg) (s : State) : Out := alu2 s d a b fun x y => x ^^^ y

/-- SHL: the amount is all of b (R111). -/
def execShl (d a b : Reg) (s : State) : Out := alu2 s d a b fun x y => shiftL x y.toNat

/-- SHR (R111). -/
def execShr (d a b : Reg) (s : State) : Out := alu2 s d a b fun x y => shiftR x y.toNat

/-- SHA (R111). -/
def execSha (d a b : Reg) (s : State) : Out := alu2 s d a b fun x y => shiftA x y.toNat

/-- CMPEQ (R112). -/
def execCmpeq (d a b : Reg) (s : State) : Out := alu2 s d a b fun x y => flag (decide (x = y))

/-- CMPNE (R112). -/
def execCmpne (d a b : Reg) (s : State) : Out := alu2 s d a b fun x y => flag (decide (x ≠ y))

/-- CMPLT (R112). -/
def execCmplt (d a b : Reg) (s : State) : Out := alu2 s d a b fun x y => flag (decide (sgn x < sgn y))

/-- CMPGE (R112). -/
def execCmpge (d a b : Reg) (s : State) : Out := alu2 s d a b fun x y => flag (decide (sgn y ≤ sgn x))

/-- CMPLTU (R112). -/
def execCmpltu (d a b : Reg) (s : State) : Out := alu2 s d a b fun x y => flag (decide (uns x < uns y))

/-- CMPGEU (R112). -/
def execCmpgeu (d a b : Reg) (s : State) : Out := alu2 s d a b fun x y => flag (decide (uns y ≤ uns x))

/-- MUL (R115). -/
def execMul (d a b : Reg) (s : State) : Out := alu2 s d a b fun x y => wrap (uns x * uns y)

/-- MULH (R115). -/
def execMulh (d a b : Reg) (s : State) : Out := alu2 s d a b fun x y => wrap (sgn x * sgn y / 2 ^ 64)

/-- MULHU (R115). -/
def execMulhu (d a b : Reg) (s : State) : Out := alu2 s d a b fun x y => wrap (uns x * uns y / 2 ^ 64)

/-- DIV (R116). -/
def execDiv (d a b : Reg) (s : State) : Out := alu2 s d a b fun x y => quotS x y

/-- DIVU (R116). -/
def execDivu (d a b : Reg) (s : State) : Out := alu2 s d a b fun x y => quotU x y

/-- DIVREM (R116). -/
def execDivrem (d a b : Reg) (s : State) : Out := alu2 s d a b fun x y => remS x y

/-- DIVREMU (R116). -/
def execDivremu (d a b : Reg) (s : State) : Out := alu2 s d a b fun x y => remU x y

/-- ADDI (R113). -/
def execAddi (d a : Reg) (imm : BitVec 25) (s : State) : Out := alu1 s d a fun x => x + imm25 imm

/-- ANDI (R113). -/
def execAndi (d a : Reg) (imm : BitVec 25) (s : State) : Out := alu1 s d a fun x => x &&& imm25 imm

/-- ORI (R113). -/
def execOri (d a : Reg) (imm : BitVec 25) (s : State) : Out := alu1 s d a fun x => x ||| imm25 imm

/-- XORI (R113). -/
def execXori (d a : Reg) (imm : BitVec 25) (s : State) : Out := alu1 s d a fun x => x ^^^ imm25 imm

/-- CMPIEQ (R112). -/
def execCmpieq (d a : Reg) (imm : BitVec 25) (s : State) : Out := alu1 s d a fun x => flag (decide (x = imm25 imm))

/-- CMPINE (R112). -/
def execCmpine (d a : Reg) (imm : BitVec 25) (s : State) : Out := alu1 s d a fun x => flag (decide (x ≠ imm25 imm))

/-- CMPILT (R112). -/
def execCmpilt (d a : Reg) (imm : BitVec 25) (s : State) : Out := alu1 s d a fun x => flag (decide (sgn x < sgn (imm25 imm)))

/-- CMPIGE (R112). -/
def execCmpige (d a : Reg) (imm : BitVec 25) (s : State) : Out := alu1 s d a fun x => flag (decide (sgn (imm25 imm) ≤ sgn x))

/-- CMPILTU (R112). -/
def execCmpiltu (d a : Reg) (imm : BitVec 25) (s : State) : Out := alu1 s d a fun x => flag (decide (uns x < uns (imm25 imm)))

/-- CMPIGEU (R112). -/
def execCmpigeu (d a : Reg) (imm : BitVec 25) (s : State) : Out := alu1 s d a fun x => flag (decide (uns (imm25 imm) ≤ uns x))

/-- SHIL (R111). -/
def execShil (d a : Reg) (imm : BitVec 6) (s : State) : Out := alu1 s d a fun x => shiftL x imm.toNat

/-- SHIR (R111). -/
def execShir (d a : Reg) (imm : BitVec 6) (s : State) : Out := alu1 s d a fun x => shiftR x imm.toNat

/-- SHIA (R111). -/
def execShia (d a : Reg) (imm : BitVec 6) (s : State) : Out := alu1 s d a fun x => shiftA x imm.toNat

/-- LI (R114). -/
def execLi (d : Reg) (imm : BitVec 32) (s : State) : Out := alu0 s d (imm.signExtend 64)

/-- LIU (R114). -/
def execLiu (d : Reg) (imm : BitVec 32) (s : State) : Out := alu0 s d (imm.setWidth 64)

/-- LIW (R114). -/
def execLiw (d : Reg) (ext : BitVec 64) (s : State) : Out := alu0 s d ext

/-- MULA (R115). -/
def execMula (d a b c : Reg) (s : State) : Out := alu3 s d a b c fun x y z => wrap (uns x * uns y + uns z)

/-- SEL pops every queue it names (R118). -/
def execSel (d a b c : Reg) (s : State) : Out := alu3 s d a b c fun x y z => if z ≠ 0 then x else y

/-- BITCNT (R117). -/
def execBitcnt (d a : Reg) (s : State) : Out := alu1 s d a fun x => BitVec.ofNat 64 (countOnes x 64)

/-- BITCLZ (R117). -/
def execBitclz (d a : Reg) (s : State) : Out := alu1 s d a fun x => BitVec.ofNat 64 (leadingZeros x 64)

/-- BITCTZ (R117). -/
def execBitctz (d a : Reg) (s : State) : Out := alu1 s d a fun x => BitVec.ofNat 64 (trailingZeros x 64)

/-- NOP retires and changes nothing else (R31). -/
def execNop  (s : State) : Out := .next s.retire

end Sys2Proof.Machine
end

