-- ==== Sys2Proof/Machine/Access.lean ====
section
/-! DEFINITION. Loads, stores, 64-byte accesses, atomics and fences (R129 to R136, R319 to R323, R329, R332, R336), and what
performs and drains them (PERFORM, DRAIN, WIDEN). -/

namespace Sys2Proof.Machine

/-- Where an access of a core goes. -/
inductive Place where
  /-- own or granted remote scratchpad -/
  | spad (key : Nat)
  | control (off : Nat)
  /-- a page: its leaf, level and the key of the first byte -/
  | page (leaf : Word) (level key : Nat)
  /-- a supervisor core's own memory (log 5, DESIGN CHOICE) -/
  | super (key : Nat)
  deriving DecidableEq, Repr

/-- The key of a place in memory. -/
def Place.key : Place → Nat
  | .spad k => k
  | .control off => off
  | .page _ _ k => k
  | .super k => k

/-- The owned page of a place: its leaf has O = 1 (R329). -/
def Place.owned : Place → Option Nat
  | .page e _ _ => if pteO e then some (leafPage e) else none
  | _ => none

/-- Access size in bytes of an ESZ field (R21, R131). -/
def eszBytes (esz : BitVec 2) : Nat := 2 ^ esz.toNat

/-- ea of R129: the base plus the offset, truncated to 48 bits. -/
def effAddr (base : Word) (imm : BitVec 25) : Nat := ((base + imm25 imm).setWidth 48).toNat

/-- ea as TVAL holds it. -/
def eaWord (ea : Nat) : Word := BitVec.ofNat 64 ea

/-- Checks 13 to 18 of R130 for an access of the core whose turn it is; `permitted` is check 15 for the control page. -/
def State.place (s : State) (kind : AccKind) (ea size : Nat) (permitted : Nat → Bool) : Except Out Place :=
  if ea % size ≠ 0 then .error (trap s kind.alignCause (eaWord ea))
  else
    match s.cur.core.role with
    | .s => .ok (.super (superKey (s.myCell / 16) ea))
    | _ =>
      match regionOf ea with
      | .spad => .ok (.spad (cellKey s.myCell ea))
      | .hole => .error (trap s kind.faultCause (eaWord ea))
      | .control =>
        if permitted (ea - 0x100000) then .ok (.control (ea - 0x100000))
        else .error (trap s kind.faultCause (eaWord ea))
      | .remote cell off =>
        if s.granted cell s.myCtxId off size kind true then .ok (.spad (cellKey cell off))
        else .error (trap s 27 (eaWord ea))
      | .translated =>
        match s.transFor s.cur.core s.myCtxId ea with
        | .miss => .error (.next (s.requestWalk s.cur.core s.myCtxId ea))
        | .fail => .error (trap s kind.pageCause (eaWord ea))
        | .leaf e l =>
          if !s.reaches e l ea kind then .error (trap s kind.faultCause (eaWord ea))
          else if kind = .atomic ∧ pteSpc e = 2 then .error (trap s 7 (eaWord ea))
          else .ok (.page e l (leafKey e l ea))

/-- The party that the core is for ownership: its CTXID and COREID (R329). -/
def State.meOwner (s : State) : Nat × Word := (s.myCtxId, s.coreId s.cur.core)

/-- The ownership record of a page (R329). -/
def State.ownOf (s : State) (page : Nat) : OwnRec := tget s.own {} page

/-- Replaces the ownership record of a page. -/
def State.setOwn (s : State) (page : Nat) (r : OwnRec) : State := { s with own := tset s.own page r }

/-- Whether the core whose turn it is holds a page. -/
def State.holds (s : State) (page : Nat) : Bool := decide ((s.ownOf page).holder = some s.meOwner)

/-- Sets WRITTEN of a page (R332). -/
def State.markWritten (s : State) (page : Option Nat) : State :=
  match page with
  | none => s
  | some p => s.setOwn p { s.ownOf p with written := true }

/-- Check 19 for a load: a core that is not HOLDER may not read what was written since the last handover (R332). -/
def State.loadRace (s : State) (p : Place) : Bool :=
  match p.owned with
  | none => false
  | some page => !s.holds page && (s.ownOf page).written

/-- Check 19 for a store or atomic: only HOLDER writes (R332). -/
def State.storeRace (s : State) (p : Place) : Bool :=
  match p.owned with
  | none => false
  | some page => !s.holds page

/-! ### Performing loads (R320) -/

/-- The byte that the youngest store-buffer entry older than access `id` gives an address (R320; log 26, DEDUCED). -/
def bufferByte (es : List StoreEntry) (id a : Nat) : Option Byte :=
  match es with
  | [] => none
  | e :: rest =>
    match bufferByte rest id a with
    | some b => some b
    | none =>
      if e.id < id then
        match e.target with
        | .mem cells => cellAt cells a
        | _ => none
      else none

/-- Bytes as a core's load numbered `id` reads them (R320). -/
def State.loadBytes (s : State) (p : CoreRef) (id : Nat) (addrs : List Nat) : List Byte :=
  addrs.map fun a => (bufferByte (s.coreOf p).stores id a).getD (s.byteFor (.cell p.cell) a)

/-- Notes the writes that a load read, and forgets those that have become visible everywhere (R319). -/
def State.noteRead (s : State) (p : CoreRef) (id : Nat) (addrs : List Nat) : State :=
  let outside := addrs.filter fun a => (bufferByte (s.coreOf p).stores id a).isNone
  let ws := s.sourcesFor (.cell p.cell) outside
  s.updCore p fun k =>
    { k with seen := (k.seen.filter fun e => s.writes.any fun w => decide (w.id = e.2)) ++ ws.map fun w => (id, w) }

/-- Whether a core's own store buffer holds, from before access `id`, the part of a 64-byte store that fills a quarter. -/
def bufferedQuad (es : List StoreEntry) (id q : Nat) : Bool :=
  es.any fun e => decide (e.id < id) && e.quad &&
    (match e.target with
      | .mem cells => (cellAt cells (16 * q)).isSome
      | _ => false)

/-- Whether access `id` of a core consumes poison in a sector: a 64-byte store that waits in the core's own store buffer has
cleared it for the core's later accesses (R100, R320). -/
def State.consumes (s : State) (p : CoreRef) (id sector : Nat) : Bool :=
  (quartersOf sector).any fun q => s.quarterBad (.cell p.cell) q && !bufferedQuad (s.coreOf p).stores id q

/-- Whether an access of the core whose turn it is would consume poison at a key: check 20 of R130, natural alignment keeping an
access in one sector. -/
def State.poisonHere (s : State) (key : Nat) : Bool := s.consumes s.cur.core s.fresh (sectorOf key)

/-- Whether a core's load of a sector may be performed now: no earlier acquire load is unperformed and no earlier load
of the sector is outstanding (R321). -/
def Core.mayPerform (k : Core) (id sector : Nat) : Bool :=
  k.loads.all fun l => !decide (l.id < id) || (!l.acquire && decide (sectorOf l.addr ≠ sector))

/-- The same with the core's remote loads, of which none before it may touch the sector (R321). -/
def State.mayPerform (s : State) (p : CoreRef) (id sector : Nat) : Bool :=
  (s.coreOf p).mayPerform id sector && !s.remoteBefore p id fun a => decide (sectorOf a = sector)

/-- Whether the core whose turn it is may read a sector now. -/
def State.mayRead (s : State) (sector : Nat) : Bool := s.mayPerform s.cur.core s.fresh sector

/-- A loaded value, zero-extended or sign-extended from its size (R131). -/
def extend (v size : Nat) (signed : Bool) : Word :=
  if signed then BitVec.ofInt 64 ((BitVec.ofNat (8 * size) v).toInt) else BitVec.ofNat 64 v

/-- Where a load puts its value. -/
inductive LoadDest where
  | scalar (d : Reg)
  | vector (d : Nat)
  deriving DecidableEq, Repr

/-- Whether the value is handed over as the load retires: to a queue, or through a stream port (R131, R133). -/
def State.destNow (s : State) (d : LoadDest) : Bool :=
  match d with
  | .scalar r => isQueue r
  | .vector n => s.isPort n

/-- The register that an outstanding load will write; none for x0 (R131). -/
def LoadDest.reg (d : LoadDest) : Option RegName :=
  match d with
  | .scalar r => if r = 0#6 then none else some (.x r.toNat)
  | .vector n => some (.v n)

/-- Hands a performed load's number over at once. -/
def State.deliverNow (s : State) (d : LoadDest) (v size : Nat) (signed : Bool) : State :=
  match d with
  | .scalar r => s.writeD r (extend v size signed)
  | .vector n => s.writeV n (BitVec.ofNat 512 v)

/-- Writes a register when its load is performed. -/
def Core.landLoad (k : Core) (dst : Option RegName) (v size : Nat) (signed : Bool) : Core :=
  match dst with
  | none => k
  | some (.x n) => { k.setX n (extend v size signed) with pending := k.pending.filter fun p => decide (p.reg ≠ .x n) }
  | some (.v n) => { k.setV n (BitVec.ofNat 512 v) with pending := k.pending.filter fun p => decide (p.reg ≠ .v n) }

/-- The load is performed as it retires. -/
def State.loadNow (s : State) (srcs : List Reg) (d : LoadDest) (key size : Nat) (signed : Bool) : Out :=
  let id := s.fresh
  let p := s.cur.core
  if s.mayRead (sectorOf key) then
    let addrs := span key size
    let v := bytesToNat (s.loadBytes p id addrs)
    .next (((((s.noteRead p id addrs).bump).popAll srcs).deliverNow d v size signed).retire)
  else wait s

/-- The load retires and is outstanding (R321 Retire). -/
def State.loadLater (s : State) (srcs : List Reg) (d : LoadDest) (key size : Nat) (signed acquire : Bool) (ea : Nat) : Out :=
  let l : OutLoad := { id := s.fresh, addr := key, size := size, signed := signed, dst := d.reg, ea := BitVec.ofNat 48 ea, acquire := acquire }
  let s1 := (s.bump.popAll srcs).updMe fun k =>
    { k with
      loads := k.loads ++ [l]
      pending := match d.reg with
        | none => k.pending
        | some r => k.pending ++ [{ reg := r, source := .load }] }
  .next s1.retire

/-- Whether a store of the core to the same part of the control page has not left the store buffer. -/
def Core.controlPending (k : Core) (off : Nat) : Bool :=
  k.stores.any fun e => match e.target with
    | .control o _ => decide (o / 64 = off / 64)
    | _ => false

/-- The sector number of a control-page offset, apart from those of memory. -/
def controlSector (off : Nat) : Nat := 2 ^ 60 + off / 64

/-- A load with its address known (R130, R131, R133); an unperformed acquire load holds it back also where it reads the control
page (R322). A load of an owned page is performed as it retires: WRITTEN is tested at that moment (R332). -/
def loadAt (s : State) (srcs : List Reg) (d : LoadDest) (ea size : Nat) (signed acquire : Bool) : Out :=
  match s.place .load ea size (fun off => controlLoadOk off size) with
  | .error o => o
  | .ok (.control off) =>
    if s.me.controlPending off || !s.mayRead (controlSector off) then wait s
    else .next (((s.popAll srcs).deliverNow d (s.myCtx.controlRead off size) size signed).retire)
  | .ok p =>
    if p.owned.isSome && !s.mayRead (sectorOf p.key) then wait s
    else if s.loadRace p then trap s 25 (eaWord ea)
    else if s.poisonHere p.key then trap s 29 (eaWord ea)
    else if p.owned.isSome || s.destNow d then s.loadNow srcs d p.key size signed
    else s.loadLater srcs d p.key size signed acquire ea

/-- LD and LDS (R131). -/
def scalarLoad (s : State) (d a : Reg) (esz ord : BitVec 2) (imm : BitVec 25) (signed : Bool) : Out :=
  match s.blocked [a] (some d) with
  | some o => o
  | none => loadAt s [a] (.scalar d) (effAddr (s.sval [] a) imm) (eszBytes esz) signed (decide (ord = 1#2))

/-- LD: zero-extended (R131). -/
def execLd (d a : Reg) (esz ord : BitVec 2) (_scope : BitVec 3) (imm : BitVec 25) (s : State) : Out :=
  scalarLoad s d a esz ord imm false

/-- LDS: sign-extended (R131). -/
def execLds (d a : Reg) (esz ord : BitVec 2) (_scope : BitVec 3) (imm : BitVec 25) (s : State) : Out :=
  scalarLoad s d a esz ord imm true

/-- LD64: the 64 bytes at ea into a vector register or stream port (R133). -/
def execLd64 (d a : Reg) (ord : BitVec 2) (_scope : BitVec 3) (imm : BitVec 25) (s : State) : Out :=
  match s.vblocked [a] none [] none (some d.toNat) with
  | some o => o
  | none => loadAt s [a] (.vector d.toNat) (effAddr (s.sval [] a) imm) 64 false (decide (ord = 1#2))

/-! ### Stores -/

/-- The release scope of a store's modifiers, none for a plain store (R322). -/
def releaseOf (ord : BitVec 2) (scope : BitVec 3) : Option Nat := if ord.getLsbD 1 then some scope.toNat else none

/-- What a store waits for before it drains: a release for every earlier access, a plain store for the acquire loads
before it (R321, R322). -/
def State.storeAfter (s : State) (release : Option Nat) : List Nat :=
  match release with
  | some _ => s.past s.cur.core
  | none => (s.me.loads.filter (·.acquire)).map (·.id)

/-- Appends an entry to the store buffer of the core whose turn it is (R321 Retire). -/
def State.buffer (s : State) (target : StoreTarget) (sector : Nat) (release : Option Nat) (owned : Option Nat) (quad : Bool) :
    State :=
  let e : StoreEntry := { id := s.fresh, target := target, sector := sector, release := release, after := s.storeAfter release, owned := owned, quad := quad }
  s.updMe fun k => { k with stores := k.stores ++ [e] }

/-- ST (R131): the size comes from ESZ, the data from field D, read after A (R27). A store to a barrier object narrower than the
object writes its own bytes (R152; log 78, DESIGN CHOICE). -/
def execSt (d a : Reg) (esz ord : BitVec 2) (scope : BitVec 3) (imm : BitVec 25) (s : State) : Out :=
  match s.blocked [a, d] none with
  | some o => o
  | none =>
    let ea := effAddr (s.sval [] a) imm
    let size := eszBytes esz
    let v := s.sval [a] d
    let rel := releaseOf ord scope
    match s.place .store ea size (fun off => controlStoreOk s.cur.core.role off size) with
    | .error o => o
    | .ok (.control off) =>
      if !controlValueOk off v then trap s 7 (eaWord ea)
      else if s.me.member.active && !s.me.trapMode && decide (0x1000 ≤ off) && decide (off < 0x1100) then
        let op : Collected := .semStore ((off - 0x1000) / 8) (v.setWidth 8)
        .next (((s.popAll [a, d]).updMe fun k => { k with member := { k.member with ops := k.member.ops ++ [op] } }).retire)
      else .next (((s.buffer (.control off v) (controlSector off) rel none false).bump).finishNone [a, d])
    | .ok p =>
      if s.storeRace p then trap s 26 (eaWord ea)
      else if s.poisonHere p.key then trap s 29 (eaWord ea)
      else
        let cells := cellsFrom p.key (natToBytes size v.toNat)
        .next (((s.buffer (.mem cells) (sectorOf p.key) rel p.owned false).bump).finishNone [a, d])

/-- The four 16-byte entries of a 64-byte store, each single-copy atomic and clearing the poison of its quarter (R100, R133). -/
def State.buffer64 (s : State) (key : Nat) (v : Vec) (rel : Option Nat) (owned : Option Nat) : State :=
  [0, 1, 2, 3].foldl (fun s i =>
    let cells := cellsFrom (key + 16 * i) (natToBytes 16 (vecBytes v (16 * i) 16))
    s.buffer (.mem cells) (sectorOf key) rel owned true) s

/-! ### Atomics (R134, R135, R323, R336) -/

/-- The new value of an atomic: the functions of R134 at a width in bits; none leaves memory untouched. -/
def amoNew (fn : Nat) (w : Nat) (m b c : BitVec w) : Option (BitVec w) :=
  match fn with
  | 0 => some b
  | 1 => some (m + b)
  | 2 => some (m &&& b)
  | 3 => some (m ||| b)
  | 4 => some (m ^^^ b)
  | 5 => some (if m.toInt ≤ b.toInt then m else b)
  | 6 => some (if m.toInt ≤ b.toInt then b else m)
  | 7 => some (if m.toNat ≤ b.toNat then m else b)
  | 8 => some (if m.toNat ≤ b.toNat then b else m)
  | _ => if m = c then some b else none

/-- The new value as a number, by width. -/
def amoNat (fn : Nat) (wide : Bool) (m : Nat) (b c : Word) : Option Nat :=
  if wide then (amoNew fn 64 (BitVec.ofNat 64 m) b c).map (·.toNat)
  else (amoNew fn 32 (BitVec.ofNat 32 m) (b.setWidth 32) (c.setWidth 32)).map (·.toNat)

/-- The narrowest instance that holds the cell and the memory of a location: a cluster's vault is its own (R9, R318, R323). -/
def atomicScope (cell key : Nat) : Nat :=
  if isCellKey key then (if keyCell key = cell then 0 else if keyCell key / 16 = cell / 16 then 1 else 2)
  else if key / 2 ^ 52 = 1 ∧ key % 2 ^ 52 / 2 ^ 27 = cell / 16 then 1
  else 2

/-- Bytes of an atomic's access. -/
def amoSize (wide : Bool) : Nat := if wide then 8 else 4

/-- Applies an atomic, access `id`, at a key: reads the coherence-last value, appends its own write (R323); answers the state and D. -/
def State.amoApply (s : State) (id fn : Nat) (wide : Bool) (key : Nat) (b c : Word) (owner : Owner) (cell scope : Nat) :
    State × Word :=
  let m := s.natLast key (amoSize wide)
  let s1 := match amoNat fn wide m b c with
    | none => s
    | some v => (s.addWrite id (cellsFrom key (natToBytes (amoSize wide) v)) cell owner scope).bump
  (s1, extend m (amoSize wide) (!wide))

/-- Collects an operation for the boundary (R340). -/
def State.collect (s : State) (op : Collected) : State :=
  s.updMe fun k => { k with member := { k.member with ops := k.member.ops ++ [op] } }

/-- Marks D pending until the boundary (R340); a queue code as D stays closed to other pushes until then (log 27, DEDUCED). -/
def State.pendBoundary (s : State) (d : Reg) : State :=
  if d = 0#6 then s else s.updMe fun k => { k with pending := k.pending ++ [{ reg := .x d.toNat, source := .boundary }] }

/-- Whether a FENCE.REL or FENCE.AR of the core still waits: no later atomic passes it (R136; log 77, DEDUCED). -/
def Core.fenceWaits (k : Core) : Bool := k.stores.any fun e => decide (e.target = .fence)

/-- Whether a core has retired a load, not yet performed, of a byte of n bytes at a key. -/
def Core.readsAt (k : Core) (key n : Nat) : Bool := k.loads.any fun l => decide (l.addr < key + n) && decide (key < l.addr + l.size)

/-- Whether the core's own accesses in its cell let an atomic at its head be performed at n bytes of a key: no store-buffer entry touches
its sector (R321 Atomic), no acquire load is unperformed (R322), no fence waits (R136; log 77, DEDUCED), and no earlier load of the
same bytes is outstanding. -/
def Core.atomicReady (k : Core) (key n : Nat) : Bool :=
  !k.fenceWaits && (k.stores.all fun e => decide (e.sector ≠ sectorOf key)) && (k.loads.all fun l => !l.acquire) && !k.readsAt key n

/-- The same with the core's remote loads, of which none is outstanding at these bytes. -/
def State.atomicReady (s : State) (key n : Nat) : Bool :=
  s.me.atomicReady key n && !s.remoteBefore s.cur.core s.fresh fun a => decide (key ≤ a) && decide (a < key + n)

/-- An atomic at the head, with its operands read (R130, R134, R323, R336, R340): on a poisoned sector it appends the marker, which sets
WRITTEN as any write does, and writes nothing else (R332, R336). A member's atomic that is not collected waits for the acquires that are,
and a release for every collected access (R322, R323; log 96, DEDUCED). -/
def amoAt (s : State) (fn : Nat) (srcs : List Reg) (d : Reg) (addr b c : Word) (esz ord : BitVec 2) (scope : BitVec 3) : Out :=
  let ea := (addr.setWidth 48).toNat
  let wide := decide (esz = 3#2)
  match s.place .atomic ea (amoSize wide) (fun _ => false) with
  | .error o => o
  | .ok p =>
    let sector := sectorOf p.key
    if s.storeRace p then trap s 26 (eaWord ea)
    else if s.inGroup && (match p with | .page e _ _ => pteD e | _ => false) then
      if s.poisonHere p.key then trap s 29 (eaWord ea)
      else
        let dst : Option RegName := if d = 0#6 then none else some (.x d.toNat)
        let order : AmoOrder := { id := s.fresh, release := releaseOf ord scope, acquire := ord.getLsbD 0 }
        .next (((((s.collect (.amo fn wide p.key b c dst (eaWord ea) p.owned order)).bump).pendBoundary d).popAll srcs).retire)
    else if s.inGroup && (s.me.acquiring || (ord.getLsbD 1 && !s.me.collected.isEmpty)) then waitCollected s
    else if !s.atomicReady p.key (amoSize wide) then wait s
    else if ord.getLsbD 1 && !s.allSettled scope.toNat then wait s
    else
      let base := atomicScope s.myCell p.key
      let sc := if ord.getLsbD 1 then max base scope.toNat else base
      if s.poisonedLast sector then
        trap ((s.addMarker s.fresh [sector] s.myCell (.core s.cur.core) sc).bump.markWritten p.owned) 29 (eaWord ea)
      else
      let r := s.amoApply s.fresh fn wide p.key b c (.core s.cur.core) s.myCell sc
      let s1 := if (amoNat fn wide (s.natLast p.key (amoSize wide)) b c).isSome then r.1.markWritten p.owned else r.1
      .next (s1.finish srcs d r.2)

/-- An atomic of two sources. -/
def amo2 (s : State) (fn : Nat) (d a b : Reg) (esz ord : BitVec 2) (scope : BitVec 3) : Out :=
  match s.blocked [a, b] (some d) with
  | some o => o
  | none => amoAt s fn [a, b] d (s.sval [] a) (s.sval [a] b) 0 esz ord scope

/-- AMOSWAP (R134). -/
def execAmoswap (d a b : Reg) (esz ord : BitVec 2) (scope : BitVec 3) (s : State) : Out := amo2 s 0 d a b esz ord scope

/-- AMOADD (R134). -/
def execAmoadd (d a b : Reg) (esz ord : BitVec 2) (scope : BitVec 3) (s : State) : Out := amo2 s 1 d a b esz ord scope

/-- AMOAND (R134). -/
def execAmoand (d a b : Reg) (esz ord : BitVec 2) (scope : BitVec 3) (s : State) : Out := amo2 s 2 d a b esz ord scope

/-- AMOOR (R134). -/
def execAmoor (d a b : Reg) (esz ord : BitVec 2) (scope : BitVec 3) (s : State) : Out := amo2 s 3 d a b esz ord scope

/-- AMOXOR (R134). -/
def execAmoxor (d a b : Reg) (esz ord : BitVec 2) (scope : BitVec 3) (s : State) : Out := amo2 s 4 d a b esz ord scope

/-- AMOMIN (R134). -/
def execAmomin (d a b : Reg) (esz ord : BitVec 2) (scope : BitVec 3) (s : State) : Out := amo2 s 5 d a b esz ord scope

/-- AMOMAX (R134). -/
def execAmomax (d a b : Reg) (esz ord : BitVec 2) (scope : BitVec 3) (s : State) : Out := amo2 s 6 d a b esz ord scope

/-- AMOMINU (R134). -/
def execAmominu (d a b : Reg) (esz ord : BitVec 2) (scope : BitVec 3) (s : State) : Out := amo2 s 7 d a b esz ord scope

/-- AMOMAXU (R134). -/
def execAmomaxu (d a b : Reg) (esz ord : BitVec 2) (scope : BitVec 3) (s : State) : Out := amo2 s 8 d a b esz ord scope

/-- AMOCAS: memory is left untouched when m ≠ c (R134). -/
def execAmocas (d a b c : Reg) (esz ord : BitVec 2) (scope : BitVec 3) (s : State) : Out :=
  match s.blocked [a, b, c] (some d) with
  | some o => o
  | none => amoAt s 9 [a, b, c] d (s.sval [] a) (s.sval [a] b) (s.sval [a, b] c) esz ord scope

/-! ### Fences -/

/-- FENCE (R136): ACQ waits until every earlier load, remote ones among them, has its value; REL leaves a mark that no later store or
atomic passes until every earlier access is visible at the scope. -/
def execFence (ord : BitVec 2) (scope : BitVec 3) (s : State) : Out :=
  if ord.getLsbD 0 && (!s.me.loads.isEmpty || !(s.remote s.cur.core fun _ => true).isEmpty) then wait s
  else if ord.getLsbD 1 then
    .next (((s.buffer .fence (2 ^ 61) (some scope.toNat) none false).bump).retire)
  else .next s.retire

/-! ### PERFORM, DRAIN, WIDEN (R321) -/

/-- The bytes of an outstanding load: those of an LD64 that it has read in parts (R133), the others as it reads them now. -/
def State.outBytes (s : State) (p : CoreRef) (l : OutLoad) : List Byte :=
  (span l.addr l.size).map fun a => (cellAt l.got a).getD ((bufferByte (s.coreOf p).stores l.id a).getD (s.byteFor (.cell p.cell) a))

/-- The addresses that an outstanding load has still to read. -/
def OutLoad.rest (l : OutLoad) : List Nat := (span l.addr l.size).filter fun a => (cellAt l.got a).isNone

/-- An LD64 reads one aligned 16 bytes before the others: the access is single-copy atomic for 16 bytes and not for 64 (R133). -/
def performPart (s : State) (p : CoreRef) (l : OutLoad) (part : Nat) : State :=
  let addrs := (span (l.addr + 16 * part) 16).filter fun a => l.rest.contains a
  if l.size ≠ 64 ∨ 4 ≤ part ∨ s.consumes p l.id (sectorOf l.addr) then s
  else
    let cells := addrs.zip (s.loadBytes p l.id addrs)
    (s.noteRead p l.id addrs).updCore p fun k =>
      { k with loads := k.loads.map fun m => if m.id = l.id then { m with got := m.got ++ cells } else m }

/-- Performs the load at a place of the list of outstanding loads (R320, R321). A sector that has become poisoned since
the load retired gives a deferred cause 29 (log 9, DEDUCED). -/
def performLoad (s : State) (p : CoreRef) (l : OutLoad) : State :=
  let s1 := s.updCore p fun k => { k with loads := k.loads.filter fun m => decide (m.id ≠ l.id) }
  if !l.rest.isEmpty && s.consumes p l.id (sectorOf l.addr) then
    (s1.updCore p fun k => { k with pending := k.pending.filter fun q => decide (some q.reg ≠ l.dst) }).postEvent p 29 (l.ea.setWidth 64)
  else
    let v := bytesToNat (s.outBytes p l)
    (s1.noteRead p l.id l.rest).updCore p fun k => k.landLoad l.dst v l.size l.signed

/-- PERFORM: outstanding load `index` of a core, where R321 permits it; with `flag`, part `slot` of an LD64 (R133). -/
def execPerform (s : State) : Out :=
  let p := s.args.core
  match (s.coreOf p).loads[s.args.index]? with
  | none => .next s
  | some l =>
    if s.mayPerform p l.id (sectorOf l.addr) then
      .next (if s.args.flag then performPart s p l s.args.slot else performLoad s p l)
    else .next s

/-- Whether a store-buffer entry writes a byte at a key that a test accepts. -/
def StoreEntry.writesAt (e : StoreEntry) (hit : Nat → Bool) : Bool :=
  match e.target with
  | .mem cells => cells.any fun c => hit c.1
  | _ => false

/-- Whether a store-buffer entry writes a byte that an outstanding load reads. -/
def StoreEntry.meets (e : StoreEntry) (l : OutLoad) : Bool := e.writesAt fun a => decide (l.addr ≤ a) && decide (a < l.addr + l.size)

/-- Whether store-buffer entry `i` of a core may drain (R321): it passes no earlier load of the bytes that it writes, and the
parts of one 64-byte store are in no order among themselves (R133; log 20, DEDUCED). -/
def State.mayDrain (s : State) (p : CoreRef) (i : Nat) (e : StoreEntry) : Bool :=
  let k := s.coreOf p
  let older := (k.stores.take i).filter fun o => decide (o.id ≠ e.id)
  (k.loads.all fun l => !decide (l.id < e.id) || !e.meets l) && !s.remoteBefore p e.id (fun a => e.writesAt fun b => decide (b = a)) &&
    match e.release with
    | some sc => older.isEmpty && s.settled p (e.after.filter fun n => decide (n ≠ e.id)) sc
    | none =>
      (older.all fun o => o.release.isNone && decide (o.sector ≠ e.sector)) &&
        (k.loads.all fun l => !e.after.contains l.id)

/-- The write that a drained entry of bytes makes, visible at cell scope (R321). -/
def drainWrite (p : CoreRef) (e : StoreEntry) (cells : List Host.Cell) : Write :=
  { id := e.id, data := cells, cell := p.cell, owner := .core p, scope := 0, top := topOf ((cells.map Prod.fst).headD 0)
    marks := if e.quad then (cells.take 1).map fun c => (quarterOf c.1, false) else [], quad := if e.quad then some e.sector else none }

/-- Removes entry `i` of a core's store buffer. -/
def State.dropStore (s : State) (p : CoreRef) (i : Nat) : State :=
  s.updCore p fun k => { k with stores := k.stores.eraseIdx i }

/-- DRAIN: entry `index` of a core joins the coherence order, visible at cell scope (R321, R332). -/
def execDrain (s : State) : Out :=
  let p := s.args.core
  match (s.coreOf p).stores[s.args.index]? with
  | none => .next s
  | some e =>
    if s.mayDrain p s.args.index e then
      match e.target with
      | .mem cells => .next (((s.dropStore p s.args.index).append (drainWrite p e cells)).markWritten e.owned)
      | .fence => .next (s.dropStore p s.args.index)
      | .control _ _ => .next s
    else .next s

/-- WIDEN: write `index` becomes visible at the next wider scope (R321). -/
def execWiden (s : State) : Out :=
  match s.writes[s.args.index]? with
  | none => .next s
  | some w =>
    let ws := s.writes.modify s.args.index fun v => { v with scope := min w.top (w.scope + 1) }
    .next { s with writes := ws }.settle

end Sys2Proof.Machine
end

