-- ==== Sys2Proof/Machine/Fetch.lean ====
section
/-! DEFINITION. Fetching instruction bytes (R17, R18, checks 1 and 2 of R33). -/

namespace Sys2Proof.Machine

/-- What a fetch finds. -/
inductive Fetched where
  /-- the bytes from the address to the end of its 32-byte block, at most 16, as a little-endian word -/
  | word (w : BitVec 128)
  /-- a refusal: cause 12, 1 or 29 -/
  | trap (cause : Nat)
  | miss
  deriving DecidableEq, Repr

/-- The bytes of a fetched block from an address whose key is known (R18). -/
def State.fetchKey (s : State) (p : CoreRef) (addr key : Nat) : Fetched :=
  if s.poisonedFor (.cell p.cell) (sectorOf key) then .trap 29
  else .word (BitVec.ofNat 128 (s.natFor (.cell p.cell) (span key (min 16 (32 - addr % 32)))))

/-- Fetches at an address for a core (checks 1 and 2 of R33; R82). -/
def State.fetch (s : State) (p : CoreRef) (addr : VAddr) : Fetched :=
  let a := addr.toNat
  match p.role with
  | .s => s.fetchKey p a (superKey (p.cell / 16) a)
  | _ =>
    match regionOf a with
    | .spad => s.fetchKey p a (cellKey p.cell a)
    | .translated =>
      let ctx := (s.residentIn p.cell).getD 0
      match s.transFor p ctx a with
      | .miss => .miss
      | .fail => .trap 12
      | .leaf e l => if s.reaches e l a .fetch then s.fetchKey p a (leafKey e l a) else .trap 1
    | _ => .trap 1

/-- LEN in bytes of a fetched word (R17). -/
def wordLen (w : BitVec 128) : Nat := lenBytes (w.extractLsb' 0 2)

end Sys2Proof.Machine
end

