-- ==== Sys2Proof/Machine/Float.lean ====
section
/-! DEFINITION. Number formats, exact values and the one rounding procedure (R181 to R189, R194, R195, R198), and the exact
operations of the vector and matrix units (R216, R228, R229). -/

namespace Sys2Proof.Machine

/-! ### Values -/

/-- An exact value: NaN, infinity, or (−1)^neg × m × 2^e, which keeps the sign of zero (R183 to R189). -/
inductive Val where
  | nan (signalling : Bool)
  | inf (neg : Bool)
  | num (neg : Bool) (m : Nat) (e : Int)
  deriving DecidableEq, Repr

/-- Whether a value is NaN. -/
def Val.isNan : Val → Bool
  | .nan _ => true
  | _ => false

/-- Whether a value is a signalling NaN. -/
def Val.isSnan : Val → Bool
  | .nan sig => sig
  | _ => false

/-- Whether a value is infinite. -/
def Val.isInf : Val → Bool
  | .inf _ => true
  | _ => false

/-- Whether a value is zero. -/
def Val.isZero : Val → Bool
  | .num _ m _ => decide (m = 0)
  | _ => false

/-- The sign of a value. -/
def Val.neg : Val → Bool
  | .nan _ => false
  | .inf n => n
  | .num n _ _ => n

/-- The value with its sign turned. -/
def Val.negate : Val → Val
  | .nan q => .nan q
  | .inf n => .inf (!n)
  | .num n m e => .num (!n) m e

/-- A finite value as an integer number of units 2^s, for s at most its exponent. -/
def Val.units (v : Val) (s : Int) : Int :=
  match v with
  | .num n m e => (if n then -1 else 1) * ((m * 2 ^ (e - s).toNat : Nat) : Int)
  | _ => 0

/-- The exponent of a finite value. -/
def Val.exp : Val → Int
  | .num _ _ e => e
  | _ => 0

/-- The value of an integer number of units 2^s. -/
def ofUnits (n s : Int) : Val := .num (decide (n < 0)) n.natAbs s

/-- An integer as a value. -/
def ofInt (n : Int) : Val := ofUnits n 0

/-- The exact sum of two finite values; the sign of an exact zero is the caller's. -/
def addFin (a b : Val) : Val :=
  let s := min a.exp b.exp
  ofUnits (a.units s + b.units s) s

/-- The exact product of two finite values. -/
def mulFin (a b : Val) : Val :=
  match a, b with
  | .num n1 m1 e1, .num n2 m2 e2 => .num (n1 != n2) (m1 * m2) (e1 + e2)
  | _, _ => .nan false

/-- The exact sum of finite values, from a start. -/
def sumFin (start : Val) (vs : List Val) : Val := vs.foldl addFin start

/-! ### Formats -/

/-- A destination of rounding (R183 to R185, R188). `narrow` floats have a hidden one at E = 0 too and no negative
zero. `maxCode` is the magnitude code of the largest finite value. -/
inductive Fmt where
  | ieee (w ebits mbits : Nat) (bias : Int) (maxCode : Nat)
  | narrow (w mbits : Nat) (bias : Int) (maxCode : Nat) (hasInf : Bool) (nan : Option Nat)
  | int (w : Nat) (lo hi : Int)
  deriving DecidableEq, Repr

/-- FP32. -/
def fp32 : Fmt := .ieee 32 8 23 127 0x7F7FFFFF

/-- INT32 as a destination (R235). -/
def int32 : Fmt := .int 32 (-2 ^ 31) (2 ^ 31 - 1)

/-- The element format of a format code (R181): the block-scaled codes give their elements, the quantised codes their
unsigned codes. -/
def fmtOf (code : Nat) : Option Fmt :=
  match code with
  | 0 => some fp32
  | 1 => some (.ieee 16 5 10 15 0x7BFF)
  | 2 => some (.ieee 16 8 7 127 0x7F7F)
  | 3 => some (.narrow 8 3 8 0x7E false (some 0x7F))
  | 4 => some (.narrow 8 2 16 0x7B true (some 0x7E))
  | 5 => some (.narrow 6 2 4 0x1F false none)
  | 6 => some (.narrow 6 3 2 0x1F false none)
  | 7 => some (.narrow 4 1 1 0x7 false none)
  | 8 => some (.narrow 8 3 8 0x7E false (some 0x7F))
  | 9 => some (.narrow 4 1 1 0x7 false none)
  | 10 => some (.int 8 (-128) 127)
  | 11 => some (.int 8 0 255)
  | 12 => some (.int 4 (-8) 7)
  | 13 => some (.int 4 0 15)
  | 14 => some (.int 8 0 255)
  | 15 => some (.int 8 0 255)
  | 16 => some (.int 8 0 255)
  | 17 => some (.int 4 0 15)
  | 18 => some (.int 4 0 15)
  | 19 => some (.int 4 0 15)
  | _ => none

/-- Width in bits of a format code (R181). -/
def fmtWidth (code : Nat) : Nat :=
  match fmtOf code with
  | some (.ieee w _ _ _ _) => w
  | some (.narrow w _ _ _ _ _) => w
  | some (.int w _ _) => w
  | none => 0

/-- Whether a code is block-scaled (R181). -/
def isBlockFmt (code : Nat) : Bool := decide (code = 8) || decide (code = 9)

/-- Whether a code is quantised (R181). -/
def isQuantFmt (code : Nat) : Bool := decide (14 ≤ code) && decide (code ≤ 19)

/-- Group or block size of a code, 0 where it has none (R181). -/
def groupSize (code : Nat) : Nat :=
  match code with
  | 8 => 32
  | 9 => 32
  | 14 => 32
  | 15 => 64
  | 16 => 128
  | 17 => 32
  | 18 => 64
  | 19 => 128
  | _ => 0

/-- Bytes of a group parameter entry (R158). -/
def paramSize (code : Nat) : Nat := if isQuantFmt code then 4 else if isBlockFmt code then 1 else 0

/-- Decodes a code of a float or integer format (R183, R184, R188). -/
def decodeFmt (f : Fmt) (code : Nat) : Val :=
  match f with
  | .ieee w ebits mbits bias _ =>
    let neg := decide (2 ^ (w - 1) ≤ code)
    let e := code / 2 ^ mbits % 2 ^ ebits
    let m := code % 2 ^ mbits
    if e = 2 ^ ebits - 1 then (if m = 0 then .inf neg else .nan (decide (m < 2 ^ (mbits - 1))))
    else if e = 0 then .num neg m (1 - bias - mbits)
    else .num neg (2 ^ mbits + m) ((e : Int) - bias - mbits)
  | .narrow w mbits bias _ hasInf nan =>
    let neg := decide (2 ^ (w - 1) ≤ code)
    let mag := code % 2 ^ (w - 1)
    let e := mag / 2 ^ mbits
    let m := mag % 2 ^ mbits
    if code = 0 then .num false 0 0
    else if hasInf && decide (e = 2 ^ (w - 1 - mbits) - 1) then (if m = 0 then .inf neg else .nan false)
    else if !hasInf && decide (nan = some mag) then .nan false
    else .num neg (2 ^ mbits + m) ((e : Int) - bias - mbits)
  | .int w lo _ => if lo < 0 ∧ 2 ^ (w - 1) ≤ code then ofInt ((code : Int) - 2 ^ w) else ofInt code

/-- An FP32 lane as a value (R223). -/
def fp (x : BitVec 32) : Val := decodeFmt fp32 x.toNat

/-! ### Element values of every format code (R187 to R189) -/

/-- The value s × (q − z) of a quantised element (R189). An exact zero has the sign of the IEEE product, with q − z = 0 as +0 (log 111,
DESIGN CHOICE). -/
def quantVal (scale : Val) (d : Int) : Val :=
  match scale with
  | .nan sig => .nan sig
  | .inf neg => if d = 0 then .nan false else .inf (neg != decide (d < 0))
  | .num _ _ _ => mulFin scale (ofInt d)

/-- The value 2^(X − 127) × v of a block-scaled element (R187). -/
def blockVal (x : Nat) (v : Val) : Val :=
  if x = 255 then .nan false
  else
    match v with
    | .num neg m e => .num neg m (e + x - 127)
    | _ => v

/-- The zero point of a parameter entry of a quantised format (R158, R189). -/
def zeroPoint (code param : Nat) : Nat := param / 2 ^ 16 % 2 ^ fmtWidth code

/-- The scale of a parameter entry of a quantised format (R158, R189). -/
def quantScale (param : Nat) : Val :=
  match fmtOf 1 with
  | some f => decodeFmt f (param % 2 ^ 16)
  | none => .nan false

/-- The value of an element of a format, with its group's parameter entry (R183 to R189). -/
def elemVal (code bits param : Nat) : Val :=
  match fmtOf code with
  | none => .nan false
  | some f =>
    if isQuantFmt code then quantVal (quantScale param) ((bits : Int) - zeroPoint code param)
    else if isBlockFmt code then blockVal (param % 256) (decodeFmt f bits)
    else decodeFmt f bits

/-! ### Rounding -/

/-- The random word of element j under a seed and a key (R198). -/
def rnd (seed key : Word) (j : Nat) : Nat :=
  let z0 := seed ^^^ (key * 0x9E3779B97F4A7C15#64) ^^^ (BitVec.ofNat 64 j * 0xD1B54A32D192ED03#64)
  let z1 := (z0 ^^^ (z0 >>> 30)) * 0xBF58476D1CE4E5B9#64
  let z2 := (z1 ^^^ (z1 >>> 27)) * 0x94D049BB133111EB#64
  let z3 := z2 ^^^ (z2 >>> 31)
  (z3.extractLsb' 32 32).toNat

/-- How a rounding chooses: the mode, and the random word for SR. -/
structure Choice where
  mode : RMode
  random : Nat
  deriving DecidableEq, Repr

/-- Whether the neighbour away from zero is chosen (R194): `rem` of `gap` lies beyond the neighbour nearer zero, whose
code has bit 0 = `odd`. -/
def Choice.up (c : Choice) (neg odd : Bool) (rem gap : Nat) : Bool :=
  if rem = 0 then false
  else
    match c.mode with
    | .rtz => false
    | .rup => !neg
    | .rdn => neg
    | .rne => decide (gap < 2 * rem) || (decide (gap = 2 * rem) && odd)
    | .rna => decide (gap ≤ 2 * rem)
    | .sr => decide (c.random < rem * 2 ^ 32 / gap)

/-- ⌊log2 m⌋ for m > 0. -/
def log2 (m : Nat) : Nat := Nat.log2 m

/-- The answer of a rounding: the code and the flags (R194, R195). -/
structure Rounded where
  code : Nat
  flags : Flags
  deriving DecidableEq, Repr

/-- Units of 2^q in m × 2^e: how many, and the remainder of one unit of `gap` parts. -/
def inUnits (m : Nat) (e q : Int) : Nat × Nat × Nat :=
  if q ≤ e then (m * 2 ^ (e - q).toNat, 0, 1)
  else
    let d := 2 ^ (q - e).toNat
    (m / d, m % d, d)

/-- Rounds a non-zero magnitude to an IEEE format: the magnitude code and the flags (R194, R195). -/
def roundIeee (ebits mbits : Nat) (bias : Int) (maxCode : Nat) (neg : Bool) (m : Nat) (e : Int) (c : Choice) : Rounded :=
  let top : Int := (log2 m : Int) + e
  let tiny := decide (top < 1 - bias)
  let emax : Int := 2 ^ ebits - 2 - bias
  let q : Int := if tiny then 1 - bias - mbits else min top emax - mbits
  let u := inUnits m e q
  let base : Int := if tiny then 0 else (min top emax + bias - 1) * 2 ^ mbits
  let beyond := decide (emax < top)
  -- beyond the largest binade the neighbour nearer zero is the largest finite value
  let lo : Nat := if beyond then maxCode else (base + u.1).toNat
  let rem : Nat := if beyond then (u.1 - (2 ^ (mbits + 1) - 1)) * u.2.2 + u.2.1 else u.2.1
  let up := c.up neg (lo % 2 = 1) rem u.2.2
  let code := if up then lo + 1 else lo
  let inexact := decide (rem ≠ 0)
  { code := code
    flags := (if maxCode < code then flagOF else 0) ||| (if tiny && inexact then flagUF else 0) ||| (if inexact then flagNX else 0) }

/-- Rounds a non-zero magnitude to a narrow float, sign included in the code (R194, R195). -/
def roundNarrow (w mbits : Nat) (bias : Int) (maxCode : Nat) (hasInf neg : Bool) (m : Nat) (e : Int) (c : Choice) : Rounded :=
  let signBit := if neg then 2 ^ (w - 1) else 0
  let top : Int := (log2 m : Int) + e
  let least : Nat := if neg then 2 ^ mbits else 2 ^ mbits + 1
  let q0 : Int := -bias - mbits
  let s := min e q0
  let mag := m * 2 ^ (e - s).toNat
  let least' := least * 2 ^ (q0 - s).toNat
  if mag < least' then
    -- between zero and the least magnitude of this sign (R186)
    let up := c.up neg false mag least'
    { code := if up then (if neg then signBit else 1) else 0, flags := flagUF ||| flagNX }
  else
    let emax : Int := (maxCode / 2 ^ mbits : Nat) - bias
    let q : Int := min top emax - mbits
    let u := inUnits m e q
    let maxSig := 2 ^ mbits + maxCode % 2 ^ mbits
    let beyond := decide (emax < top) ||
      (decide (top = emax) && (decide (maxSig < u.1) || (decide (u.1 = maxSig) && decide (u.2.1 ≠ 0))))
    if beyond && !hasInf then { code := signBit + maxCode, flags := flagOF ||| flagNX }
    else
      let lo : Nat := if beyond then maxCode else ((min top emax + bias - 1) * 2 ^ mbits + u.1).toNat
      let rem : Nat := if beyond then (u.1 - maxSig) * u.2.2 + u.2.1 else u.2.1
      let up := c.up neg (lo % 2 = 1) rem u.2.2
      let code := if up then lo + 1 else lo
      { code := signBit + code
        flags := (if maxCode < code then flagOF else 0) ||| (if rem ≠ 0 then flagNX else 0) }

/-- Rounds a finite value to an integer of a range (R194, R195). -/
def roundInt (w : Nat) (lo hi : Int) (neg : Bool) (m : Nat) (e : Int) (c : Choice) : Rounded :=
  let u := inUnits m e 0
  let up := c.up neg (u.1 % 2 = 1) u.2.1 u.2.2
  let mag : Int := ((if up then u.1 + 1 else u.1 : Nat) : Int)
  let v := if neg then -mag else mag
  let out (x : Int) : Nat := (x % 2 ^ w).toNat
  if v < lo then { code := out lo, flags := flagNV }
  else if hi < v then { code := out hi, flags := flagNV }
  else { code := out v, flags := if u.2.1 ≠ 0 then flagNX else 0 }

/-- round(v, F, mode, j) with its flags (R194, R195). An infinity becomes the end of an integer format's range on its own side: minus
infinity its least value, 0 for an unsigned one (log 110, DESIGN CHOICE). -/
def round (v : Val) (f : Fmt) (c : Choice) : Rounded :=
  match f with
  | .ieee w ebits mbits bias maxCode =>
    match v with
    | .nan sig => { code := (2 ^ ebits - 1) * 2 ^ mbits + 2 ^ (mbits - 1), flags := if sig then flagNV else 0 }
    | .inf neg => { code := (if neg then 2 ^ (w - 1) else 0) + (2 ^ ebits - 1) * 2 ^ mbits, flags := 0 }
    | .num neg m e =>
      let s := if neg then 2 ^ (w - 1) else 0
      if m = 0 then { code := s, flags := 0 }
      else
        let r := roundIeee ebits mbits bias maxCode neg m e c
        { code := s + r.code, flags := r.flags }
  | .narrow w mbits bias maxCode hasInf nan =>
    match v with
    | .nan sig =>
      match nan with
      | some n => { code := n, flags := if sig then flagNV else 0 }
      | none => { code := 0, flags := flagNV }
    | .inf neg =>
      let s := if neg then 2 ^ (w - 1) else 0
      if hasInf then { code := s + maxCode + 1, flags := 0 } else { code := s + maxCode, flags := flagNV }
    | .num neg m e => if m = 0 then { code := 0, flags := 0 } else roundNarrow w mbits bias maxCode hasInf neg m e c
  | .int w lo hi =>
    match v with
    | .nan _ => { code := 0, flags := flagNV }
    | .inf neg => { code := ((if neg then lo else hi) % 2 ^ w).toNat, flags := flagNV }
    | .num neg m e => roundInt w lo hi neg m e c

/-- A choice that no random word enters. -/
def plainChoice (mode : RMode) : Choice := { mode := mode, random := 0 }

/-! ### FP32 lane operations -/

/-- An FP32 lane result with its flags. -/
structure Lane where
  bits : BitVec 32
  flags : Flags
  deriving DecidableEq, Repr

/-- The canonical FP32 NaN (R183). -/
def canonNan : BitVec 32 := 0x7FC00000#32

/-- Rounds a value to FP32. -/
def toFp32 (v : Val) (c : Choice) : Lane :=
  let r := round v fp32 c
  { bits := BitVec.ofNat 32 r.code, flags := r.flags }

/-- NV for any signalling NaN among the inputs. -/
def snanFlag (vs : List Val) : Flags := if vs.any Val.isSnan then flagNV else 0

/-- The sign of an exact zero sum (R228, IEEE 754): two zeros of one sign keep it; else −0 under RDN only. -/
def zeroSum (a b : Val) (mode : RMode) : Val :=
  if a.isZero && b.isZero && a.neg == b.neg then .num a.neg 0 0 else .num (decide (mode = .rdn)) 0 0

/-- fp_op(a + b) over values that are already exact (R228). -/
def fpAdd (a b : Val) (mode : RMode) : Lane :=
  let nv := snanFlag [a, b]
  if a.isNan || b.isNan then { bits := canonNan, flags := nv }
  else if a.isInf && b.isInf && a.neg != b.neg then { bits := canonNan, flags := flagNV }
  else if a.isInf then toFp32 a (plainChoice mode)
  else if b.isInf then toFp32 b (plainChoice mode)
  else
    let r := addFin a b
    toFp32 (if r.isZero then zeroSum a b mode else r) (plainChoice mode)

/-- The exact product of two values that are not NaN; none for 0 × ∞. -/
def mulVal (a b : Val) : Option Val :=
  if (a.isInf && b.isZero) || (a.isZero && b.isInf) then none
  else if a.isInf || b.isInf then some (.inf (a.neg != b.neg))
  else some (mulFin a b)

/-- fp_op(a × b) (R228). -/
def fpMul (a b : Val) (mode : RMode) : Lane :=
  let nv := snanFlag [a, b]
  if a.isNan || b.isNan then { bits := canonNan, flags := nv }
  else
    match mulVal a b with
    | none => { bits := canonNan, flags := flagNV }
    | some p => toFp32 p (plainChoice mode)

/-- fp_op(a × b + c), one rounding (R228). -/
def fpFma (a b c : Val) (mode : RMode) : Lane :=
  let nv := snanFlag [a, b, c]
  if a.isNan || b.isNan || c.isNan then
    -- 0 × ∞ raises nothing more once an input is NaN: the NaN answers first (R228)
    { bits := canonNan, flags := nv }
  else
    match mulVal a b with
    | none => { bits := canonNan, flags := flagNV }
    | some p => fpAdd p c mode

/-- Order of finite values and infinities, −0 below +0 (R228). -/
def leVal (a b : Val) : Bool :=
  match a, b with
  | .inf true, _ => true
  | _, .inf false => true
  | .inf false, _ => false
  | _, .inf true => false
  | .num n1 m1 e1, .num n2 m2 e2 =>
    if m1 = 0 ∧ m2 = 0 then n1 || !n2
    else
      let s := min e1 e2
      decide ((Val.num n1 m1 e1).units s ≤ (Val.num n2 m2 e2).units s)
  | _, _ => false

/-- Whether two values are equal as numbers, −0 = +0 (R231). -/
def eqVal (a b : Val) : Bool :=
  match a, b with
  | .inf n1, .inf n2 => n1 == n2
  | .num n1 m1 e1, .num n2 m2 e2 =>
    let s := min e1 e2
    decide ((Val.num n1 m1 e1).units s = (Val.num n2 m2 e2).units s)
  | _, _ => false

/-- fp_minmax (R228). -/
def fpMinMax (x y : BitVec 32) (larger : Bool) : Lane :=
  let a := fp x
  let b := fp y
  if a.isNan || b.isNan then { bits := canonNan, flags := snanFlag [a, b] }
  else
    let aLess := leVal a b
    { bits := if aLess != larger then x else y, flags := 0 }

/-! ### VEXP2, VRCP, VRSQ (R229) -/

/-- ⌊ln 2 × 2^320⌋. -/
def ln2Fixed : Nat := 0xb17217f7d1cf79abc9e3b39803f2f6af40f343267298b62d8a0d175b8baafa2be7b876206debac98

/-- Terms of the exponential series at y / 2^320, from term n. -/
def expSeries (y : Nat) : Nat → Nat → Nat → Nat
  | 0, _, _ => 0
  | fuel + 1, n, term => term + expSeries y fuel (n + 1) (term * y / 2 ^ 320 / (n + 1))

/-- 2^f × 2^320 from below for 0 ≤ f < 1 given as f × 2^320 (log 14, DEDUCED). -/
def exp2Fixed (f : Nat) : Nat := expSeries (f * ln2Fixed / 2 ^ 320) 96 0 (2 ^ 320)

/-- VEXP2 of a lane (R229): truncated, exact for integers. -/
def fpExp2 (x : BitVec 32) : Lane :=
  match fp x with
  | .nan sig => { bits := canonNan, flags := if sig then flagNV else 0 }
  | .inf neg => if neg then { bits := 0, flags := 0 } else { bits := 0x7F800000#32, flags := 0 }
  | .num neg m e =>
    if m = 0 then { bits := 0x3F800000#32, flags := 0 }
    else
      -- b in units of 2^-149
      let b : Int := (Val.num neg m e).units (-149)
      let whole : Int := b / 2 ^ 149
      let frac : Nat := (b % 2 ^ 149).toNat
      if 128 ≤ whole then { bits := 0x7F800000#32, flags := flagOF ||| flagNX }
      else if whole < -149 then { bits := 0, flags := flagUF ||| flagNX }
      else if frac = 0 then toFp32 (.num false 1 whole) (plainChoice .rtz)
      else
        -- a set last bit stands for the part that the series leaves off: 2^f is irrational
        toFp32 (.num false (2 * exp2Fixed (frac * 2 ^ 171) + 1) (whole - 321)) (plainChoice .rtz)

/-- VRCP of a lane (R229). -/
def fpRcp (x : BitVec 32) : Lane :=
  match fp x with
  | .nan sig => { bits := canonNan, flags := if sig then flagNV else 0 }
  | .inf neg => { bits := if neg then 0x80000000#32 else 0, flags := 0 }
  | .num neg m e =>
    if m = 0 then { bits := if neg then 0xFF800000#32 else 0x7F800000#32, flags := flagDZ }
    else
      let q := 2 ^ 64 / m
      let v := Val.num neg (2 * q + (if 2 ^ 64 % m = 0 then 0 else 1)) (-65 - e)
      if !leVal (.num false (2 * q + (if 2 ^ 64 % m = 0 then 0 else 1)) (-65 - e)) (fp 0x7F7FFFFF#32) then
        { bits := if neg then 0xFF800000#32 else 0x7F800000#32, flags := flagOF ||| flagNX }
      else toFp32 v (plainChoice .rtz)

/-- ⌊√n⌋ by trying bits from 2^(bits − 1) down. -/
def isqrt (n : Nat) : Nat → Nat → Nat
  | 0, acc => acc
  | bits + 1, acc =>
    let t := acc + 2 ^ bits
    isqrt n bits (if t * t ≤ n then t else acc)

/-- VRSQ of a lane (R229). -/
def fpRsq (x : BitVec 32) : Lane :=
  match fp x with
  | .nan sig => { bits := canonNan, flags := if sig then flagNV else 0 }
  | .inf neg => if neg then { bits := canonNan, flags := flagNV } else { bits := 0, flags := 0 }
  | .num neg m e =>
    if m = 0 then { bits := if neg then 0xFF800000#32 else 0x7F800000#32, flags := flagDZ }
    else if neg then { bits := canonNan, flags := flagNV }
    else
      -- an even exponent, then 1/√(m × 2^e) = √(2^128 / m) × 2^(-64 - e/2)
      let m2 := if e % 2 = 0 then m else 2 * m
      let e2 := if e % 2 = 0 then e else e - 1
      let r := isqrt (2 ^ 128 / m2) 65 0
      let exact := decide (r * r * m2 = 2 ^ 128)
      toFp32 (.num false (2 * r + (if exact then 0 else 1)) (-65 - e2 / 2)) (plainChoice .rtz)

end Sys2Proof.Machine
end

