-- ==== Sys2Proof/Machine/Meet.lean ====
section
/-! DEFINITION. How the cores of a cell meet: queue inspection (R140), stream generators (R141 to R145), semaphores
(R146 to R150) and barrier objects (R151 to R153). -/

namespace Sys2Proof.Machine

/-! ### Queue inspection -/

/-- Entries of a queue as QLEN and QROOM see them: a member answers from the view (R140, R341). -/
def State.queueCount (s : State) (q : Nat) : Nat :=
  if s.inGroup then tget s.myCtx.view.queues 0 q else (s.queue q).length

/-- QLEN and QROOM: either end of the queue may use them, and any other core traps with cause 35 (R137, R140)
(log 72, DEDUCED). -/
def queueInspect (s : State) (d a : Reg) (f : Nat → Nat) : Out :=
  let q := queueOf a
  if queuePopper q ≠ s.cur.core.role ∧ queuePusher q ≠ s.cur.core.role then trap s 35 (a.setWidth 64)
  else alu0 s d (BitVec.ofNat 64 (f (s.queueCount q)))

/-- QLEN (R140). -/
def execQlen (d a : Reg) (s : State) : Out := queueInspect s d a id

/-- QROOM (R140). -/
def execQroom (d a : Reg) (s : State) : Out := queueInspect s d a (8 - ·)

/-- QPEEK: only the popping core, and it waits for an entry, which stays (R140); an entry that could not be popped yet (R139) is waited
for too (log 99, DESIGN CHOICE). -/
def execQpeek (d a : Reg) (s : State) : Out :=
  if queuePopper (queueOf a) ≠ s.cur.core.role then trap s 35 (a.setWidth 64)
  else
    match s.blocked [] (some d) with
    | some o => o
    | none =>
      if s.poppable (queueOf a) 1 then .next (s.finish [] d (s.sval [] a)) else wait s

/-! ### Stream generators -/

/-- The number of the quantum that a context's group runs (R339). -/
def State.quantumOf (s : State) (ctx : Nat) : Nat :=
  match s.context ctx with
  | some c => c.quantum
  | none => 0

/-- The least j below n with p j. -/
def firstBad (p : Nat → Bool) : Nat → Option Nat
  | 0 => none
  | n + 1 =>
    match firstBad p n with
    | some j => some j
    | none => if p n then some n else none

/-- Whether an element address leaves the scratchpad (R143). -/
def badElem (e : Int) : Bool := decide (e < 0) || decide (0x5FFC0 < e)

/-- The least element whose address leaves the scratchpad: the first outer iteration with a bad end, then the first bad
element in it, addresses along an inner iteration being linear (R143). -/
def Stream.firstBadElem (t : Stream) : Option Nat :=
  match firstBad (fun i => badElem (t.elem (i * t.cnt0)) || badElem (t.elem (i * t.cnt0 + (t.cnt0 - 1)))) t.cnt1 with
  | none => none
  | some i => (firstBad (fun k => badElem (t.elem (i * t.cnt0 + k))) t.cnt0).map (i * t.cnt0 + ·)

/-- The stream that STRGO's fields describe (R142). -/
def strgoStream (a : Word) (out core : Bool) (ext : BitVec 64) : Stream :=
  { mode := 1, out := out, coreC := core, base := a
    cnt0 := (ext.extractLsb' 0 16).toNat, stride0 := (ext.extractLsb' 16 16).toInt
    cnt1 := (ext.extractLsb' 32 16).toNat, stride1 := (ext.extractLsb' 48 16).toInt }

/-- STRGO (R142, R143). -/
def execStrgo (a : Reg) (k : BitVec 2) (out core : Bool) (ext : BitVec 64) (s : State) : Out :=
  match s.blocked [a] none with
  | some o => o
  | none =>
    let n := k.toNat
    let v := s.sval [] a
    let t := strgoStream v out core ext
    if (s.stream n).mode ≠ 0 ∨ t.cnt0 = 0 ∨ t.cnt1 = 0 then trap s 33 (BitVec.ofNat 64 n)
    else if v.extractLsb' 0 6 ≠ 0 then trap s 33 v
    else
      match t.firstBadElem with
      | some j => trap s 33 (wrap (t.elem j))
      | none =>
        let s1 := s.updStream n fun _ => { t with after := s.past s.cur.core, quantum := s.quantumOf s.myCtxId }
        .next (s1.finishNone [a])

/-- Whether every element pushed into an OUT stream has been written (R142, R145). -/
def Stream.written (t : Stream) : Bool := !t.out || t.port.isEmpty

/-- STRSTOP: to IDLE; for OUT once every pushed element has been written; an IN port buffer is discarded (R142). -/
def execStrstop (k : BitVec 2) (s : State) : Out :=
  let t := s.stream k.toNat
  if t.mode = 0 then .next s.retire
  else if t.written then .next (s.updStream k.toNat fun _ => {}).retire
  else wait s

/-- STRWAIT (R142). -/
def execStrwait (k : BitVec 2) (s : State) : Out :=
  let t := s.stream k.toNat
  if t.mode = 0 then .next s.retire
  else if t.mode = 2 && t.written then .next (s.updStream k.toNat fun _ => {}).retire
  else wait s

/-- STRCNT (R142). -/
def execStrcnt (d : Reg) (k : BitVec 2) (s : State) : Out :=
  let t := s.stream k.toNat
  alu0 s d (if t.mode = 0 then 0 else BitVec.ofNat 64 (t.total - t.passed))

/-- The numbers of the 64-byte stores to a sector that have a part not yet visible in a cell, once for each such part. -/
def State.hiddenQuads (s : State) (cell sector : Nat) : List Nat :=
  (s.cells.flatMap fun e => ([.a, .x, .c] : List Role).flatMap fun r =>
    ((e.2.ctx.core r).stores.filter fun e => e.quad && decide (e.sector = sector)).map (·.id)) ++
  (s.writes.filter fun w => decide (w.quad = some sector) && !w.visibleTo (.cell cell)).map (·.id)

/-- Whether a cell sees some parts of a 64-byte store to a sector and not the others: no stream element is read then, so that it
never mixes two bytes of one store (R145). -/
def State.torn (s : State) (cell sector : Nat) : Bool :=
  let ids := s.hiddenQuads cell sector
  ids.any fun i => decide (countNat ids i ≠ 4)

/-- STREAM_ELEMENT: the generator `slot` of a cell reads its next IN element into the port buffer, or writes its oldest
OUT element; a poisoned sector marks the element, a written element clears poison (R145). -/
def execStreamElement (s : State) : Out :=
  let cell := s.args.cell
  let k := s.args.slot
  let x := s.ctxOf cell
  let t := tget x.streams {} k
  let put (s : State) (t : Stream) : State := s.updCtx cell fun x => { x with streams := tset x.streams k t }
  if t.mode = 0 then .next s
  else if t.out then
    match t.port with
    | [] => .next s
    | e :: rest =>
      let key := cellKey cell (t.elem t.moved).toNat
      let s1 := (s.addWhole s.fresh (cellsFrom key (natToBytes 64 (e.getD 0).toNat)) cell (.stream cell k) 0).bump
      .next (put s1 { t with port := rest, lids := t.lids.drop 1, moved := t.moved + 1 })
  else if t.moved < t.total ∧ t.port.length < 4 ∧ s.settled ⟨cell, .a⟩ t.after 0 then
    let key := cellKey cell (t.elem t.moved).toNat
    if s.torn cell (sectorOf key) then .next s
    else
      let e : Option Vec :=
        if s.poisonedFor (.cell cell) (sectorOf key) then none else some (BitVec.ofNat 512 (s.natFor (.cell cell) (span key 64)))
      .next (put s { t with port := t.port ++ [e], moved := t.moved + 1 })
  else .next s

/-! ### Semaphores -/

/-- SEMN of the IMM of SEM (R147). -/
def semNum (imm : BitVec 13) : Nat := (imm.extractLsb' 0 5).toNat

/-- N of the IMM of SEM (R147). -/
def semAmount (imm : BitVec 13) : Nat := (imm.extractLsb' 5 8).toNat

/-- COUNT of a semaphore. -/
def CellCtx.sem (x : CellCtx) (n : Nat) : Nat := (tget x.sems 0 n).toNat

/-- Sets COUNT. -/
def CellCtx.setSem (x : CellCtx) (n v : Nat) : CellCtx := { x with sems := tset x.sems n (BitVec.ofNat 8 v) }

/-- The waiter line of a semaphore (R148). -/
def CellCtx.semLine (x : CellCtx) (n : Nat) : List Waiter := (tget x.semLines [] n).map Prod.fst

/-- Whether what the posting cores accessed before these posts is visible at cell scope (R150). -/
def State.seenPosts (s : State) (cell : Nat) (posts : List (Role × List Nat)) : Bool := posts.all fun e => s.settled ⟨cell, e.1⟩ e.2 0

/-- Whether what the posting cores accessed before their posts to a semaphore is visible at cell scope (R150)
(log 60, DEDUCED). -/
def State.postsReady (s : State) (cell n : Nat) : Bool := s.seenPosts cell (tget (s.ctxOf cell).posts [] n)

/-- Notes a core's post (R150). -/
def State.notePost (s : State) (p : CoreRef) (n : Nat) : State :=
  let past := s.past p
  s.updCtx p.cell fun x => { x with posts := tupd x.posts [] n (· ++ [(p.role, past)]) }

/-- The amount is taken: the waiter leaves the line and the posts before it are done with (R147, R148). -/
def CellCtx.takeSem (x : CellCtx) (n amount : Nat) (w : Waiter) : CellCtx :=
  { x.setSem n (x.sem n - amount) with
    semLines := tupd x.semLines [] n (·.filter fun v => decide (v.1 ≠ w)), posts := tdel x.posts n }

/-- The amount is taken, and the waiter passes on once the posts before it are visible (R148, R150; log 60, DEDUCED). -/
def CellCtx.giveSem (x : CellCtx) (n amount : Nat) (w : Waiter) : CellCtx :=
  { x.takeSem n amount w with grants := x.grants ++ [{ who := w, sem := n, amount := amount, posts := tget x.posts [] n }] }

/-- What a waiter has taken of a semaphore and not yet passed on with. -/
def CellCtx.grantOf (x : CellCtx) (n amount : Nat) (w : Waiter) : Option SemGrant :=
  x.grants.find? fun g => decide (g.who = w) && decide (g.sem = n) && decide (g.amount = amount)

/-- The first waiter is examined, and takes its amount if COUNT suffices; then the next, in the cycle after it, up to `fuel` of them
(R148). -/
def CellCtx.examine (x : CellCtx) (n fuel : Nat) : CellCtx :=
  match fuel with
  | 0 => x
  | f + 1 =>
    match tget x.semLines [] n with
    | [] => x
    | e :: _ => if e.2 ≤ x.sem n then (x.giveSem n e.2 e.1).examine n f else x

/-- How many waiters are examined before another operation reaches the semaphore: at least the first (R148; log 98, DESIGN CHOICE). -/
def State.examined (s : State) : Nat := (Config.freeWord s.tick 600).toNat % 4 + 1

/-- A post of a cell's semaphore: COUNT, then the first waiter (R146 to R149). -/
def State.postSem (s : State) (cell n v : Nat) : State := s.updCtx cell fun x => (x.setSem n v).examine n s.examined

/-- Whether a waiter, in the line or not yet, may take an amount: it is first, and COUNT suffices (R148). -/
def CellCtx.mayTake (x : CellCtx) (n amount : Nat) (w : Waiter) : Bool :=
  (match x.semLine n with
    | [] => true
    | v :: _ => decide (v = w)) && decide (amount ≤ x.sem n)

/-- A waiter for an amount joins the end of a line, once (R148). -/
def CellCtx.joinSem (x : CellCtx) (n : Nat) (w : Waiter) (amount : Nat) : CellCtx :=
  { x with semLines := tupd x.semLines [] n fun l => if l.any (fun e => decide (e.1 = w)) then l else l ++ [(w, amount)] }

/-- A boundary wait of a member: collected once, then it waits until the boundary grants it (R340). -/
def boundaryWait (s : State) (op : Collected) (done : Out) : Out :=
  if s.me.member.granted = some op then done
  else if s.me.member.ops.contains op then wait s
  else .next (s.collect op)

/-- SEMW (R147, R148): it takes its amount itself, or stands in the line until a post gives it, and retires once what was accessed before
the posts is visible (R150); collected in deterministic mode (R340). -/
def execSemw (imm : BitVec 13) (s : State) : Out :=
  let n := semNum imm
  let amount := semAmount imm
  let w : Waiter := .core s.cur.core.role
  if s.inGroup then boundaryWait s (.semWait n amount) (.next s.retire)
  else if amount = 0 then .next s.retire
  else
    match s.myCtx.grantOf n amount w with
    | some g => if s.seenPosts s.myCell g.posts then .next (s.updMyCtx (·.dropGrant w)).retire else wait s
    | none =>
      if s.myCtx.mayTake n amount w then
        if s.postsReady s.myCell n then .next (s.updMyCtx (·.takeSem n amount w)).retire else .next (s.updMyCtx (·.giveSem n amount w))
      else .next (s.updMyCtx (·.joinSem n w amount))

/-- SEMP (R147, R148); collected in deterministic mode (R340). -/
def execSemp (imm : BitVec 13) (s : State) : Out :=
  let n := semNum imm
  let amount := semAmount imm
  if s.inGroup then .next (s.collect (.semPost n amount)).retire
  else if 255 < s.myCtx.sem n + amount then trap s 34 (BitVec.ofNat 64 amount)
  else .next ((s.notePost s.cur.core n).postSem s.myCell n (s.myCtx.sem n + amount)).retire

/-- SEMTRY (R147); collected in deterministic mode, with D pending (R340). -/
def execSemtry (d : Reg) (imm : BitVec 13) (s : State) : Out :=
  let n := semNum imm
  let amount := semAmount imm
  match s.blocked [] (some d) with
  | some o => o
  | none =>
    if s.inGroup then
      let dst : Option RegName := if d = 0#6 then none else some (.x d.toNat)
      .next ((s.collect (.semTry n amount dst s.fresh)).bump.pendBoundary d).retire
    else if (s.myCtx.semLine n).isEmpty && decide (amount ≤ s.myCtx.sem n) then
      if s.postsReady s.myCell n then
        .next ((s.updMyCtx fun x => x.takeSem n amount .sequencer).finish [] d 1)
      else wait s
    else .next (s.finish [] d 0)

/-- SEMRD (R147); a member answers from the view (R341). -/
def execSemrd (d : Reg) (imm : BitVec 5) (s : State) : Out :=
  let v := if s.inGroup then tget s.myCtx.view.sems 0 imm.toNat else tget s.myCtx.sems 0 imm.toNat
  alu0 s d (v.setWidth 64)

/-- A post by an engine: 1, or nothing and a deferred cause 34 on the issuing core when it would exceed 255 (R149). -/
def State.enginePost (s : State) (cell : Nat) (role : Role) (n : Nat) : State :=
  if 255 < (s.ctxOf cell).sem n + 1 then s.postEvent ⟨cell, role⟩ 34 (BitVec.ofNat 64 (0x100 + n))
  else s.postSem cell n ((s.ctxOf cell).sem n + 1)

/-- A post by an engine for an operation that a core forked in a quantum: a member's is kept until the boundary at which
that quantum enters the view (R341). -/
def State.lagPost (s : State) (cell : Nat) (role : Role) (quantum n : Nat) : State :=
  if (s.coreOf ⟨cell, role⟩).member.active then
    s.updCtx cell fun x => { x with heldPosts := x.heldPosts ++ [{ quantum := quantum, role := role, sem := some n, bar := none }] }
  else s.enginePost cell role n

/-- The control-page entry of a core's store buffer that may leave it now (R321). -/
def State.controlEntry (s : State) (p : CoreRef) (i : Nat) : Option (Nat × Word) :=
  match (s.coreOf p).stores[i]? with
  | none => none
  | some e =>
    match e.target with
    | .control off v => if s.mayDrain p i e then some (off, v) else none
    | _ => none

/-- SEMAPHORE_STORE: an ST.D to a semaphore sets COUNT and counts as a post (R146). -/
def execSemaphoreStore (s : State) : Out :=
  let p := s.args.core
  match s.controlEntry p s.args.index with
  | none => .next s
  | some (off, v) =>
    if 0x1000 ≤ off ∧ off < 0x1100 then
      let s1 := (s.dropStore p s.args.index).notePost p ((off - 0x1000) / 8)
      .next (s1.postSem p.cell ((off - 0x1000) / 8) (v.toNat % 256))
    else .next s

/-! ### Barrier objects -/

/-- GEN (R151). -/
def barGen (b : BitVec 128) : BitVec 4 := b.extractLsb' 0 4

/-- PENDING (R151). -/
def barPending (b : BitVec 128) : BitVec 24 := b.extractLsb' 8 24

/-- INBOUND (R151). -/
def barInbound (b : BitVec 128) : BitVec 32 := b.extractLsb' 32 32

/-- OUTBOUND (R151). -/
def barOutbound (b : BitVec 128) : BitVec 32 := b.extractLsb' 64 32

/-- EXPECTED (R151). -/
def barExpected (b : BitVec 128) : BitVec 24 := b.extractLsb' 96 24

/-- A barrier object from its fields, reserved bits zero (R151, R153). -/
def barMake (gen : BitVec 4) (pending : BitVec 24) (inbound outbound : BitVec 32) (expected : BitVec 24) : BitVec 128 :=
  0#8 ++ expected ++ outbound ++ inbound ++ pending ++ 0#4 ++ gen

/-- The fields of an object with some replaced, its reserved bits kept (R151, R152). -/
def barPut (b : BitVec 128) (gen : BitVec 4) (pending : BitVec 24) (inbound outbound : BitVec 32) : BitVec 128 :=
  b.extractLsb' 120 8 ++ barExpected b ++ outbound ++ inbound ++ pending ++ b.extractLsb' 4 4 ++ gen

/-- The completion check that follows every update (R152). -/
def barCheck (b : BitVec 128) : BitVec 128 :=
  if barPending b = 0 ∧ barInbound b = 0 ∧ barOutbound b = 0 then
    barPut b (barGen b + 1) (barExpected b) (barInbound b) (barOutbound b)
  else b

/-- Arrive, with the completion check (R152). -/
def barArrive (b : BitVec 128) : BitVec 128 :=
  barCheck (barPut b (barGen b) (barPending b - 1) (barInbound b) (barOutbound b))

/-- Expect n (R152). -/
def barExpect (b : BitVec 128) (n : BitVec 32) : BitVec 128 :=
  barCheck (barPut b (barGen b) (barPending b) (barInbound b + n) (barOutbound b))

/-- Outbound start (R152). -/
def barStart (b : BitVec 128) : BitVec 128 :=
  barCheck (barPut b (barGen b) (barPending b) (barInbound b) (barOutbound b + 1))

/-- Outbound done (R152). -/
def barDone (b : BitVec 128) : BitVec 128 :=
  barCheck (barPut b (barGen b) (barPending b) (barInbound b) (barOutbound b - 1))

/-- The barrier object at a key, as coherence has it last. -/
def State.barAt (s : State) (key : Nat) : BitVec 128 := BitVec.ofNat 128 (s.natLast key 16)

/-- Replaces a barrier object at a cell in one step (R152). -/
def State.setBar (s : State) (key cell : Nat) (owner : Owner) (b : BitVec 128) : State :=
  (s.addWrite s.fresh (cellsFrom key (natToBytes 16 b.toNat)) cell owner 0).bump

/-- ea of a barrier function and its checks: alignment 16, own scratchpad, poison (R130, R153). -/
def State.barPlace (s : State) (kind : AccKind) (ea : Nat) : Except Out Nat :=
  if ea % 16 ≠ 0 then .error (trap s kind.alignCause (eaWord ea))
  else if regionOf ea ≠ .spad then .error (trap s kind.faultCause (eaWord ea))
  else if s.poisonHere (cellKey s.myCell ea) then .error (trap s 29 (eaWord ea))
  else .ok (cellKey s.myCell ea)

/-- Whether the core's own earlier accesses let it update the object in one step: no store-buffer entry to its sector, no
unperformed acquire load, and no load of its bytes (R152, R321, R322). -/
def State.sectorQuiet (s : State) (key : Nat) : Bool :=
  (s.me.stores.all fun e => decide (e.sector ≠ sectorOf key)) && (s.me.loads.all fun l => !l.acquire) && !s.me.readsAt key 16 &&
    !s.remoteBefore s.cur.core s.fresh fun a => decide (key ≤ a) && decide (a < key + 16)

/-- BARSET (R153). Poison under the object traps before cause 39 does (log 100, DESIGN CHOICE). -/
def execBarset (d a : Reg) (imm : BitVec 25) (s : State) : Out :=
  match s.blocked [a, d] none with
  | some o => o
  | none =>
    let ea := effAddr (s.sval [] a) imm
    let n := (s.sval [a] d).setWidth 24
    match s.barPlace .store ea with
    | .error o => o
    | .ok key =>
      if n = 0 then trap s 39 (eaWord ea)
      else if !s.sectorQuiet key then wait s
      else if barOutbound (s.barAt key) ≠ 0 then trap s 39 (eaWord ea)
      else if s.inGroup then .next ((s.collect (.barSet key n.toNat)).finishNone [a, d])
      else .next ((s.setBar key s.myCell (.core s.cur.core) (barMake 0 n 0 0 n)).finishNone [a, d])

/-- GEN of a barrier object in the view of the own cell (R341). -/
def State.viewGen (s : State) (key : Nat) : BitVec 4 := (BitVec.ofNat 8 (memGet s.myCtx.view.spad key).toNat).setWidth 4

/-- BARARR: D := GEN, then arrive; a release at cell scope (R153). -/
def execBararr (d a : Reg) (imm : BitVec 25) (s : State) : Out :=
  match s.blocked [a] (some d) with
  | some o => o
  | none =>
    let ea := effAddr (s.sval [] a) imm
    match s.barPlace .store ea with
    | .error o => o
    | .ok key =>
      if s.inGroup then .next ((s.collect (.barArrive key)).finish [a] d ((s.viewGen key).setWidth 64))
      else if !s.sectorQuiet key || !s.allSettled 0 then wait s
      else if barPending (s.barAt key) = 0 then trap s 39 (eaWord ea)
      else
        let b := s.barAt key
        .next ((s.setBar key s.myCell (.core s.cur.core) (barArrive b)).finish [a] d ((barGen b).setWidth 64))

/-- BARWAIT: waits until GEN ≠ d[3:0] (R153); a boundary wait in deterministic mode (R340). -/
def execBarwait (d a : Reg) (imm : BitVec 25) (s : State) : Out :=
  match s.blocked [a, d] none with
  | some o => o
  | none =>
    let ea := effAddr (s.sval [] a) imm
    let gen : BitVec 4 := (s.sval [a] d).setWidth 4
    match s.barPlace .load ea with
    | .error o => o
    | .ok key =>
      if s.inGroup then boundaryWait s (.barWait key gen.toNat) (.next (s.finishNone [a, d]))
      else if s.sectorQuiet key && decide (barGen (s.barAt key) ≠ gen) then .next (s.finishNone [a, d])
      else wait s

/-- BARTEST: D := GEN (R153); a member answers from the view (R341). -/
def execBartest (d a : Reg) (imm : BitVec 25) (s : State) : Out :=
  match s.blocked [a] (some d) with
  | some o => o
  | none =>
    let ea := effAddr (s.sval [] a) imm
    match s.barPlace .load ea with
    | .error o => o
    | .ok key =>
      if s.inGroup then .next (s.finish [a] d ((s.viewGen key).setWidth 64))
      else if s.sectorQuiet key then .next (s.finish [a] d ((barGen (s.barAt key)).setWidth 64))
      else wait s

/-- BAREXP: expect d[31:0] (R153). -/
def execBarexp (d a : Reg) (imm : BitVec 25) (s : State) : Out :=
  match s.blocked [a, d] none with
  | some o => o
  | none =>
    let ea := effAddr (s.sval [] a) imm
    let n := (s.sval [a] d).setWidth 32
    match s.barPlace .store ea with
    | .error o => o
    | .ok key =>
      if s.inGroup then .next ((s.collect (.barExpect key n)).finishNone [a, d])
      else if s.sectorQuiet key then
        .next ((s.setBar key s.myCell (.core s.cur.core) (barExpect (s.barAt key) n)).finishNone [a, d])
      else wait s

end Sys2Proof.Machine
end

