-- ==== Sys2Proof/Machine/MatrixUnit.lean ====
section
/-! DEFINITION. The matrix unit (R201 to R222): the command port (ST64), the sequencer's gate, execution and completion, and
its control register. -/

namespace Sys2Proof.Machine

/-! ### Command fields (R208) -/

/-- Bits [lo + n − 1 : lo] of a command as a number. -/
def cmdField (w : Vec) (lo n : Nat) : Nat := w.toNat / 2 ^ lo % 2 ^ n

/-- KIND. -/
def cmdKind (w : Vec) : Nat := cmdField w 0 4
/-- TILE. -/
def cmdTile (w : Vec) : Nat := cmdField w 4 6
/-- SLOTA. -/
def cmdSlotA (w : Vec) : Nat := cmdField w 10 5
/-- SLOTB. -/
def cmdSlotB (w : Vec) : Nat := cmdField w 15 5
/-- FMTA. -/
def cmdFmtA (w : Vec) : Nat := cmdField w 20 5
/-- FMTB. -/
def cmdFmtB (w : Vec) : Nat := cmdField w 25 5
/-- K. -/
def cmdK (w : Vec) : Nat := cmdField w 30 11
/-- GEN. -/
def cmdGen (w : Vec) : Bool := w.getLsbD 41
/-- GSEM. -/
def cmdGsem (w : Vec) : Nat := cmdField w 42 5
/-- GCNT. -/
def cmdGcnt (w : Vec) : Nat := cmdField w 47 8
/-- PEN. -/
def cmdPen (w : Vec) : Bool := w.getLsbD 55
/-- PSEM. -/
def cmdPsem (w : Vec) : Nat := cmdField w 56 5
/-- TAG. -/
def cmdTag (w : Vec) : Nat := cmdField w 64 16
/-- FILLV. -/
def cmdFillv (w : Vec) : BitVec 32 := w.extractLsb' 80 32

/-- The K limit of a format (R203). -/
def kLimit (code : Nat) : Nat :=
  match code with
  | 0 => 128
  | 1 => 256
  | 2 => 256
  | 3 => 512
  | 4 => 512
  | 5 => 640
  | 6 => 640
  | 7 => 1024
  | 8 => 384
  | 9 => 768
  | 10 => 512
  | 11 => 512
  | 12 => 1024
  | 13 => 1024
  | 14 => 384
  | 15 => 384
  | 16 => 384
  | 17 => 768
  | 18 => 768
  | 19 => 768
  | _ => 0

/-- The set of formats that a format pairs with (R210); each quantised format pairs with itself. -/
def pairClass (code : Nat) : Nat :=
  match code with
  | 0 => 0
  | 1 => 1
  | 2 => 1
  | 3 => 2
  | 4 => 2
  | 8 => 2
  | 5 => 3
  | 6 => 3
  | 7 => 4
  | 9 => 4
  | 10 => 5
  | 11 => 5
  | 12 => 6
  | 13 => 6
  | n => n

/-- Whether a format is an integer one. -/
def isIntFmt (code : Nat) : Bool := decide (10 ≤ code) && decide (code ≤ 13)

/-- Reason of cause 41 for a command, the lowest that applies; 0 when it keeps R209 and R210 (R212; log 30, DEDUCED). PSEM with
PEN = 0 takes reason 5 of this cause, where R32 names cause 24 (log 80, DESIGN CHOICE). -/
def cmdReason (w : Vec) : Nat :=
  let kind := cmdKind w
  let product := decide (kind = 1) || decide (kind = 2)
  let limit := min (kLimit (cmdFmtA w)) (kLimit (cmdFmtB w))
  if kind = 0 ∨ 4 < kind then 1
  else if product ∧ (20 ≤ cmdFmtA w ∨ 20 ≤ cmdFmtB w) then 2
  else if product ∧ pairClass (cmdFmtA w) ≠ pairClass (cmdFmtB w) then 3
  else if product ∧ (cmdK w = 0 ∨ limit < cmdK w) then 4
  else if (!product && decide (cmdField w 10 31 ≠ 0)) || (decide (kind = 4) && decide (cmdTile w ≠ 0)) ||
      (decide (kind ≠ 3) && decide (cmdFillv w ≠ 0)) || (!cmdGen w && decide (cmdField w 42 13 ≠ 0)) ||
      (!cmdPen w && decide (cmdPsem w ≠ 0)) then 5
  else 0

/-! ### ST64 (R133, R212) -/

/-- Enqueues a command: its number is MENQ after it, and a command that writes a tile becomes LASTW of the tile (R213,
R219). -/
def Matrix.enqueue (m : Matrix) (w : Vec) (after : List Nat) (lid quantum : Nat) : Matrix :=
  let n := m.enq + 1
  { m with
    queue := m.queue ++ [{ word := w, number := n, after := after, lid := lid, quantum := quantum }]
    enq := n
    lastw := if cmdKind w = 4 then m.lastw else tset m.lastw (cmdTile w) n }

/-- An ST64 to MCMD: it waits while QCOUNT = 16, makes checks 21 to 23, and enqueues as it retires (R212). -/
def mcmdStore (s : State) (a d : Reg) (w : Vec) (release : Option Nat) : Out :=
  let m := s.myCtx.matrix
  let held := s.myCtx.held
  let product := decide (cmdKind w = 1) || decide (cmdKind w = 2)
  if 16 ≤ m.queue.length then wait s
  else if s.inGroup && !s.me.collected.isEmpty then waitCollected s
  else if (match release with | some sc => !s.allSettled sc | none => false) then wait s
  else if cmdField w 61 3 ≠ 0 ∨ w.toNat / 2 ^ 112 ≠ 0 then trap s 24 (w.setWidth 64)
  else if cmdReason w ≠ 0 then trap s 41 (BitVec.ofNat 64 (cmdReason w + 2 ^ 16 * cmdTag w))
  else if product && !held.getLsbD (cmdSlotA w) then trap s 31 (BitVec.ofNat 64 (cmdSlotA w))
  else if product && !held.getLsbD (cmdSlotB w) then trap s 31 (BitVec.ofNat 64 (cmdSlotB w))
  else
    let past := s.past s.cur.core
    let lid := s.myLid
    let quantum := s.quantumOf s.myCtxId
    let s1 := (s.popAll [a]).popPorts [d.toNat]
    .next (s1.updMyCtx fun x => { x with matrix := x.matrix.enqueue w past lid quantum }).retire

/-- ST64: the 64 bytes of a vector register or stream port to ea, or a matrix command to MCMD (R133, R205, R212). As for LD64, the
stream checks, the waits and the poison of a port come before the checks of the address (log 81, DESIGN CHOICE). -/
def execSt64 (d a : Reg) (ord : BitVec 2) (scope : BitVec 3) (imm : BitVec 25) (s : State) : Out :=
  match s.vblocked [a] none [d.toNat] none none with
  | some o => o
  | none =>
    let ea := effAddr (s.sval [] a) imm
    let v := s.vval [] d.toNat
    let rel := releaseOf ord scope
    match s.place .store ea 64 (fun off => decide (off = 0) && decide (s.cur.core.role = .c)) with
    | .error o => o
    | .ok (.control _) => mcmdStore s a d v rel
    | .ok p =>
      if s.storeRace p then trap s 26 (eaWord ea)
      else .next (((((s.buffer64 p.key v rel p.owned).bump).popAll [a]).popPorts [d.toNat]).retire)

/-! ### The gate (R213 step 1) -/

/-- Applies a function to the matrix sequencer of a cell. -/
def State.updMatrix (s : State) (cell : Nat) (f : Matrix → Matrix) : State :=
  s.updCtx cell fun x => { x with matrix := f x.matrix }

/-- MATRIX_GATE: the head command of a cell passes its gate, or joins its semaphore's line (R148, R213). A member's gate waits
for the boundary (R340). -/
def execMatrixGate (s : State) : Out :=
  let cell := s.args.cell
  let x := s.ctxOf cell
  match x.matrix.queue with
  | [] => .next s
  | c :: _ =>
    let w := c.word
    if x.matrix.stopped || x.matrix.passed then .next s
    else if !cmdGen w || decide (cmdGcnt w = 0) then .next (s.updMatrix cell fun m => { m with passed := true, gated := false })
    else if x.coreC.member.active then .next (s.updMatrix cell fun m => { m with gated := true })
    else
      match x.grantOf (cmdGsem w) (cmdGcnt w) .sequencer with
      | some g =>
        if s.seenPosts cell g.posts then
          .next ((s.updCtx cell (·.dropGrant .sequencer)).updMatrix cell fun m => { m with passed := true, gated := false })
        else .next s
      | none =>
        if x.mayTake (cmdGsem w) (cmdGcnt w) .sequencer then
          if s.postsReady cell (cmdGsem w) then
            .next ((s.updCtx cell (·.takeSem (cmdGsem w) (cmdGcnt w) .sequencer)).updMatrix cell fun m => { m with passed := true, gated := false })
          else .next ((s.updCtx cell (·.giveSem (cmdGsem w) (cmdGcnt w) .sequencer)).updMatrix cell fun m => { m with gated := true })
        else .next ((s.updCtx cell (·.joinSem (cmdGsem w) .sequencer (cmdGcnt w))).updMatrix cell fun m => { m with gated := true })

/-! ### Reading operands (R201, R202, R204) -/

/-- Key of row i of a slot (R201). -/
def slotRow (cell slot i : Nat) : Nat := cellKey cell (operandBase + 0x2000 * slot + 0x200 * i)

/-- Elements of one summation unit of a format (R200, R216). -/
def unitSize (code : Nat) : Nat :=
  if isQuantFmt code then groupSize code
  else
    match fmtWidth code with
    | 32 => 4
    | 16 => 16
    | 4 => 64
    | _ => 32

/-- The bytes of a slot row that a command of depth k reads: its elements and its parameter entries (R202, R204). -/
def rowReads (code k : Nat) : List (Nat × Nat) :=
  let params := if groupSize code = 0 then [] else [(0x180, paramSize code * ((k + groupSize code - 1) / groupSize code))]
  (0, (k * fmtWidth code + 7) / 8) :: params

/-- A byte as the executing command reads it: as it read it before, or as the cell sees it now (R215; R321 Engine step). -/
def State.engineByte (s : State) (cell a : Nat) : Byte := (tfind (s.ctxOf cell).matrix.early a).getD (s.byteFor (.cell cell) a)

/-- The number at n bytes from a key as the executing command reads it. -/
def State.engineNat (s : State) (cell a n : Nat) : Nat := bytesToNat ((span a n).map (s.engineByte cell))

/-- Whether the executing command meets poison in a sector: it holds the marker, and some of the bytes asked for have not been read
before. -/
def State.engineBad (s : State) (cell : Nat) (addrs : List Nat) (sector : Nat) : Bool :=
  s.poisonedFor (.cell cell) sector && addrs.any fun a => decide (sectorOf a = sector) && (tfind (s.ctxOf cell).matrix.early a).isNone

/-- Whether a product command reads a poisoned sector of a slot (R220). -/
def State.slotPoisoned (s : State) (cell slot code k : Nat) : Bool :=
  (List.range 16).any fun i => (rowReads code k).any fun r =>
    (List.range r.2).any fun j => decide (j % 64 = 0) &&
      s.engineBad cell (span (slotRow cell slot i + r.1) r.2) ((slotRow cell slot i + r.1 + j) / 64)

/-- A slot row as a number of 512 bytes. -/
def State.rowNat (s : State) (cell slot i : Nat) : Nat := s.engineNat cell (slotRow cell slot i) 512

/-- Element k of a row (R182, R202). -/
def rowElem (code row k : Nat) : Nat := row / 2 ^ (fmtWidth code * k) % 2 ^ fmtWidth code

/-- The parameter entry of group g of a row (R202). -/
def rowParam (code row g : Nat) : Nat := row / 2 ^ (8 * (0x180 + paramSize code * g)) % 2 ^ (8 * paramSize code)

/-- The value of element k of a row (R183 to R188). -/
def rowVal (code row k : Nat) : Val :=
  elemVal code (rowElem code row k) (if groupSize code = 0 then 0 else rowParam code row (k / groupSize code))

/-! ### Order of sums (R216 to R218) -/

/-- The exact product of two element values; none for 0 × ∞. -/
def prodVal (a b : Val) : Option Val := if a.isNan || b.isNan then some (.nan false) else mulVal a b

/-- One float unit against the accumulator (R216). -/
def floatUnit (acc : BitVec 32) (as bs : List Val) : Lane :=
  let a := fp acc
  let ps := List.zipWith prodVal as bs
  let bad := ps.any (·.isNone)
  let vs := ps.map (·.getD (.nan false))
  let pos := vs.any fun v => decide (v = .inf false)
  let neg := vs.any fun v => decide (v = .inf true)
  let f0 : Flags := snanFlag (a :: (as ++ bs)) ||| (if bad || (pos && neg) then flagNV else 0)
  let sNan := vs.any Val.isNan || (pos && neg)
  if a.isNan || sNan then { bits := canonNan, flags := f0 }
  else if pos || neg then
    if a.isInf && a.neg != neg then { bits := canonNan, flags := f0 ||| flagNV }
    else { bits := if neg then 0xFF800000#32 else 0x7F800000#32, flags := f0 }
  else if a.isInf then { bits := acc, flags := f0 }
  else
    let r := sumFin a vs
    if r.isZero then
      let minus := a.isZero && a.neg && vs.all fun v => v.isZero && v.neg
      { bits := if minus then 0x80000000#32 else 0, flags := f0 }
    else
      let l := toFp32 r (plainChoice .rne)
      { l with flags := f0 ||| l.flags }

/-- One quantised group: acc := RNE(acc + D_u × sa × sb) (R200, R218). -/
def quantUnit (acc : BitVec 32) (d : Int) (sa sb : Val) : Lane :=
  let a := fp acc
  let bad := sa.isNan || sa.isInf || sb.isNan || sb.isInf
  let f0 : Flags := snanFlag [a] ||| (if bad then flagNV else 0)
  if bad || a.isNan then { bits := canonNan, flags := f0 }
  else if a.isInf then { bits := acc, flags := f0 }
  else
    let r := addFin a (mulFin (mulFin sa sb) (ofInt d))
    if r.isZero then
      let minus := a.isZero && a.neg && decide (d = 0) && sa.neg != sb.neg
      { bits := if minus then 0x80000000#32 else 0, flags := f0 }
    else
      let l := toFp32 r (plainChoice .rne)
      { l with flags := f0 ||| l.flags }

/-- D_u of a group: Sab − zb × Sa − za × Sb + n × za × zb (R200). -/
def groupTerm (as bs : List Nat) (za zb : Nat) : Int :=
  let sa : Int := (as.sum : Nat)
  let sb : Int := (bs.sum : Nat)
  let sab : Int := ((List.zipWith (· * ·) as bs).sum : Nat)
  sab - zb * sa - za * sb + as.length * za * zb

/-- The element indices of unit u of a depth k (R200). -/
def unitRange (g k u : Nat) : List Nat := (List.range (min k ((u + 1) * g) - u * g)).map (u * g + ·)

/-- Number of units of a depth k. -/
def unitCount (g k : Nat) : Nat := (k + g - 1) / g

/-- One output element: every unit along K in ascending order (R214). -/
def productElem (fa fb k : Nat) (rowA rowB : Nat) (acc : BitVec 32) : Lane :=
  if isIntFmt fa then
    let term (j : Nat) : Int :=
      match fmtOf fa, fmtOf fb with
      | some x, some y => (decodeFmt x (rowElem fa rowA j)).units 0 * (decodeFmt y (rowElem fb rowB j)).units 0
      | _, _ => 0
    { bits := acc + BitVec.ofInt 32 (((List.range k).map term).sum), flags := 0 }
  else
    let g := unitSize fa
    (List.range (unitCount g k)).foldl (fun r u =>
      let js := unitRange g k u
      let l :=
        if isQuantFmt fa then
          let pa := rowParam fa rowA u
          let pb := rowParam fb rowB u
          quantUnit r.bits (groupTerm (js.map (rowElem fa rowA)) (js.map (rowElem fb rowB)) (zeroPoint fa pa) (zeroPoint fb pb))
            (quantScale pa) (quantScale pb)
        else floatUnit r.bits (js.map (rowVal fa rowA)) (js.map (rowVal fb rowB))
      { l with flags := r.flags ||| l.flags }) { bits := acc, flags := 0 }

/-- Key of a tile (R159, R190). -/
def tileKey (cell tile : Nat) : Nat := cellKey cell (accumBase + 1024 * tile)

/-- Element (row, col) of a tile as a number of 16 × 16 elements, row by row (R190). -/
def State.tileOf (s : State) (cell tile : Nat) : List (BitVec 32) :=
  (List.range 256).map fun i => BitVec.ofNat 32 (s.engineNat cell (tileKey cell tile + 4 * i) 4)

/-- The 16 sectors of a tile. -/
def tileSectors (cell tile : Nat) : List Nat := (List.range 16).map fun i => tileKey cell tile / 64 + i

/-- What a product command computes from the slots, and from the tile when it accumulates (R204, R214, R220). -/
def State.product (s : State) (cell : Nat) (w : Vec) (accumulate : Bool) : MatrixResult :=
  let fa := cmdFmtA w
  let fb := cmdFmtB w
  let k := cmdK w
  let poisoned := s.slotPoisoned cell (cmdSlotA w) fa k || s.slotPoisoned cell (cmdSlotB w) fb k ||
    (accumulate && (tileSectors cell (cmdTile w)).any (s.engineBad cell (span (tileKey cell (cmdTile w)) 1024)))
  if poisoned then { tile := [], flags := 0, writes := false, poisoned := true }
  else
    let as := (List.range 16).map (s.rowNat cell (cmdSlotA w))
    let bs := (List.range 16).map (s.rowNat cell (cmdSlotB w))
    let start := if accumulate then s.tileOf cell (cmdTile w) else List.replicate 256 0
    let ls := List.zipWith (fun (i : Nat) acc => productElem fa fb k (as.getD (i / 16) 0) (bs.getD (i % 16) 0) acc) (List.range 256) start
    { tile := ls.map (·.bits), flags := ls.foldl (fun f l => f ||| l.flags) 0, writes := true, poisoned := false }

/-- The head command of a cell reads the 32-bit elements that hold the bytes `keys` before the others: a copy that is not joined may
write between the reads of two elements (R215; R321 Engine step). An element that another write has poisoned waits. -/
def State.engineEarly (s : State) (cell : Nat) (keys : List Nat) : State :=
  let words := (keys.map (· / 4)).eraseDups
  let bytes := words.flatMap fun q => span (4 * q) 4
  let new := bytes.filterMap fun a =>
    if (tfind (s.ctxOf cell).matrix.early a).isSome || s.poisonedFor (.cell cell) (sectorOf a) then none else some (a, s.byteFor (.cell cell) a)
  s.updMatrix cell fun m => { m with early := m.early ++ new }

/-- The head command of a cell executes, if it is of a kind, has passed its gate, and what its C-core did before it is
visible in the cell (R213 step 2, R325); with `flag` it first reads some elements of its slots and its tile (R215). -/
def State.execHead (s : State) (kind : Nat) (f : Nat → Vec → MatrixResult) : Out :=
  let cell := s.args.cell
  let m := (s.ctxOf cell).matrix
  match m.queue with
  | [] => .next s
  | c :: _ =>
    if cmdKind c.word = kind ∧ m.passed ∧ m.result.isNone ∧ m.stopped = false ∧ s.settled ⟨cell, .c⟩ c.after 0 then
      .next (if s.args.flag then s.engineEarly cell s.args.cells else s.updMatrix cell fun m => { m with result := some (f cell c.word), early := [] })
    else .next s

/-- MAC (R209, R214). -/
def execMac (s : State) : Out := s.execHead 1 fun cell w => s.product cell w true

/-- MATRIX_MUL: as MAC from zero (R209, R214). -/
def execMatrixMul (s : State) : Out := s.execHead 2 fun cell w => s.product cell w false

/-- FILL (R209, R214). -/
def execFill (s : State) : Out :=
  s.execHead 3 fun _ w => { tile := List.replicate 256 (cmdFillv w), flags := 0, writes := true, poisoned := false }

/-- MARK: no computation (R209). -/
def execMark (s : State) : Out := s.execHead 4 fun _ _ => { tile := [], flags := 0, writes := false, poisoned := false }

/-! ### Completion (R213 step 3, R220) -/

/-- The head leaves the queue with MDONE := its number. -/
def Matrix.pop (m : Matrix) (number : BitVec 32) : Matrix :=
  { m with queue := m.queue.drop 1, done := number, passed := false, gated := false, result := none }

/-- One element of the executing command's tile becomes visible before the others: a fragment read that does not wait meets each
lane before the command or after it (R226), and an element that a copy writes after it keeps the copy's value (R215). -/
def State.showLane (s : State) (cell lane : Nat) (w : Vec) (r : MatrixResult) : State :=
  match r.tile[lane]? with
  | some e =>
    if r.writes && !r.poisoned && !r.shown.contains lane then
      ((s.addWrite s.fresh (cellsFrom (tileKey cell (cmdTile w) + 4 * lane) (natToBytes 4 e.toNat)) cell .engine 0).bump).updMatrix cell fun m =>
        { m with result := some { r with shown := r.shown ++ [lane] } }
    else s
  | none => s

/-- The elements of the tile that are not visible yet are written; every sector of the tile has then been written whole, which clears
its poison (R100, R213 step 3). -/
def State.addTile (s : State) (cell tile : Nat) (r : MatrixResult) : State :=
  let cells := cellsFrom (tileKey cell tile) (r.tile.flatMap fun e => natToBytes 4 e.toNat)
  let left := cells.filter fun c => !r.shown.contains ((c.1 - tileKey cell tile) / 4)
  s.append { id := s.fresh, data := left, cell := cell, owner := .engine, scope := 0, top := 2, marks := marksOf false (tileSectors cell tile) }

/-- MATRIX_COMPLETE: tile writes visible in the cell, flags merged, MDONE set, PSEM posted (R213); a command that read poison
poisons its tile, posts and merges nothing, and stops the sequencer (R220). With `flag`, element `index` alone becomes visible. -/
def execMatrixComplete (s : State) : Out :=
  let cell := s.args.cell
  let m := (s.ctxOf cell).matrix
  match m.queue, m.result with
  | c :: _, some r =>
    let w := c.word
    if s.args.flag then .next (s.showLane cell s.args.index w r)
    else if r.poisoned then
      let s1 := (s.addMarker s.fresh (tileSectors cell (cmdTile w)) cell .engine 0).bump
      let s2 := s1.updMatrix cell fun m => { m.pop c.number with stopped := true, fcause := 29 }
      .next (s2.postEvent ⟨cell, .c⟩ 29 (BitVec.ofNat 64 (2 ^ 32 + cmdTile w * 2 ^ 16 + cmdTag w)))
    else
      let s1 := if r.writes then (s.addTile cell (cmdTile w) r).bump else s
      let s2 := (s1.updCore ⟨cell, .c⟩ (·.raise r.flags)).updMatrix cell (·.pop c.number)
      .next (if cmdPen w then s2.lagPost cell .c c.quantum (cmdPsem w) else s2)
  | _, _ => .next s

/-! ### MCTL (R207, R221) -/

/-- A store to MCTL leaves the store buffer. -/
def State.mctlStore (s : State) (p : CoreRef) (i : Nat) (v : Word) : State := (s.dropStore p i).updCtx p.cell (·.mctl v)

/-- FLUSH: a store to MCTL with FLUSH set takes effect, and RESUME after it when both are set (R207, R221). -/
def execFlush (s : State) : Out :=
  match s.controlEntry s.args.core s.args.index with
  | some (0x58, v) => if v.getLsbD 1 then .next (s.mctlStore s.args.core s.args.index v) else .next s
  | _ => .next s

/-- RESUME: a store to MCTL with RESUME alone takes effect (R207, R221). -/
def execResume (s : State) : Out :=
  match s.controlEntry s.args.core s.args.index with
  | some (0x58, v) =>
    if v.getLsbD 0 && !v.getLsbD 1 then .next (s.mctlStore s.args.core s.args.index v) else .next s
  | _ => .next s

end Sys2Proof.Machine
end

