-- ==== Sys2Proof/Machine/CopyPlan.lean ====
section
/-! DEFINITION. Tensor descriptors (R154 to R159), the checks of a copy (R163, R164, R166, R193, R202), and which bytes it
reads and writes (R165 to R168, R170). -/

namespace Sys2Proof.Machine

/-! ### Descriptors (R155, R156) -/

/-- 64-bit word i of a descriptor. -/
def descWord (d : Vec) (i : Nat) : Word := d.extractLsb' (64 * i) 64
/-- BASE. -/
def dBase (d : Vec) : Nat := cmdField d 0 48
/-- FMT. -/
def dFmt (d : Vec) : Nat := cmdField d 64 5
/-- SPACE. -/
def dSpace (d : Vec) : Nat := cmdField d 69 3
/-- RANK. -/
def dRank (d : Vec) : Nat := cmdField d 72 3
/-- DIMk as the descriptor holds it. -/
def dDim (d : Vec) (k : Nat) : Nat := cmdField d (128 + 16 * k) 16
/-- STRIDEk; dimension 0 is contiguous (R157). -/
def dStride (d : Vec) (k : Nat) : Int := if k = 0 then 0 else (descWord d (2 + k)).toInt
/-- SZBASE. -/
def dSzBase (d : Vec) : Nat := cmdField d 384 48
/-- SZSTR. -/
def dSzStr (d : Vec) : Int := (descWord d 7).toInt
/-- Extent of dimension k: 1 beyond the rank (R157). -/
def dExtent (d : Vec) (k : Nat) : Nat := if dDim d k = 0 then 1 else dDim d k
/-- Origin in dimension k (R157). -/
def origin (x : Word) (k : Nat) : Nat := (x.extractLsb' (16 * k) 16).toNat

/-- Whether a format has group parameters. -/
def grouped (code : Nat) : Bool := isBlockFmt code || isQuantFmt code

/-- Whether a stride lies in its range (R155). -/
def strideOk (n : Int) : Bool := decide (-2 ^ 47 ≤ n) && decide (n < 2 ^ 47)

/-- Whether a transform moves group parameters (R158). -/
def movesParams (xf : Nat) : Bool := decide (xf = 0) || decide (xf = 6) || decide (xf = 7)

/-- A descriptor's own reason of cause 40, the lowest that applies, or 0 (R164, R202). -/
def descReason (d : Vec) (space : Nat) (org : Word) (xf : Nat) : Nat :=
  let fmt := dFmt d
  let rank := dRank d
  let o0 := origin org 0
  let beyond := (List.range 4).any fun k => decide (rank ≤ k) && (decide (dDim d k ≠ 0) || decide (dStride d k ≠ 0))
  let opndGroup := decide (dSpace d = 3) && grouped fmt
  if rank = 0 ∨ 4 < rank ∨ beyond then 1
  else if (List.range rank).any fun k => decide (dDim d k = 0) then 2
  else if 20 ≤ fmt ∨ 6 ≤ dSpace d ∨ dSpace d ≠ space then 3
  else if cmdField d 48 16 ≠ 0 ∨ cmdField d 75 53 ≠ 0 ∨ cmdField d 432 16 ≠ 0 ∨
      !(strideOk (dStride d 1) && strideOk (dStride d 2) && strideOk (dStride d 3) && strideOk (dSzStr d)) then 4
  else if dSpace d = 4 ∧ fmt ≠ 0 then 6
  else if o0 * fmtWidth fmt % 8 ≠ 0 ∨ (isQuantFmt fmt ∧ o0 % groupSize fmt ≠ 0) ∨
      (isBlockFmt fmt ∧ movesParams xf ∧ o0 % groupSize fmt ≠ 0) then 7
  else if (grouped fmt ∧ 2 < rank) ∨ (opndGroup ∧ (dSzBase d ≠ 0 ∨ dSzStr d ≠ 0)) then 8
  else if opndGroup ∧ (dBase d % 0x200 ≠ 0 ∨ dStride d 1 % 0x200 ≠ 0 ∨ kLimit fmt < dDim d 0) then 10
  else 0

/-- Whether a format can represent every value of another (R193). -/
def represents (dst src : Nat) : Bool :=
  match dst with
  | 0 => decide (src ≤ 7) || (decide (10 ≤ src) && decide (src ≤ 19))
  | 1 => decide (src = 1) || (decide (3 ≤ src) && decide (src ≤ 7)) || isIntFmt src
  | 2 => (decide (2 ≤ src) && decide (src ≤ 7)) || isIntFmt src
  | 3 => decide (src = 3) || decide (src = 5) || decide (src = 6) || decide (src = 7) || decide (src = 12) || decide (src = 13)
  | 4 => decide (src = 4) || decide (src = 5) || decide (src = 7) || decide (src = 12)
  | 5 => decide (src = 5) || decide (src = 7) || decide (src = 12)
  | 6 => decide (src = 6)
  | 7 => decide (src = 7)
  | _ => false

/-- Whether a conversion is narrowing (R193): integer destinations always are. -/
def isNarrowing (dst src : Nat) : Bool := isIntFmt dst || !represents dst src

/-- Whether a CMPR from S elements fills exactly this many (R165). -/
def cmprShape (s whole w : Nat) : Bool := decide (whole * w = s * w + (s + 63) / 64 * 64)

/-- The pair reason of a copy: 5 for the shapes, then 6 for the formats or SR (R164, R165, R166). T16, the one transform with no test of
RANK, compares the DIM fields as they stand, also beyond an end's RANK (log 107, DESIGN CHOICE). -/
def pairReason (d s : Vec) (xf : Nat) (rmSr : Bool) : Nat :=
  let fd := dFmt d
  let fs := dFmt s
  let same (k : Nat) : Bool := decide (dDim d k = dDim s k)
  let rank := decide (dRank d = dRank s)
  let shape : Bool :=
    match xf with
    | 1 => decide (dDim d 0 = 16) && decide (dDim d 1 = 16) && decide (dDim s 0 = 16) && decide (dDim s 1 = 16) && same 2 && same 3
    | 3 => rank && (List.range (dRank d)).all fun k => same k || decide (dDim s k = 1)
    | 4 => rank && same 1 && same 2 && same 3 && cmprShape (dDim s 0) (dDim d 0) (fmtWidth fd)
    | 5 => rank && same 1 && same 2 && same 3 && cmprShape (dDim d 0) (dDim s 0) (fmtWidth fs)
    | 6 => decide (dRank d = 2) && decide (dRank s = 2) && same 0
    | 7 => decide (dRank d = 2) && decide (dRank s = 2) && same 0
    | _ => rank && same 0 && same 1 && same 2 && same 3
  let format : Bool :=
    match xf with
    | 1 => decide (fd = fs) && (decide (fd ≤ 4) || decide (fd = 7) || isIntFmt fd)
    | 2 => !grouped fd && !(rmSr && !isNarrowing fd fs)
    | 3 => decide (fd = fs) && !grouped fd
    | 4 => decide (fd = fs) && (decide (fd ≤ 4) || decide (fd = 10) || decide (fd = 11))
    | 5 => decide (fd = fs) && (decide (fd ≤ 4) || decide (fd = 10) || decide (fd = 11))
    | _ => decide (fd = fs)
  if !shape then 5 else if !format then 6 else 0

/-- TVAL of cause 40 (R164). -/
def descTval (tid : Nat) (src : Bool) (reason : Nat) : Word := BitVec.ofNat 64 (tid + 64 * src.toNat + 256 * reason)

/-! ### Rows (R157, R158, R202) -/

/-- The bytes of one row: its elements, and its group parameters where it has some. -/
structure CopyRow where
  addr : Int
  len : Nat
  paddr : Int
  plen : Nat
  deriving DecidableEq, Repr

/-- Rows of a window. -/
def rowCount (d : Vec) : Nat := dExtent d 1 * dExtent d 2 * dExtent d 3

/-- Bytes that DIM0 elements cover (R157). -/
def rowBytes (d : Vec) : Nat := (dExtent d 0 * fmtWidth (dFmt d) + 7) / 8

/-- Row r of a window, in row-index order (R157), with the parameter entries of its elements (R158, R202). -/
def copyRow (d : Vec) (org : Word) (r : Nat) : CopyRow :=
  let i1 := r % dExtent d 1
  let i2 := r / dExtent d 1 % dExtent d 2
  let i3 := r / (dExtent d 1 * dExtent d 2)
  let start : Int := (dBase d : Int) + ((origin org 1 + i1 : Nat) : Int) * dStride d 1 +
    ((origin org 2 + i2 : Nat) : Int) * dStride d 2 + ((origin org 3 + i3 : Nat) : Int) * dStride d 3
  let fmt := dFmt d
  let g := groupSize fmt
  let o0 := origin org 0
  let e := paramSize fmt
  let pbase : Int := if dSpace d = 3 then start + 0x180 else (dSzBase d : Int) + ((origin org 1 + i1 : Nat) : Int) * dSzStr d
  { addr := start + (o0 * fmtWidth fmt / 8 : Nat), len := rowBytes d
    paddr := if g = 0 then 0 else pbase + (e * (o0 / g) : Nat)
    plen := if g = 0 then 0 else e * ((o0 + dExtent d 0 - 1) / g - o0 / g + 1) }

/-- A run of bytes at an address of a space. -/
abbrev Seg := Int × Nat

/-- The segments of rows, with their parameters where the copy moves or reads them. -/
def rowSegs (rows : List CopyRow) (params : Bool) : List Seg :=
  rows.flatMap fun r => if params && decide (r.plen ≠ 0) then [(r.addr, r.len), (r.paddr, r.plen)] else [(r.addr, r.len)]

/-- The source row that a destination row of EXP takes: index 0 wherever the source extent is 1 (R165). -/
def expRow (d s : Vec) (r : Nat) : Nat :=
  let i1 := r % dExtent d 1
  let i2 := r / dExtent d 1 % dExtent d 2
  let i3 := r / (dExtent d 1 * dExtent d 2)
  i1 % dExtent s 1 + dExtent s 1 * (i2 % dExtent s 2 + dExtent s 2 * (i3 % dExtent s 3))

/-- Destination rows in the order they are written, each with the source row it takes (R165, R168). T16 takes all rows of
its block. -/
def rowPairs (d s : Vec) (xf : Nat) (index : List Nat) : List (Nat × Nat) :=
  match xf with
  | 3 => (List.range (rowCount d)).map fun r => (r, expRow d s r)
  | 6 => (List.range index.length).zip index
  | 7 => index.zip (List.range index.length)
  | _ => (List.range (rowCount d)).map fun r => (r, r)

/-- Segments that a copy writes. -/
def writeSegs (d s : Vec) (dorg : Word) (xf : Nat) (index : List Nat) : List Seg :=
  rowSegs (((rowPairs d s xf index).map Prod.fst).eraseDups.map (copyRow d dorg)) (movesParams xf)

/-- Segments that a copy reads from its source window. -/
def readSegs (d s : Vec) (sorg : Word) (xf : Nat) (index : List Nat) : List Seg :=
  let rows := if xf = 6 ∨ xf = 7 then ((rowPairs d s xf index).map Prod.snd).eraseDups else List.range (rowCount s)
  rowSegs (rows.map (copyRow s sorg)) (movesParams xf || decide (xf = 2))

/-- First byte of a segment outside [lo, hi). -/
def segOutside (lo hi : Int) (g : Seg) : Option Int :=
  if g.1 < lo then some g.1 else if hi < g.1 + g.2 then some (max g.1 hi) else none

/-- The least of the addresses that a check answers over segments. -/
def firstFail (segs : List Seg) (f : Seg → Option Int) : Option Int :=
  segs.foldl (fun acc g =>
    match acc, f g with
    | none, r => r
    | some a, some b => some (min a b)
    | some a, none => some a) none

/-! ### The space checks (R159, R163) -/

/-- The answer of the space check of one byte. -/
inductive ByteCheck where
  | fine
  | miss
  | bad (cause : Nat)
  deriving DecidableEq, Repr

/-- The check of one byte of a GLOB or HOST range for the core whose turn it is (R15, R91, R159, R332). A byte that no translated space
holds answers as a right that is missing (log 108, DESIGN CHOICE). -/
def State.translatedByte (s : State) (host write : Bool) (va : Int) : ByteCheck :=
  let kind : AccKind := if write then .store else .load
  if va < 0x1000000000 ∨ 2 ^ 48 ≤ va then .bad kind.faultCause
  else
    match s.transFor s.cur.core s.myCtxId va.toNat with
    | .miss => .miss
    | .fail => .bad kind.pageCause
    | .leaf e l =>
      if !s.reaches e l va.toNat kind || (host && decide (pteSpc e ≠ 2)) then .bad kind.faultCause
      else if write && s.storeRace (.page e l (leafKey e l va.toNat)) then .bad 26
      else if !write && s.loadRace (.page e l (leafKey e l va.toNat)) then .bad 25
      else .fine

/-- First address of a segment whose page does not pass, page by page. -/
def State.translatedSeg (s : State) (host write : Bool) (g : Seg) : Option Int :=
  let last := g.1 + g.2 - 1
  let starts := (List.range ((last / 4096 - g.1 / 4096).toNat + 1)).map fun (i : Nat) => max g.1 ((g.1 / 4096 + (i : Int)) * 4096)
  starts.find? fun a => decide (s.translatedByte host write a ≠ .fine)

/-- First address of a remote range that no single window register of its cell grants together with all before it (R95,
R159); a fenced cell's memories are gone (R15). -/
def State.remoteFail (s : State) (write : Bool) (segs : List Seg) : Option Int :=
  match firstFail segs fun g => some g.1 with
  | none => none
  | some low =>
    let cell := ((low - 0x100000000) / 0x100000).toNat
    let base : Int := 0x100000000 + 0x100000 * (cell : Int)
    if low < 0x100000000 ∨ 0x140000000 ≤ low ∨ s.residentIn cell ≠ some s.myCtxId ∨ s.cellOut cell then some low
    else
      let reach (w : Word) : Option Int :=
        if w.getLsbD 63 && (if write then w.getLsbD 60 else w.getLsbD 59) then
          let b := 64 * (w.extractLsb' 0 13).toNat
          let t := min (64 * ((w.extractLsb' 0 13).toNat + (w.extractLsb' 32 13).toNat)) spadSize
          firstFail segs (segOutside (base + b) (base + max b t))
        else some low
      (List.range 8).foldl (fun acc i =>
        match acc, reach (tget (s.ctxOf cell).windows 0 i) with
        | none, _ => none
        | _, none => none
        | some a, some b => some (max a b)) (some low)

/-- Checks 17 and 18 of R163: the first byte of an end, in ascending address order, that fails its space's check. An OPND
end beyond operand memory fails it (log 63, DEDUCED). -/
def State.endCheck (s : State) (space : Nat) (write : Bool) (segs : List Seg) : Option (ByteCheck × Int) :=
  let kind : AccKind := if write then .store else .load
  let plain (hi : Int) : Option (ByteCheck × Int) := (firstFail segs (segOutside 0 hi)).map fun a => (.bad kind.faultCause, a)
  match space with
  | 1 => plain spadSize
  | 2 => (s.remoteFail write segs).map fun a => (.bad 27, a)
  | 3 => plain 0x40000
  | 4 => plain 0x10000
  | _ =>
    let host := decide (space = 5)
    (firstFail segs (s.translatedSeg host write)).map fun a => (s.translatedByte host write a, a)

/-- The translated pages of segments, as a copy keeps them (R162). -/
def State.pagesOf (s : State) (segs : List Seg) : List (Nat × Nat × Option Nat) :=
  let vps := (segs.flatMap fun g => (List.range (((g.1 + g.2 - 1) / 4096 - g.1 / 4096).toNat + 1)).map fun i => (g.1 / 4096).toNat + i).eraseDups
  vps.filterMap fun vp =>
    match s.transFor s.cur.core s.myCtxId (vp * 4096) with
    | .leaf e l => some (vp, leafKey e l (vp * 4096), if pteO e then some (leafPage e) else none)
    | _ => none

/-- The key in memory of an address of a space, for a copy of a cell with these translated pages. -/
def spaceKey (cell : Nat) (pages : List (Nat × Nat × Option Nat)) (space : Nat) (a : Int) : Nat :=
  match space with
  | 1 => cellKey cell a.toNat
  | 2 => cellKey ((a - 0x100000000) / 0x100000).toNat ((a - 0x100000000) % 0x100000).toNat
  | 3 => cellKey cell (operandBase + a.toNat)
  | 4 => cellKey cell (accumBase + a.toNat)
  | _ =>
    match tfind pages (a.toNat / 4096) with
    | some p => p.1 + a.toNat % 4096
    | none => 0

/-- Segments cut at page boundaries, each with the key of its first byte. -/
def keySegs (cell : Nat) (pages : List (Nat × Nat × Option Nat)) (space : Nat) (segs : List Seg) : List (Int × Nat × Nat) :=
  segs.flatMap fun (g : Seg) =>
    let last := g.1 + g.2 - 1
    (List.range ((last / 4096 - g.1 / 4096).toNat + 1)).map fun (i : Nat) =>
      let a := max g.1 ((g.1 / 4096 + (i : Int)) * 4096)
      let e := min last ((g.1 / 4096 + (i : Int)) * 4096 + 4095)
      (a, spaceKey cell pages space a, (e - a).toNat + 1)

/-- The lowest destination address whose byte the copy also reads (R170). -/
def overlapAt (dst src : List (Int × Nat × Nat)) : Option Int :=
  dst.foldl (fun acc d =>
    src.foldl (fun acc r =>
      let lo := max d.2.1 r.2.1
      if lo < min (d.2.1 + d.2.2) (r.2.1 + r.2.2) then
        let a := d.1 + ((lo - d.2.1 : Nat) : Int)
        some (match acc with
          | none => a
          | some b => min a b)
      else acc) acc) none

/-- Operand slots that segments touch, rising (R163 check 16). -/
def slotsOf (segs : List Seg) : List Nat :=
  (List.range 32).filter fun n => segs.any fun g => decide (g.1 < 0x2000 * ((n : Int) + 1)) && decide (0x2000 * (n : Int) < g.1 + g.2)

/-- Operand slots that a copy in flight reads or writes (R180). -/
def Copy.slots (c : Copy) : List Nat :=
  (if dSpace c.dst = 3 then slotsOf (writeSegs c.dst c.src c.dorg c.xf c.index) else []) ++
    (if dSpace c.src = 3 then slotsOf (readSegs c.dst c.src c.sorg c.xf c.index) else [])

/-! ### What a copy computes (R165 to R168, R171) -/

/-- How a copy reads a byte of memory; none where the byte's sector is poisoned. -/
abbrev Reader := Nat → Option Byte

/-- Bytes at an address of the source window. -/
def Copy.srcBytes (c : Copy) (rd : Reader) (a : Int) (n : Nat) : Option (List Byte) :=
  (List.range n).mapM fun (i : Nat) => rd (spaceKey c.cell c.pages (dSpace c.src) (a + (i : Int)))

/-- Element i of the source row that starts at an address, as its code (R182). -/
def Copy.srcCode (c : Copy) (rd : Reader) (a : Int) (i : Nat) : Option Nat :=
  let w := fmtWidth (dFmt c.src)
  let lo := i * w / 8
  let hi := (i * w + w - 1) / 8
  (c.srcBytes rd (a + (lo : Int)) (hi - lo + 1)).map fun bs => bytesToNat bs / 2 ^ (i * w - 8 * lo) % 2 ^ w

/-- The parameter entry of element i of a source row; 0 where the format has none. -/
def Copy.srcParam (c : Copy) (rd : Reader) (r : CopyRow) (i : Nat) : Option Nat :=
  let fmt := dFmt c.src
  let g := groupSize fmt
  if g = 0 then some 0
  else
    let o0 := origin c.sorg 0
    (c.srcBytes rd (r.paddr + ((paramSize fmt * ((o0 + i) / g - o0 / g) : Nat) : Int)) (paramSize fmt)).map bytesToNat

/-- The code and flags of element i0 of destination row r (R165, R166). -/
def Copy.elem (c : Copy) (rd : Reader) (r k i0 : Nat) : Option (Nat × Flags) :=
  match c.xf with
  | 1 =>
    -- dst(i0, i1, i2, i3) := src(i1, i0, i2, i3)
    let row := copyRow c.src c.sorg (i0 + 16 * (r / 16))
    (c.srcCode rd row.addr (r % 16)).map fun v => (v, 0)
  | 2 =>
    let row := copyRow c.src c.sorg k
    match c.srcCode rd row.addr i0, c.srcParam rd row i0, fmtOf (dFmt c.dst) with
    | some v, some p, some f =>
      let j := r * dExtent c.dst 0 + i0
      let m := (modeOfCode c.mode).getD .rne
      let out := round (elemVal (dFmt c.src) v p) f { mode := m, random := if m = .sr then rnd c.seed c.key j else 0 }
      some (out.code, out.flags)
    | _, _, _ => none
  | 3 => (c.srcCode rd (copyRow c.src c.sorg k).addr (i0 % dExtent c.src 0)).map fun v => (v, 0)
  | _ => (c.srcCode rd (copyRow c.src c.sorg k).addr i0).map fun v => (v, 0)

/-- Bytes `js` of a destination row built element by element; bits beyond the last element are zero (R182). -/
def Copy.elemBytes (c : Copy) (rd : Reader) (r k : Nat) (js : List Nat) : List (Option Byte) × Flags :=
  let w := fmtWidth (dFmt c.dst)
  let n := dExtent c.dst 0
  let es := ((js.flatMap fun j => (List.range ((8 * j + 7) / w - 8 * j / w + 1)).map (8 * j / w + ·)).filter fun e => decide (e < n)).eraseDups
  let vals : Tbl (Option (Nat × Flags)) := es.map fun e => (e, c.elem rd r k e)
  let byte (j : Nat) : Option Byte :=
    let mine := (List.range ((8 * j + 7) / w - 8 * j / w + 1)).map (8 * j / w + ·)
    mine.foldl (fun acc e =>
      match acc, (if n ≤ e then some (0, 0) else tget vals none e) with
      | some (a : Byte), some v =>
        some (a ||| BitVec.ofNat 8 (if 8 * j ≤ e * w then v.1 * 2 ^ (e * w - 8 * j) else v.1 / 2 ^ (8 * j - e * w)))
      | _, _ => none) (some 0)
  (js.map byte, vals.foldl (fun f v => match v.2 with | some x => f ||| x.2 | none => f) 0)

/-- The whole of a CMPR row: the mask, the kept elements, zeros (R167). -/
def Copy.cmprRow (c : Copy) (rd : Reader) (k : Nat) : Option (List Byte) :=
  let n := dExtent c.src 0
  let w := fmtWidth (dFmt c.src)
  let row := copyRow c.src c.sorg k
  ((List.range n).mapM fun i => c.srcCode rd row.addr i).map fun codes =>
    let mask := codes.foldr (fun v acc => (if v = 0 then 0 else 1) + 2 * acc) 0
    let kept := codes.filter fun v => decide (v ≠ 0)
    let head := natToBytes ((n + 63) / 64 * 8) mask ++ kept.flatMap fun v => natToBytes (w / 8) v
    head ++ List.replicate (rowBytes c.dst - head.length) 0

/-- The whole of a DCMPR row: each kept element at its place, zeros elsewhere (R167). -/
def Copy.dcmprRow (c : Copy) (rd : Reader) (k : Nat) : Option (List Byte) :=
  let n := dExtent c.dst 0
  let w := fmtWidth (dFmt c.dst)
  let row := copyRow c.src c.sorg k
  (c.srcBytes rd row.addr row.len).map fun bs =>
    let maskLen := (n + 63) / 64 * 8
    let mask := bytesToNat (bs.take maskLen)
    let step (acc : List Byte × Nat) (i : Nat) : List Byte × Nat :=
      if mask.testBit i then (acc.1 ++ (bs.drop (maskLen + acc.2 * (w / 8))).take (w / 8), acc.2 + 1)
      else (acc.1 ++ List.replicate (w / 8) 0, acc.2)
    ((List.range n).foldl step ([], 0)).1

/-- Element bytes `js` of destination row r taken from source row k, with their flags; none marks a byte that derives from
a poisoned sector, for CMPR and DCMPR the whole row (R171). -/
def Copy.rowData (c : Copy) (rd : Reader) (r k : Nat) (js : List Nat) : List (Option Byte) × Flags :=
  match c.xf with
  | 4 => (js.map fun j => (c.cmprRow rd k).map fun bs => bs.getD j 0, 0)
  | 5 => (js.map fun j => (c.dcmprRow rd k).map fun bs => bs.getD j 0, 0)
  | _ => c.elemBytes rd r k js

end Sys2Proof.Machine
end

