-- ==== Sys2Proof/Machine/CopyEngine.lean ====
section
/-! DEFINITION. Copies (R160 to R178): issue, service by sectors and completion; batches (R178, R341), tensor identifiers
(R179) and operand slots (R180). -/

namespace Sys2Proof.Machine

/-! ### Issue (R162, R163) -/

/-- Copies in flight of a cell. -/
def State.cellCopies (s : State) (cell : Nat) : Nat := (s.copies.filter fun c => decide (c.cell = cell)).length

/-- Stage 1: room in the cell and in the cluster's copy engine (R162). -/
def State.copyRoom (s : State) (cell : Nat) : Bool :=
  decide (s.cellCopies cell < 16) && decide ((s.copies.filter fun c => decide (c.cell / 16 = cell / 16)).length < 64)

/-- Whether the octet's transform unit has a free entry (R169). -/
def State.unitRoom (s : State) (cell : Nat) : Bool := decide ((s.copies.filter fun c => c.unit && decide (c.cell / 8 = cell / 8)).length < 8)

/-- A copy joins the unsealed batch of its cell (R162 stage 5, R178). -/
def CellCtx.joinBatch (x : CellCtx) (id quantum : Nat) : CellCtx :=
  { x with unsealed := x.unsealed ++ [id], unsealedQuantum := max x.unsealedQuantum quantum }

/-- Entry n of the tensor identifier table (R154). -/
def State.tidOf (s : State) (n : Nat) : Vec := tget s.myCtx.tids 0 n

/-- Check 15: the index list of GATH and SCAT (R168), empty for another transform. Its entries, or what stops the COPY. Poison under the
list is cause 29 with the offset of the first poisoned byte, met before any entry is looked at (log 31, DEDUCED). -/
def State.indexList (s : State) (d t : Vec) (dtid stid xf : Nat) (c : Word) : Except Out (List Nat) :=
  if xf ≠ 6 ∧ xf ≠ 7 then .ok []
  else
    let gath := decide (xf = 6)
    let n := if gath then dDim d 1 else dDim t 1
    let bound := if gath then dDim t 1 else dDim d 1
    let addrs := span (cellKey s.myCell c.toNat) (4 * n)
    if 256 < n then .error (trap s 40 (descTval (if gath then dtid else stid) (!gath) 9))
    else if c.toNat % 4 ≠ 0 then .error (trap s 4 c)
    else if spadSize < c.toNat + 4 * n then .error (trap s 5 (if c.toNat < spadSize then BitVec.ofNat 64 spadSize else c))
    else if !(addrs.all fun a => s.mayRead (sectorOf a)) then .error (wait s)
    else
      match addrs.find? s.poisonHere with
      | some a => .error (trap s 29 (BitVec.ofNat 64 (a - cellKey s.myCell 0)))
      | none =>
        let bytes := s.loadBytes s.cur.core s.fresh addrs
        let entries := (List.range n).map fun i => bytesToNat ((bytes.drop (4 * i)).take 4)
        if entries.any fun e => decide (bound ≤ e) then .error (trap s 40 (descTval (if gath then stid else dtid) gath 9))
        else .ok entries

/-- Checks 17 and 18 as the COPY meets them: a wait for a walk, a trap, or nothing (R163). -/
def State.endStop (s : State) (space : Nat) (write : Bool) (segs : List Seg) : Option Out :=
  match s.endCheck space write segs with
  | none => none
  | some (.bad cause, a) => some (trap s cause (BitVec.ofInt 64 a))
  | some (_, a) => some (.next (s.requestWalk s.cur.core s.myCtxId a.toNat))

/-- The scoreboard numbers that an ACCM source waits for (R176, R219). -/
def State.tileMarks (s : State) (src : Vec) (segs : List Seg) : List (BitVec 32) :=
  if dSpace src = 4 then
    ((List.range 64).filter fun (t : Nat) => segs.any fun g => decide (g.1 < 1024 * ((t : Int) + 1)) && decide (1024 * (t : Int) < g.1 + g.2)).map
      fun t => tget s.myCtx.matrix.lastw 0 t
  else []

/-- Destination sectors in the order of the rows (R165, R172). -/
def sectorsOf (segs : List (Int × Nat × Nat)) : List Nat :=
  (segs.flatMap fun g => (List.range ((g.2.1 + g.2.2 - 1) / 64 - g.2.1 / 64 + 1)).map (g.2.1 / 64 + ·)).eraseDups

/-- The fields of EXT (R160), as numbers. -/
structure CopyFields where
  dspace : Nat
  sspace : Nat
  dtid : Nat
  stid : Nat
  xf : Nat
  slack : Nat
  sem : Option Nat
  bar : Option Nat
  deriving DecidableEq, Repr

/-- Reads EXT (R160). -/
def copyFields (e : BitVec 64) : CopyFields :=
  let f (lo n : Nat) : Nat := e.toNat / 2 ^ lo % 2 ^ n
  { dspace := f 61 3, sspace := f 58 3, dtid := f 52 6, stid := f 46 6, xf := f 43 3, slack := f 39 4
    sem := if e.getLsbD 38 then some (f 33 5) else none
    bar := if e.getLsbD 32 then some (16 * f 17 15) else none }

/-- The stages of COPY after its operands are read (R162). "Outbound start" writes the barrier object's bytes also where its sector is
poisoned: it takes no trap and the poison stays, as for "outbound done" (R152 names no consumer there; log 85, DESIGN CHOICE). -/
def copyIssue (s : State) (srcs : List Reg) (d : Reg) (dorg sorg list : Word) (rm : BitVec 3) (f : CopyFields) : Out :=
  let dd := s.tidOf f.dtid
  let sd := s.tidOf f.stid
  let dr := descReason dd f.dspace dorg f.xf
  let sr := descReason sd f.sspace sorg f.xf
  let pr := pairReason dd sd f.xf (decide (rm = 6#3))
  if dr ≠ 0 then trap s 40 (descTval f.dtid false dr)
  else if sr ≠ 0 then trap s 40 (descTval f.stid true sr)
  else if pr ≠ 0 then trap s 40 (descTval f.dtid false pr)
  else if (match f.bar with | some b => decide (0x5FFF0 < b) | none => false) then trap s 7 (BitVec.ofNat 64 (f.bar.getD 0))
  else
    match s.indexList dd sd f.dtid f.stid f.xf list with
    | .error o => o
    | .ok index =>
      let ws := writeSegs dd sd dorg f.xf index
      let rs := readSegs dd sd sorg f.xf index
      let slots := (if f.dspace = 3 then slotsOf ws else []) ++ (if f.sspace = 3 then slotsOf rs else [])
      match (List.range 32).find? fun n => slots.contains n && !s.myCtx.held.getLsbD n with
      | some n => trap s 31 (BitVec.ofNat 64 n)
      | none =>
        match s.endStop f.sspace false rs with
        | some o => o
        | none =>
          match s.endStop f.dspace true ws with
          | some o => o
          | none =>
            let pages := s.pagesOf ((if f.sspace = 0 ∨ f.sspace = 5 then rs else []) ++ (if f.dspace = 0 ∨ f.dspace = 5 then ws else []))
            let wk := keySegs s.myCell pages f.dspace ws
            let rk := keySegs s.myCell pages f.sspace rs ++
              (if f.xf = 6 ∨ f.xf = 7 then [(0, cellKey s.myCell list.toNat, 4 * index.length)] else [])
            match (if f.xf = 0 then none else overlapAt wk rk) with
            | some a => trap s 30 (BitVec.ofInt 64 a)
            | none =>
              if f.xf ≠ 0 ∧ s.unitRoom s.myCell = false then .next (s.finish srcs d 1)
              else
                let m := if f.xf = 2 then (s.me.mode rm (isNarrowing (dFmt dd) (dFmt sd))).getD .rne else .rne
                let code := match m with | .rne => 1 | .rtz => 2 | .rup => 3 | .rdn => 4 | .rna => 5 | .sr => 6
                let q := s.quantumOf s.myCtxId
                let c : Copy :=
                  { id := s.fresh, ctx := s.myCtxId, cell := s.myCell, dst := dd, src := sd, dorg := dorg, sorg := sorg, xf := f.xf
                    mode := code, seed := s.me.srseed, key := s.me.srcnt, index := index, pages := pages, todo := sectorsOf wk
                    snapshot := none, flags := 0, slack := f.slack, issue := s.now, sem := f.sem
                    bar := f.bar.map fun b => cellKey s.myCell b, unit := decide (f.xf ≠ 0), lid := s.myLid, quantum := q
                    after := s.past s.cur.core, tiles := s.tileMarks sd rs, writes := [] }
                let s0 := s.noteRead s.cur.core s.fresh (span (cellKey s.myCell list.toNat) (4 * index.length))
                let s1 := { s0 with copies := s0.copies ++ [c] }.bump
                let s2 := (s1.updMyCtx fun x => x.joinBatch c.id q).updMe fun k => if f.xf = 2 ∧ m = .sr then { k with srcnt := k.srcnt + 1 } else k
                let s3 := match c.bar with
                  | some key => s2.setBar key s2.myCell (.core s2.cur.core) (barStart (s2.barAt key))
                  | none => s2
                .next (s3.finish srcs d 0)

/-- COPY (R160 to R171). A reserved DMODE stops a CVT that rounds by it, and no other: FP32 from FP16 needs no rounding (R192); the
trap comes before the wait for room and before check 12 (R33 check 6; log 86, DESIGN CHOICE). -/
def execCopy (d a b c : Reg) (rm : BitVec 3) (ext : BitVec 64) (s : State) : Out :=
  let f := copyFields ext
  let tids := s.me.controlPending (0x9000 + 64 * f.dtid) || s.me.controlPending (0x9000 + 64 * f.stid)
  let reserved := decide (f.xf = 2) && (s.me.mode rm true).isNone
  if reserved && tids then wait s
  else if reserved && isNarrowing (dFmt (s.tidOf f.dtid)) (dFmt (s.tidOf f.stid)) then trap s 2 (s.cur.word.setWidth 64)
  else if !s.copyRoom s.myCell then wait s
  else
    let lists := decide (f.xf = 6) || decide (f.xf = 7)
    let srcs := if lists then [a, b, c] else [a, b]
    match s.blocked srcs (some d) with
    | some o => o
    | none =>
      if tids ||
          (match f.bar with | some b => !s.sectorQuiet (cellKey s.myCell b) | none => false) then wait s
      else copyIssue s srcs d (s.sval [] a) (s.sval [a] b) (if lists then s.sval [a, b] c else 0) rm f

/-! ### Service (R172) -/

/-- eff of a copy (R172). -/
def Copy.eff (c : Copy) (now : Nat) : Nat := c.slack - (now - c.issue) / 4096

/-- Whether a copy has work that may be served now: what its A-core did before it is visible in the cell (R174), the matrix
commands that its ACCM source waits for are done (R176), and the interface takes the next counted write of an RSTCP (R264, R405). -/
def State.copyReady (s : State) (c : Copy) : Bool :=
  !(c.todo.isEmpty && c.writes.isEmpty) && s.settled ⟨c.cell, .a⟩ c.after 0 &&
    (!c.todo.isEmpty || (c.writes.take 1).all (s.canSend c.ctx c.cell)) && c.tiles.all fun l => decide (((s.ctxOf c.cell).matrix.done - l).toNat < 2 ^ 31)

/-- The copy that a cluster's engine serves next: least effective slack, ties to the earlier issue (R172). The engine of a fenced cluster, and
the copies of a context that a fence has struck, are served no more (R15, R16). -/
def State.nextCopy (s : State) (cluster : Nat) : Option Copy :=
  (s.copies.filter fun c => decide (c.cell / 16 = cluster) && !s.unitOut 1 cluster && !s.isDying c.ctx && s.copyReady c).foldl (fun acc c =>
    match acc with
    | none => some c
    | some b => if c.eff s.now < b.eff s.now then some c else some b) none

/-- Replaces a copy in flight. -/
def State.setCopy (s : State) (c : Copy) : State := { s with copies := s.copies.map fun b => if b.id = c.id then c else b }

/-- How a copy reads memory: through its snapshot when it has one, else as its cell sees it, or saw it for the bytes that it
read before the others (R170, R171, R175). -/
def State.reader (s : State) (c : Copy) : Reader := fun a =>
  match c.snapshot with
  | some m => tfind m a
  | none => if s.poisonedFor (.cell c.cell) (sectorOf a) then none else some ((tfind c.early a).getD (s.byteFor (.cell c.cell) a))

/-- A plain copy whose ranges overlap keeps every source byte before it writes any; a poisoned byte is left out (R170). -/
def State.takeSnapshot (s : State) (c : Copy) : Copy :=
  let wk := keySegs c.cell c.pages (dSpace c.dst) (writeSegs c.dst c.src c.dorg c.xf c.index)
  let rk := keySegs c.cell c.pages (dSpace c.src) (readSegs c.dst c.src c.sorg c.xf c.index)
  if c.snapshot.isNone && (overlapAt wk rk).isSome then
    let bytes := rk.flatMap fun g => (span g.2.1 g.2.2).filterMap fun a => (s.reader c a).map fun b => (a, b)
    { c with snapshot := some bytes }
  else c

/-- The bytes of one destination sector that a copy gives, in row order, with their flags (R165 to R168). -/
def Copy.sectorData (c : Copy) (rd : Reader) (sector : Nat) : List (Nat × Option Byte) × Flags :=
  let keyOf (a : Int) : Nat := spaceKey c.cell c.pages (dSpace c.dst) a
  let here (a : Int) (n : Nat) : List Nat := (List.range n).filter fun (j : Nat) => decide (sectorOf (keyOf (a + (j : Int))) = sector)
  (rowPairs c.dst c.src c.xf c.index).foldl (fun acc p =>
    let row := copyRow c.dst c.dorg p.1
    let js := here row.addr row.len
    let elems := if js.isEmpty then ([], 0) else c.rowData rd p.1 p.2 js
    let ps := if movesParams c.xf then here row.paddr row.plen else []
    let srow := copyRow c.src c.sorg p.2
    let params := ps.map fun (j : Nat) => (keyOf (row.paddr + (j : Int)), rd (spaceKey c.cell c.pages (dSpace c.src) (srow.paddr + (j : Int))))
    (acc.1 ++ (js.map fun (j : Nat) => keyOf (row.addr + (j : Int))).zip elems.1 ++ params, acc.2 ||| elems.2)) ([], 0)

/-- The last entry of each byte of a sector, in rising order: a later row wins (R168). An earlier row that derives from poison and is
overwritten whole leaves no marker (R171; log 109, DESIGN CHOICE). -/
def lastBytes (sector : Nat) (cells : List (Nat × Option Byte)) : List (Nat × Option Byte) :=
  (span (64 * sector) 64).filterMap fun a => cells.reverse.find? fun c => decide (c.1 = a)

/-- A copy writes one destination sector, or the poison marker when some of it derives from a poisoned sector (R171); a
write to an owned page sets WRITTEN (R332). -/
def State.serveSector (s : State) (c0 : Copy) (sector : Nat) : State :=
  let c := s.takeSnapshot c0
  let r := c.sectorData (s.reader c) sector
  let cells := lastBytes sector r.1
  let c1 := { c with todo := c.todo.drop 1, early := [], flags := c.flags ||| r.2 }
  let owned := (c.pages.find? fun p => decide (p.2.1 / 4096 = sector * 64 / 4096)).bind fun p => p.2.2
  let s1 := s.setCopy c1
  let s2 := if cells.any fun x => x.2.isNone then s1.addMarker c.id [sector] c.cell (.copy c.id) 0
    else s1.addWhole c.id (cells.filterMap fun x => x.2.map fun b => (x.1, b)) c.cell (.copy c.id) 0
  if dSpace c.dst = 0 ∨ dSpace c.dst = 5 then s2.markWritten owned else s2

/-- A copy reads some bytes of the next sector before the others: a byte that others write meanwhile is old or new, byte by byte
(R175). -/
def State.readEarly (s : State) (c : Copy) (keys : List Nat) : State :=
  let new := keys.filterMap fun a => if (tfind c.early a).isSome then none else (s.reader c a).map fun b => (a, b)
  s.setCopy { c with early := c.early ++ new }

/-- COPY_SECTOR: a cluster's engine serves one sector of the copy that is next, or one counted write of an RSTCP (R172,
R257); with `flag` it first reads the bytes `cells` of its source (R175, R267). With `memory` 1 the network interface of context `ctx` in `cell`
reads source bytes of sending `index` (R267, R325; log 101, DESIGN CHOICE). -/
def execCopySector (s : State) : Out :=
  if s.args.memory = 1 then .next (s.readSending s.args.ctx s.args.cell s.args.index (if s.args.flag then some s.args.cells else none))
  else
  match s.nextCopy s.args.cluster with
  | none => .next s
  | some c =>
    match c.todo, c.writes with
    | sector :: _, _ => .next (if s.args.flag then s.readEarly c s.args.cells else s.serveSector c sector)
    | [], w :: rest =>
      .next (if s.args.flag then s.readEarly c s.args.cells
        else (s.setCopy { c with writes := rest, early := [] }).sendFirst c.ctx c.cell w 0 c.early)
    | [], [] => .next s

/-! ### Completion (R173) -/

/-- An engine's "outbound done" for a core's operation; a member's is kept until its quantum enters the view (R152, R341). -/
def State.lagBar (s : State) (cell quantum key : Nat) (owner : Owner) : State :=
  if (s.coreOf ⟨cell, .a⟩).member.active then
    s.updCtx cell fun x => { x with heldPosts := x.heldPosts ++ [{ quantum := quantum, role := .a, sem := none, bar := some key }] }
  else s.setBar key cell owner (barDone (s.barAt key))

/-- COPY_COMPLETION: copy `index` of the list completes once all its writes are visible at chip scope, or at system scope
for a HOST destination: flags, counts, batch, post, barrier, in that order (R173). -/
def execCopyCompletion (s : State) : Out :=
  match s.copies[s.args.index]? with
  | none => .next s
  | some c =>
    if c.todo.isEmpty && c.writes.isEmpty && s.writesAt [c.id] (if dSpace c.dst = 5 then 4 else 2) then
      let s1 := s.updCore ⟨c.cell, .a⟩ (·.raise c.flags)
      let s2 := { s1 with copies := s1.copies.filter fun b => decide (b.id ≠ c.id) }
      let s3 := match c.sem with
        | some n => s2.lagPost c.cell .a c.quantum n
        | none => s2
      .next (match c.bar with
        | some key => s3.lagBar c.cell c.quantum key (.copy c.id)
        | none => s3)
    else .next s

/-! ### Batches (R178, R341) -/

/-- Whether every copy of a batch has completed. -/
def State.batchDone (s : State) (b : Batch) : Bool := b.copies.all fun id => s.copies.all fun c => decide (c.id ≠ id)

/-- Unfinished sealed batches: they finish in sealing order (R178). -/
def State.unfinished (s : State) (cell : Nat) : Nat := ((s.ctxOf cell).sealed.dropWhile s.batchDone).length

/-- Whether an operation forked in a quantum shows as finished to the core whose turn it is (R341). -/
def State.inView (s : State) (quantum : Nat) : Bool := decide (quantum + s.me.quantLag ≤ s.quantumOf s.myCtxId)

/-- Unfinished sealed batches as a test answers: a member's by the lag rule (R341), which a batch without copies does not wait for
(R178). -/
def State.unfinishedView (s : State) : Nat :=
  if s.inGroup then (s.myCtx.sealed.dropWhile fun b => b.copies.isEmpty || s.inView b.quantum).length else s.unfinished s.myCell

/-- CSEAL: seals the copies started since the last seal; it waits while 16 sealed batches are unfinished (R178). -/
def execCseal (s : State) : Out :=
  if 16 ≤ s.unfinished s.myCell then wait s
  else
    let x := s.myCtx
    let kept := if s.me.member.active then x.sealed.dropWhile fun b => s.batchDone b && (b.copies.isEmpty || s.inView b.quantum) else x.sealed.dropWhile s.batchDone
    let b : Batch := { copies := x.unsealed, quantum := x.unsealedQuantum }
    .next (s.updMyCtx fun x => { x with sealed := kept ++ [b], unsealed := [], unsealedQuantum := 0 }).retire

/-- CWAIT n: waits until at most n sealed batches are unfinished (R178). -/
def execCwait (imm : BitVec 4) (s : State) : Out := if s.unfinished s.myCell ≤ imm.toNat then .next s.retire else wait s

/-- CTEST (R178, R341). -/
def execCtest (d : Reg) (imm : BitVec 4) (s : State) : Out := alu0 s d (flag (decide (s.unfinishedView ≤ imm.toNat)))

/-- CCNT (R178). A count above 255 shows its low 8 bits (log 106, DESIGN CHOICE). -/
def execCcnt (d : Reg) (s : State) : Out :=
  alu0 s d (BitVec.ofNat 64 (s.unfinished s.myCell % 256 + 2 ^ 8 * (s.myCtx.unsealed.length % 256) + 2 ^ 16 * (s.cellCopies s.myCell % 256)))

/-! ### Tensor identifiers (R179) -/

/-- TIDN of the IMM of TID. -/
def tidNum (imm : BitVec 25) : Nat := (imm.extractLsb' 0 6).toNat

/-- ea of TIDLD and TIDST. -/
def tidAddr (a : Word) (imm : BitVec 25) : Nat := ((a + (imm.extractLsb' 6 19).signExtend 64 * 64).setWidth 48).toNat

/-- TIDLD: entry N := the 64 bytes at ea of the own scratchpad (R179). -/
def execTidld (a : Reg) (imm : BitVec 25) (s : State) : Out :=
  match s.blocked [a] none with
  | some o => o
  | none =>
    let ea := tidAddr (s.sval [] a) imm
    let key := cellKey s.myCell ea
    if ea % 64 ≠ 0 then trap s 4 (eaWord ea)
    else if regionOf ea ≠ .spad then trap s 5 (eaWord ea)
    else if s.me.controlPending (0x9000 + 64 * tidNum imm) || !s.mayRead (sectorOf key) then wait s
    else if s.poisonHere key then trap s 29 (eaWord ea)
    else
      let v : Vec := BitVec.ofNat 512 (bytesToNat (s.loadBytes s.cur.core s.fresh (span key 64)))
      let s1 := (s.noteRead s.cur.core s.fresh (span key 64)).bump
      .next ((s1.updMyCtx fun x => { x with tids := tset x.tids (tidNum imm) v }).finishNone [a])

/-- TIDST: the 64 bytes at ea := entry N (R179). -/
def execTidst (a : Reg) (imm : BitVec 25) (s : State) : Out :=
  match s.blocked [a] none with
  | some o => o
  | none =>
    let ea := tidAddr (s.sval [] a) imm
    if ea % 64 ≠ 0 then trap s 6 (eaWord ea)
    else if regionOf ea ≠ .spad then trap s 7 (eaWord ea)
    else if s.me.controlPending (0x9000 + 64 * tidNum imm) then wait s
    else .next (((s.buffer64 (cellKey s.myCell ea) (s.tidOf (tidNum imm)) none none).bump).finishNone [a])

/-- TIDBASE: BASE of entry N := a[47:0] (R179). -/
def execTidbase (a : Reg) (imm : BitVec 6) (s : State) : Out :=
  match s.blocked [a] none with
  | some o => o
  | none =>
    if s.me.controlPending (0x9000 + 64 * imm.toNat) then wait s
    else
      let v := s.sval [] a
      .next ((s.updMyCtx fun x => { x with tids := tupd x.tids 0 imm.toNat fun t => vecPut t 0 6 v.toNat }).finishNone [a])

/-! ### Operand slots (R180) -/

/-- Sets or clears a slot of the own cell. -/
def State.setSlot (s : State) (n : Nat) (v : Bool) : State :=
  s.updMyCtx fun x =>
    let bit : BitVec 32 := 1#32 <<< n
    { x with held := if v then x.held ||| bit else x.held &&& ~~~bit }

/-- The waiting line of a slot. -/
def State.slotLine (s : State) (n : Nat) : List Role := tget s.myCtx.slotLines [] n

/-- OSCLAIM: waits in line until the slot is FREE, then makes it HELD (R148, R180). -/
def execOsclaim (imm : BitVec 5) (s : State) : Out :=
  let n := imm.toNat
  let r := s.cur.core.role
  let line := s.slotLine n
  if !s.myCtx.held.getLsbD n && (match line with | [] => true | q :: _ => decide (q = r)) then
    .next (((s.updMyCtx fun x => { x with slotLines := tset x.slotLines n (line.filter fun q => decide (q ≠ r)) }).setSlot n true).retire)
  else .next (s.updMyCtx fun x => { x with slotLines := tset x.slotLines n (if line.contains r then line else line ++ [r]) })

/-- OSTRY (R180). -/
def execOstry (d : Reg) (imm : BitVec 5) (s : State) : Out :=
  match s.blocked [] (some d) with
  | some o => o
  | none =>
    if !s.myCtx.held.getLsbD imm.toNat && (s.slotLine imm.toNat).isEmpty then .next ((s.setSlot imm.toNat true).finish [] d 1)
    else .next (s.finish [] d 0)

/-- Whether a queued or executing command names a slot (R180). -/
def Matrix.names (m : Matrix) (n : Nat) : Bool :=
  m.queue.any fun c => (decide (cmdKind c.word = 1) || decide (cmdKind c.word = 2)) &&
    (decide (cmdSlotA c.word = n) || decide (cmdSlotB c.word = n))

/-- OSREL (R180). -/
def execOsrel (imm : BitVec 5) (s : State) : Out :=
  let n := imm.toNat
  if !s.myCtx.held.getLsbD n then trap s 31 (BitVec.ofNat 64 n)
  else if (s.copies.any fun c => decide (c.cell = s.myCell) && c.slots.contains n) || s.myCtx.matrix.names n then wait s
  else .next (s.setSlot n false).retire

/-- OSST (R180). -/
def execOsst (d : Reg) (s : State) : Out := alu0 s d (s.myCtx.held.setWidth 64)

end Sys2Proof.Machine
end

