-- ==== Sys2Proof/Machine/Ownership.lean ====
section
/-! DEFINITION. Ownership of pages: OHAND, OTAKE, ODROP and OTEST (R329 to R331, R340, R341). -/

namespace Sys2Proof.Machine

/-- Cause 45 with a reason (R330). -/
def ownTrap (s : State) (reason : Nat) : Out := trap s 45 (BitVec.ofNat 64 reason)

/-- Checks 38 and 39: the owned leaf page that translates ea (R330). -/
def State.ownPage (s : State) (kind : AccKind) (ea : Nat) : Except Out Nat :=
  if regionOf ea ≠ .translated then .error (ownTrap s 1)
  else
    match s.transFor s.cur.core s.myCtxId ea with
    | .miss => .error (.next (s.requestWalk s.cur.core s.myCtxId ea))
    | .fail => .error (trap s kind.pageCause (eaWord ea))
    | .leaf e l =>
      if !s.reaches e l ea kind then .error (trap s kind.faultCause (eaWord ea))
      else if !pteO e then .error (ownTrap s 1)
      else .ok (leafPage e)

/-- Whether a copy in flight writes an owned page (R331). -/
def Copy.writesPage (c : Copy) (page : Nat) : Bool :=
  (decide (dSpace c.dst = 0) || decide (dSpace c.dst = 5)) &&
    (keySegs c.cell c.pages (dSpace c.dst) (writeSegs c.dst c.src c.dorg c.xf c.index)).any fun g =>
      c.pages.any fun p => decide (p.2.2 = some page) && decide (p.2.1 / 4096 = g.2.1 / 4096)

/-- What OHAND and ODROP wait for: every earlier access of the core visible at chip scope, and every copy that the core
issued and that writes the page completed (R331). In a group the collected accesses before a collected one are applied before it (R340). -/
def State.handReady (s : State) (page : Nat) : Bool :=
  let p := s.cur.core
  s.settled p (if s.inGroup then s.pastLocal p ++ s.remote p fun _ => true else s.past p) 2 &&
    (decide (s.cur.core.role ≠ .a) || s.copies.all fun c => !(decide (c.cell = s.myCell) && decide (c.ctx = s.myCtxId) && c.writesPage page))

/-- Check 40: a COREID that may receive a page (R330). -/
def State.handTarget (s : State) (d : Word) : Bool :=
  decide (d.extractLsb' 28 36 = 0) && decide (d.extractLsb' 12 4 = 0) && decide (d.extractLsb' 10 2 ≠ 3#2) && decide (d.extractLsb' 16 12 = s.chip)

/-- Hand (R331). -/
def OwnRec.hand (r : OwnRec) (ctx : Nat) (heir : Word) (me : Nat × Word) : OwnRec :=
  { r with holder := none, pending := some (ctx, heir), handedBy := some me }

/-- Drop (R331). -/
def OwnRec.drop (r : OwnRec) : OwnRec := { r with holder := none, pending := none, written := false }

/-- Take: the record and D, none while it waits (R331). -/
def OwnRec.take (r : OwnRec) (me : Nat × Word) : Option (OwnRec × Word) :=
  if r.holder = some me then some (r, 0)
  else
    let held : OwnRec := { r with holder := some me, pending := none, written := false }
    if r.pending = some me then some (held, 1)
    else if r.holder = none ∧ r.pending = none then some (held, 2)
    else if r.pending.isSome ∧ r.handedBy = some me then some (held, 3)
    else none

/-- OHAND (R330, R331). -/
def execOhand (d a : Reg) (imm : BitVec 25) (s : State) : Out :=
  match s.blocked [a, d] none with
  | some o => o
  | none =>
    let ea := effAddr (s.sval [] a) imm
    let heir := s.sval [a] d
    match s.ownPage .store ea with
    | .error o => o
    | .ok page =>
      if !s.handTarget heir then ownTrap s 2
      else if !s.holds page then trap s 26 (eaWord ea)
      else if !s.handReady page then wait s
      else if s.inGroup then .next ((s.collect (.hand page heir)).finishNone [a, d])
      else .next ((s.setOwn page ((s.ownOf page).hand s.myCtxId heir s.meOwner)).finishNone [a, d])

/-- OTAKE (R330, R331). -/
def execOtake (d a : Reg) (imm : BitVec 25) (s : State) : Out :=
  match s.blocked [a] (some d) with
  | some o => o
  | none =>
    let ea := effAddr (s.sval [] a) imm
    match s.ownPage .load ea with
    | .error o => o
    | .ok page =>
      if s.inGroup then
        let dst : Option RegName := if d = 0#6 then none else some (.x d.toNat)
        .next (((((s.collect (.take page dst s.fresh)).bump).pendBoundary d).popAll [a]).retire)
      else
        match (s.ownOf page).take s.meOwner with
        | none => wait s
        | some (r, v) => .next ((s.setOwn page r).finish [a] d v)

/-- ODROP (R330, R331). -/
def execOdrop (a : Reg) (imm : BitVec 25) (s : State) : Out :=
  match s.blocked [a] none with
  | some o => o
  | none =>
    let ea := effAddr (s.sval [] a) imm
    match s.ownPage .store ea with
    | .error o => o
    | .ok page =>
      if !s.holds page then trap s 26 (eaWord ea)
      else if !s.handReady page then wait s
      else if s.inGroup then .next ((s.collect (.drop page)).finishNone [a])
      else .next ((s.setOwn page (s.ownOf page).drop).finishNone [a])

/-- The state word of OTEST (R330). -/
def OwnRec.word (r : OwnRec) (me : Nat × Word) : Word :=
  let st : Nat :=
    match r.holder, r.pending with
    | some h, _ => if h = me then 1 else 2
    | none, some p => if p = me then 3 else 4
    | none, none => 0
  BitVec.ofNat 64 (st + 256 * r.written.toNat)

/-- An ownership record as the own group's last boundary took it (R341). -/
def State.ownViewOf (s : State) (page : Nat) : OwnRec :=
  match s.context s.myCtxId with
  | some c => tget c.ownView {} page
  | none => {}

/-- OTEST (R330); a member answers from the view (R341). -/
def execOtest (d a : Reg) (imm : BitVec 25) (s : State) : Out :=
  match s.blocked [a] (some d) with
  | some o => o
  | none =>
    let ea := effAddr (s.sval [] a) imm
    match s.ownPage .load ea with
    | .error o => o
    | .ok page =>
      let r := if s.inGroup then s.ownViewOf page else s.ownOf page
      .next (s.finish [a] d (r.word s.meOwner))

end Sys2Proof.Machine
end

