-- ==== Sys2Proof/Machine/FabricCore.lean ====
section
/-! DEFINITION. The fabric instructions at the issuing A-core (R256 to R263, R267, R397, R405). -/

namespace Sys2Proof.Machine

/-! ### Shared parts -/

/-- fa of R257 and R258: the offset is added to CADDR. -/
def fabricAddr (a : Word) (imm : BitVec 25) : Word := (a &&& 0xFFFF000000000000#64) ||| mask48 (mask48 a + imm25 imm)

/-- Check 25 for a fabric address: a permitted kind, and CADDR in its range (R98, R263). -/
def kindOk (fa : Word) (counter : Bool) : Bool := (decide (faKind fa ≤ 1) || (counter && decide (faKind fa = 2))) && faInRange fa

/-- A chip identifier that the scale-out table maps (R272). -/
def State.isProxy (s : State) (chip : BitVec 12) : Bool := (tfind s.service.proxies chip.toNat).isSome

/-- A group as a kernel finds it: its members, or the trap reason. -/
inductive Group where
  | members (chips : List (BitVec 12))
  | bad (reason : Nat)
  deriving DecidableEq, Repr

/-- Reads an entry of the group table of a context (R287, R288). -/
def State.groupOf (s : State) (ctx g : Nat) : Group :=
  match s.context ctx with
  | none => .bad 5
  | some c =>
    match s.deviceKeys 0 ctx .load (span (c.gtbase.toNat + 64 * g) 64) with
    | .error _ => .bad 5
    | .ok keys =>
      if (s.poisonAmong .chip keys).isSome then .bad 6
      else
        let v := s.natFor .chip keys
        let f (off n : Nat) : Nat := v / 2 ^ (8 * off) % 2 ^ (8 * n)
        let count := f 0 1
        let members := (List.range count).map fun m => f (0x10 + 2 * m) 2
        if 24 < count ∨ 2 ≤ f 1 1 ∨ f 2 14 ≠ 0 ∨ members.any (fun m => decide (4096 ≤ m)) then .bad 4
        else if f 1 1 = 0 then .members []
        else .members (members.map (BitVec.ofNat 12))

/-- What a reader of an entry of the group table waits for in host-assisted mode (R389; log 12, DEDUCED). -/
def State.groupWait (s : State) (ctx g : Nat) : Option State :=
  match s.context ctx with
  | none => none
  | some c => s.assistWait 0 ctx (span (c.gtbase.toNat + 64 * g) 64)

/-- Whether a group holds a proxy identifier, to which no multicast goes (R272; log 87, DEDUCED). -/
def State.groupProxy (s : State) (ctx g : Nat) : Bool :=
  match s.groupOf ctx g with
  | .members ms => ms.any s.isProxy
  | .bad _ => false

/-- CTR of PMK (R256). -/
def pmkCtr (p : Word) : BitVec 13 := p.extractLsb' 32 13

/-- SEQ of PMK (R256). -/
def pmkSeq (p : Word) : BitVec 16 := p.extractLsb' 0 16

/-- PMK with SEQ advanced, modulo 2^16 (R256). -/
def pmkAdvance (p : Word) (n : Nat) : Word := (p &&& 0xFFFFFFFFFFFF0000#64) ||| (pmkSeq p + BitVec.ofNat 16 n).setWidth 64

/-- The network interface of the own cell. -/
def State.myNi (s : State) : Ni := s.niOf s.myCtxId s.myCell

/-- Replaces the network interface of the own cell. -/
def State.setMyNi (s : State) (n : Ni) : State := s.setNi s.myCtxId s.myCell n

/-- A packet of the own cell (R250). -/
def State.myPacket (s : State) (type : Nat) (dchip : BitVec 12) (addr : Word) : Packet := packetOf type dchip s.chip s.myCell s.myCtxId addr

/-! ### Counted writes: RST (R257) -/

/-- RST: one counted write of d[8s − 1 : 0] to fa (R257, R267). -/
def execRst (d a : Reg) (esz : BitVec 2) (imm : BitVec 25) (s : State) : Out :=
  match s.blocked [a, d] none with
  | some o => o
  | none =>
    let fa := fabricAddr (s.sval [] a) imm
    let size := eszBytes esz
    if !kindOk fa false then trap s 7 fa
    else if fa.toNat % size ≠ 0 then trap s 6 fa
    else if !s.recordRoom s.myCell 1 then wait s
    else
      let pmk := s.myCtx.pmk
      let p := (s.myPacket 0 (faChip fa) fa).withPayload (natToBytes size (s.sval [a] d).toNat)
      let q := { p with ctr := pmkCtr pmk, seq := pmkSeq pmk, bytes := BitVec.ofNat 11 size }
      let r : SendRec := { packet := q, source := .data }
      let s1 := (s.keepRecord s.myCtxId s.myCell r).sendWrite s.myCtxId s.myCell r 0
      .next ((s1.updMyCtx fun x => { x with pmk := pmkAdvance x.pmk 1 }).finishNone [a, d])

/-- The source bytes of an RSTCP, row after row, as (key, address) (R257). -/
def rstcpBytes (cell : Nat) (pages : List (Nat × Nat × Option Nat)) (desc : Vec) (org : Word) : List (Nat × Nat) :=
  (List.range (rowCount desc)).flatMap fun r =>
    let row := copyRow desc org r
    (List.range row.len).map fun (j : Nat) => (spaceKey cell pages (dSpace desc) (row.addr + (j : Int)), (row.addr + (j : Int)).toNat)

/-- RSTCP: counted writes of tensor N to contiguous bytes from a, through the copy engine (R257, R405). -/
def execRstcp (d a : Reg) (imm : BitVec 6) (s : State) : Out :=
  match s.blocked [a, d] none with
  | some o => o
  | none =>
    let fa := s.sval [] a
    let org := s.sval [a] d
    let desc := s.tidOf imm.toNat
    let space := if dSpace desc ≤ 1 then dSpace desc else 8
    let reason := descReason desc space org 8
    let total := rowCount desc * rowBytes desc
    let n := (total + 255) / 256
    if !kindOk fa false then trap s 7 fa
    else if faAddr fa % 64 ≠ 0 then trap s 6 fa
    else if s.me.controlPending (0x9000 + 64 * imm.toNat) then wait s
    else if reason ≠ 0 then trap s 40 (descTval imm.toNat true reason)
    else if 0x40000 < total then trap s 42 (BitVec.ofNat 64 total)
    else
      let segs := rowSegs ((List.range (rowCount desc)).map (copyRow desc org)) false
      match s.endStop (dSpace desc) false segs with
      | some o => o
      | none =>
        if !s.copyRoom s.myCell || !s.recordRoom s.myCell n then wait s
        else
          let pages := if dSpace desc = 0 then s.pagesOf segs else []
          let bytes := rstcpBytes s.myCell pages desc org
          let pmk := s.myCtx.pmk
          let rec1 (i : Nat) : SendRec :=
            let part := (bytes.drop (256 * i)).take 256
            let p := s.myPacket 0 (faChip fa) ((fa &&& 0xFFFF000000000000#64) ||| mask48 (fa + BitVec.ofNat 64 (256 * i)))
            { packet := { p with ctr := pmkCtr pmk, seq := pmkSeq pmk + BitVec.ofNat 16 i, bytes := BitVec.ofNat 11 part.length }
              source := .memory part, after := s.past s.cur.core }
          let recs := (List.range n).map rec1
          let q := s.quantumOf s.myCtxId
          let c : Copy :=
            { id := s.fresh, ctx := s.myCtxId, cell := s.myCell, dst := 0, src := desc, dorg := 0, sorg := org, xf := 0, mode := 1
              seed := 0, key := 0, index := [], pages := pages, todo := [], snapshot := none, flags := 0, slack := 0, issue := s.now
              sem := none, bar := none, unit := false, lid := s.myLid, quantum := q, after := s.past s.cur.core, tiles := [], writes := recs }
          let ni := s.myNi
          let s1 := ({ s with copies := s.copies ++ [c] }.bump).setMyNi { ni with recs := ni.recs ++ recs }
          let s2 := s1.updMyCtx fun x => { x.joinBatch c.id q with pmk := pmkAdvance x.pmk n }
          .next (s2.finishNone [a, d])

/-- RSTPM: PMK := a (R256, R257). -/
def execRstpm (a : Reg) (s : State) : Out :=
  match s.blocked [a] none with
  | some o => o
  | none =>
    let v := s.sval [] a
    if v &&& 0xFFFFE000FFFF0000#64 ≠ 0 then trap s 42 v
    else .next ((s.updMyCtx fun x => { x with pmk := v }).finishNone [a])

/-- RSTPMRD: D := PMK (R257). -/
def execRstpmrd (d : Reg) (s : State) : Out := alu0 s d s.myCtx.pmk

/-! ### Remote loads: RLD (R258, R259) -/

/-- The lowest free load tag (R259). -/
def Ni.freeTag (n : Ni) : Option Nat := (List.range 8).find? fun t => (tfind n.tags t).isNone

/-- Whether what the core has under way holds a remote load back: an acquire load that is not performed (R321, R322), for a fetch-and-add a
fence that waits (R136; log 77, DEDUCED), and a remote load of the same sector of another chip, since the fabric keeps no order of the two
(R266, R321; log 102, DEDUCED). -/
def State.remoteHeld (s : State) (fa : Word) (add : Bool) : Bool :=
  let same (t : LoadTag) : Bool := decide (faChip t.fa = faChip fa) && decide (faKind t.fa = faKind fa) && decide (sectorOf (faAddr t.fa) = sectorOf (faAddr fa))
  (s.me.loads.any (·.acquire)) || (add && s.me.fenceWaits) ||
    (decide (faChip fa ≠ s.chip) && s.myNi.tags.any fun t => s.myNi.tagWaits t.1 && same t.2)

/-- A remote load: it retires at issue with D pending (R258, R259, R263). RLDADD is an atomic (R98, R336) and takes an atomic's causes
(log 34, DEDUCED). -/
def remoteLoad (s : State) (srcs : List Reg) (d : Reg) (fa : Word) (esz : BitVec 2) (signed counter : Bool) (add : Option Word) : Out :=
  let size := eszBytes esz
  let kind : AccKind := if add.isSome then .atomic else .load
  if !kindOk fa counter then trap s kind.faultCause fa
  else if fa.toNat % size ≠ 0 then trap s kind.alignCause fa
  else if isQueue d then trap s 42 (d.setWidth 64)
  else if s.isProxy (faChip fa) then trap s 42 fa
  else
    match s.myNi.freeTag with
    | none => wait s
    | some t =>
      if s.remoteHeld fa add.isSome then wait s
      else
      let p := s.myPacket 1 (faChip fa) fa
      let q := { p with
        ltag := BitVec.ofNat 4 t, size := esz, fetchAdd := add.isSome
        atag := if add.isSome then (s.cellOf s.myCell).atag else 0
        data := BitVec.ofNat 64 ((add.getD 0).toNat % 2 ^ (8 * size)) }
      let dst : Option RegName := if d = 0#6 then none else some (.x d.toNat)
      let tag : LoadTag := { id := s.fresh, packet := q, dst := dst, signed := signed, fa := fa, round := 1, deadline := s.now + s.timeout }
      let ni := s.myNi
      let s1 := (s.bump.setMyNi { ni with tags := tset ni.tags t tag }).transmit q
      let cell := s1.cellOf s1.myCell
      let s2 := if add.isSome then s1.setCell s1.myCell { cell with atag := cell.atag + 1 } else s1
      let s3 := if d = 0#6 then s2 else s2.updMe fun k => { k with pending := k.pending ++ [{ reg := .x d.toNat, source := .tag t }] }
      .next (s3.finishNone srcs)

/-- A remote load without a data source: check 24, then the rest; D is no room to wait for when it names a queue. -/
def remoteLoadAt (s : State) (d a : Reg) (esz : BitVec 2) (imm : BitVec 25) (signed counter : Bool) : Out :=
  match badQueue s.cur.core.role [a] (some d) with
  | some r => trap s 35 (r.setWidth 64)
  | none =>
    match s.blocked [a] (if isQueue d then none else some d) with
    | some o => o
    | none => remoteLoad s [a] d (fabricAddr (s.sval [] a) imm) esz signed counter none

/-- RLD (R258). -/
def execRld (d a : Reg) (esz : BitVec 2) (imm : BitVec 25) (s : State) : Out := remoteLoadAt s d a esz imm false (decide (esz = 3#2))

/-- RLDS (R258). -/
def execRlds (d a : Reg) (esz : BitVec 2) (imm : BitVec 25) (s : State) : Out := remoteLoadAt s d a esz imm true false

/-- RLDADD: D is the addend and receives the old value (R258). -/
def execRldadd (d a : Reg) (esz : BitVec 2) (imm : BitVec 25) (s : State) : Out :=
  match badQueue s.cur.core.role [a] (some d) with
  | some r => trap s 35 (r.setWidth 64)
  | none =>
    match s.blocked [a] (if isQueue d then none else some d) with
    | some o => o
    | none => remoteLoad s [a] d (fabricAddr (s.sval [] a) imm) esz (decide (esz = 2#2)) false (some (s.me.xr d.toNat))

/-! ### Multicast writes (R260) -/

/-- MCST: one multicast write to group b (R260). The interface reads its source from then on, behind the accesses before it
(R325; log 101, DESIGN CHOICE). -/
def execMcst (d a b c : Reg) (s : State) : Out :=
  let srcs := [a, b, c, d]
  match s.blocked srcs none with
  | some o => o
  | none =>
    let src := (s.sval [] a).toNat
    let group := s.sval [a] b
    let fa := s.sval [a, b] c
    let len := (s.sval [a, b, c] d).toNat
    if faChip fa ≠ 0 ∨ kindOk fa false = false then trap s 7 fa
    else if len = 0 ∨ 256 < len then trap s 42 (BitVec.ofNat 64 len)
    else if group.toNat / 1024 ≠ 0 then trap s 42 group
    else if spadSize < src + len then trap s 5 (if src < spadSize then BitVec.ofNat 64 spadSize else BitVec.ofNat 64 src)
    else
    match s.groupWait s.myCtxId group.toNat with
    | some t => .next t
    | none =>
    if s.groupProxy s.myCtxId group.toNat then trap s 42 group
    else
      let pmk := s.myCtx.pmk
      let p := s.myPacket 7 (group.setWidth 12) fa
      let q := { p with ctr := pmkCtr pmk, seq := pmkSeq pmk, bytes := BitVec.ofNat 11 len }
      let source : SendSource := .memory ((span (cellKey s.myCell src) len).zip (span src len))
      let r : SendRec := { packet := q, source := source, after := s.past s.cur.core }
      if !s.recordRoom s.myCell 1 then wait s
      else
        let s1 := (s.keepRecord s.myCtxId s.myCell r).sendWrite s.myCtxId s.myCell r 0
        .next ((s1.updMyCtx fun x => { x with pmk := pmkAdvance x.pmk 1 }).finishNone srcs)

/-! ### Releases (R261, R397) -/

/-- CTR, START and COUNT of EXT of CREL (R261). -/
def crelCtr (e : BitVec 64) : BitVec 13 := e.extractLsb' 51 13
/-- START. -/
def crelStart (e : BitVec 64) : BitVec 16 := e.extractLsb' 35 16
/-- COUNT. -/
def crelCount (e : BitVec 64) : BitVec 11 := e.extractLsb' 24 11

/-- The lowest-numbered FREE release slot (R397). -/
def Ni.freeSlot (n : Ni) : Option Nat := (List.range 16).find? fun i => decide ((tget n.rel {} i).state = .free)

/-- A release, of a chip or of a group (R261, R263). -/
def releaseIssue (s : State) (srcs : List Reg) (d : Reg) (fa value : Word) (group : Option Word) (esz : BitVec 2) (ext : BitVec 64) : Out :=
  let count := crelCount ext
  if !kindOk fa false then trap s 7 fa
  else if fa.toNat % eszBytes esz ≠ 0 then trap s 6 fa
  else if (match group with | some g => decide (g.toNat / 1024 ≠ 0) | none => false) then trap s 42 (group.getD 0)
  else if count = 0 ∨ 1024 < count.toNat then trap s 42 (count.setWidth 64)
  else if group.isSome && s.isProxy (faChip fa) then trap s 42 fa
  else
  match group.bind fun g => s.groupWait s.myCtxId g.toNat with
  | some t => .next t
  | none =>
  if (match group with | some g => s.groupProxy s.myCtxId g.toNat | none => false) then trap s 42 (group.getD 0)
  else
    match s.myNi.freeSlot with
    | none => wait s
    | some n =>
      let p := match group with
        | some g => s.myPacket 8 (g.setWidth 12) fa
        | none => s.myPacket 4 (faChip fa) fa
      let q := { p with
        ctr := crelCtr ext, seq := crelStart ext, bytes := count, rslot := BitVec.ofNat 4 n, fsz := esz, fval := value }
      let slot : RelSlot :=
        { state := .pending, ctr := (crelCtr ext).toNat, start := crelStart ext, count := count.toNat, packet := some q, round := 1
          deadline := s.now + s.timeout, lid := s.myLid, quantum := s.quantumOf s.myCtxId }
      let ni := s.myNi
      let s1 := (s.setMyNi { ni with rel := tset ni.rel n slot }).transmit q
      .next (s1.finish srcs d (BitVec.ofNat 64 n))

/-- CREL (R261). -/
def execCrel (d a b : Reg) (esz : BitVec 2) (ext : BitVec 64) (s : State) : Out :=
  match s.blocked [a, b] (some d) with
  | some o => o
  | none => releaseIssue s [a, b] d (s.sval [] a) (s.sval [a] b) none esz ext

/-- CRELM (R261). -/
def execCrelm (d a b c : Reg) (esz : BitVec 2) (ext : BitVec 64) (s : State) : Out :=
  match s.blocked [a, b, c] (some d) with
  | some o => o
  | none => releaseIssue s [a, b, c] d (s.sval [] a) (s.sval [a] b) (some (s.sval [a, b] c)) esz ext

/-! ### Receipts at the core (R262) -/

/-- Frees a release slot of the own cell. -/
def State.freeSlot (s : State) (n : Nat) : State :=
  let ni := s.myNi
  s.setMyNi { ni with rel := tdel ni.rel n }

/-- RCPTW (R262). -/
def execRcptw (d : Reg) (imm : BitVec 4) (s : State) : Out :=
  match s.blocked [] (some d) with
  | some o => o
  | none =>
    match (tget s.myNi.rel {} imm.toNat).state with
    | .pending => wait s
    | .free => .next (s.finish [] d 1)
    | .complete => .next ((s.freeSlot imm.toNat).finish [] d 0)
    | .refused _ raddr => trap (s.freeSlot imm.toNat) 27 raddr
    | .failed => trap (s.freeSlot imm.toNat) 43 (imm.setWidth 64)

/-- What RCPTTEST answers for a slot (R262). -/
def relCode : RelState → Word
  | .pending => 0
  | .free => 1
  | .complete => 2
  | .refused _ _ => 3
  | .failed => 4

/-- RCPTTEST (R262); a member answers by the lag rule (R341). -/
def execRcpttest (d : Reg) (imm : BitVec 4) (s : State) : Out :=
  let slot := tget s.myNi.rel {} imm.toNat
  let hidden := s.inGroup && decide (slot.state ≠ .free) && !s.inView slot.quantum
  alu0 s d (if hidden then 0 else relCode slot.state)

end Sys2Proof.Machine
end

