-- ==== Sys2Proof/Machine/MixCore.lean ====
section
/-! DEFINITION. The mixing engine's updates of a block: its elements, starting an exchange (R309), absorbing a half (R310,
R312), ending an exchange (R311), and the address checks of staging slots (R299). -/

namespace Sys2Proof.Machine

/-! ### Elements in memory (R295, R297) -/

/-- The key of byte j of a kept range that begins at offset `off` of its first page. -/
def pagedKey (pages : List Nat) (off j : Nat) : Nat := pages.getD ((off + j) / 4096) 0 + (off + j) % 4096

/-- A byte as an engine reads it: its coherence-last value (R297), and no known value under a poison marker (log 37, DESIGN CHOICE) or
in memory that is switched off (log 79, DESIGN CHOICE). -/
def State.mixByte (s : State) (key : Nat) : Byte :=
  if s.poisonedLast (sectorOf key) || s.keyOut key then Config.lostByte s.tick key else s.byteLast key

/-- The number of n bytes from byte j of a kept range. -/
def State.pagedNat (s : State) (pages : List Nat) (off j n : Nat) : Nat :=
  bytesToNat ((List.range n).map fun i => s.mixByte (pagedKey pages off (j + i)))

/-- A 64-bit number read as a signed integer. -/
def signed64 (n : Nat) : Int := (BitVec.ofNat 64 n).toInt

/-- The elements of a block (R295). -/
def State.elems (s : State) (b : Block) : List Int :=
  (List.range b.n).map fun i => signed64 (s.pagedNat b.xpages b.xoff (8 * i) 8)

/-- Writes the elements of a block, in one step (R314). -/
def State.putElems (s : State) (b : Block) (xs : List Int) : State :=
  let bytes := xs.flatMap fun x => natToBytes 8 (BitVec.ofInt 64 x).toNat
  s.addGlobalWhole ((List.range bytes.length).zipWith (fun i c => (pagedKey b.xpages b.xoff i, c)) bytes)

/-- Whether an integer fits an element (R295). -/
def fitsElem (x : Int) : Bool := decide (-2 ^ 63 ≤ x) && decide (x ≤ 2 ^ 63 - 1)

/-- The registered half of a block, zeros when no exchange is outstanding (R309). -/
def Block.half (b : Block) : List Int :=
  match b.out with
  | some e => e.half
  | none => List.replicate b.n 0

/-- The mass of the registered half. -/
def Block.halfMass (b : Block) : Nat :=
  match b.out with
  | some e => e.mass
  | none => 0

/-- Bytes of a staging slot (R297). -/
def slotBytes (n : Nat) : Nat := 64 * ((64 + 8 * n + 63) / 64)

/-- The offset of the doorbell of a staging slot (R299). -/
def doorbell : Nat := 0xFFFFFFF8

/-- Replaces the registry entry of a block. -/
def State.setBlock (s : State) (key : Nat) (b : Block) : State := { s with blocks := tset s.blocks key b }

/-! ### Neighbour entries (R298) -/

/-- V. -/
def nbV (e : Word) : Bool := e.getLsbD 63
/-- CTR. -/
def nbCtr (e : Word) : BitVec 13 := e.extractLsb' 50 13
/-- SLOT. -/
def nbSlot (e : Word) : BitVec 4 := e.extractLsb' 46 4
/-- BLK. -/
def nbBlk (e : Word) : BitVec 12 := e.extractLsb' 34 12
/-- CELL. -/
def nbCell (e : Word) : BitVec 10 := e.extractLsb' 24 10
/-- CHIP. -/
def nbChip (e : Word) : BitVec 12 := e.extractLsb' 0 12

/-- A neighbour entry of a block. -/
def Block.entry (b : Block) (i : Nat) : Word := tget b.nbr 0 i

/-- The first valid entry at or after NEXT, cyclically (R306). -/
def Block.choose (b : Block) : Option Nat :=
  ((List.range 16).map fun i => (b.next + i) % 16).find? fun i => nbV (b.entry i)

/-- The fabric address of an offset in an entry's staging slot (R299). -/
def stageAddr (e : Word) (off : Nat) : Word :=
  (nbChip e) ++ (4#4) ++ (nbBlk e) ++ (nbSlot e) ++ (BitVec.ofNat 32 off)

/-! ### Starting an exchange (R309) -/

/-- W: counted writes of an exchange. -/
def mixWrites (n : Nat) : Nat := 1 + (8 * n + 255) / 256

/-- Whether the registering cell has a release slot and the send records that a start needs (R247, R261, R306, R313). -/
def State.mixRoom (s : State) (b : Block) : Bool :=
  (s.niOf b.ctx b.cell).freeSlot.isSome && s.recordRoom b.cell (mixWrites b.n)

/-- The counted writes of a start: the header, then h in pieces of 256 bytes (R309). -/
def mixPackets (chip : BitVec 12) (b : Block) (e : Word) (h : List Int) (mh : Nat) (q : BitVec 16) : List SendRec :=
  let write (off : Nat) (j : Nat) (bytes : List Byte) : SendRec :=
    let p := (packetOf 0 (nbChip e) chip b.cell b.ctx (stageAddr e off)).withPayload bytes
    { packet := { p with ctr := nbCtr e, seq := q + BitVec.ofNat 16 j, bytes := BitVec.ofNat 11 bytes.length, dcell := nbCell e }
      source := .data }
  let header := natToBytes 8 mh ++ natToBytes 1 (BitVec.ofInt 8 b.e).toNat ++ List.replicate 7 0 ++ natToBytes 4 b.n ++ List.replicate 44 0
  let data := h.flatMap fun x => natToBytes 8 (BitVec.ofInt 64 x).toNat
  write 0 0 header :: (List.range (mixWrites b.n - 1)).map fun j => write (0x40 + 256 * j) (j + 1) ((data.drop (256 * j)).take 256)

/-- Starts an exchange of a block to an entry: one indivisible update, then the half is sent (R309). The caller has found
room for it; a MIXSTEP of a member names its quantum. -/
def State.startExchange (s : State) (key : Nat) (b : Block) (n : Nat) (forked : Option Nat) : State :=
  let e := b.entry n
  let xs := s.elems b
  let h := xs.map fun x => x.fdiv 2
  let mh := b.m / 2
  let q := tget b.seqs 0 n
  let w := mixWrites b.n
  let slot := ((s.niOf b.ctx b.cell).freeSlot).getD 0
  let b1 : Block := { b with
    m := b.m - mh, target := n
    out := some { half := h, mass := mh, entry := n, chip := nbChip e, slot := slot, forked := forked }
    seqs := tset b.seqs n (q + BitVec.ofNat 16 w) }
  let s1 := (s.putElems b (List.zipWith (· - ·) xs h)).setBlock key b1
  let recs := mixPackets s.chip b e h mh q
  let p := packetOf 4 (nbChip e) s.chip b.cell b.ctx (stageAddr e doorbell)
  let rel := { p with
    ctr := nbCtr e, seq := q, bytes := BitVec.ofNat 11 w, rslot := BitVec.ofNat 4 slot, fsz := 3, fval := b.exch, dcell := nbCell e }
  let hold : RelSlot :=
    { state := .pending, ctr := (nbCtr e).toNat, start := q, count := w, packet := some rel, round := 1
      deadline := s.now + s.timeout, mixing := some key }
  let ni := s1.niOf b.ctx b.cell
  let s2 := s1.setNi b.ctx b.cell { ni with recs := ni.recs ++ recs, rel := tset ni.rel slot hold }
  (recs.foldl (fun s r => s.sendWrite b.ctx b.cell r 0) s2).transmit rel

/-- Whether the mixing engine of a block's cluster, or memory that the block keeps, is switched off: a staging slot there is refused with reason
5 (R15, R99; log 79, DESIGN CHOICE). -/
def State.blockOut (s : State) (b : Block) : Bool := s.unitOut 1 (b.cell / 16) || (b.xpages ++ b.spages).any s.keyOut

/-! ### Ending an exchange (R311) -/

/-- Ends the outstanding exchange of a block: LAST 0 drops the half, every other outcome re-absorbs it. The slot becomes
FREE. The engine of a fenced cluster updates nothing (R15): the removal of the context discards the exchange (R16, R317). -/
def State.endExchange (s : State) (key last : Nat) : State :=
  match tfind s.blocks key with
  | none => s
  | some b =>
    match b.out with
    | none => s
    | some e =>
      if s.blockOut b then s
      else
      let ni := s.niOf b.ctx b.cell
      let s1 := s.setNi b.ctx b.cell { ni with rel := tdel ni.rel e.slot }
      if last = 0 then s1.setBlock key { b with out := none, exch := b.exch + 1, last := 0 }
      else
        (s1.putElems b (List.zipWith (· + ·) (s1.elems b) e.half)).setBlock key
          { b with out := none, m := b.m + e.mass, fails := b.fails + 1, last := last }

/-! ### Rounding a ratio (R304, R312) -/

/-- p × 2^e / q as a value that rounds as the exact ratio does: 400 bits after the point, and a bit below them when
something is left. -/
def ratioVal (neg : Bool) (p q : Nat) (e : Int) : Val :=
  let n := p * 2 ^ 400
  .num neg (2 * (n / q) + (if n % q = 0 then 0 else 1)) (e - 401)

/-- DIS and DDEC after an absorption of h with mass mh, before it is added (R312). -/
def Block.disagree (b : Block) (xs h : List Int) (mh : Nat) : Block :=
  if b.m = 0 ∨ mh = 0 then b
  else
    let top := (List.zipWith (fun (x y : Int) => (x * mh - y * b.m).natAbs) xs h).foldl max 0
    let dis : BitVec 32 := BitVec.ofNat 32 (round (ratioVal false top (b.m * mh) (48 + b.e)) fp32 (plainChoice .rne)).code
    let dec : BitVec 32 :=
      if b.ddec = 0x7F800000#32 ∨ dis = 0x7F800000#32 then dis
      else
        let v := addFin (mulFin (ofInt 7) (fp b.ddec)) (fp dis)
        BitVec.ofNat 32 (round (mulFin v (ofUnits 1 (-3))) fp32 (plainChoice .rne)).code
    { b with dis := dis, ddec := dec }

/-! ### Staging slots at the target (R299, R310) -/

/-- The block that a kind 4 address names: registered by the context, from the cell DCELL (R299). -/
def State.stageBlock (s : State) (ctx cell : Nat) (fa : Word) : Option (Nat × Block) :=
  match s.context ctx with
  | none => none
  | some c =>
    let key := c.mbbase + faAddr fa / 2 ^ 36
    match tfind s.blocks key with
    | none => none
    | some b => if b.ctx = ctx ∧ b.cell = cell ∧ b.num = faAddr fa / 2 ^ 36 then some (key, b) else none

/-- SLOT of a kind 4 address. -/
def stageSlot (fa : Word) : Nat := faAddr fa / 2 ^ 32 % 16

/-- OFF of a kind 4 address. -/
def stageOff (fa : Word) : Nat := faAddr fa % 2 ^ 32

/-- The address check on arrival: a counted write (R299). -/
def State.stageWriteBlock (s : State) (ctx cell : Nat) (fa : Word) : Option (Nat × Block) :=
  match s.stageBlock ctx cell fa with
  | some (key, b) => if stageSlot fa < b.nslot ∧ stageOff fa < 64 + 8 * b.n then some (key, b) else none
  | none => none

/-- The address check on arrival: a release flag reaches the doorbell alone (R299). -/
def State.doorbellBlock (s : State) (ctx cell : Nat) (fa : Word) : Option (Nat × Block) :=
  match s.stageBlock ctx cell fa with
  | some (key, b) => if stageSlot fa < b.nslot ∧ stageOff fa = doorbell then some (key, b) else none
  | none => none

/-- Writes the payload of a counted write into a staging slot; bytes beyond the slot are dropped (log 36, DEDUCED). -/
def State.stageWrite (s : State) (b : Block) (fa : Word) (bytes : List Byte) : State :=
  let part := bytes.take (slotBytes b.n - stageOff fa)
  let base := stageSlot fa * slotBytes b.n + stageOff fa
  s.addGlobalWhole ((List.range part.length).zipWith (fun i c => (pagedKey b.spages b.soff (base + i), c)) part)

/-- ABSORB: a flag write at a doorbell adds the staged half into the block, or refuses it with a reason (R310). As R303 tests both, x + h
must fit alone and together with the own registered half: R311 and R315 rest on it (log 88, DEDUCED). -/
def State.absorb (s : State) (key : Nat) (b : Block) (slot : Nat) : Except Nat State :=
  let base := slot * slotBytes b.n
  let mh := s.pagedNat b.spages b.soff base 8
  let he := (BitVec.ofNat 8 (s.pagedNat b.spages b.soff (base + 8) 1)).toInt
  let hn := s.pagedNat b.spages b.soff (base + 16) 4
  if he ≠ b.e ∨ hn ≠ b.n then .error 14
  else
    let h := (List.range b.n).map fun i => signed64 (s.pagedNat b.spages b.soff (base + 64 + 8 * i) 8)
    let xs := s.elems b
    let sums := List.zipWith (· + ·) xs h
    if (List.zipWith (fun x h => fitsElem x && fitsElem (x + h)) sums b.half).any (!·) then .error 15
    else if 2 ^ 64 ≤ b.m + mh + b.halfMass then .error 15
    else
      let b1 := b.disagree xs h mh
      .ok ((s.putElems b sums).setBlock key { b1 with m := b.m + mh, exch := b.exch + 1 })

/-! ### SHARE (R308, R313) -/

/-- The key of a context on a cluster engine. -/
def mixKey (ctx cluster : Nat) : Nat := ctx * 64 + cluster

/-- SHARE of a context on a cluster engine: 16 when the context is first placed (R308). -/
def State.share (s : State) (ctx cluster : Nat) : Nat := (tget s.shares 16 (mixKey ctx cluster)).toNat

/-- Bytes of an exchange against the budget (R313). -/
def mixCost (b : Block) : Nat := 64 + 8 * b.n

/-- Counts the bytes of a start against the interval's budget (R313; log 35, DEDUCED). -/
def State.spend (s : State) (b : Block) : State :=
  { s with mixUsed := tupd s.mixUsed 0 (mixKey b.ctx (b.cell / 16)) (· + mixCost b) }

end Sys2Proof.Machine
end

