-- ==== Sys2Proof/Machine/Mixing.lean ====
section
/-! DEFINITION. The mixing instructions (R300 to R308) and the interval of a cluster engine (R313). -/

namespace Sys2Proof.Machine

/-- Cause 44 with a reason (R301). -/
def mixTrap (s : State) (reason : Nat) : Out := trap s 44 (BitVec.ofNat 64 reason)

/-- Check 30: the block that FN 1 to 6 names, or the trap (R301). -/
def State.mixBlock (s : State) (a : Word) : Except Out (Nat × Block) :=
  let bad : Out := mixTrap s (1 + 256 * (a.toNat % 65536))
  let blk := a.toNat % 4096
  match s.context s.myCtxId with
  | none => .error bad
  | some c =>
    if a.toNat / 4096 ≠ 0 ∨ c.mblimit ≤ blk then .error bad
    else
      match tfind s.blocks (c.mbbase + blk) with
      | none => .error bad
      | some b => if b.ctx = s.myCtxId then .ok (c.mbbase + blk, b) else .error bad

/-- Check 31: a scratchpad range by offset, aligned and inside the own scratchpad (R301). -/
def spadRangeOk (off : Word) (n align : Nat) : Bool := decide (off.toNat % align = 0) && decide (off.toNat + n ≤ spadSize)

/-- Keys of a range of the own scratchpad. -/
def State.mySpan (s : State) (off n : Nat) : List Nat := span (cellKey s.myCell off) n

/-- What holds a MIX instruction before it looks at its block: its registers, and a retired acquire load that is not performed, after
which updates of the block that happen before the instruction may still come (R322, R402). -/
def State.mixBlocked (s : State) (srcs : List Reg) (d : Option Reg) : Option Out :=
  match s.blocked srcs d with
  | some o => some o
  | none => if s.me.loads.any (·.acquire) then some (wait s) else none

/-- Whether the core's own stores and loads of the sectors of a range of the own scratchpad are done. -/
def State.rangeQuiet (s : State) (off n : Nat) : Bool :=
  let lo := sectorOf (cellKey s.myCell off)
  let hi := sectorOf (cellKey s.myCell (off + n - 1))
  (s.me.stores.all fun e => !(decide (lo ≤ e.sector) && decide (e.sector ≤ hi))) &&
    (s.me.loads.all fun l => !l.acquire && !(decide (lo ≤ sectorOf l.addr) && decide (sectorOf l.addr ≤ hi))) &&
    !s.remoteBefore s.cur.core s.fresh fun a => decide (lo ≤ sectorOf a) && decide (sectorOf a ≤ hi)

/-! ### MIXREG (R297, R302) -/

/-- The registration record (R297). -/
structure MixRecord where
  blk : Nat
  e : Int
  auto : Bool
  ncnt : Nat
  nslot : Nat
  n : Nat
  xbase : Nat
  sbase : Nat
  nbase : Nat
  m0 : Nat
  /-- RFLAGS[7:1] and the RSV bytes are zero -/
  clean : Bool
  deriving DecidableEq, Repr

/-- Reads the fields of a record of 64 bytes given as a number. -/
def mixRecord (r : Nat) : MixRecord :=
  let f (off n : Nat) : Nat := r / 2 ^ (8 * off) % 2 ^ (8 * n)
  { blk := f 0 2, e := (BitVec.ofNat 8 (f 2 1)).toInt, auto := decide (f 3 1 % 2 = 1), ncnt := f 4 1, nslot := f 5 1, n := f 8 4
    xbase := f 0x10 8, sbase := f 0x18 8, nbase := f 0x20 8, m0 := f 0x28 8
    clean := decide (f 3 1 < 2) && decide (f 6 2 = 0) && decide (f 12 4 = 0) && decide (f 0x30 16 = 0) }

/-- Check 32 of a record (R297). -/
def MixRecord.ok (r : MixRecord) (mblimit : Nat) : Bool :=
  decide (r.blk < mblimit) && r.clean && decide (r.ncnt ≤ 16) && decide (1 ≤ r.nslot) && decide (r.nslot ≤ 16) &&
    decide (1 ≤ r.n) && decide (r.n ≤ 32736) && decide (r.xbase % 64 = 0) && decide (r.sbase % 64 = 0)

/-- The addresses at which check 33 translates a range: its first byte, then each page start. -/
def pageStarts (base n : Nat) : List Nat :=
  (List.range ((base + n - 1) / 4096 - base / 4096 + 1)).map fun i => if i = 0 then base else (base / 4096 + i) * 4096

/-- The leaf that the core's caches hold for an address. -/
def State.myLeaf (s : State) (va : Nat) : Option (Word × Nat) :=
  match s.transFor s.cur.core s.myCtxId va with
  | .leaf e l => some (e, l)
  | _ => none

/-- Whether an address lies in translated space. -/
def inTranslated (va : Nat) : Bool := decide (va < 2 ^ 48) && decide (regionOf va = .translated)

/-- Check 33: the first page that misses, fails or lacks a right, in ascending address; pages outside translated space are
passed over (R301). A failed translation takes the cause of the first access to the range: MIXREG reads the elements (13), an arriving
half writes the staging area (15) (log 76, DEDUCED). A range that is switched off has no right (log 79, DESIGN CHOICE). -/
def State.mixPageStop (s : State) (first : AccKind) (vas : List Nat) : Option Out :=
  match vas with
  | [] => none
  | va :: rest =>
    if !inTranslated va then s.mixPageStop first rest
    else
      match s.transFor s.cur.core s.myCtxId va with
      | .miss => some (.next (s.requestWalk s.cur.core s.myCtxId va))
      | .fail => some (trap s first.pageCause (eaWord va))
      | .leaf e l =>
        if !s.reaches e l va .load then some (trap s 5 (eaWord va))
        else if !pteWR e then some (trap s 7 (eaWord va))
        else s.mixPageStop first rest

/-- Check 34: whether every page of a range lies in translated space and in LPDDR or vault, and is no O or D leaf. -/
def State.mixPagesOk (s : State) (vas : List Nat) (last : Nat) : Bool :=
  inTranslated last && vas.all fun va => inTranslated va &&
    (match s.myLeaf va with
      | some (e, _) => decide (pteSpc e ≤ 1) && !pteO e && !pteD e
      | none => false)

/-- The keys of the pages of a range, which the block keeps (R297). -/
def State.keptPages (s : State) (vas : List Nat) : List Nat :=
  vas.map fun va =>
    match s.myLeaf va with
    | some (e, l) => leafKey e l (va / 4096 * 4096)
    | none => 0

/-- The first poisoned sector of an element range, as a virtual address (R302). -/
def State.mixPoison (s : State) (pages : List Nat) (xbase n : Nat) : Option Nat :=
  ((List.range ((8 * n + 63) / 64)).find? fun i => s.poisonedLast (sectorOf (pagedKey pages (xbase % 4096) (64 * i)))).map fun i =>
    xbase + 64 * i

/-- MIXREG after its record is read (R301, R302). -/
def mixRegister (s : State) (d a : Reg) (c : Context) (r : MixRecord) : Out :=
  if !r.ok c.mblimit then mixTrap s 3
  else
    let xs := pageStarts r.xbase (8 * r.n)
    let slots := r.nslot * slotBytes r.n
    let ss := pageStarts r.sbase slots
    match (s.mixPageStop .load xs).or (s.mixPageStop .store ss) with
    | some o => o
    | none =>
      let key := c.mbbase + r.blk
      if (tfind s.blocks key).isSome then mixTrap s 2
      else if 4096 ≤ s.blocks.length then mixTrap s 4
      else if !s.mixPagesOk xs (r.xbase + 8 * r.n - 1) || !s.mixPagesOk ss (r.sbase + slots - 1) then mixTrap s 4
      else
        let xpages := s.keptPages xs
        match s.mixPoison xpages r.xbase r.n with
        | some va => trap s 29 (eaWord va)
        | none =>
          let entry (i : Nat) : Nat × Word := (i, BitVec.ofNat 64 (s.natFor (.cell s.myCell) (s.mySpan (r.nbase + 8 * i) 8)))
          let b : Block :=
            { ctx := s.myCtxId, cell := s.myCell, num := r.blk, e := r.e, n := r.n, nslot := r.nslot, xpages := xpages
              xoff := r.xbase % 4096, spages := s.keptPages ss, soff := r.sbase % 4096, m := r.m0
              nbr := (List.range r.ncnt).map entry, auto := r.auto }
          .next ((s.setBlock key b).finish [a] d 0)

/-- MIXREG (R297, R301, R302): it waits until every earlier access of the core is visible on the chip.
Poison under its record or its neighbours traps with cause 29 (log 66, DEDUCED). -/
def execMixreg (d a : Reg) (s : State) : Out :=
  match s.blocked [a] (some d) with
  | some o => o
  | none =>
    let off := s.sval [] a
    match s.context s.myCtxId with
    | none => mixTrap s 3
    | some c =>
      if !spadRangeOk off 64 64 then trap s 5 off
      else if !s.allSettled 2 then wait s
      else if (s.poisonAmong (.cell s.myCell) (s.mySpan off.toNat 64)).isSome then trap s 29 off
      else
        let r := mixRecord (s.natFor (.cell s.myCell) (s.mySpan off.toNat 64))
        let nbase := BitVec.ofNat 64 r.nbase
        if r.ncnt ≠ 0 ∧ spadRangeOk nbase (8 * r.ncnt) 8 = false then trap s 5 nbase
        else if r.ncnt ≠ 0 ∧ (s.poisonAmong (.cell s.myCell) (s.mySpan r.nbase (8 * r.ncnt))).isSome then trap s 29 nbase
        else mixRegister s d a c r

/-! ### MIXADD (R303) -/

/-- RNE to an integer of m × 2^e, and whether it was inexact (R303). -/
def rneInt (neg : Bool) (m : Nat) (e : Int) : Int × Bool :=
  let u := inUnits m e 0
  let up := decide (u.2.2 < 2 * u.2.1) || (decide (u.2.2 = 2 * u.2.1) && decide (u.1 % 2 = 1))
  let n : Nat := if up then u.1 + 1 else u.1
  (if neg then -(n : Int) else n, decide (u.2.1 ≠ 0))

/-- The increment of an element (R303). -/
def mixIncrement (b : Block) (v : Val) : Int × Bool :=
  match v with
  | .num neg m e => rneInt neg (m * b.m) (e - 48 - b.e)
  | _ => (0, false)

/-- MIXADD (R301, R303). Poison under its increments traps with cause 29 (log 66, DEDUCED). -/
def execMixadd (d a b : Reg) (s : State) : Out :=
  match s.mixBlocked [a, b] (some d) with
  | some o => o
  | none =>
    match s.mixBlock (s.sval [] a) with
    | .error o => o
    | .ok (key, k) =>
      let off := s.sval [a] b
      if !spadRangeOk off (4 * k.n) 4 then trap s 5 off
      else if !s.rangeQuiet off.toNat (4 * k.n) then wait s
      else if (s.poisonAmong (.cell s.myCell) (s.mySpan off.toNat (4 * k.n))).isSome then trap s 29 off
      else
        let vs := (List.range k.n).map fun i => fp (BitVec.ofNat 32 (s.natFor (.cell s.myCell) (s.mySpan (off.toNat + 4 * i) 4)))
        match vs.findIdx? fun v => v.isNan || v.isInf with
        | some i => trap s 32 (BitVec.ofNat 64 i)
        | none =>
          let incs := vs.map (mixIncrement k)
          let sums := List.zipWith (fun x (i : Int × Bool) => x + i.1) (s.elems k) incs
          match (List.zipWith (fun x h => fitsElem x && fitsElem (x + h)) sums k.half).findIdx? (!·) with
          | some i => trap s 32 (BitVec.ofNat 64 i)
          | none =>
            let inexact := (incs.filter (·.2)).length
            let s1 := (s.putElems k sums).setBlock key k
            let s2 := if 0 < inexact then s1.updMe (·.raise flagNX) else s1
            .next (s2.finish [a, b] d (BitVec.ofNat 64 inexact))

/-! ### MIXRD (R304) -/

/-- The code and flags of w_i in a format (R295, R304). -/
def mixValue (b : Block) (f : Fmt) (canon : Nat) (x : Int) : Rounded :=
  if b.m = 0 then { code := canon, flags := flagNV }
  else round (ratioVal (decide (x < 0)) x.natAbs b.m (48 + b.e)) f (plainChoice .rne)

/-- MIXRD: ESZ 2 writes FP32, ESZ 1 writes BF16, from one snapshot, visible at cell scope (R301, R304). -/
def execMixrd (d a b : Reg) (esz : BitVec 2) (s : State) : Out :=
  match s.mixBlocked [a, b] (some d) with
  | some o => o
  | none =>
    match s.mixBlock (s.sval [] a) with
    | .error o => o
    | .ok (_, k) =>
      let off := s.sval [a] b
      let w := if esz = 1#2 then 2 else 4
      let len := w * k.n
      if !spadRangeOk off len w then trap s 7 off
      else if esz ≠ 1#2 ∧ esz ≠ 2#2 then trap s 24 (s.cur.word.setWidth 64)
      else if !s.rangeQuiet off.toNat len then wait s
      else
        let f := if esz = 1#2 then (fmtOf 2).getD fp32 else fp32
        let rs := (s.elems k).map (mixValue k f (if esz = 1#2 then 0x7FC0 else 0x7FC00000))
        let cells := cellsFrom (cellKey s.myCell off.toNat) (rs.flatMap fun r => natToBytes w r.code)
        let whole := wholeSectors cells
        match cells.find? fun c => s.poisonHere c.1 && !whole.contains (sectorOf c.1) with
        | some _ => trap s 29 off
        | none =>
          let s1 := (s.addWhole s.fresh cells s.myCell (.core s.cur.core) 0).bump
          let s2 := s1.updMe (·.raise (rs.foldl (fun f r => f ||| r.flags) 0))
          .next (s2.finish [a, b] d (BitVec.ofNat 64 k.n))

/-! ### MIXST (R305) -/

/-- The state word (R305). -/
def Block.stateWord (b : Block) : Word :=
  BitVec.ofNat 64 (b.next + 16 * b.out.isSome.toNat + 32 * b.target + 512 * b.auto.toNat + 1024 * b.last)

/-- What a selector reads (R305). -/
def Block.select (b : Block) (sel : Nat) : Option Word :=
  match sel with
  | 0 => some (BitVec.ofNat 64 b.m)
  | 1 => some (b.dis.setWidth 64)
  | 2 => some (b.ddec.setWidth 64)
  | 3 => some b.exch
  | 4 => some b.stateWord
  | 5 => some (BitVec.ofInt 64 b.e)
  | 6 => some b.fails
  | _ => none

/-- MIXST (R305). -/
def execMixst (d a b : Reg) (s : State) : Out :=
  match s.mixBlocked [a, b] (some d) with
  | some o => o
  | none =>
    match s.mixBlock (s.sval [] a) with
    | .error o => o
    | .ok (_, k) =>
      match k.select (s.sval [a] b).toNat with
      | none => mixTrap s 3
      | some v => .next (s.finish [a, b] d v)

/-! ### MIXSTEP and MIXWAIT (R306, R307) -/

/-- The entry that MIXSTEP's operand chooses; none fails check 35 (R306). -/
def Block.stepEntry (b : Block) (sel : Nat) : Option Nat :=
  if sel = 0 then b.choose else if nbV (b.entry (sel - 1)) then some (sel - 1) else none

/-- MIXSTEP (R301, R306). -/
def execMixstep (d a b : Reg) (s : State) : Out :=
  match s.mixBlocked [a, b] (some d) with
  | some o => o
  | none =>
    match s.mixBlock (s.sval [] a) with
    | .error o => o
    | .ok (key, k) =>
      let sel := (s.sval [a] b).toNat
      if 16 < sel then mixTrap s 3
      else
        match k.stepEntry sel with
        | none => mixTrap s 5
        | some n =>
          if k.out.isSome || !s.mixRoom k then wait s
          else
            let k1 := if sel = 0 then { k with next := (n + 1) % 16 } else k
            .next (((s.spend k1).startExchange key k1 n (if s.inGroup then some (s.quantumOf s.myCtxId) else none)).finish [a, b] d (BitVec.ofNat 64 n))

/-- MIXWAIT (R307). -/
def execMixwait (d a : Reg) (s : State) : Out :=
  match s.mixBlocked [a] (some d) with
  | some o => o
  | none =>
    match s.mixBlock (s.sval [] a) with
    | .error o => o
    | .ok (_, k) => if k.out.isSome then wait s else .next (s.finish [a] d (BitVec.ofNat 64 k.last))

/-! ### MIXCTL (R308) -/

/-- Bits of b that an operation names (R308). -/
def mixctlNamed (op : Nat) : Word :=
  match op with
  | 0 => 0xF
  | 1 => 0x10F
  | 2 => 0xFF0F
  | _ => 0xFF

/-- MIXCTL's checks, then the operation that b[3:0] names (R301, R308). -/
def mixctl (s : State) (d a b c : Reg) (op : Nat) (act : Nat → Block → Word → Out) : Out :=
  match s.mixBlocked [a, b, c] (some d) with
  | some o => o
  | none =>
    match s.mixBlock (s.sval [] a) with
    | .error o => o
    | .ok (key, k) =>
      let v := s.sval [a] b
      if v.toNat / 65536 ≠ 0 then mixTrap s 3
      else if 4 ≤ v.toNat % 16 then mixTrap s 6
      else if v &&& ~~~(mixctlNamed (v.toNat % 16)) ≠ 0 then mixTrap s 3
      else if v.toNat % 16 = op then act key k v
      else wait s

/-- The value that a MIXCTL word reads through B: its b[3:0] choose the operation (R308; log 21, DEDUCED). -/
def State.mixctlOp (s : State) (a b : Reg) : Nat := (s.sval [a] b).toNat % 16

/-- DEREG, and what MIXCTL does with an operation of 4 to 15 (R308). -/
def execDereg (d a b c : Reg) (s : State) : Out :=
  mixctl s d a b c 0 fun key k _ =>
    if k.out.isSome then wait s
    else .next ({ s with blocks := tdel s.blocks key }.finish [a, b, c] d (BitVec.ofNat 64 k.m))

/-- AUTO (R308). -/
def execAuto (s : State) : Out :=
  let r := Raw.ofWord s.cur.word
  mixctl s r.d r.a r.b r.c 1 fun key k v =>
    .next ((s.setBlock key { k with auto := v.getLsbD 8 }).finish [r.a, r.b, r.c] r.d (BitVec.ofNat 64 k.auto.toNat))

/-- SHARE: of this context on the engine that serves the block (R308). -/
def execShare (s : State) : Out :=
  let r := Raw.ofWord s.cur.word
  mixctl s r.d r.a r.b r.c 2 fun _ k v =>
    let key := mixKey k.ctx (k.cell / 16)
    .next ({ s with shares := tset s.shares key (v.extractLsb' 8 8) }.finish [r.a, r.b, r.c] r.d (BitVec.ofNat 64 (s.share k.ctx (k.cell / 16))))

/-- NBRSET: the entry's next sequence number becomes 0 (R298, R308). -/
def execNbrset (s : State) : Out :=
  let r := Raw.ofWord s.cur.word
  mixctl s r.d r.a r.b r.c 3 fun key k v =>
    let i := v.toNat / 16 % 16
    let k1 := { k with nbr := tset k.nbr i (s.sval [r.a, r.b] r.c), seqs := tset k.seqs i 0 }
    .next ((s.setBlock key k1).finish [r.a, r.b, r.c] r.d (k.entry i))

/-! ### The interval of a cluster engine (R313) -/

/-- Block numbers of a context on a cluster engine, with their registry entries. -/
def State.mixBlocks (s : State) (ctx cluster : Nat) : List (Nat × Nat) :=
  (s.blocks.filter fun e => decide (e.2.ctx = ctx) && decide (e.2.cell / 16 = cluster)).map fun e => (e.2.num, e.1)

/-- Serves blocks in order until one does not fit in what remains of the budget; `started` says whether an exchange has started
in the interval before. The block `late`, which did not fit in the last interval, starts as the first exchange (R313). -/
def autoServe (s : State) (ctx cluster : Nat) (late : Option Nat) (started : Bool) (bs : List (Nat × Nat)) : State :=
  match bs with
  | [] => s
  | (num, key) :: rest =>
    match tfind s.blocks key with
    | none => autoServe s ctx cluster late started rest
    | some b =>
      match b.choose with
      | none => autoServe s ctx cluster late started rest
      | some n =>
        if !b.auto || b.out.isSome || !s.mixRoom b then autoServe s ctx cluster late started rest
        else
          let used := tget s.mixUsed 0 (mixKey ctx cluster)
          if started && decide (late ≠ some num) && decide (256 * s.share ctx cluster < used + mixCost b) then
            { s with mixNext := tset s.mixNext (mixKey ctx cluster) num, mixLate := mixKey ctx cluster :: s.mixLate }
          else
            let b1 := { b with next := (n + 1) % 16 }
            let s1 := (s.spend b1).startExchange key b1 n none
            autoServe { s1 with mixNext := tset s1.mixNext (mixKey ctx cluster) (num + 1) } ctx cluster late true rest

/-- MIX_INTERVAL: the engine of a cluster starts automatic exchanges for a context, once every 1024 cycles; what MIXSTEP
started since the last interval counts toward the budget (R313; log 35, DEDUCED). The engine of a fenced cluster starts nothing (R15). -/
def execMixInterval (s : State) : Out :=
  let key := mixKey s.args.ctx s.args.cluster
  if s.unitOut 1 s.args.cluster ∨ s.now < tget s.mixTime 0 key + 1024 then .next s
  else
    let first := tget s.mixNext 0 key
    let bs := s.mixBlocks s.args.ctx s.args.cluster
    let order := (bs.filter fun e => decide (first ≤ e.1)) ++ bs.filter fun e => decide (e.1 < first)
    let used := tget s.mixUsed 0 key
    let late := if s.mixLate.contains key then some first else none
    let s0 := { s with mixLate := s.mixLate.filter fun k => decide (k ≠ key) }
    let s1 := if s.share s.args.ctx s.args.cluster = 0 then s else autoServe s0 s.args.ctx s.args.cluster late (decide (0 < used)) order
    .next { s1 with mixTime := tset s1.mixTime key s.now, mixUsed := tset s1.mixUsed key 0 }

end Sys2Proof.Machine
end

