-- ==== Sys2Proof/Machine/FabricTarget.lean ====
section
/-! DEFINITION. Packets at their target and at the sender's interface: counted writes and releases (R239 to R246), rounds
(R248, R249), receipts and NACKs (R262, R264, R265), remote loads (R255, R259, R336), and the ports (R268, R269). -/

namespace Sys2Proof.Machine

/-! ### Arrival through the sorting office (R274, R275) -/

/-- The class of a packet (R274). -/
def packetClass (p : Packet) (outbound : Bool) : Nat := p.kind + 16 * outbound.toNat

/-- Classes that a rule can match (R274). -/
def matchable (cls : Nat) : Bool := [0x00, 0x10, 0x03, 0x04, 0x14, 0x05, 0x06, 0x17, 0x18].contains cls

/-- The key of a packet: the group for multicast, else CTR (R274). -/
def packetKey (p : Packet) : Nat := if p.kind = 7 ∨ p.kind = 8 then p.dchip.toNat % 1024 else p.ctr.toNat

/-- The rule that a packet matches; attached rules of one context and class do not overlap (R275). -/
def State.ruleFor (s : State) (p : Packet) (outbound : Bool) : Option (Attachment × Kernel) :=
  let cls := packetClass p outbound
  if matchable cls then
    s.rules.find? fun r => decide (r.1.ctx = p.ctxid.toNat) && decide (r.1.cls.toNat = cls) && decide (r.1.lo ≤ packetKey p) &&
      decide (packetKey p ≤ r.1.hi)
  else none

/-- The packet of the turn, when it is inbound and past the sorters and of the kind. -/
def State.arrived (s : State) (type : Nat) : Option Packet :=
  match s.net[s.args.index]? with
  | none => none
  | some it =>
    if it.packet.kind = type ∧ it.outbound = false ∧ (it.offered ∨ (s.ruleFor it.packet false).isNone) then some it.packet else none

/-- The packet of the turn leaves the network. -/
def State.taken (s : State) : State := { s with net := s.net.eraseIdx s.args.index }

/-- A NACK goes back (R254). -/
def State.sendNack (s : State) (p : Packet) (reason : Nat) : State := s.transmit (p.nack s.chip reason)

/-! ### Accesses at the target (R95, R99) -/

/-- The interface requests a walk for an address (R93). -/
def State.fabWalk (s : State) (ctx va : Nat) : State := s.requestWalkOn s.fabCluster (fabParty s.fabCluster) ctx va

/-- The answers of failed walks that the interface has met for a context are met once (R93). -/
def State.fabForget (s : State) (ctx : Nat) : State :=
  { s with failedWalks := s.failedWalks.filter fun f => !(decide (f.1.role = .s) && decide (f.1.cell % 16 = 1) && decide (f.2.1 = ctx)) }

/-- The packet of the turn waits in the network for a walk (R93). -/
def State.holdForWalk (s : State) (ctx va : Nat) : State :=
  let s1 := s.fabWalk ctx va
  match s1.net[s.args.index]? with
  | none => s1
  | some it => { s1 with net := s1.net.set s.args.index { it with waits := true } }

/-- Whether an earlier counted write to the same counter waits for a walk: writes to one counter are handled in order of arrival
(R242). -/
def State.heldBefore (s : State) (p : Packet) : Bool :=
  (s.net.take s.args.index).any fun it =>
    it.waits && !it.outbound && decide (it.packet.kind = 0) && decide (it.packet.ctxid = p.ctxid) && decide (it.packet.ctr = p.ctr)

/-- Who makes the write of a packet. -/
def packetWriter (p : Packet) : Owner := .fabric p.schip.toNat p.scell.toNat p.ctxid.toNat p.ctr.toNat p.seq.toNat

/-- Writes the payload or the flag of a packet at its address, visible at domain scope in one step (R242, R244, R321). -/
def State.fabStore (s : State) (p : Packet) (bytes : List Byte) : Except FabStop State :=
  match s.fabKeys p.ctxid.toNat p.schip p.addr bytes.length .store with
  | .error r => .error r
  | .ok (ks, _) => .ok (s.addWhole s.fresh (cellsAt ks bytes) 0 (packetWriter p) 3).bump

/-- Stores the payload of a counted write, or answers the reason of its refusal at its position (R99, R242, R299). -/
def State.storePayload (s : State) (p : Packet) : Except FabStop State :=
  if faKind p.addr = 4 then
    match s.stageWriteBlock p.ctxid.toNat p.dcell.toNat p.addr with
    | some (_, b) => if s.blockOut b then .error (.refuse 5) else .ok (s.stageWrite b p.addr p.payload)
    | none => .error (.refuse 13)
  else s.fabStore p p.payload

/-- Writes the flag of a release, or answers the reason of its refusal (R244, R299, R310). -/
def State.storeFlag (s : State) (p : Packet) : Except FabStop State :=
  if faKind p.addr = 4 then
    match s.doorbellBlock p.ctxid.toNat p.dcell.toNat p.addr with
    | some (key, b) =>
      if s.blockOut b then .error (.refuse 5)
      else
        match s.absorb key b (stageSlot p.addr) with
        | .ok t => .ok t
        | .error r => .error (.refuse r)
    | none => .error (.refuse 13)
  else s.fabStore p (natToBytes (if p.fsz = 2#2 then 4 else 8) p.fval.toNat)

/-! ### Counters (R239 to R246) -/

/-- A postmark counter by its number on the chip. -/
def State.counter (s : State) (n : Nat) : Counter := tget s.counters {} n

/-- Replaces a counter. -/
def State.setCounter (s : State) (n : Nat) (t : Counter) : State := { s with counters := tset s.counters n t }

/-- The state of horizon position d (R240). -/
def Counter.at (t : Counter) (d : Nat) : Pos := tget t.pos .awaited d

/-- Positions of a window whose first sequence number lies at position ds. -/
def windowPos (ds count : Nat) : List Nat := (List.range count).map (ds + ·)

/-- The horizon position of a sequence number (R242). -/
def Counter.dist (t : Counter) (seq : BitVec 16) : Nat := (seq - t.base).toNat

/-- Whether a window has a position AWAITED. -/
def Counter.waits (t : Counter) (start : BitVec 16) (count : Nat) : Bool :=
  (windowPos (t.dist start) count).any fun d => decide (t.at d = .awaited)

/-- Whether every position of a window is RELEASED. -/
def Counter.done (t : Counter) (start : BitVec 16) (count : Nat) : Bool :=
  (windowPos (t.dist start) count).all fun d => decide (t.at d = .released)

/-- RELEASED positions from position 0 on, at most the horizon. -/
def leadReleased (pos : Tbl Pos) (d fuel : Nat) : Nat :=
  match fuel with
  | 0 => d
  | n + 1 => if tget pos .awaited d = .released then leadReleased pos (d + 1) n else d

/-- The horizon moves past the RELEASED positions at its start (R244 step 3). -/
def Counter.move (t : Counter) : Counter :=
  let k := leadReleased t.pos 0 1024
  { t with base := t.base + BitVec.ofNat 16 k, pos := (t.pos.filter fun e => decide (k ≤ e.1)).map fun e => (e.1 - k, e.2) }

/-- Releases a window and keeps its outcome record (R244 steps 3 and 4, R245, R246). -/
def Counter.releaseWindow (t : Counter) (o : OutcomeRec) : Counter :=
  let pos := (windowPos (t.dist o.start) o.count).foldl (fun m d => tset m d .released) t.pos
  let t1 := { t with
    pos := pos, outcomes := t.outcomes ++ [o]
    pending := t.pending.filter fun r => !(decide (r.packet.seq = o.start) && decide (r.packet.bytes.toNat = o.count)) }
  t1.move

/-- The lowest REFUSED position of a window: its reason and address (R244 step 1). -/
def Counter.firstRefused (t : Counter) (start : BitVec 16) (count : Nat) : Option (Nat × Word) :=
  ((windowPos (t.dist start) count).findSome? fun d =>
    match t.at d with
    | .refused r fa => some (r, fa)
    | _ => none)

/-- A window is released with an outcome, and the receipt goes out (R244 steps 3 and 4). -/
def State.settleRelease (s : State) (n : Nat) (p : Packet) (status reason : Nat) (raddr : Word) : State :=
  let o : OutcomeRec := { start := p.seq, count := p.bytes.toNat, status := status, reason := reason, raddr := raddr, time := s.now }
  (s.setCounter n ((s.counter n).releaseWindow o)).transmit (p.receipt s.chip status reason raddr)

/-- A pending release whose window has no AWAITED position completes (R244); while the translation of its flag's address waits for a walk,
it stays pending (R93). -/
def State.completeRelease (s : State) (n : Nat) (r : PendRel) : State :=
  let p := r.packet
  match (s.counter n).firstRefused p.seq p.bytes.toNat with
  | some (reason, fa) => s.settleRelease n p 1 reason fa
  | none =>
    match s.storeFlag p with
    | .ok s1 => s1.settleRelease n p 0 0 0
    | .error (.refuse reason) => (s.fabForget p.ctxid.toNat).settleRelease n p 1 reason p.addr
    | .error (.walk va) => s.fabWalk p.ctxid.toNat va

/-- Checks pending releases of a counter, oldest first (R244); with 64 outcome records none completes (R246). -/
def State.checkReleases (s : State) (n : Nat) (rs : List PendRel) : State :=
  match rs with
  | [] => s
  | r :: rest =>
    let t := s.counter n
    let ready := decide (t.outcomes.length < 64) && !t.waits r.packet.seq r.packet.bytes.toNat
    (if ready then s.completeRelease n r else s).checkReleases n rest

/-- Checks every pending release of a counter once. -/
def State.checkAll (s : State) (n : Nat) : State := s.checkReleases n (s.counter n).pending

/-- Checks the pending releases of every counter: the walk that one of them waited for has its answer (R93, R244). -/
def State.checkCounters (s : State) : State := (s.counters.map Prod.fst).foldl State.checkAll s

/-- COUNTED_WRITE (R242); a write whose translation waits for a walk stays in the network (R93). -/
def execCountedWrite (s : State) : Out :=
  match s.arrived 0 with
  | none => .next s
  | some p =>
    let s1 := s.taken
    if p.pcrc ≠ crc32c p.payload then .next s1
    else if s.heldBefore p then .next s
    else
      match s.context p.ctxid.toNat with
      | none => .next (s1.sendNack p 4)
      | some c =>
        if c.climit ≤ p.ctr.toNat then .next (s1.sendNack p 9)
        else
          let n := c.cbase + p.ctr.toNat
          let t := s1.counter n
          let d := t.dist p.seq
          if 2 ^ 15 ≤ d then .next s1
          else if 1024 ≤ d then .next (s1.sendNack p 8)
          else if t.at d ≠ .awaited then .next s1
          else
            match s1.storePayload p with
            | .error (.walk va) => .next (s.holdForWalk p.ctxid.toNat va)
            | .error (.refuse r) =>
              .next (((s1.fabForget p.ctxid.toNat).setCounter n { t with pos := tset t.pos d (.refused r p.addr) }).checkAll n)
            | .ok s2 => .next ((s2.setCounter n { t with pos := tset t.pos d .arrived, count := t.count + 1 }).checkAll n)

/-- Whether two windows of a counter overlap. -/
def overlapWindow (ds n ds' n' : Nat) : Bool := decide (ds < ds' + n') && decide (ds' < ds + n)

/-- The answer to a window that has been released: its receipt while its record is held, else nothing (R243, R246). -/
def State.answerReleased (s : State) (t : Counter) (p : Packet) : State :=
  match t.outcomes.find? fun o => decide (o.start = p.seq) && decide (o.count = p.bytes.toNat) with
  | some o => s.transmit (p.receipt s.chip o.status o.reason o.raddr)
  | none => s

/-- RELEASE (R243). A window whose positions are all RELEASED ahead of BASE is a released window too (log 43, DEDUCED). -/
def execRelease (s : State) : Out :=
  match s.arrived 4 with
  | none => .next s
  | some p =>
    let s1 := s.taken
    match s.context p.ctxid.toNat with
    | none => .next (s1.sendNack p 4)
    | some c =>
      if c.climit ≤ p.ctr.toNat then .next (s1.sendNack p 9)
      else
        let n := c.cbase + p.ctr.toNat
        let t := s1.counter n
        let ds := t.dist p.seq
        let count := p.bytes.toNat
        if 2 ^ 15 ≤ ds ∧ ds + count ≤ 2 ^ 16 then .next (s1.answerReleased t p)
        else if 1024 < ds + count then .next (s1.sendNack p 10)
        else if t.done p.seq count then .next (s1.answerReleased t p)
        else if t.pending.any fun r => decide (r.packet.seq = p.seq) && decide (r.packet.bytes = p.bytes) then .next s1
        else if t.pending.any fun r => overlapWindow ds count (t.dist r.packet.seq) r.packet.bytes.toNat then .next (s1.sendNack p 11)
        else
          let r : PendRel := { packet := p, round := 1, deadline := s.now + s.timeout }
          .next ((s1.setCounter n { t with pending := t.pending ++ [r] }).checkAll n)

/-- OUTCOME_RECORD_EXPIRY: record `index` of counter `ctr` ages out after 32 × T; a waiting release may complete (R246). -/
def execOutcomeRecordExpiry (s : State) : Out :=
  let t := s.counter s.args.ctr
  match t.outcomes[s.args.index]? with
  | none => .next s
  | some o =>
    if o.time + 32 * s.timeout ≤ s.now then
      .next ((s.setCounter s.args.ctr { t with outcomes := t.outcomes.eraseIdx s.args.index }).checkAll s.args.ctr)
    else .next s

/-- The bitmap of a chunk of a window, as the 32 bytes of a notice (R253). -/
def chunkBitmap (t : Counter) (start : BitVec 16) (count chunk : Nat) : List Byte :=
  let ds := t.dist start
  let bit (i : Nat) : Nat := if 256 * chunk + i < count ∧ t.at (ds + 256 * chunk + i) = .awaited then 2 ^ i else 0
  natToBytes 32 ((List.range 256).map bit).sum

/-- The shortfall notices of a round (R248, R253). -/
def noticesOf (t : Counter) (p : Packet) (chip : BitVec 12) (round : Nat) : List Packet :=
  (List.range 4).filterMap fun c =>
    let map := chunkBitmap t p.seq p.bytes.toNat c
    if map.all fun b => decide (b = 0) then none
    else
      let n := (packetOf 6 p.schip chip p.scell.toNat p.ctxid.toNat 0).withPayload map
      some { n with
        pcrc := 0, ctr := p.ctr, seq := p.seq, bytes := p.bytes, rslot := p.rslot, status := BitVec.ofNat 2 c
        round := BitVec.ofNat 3 round }

/-- The DETAIL of a KIND 2 record (R376). -/
def releaseDetail (p : Packet) (side : Nat) (peer : BitVec 12) : List Byte :=
  natToBytes 2 p.ctr.toNat ++ natToBytes 2 p.seq.toNat ++ natToBytes 2 p.bytes.toNat ++ natToBytes 1 side ++ natToBytes 1 0 ++
    natToBytes 2 peer.toNat

/-- The "release failed" report to the fault channel (R245, R376). -/
def State.reportRelease (s : State) (p : Packet) (side : Nat) (peer : BitVec 12) : State :=
  s.writeFault p.ctxid.toNat (faultRecord 2 s.chip 43 0 (releaseDetail p side peer))

/-- ROUND_EXPIRY: round of pending release `index` of counter `ctr` expires with positions AWAITED (R248); after round 5 it
fails (R245), once an outcome record is free (log 39, DEDUCED). -/
def execRoundExpiry (s : State) : Out :=
  let n := s.args.ctr
  let t := s.counter n
  match t.pending[s.args.index]? with
  | none => .next s
  | some r =>
    let p := r.packet
    let count := p.bytes.toNat
    if s.now < r.deadline ∨ t.waits p.seq count = false then .next s
    else if r.round < 5 then
      let r1 := { r with round := r.round + 1, deadline := r.deadline + s.timeout * 2 ^ r.round }
      let s1 := s.setCounter n { t with pending := t.pending.set s.args.index r1 }
      .next ((noticesOf t p s.chip r.round).foldl State.transmit s1)
    else if 64 ≤ t.outcomes.length then .next s
    else
      let o : OutcomeRec := { start := p.seq, count := count, status := 2, reason := 0, raddr := 0, time := s.now }
      .next ((((s.setCounter n (t.releaseWindow o)).transmit (p.receipt s.chip 2 0 0)).reportRelease p 0 p.schip).checkAll n)

/-! ### The sender's interface (R247, R249, R262, R265, R292) -/

/-- The interface that a response returns to: its CTXID and SCELL. -/
def State.niFor (s : State) (p : Packet) : Ni := s.niOf p.ctxid.toNat p.scell.toNat

/-- Replaces it. -/
def State.setNiFor (s : State) (p : Packet) (n : Ni) : State := s.setNi p.ctxid.toNat p.scell.toNat n

/-- Whether a slot is PENDING for a release with these fields (R265). -/
def RelSlot.awaits (r : RelSlot) (ctr : BitVec 13) (start : BitVec 16) : Bool :=
  decide (r.state = .pending) && decide (r.ctr = ctr.toNat) && decide (r.start = start)

/-- Frees the send records of a release's window (R247). -/
def Ni.freeWindow (n : Ni) (p : Packet) : Ni :=
  { n with recs := n.recs.filter fun r => !r.covered p.dchip (decide (p.kind = 8)) p.ctr p.seq p.bytes.toNat }

/-- A slot of a cell's interface is settled: DONE, or for a mixing exchange FREE with the exchange ended (R262, R265, R309,
R311). -/
def State.settleSlot (s : State) (ctx cell slot : Nat) (st : RelState) (last : Nat) : State :=
  let n := s.niOf ctx cell
  let r := tget n.rel {} slot
  let n1 := match r.packet with
    | some p => n.freeWindow p
    | none => n
  match r.mixing with
  | some key => (s.setNi ctx cell n1).endExchange key last
  | none => s.setNi ctx cell { n1 with rel := tset n1.rel slot { r with state := st, round := 0 } }

/-- Round n of a sender's release expires: the release goes again with ROUND n, or fails after round 5 (R249); a mixing
exchange then stays outstanding (R311). -/
def execSenderRoundExpiry (s : State) : Out :=
  let ctx := s.args.ctx
  let cell := s.args.cell
  let n := s.niOf ctx cell
  let r := tget n.rel {} s.args.slot
  match r.packet with
  | none => .next s
  | some p =>
    if r.state ≠ .pending ∨ r.round = 0 ∨ s.now < r.deadline then .next s
    else if r.round < 5 then
      let r1 := { r with round := r.round + 1, deadline := r.deadline + s.timeout * 2 ^ r.round }
      let s1 := s.setNi ctx cell { n with rel := tset n.rel s.args.slot r1 }
      .next (if r.noticed.contains r.round then s1 else s1.transmit { p with round := BitVec.ofNat 3 r.round })
    else
      let n1 := n.freeWindow p
      let r1 := { r with round := 0, state := if r.mixing.isSome then .pending else .failed }
      .next ((s.setNi ctx cell { n1 with rel := tset n1.rel s.args.slot r1 }).reportRelease p 1 p.dchip)

/-- The write that a record sends again for a notice from a chip: a multicast write goes to that chip alone as a counted
write (R292). -/
def SendRec.again (r : SendRec) (chip : BitVec 12) : SendRec :=
  if r.packet.kind = 7 then
    { r with packet := { (r.packet.asType 0) with dchip := chip, addr := faWithChip r.packet.addr chip } }
  else r

/-- Whether a record holds a write that may have gone to a chip: a multicast write goes where the sorting office sends its replicas, to any
chip (R247, R249, R288, R292; log 89, DEDUCED). -/
def SendRec.sentTo (r : SendRec) (chip : BitVec 12) : Bool := decide (r.packet.kind = 7) || decide (r.packet.dchip = chip)

/-- Whether a notice from a chip asks for a record in a round, in which it has not been sent again yet (R249). -/
def SendRec.askedBy (r : SendRec) (chip : BitVec 12) (ctr : BitVec 13) (round : BitVec 3) (seqs : List (BitVec 16)) : Bool :=
  decide (r.packet.ctr = ctr) && seqs.contains r.packet.seq && r.sentTo chip && !r.sent.contains (chip, round)

/-- Sends record i again to a chip, once in a round (R249). -/
def State.resend (s : State) (ctx cell : Nat) (chip : BitVec 12) (round : BitVec 3) (i : Nat) : State :=
  let n := s.niOf ctx cell
  match n.recs[i]? with
  | none => s
  | some r =>
    (s.setNi ctx cell { n with recs := n.recs.set i { r with sent := r.sent ++ [(chip, round)] } }).sendWrite ctx cell (r.again chip) round

/-- Sends again every write of a list of sequence numbers whose record is held (R249). -/
def State.resendAll (s : State) (ctx cell : Nat) (chip : BitVec 12) (ctr : BitVec 13) (round : BitVec 3) (seqs : List (BitVec 16)) : State :=
  let recs := (s.niOf ctx cell).recs
  ((List.range recs.length).filter fun i => (recs[i]?.map (·.askedBy chip ctr round seqs)).getD false).foldl (fun s i => s.resend ctx cell chip round i) s

/-- Bits set in a notice's bitmap. -/
def noticeBits (payload : List Byte) : List Nat :=
  let m := bytesToNat payload
  (List.range 256).filter fun i => decide (m / 2 ^ i % 2 = 1)

/-- ARG0 of a KIND 9 event (R384). -/
def noticeArg0 (p : Packet) (quarter : Nat) : Word :=
  BitVec.ofNat 64 (p.ctxid.toNat + 2 ^ 16 * p.scell.toNat + 2 ^ 26 * p.rslot.toNat + 2 ^ 30 * p.status.toNat + 2 ^ 32 * quarter +
    2 ^ 34 * p.round.toNat + 2 ^ 48 * p.ctr.toNat)

/-- A notice reaches the release slot that it names: the sender's timer will find it at the end of its round (R249). -/
def RelSlot.hear (r : RelSlot) (p : Packet) : RelSlot :=
  if r.awaits p.ctr p.seq then { r with noticed := r.noticed ++ [p.round.toNat] } else r

/-- A notice reaches the interface: the slot that it names has heard it. -/
def Ni.hear (n : Ni) (p : Packet) : Ni :=
  match tfind n.rel p.rslot.toNat with
  | some r => { n with rel := tset n.rel p.rslot.toNat (r.hear p) }
  | none => n

/-- SHORTFALL_NOTICE (R249): the writes that it asks for are sent again, or in host-assisted mode one KIND 9 event goes out for each quarter
with a bit set (R384, R389). -/
def execShortfallNotice (s : State) : Out :=
  match s.arrived 6 with
  | none => .next s
  | some p =>
    let s1 := s.taken.setNiFor p ((s.niFor p).hear p)
    if s.service.assisted.contains 1 then
      let map := bytesToNat p.payload
      .next ((List.range 4).foldl (fun s q =>
        let part := map / 2 ^ (64 * q) % 2 ^ 64
        if part = 0 then s
        else
          s.report 9 (noticeArg0 p q) (BitVec.ofNat 64 (p.seq.toNat + 2 ^ 16 * p.bytes.toNat + 2 ^ 32 * p.schip.toNat)) (BitVec.ofNat 64 part)) s1)
    else
      let first := p.seq + BitVec.ofNat 16 (256 * p.status.toNat)
      .next (s1.resendAll p.ctxid.toNat p.scell.toNat p.schip p.ctr p.round ((noticeBits p.payload).map fun i => first + BitVec.ofNat 16 i))

/-- The writes of this chip's memory that a release of a cell of this chip covers, flag and payloads, come before the completion record of
its launch (R334). -/
def State.coverWrites (s : State) (r : RelSlot) (ctx cell : Nat) : State :=
  let ids := (s.writes.filter fun w =>
    match w.owner with
    | .fabric schip scell c ctr seq => decide (schip = s.chip.toNat) && decide (scell = cell) && decide (c = ctx) && decide (ctr = r.ctr) &&
        inWindow r.start r.count (BitVec.ofNat 16 seq)
    | _ => false).map (·.id)
  { s with launches := s.launches.map fun e =>
      if e.1 = r.lid then (e.1, { e.2 with after := e.2.after ++ [{ core := ⟨cell, .a⟩, ids := ids }] }) else e }

/-- RECEIPT (R247, R262, R265, R311): dropped for a slot that is not PENDING for its release, but for the records it
frees. -/
def execReceipt (s : State) : Out :=
  match s.arrived 5 with
  | none => .next s
  | some p =>
    let n := s.niFor p
    let n1 := { n with recs := n.recs.filter fun r => !r.covered p.schip false p.ctr p.seq p.bytes.toNat }
    let s1 := s.taken.setNiFor p n1
    let r := tget n.rel {} p.rslot.toNat
    if r.awaits p.ctr p.seq then
      let st : RelState := if p.status = 0#2 then .complete else if p.status = 1#2 then .refused p.reason.toNat p.addr else .failed
      let s0 := if st = .complete ∧ r.mixing.isNone then s1.coverWrites r p.ctxid.toNat p.scell.toNat else s1
      let s2 := s0.settleSlot p.ctxid.toNat p.scell.toNat p.rslot.toNat st p.status.toNat
      match r.packet with
      | some q => .next (if p.status = 2#2 ∧ r.round ≠ 0 then s2.reportRelease q 1 q.dchip else s2)
      | none => .next s2
    else .next s1

/-! ### Remote loads at the sender (R259, R264, R374, R379) -/

/-- Whether replies for an A-core go to its pending-load record: from its pre-emption interrupt until a restore (R373,
R374). -/
def State.saving (s : State) (ctx cell : Nat) : Bool := decide (s.residentIn cell ≠ some ctx) || (s.ctxOf cell).coreA.saving

/-- A register stops waiting for a load tag. -/
def Core.dropTag (k : Core) (t : Nat) : Core := { k with pending := k.pending.filter fun p => decide (p.source ≠ .tag t) }

/-- The entry of a reply in the pending-load record (R374). -/
def LateReply.bytes (e : LateReply) : List Byte := natToBytes 1 1 ++ natToBytes 1 e.status ++ List.replicate 6 0 ++ natToBytes 8 e.data.toNat

/-- A remote load ends: its status, its value and the cause of a deferred event (R259, R264). While the A-core is being
saved it goes to the pending-load record (R374); a cancelled load ends without effect (R379). -/
def State.endLoad (s : State) (ctx cell t status : Nat) (v : Word) (cause : Nat) : State :=
  let n := s.niOf ctx cell
  match tfind n.tags t with
  | none => s
  | some g =>
    if g.cancelled then s.setNi ctx cell { n with tags := tdel n.tags t }
    else if s.saving ctx cell then
      let e : LateReply := { tag := t, status := status, data := if status = 0 then v else 0, cause := cause }
      let s1 := s.setNi ctx cell { n with late := n.late ++ [e] }
      s1.saveAreaPut ctx cell (0x5F400 + 16 * t) e.bytes
    else
      let s1 := (s.setNi ctx cell { n with tags := tdel n.tags t }).updCore ⟨cell, .a⟩ (·.dropTag t)
      if status = 0 then
        match g.dst with
        | some (.x r) => s1.updCore ⟨cell, .a⟩ (·.setX r v)
        | _ => s1
      else s1.postTo ctx cell cause g.fa

/-- READ_REPLY (R255, R259, R264). A reply that answers no waiting request is dropped
(log 64, DEDUCED). -/
def execReadReply (s : State) : Out :=
  match s.arrived 2 with
  | none => .next s
  | some p =>
    let n := s.niFor p
    let t := p.ltag.toNat
    match tfind n.tags t with
    | none => .next s.taken
    | some g =>
      let q := g.packet
      if n.tagWaits t = false ∨ q.addr ≠ p.addr ∨ q.atag ≠ p.atag ∨ q.fetchAdd ≠ p.fetchAdd ∨ q.size ≠ p.size then .next s.taken
      else if p.status ≠ 0#2 ∧ g.cancelled = false ∧ s.niRoom p.ctxid.toNat p.scell.toNat = false then .next s
      else
        let v := extend p.data.toNat (eszBytes p.size) g.signed
        .next (s.taken.endLoad p.ctxid.toNat p.scell.toNat t p.status.toNat v 29)

/-- RLD_ROUND_EXPIRY: the request goes again, or after round 5 the load fails, once the interface has room for the event (R259,
R264). -/
def execRldRoundExpiry (s : State) : Out :=
  let ctx := s.args.ctx
  let cell := s.args.cell
  let n := s.niOf ctx cell
  match tfind n.tags s.args.slot with
  | none => .next s
  | some g =>
    if n.tagWaits s.args.slot = false ∨ s.now < g.deadline then .next s
    else if g.round < 5 then
      let g1 := { g with round := g.round + 1, deadline := g.deadline + s.timeout * 2 ^ g.round }
      .next ((s.setNi ctx cell { n with tags := tset n.tags s.args.slot g1 }).transmit { g.packet with round := BitVec.ofNat 3 g.round })
    else if g.cancelled = false ∧ s.niRoom ctx cell = false then .next s
    else .next (s.endLoad ctx cell s.args.slot 3 0 43)

/-- NACK_PACKET (R254, R264, R265, R332): beyond 16 waiting events the NACK stays in the network. It frees the record of the write that
it refuses (R247): one to the chip of its address, or a multicast write, by whichever chip it is refused (log 89, DEDUCED). -/
def execNackPacket (s : State) : Out :=
  match s.arrived 3 with
  | none => .next s
  | some p =>
    let ctx := p.ctxid.toNat
    let cell := p.scell.toNat
    let n := s.niFor p
    if p.answers = 2#2 then
      let r := tget n.rel {} p.rslot.toNat
      if r.awaits p.ctr p.seq then .next (s.taken.settleSlot ctx cell p.rslot.toNat (.refused p.reason.toNat p.addr) 1)
      else .next s.taken
    else if s.niRoom ctx cell = false then .next s
    else if p.answers = 1#2 then
      if n.tagWaits p.ltag.toNat then .next (s.taken.endLoad ctx cell p.ltag.toNat 2 0 (if p.reason = 16#8 then 25 else 27))
      else .next s.taken
    else
      let gone (r : SendRec) : Bool :=
        decide (p.answers = 0#2) && decide (r.packet.ctr = p.ctr) && decide (r.packet.seq = p.seq) && r.sentTo (faChip p.addr)
      let s1 := s.taken.setNiFor p { n with recs := n.recs.filter fun r => !gone r }
      .next (s1.postTo ctx cell 27 p.addr)

/-! ### Read requests at the target (R241, R255, R259, R332, R336, R340) -/

/-- The reply to a read request (R255). -/
def replyTo (p : Packet) (own : BitVec 12) (poison : Bool) (v : Nat) : Packet :=
  let r := packetOf 2 p.schip own p.scell.toNat p.ctxid.toNat p.addr
  { r with ltag := p.ltag, size := p.size, fetchAdd := p.fetchAdd, atag := p.atag, status := if poison then 1 else 0
           data := if poison then 0 else BitVec.ofNat 64 v }

/-- Keeps the reply of a fetch-and-add: the last 64 of a sending cell (R259). -/
def keepReply (ks : List KeptReply) (k : KeptReply) : List KeptReply :=
  let same (e : KeptReply) : Bool := decide (e.schip = k.schip) && decide (e.scell = k.scell)
  let all := ks ++ [k]
  if (all.filter same).length ≤ 64 then all else all.eraseIdx ((all.findIdx? same).getD 0)

/-- Whether the leaf of an access is in a page with D = 1. -/
def leafD (e : Option Word) : Bool :=
  match e with
  | some w => pteD w
  | none => false

/-- Whether a request comes from an A-core of this chip, whose access it is; another chip's is seen here through the domain (R318). -/
def State.ownRequest (s : State) (p : Packet) : Bool := decide (p.schip = s.chip)

/-- The A-core of this chip that sent a request, resident or switched out. -/
def State.requester (s : State) (p : Packet) : Core := if s.ownRequest p then s.heldCore p.ctxid.toNat ⟨p.scell.toNat, .a⟩ else {}

/-- The number of the access that a request makes: that of its load tag on this chip. -/
def State.requestId (s : State) (p : Packet) : Nat :=
  if s.ownRequest p then
    match tfind (s.niFor p).tags p.ltag.toNat with
    | some t => t.id
    | none => s.fresh
  else s.fresh

/-- The party that a request reads as (R318, R320; log 102, DEDUCED). -/
def State.requestView (s : State) (p : Packet) : Viewer := if s.ownRequest p then .cell p.scell.toNat else .far

/-- Whether a request of this chip has to wait for earlier accesses of its A-core: loads of the same sector that are not performed, and for a
fetch-and-add store-buffer entries to it (R321; log 102, DEDUCED). -/
def State.requestHeld (s : State) (p : Packet) (ks : List Nat) : Bool :=
  let k := s.requester p
  let id := s.requestId p
  let hit (a : Nat) : Bool := ks.any fun b => decide (sectorOf a = sectorOf b)
  s.ownRequest p && ((k.loads.any fun l => decide (l.id < id) && hit l.addr) || s.tagsBefore p.ctxid.toNat p.scell.toNat id hit ||
    (p.fetchAdd && k.stores.any fun e => decide (e.id < id) && e.writesAt hit))

/-- The bytes that a request reads: from the store buffer of its A-core on this chip, else what it sees (R320). -/
def State.requestBytes (s : State) (p : Packet) (ks : List Nat) : List Byte :=
  ks.map fun a => (bufferByte (s.requester p).stores (s.requestId p) a).getD (s.byteFor (s.requestView p) a)

/-- Whether a request meets poison: a 64-byte store that waits in the store buffer of its A-core has cleared its quarter (R100, R320). -/
def State.requestPoison (s : State) (p : Packet) (ks : List Nat) : Bool :=
  (ks.flatMap fun a => quartersOf (sectorOf a)).any fun q =>
    s.quarterBad (s.requestView p) q && !bufferedQuad (s.requester p).stores (s.requestId p) q

/-- Notes the writes that a remote load of an A-core of this chip has read (R319). -/
def State.noteRequest (s : State) (p : Packet) (ks : List Nat) : State :=
  let id := s.requestId p
  let ws := s.sourcesFor (s.requestView p) (ks.filter fun a => (bufferByte (s.requester p).stores id a).isNone)
  if s.ownRequest p then
    s.updHeldCore p.ctxid.toNat ⟨p.scell.toNat, .a⟩ fun k =>
      { k with seen := (k.seen.filter fun e => s.writes.any fun w => decide (w.id = e.2)) ++ ws.map fun w => (id, w) }
  else s

/-- Performs a fetch-and-add on the word at a key, its write visible at least at `least`: on a poisoned sector it appends the marker. The
reply is kept and sent (R258, R259, R336; log 102, DEDUCED). -/
def State.remoteAdd (s : State) (p : Packet) (key least : Nat) : State :=
  let n := eszBytes p.size
  let poison := s.poisonedLast (sectorOf key)
  let v := s.natLast key n
  let id := s.requestId p
  let cell := p.scell.toNat
  let owner : Owner := if s.ownRequest p then .core ⟨cell, .a⟩ else packetWriter p
  let scope := if s.ownRequest p then max least (atomicScope cell key) else 3
  let s1 := if poison then s.addMarker id [sectorOf key] cell owner scope
    else s.addWrite id (cellsFrom key (natToBytes n (v + p.data.toNat))) cell owner scope
  let k : KeptReply := { schip := p.schip.toNat, scell := cell, atag := p.atag, poison := poison, data := if poison then 0 else BitVec.ofNat 64 v }
  ({ s1.bump with kept := keepReply s1.kept k }).transmit (replyTo p s.chip poison v)

/-- Whether a core belongs to a deterministic group, or will from its next boundary (R337, R338). -/
def Core.inMode (k : Core) : Bool := k.member.active || decide (k.quantLen ≠ 0)

/-- Whether a context has a deterministic group on this chip (R337). -/
def State.hasGroup (s : State) (ctx : Nat) : Bool :=
  let any (x : CellCtx) : Bool := x.coreA.inMode || x.coreX.inMode || x.coreC.inMode
  (s.cells.any fun e => decide (e.2.resident = some ctx) && any e.2.ctx) || s.saved.any fun v => decide (v.ctxid = ctx) && any v.ctx

/-- Whether a request comes from a member of its context's group on this chip (R337). -/
def State.fromMember (s : State) (p : Packet) : Bool :=
  s.ownRequest p && (s.heldCore p.ctxid.toNat ⟨p.scell.toNat, .a⟩).member.active

/-- A fetch-and-add is the same request sent again (R259). -/
def sameAdd (p q : Packet) : Bool := decide (p.schip = q.schip) && decide (p.scell = q.scell) && decide (p.atag = q.atag)

/-- READ_REQUEST (R255): a load, a counter read, or a fetch-and-add; one from outside a deterministic group to its D pages is
held until the boundary (R340). A request whose translation waits for a walk stays in the network (R93), as does one of this chip that waits
for earlier accesses of its A-core (R321). -/
def execReadRequest (s : State) : Out :=
  match s.arrived 1 with
  | none => .next s
  | some p =>
    let s1 := s.taken
    match s.context p.ctxid.toNat with
    | none => .next (s1.sendNack p 4)
    | some c =>
      let n := eszBytes p.size
      if p.fetchAdd then
        match s.kept.find? fun k => decide (k.schip = p.schip.toNat) && decide (k.scell = p.scell.toNat) && decide (k.atag = p.atag) with
        | some k => .next (s1.transmit (replyTo p s.chip k.poison k.data.toNat))
        | none =>
          match s.fabKeys p.ctxid.toNat p.schip p.addr n .atomic with
          | .error (.walk va) => .next (s.holdForWalk p.ctxid.toNat va)
          | .error (.refuse r) => .next ((s1.fabForget p.ctxid.toNat).sendNack p r)
          | .ok (ks, e) =>
            if leafD e && s.hasGroup p.ctxid.toNat && !s.fromMember p then
              .next (if s.heldAdds.any fun h => sameAdd p h.1 then s1 else { s1 with heldAdds := s1.heldAdds ++ [(p, ks.headD 0)] })
            else if s.requestHeld p ks then .next s
            else .next (s1.remoteAdd p (ks.headD 0) 0)
      else if faKind p.addr = 2 then
        let i := faAddr p.addr / 8
        if c.climit ≤ i then .next (s1.sendNack p 9)
        else
          let t := s.counter (c.cbase + i)
          .next (s1.transmit (replyTo p s.chip false (t.count.toNat + 2 ^ 32 * t.base.toNat)))
      else
        match s.fabKeys p.ctxid.toNat p.schip p.addr n .load with
        | .error (.walk va) => .next (s.holdForWalk p.ctxid.toNat va)
        | .error (.refuse r) => .next ((s1.fabForget p.ctxid.toNat).sendNack p r)
        | .ok (ks, e) =>
          let owned := match e with
            | some w => if pteO w then some (leafPage w) else none
            | none => none
          if s.requestHeld p ks then .next s
          else if (owned.map fun pg => (s.ownOf pg).written).getD false then .next (s1.sendNack p 16)
          else if s.requestPoison p ks then .next (s1.transmit (replyTo p s.chip true 0))
          else .next ((s1.noteRequest p ks).transmit (replyTo p s.chip false (bytesToNat (s.requestBytes p ks))))

/-! ### Ports (R268, R269) -/

/-- Ports of a chip: 40 scale-up ports, then 8 scale-out ports (R10). -/
def portCount : Nat := 48

/-- Scale-up ports, each with five rails (R10). -/
def railPorts : Nat := 40

/-- A port. -/
def State.port (s : State) (n : Nat) : Port := tget s.ports {} n

/-- Replaces a port. -/
def State.setPort (s : State) (n : Nat) (p : Port) : State := { s with ports := tset s.ports n p }

/-- Whether a port is in service: it exists, is not fenced, and has been enabled (R10, R15, R386). -/
def State.portUp (s : State) (n : Nat) : Bool := decide (n < portCount) && !(s.port n).fenced && s.service.portsEnabled

/-- Whether a port rebuilds a single failed flit: every rail is in service (R268). -/
def Port.rebuilds (p : Port) : Bool := p.railsOut.isEmpty && p.railsFenced.isEmpty

/-- The 64-byte units that a packet takes of a buffer (R269). -/
def unitsOf (p : Packet) : Nat := (p.flits.toNat + 1) / 2

/-- The floor of a virtual network in 64-byte units: 4 KiB (R269). -/
def floorUnits : Nat := 64

/-- Units of a port's receive buffer that the packets of a virtual network hold. -/
def State.heldUnits (s : State) (n v : Nat) : Nat :=
  ((s.net.filter fun it => decide (it.port = some n) && decide (it.packet.vn.toNat = v)).map fun it => unitsOf it.packet).sum

/-- The space that a receiver keeps for a virtual network: the announced limit, or the one before it until the flits counted against that
have drained (R269). -/
def State.space (s : State) (n v : Nat) : Nat :=
  let pt := s.port n
  let new := tget pt.announced floorUnits v
  if s.heldUnits n v ≤ new then new else max new (tget pt.old floorUnits v)

/-- A beat of the packet that a port receives, with `amount` flits that fail their check; the last beat delivers the packet or drops it
(R268). A worm closed by an abort tail flit carries no packet and is discarded (R270, R375; log 75, DESIGN CHOICE). A packet that breaks
R250 or R251 is dropped. One for which the receive buffer has no room is still at its sender (R269). -/
def State.receiveBeat (s : State) (n : Nat) : State :=
  let pt := s.port n
  let bad := pt.rxBad || decide ((if pt.rebuilds then 1 else 0) < s.args.amount)
  if !s.args.flag then s.setPort n { pt with rxBad := bad }
  else
    let s1 := s.setPort n { pt with rxBad := false }
    match s.args.packet with
    | none => s1
    | some p =>
      if bad || !p.wellFormed || decide (p.dchip ≠ s.chip) || decide (p.kind = 7) || decide (p.kind = 8) || decide (p.kind = 9) then s1
      else if s.space n p.vn.toNat < s.heldUnits n p.vn.toNat + unitsOf p then s
      else
        let s2 := s1.setPort n { pt with rxBad := false, occupancy := tupd pt.occupancy 0 p.vn.toNat (· + unitsOf p) }
        { s2 with net := s2.net ++ [{ packet := p, outbound := false, offered := false, port := some n }] }

/-- Packet `index` of those that wait to leave the chip leaves by a port, within the limit of its virtual network (R268, R269): to another
domain by a scale-out port and within the domain by a scale-up port (R13, R272). -/
def State.sendBeats (s : State) (n : Nat) : State :=
  match s.sent[s.args.index]? with
  | none => s
  | some p =>
    let pt := s.port n
    let v := p.vn.toNat
    let out := tget pt.out 0 v + unitsOf p
    if s.isProxy p.dchip ≠ decide (railPorts ≤ n) then s
    else if tget pt.limits floorUnits v < out then s
    else { s.setPort n { pt with out := tset pt.out v out } with sent := s.sent.eraseIdx s.args.index, crossed := s.crossed ++ [(n, p)] }

/-- The peer's buffer has drained `amount` units of virtual network `slot` (R269). -/
def State.drainBeats (s : State) (n : Nat) : State :=
  let pt := s.port n
  s.setPort n { pt with out := tupd pt.out 0 (s.args.slot % 4) (· - s.args.amount) }

/-- FLIT_BEAT: beats of a packet on the rails of a port (R268): `memory` 0 one that the port receives, 1 those of a packet that it sends,
2 the room that the peer has made again (log 90, DESIGN CHOICE). -/
def execFlitBeat (s : State) : Out :=
  let n := s.args.port
  if s.portUp n then
    .next (match s.args.memory with
      | 0 => s.receiveBeat n
      | 1 => s.sendBeats n
      | 2 => s.drainBeats n
      | _ => s)
  else .next s

/-- LINK_CONTROL: a link-control packet with four 16-bit limits, one for each virtual network in ascending order from bit 0. The sender
obeys them from then on, raised or lowered (R269). -/
def execLinkControl (s : State) : Out :=
  match s.args.packet with
  | none => .next s
  | some p =>
    if p.kind ≠ 9 ∨ p.wellFormed = false ∨ s.portUp s.args.port = false then .next s
    else
      let lim := (List.range 4).map fun v => (v, (p.data.extractLsb' (16 * v) 16).toNat)
      .next (s.setPort s.args.port { s.port s.args.port with limits := lim })

/-- BUFFER_INTERVAL: every 1024 cycles a port divides the lent part of its buffer in proportion to occupancy, and announces
the limits in a link-control packet (R269). The occupancy of an interval counts what the buffer holds as it begins and what arrives in it
(log 40, DESIGN CHOICE). Without any occupancy the limits stand (log 40, DESIGN CHOICE). -/
def execBufferInterval (s : State) : Out :=
  let n := s.args.port
  let pt := s.port n
  if s.portUp n = false ∨ s.now < pt.lastInterval + 1024 then .next s
  else
    let total := ((List.range 4).map fun v => tget pt.occupancy 0 v).sum
    let lim := if total = 0 then pt.announced else
      (List.range 4).map fun v => (v, min 0xFFFF (floorUnits + Config.lentBuffer * tget pt.occupancy 0 v / total))
    let old := (List.range 4).map fun v => (v, s.space n v)
    let word := ((List.range 4).map fun v => tget lim floorUnits v * 2 ^ (16 * v)).sum
    let p := packetOf 9 0 s.chip 0 0 0
    let s1 := s.setPort n { pt with occupancy := (List.range 4).map fun v => (v, s.heldUnits n v), announced := lim, old := old, lastInterval := s.now }
    .next { s1 with crossed := s1.crossed ++ [(n, { p with data := BitVec.ofNat 64 word })] }

end Sys2Proof.Machine
end

