-- ==== Sys2Proof/Machine/Scheduling.lean ====
section
/-! DEFINITION. Scheduling: messages and firings (R345 to R356), launches (R357 to R362), budgets and watchdogs (R363,
R364). -/

namespace Sys2Proof.Machine

/-! ### Messages (R345) -/

/-- CTXID of a message. -/
def Message.ctx (m : Message) : Nat := vecBytes m.body 14 2

/-- DCELL. -/
def Message.cell (m : Message) : Nat := m.body.toNat / 2 ^ 76 % 1024

/-- CH. -/
def Message.ch (m : Message) : Nat := m.body.toNat / 2 ^ 70 % 64

/-- LID. -/
def Message.lid (m : Message) : Nat := m.body.toNat / 2 ^ 48 % 65536

/-- The 64 bytes of a message: payload and TAG, and the header fields (R345). -/
def messageOf (payload : Nat) (ctx : Nat) (chip : BitVec 12) (scell role origin dcell ch lid : Nat) (tag : BitVec 32) : Message :=
  { body := BitVec.ofNat 512 (payload * 2 ^ 128 + ctx * 2 ^ 112 + chip.toNat * 2 ^ 100 + scell * 2 ^ 90 + role * 2 ^ 88 + origin * 2 ^ 86 +
      dcell * 2 ^ 76 + ch * 2 ^ 70 + lid * 2 ^ 48 + tag.toNat) }

/-! ### Launches -/

/-- Applies a function to a launch, if it is there. -/
def State.updLaunch (s : State) (lid : Nat) (f : Launch → Launch) : State :=
  { s with launches := s.launches.map fun e => if e.1 = lid then (e.1, f e.2) else e }

/-- The current class of a launch: never above that of an ancestor (R349, R362; log 46, DEDUCED). -/
def effectiveClass (ls : Tbl Launch) (lid fuel : Nat) : Nat :=
  match fuel with
  | 0 => 0
  | n + 1 =>
    match tfind ls lid with
    | none => 0
    | some l =>
      match l.parent with
      | none => l.cls
      | some p => min l.cls (effectiveClass ls p n)

/-- The current class of a launch. -/
def State.classOf (s : State) (lid : Nat) : Nat := effectiveClass s.launches lid 1024

/-- Whether the last byte of a launch's completion record is still to come: its LID is not free before (R361). -/
def State.recordDue (s : State) (lid : Nat) : Bool :=
  s.trailing.any fun t => match t with
    | .record _ l => decide (l = lid)
    | _ => false

/-- The lowest free LID from 1 to 1024 (R359). -/
def State.freeLid (s : State) : Option Nat :=
  ((List.range 1024).map (· + 1)).find? fun l => (tfind s.launches l).isNone && !s.recordDue l

/-- The cores of a cluster that have a firing of a launch, active also while its context is switched out (R360), with their state. -/
def State.firingCores (s : State) (cluster lid : Nat) : List (CoreRef × Core) :=
  match tfind s.launches lid with
  | none => []
  | some l =>
    (span (16 * cluster) 16).flatMap fun c =>
      match s.held l.ctx c with
      | none => []
      | some x => ([.a, .x, .c] : List Role).filterMap fun r =>
        if ((x.core r).firing.map (·.lid)) = some lid then some (⟨c, r⟩, x.core r) else none

/-- The clusters of a launch's placement, each with a watchdog (R364). -/
def Launch.clusters (l : Launch) : List Nat := (List.range 64).filter fun k => decide (l.first < 16 * k + 16) && decide (16 * k < l.first + l.ncell)

/-- Whether a launch's watchdog on a cluster counts now (R364). -/
def State.watching (s : State) (cluster lid : Nat) : Bool :=
  let cs := s.firingCores cluster lid
  !cs.isEmpty && cs.all fun e => !(e.2.trapMode && (decide (e.2.tcause = 12) || decide (e.2.tcause = 13) || decide (e.2.tcause = 15)))

/-- The group watchdog of a launch on a cluster restarts (R364). -/
def State.rewatch (s : State) (lid cluster : Nat) : State := s.updLaunch lid fun l => { l with watch := tset l.watch cluster 0 }

/-- Cycles pass: CYCLE advances, and so do the watchdogs that count (R107, R364). -/
def State.passTime (s : State) (dt : Nat) : State :=
  let launches := s.launches.map fun e =>
    if e.2.wdog = 0 then e
    else
      let watch := e.2.clusters.foldl (fun w k => if s.watching k e.1 then tupd w 0 k (· + dt) else w) e.2.watch
      (e.1, { e.2 with watch := watch })
  { s with now := s.now + dt, launches := launches }

/-! ### Inbox slots (R346) -/

/-- The free slots of an inbox. -/
def CellCtx.freeSlots (x : CellCtx) : List Nat := (List.range 256).filter fun i => !x.taken.contains i

/-- A message takes a free slot and joins its channel's line (R346); the slot is a free choice (log 23, DESIGN CHOICE). One that the group's
view holds stands in the view's line too (R341). -/
def CellCtx.putMessage (x : CellCtx) (m : Message) (viewed : Bool) (choice : Nat) : CellCtx :=
  let free := x.freeSlots
  let n := free.getD (choice % free.length) 0
  { x with
    inbox := tset x.inbox n m.body, taken := x.taken ++ [n], lines := tupd x.lines [] m.ch (· ++ [n])
    view := if viewed then { x.view with lines := tupd x.view.lines [] m.ch (· ++ [n]) } else x.view }

/-- Restored messages enter as slots free, ahead of every later arrival (R374). -/
def CellCtx.enterRestored (x : CellCtx) (choice fuel : Nat) : CellCtx :=
  match fuel with
  | 0 => x
  | n + 1 =>
    match x.poste with
    | [] => x
    | e :: rest => if x.freeSlots.isEmpty then x else ({ x with poste := rest }.putMessage e.1 e.2 choice).enterRestored choice n

/-! ### Delivery (R346, R353, R374) -/

/-- A message joins the poste restante of a switched-out context, with PRCOUNT, in the save area of its image (R374)
(log 67, DEDUCED). -/
def State.posteMessage (s : State) (ctx cell : Nat) (m : Message) : State :=
  match s.savedOf ctx cell with
  | none => s
  | some v =>
    let n := v.ctx.poste.length
    let s1 := s.updSaved ctx cell fun v => { v with ctx := { v.ctx with poste := v.ctx.poste ++ [(m, false)] } }
    (s1.saveAreaPut ctx cell (0x5F800 + 64 * n) (natToBytes 64 m.body.toNat)).saveAreaPut ctx cell 0x5F480 (natToBytes 8 (n + 1))

/-- Puts a message where it goes: an inbox slot, or the poste restante; none while it has to wait (R346, R374), or where the cell is
fenced (R15). -/
def State.placeMessage (s : State) (m : Message) : Option State :=
  if s.cellOut m.cell then none
  else if s.residentIn m.cell = some m.ctx then
    let x := s.ctxOf m.cell
    if x.poste.isEmpty && !x.freeSlots.isEmpty then some (s.updCtx m.cell fun x => x.putMessage m false (Config.slotChoice s.tick)) else none
  else
    match s.savedOf m.ctx m.cell with
    | none => none
    | some v => if v.ctx.poste.length < 32 then some (s.posteMessage m.ctx m.cell m) else none

/-- Whether a message to a channel is held for the boundary: by DET as the group's view has it, where it has the channel (R340, R341). -/
def CellCtx.detChannel (x : CellCtx) (n : Nat) : Bool := ctlDet ((tfind x.view.ctls n).getD (tget x.pigeons {} n).ctl)

/-- Delivers a message, or holds it for the boundary when its pigeonhole is deterministic and its context has a group, a member's with its
LCN and the number of the send (R340). -/
def State.deliver (s : State) (m : Message) (sender : Option (Nat × Nat)) : Option State :=
  match s.held m.ctx m.cell with
  | none => none
  | some x =>
    if x.detChannel m.ch && s.hasGroup m.ctx then
      some (s.updHeld m.ctx m.cell fun x => { x with heldMessages := x.heldMessages ++ [(sender, m)] })
    else s.placeMessage m

/-- Whether two messages go to the same channel. -/
def sameLine (m n : Message) : Bool := decide (m.cell = n.cell) && decide (m.ch = n.ch) && decide (m.ctx = n.ctx)

/-- MESSAGE_LEAVES_SEND_BUFFER: entry `index` of a core's send buffer, or with `flag` initial message `index`. It leaves once
every earlier access of its sender is visible at chip scope, and after the earlier messages to its channel (R353); the initial messages of
a launch leave in image order (R359). -/
def execMessageLeavesSendBuffer (s : State) : Out :=
  if s.args.flag then
    match s.initial[s.args.index]? with
    | none => .next s
    | some m =>
      if (s.initial.take s.args.index).any (fun n => decide (n.lid = m.lid)) then .next s
      else
        match ({ s with initial := s.initial.eraseIdx s.args.index }).deliver m none with
        | none => .next s
        | some s1 => .next s1
  else
    let p := s.args.core
    let k := s.coreOf p
    match k.sendBuffer[s.args.index]? with
    | none => .next s
    | some e =>
      if (k.sendBuffer.take s.args.index).any (fun o => sameLine e.msg o.msg) || !s.settled p e.after 2 then .next s
      else
        let s1 := s.updCore p fun k => { k with sendBuffer := k.sendBuffer.eraseIdx s.args.index }
        match s1.deliver e.msg (if k.member.active then some (lcn p, e.num) else none) with
        | none => .next s
        | some s2 => .next s2

/-! ### The message instructions (R352 to R355) -/

/-- Cause 47 with a reason (R352). -/
def messageTrap (s : State) (reason : Nat) : Out := trap s 47 (BitVec.ofNat 64 reason)

/-- The firing of the core whose turn it is, outside trap mode (R352 reason 4). -/
def State.firingHere (s : State) : Option Firing := if s.me.trapMode then none else s.me.firing

/-- Keys of n bytes of the own scratchpad. -/
def State.spadSpan (s : State) (off n : Nat) : List Nat := span (cellKey s.myCell off) n

/-- Whether an instruction that reads scratchpad bytes as it retires may read them now (R321, R322). -/
def State.readable (s : State) (keys : List Nat) : Bool := keys.all fun k => s.mayRead (sectorOf k)

/-- Check 44: kind 3, the own chip, CADDR[47:16] zero (R353). -/
def State.messageAddr (s : State) (fa : Word) : Bool :=
  decide (faKind fa = 3) && decide (faChip fa = s.chip) && decide (faAddr fa < 65536)

/-- MSEND (R353). The payload is read as it retires; a poisoned sector traps with cause 29
(log 66, DEDUCED). -/
def execMsend (a b c : Reg) (s : State) : Out :=
  let srcs := [a, b, c]
  match badQueue s.cur.core.role srcs none with
  | some r => trap s 35 (r.setWidth 64)
  | none =>
    match s.firingHere with
    | none => messageTrap s 4
    | some f =>
      match s.blocked srcs none with
      | some o => o
      | none =>
        let fa := s.sval [] a
        let off := (s.sval [a] b).toNat
        let tag := (s.sval [a, b] c).setWidth 32
        let dcell := faAddr fa / 64
        let ch := faAddr fa % 64
        if !s.messageAddr fa then messageTrap s 1
        else if off % 16 ≠ 0 then trap s 4 (BitVec.ofNat 64 off)
        else if spadSize < off + 48 then trap s 5 (BitVec.ofNat 64 off)
        else
          match s.held s.myCtxId dcell with
          | none => trap s 27 fa
          | some x =>
            if !ctlEn (tget x.pigeons {} ch).ctl then messageTrap s 2
            else if f.produce = 0 then messageTrap s 3
            else
              let keys := s.spadSpan off 48
              if !s.readable keys then wait s
              else if keys.any s.poisonHere then trap s 29 (BitVec.ofNat 64 off)
              else
                let p := s.cur.core
                let payload := bytesToNat (s.loadBytes p s.fresh keys)
                let m := messageOf payload s.myCtxId s.chip s.myCell (roleCode p.role) 0 dcell ch f.lid tag
                let s1 := (s.noteRead p s.fresh keys).bump
                let e : SendEntry := { msg := m, after := s1.past p, num := s.fresh }
                let s2 := s1.updMe fun k =>
                  { k with sendBuffer := k.sendBuffer ++ [e], firing := some { f with produce := f.produce - 1 } }
                .next ((s2.updLaunch f.lid fun l => { l with inflight := l.inflight + 1 }).finishNone srcs)

/-- MPOP (R354): the control-page address of the firing's next consumed message, or 0. -/
def execMpop (d : Reg) (s : State) : Out :=
  match badQueue s.cur.core.role [] (some d) with
  | some r => trap s 35 (r.setWidth 64)
  | none =>
    match s.firingHere with
    | none => messageTrap s 4
    | some f =>
      match s.blocked [] (some d) with
      | some o => o
      | none =>
        match f.slots[f.popped]? with
        | none => .next (s.finish [] d 0)
        | some n =>
          let s1 := s.updMe fun k => { k with firing := some { f with popped := f.popped + 1 } }
          .next (s1.finish [] d (BitVec.ofNat 64 (0x104000 + 64 * n)))

/-- CTL of a pigeonhole as a core reads it: a member by the view (R341). -/
def CellCtx.ctlFor (x : CellCtx) (member : Bool) (n : Nat) : Word := if member then tget x.view.ctls 0 n else (tget x.pigeons {} n).ctl

/-- Messages of a channel that the view holds and that have not entered the inbox since a restore (R341, R342, R374). -/
def CellCtx.viewedPoste (x : CellCtx) (n : Nat) : Nat := (x.poste.filter fun e => e.2 && decide (e.1.ch = n)).length

/-- MLEN (R352): WAITING of an own channel; a member answers for a deterministic one from the view (R341). -/
def execMlen (d a : Reg) (s : State) : Out :=
  match s.blocked [a] (some d) with
  | some o => o
  | none =>
    let n := (s.sval [] a).toNat
    if 64 ≤ n then messageTrap s 1
    else
      let x := s.myCtx
      let waiting := if s.inGroup && ctlDet (x.ctlFor true n) then (tget x.view.lines [] n).length + x.viewedPoste n else (tget x.lines [] n).length
      .next (s.finish [a] d (BitVec.ofNat 64 waiting))

/-! ### Launch packets (R359) -/

/-- The fields of a launch packet. -/
def packetField (w : Vec) (off n : Nat) : Nat := vecBytes w off n

/-- Whether a RSV bit of a launch packet is set (R359). -/
def launchRsv (w : Vec) : Bool := decide (packetField w 2 1 / 8 ≠ 0) || decide (packetField w 0x2C 20 ≠ 0)

/-- The launch that a packet describes. -/
def launchOf (w : Vec) (now : Nat) (parent : Option Nat) (cls : Nat) (queued : Bool) : Launch :=
  { ctx := packetField w 0 2, cls := cls, persistent := decide (packetField w 2 1 / 4 % 2 = 1), first := packetField w 8 2
    ncell := packetField w 0xA 2, wdog := packetField w 0xC 4, energy := packetField w 0x18 8
    crec := BitVec.ofNat 64 (packetField w 0x20 8), user := BitVec.ofNat 32 (packetField w 0x28 4), parent := parent, accepted := now
    queued := queued }

/-- MLAUNCH (R362): a child launch. Poison under its packet traps with cause 29 (log 66, DEDUCED). -/
def execMlaunch (d b : Reg) (s : State) : Out :=
  match badQueue s.cur.core.role [b] (some d) with
  | some r => trap s 35 (r.setWidth 64)
  | none =>
    match s.firingHere with
    | none => messageTrap s 4
    | some f =>
      match s.blocked [b] (some d) with
      | some o => o
      | none =>
        let off := (s.sval [] b).toNat
        let keys := s.spadSpan off 64
        if off % 64 ≠ 0 then trap s 4 (BitVec.ofNat 64 off)
        else if spadSize < off + 64 then trap s 5 (BitVec.ofNat 64 off)
        else if !s.readable keys then wait s
        else if keys.any s.poisonHere then trap s 29 (BitVec.ofNat 64 off)
        else
          let w : Vec := BitVec.ofNat 512 (bytesToNat (s.loadBytes s.cur.core s.fresh keys))
          if packetField w 0 2 ≠ s.myCtxId ∨ launchRsv w then messageTrap s 5
          else if 256 ≤ s.deviceQueue.length then wait s
          else
            match s.freeLid with
            | none => wait s
            | some lid =>
              let l := launchOf w s.now (some f.lid) (min (packetField w 2 1 % 4) (s.classOf f.lid)) true
              let s1 := (s.noteRead s.cur.core s.fresh keys).bump
              let s2 := { s1 with launches := tset s1.launches lid l, deviceQueue := s1.deviceQueue ++ [(lid, w)] }
              .next ((s2.updLaunch f.lid fun l => { l with children := l.children + 1 }).finish [b] d (BitVec.ofNat 64 lid))

/-- A firing ends: its slots are freed, restored messages enter them, the reservation is released, the region closes, and the
core returns to selection (R355, R374, R378). -/
def CellCtx.endFiring (x : CellCtx) (r : Role) (f : Firing) (choice : Nat) : CellCtx :=
  let x1 := { x with taken := x.taken.filter fun n => !f.slots.contains n }
  let k := { (x1.core r).noChain with firing := none, running := false, cregh := (x1.core r).cregh &&& 0xFFFFFFFFFFFFFFFE#64 }
  (x1.setCore r k).enterRestored choice 256

/-- FEND (R355). -/
def execFend (s : State) : Out :=
  match s.firingHere with
  | none => messageTrap s 4
  | some f =>
    let p := s.cur.core
    let s1 := s.retire.updMyCtx fun x => x.endFiring p.role f (Config.slotChoice s.tick)
    let adds := s.remote p fun t => t.packet.fetchAdd && decide (t.packet.dchip = s.chip)
    let e : Ended := { core := p, ids := s.pastLocal p ++ s.me.collected ++ adds, held := s.me.member.active && !s.me.member.ops.isEmpty }
    let s2 := s1.updLaunch f.lid fun l =>
      { l with active := l.active - 1, after := l.after ++ [e] }
    .next (s2.rewatch f.lid (p.cell / 16))

/-! ### Channel control (R356) -/

/-- A CTL with MASK or PRIO replaced: operation 0 sets MASK, 1 clears it, 3 sets PRIO (R347, R356). -/
def ctlPut (op value : Nat) (v : Word) : Word :=
  match op with
  | 0 => v ||| 0x2000000000000000#64
  | 1 => v &&& 0xDFFFFFFFFFFFFFFF#64
  | _ => (v &&& 0xE3FFFFFFFFFFFFFF#64) ||| BitVec.ofNat 64 (value % 8 * 2 ^ 58)

/-- A channel control operation takes effect. -/
def CellCtx.channelOp (x : CellCtx) (op n value : Nat) : CellCtx :=
  { x with pigeons := tupd x.pigeons {} n fun p => { p with ctl := ctlPut op value p.ctl } }

/-- CHMASK, CHUNMASK and CHPRIO: collected when a member acts on a deterministic pigeonhole (R340, R356). -/
def channelSet (s : State) (srcs : List Reg) (op : Nat) (imm : BitVec 6) (value : Nat) : Out :=
  let n := imm.toNat
  if s.me.controlPending (0x2000 + 64 * n) then wait s
  else if s.inGroup && ctlDet (tget s.myCtx.pigeons {} n).ctl then .next ((s.collect (.channel op n value)).finishNone srcs)
  else .next ((s.updMyCtx fun x => x.channelOp op n value).finishNone srcs)

/-- CHMASK (R356). -/
def execChmask (imm : BitVec 6) (s : State) : Out := channelSet s [] 0 imm 0

/-- CHUNMASK (R356). -/
def execChunmask (imm : BitVec 6) (s : State) : Out := channelSet s [] 1 imm 0

/-- CHRD (R356). -/
def execChrd (d : Reg) (imm : BitVec 6) (s : State) : Out :=
  if s.me.controlPending (0x2000 + 64 * imm.toNat) then
    match badQueue s.cur.core.role [] (some d) with
    | some r => trap s 35 (r.setWidth 64)
    | none => wait s
  else alu0 s d (tget s.myCtx.pigeons {} imm.toNat).ctl

/-- CHPRIO (R356). -/
def execChprio (a : Reg) (imm : BitVec 6) (s : State) : Out :=
  match s.blocked [a] none with
  | some o => o
  | none =>
    let v := (s.sval [] a).toNat
    if 8 ≤ v then messageTrap s 6 else channelSet s [a] 3 imm v

/-! ### Selection (R349 to R351) -/

/-- Free entries of a core's send buffer (R349). -/
def Core.sendRoom (k : Core) : Nat :=
  8 - k.sendBuffer.length - (match k.firing with
    | some f => f.produce
    | none => 0)

/-- What a core may choose from in a channel's line: a member outside trap mode sees the view, and deterministic pigeonholes
only (R341). -/
def CellCtx.choiceLine (x : CellCtx) (member : Bool) (n : Nat) : List Nat :=
  let line := tget x.lines [] n
  if member then
    if ctlDet (x.ctlFor true n) then line.filter fun i => (tget x.view.lines [] n).contains i else []
  else line

/-- Messages that a core may choose by: a member counts those of the view that still wait for inbox slots (R341, R342, R374). -/
def CellCtx.choices (x : CellCtx) (member : Bool) (n : Nat) : Nat :=
  (x.choiceLine member n).length + (if member && ctlDet (x.ctlFor true n) then x.viewedPoste n else 0)

/-- Whether a pigeonhole may be chosen on a core, room apart (R349). -/
def CellCtx.choosable (x : CellCtx) (r : Role) (member : Bool) (n : Nat) : Bool :=
  let v := x.ctlFor member n
  ctlEn v && !ctlMask v && decide (ctlRole v = roleCode r) && decide (ctlConsume v ≤ x.choices member n)

/-- Channels in the order of a tie: the first after the last fired one, counting upward modulo 64 (R350). -/
def tieOrder (last : Nat) : List Nat := (List.range 64).map fun i => (last + 1 + i) % 64

/-- The channel of highest rank, the earlier of a list at a tie. -/
def pickRank (rank : Nat → Nat) (ns : List Nat) : Option Nat :=
  ns.foldl (fun acc n =>
    match acc with
    | none => some n
    | some m => if rank m < rank n then some n else some m) none

/-- The message in an inbox slot. -/
def CellCtx.message (x : CellCtx) (n : Nat) : Message := { body := tget x.inbox 0 n }

/-- The rank of a pigeonhole: class, then PRIO; class plays no part for a member (R341, R349). -/
def State.rankOf (s : State) (x : CellCtx) (member : Bool) (n : Nat) : Nat :=
  let prio := ctlPrio (x.ctlFor member n)
  if member then prio
  else
    match x.choiceLine false n with
    | i :: _ => 8 * s.classOf (x.message i).lid + prio
    | [] => prio

/-- The pigeonhole that a core fires next, if any may begin now (R349, R350). A member chooses by the view and then waits for
room in its send buffer, and for messages of a restore to enter the inbox (log 44, DEDUCED). -/
def State.selected (s : State) (p : CoreRef) : Option Nat :=
  let x := s.ctxOf p.cell
  let k := x.core p.role
  let member := k.member.active
  let room (n : Nat) : Bool :=
    decide (ctlProduce (x.ctlFor member n) ≤ k.sendRoom) && decide (ctlConsume (x.ctlFor member n) ≤ (x.choiceLine member n).length)
  let ns := (tieOrder k.lastFired).filter fun n => x.choosable p.role member n && (member || room n)
  match pickRank (s.rankOf x member) ns with
  | none => none
  | some n => if room n then some n else none

/-- A firing's begin on the registers of its core (R104, R120, R351): loads still on their way to x1 and x2 write nothing. -/
def Core.beginFiring (k : Core) (n consume lid : Nat) (slots : List Nat) (ctl : Word) : Core :=
  let dead (r : RegName) : Bool := decide (r = .x 1) || decide (r = .x 2)
  let k1 := { k with
    pending := k.pending.filter fun (p : Pend) => !(dead p.reg && decide (p.source = PendSource.load))
    loads := k.loads.map fun (l : OutLoad) => if (l.dst.map dead).getD false then { l with dst := none } else l
    firing := some { channel := n, slots := slots, popped := 0, produce := ctlProduce ctl, lid := lid }, running := true, lastFired := n }
  ((k1.setX 1 (BitVec.ofNat 64 n)).setX 2 (BitVec.ofNat 64 consume)).startChain (ctl.setWidth 48)

/-- FIRING_BEGIN on the idle core whose turn it is (R350, R351). -/
def execFiringBegin (s : State) : Out :=
  let p := s.cur.core
  match s.selected p with
  | none => .next s
  | some n =>
    let x := s.myCtx
    let ctl := x.ctlFor s.me.member.active n
    let consume := ctlConsume ctl
    let slots := (x.choiceLine s.me.member.active n).take consume
    let lids := slots.map fun i => (x.message i).lid
    let lid := lids.headD 0
    let fresh := (s.firingCores (p.cell / 16) lid).isEmpty
    let s1 := s.updMyCtx fun x =>
      { x with lines := tupd x.lines [] n (·.filter fun i => !slots.contains i), pigeons := tupd x.pigeons {} n fun g => { g with fired := g.fired + 1 } }
    let s2 := s1.updMe fun k => { k.beginFiring n consume lid slots ctl with member := { k.member with behind := false } }
    let s3 := lids.foldl (fun s l => s.updLaunch l fun h => { h with inflight := h.inflight - 1 }) s2
    let s4 := s3.updLaunch lid fun h => { h with active := h.active + 1, fired := h.fired + 1 }
    .next (if fresh then s4.rewatch lid (p.cell / 16) else s4)

/-! ### The launch parser (R357 to R359) -/

/-- Entries of a launch queue, 0 when LOG2SZ is no legal size (R357). -/
def HostQueue.size (q : HostQueue) : Nat :=
  let lg := (q.qcfg.extractLsb' 0 5).toNat
  if 4 ≤ lg ∧ lg ≤ 16 then 2 ^ lg else 0

/-- Entries written and not yet taken (R357). -/
def HostQueue.waiting (q : HostQueue) : Nat := (q.tail - q.head).toNat

/-- ERR: TAIL ran more than the queue's size ahead of HEAD (R357). -/
def HostQueue.check (q : HostQueue) : HostQueue :=
  if q.size ≠ 0 ∧ q.size < q.waiting then { q with qcfg := q.qcfg ||| 0x2000000000000000#64 } else q

/-- Whether the parser takes a packet from a queue (R357, R358). -/
def HostQueue.served (q : HostQueue) : Bool :=
  q.qcfg.getLsbD 63 && !q.qcfg.getLsbD 61 && decide (q.size ≠ 0) && decide (q.waiting ≠ 0)

/-- The key of the entry that a queue's HEAD names (R357). -/
def HostQueue.entryKey (q : HostQueue) : Nat :=
  physKey (if q.qcfg.getLsbD 62 then 0 else 2) (q.qbase.toNat + 64 * (q.head.toNat % q.size))

/-- A byte of host or device memory as the host reads it: under a poison marker (log 37, DESIGN CHOICE) and in memory that is switched
off (log 79, DESIGN CHOICE) a free value. -/
def State.hostByte (s : State) (a : Nat) : Byte :=
  if s.poisonedFor .host (sectorOf a) || s.keyOut a then Config.lostByte s.tick a else s.byteFor .host a

/-- The queue whose turn it is (R358). -/
def State.nextHostQueue (s : State) : Option Nat :=
  ((List.range 8).map fun i => (s.nextQueue + i) % 8).find? fun q => (tget s.hostQueues {} q).served

/-- The bytes of a completion record (R361). -/
def recordBytes (user : BitVec 32) (status reason ctx used fired elapsed lid : Nat) : List Byte :=
  natToBytes 4 user.toNat ++ natToBytes 1 status ++ natToBytes 1 reason ++ natToBytes 2 ctx ++ natToBytes 8 used ++ natToBytes 8 fired ++
    natToBytes 4 (min elapsed (2 ^ 32 - 1)) ++ natToBytes 2 lid ++ [0, 1]

/-- Writes a completion record through its context's translation, byte 0x1F last, or drops it and reports KIND 3 (R361, R384). -/
def State.writeRecord (s : State) (ctx lid : Nat) (crec : Word) (bytes : List Byte) : State :=
  let dropped := s.report 3 (BitVec.ofNat 64 lid) (BitVec.ofNat 64 ctx) crec
  if crec.toNat % 32 ≠ 0 then dropped
  else
    match s.deviceKeys 0 ctx .store (span crec.toNat 32) with
    | .error _ => dropped
    | .ok keys =>
      let cells := cellsAt keys bytes
      let s1 := s.addGlobal (cells.take 31)
      { s1 with trailing := s1.trailing ++ [Second.record (cells.drop 31) lid] }

/-- The record of a launch that ends (R361). -/
def State.recordLaunch (s : State) (lid : Nat) (l : Launch) (status reason : Nat) : State :=
  s.writeRecord l.ctx lid l.crec
    (recordBytes l.user status reason l.ctx l.used l.fired (if status = 1 then 0 else (s.now - l.accepted) / 1024) lid)

/-- A launch ends: its record is written, its LID is free once the record's last byte is (R361), and its parent counts one child less (R360, R362). -/
def State.endLaunch (s : State) (lid status reason : Nat) : State :=
  match tfind s.launches lid with
  | none => s
  | some l =>
    let s1 := s.recordLaunch lid l status reason
    let s2 := { s1 with launches := tdel s1.launches lid }
    match l.parent with
    | some p => s2.updLaunch p fun h => { h with children := h.children - 1 }
    | none => s2

/-- QUANT as a packet gives it. -/
def launchQuant (w : Vec) : Word := BitVec.ofNat 64 (packetField w 4 4)

/-- The placement of a packet. -/
def placementOf (w : Vec) : List Nat := span (packetField w 8 2) (packetField w 0xA 2)

/-- Whether a message image keeps its rules, and names a cell of the placement and an enabled channel (R359). -/
def State.imageOk (s : State) (ctx : Nat) (cells : List Nat) (m : Message) : Bool :=
  let h := m.body.toNat % 2 ^ 128
  decide (h / 2 ^ 86 = 0) && decide (h / 2 ^ 32 % 2 ^ 38 = 0) && cells.contains m.cell &&
    (match s.held ctx m.cell with
      | some x => ctlEn (tget x.pigeons {} m.ch).ctl
      | none => false)

/-- The message images of a packet, or none when they cannot be read (R359 reason 5); with NMSG = 0 nothing is read. -/
def State.readImages (s : State) (w : Vec) : Option (List Message) :=
  let base := packetField w 0x10 8
  let n := packetField w 3 1
  if n = 0 then some []
  else if 2 ^ 48 < base + 64 * n then none
  else
    match s.deviceKeys 0 (packetField w 0 2) .load (span base (64 * n)) with
    | .error _ => none
    | .ok keys =>
      if (s.poisonAmong .chip keys).isSome then none
      else some ((List.range n).map fun i => { body := BitVec.ofNat 512 (s.natFor .chip ((keys.drop (64 * i)).take 64)) })

/-- What reading the message images of a packet waits for in host-assisted mode (R389; log 12, DEDUCED). -/
def State.imageWait (s : State) (w : Vec) : Option State :=
  let base := packetField w 0x10 8
  let n := packetField w 3 1
  if 2 ^ 48 < base + 64 * n then none else s.assistWait 0 (packetField w 0 2) (span base (64 * n))

/-- The checks of a launch packet in their order, its images read (none: they cannot be): the images, or the REASON of its refusal
(R359). -/
def State.checkLaunch (s : State) (w : Vec) (images : Option (List Message)) : Except Nat (List Message) :=
  let ctx := packetField w 0 2
  let cells := placementOf w
  if launchRsv w ∨ packetField w 0x10 8 % 64 ≠ 0 ∨ packetField w 0x20 8 % 32 ≠ 0 ∨ packetField w 0xA 2 = 0 ∨
      1024 < packetField w 8 2 + packetField w 0xA 2 ∨ quantOk (launchQuant w) = false then .error 1
  else if cells.any fun c => (s.held ctx c).isNone then .error 2
  else if cells.any s.cellOut then .error 3
  else
    match images with
    | none => .error 5
    | some ms => if ms.all (s.imageOk ctx cells) then .ok ms else .error 4

/-- The parser's checks of a launch packet (R359). -/
def State.parseLaunch (s : State) (w : Vec) : Except Nat (List Message) := s.checkLaunch w (s.readImages w)

/-- QUANT of the launch goes to every core of the placement (R338, R359). -/
def CellCtx.loadQuant (x : CellCtx) (v : Word) : CellCtx :=
  { x with coreA := { x.coreA with quant := v }, coreX := { x.coreX with quant := v }, coreC := { x.coreC with quant := v } }

/-- An accepted packet: its launch stands, QUANT is written, and its messages are on their way, each in flight (R359, R360). -/
def State.acceptLaunch (s : State) (lid : Nat) (l : Launch) (w : Vec) (ms : List Message) : State :=
  let out := ms.map fun m =>
    messageOf (m.body.toNat / 2 ^ 128) l.ctx s.chip 0 0 1 m.cell m.ch lid (m.body.setWidth 32)
  let s1 := { s with launches := tset s.launches lid { l with inflight := ms.length, queued := false }, initial := s.initial ++ out }
  (placementOf w).foldl (fun s c => s.updHeld l.ctx c fun x => x.loadQuant (launchQuant w)) s1

/-- LAUNCH_PACKET: the parser takes one packet, of the device-side queue first, then of the enabled host queues in turn
(R358; log 65, DEDUCED); in host-assisted mode the host does its work, and CTXSET installs the launches (R389; log 45, DESIGN CHOICE). -/
def execLaunchPacket (s : State) : Out :=
  if s.service.assisted.contains 2 then .next s
  else
  match s.deviceQueue with
  | (lid, w) :: rest =>
    match s.imageWait w with
    | some t => .next t
    | none =>
    let s1 := { s.deviceForget 0 (packetField w 0 2) with deviceQueue := rest }
    match s.parseLaunch w with
    | .error r => .next (s1.endLaunch lid 1 r)
    | .ok ms =>
      match tfind s.launches lid with
      | none => .next s1
      | some l => .next (s1.acceptLaunch lid { l with accepted := s.now } w ms)
  | [] =>
    if s.service.stage < 6 then .next s
    else
      match s.nextHostQueue, s.freeLid with
      | some q, some lid =>
        let h := tget s.hostQueues {} q
        let w : Vec := BitVec.ofNat 512 (bytesToNat ((span h.entryKey 64).map s.hostByte))
        match s.imageWait w with
        | some t => .next t
        | none =>
        let s1 := { s.deviceForget 0 (packetField w 0 2) with hostQueues := tset s.hostQueues q { h with head := h.head + 1 }, nextQueue := (q + 1) % 8 }
        let l := launchOf w s.now none (packetField w 2 1 % 4) false
        match s.parseLaunch w with
        | .error r => .next (s1.recordLaunch 0 l 1 r)
        | .ok ms => .next (s1.acceptLaunch lid l w ms)
      | _, _ => .next s

/-! ### Completion (R360, R334) -/

/-- Whether every engine thread that a launch's firings forked in a cell has ended (R360). -/
def CellCtx.threadsDone (x : CellCtx) (lid : Nat) : Bool :=
  (x.matrix.queue.all fun c => decide (c.lid ≠ lid)) && x.streams.all fun t => !t.2.out || t.2.lids.all fun l => decide (l ≠ lid)

/-- Whether the releases of a launch have been settled (R360). -/
def State.releasesDone (s : State) (lid : Nat) : Bool :=
  s.nis.all fun n => n.2.rel.all fun r => decide (r.2.state ≠ .pending) || r.2.mixing.isSome || decide (r.2.lid ≠ lid)

/-- Whether the writes of engine threads of a context's cells are visible everywhere (R334). -/
def State.threadWritesDone (s : State) (cells : List Nat) : Bool :=
  s.writes.all fun w =>
    match w.owner with
    | .copy _ => !cells.contains w.cell
    | .stream _ _ => !cells.contains w.cell
    | .engine => !cells.contains w.cell
    | .core _ => true
    | .fabric _ _ _ _ _ => true

/-- Whether a launch is complete (R360), and what its record orders is visible at system scope (R334). -/
def State.launchDone (s : State) (lid : Nat) (l : Launch) : Bool :=
  let cells := s.cellsWith l.ctx
  !l.queued && !l.persistent && decide (l.inflight = 0) && decide (l.active = 0) && decide (l.children = 0) &&
    (s.copies.all fun c => decide (c.lid ≠ lid)) &&
    (cells.all fun c => match s.held l.ctx c with
      | some x => x.threadsDone lid
      | none => true) &&
    s.releasesDone lid && s.threadWritesDone cells && l.after.all fun e => !e.held && s.settled e.core e.ids 4

/-- LAUNCH_COMPLETION of launch `lid` (R360, R361); in host-assisted mode it waits for the walk of its record (R389). -/
def execLaunchCompletion (s : State) : Out :=
  match tfind s.launches s.args.lid with
  | none => .next s
  | some l =>
    if s.launchDone s.args.lid l then
      match s.assistWait 0 l.ctx (span l.crec.toNat 32) with
      | some t => .next t
      | none => .next ((s.endLaunch s.args.lid 0 0).deviceForget 0 l.ctx)
    else .next s

/-! ### Budgets and watchdogs (R363, R364) -/

/-- One interval's energy of a launch (R363): a launch with a budget is metered; at its budget the current class falls, or at class 0
cause 38 goes to the host once. -/
def State.meter (s : State) (lid energy : Nat) : State :=
  match tfind s.launches lid with
  | none => s
  | some l =>
    if l.energy = 0 then s
    else
      let l1 := { l with used := l.used + energy, metered := l.metered + energy }
      if l1.metered < l.energy then { s with launches := tset s.launches lid l1 }
      else if 0 < s.classOf lid then { s with launches := tset s.launches lid { l1 with cls := s.classOf lid - 1, metered := 0 } }
      else if l.exhausted then { s with launches := tset s.launches lid l1 }
      else
        let s1 := { s with launches := tset s.launches lid { l1 with exhausted := true } }
        s1.report 2 (BitVec.ofNat 64 lid) (BitVec.ofNat 64 l.ctx) (BitVec.ofNat 64 l1.used)

/-- ENERGY_INTERVAL: every 1024 cycles the estimators' energy of each launch, in µJ, is added (R363); the pairs (LID, energy)
are an input (log 16, DESIGN CHOICE). -/
def execEnergyInterval (s : State) : Out :=
  if s.now < s.energyTime + 1024 then .next s
  else .next (s.args.pairs.foldl (fun s e => s.meter e.1 e.2) { s with energyTime := s.energyTime + 1024 })

/-- WATCHDOG: the watchdog of launch `lid` on a cluster reaches WDOG × 1024 cycles: cause 37 on every core of the cluster with
a firing of the launch, and it restarts (R364). -/
def execWatchdog (s : State) : Out :=
  let lid := s.args.lid
  let k := s.args.cluster
  match tfind s.launches lid with
  | none => .next s
  | some l =>
    if l.wdog = 0 ∨ tget l.watch 0 k < l.wdog * 1024 then .next s
    else .next (((s.firingCores k lid).foldl (fun s e =>
      s.updHeld l.ctx e.1.cell fun x => x.setCore e.1.role { x.core e.1.role with watchdog := some lid }) s).rewatch lid k)

end Sys2Proof.Machine
end

