-- ==== Sys2Proof/Machine/Determinism.lean ====
section
/-! DEFINITION. Deterministic groups: pausing (R339), and the boundary (R340 to R342). -/

namespace Sys2Proof.Machine

/-- QUANTUM_END on the core whose turn it is: a member that has counted LEN instructions pauses (R339). -/
def execQuantumEnd (s : State) : Out :=
  if s.me.atEnd then .next (s.updMe fun k => { k with member := { k.member with paused := true } }) else .next s

/-! ### Members -/

/-- The cores of a context, resident and switched out, in logical-core order (R337). -/
def State.coresOfContext (s : State) (ctx : Nat) : List (CoreRef × Core) :=
  (s.cellsWith ctx).flatMap fun c =>
    match s.held ctx c with
    | none => []
    | some x => [(⟨c, .a⟩, x.coreA), (⟨c, .x⟩, x.coreX), (⟨c, .c⟩, x.coreC)]

/-- A deferred event of a member. -/
def State.postMember (s : State) (ctx : Nat) (p : CoreRef) (cause : Nat) (tval : Word) : State :=
  s.updHeldCore ctx p fun k => { k with events := k.events ++ [{ cause := cause, tval := tval }] }

/-! ### Arrival (R339) -/

/-- Whether a register waits for a boundary. -/
def Core.boundaryPending (k : Core) (r : Reg) : Bool :=
  k.pending.any fun p => decide (p.reg = .x r.toNat) && decide (p.source = .boundary)

/-- Whether an entry of a queue cannot be popped before a boundary: its push came after a collected access (R139, R340). -/
def CellCtx.entryHeld (x : CellCtx) (q : Nat) (e : QEntry) : Bool := e.after.any fun n => (x.core (queuePusher q)).collected.contains n

/-- Whether an instruction waits for a queue that one of its fields names: entries to pop, or room to push (R339). An entry that only a
boundary opens is waited for as one that has not come (log 96, DEDUCED). -/
def CellCtx.queueWait (x : CellCtx) (role : Role) (fields : List Reg) : Bool :=
  fields.any fun r =>
    if isQueue r then
      let es := tget x.queues [] (queueOf r)
      let n := es.length
      if queuePopper (queueOf r) = role then decide (n < countCode fields r) || (es.take (countCode fields r)).any (x.entryHeld (queueOf r))
      else if queuePusher (queueOf r) = role then decide (8 ≤ n)
      else false
    else false

/-- The scalar field codes of a word that its instruction uses; QPEEK waits for the queue it inspects as a pop does. -/
def scalarFields (r : Raw) : List Reg :=
  match rowOf r with
  | none => []
  | some w =>
    let peeks : Bool := match w.instr with
      | .qpeek _ _ => true
      | _ => false
    let pick (k : Kind) (c : Reg) : List Reg := if k = .scalar ∨ (k = .queue ∧ peeks) then [c] else []
    pick w.a r.a ++ (if w.frag && r.sk then [] else pick w.b r.b) ++ pick w.c r.c ++ pick w.d r.d

/-- The scalar fields of the instruction at a core's head; none while it is annulled or cannot be fetched. -/
def State.headFields (s : State) (p : CoreRef) : List Reg :=
  let k := s.coreOf p
  if k.n0 || !k.running then []
  else
    match s.fetch p k.c0 with
    | .word w => scalarFields (Raw.ofWord (cutWord w))
    | _ => []

/-- Whether a member whose next instruction uses these fields waits for what only a boundary resolves, or for a queue (R339, R340; log 96,
DEDUCED). -/
def CellCtx.waitsFor (x : CellCtx) (role : Role) (fields : List Reg) : Bool :=
  let k := x.core role
  (k.member.ops.any (·.waits) && k.member.granted.isNone) || (k.member.behind && !k.collected.isEmpty) || fields.any k.boundaryPending ||
    x.queueWait role fields

/-- Whether a member whose next instruction uses these fields has arrived (R339): it is paused, it waits, or it is in selection and
no deterministic pigeonhole is runnable in the view. -/
def CellCtx.arrivedBy (x : CellCtx) (role : Role) (fields : List Reg) : Bool :=
  let k := x.core role
  k.atEnd || x.waitsFor role fields || (!k.running && (List.range 64).all fun n => !x.choosable role true n)

/-- Whether a core of a context acts outside trap mode; else what it had reached when its last turn outside trap mode began counts
(R342). -/
def State.actsIn (s : State) (ctx : Nat) (p : CoreRef) (k : Core) : Bool := !k.trapMode && decide (s.residentIn p.cell = some ctx)

/-- The fields by which a core's wait is judged (R339, R342). -/
def State.waitFields (s : State) (ctx : Nat) (p : CoreRef) (k : Core) : List Reg :=
  if s.actsIn ctx p k then s.headFields p else k.member.fields

/-- Whether a core of a context has arrived for the boundary: a member whose LEN changes between zero and non-zero counts as
arrived (R338); in trap mode or switched out it has arrived if it had before, and its wait has not ended since (R339, R342). -/
def State.hasArrived (s : State) (ctx : Nat) (p : CoreRef) (k : Core) : Bool :=
  if !k.member.active || decide (k.quantLen = 0) then true
  else
    match s.held ctx p.cell with
    | none => true
    | some x => (s.actsIn ctx p k || k.member.arrived) && x.arrivedBy p.role (s.waitFields ctx p k)

/-- Notes whether a member has arrived and the fields it waits by, before its turn may take it into trap mode (R342). -/
def State.noteArrival (s : State) (p : CoreRef) : State :=
  let k := s.coreOf p
  if k.member.active && !k.trapMode then
    let fields := s.headFields p
    let a := (s.ctxOf p.cell).arrivedBy p.role fields
    s.updCore p fun k => { k with member := { k.member with arrived := a, fields := fields } }
  else s

/-! ### What a boundary waits for (R340) -/

/-- Whether an operation forked in a quantum has to be complete at boundary b (R340). -/
def lagged (k : Core) (quantum b : Nat) : Bool := k.member.active && decide (quantum + k.quantLag ≤ b + 1)

/-- Whether every operation that the cores of a cell forked long enough ago has completed: copies, matrix commands, streams,
releases and mixing exchanges (R325, R340, R341; log 33, DEDUCED). -/
def State.forksDone (s : State) (ctx cell b : Nat) (x : CellCtx) : Bool :=
  let late (e : Exchange) : Bool := match e.forked with
    | some q => lagged x.coreA q b
    | none => false
  (s.copies.all fun c => !(decide (c.ctx = ctx) && decide (c.cell = cell) && lagged x.coreA c.quantum b)) &&
    (x.matrix.queue.all fun c => !lagged x.coreC c.quantum b) &&
    (x.streams.all fun t => !((decide (t.2.mode = 1) || !t.2.written) && lagged x.coreA t.2.quantum b)) &&
    ((s.niOf ctx cell).rel.all fun r => !(decide (r.2.state = .pending) && r.2.mixing.isNone && lagged x.coreA r.2.quantum b)) &&
    s.blocks.all fun k => !(decide (k.2.ctx = ctx) && decide (k.2.cell = cell) && (k.2.out.map late).getD false)

/-- The accesses of a core of a context that a boundary waits for: those that it does not apply itself, remote loads of this chip among them
(R340; log 33, DEDUCED). -/
def State.boundaryPast (s : State) (ctx : Nat) (p : CoreRef) : List Nat :=
  let here := if s.residentIn p.cell = some ctx then s.pastLocal p else []
  here ++ if p.role = .a then (s.niOf ctx p.cell).loading fun t => decide (t.packet.dchip = s.chip) else []

/-- Whether a boundary of a context's group may be taken: every member has arrived, the lagged operations are complete, and
the members' accesses are visible at chip scope (R340; log 33, DEDUCED). -/
def State.boundaryReady (s : State) (ctx b : Nat) : Bool :=
  let cores := s.coresOfContext ctx
  (cores.any fun e => e.2.inMode || !e.2.member.ops.isEmpty) && (cores.all fun e => s.hasArrived ctx e.1 e.2) &&
    ((s.cellsWith ctx).all fun c => match s.held ctx c with
      | some x => s.forksDone ctx c b x
      | none => true) &&
    cores.all fun e => !e.2.member.active || s.settled e.1 (s.boundaryPast ctx e.1) 2

/-! ### Entering completions into the view (R341) -/

/-- Acts on a key of the own scratchpad of a member's cell, in the scratchpad or in its backing image; an image that cannot be reached
is a fatal fault (R373). -/
def State.atSpad (s : State) (ctx cell key : Nat) (kind : AccKind) (f : Nat → State) : State :=
  match s.spadReach ctx cell key kind with
  | .ok k => f k
  | .error (cause, va) => s.imageFatal ctx cell cause va

/-- An engine's post or barrier count whose quantum enters the view (R149, R152, R341). -/
def State.enterPost (s : State) (ctx cell : Nat) (h : HeldPost) : State :=
  let p : CoreRef := ⟨cell, h.role⟩
  let s1 := match h.sem with
    | none => s
    | some n =>
      match s.held ctx cell with
      | none => s
      | some x =>
        if 255 < x.sem n + 1 then s.postMember ctx p 34 (BitVec.ofNat 64 (0x100 + n))
        else s.updHeld ctx cell fun x => (x.setSem n (x.sem n + 1)).examine n s.examined
  match h.bar with
  | none => s1
  | some bar => s1.atSpad ctx cell bar .store fun key =>
      (s1.addWrite s1.fresh (cellsFrom key (natToBytes 16 (barDone (s1.barAt key)).toNat)) cell .engine 2).bump

/-- The posts and counts of a cell whose quantum enters the view at boundary b. -/
def State.enterPosts (s : State) (ctx b cell : Nat) : State :=
  match s.held ctx cell with
  | none => s
  | some x =>
    let due (h : HeldPost) : Bool := decide (h.quantum + (x.core h.role).quantLag ≤ b + 1)
    (x.heldPosts.filter due).foldl (fun s h => s.enterPost ctx cell h)
      (s.updHeld ctx cell fun x => { x with heldPosts := x.heldPosts.filter fun h => !due h })

/-! ### Collected operations (R340) -/

/-- A result of a collected operation reaches a register: at once, or when the handler of a pre-emption that saved it returns (R342, R373;
log 97, DEDUCED). -/
def Core.landX (k : Core) (n : Nat) (v : Word) : Core := if k.handling then { k with lateD := k.lateD ++ [(n, v)] } else k.setX n v

/-- A result of a collected operation arrives in its register, or in the queue that D names, if it still waits for it
(log 27, DEDUCED). -/
def State.landBoundary (s : State) (ctx : Nat) (p : CoreRef) (dst : Option RegName) (v : Word) : State :=
  match dst with
  | some (.x n) =>
    let q : Pend := { reg := .x n, source := .boundary }
    if (s.heldCore ctx p).pending.contains q then
      let s1 := s.updHeldCore ctx p fun k => { k with pending := k.pending.erase q }
      if n < 32 then s1.updHeldCore ctx p fun k => k.landX n v
      else s1.updHeld ctx p.cell fun x => { x with queues := tupd x.queues [] (n - 32) (· ++ [{ value := v, after := [] }]) }
    else s
  | _ => s

/-- The register that a failed collected operation names waits no longer. -/
def State.dropBoundary (s : State) (ctx : Nat) (p : CoreRef) (dst : Option RegName) : State :=
  match dst with
  | some r => s.updHeldCore ctx p fun k => { k with pending := k.pending.erase { reg := r, source := .boundary } }
  | none => s

/-- The boundary wait of a member is satisfied. -/
def State.grant (s : State) (ctx : Nat) (p : CoreRef) (op : Collected) : State :=
  s.updHeldCore ctx p fun k => { k with member := { k.member with granted := some op } }

/-- Writes become visible at a scope (R321 Widen). -/
def State.widenTo (s : State) (ids : List Nat) (sc : Nat) : State :=
  { s with writes := s.writes.map fun (w : Write) => if ids.contains w.id then { w with scope := max w.scope (min sc w.top) } else w : State }.settle

/-- What a collected release orders becomes visible at its scope: the accesses of its core before it, which have been performed
(R323, R340). -/
def State.releaseTo (s : State) (ctx : Nat) (p : CoreRef) (o : AmoOrder) : State :=
  match o.release with
  | none => s
  | some sc =>
    if s.residentIn p.cell = some ctx then
      let ids := (s.pastLocal p).filter fun n => decide (n < o.id)
      s.widenTo (ids ++ (s.coreOf p).readBy ids) sc
    else s

/-- Applies a collected atomic (R134, R323, R332, R336, R340): on a poisoned sector the marker is appended, and cause 29 becomes a deferred
event (log 28, DEDUCED), as cause 7 does where the memory has been switched off meanwhile (log 79, DESIGN CHOICE). -/
def State.applyAmo (s : State) (ctx : Nat) (p : CoreRef) (fn : Nat) (wide : Bool) (addr : Nat) (b c : Word) (dst : Option RegName)
    (ea : Word) (owned : Option Nat) (o : AmoOrder) : State :=
  let sc := max 2 (o.release.getD 0)
  if s.keyOut addr then (s.dropBoundary ctx p dst).postMember ctx p 7 ea
  else
    let s0 := s.releaseTo ctx p o
    if s0.poisonedLast (sectorOf addr) then
      ((((s0.addMarker o.id [sectorOf addr] p.cell (.core p) sc).markWritten owned).bump).dropBoundary ctx p dst).postMember ctx p 29 ea
    else
      let r := s0.amoApply o.id fn wide addr b c (.core p) p.cell sc
      let s1 := if (amoNat fn wide (s0.natLast addr (amoSize wide)) b c).isSome then r.1.markWritten owned else r.1
      s1.landBoundary ctx p dst r.2

/-- Updates the barrier object of a collected operation in one step, in the scratchpad or the image (R152, R373). -/
def State.boundaryBar (s : State) (ctx : Nat) (p : CoreRef) (addr : Nat) (f : BitVec 128 → Option (BitVec 128)) : State :=
  s.atSpad ctx p.cell addr .store fun key =>
    match f (s.barAt key) with
    | some b => (s.addWrite s.fresh (cellsFrom key (natToBytes 16 b.toNat)) p.cell (.core p) 2).bump
    | none => s.postMember ctx p 39 (BitVec.ofNat 64 (addr % 2 ^ 20))

/-- Applies one collected operation of a member in one step; true when it stays for the next boundary (R340). What fails now
becomes a deferred event (log 28, DEDUCED). -/
def State.applyOp (s : State) (ctx : Nat) (p : CoreRef) (op : Collected) : State × Bool :=
  match s.held ctx p.cell with
  | none => (s, false)
  | some x =>
    let w : Waiter := .core p.role
    match op with
    | .amo fn wide addr b c dst ea owned order => (s.applyAmo ctx p fn wide addr b c dst ea owned order, false)
    | .semPost n amount =>
      if 255 < x.sem n + amount then (s.postMember ctx p 34 (BitVec.ofNat 64 amount), false)
      else (s.updHeld ctx p.cell fun x => (x.setSem n (x.sem n + amount)).examine n s.examined, false)
    | .semWait n amount =>
      if amount = 0 then (s.grant ctx p op, false)
      else if x.mayTake n amount w then ((s.updHeld ctx p.cell fun x => x.takeSem n amount w).grant ctx p op, false)
      else (s, true)
    | .semTry n amount dst _ =>
      if (x.semLine n).isEmpty && decide (amount ≤ x.sem n) then
        ((s.updHeld ctx p.cell fun x => x.takeSem n amount .sequencer).landBoundary ctx p dst 1, false)
      else (s.landBoundary ctx p dst 0, false)
    | .semStore n count => (s.updHeld ctx p.cell fun x => (x.setSem n count.toNat).examine n s.examined, false)
    | .barSet addr n =>
      let v := BitVec.ofNat 24 n
      (s.boundaryBar ctx p addr fun b => if barOutbound b = 0 then some (barMake 0 v 0 0 v) else none, false)
    | .barArrive addr => (s.boundaryBar ctx p addr fun b => if barPending b = 0 then none else some (barArrive b), false)
    | .barExpect addr n => (s.boundaryBar ctx p addr fun b => some (barExpect b n), false)
    | .barWait addr gen =>
      match s.spadReach ctx p.cell addr .load with
      | .error (cause, va) => (s.imageFatal ctx p.cell cause va, true)
      | .ok key => if (barGen (s.barAt key)).toNat ≠ gen then (s.grant ctx p op, false) else (s, true)
    | .hand page heir => (s.setOwn page ((s.ownOf page).hand ctx heir (ctx, s.coreId p)), false)
    | .take page dst _ =>
      match (s.ownOf page).take (ctx, s.coreId p) with
      | none => (s, true)
      | some (r, v) => ((s.setOwn page r).landBoundary ctx p dst v, false)
    | .drop page => (s.setOwn page (s.ownOf page).drop, false)
    | .channel op n value => (s.updHeld ctx p.cell fun x => x.channelOp op n value, false)

/-- Applies a function to what the launches of a context wait for of their ended firings (R334). -/
def State.updEnded (s : State) (ctx : Nat) (f : Ended → Ended) : State :=
  { s with launches := s.launches.map fun e => if e.2.ctx = ctx then (e.1, { e.2 with after := e.2.after.map f }) else e }

/-- The writes that a collected operation has made join what the launch of the firing that collected it waits for (R334, R340). -/
def State.noteEnded (s : State) (ctx : Nat) (p : CoreRef) (start : Nat) : State :=
  let made := span start (s.fresh - start)
  s.updEnded ctx fun e => if e.core = p && e.held then { e with ids := e.ids ++ made } else e

/-- Applies the collected operations of a member in program order and resolves its boundary wait; what is not satisfied stays
(R340). -/
def State.applyOps (s : State) (ctx : Nat) (p : CoreRef) : State :=
  let ops := (s.heldCore ctx p).member.ops
  let r := ops.foldl (fun (acc : State × List Collected) op =>
    let o := acc.1.applyOp ctx p op
    (o.1.noteEnded ctx p acc.1.fresh, if o.2 then acc.2 ++ [op] else acc.2)) (s, [])
  r.1.updHeldCore ctx p fun k => { k with member := { k.member with ops := r.2 } }

/-- The sequencer gate that the head command of a member's cell waits at, on its own semaphores (R213, R340). -/
def State.boundaryGate (s : State) (ctx cell : Nat) : State :=
  match s.held ctx cell with
  | none => s
  | some x =>
    match x.matrix.queue with
    | [] => s
    | c :: _ =>
      let n := cmdGsem c.word
      let amount := cmdGcnt c.word
      let waits := cmdGen c.word && !x.matrix.stopped && !x.matrix.passed
      if x.coreC.member.active && waits && x.mayTake n amount .sequencer then
        s.updHeld ctx cell fun x => { x.takeSem n amount .sequencer with matrix := { x.matrix with passed := true, gated := false } }
      else s

/-! ### Held adds and messages (R340) -/

/-- Whether a held add comes before another: ascending (SCHIP, SCELL, ATAG). -/
def addBefore (p q : Packet) : Bool :=
  decide (p.schip.toNat * 2 ^ 26 + p.scell.toNat * 2 ^ 16 + p.atag.toNat ≤ q.schip.toNat * 2 ^ 26 + q.scell.toNat * 2 ^ 16 + q.atag.toNat)

/-- Inserts a held add in order. -/
def insertAdd (p : Packet × Nat) (l : List (Packet × Nat)) : List (Packet × Nat) :=
  match l with
  | [] => [p]
  | q :: rest => if addBefore p.1 q.1 then p :: q :: rest else q :: insertAdd p rest

/-- Applies the remote adds held for a context (R340); one whose memory has been switched off meanwhile is refused (R99). -/
def State.applyAdds (s : State) (ctx : Nat) : State :=
  let mine (p : Packet × Nat) : Bool := decide (p.1.ctxid.toNat = ctx)
  let adds := (s.heldAdds.filter mine).foldl (fun l p => insertAdd p l) []
  adds.foldl (fun s p => if s.keyOut p.2 then s.sendNack p.1 5 else s.remoteAdd p.1 p.2 2) { s with heldAdds := s.heldAdds.filter fun p => !mine p }

/-- Whether a message goes to a deterministic pigeonhole of its context's group (R340). -/
def State.toGroup (s : State) (m : Message) : Bool :=
  match s.held m.ctx m.cell with
  | some x => x.detChannel m.ch
  | none => false

/-- The messages that a member has sent in the quantum and that still stand in its send buffer go to the cells that hold them for this
boundary (R340). -/
def State.collectSends (s : State) (ctx : Nat) (p : CoreRef) : State :=
  let k := s.heldCore ctx p
  if k.member.active then
    let ms := k.sendBuffer.filter fun e => s.toGroup e.msg
    let s1 := s.updHeldCore ctx p fun k => { k with sendBuffer := k.sendBuffer.filter fun e => !s.toGroup e.msg }
    ms.foldl (fun s e => s.updHeld e.msg.ctx e.msg.cell fun x => { x with heldMessages := x.heldMessages ++ [(some (lcn p, e.num), e.msg)] }) s1
  else s

/-- Inserts a member's message in the order of (sender LCN, send order). -/
def insertMessage (e : (Nat × Nat) × Message) (l : List ((Nat × Nat) × Message)) : List ((Nat × Nat) × Message) :=
  match l with
  | [] => [e]
  | h :: rest => if e.1.1 < h.1.1 ∨ (e.1.1 = h.1.1 ∧ e.1.2 < h.1.2) then e :: h :: rest else h :: insertMessage e rest

/-- The messages held in a cell, in the order of delivery: members' first, then others' in arrival order (R340). -/
def heldOrder (ms : List (Option (Nat × Nat) × Message)) : List (Option (Nat × Nat) × Message) :=
  let members := (ms.filterMap fun e => e.1.map fun n => (n, e.2)).foldl (fun l e => insertMessage e l) []
  members.map (fun e => (some e.1, e.2)) ++ ms.filter fun e => e.1.isNone

/-- Delivers the messages held for a cell; one that finds no room stays for the next boundary (log 47, DEDUCED). -/
def State.deliverHeld (s : State) (ctx cell : Nat) : State :=
  match s.held ctx cell with
  | none => s
  | some x =>
    let s0 := s.updHeld ctx cell fun x => { x with heldMessages := [] }
    (heldOrder x.heldMessages).foldl (fun s e =>
      match s.placeMessage e.2 with
      | some s1 => s1
      | none => s.updHeld ctx cell fun x => { x with heldMessages := x.heldMessages ++ [e] }) s0

/-! ### The view (R341) -/

/-- Memory with every write that has been made, visible everywhere or not. -/
def State.flatMem (s : State) : Memory := s.writes.foldl (fun m w => memPuts m w.data) s.mem

/-- Moves the bytes of a range of keys to another place. -/
def rebase (m : Memory) (source target n : Nat) : Memory :=
  (m.filter fun c => decide (source ≤ c.1) && decide (c.1 < source + n)).map fun c => (c.1 - source + target, c.2)

/-- The first n bytes of a cell's SRAM of a context, resident or in its image, at the cell's keys; image pages that cannot be
reached read as zero. -/
def State.sramOf (s : State) (flat : Memory) (ctx cell n : Nat) : Memory :=
  if s.residentIn cell = some ctx then rebase flat (cellKey cell 0) (cellKey cell 0) n
  else
    (List.range (n / 4096)).flatMap fun i =>
      match s.imageKey ctx cell (4096 * i) with
      | some k => rebase flat k (cellKey cell (4096 * i)) 4096
      | none => []

/-- The view of a cell (R341). -/
def CellCtx.viewOf (x : CellCtx) (spad : Memory) : CellView :=
  { sems := x.sems, queues := x.queues.map fun e => (e.1, e.2.length), lines := x.lines
    ctls := x.pigeons.map fun e => (e.1, e.2.ctl), spad := spad }

/-- Takes the view of a context's cells, messages that wait for a restore or for inbox slots among them, and of its ownership records
(R341, R342). -/
def State.takeView (s : State) (ctx : Nat) : State :=
  let flat := s.flatMem
  let s1 := (s.cellsWith ctx).foldl (fun s c => s.updHeld ctx c fun x =>
    { x with view := x.viewOf (s.sramOf flat ctx c spadSize), poste := x.poste.map fun e => (e.1, true) }) s
  s1.updContext ctx fun c => { c with ownView := s.own }

/-- Whether a member still waits after a boundary (R340); one that had paused waits for nothing else. -/
def State.stillWaiting (s : State) (ctx : Nat) (p : CoreRef) (k : Core) : Bool :=
  match s.held ctx p.cell with
  | none => false
  | some x => !k.atEnd && (s.actsIn ctx p k || k.member.arrived) && x.waitsFor p.role (s.waitFields ctx p k)

/-- A core starts the next quantum: membership follows LEN, and a member that does not wait counts from 0
(R338, R340; log 74, DEDUCED). -/
def Core.nextQuantum (k : Core) (waits : Bool) : Core :=
  let on := decide (k.quantLen ≠ 0)
  { k with member :=
    { k.member with
      active := on, arrived := on && waits && k.member.arrived
      count := if on && waits then k.member.count else 0
      paused := if on && waits then k.member.paused else false
      ops := if on then k.member.ops else k.member.ops.filter fun o => !o.waits } }

/-- The boundary of a context's group (R340). -/
def State.boundary (s : State) (ctx b : Nat) : State :=
  let cells := s.cellsWith ctx
  let cores := (s.coresOfContext ctx).map Prod.fst
  let s0 := cores.foldl (fun s p => s.collectSends ctx p) s
  let s1 := cells.foldl (fun s c => s.enterPosts ctx b c) s0
  let s2 := (cores.foldl (fun s p => s.applyOps ctx p) s1).updEnded ctx fun e => { e with held := false }
  let s3 := cells.foldl (fun s c => s.boundaryGate ctx c) s2
  let s4 := cells.foldl (fun s c => s.deliverHeld ctx c) (s3.applyAdds ctx)
  let s5 := (s4.takeView ctx).updContext ctx fun c => { c with quantum := b + 1 }
  cores.foldl (fun s p => s.updHeldCore ctx p fun k => k.nextQuantum (s5.stillWaiting ctx p (s5.heldCore ctx p))) s5

/-- BOUNDARY of the group of context `ctx` (R340). -/
def execBoundary (s : State) : Out :=
  match s.context s.args.ctx with
  | none => .next s
  | some c => if c.dying.isNone && s.boundaryReady s.args.ctx c.quantum then .next (s.boundary s.args.ctx c.quantum) else .next s

end Sys2Proof.Machine
end

