-- ==== Sys2Proof/Machine/Sorter.lean ====
section
/-! DEFINITION. Sorter kernels: the 37 sorter instructions (R280 to R289), running a kernel (R279, R290, R291), the verifier
(R278), the control operations (R277), and what becomes of a packet at the sorting office (R275). -/

namespace Sys2Proof.Machine

/-! ### The running kernel of the sorter whose turn it is -/

/-- A sorter. -/
def State.sorterOf (s : State) (n : Nat) : Sorter := tget s.sorters {} n

/-- Replaces a sorter. -/
def State.setSorter (s : State) (n : Nat) (x : Sorter) : State := { s with sorters := tset s.sorters n x }

/-- The sorter whose turn it is. -/
def State.mySorter (s : State) : Sorter := s.sorterOf s.cur.sorter

/-- Replaces the sorter whose turn it is. -/
def State.setMySorter (s : State) (x : Sorter) : State := s.setSorter s.cur.sorter x

/-- A scalar register: k0 reads as zero (R273). -/
def Run.kr (r : Run) (n : BitVec 4) : Word := if n = 0#4 then 0 else tget r.k 0 n.toNat

/-- Writes a scalar register: a write to k0 is discarded (R273). -/
def Run.setK (r : Run) (n : BitVec 4) (v : Word) : Run := if n = 0#4 then r else { r with k := tset r.k n.toNat v }

/-- A vector register (R273). -/
def Run.wr (r : Run) (n : BitVec 4) : BitVec 256 := tget r.w 0 n.toNat

/-- Writes a vector register. -/
def Run.setW (r : Run) (n : BitVec 4) (v : BitVec 256) : Run := { r with w := tset r.w n.toNat v }

/-- The next instruction. -/
def Run.next (r : Run) : Run := { r with pc := r.pc + 1 }

/-- Applies an instruction to the running kernel; with none running, nothing happens. -/
def withRun (s : State) (f : Run → State) : Out :=
  match s.mySorter.run with
  | none => .next s
  | some r => .next (f r)

/-- The kernel goes on with this state of its run. -/
def State.keepRun (s : State) (r : Run) : State := s.setMySorter { s.mySorter with run := some r }

/-- The kernel has ended. -/
def State.endRun (s : State) : State := s.setMySorter { s.mySorter with run := none }

/-- An instruction that only changes registers. -/
def regStep (s : State) (f : Run → Run) : Out := withRun s fun r => s.keepRun (f r).next

/-! ### Leaving a sorter (R275, R285, R289) -/

/-- A packet leaves the sorter and is not offered again on this chip (R275). -/
def State.leaveSorter (s : State) (p : Packet) : State :=
  if p.dchip = s.chip ∧ p.kind ≠ 7 ∧ p.kind ≠ 8 then { s with net := s.net ++ [{ packet := p, outbound := false, offered := true }] }
  else { s with sent := s.sent ++ [p] }

/-- The PCRC of a copy whose payload the kernel has written is computed again (R285). -/
def Run.sealed (r : Run) (p : Packet) : Packet :=
  if r.wrotePayload ∧ (p.kind = 0 ∨ p.kind = 7) then { p with pcrc := crc32c p.payload } else p

/-- The replicas leave in emission order (R289, R293). -/
def State.leaveAll (s : State) (r : Run) : State := (r.emitted.map r.sealed).foldl State.leaveSorter s

/-- The DETAIL of a kernel trap report (R290). -/
def trapDetail (sorter flow pc reason code : Nat) (cls : Nat) (key : Nat) (seq : BitVec 16) : List Byte :=
  natToBytes 1 sorter ++ natToBytes 1 flow ++ natToBytes 1 pc ++ natToBytes 1 reason ++ natToBytes 1 code ++ natToBytes 1 cls ++
    natToBytes 2 0 ++ natToBytes 4 key ++ natToBytes 4 seq.toNat

/-- KERNEL_TRAP: the packet and its replicas are gone, the current flow is suspended, and a report goes to the fault
channel (R289, R290). -/
def State.kernelTrap (s : State) (r : Run) (reason code : Nat) : State :=
  let x := s.mySorter
  let s1 := s.setMySorter { x with run := none, suspended := insertNat x.suspended r.flow }
  s1.writeFault r.attachment.ctx
    (faultRecord 1 s.chip 36 0 (trapDetail s.cur.sorter r.flow r.pc reason code r.attachment.cls.toNat r.key r.packet.seq))

/-! ### Scalar operations (R282) -/

/-- A scalar operation of two sources. -/
def sorterAlu (s : State) (kd ka kb : BitVec 4) (f : Word → Word → Word) : Out :=
  regStep s fun r => r.setK kd (f (r.kr ka) (r.kr kb))

/-- ADD of a sorter (R282). -/
def execSorterAdd (kd ka kb : BitVec 4) (s : State) : Out := sorterAlu s kd ka kb (· + ·)

/-- SUB of a sorter (R282). -/
def execSorterSub (kd ka kb : BitVec 4) (s : State) : Out := sorterAlu s kd ka kb (· - ·)

/-- AND of a sorter (R282). -/
def execSorterAnd (kd ka kb : BitVec 4) (s : State) : Out := sorterAlu s kd ka kb (· &&& ·)

/-- OR of a sorter (R282). -/
def execSorterOr (kd ka kb : BitVec 4) (s : State) : Out := sorterAlu s kd ka kb (· ||| ·)

/-- XOR of a sorter (R282). -/
def execSorterXor (kd ka kb : BitVec 4) (s : State) : Out := sorterAlu s kd ka kb (· ^^^ ·)

/-- SHL of a sorter: 0 from a shift of 64 on (R282). -/
def execSorterShl (kd ka kb : BitVec 4) (s : State) : Out := sorterAlu s kd ka kb fun a b => if b.toNat < 64 then a <<< b.toNat else 0

/-- SHR of a sorter: 0 from a shift of 64 on (R282). -/
def execSorterShr (kd ka kb : BitVec 4) (s : State) : Out := sorterAlu s kd ka kb fun a b => if b.toNat < 64 then a >>> b.toNat else 0

/-- SETLTU (R282). -/
def execSetltu (kd ka kb : BitVec 4) (s : State) : Out := sorterAlu s kd ka kb fun a b => if a.toNat < b.toNat then 1 else 0

/-- SETEQ (R282). -/
def execSeteq (kd ka kb : BitVec 4) (s : State) : Out := sorterAlu s kd ka kb fun a b => if a = b then 1 else 0

/-- ADDK (R282). -/
def execAddk (kd ka : BitVec 4) (imm : BitVec 18) (s : State) : Out := regStep s fun r => r.setK kd (r.kr ka + imm.signExtend 64)

/-- ANDK (R282). -/
def execAndk (kd ka : BitVec 4) (imm : BitVec 18) (s : State) : Out := regStep s fun r => r.setK kd (r.kr ka &&& imm.setWidth 64)

/-- SHLK (R282). -/
def execShlk (kd ka : BitVec 4) (n : BitVec 6) (s : State) : Out := regStep s fun r => r.setK kd (r.kr ka <<< n.toNat)

/-- SHRK (R282). -/
def execShrk (kd ka : BitVec 4) (n : BitVec 6) (s : State) : Out := regStep s fun r => r.setK kd (r.kr ka >>> n.toNat)

/-- MOVK (R282). -/
def execMovk (kd : BitVec 4) (imm : BitVec 18) (s : State) : Out := regStep s fun r => r.setK kd (imm.signExtend 64)

/-! ### Branches (R283) -/

/-- A sorter branch (R283). -/
def sorterBranch (s : State) (ka kb : BitVec 4) (off : BitVec 8) (taken : Word → Word → Bool) : Out :=
  withRun s fun r => s.keepRun (if taken (r.kr ka) (r.kr kb) then { r with pc := r.pc + off.toNat } else r.next)

/-- BEQ of a sorter (R283). -/
def execSorterBeq (ka kb : BitVec 4) (off : BitVec 8) (s : State) : Out := sorterBranch s ka kb off fun a b => decide (a = b)

/-- BNE of a sorter (R283). -/
def execSorterBne (ka kb : BitVec 4) (off : BitVec 8) (s : State) : Out := sorterBranch s ka kb off fun a b => decide (a ≠ b)

/-- BLTU of a sorter (R283). -/
def execSorterBltu (ka kb : BitVec 4) (off : BitVec 8) (s : State) : Out :=
  sorterBranch s ka kb off fun a b => decide (a.toNat < b.toNat)

/-- JMP (R283). -/
def execJmp (off : BitVec 8) (s : State) : Out := sorterBranch s 0 0 off fun _ _ => true

/-! ### Header fields (R284) -/

/-- Whether packets of a TYPE carry the field of a code (R250 to R254, R284). -/
def carries (type f : Nat) : Bool :=
  match f with
  | 9 => decide (type ≠ 3)
  | 10 => decide (type = 5)
  | 11 => decide (type = 5) || decide (type = 3)
  | 12 => decide (type = 3) || decide (type = 4) || decide (type = 5) || decide (type = 6) || decide (type = 8)
  | 13 => decide (type = 4) || decide (type = 8)
  | _ => decide (f ≤ 8)

/-- Whether a kernel may write the field of a code (R284). -/
def fieldWritable (f : Nat) : Bool := [0, 6, 10, 11, 13].contains f

/-- The value of a header field (R284). -/
def Packet.field (p : Packet) (f : Nat) : Word :=
  match f with
  | 0 => p.dchip.setWidth 64
  | 1 => p.schip.setWidth 64
  | 2 => p.scell.setWidth 64
  | 3 => p.ctxid.setWidth 64
  | 4 => p.type.setWidth 64
  | 5 => p.round.setWidth 64
  | 6 => p.addr
  | 7 => p.ctr.setWidth 64
  | 8 => p.seq.setWidth 64
  | 9 => p.bytes.setWidth 64
  | 10 => p.status.setWidth 64
  | 11 => p.reason.setWidth 64
  | 12 => p.rslot.setWidth 64
  | 13 => p.fval
  | _ => 0

/-- HGET (R284). -/
def execHget (kd : BitVec 4) (f : BitVec 5) (s : State) : Out :=
  regStep s fun r => r.setK kd (if carries r.packet.kind f.toNat then Packet.field r.packet f.toNat else 0)

/-- Whether HSET refuses a value with reason 7 (R284). -/
def badField (f : Nat) (v : Word) : Bool :=
  match f with
  | 0 => decide (v.toNat / 2 ^ 12 ≠ 0)
  | 6 => decide (1 < faKind v)
  | 10 => decide (v.toNat % 4 = 3)
  | _ => false

/-- A packet with a writable field replaced (R284). -/
def putField (p : Packet) (f : Nat) (v : Word) : Packet :=
  match f with
  | 0 => { p with dchip := v.setWidth 12 }
  | 6 => { p with addr := v }
  | 10 => { p with status := v.setWidth 2 }
  | 11 => { p with reason := v.setWidth 8 }
  | 13 => { p with fval := v }
  | _ => p

/-- HSET (R284). The verifier keeps it to writable fields that the TYPE carries (R278). -/
def execHset (ka : BitVec 4) (f : BitVec 5) (s : State) : Out :=
  withRun s fun r =>
    let n := f.toNat
    if fieldWritable n && carries r.packet.kind n then
      if badField n (r.kr ka) then s.kernelTrap r 7 0 else s.keepRun { r with packet := putField r.packet n (r.kr ka) }.next
    else s.keepRun r.next

/-! ### Payload and lanes (R285) -/

/-- PLDW (R285). -/
def execPldw (wd : BitVec 4) (f : BitVec 3) (s : State) : Out :=
  withRun s fun r =>
    if r.length ≤ 32 * f.toNat then s.kernelTrap r 3 0
    else
      let bytes := ((r.packet.payload.take r.length).drop (32 * f.toNat)).take 32
      s.keepRun (r.setW wd (BitVec.ofNat 256 (bytesToNat bytes))).next

/-- PSTW: bytes at or beyond the payload length are not written (R285). -/
def execPstw (wa : BitVec 4) (f : BitVec 3) (s : State) : Out :=
  withRun s fun r =>
    let at' := 32 * f.toNat
    if r.length ≤ at' then s.kernelTrap r 3 0
    else
      let new := natToBytes 32 (r.wr wa).toNat
      let old := r.packet.payload
      let bytes := ((old.take at' ++ new.take (r.length - at')) ++ old.drop (at' + 32)).take old.length
      s.keepRun { r with packet := { r.packet with payload := bytes }, wrotePayload := true }.next

/-- WGET (R285). -/
def execWget (kd wa : BitVec 4) (l : BitVec 2) (s : State) : Out :=
  regStep s fun r => r.setK kd ((r.wr wa).extractLsb' (64 * l.toNat) 64)

/-- WSET (R285). -/
def execWset (wd ka : BitVec 4) (l : BitVec 2) (s : State) : Out :=
  regStep s fun r =>
    let mask : BitVec 256 := BitVec.ofNat 256 (2 ^ 64 - 1) <<< (64 * l.toNat)
    r.setW wd ((r.wr wd &&& ~~~mask) ||| ((r.kr ka).setWidth 256 <<< (64 * l.toNat)))

/-! ### Flow state (R286) -/

/-- FSEL (R286). -/
def execFsel (ka : BitVec 4) (s : State) : Out :=
  regStep s fun r =>
    let i := (r.kr ka).toNat % r.attachment.fc
    { r.setK 1 (BitVec.ofNat 64 i) with flow := r.attachment.fb + i }

/-- A flow instruction: an uncorrectable error traps the kernel (R286). -/
def flowStep (s : State) (f : Run → Vec → State) : Out :=
  withRun s fun r =>
    let x := s.mySorter
    if x.badFlows.contains r.flow then s.kernelTrap r 6 0 else f r (tget x.flows 0 r.flow)

/-- Replaces the bytes of the current flow. -/
def State.setFlow (s : State) (flow : Nat) (v : Vec) : State := s.setMySorter { s.mySorter with flows := tset s.mySorter.flows flow v }

/-- SLD: off is 8 × the field (R286). -/
def execSld (kd : BitVec 4) (off : BitVec 3) (s : State) : Out :=
  flowStep s fun r v => s.keepRun (r.setK kd (BitVec.ofNat 64 (vecBytes v (8 * off.toNat) 8))).next

/-- SST (R286). -/
def execSst (ka : BitVec 4) (off : BitVec 3) (s : State) : Out :=
  flowStep s fun r v => (s.setFlow r.flow (vecPut v (8 * off.toNat) 8 (r.kr ka).toNat)).keepRun r.next

/-- SLDW: off is 32 × the field (R286). -/
def execSldw (wd : BitVec 4) (off : BitVec 1) (s : State) : Out :=
  flowStep s fun r v => s.keepRun (r.setW wd (BitVec.ofNat 256 (vecBytes v (32 * off.toNat) 32))).next

/-- SSTW (R286). -/
def execSstw (wa : BitVec 4) (off : BitVec 1) (s : State) : Out :=
  flowStep s fun r v => (s.setFlow r.flow (vecPut v (32 * off.toNat) 32 (r.wr wa).toNat)).keepRun r.next

/-! ### Groups (R287, R288) -/

/-- Reads an entry of the group table for the running kernel, which waits while its translation does and meets the answer of one that failed
(R93, R287, R288, R389). -/
def withGroup (s : State) (r : Run) (g : Nat) (f : List (BitVec 12) → State) : State :=
  let ctx := r.packet.ctxid.toNat
  match s.groupWait ctx g with
  | some t => t
  | none =>
    match s.groupOf ctx g with
    | .bad reason => (s.deviceForget 0 ctx).kernelTrap r reason 0
    | .members ms => f ms

/-- GLD (R288). -/
def execGld (kd ka : BitVec 4) (s : State) : Out :=
  withRun s fun r =>
    let g := (r.kr ka).toNat
    if 1024 ≤ g then s.keepRun (r.setK kd 0).next
    else
      withGroup s r g fun ms => s.keepRun (r.setK kd (BitVec.ofNat 64 ms.length)).next

/-- GMEM (R288). -/
def execGmem (kd ka kb : BitVec 4) (s : State) : Out :=
  withRun s fun r =>
    let g := (r.kr ka).toNat
    if 1024 ≤ g then s.kernelTrap r 4 0
    else
      withGroup s r g fun ms =>
        match ms[(r.kr kb).toNat]? with
        | none => s.kernelTrap r 4 0
        | some m => s.keepRun (r.setK kd (m.setWidth 64)).next

/-- A replica of the packet as it stands, to a chip (R288). -/
def replica (p : Packet) (chip : BitVec 12) : Packet :=
  let q := if p.kind = 7 then p.asType 0 else if p.kind = 8 then p.asType 4 else p
  { q with dchip := chip, addr := faWithChip p.addr chip }

/-- Emits replicas to chips: at most 64 in all (R288). -/
def State.emitTo (s : State) (r : Run) (chips : List (BitVec 12)) : State :=
  if 64 < r.emitted.length + chips.length then s.kernelTrap r 7 0
  else s.keepRun { r with emitted := r.emitted ++ chips.map (replica r.packet) }.next

/-- EMIT (R288). -/
def execEmit (ka : BitVec 4) (s : State) : Out :=
  withRun s fun r =>
    let v := r.kr ka
    if v.toNat / 2 ^ 12 ≠ 0 then s.kernelTrap r 7 0 else s.emitTo r [v.setWidth 12]

/-- EMITG (R288). -/
def execEmitg (ka : BitVec 4) (s : State) : Out :=
  withRun s fun r =>
    let g := (r.kr ka).toNat
    if 1024 ≤ g then s.kernelTrap r 4 0
    else
      withGroup s r g fun ms => s.emitTo r ms

/-! ### Ending instructions (R289) -/

/-- FWD: the packet goes on, as it stands, after the replicas (R289). -/
def execFwd (s : State) : Out := withRun s fun r => ((s.endRun).leaveAll r).leaveSorter (r.sealed r.packet)

/-- DROP (R289). -/
def execDrop (s : State) : Out := withRun s fun r => (s.endRun).leaveAll r

/-- NACK of a sorter (R254, R289). -/
def execNack (n : BitVec 8) (s : State) : Out :=
  withRun s fun r => ((s.endRun).leaveAll r).leaveSorter (r.packet.nack s.chip n.toNat)

/-- TRAP of a sorter (R289). -/
def execSorterTrap (n : BitVec 8) (s : State) : Out := withRun s fun r => s.kernelTrap r 1 n.toNat

/-! ### The verifier (R278) -/

/-- OP of a sorter word. -/
def sorterOpcode (w : BitVec 32) : Nat := (w.extractLsb' 26 6).toNat

/-- Whether a word is a flow access; off is its IMM[5:0], an immediate (R286). -/
def isFlowAccess (w : BitVec 32) : Bool := decide (0x19 ≤ sorterOpcode w) && decide (sorterOpcode w ≤ 0x1C)

/-- Condition 1 of a word: its OP, register codes and RSV bits. A field code and an off are immediates (condition 7). -/
def wordFields (w : BitVec 32) : Bool :=
  let op := sorterOpcode w
  (decodeSorter (if op = 0x12 ∨ op = 0x13 then w &&& 0xFFFFFFE0#32 else if isFlowAccess w then w &&& 0xFFFFFFC0#32 else w)).isSome

/-- Whether off of a flow access lies in its range: a multiple of 8 for SLD and SST, 0 or 32 for SLDW and SSTW (R286). -/
def offOk (w : BitVec 32) : Bool := if sorterOpcode w ≤ 0x1A then decide (w.toNat % 8 = 0) else decide (w.toNat % 32 = 0)

/-- Whether a word is a branch. -/
def isSorterBranch (w : BitVec 32) : Bool := decide (0x0E ≤ sorterOpcode w) && decide (sorterOpcode w ≤ 0x11)

/-- OFF of a branch. -/
def sorterOff (w : BitVec 32) : Nat := (w.extractLsb' 0 8).toNat

/-- Whether a word ends a kernel. -/
def isEnding (w : BitVec 32) : Bool := decide (0x21 ≤ sorterOpcode w) && decide (sorterOpcode w ≤ 0x24)

/-- Instructions on the longest path from each index of a kernel, from the last index down (R278 condition 4). -/
def pathLengths (code : List (BitVec 32)) : List Nat :=
  code.foldr (fun w acc =>
    let then1 := acc.headD 0
    let jump := acc.getD (sorterOff w - 1) 0
    (1 + (if isEnding w then 0 else if sorterOpcode w = 0x11 then jump else if isSorterBranch w then max then1 jump else then1)) :: acc) []

/-- The first condition of R278 that a kernel breaks; 0 when it is accepted. -/
def verify (k : Kernel) : Nat :=
  let n := k.code.length
  let cls := k.cls.toNat
  let group := cls = 0x17 ∨ cls = 0x18
  let badBranch (i : Nat) (w : BitVec 32) : Bool := isSorterBranch w && (decide (sorterOff w = 0) || decide (n ≤ i + sorterOff w))
  let badSet (w : BitVec 32) : Bool :=
    decide (sorterOpcode w = 0x13) && !(fieldWritable (w.toNat % 32) && carries (cls % 16) (w.toNat % 32))
  let badImm (w : BitVec 32) : Bool :=
    ((decide (sorterOpcode w = 0x12) || decide (sorterOpcode w = 0x13)) && decide (14 ≤ w.toNat % 32)) ||
      (decide (sorterOpcode w = 0x23) && decide (w.toNat % 256 = 0)) || (isFlowAccess w && !offOk w)
  if n = 0 ∨ 256 < n ∨ k.code.all wordFields = false then 1
  else if ((List.range n).zipWith badBranch k.code).any id then 2
  else if (k.code.getLast?.map isEnding).getD false = false then 3
  else if 64 < (pathLengths k.code).headD 0 then 4
  else if k.code.any badSet then 5
  else if group ∧ (k.code.any fun w => decide (sorterOpcode w = 0x21)) then 6
  else if k.code.any badImm then 7
  else if matchable cls = false ∨ k.hi < k.lo ∨ (if group then 1024 else 8192) ≤ k.hi then 8
  else 0

/-- A .sorter record as a kernel of a context; none when its length or its RSV bytes are wrong (R76). -/
def kernelOf (ctx : Nat) (record : List Byte) : Option Kernel :=
  let f (off n : Nat) : Nat := bytesToNat ((record.drop off).take n)
  let n := f 2 2
  if f 1 1 ≠ 0 ∨ f 0x10 16 ≠ 0 ∨ record.length ≠ 32 + 4 * n then none
  else
    some { ctx := ctx, cls := BitVec.ofNat 8 (f 0 1), lo := f 4 4, hi := f 8 4
           code := (List.range n).map fun i => BitVec.ofNat 32 (f (32 + 4 * i) 4) }

/-! ### Control operations (R277) -/

/-- What a service operation answers: its status (R385) and its result. -/
structure Answer where
  status : Nat
  result : Word
  deriving DecidableEq, Repr

/-- Whether a sorter can take an operation between two packets (R277). -/
def State.sorterIdle (s : State) (n : Nat) : Bool := (s.sorterOf n).run.isNone

/-- Whether a sorter is in service. -/
def State.sorterUp (s : State) (n : Nat) : Bool := decide (n < 32) && !(s.sorterOf n).fenced

/-- LOAD: the result is the first rule of R278 that the kernel breaks, or the index at which it is placed. -/
def sorterLoad (s : State) (ctx n : Nat) (record : List Byte) : State × Answer :=
  let x := s.sorterOf n
  if !s.sorterUp n || (s.context ctx).isNone then (s, { status := 1, result := 0 })
  else
    match kernelOf ctx record with
    | none => (s, { status := 1, result := 1 })
    | some k =>
      let broken := verify k
      if broken ≠ 0 then (s, { status := 1, result := BitVec.ofNat 64 broken })
      else if 256 < (x.kernels.map fun k => k.code.length).sum + k.code.length then (s, { status := 2, result := 0 })
      else (s.setSorter n { x with kernels := x.kernels ++ [k] }, { status := 0, result := BitVec.ofNat 64 x.kernels.length })

/-- Whether two flow windows overlap. -/
def windowsMeet (a b : Attachment) : Bool := decide (a.fb < b.fb + b.fc) && decide (b.fb < a.fb + a.fc)

/-- Whether two rules are the same: CTXID, class and range. -/
def sameRule (a b : Attachment) : Bool :=
  decide (a.ctx = b.ctx) && decide (a.cls = b.cls) && decide (a.lo = b.lo) && decide (a.hi = b.hi)

/-- ATTACH (R275 to R277). -/
def sorterAttach (s : State) (a : Attachment) (zero : Bool) : State × Answer :=
  let x := s.sorterOf a.sorter
  let bad : State × Answer := (s, { status := 1, result := 0 })
  match x.kernels[a.kernel]? with
  | none => bad
  | some k =>
    let others := s.rules.filter fun r => !sameRule r.1 a
    if !s.sorterUp a.sorter || decide (k.ctx ≠ a.ctx) || decide (k.cls ≠ a.cls) || decide (k.lo ≠ a.lo) || decide (k.hi ≠ a.hi) then bad
    else if a.fc = 0 ∨ 128 < a.fb + a.fc then bad
    else if others.any fun r => decide (r.1.ctx = a.ctx) && decide (r.1.cls = a.cls) && decide (r.1.lo ≤ a.hi) && decide (a.lo ≤ r.1.hi) then bad
    else if s.rules.any fun r => decide (r.1.ctx ≠ a.ctx) && decide (r.1.sorter = a.sorter) && windowsMeet r.1 a then bad
    else
      let inside (f : Nat) : Bool := decide (a.fb ≤ f) && decide (f < a.fb + a.fc)
      let x1 := if zero then { x with flows := x.flows.filter (fun e => !inside e.1), badFlows := x.badFlows.filter (!inside ·) } else x
      ({ s.setSorter a.sorter x1 with rules := others ++ [(a, k)] }, { status := 0, result := 0 })

/-- DETACH (R277). -/
def sorterDetach (s : State) (ctx : Nat) (cls : BitVec 8) (lo hi : Nat) : State × Answer :=
  let hit (r : Attachment × Kernel) : Bool := decide (r.1.ctx = ctx) && decide (r.1.cls = cls) && decide (r.1.lo = lo) && decide (r.1.hi = hi)
  if s.rules.any hit then ({ s with rules := s.rules.filter (!hit ·) }, { status := 0, result := 0 })
  else (s, { status := 1, result := 0 })

/-- Whether a flow lies in a window of a context on a sorter. -/
def State.ownsFlow (s : State) (ctx n flow : Nat) : Bool :=
  s.rules.any fun r => decide (r.1.ctx = ctx) && decide (r.1.sorter = n) && decide (r.1.fb ≤ flow) && decide (flow < r.1.fb + r.1.fc)

/-- REARM: of one flow, or of every flow of a window (R277, R291). -/
def sorterRearm (s : State) (ctx n : Nat) (flows : List Nat) : State × Answer :=
  let x := s.sorterOf n
  if flows.all (s.ownsFlow ctx n) then
    (s.setSorter n { x with suspended := x.suspended.filter fun f => !flows.contains f }, { status := 0, result := 0 })
  else (s, { status := 1, result := 0 })

/-- STATE: reads or writes the 64 bytes of a flow (R277); what is read goes to host memory at `key` (log 53, DESIGN CHOICE). -/
def sorterState (s : State) (ctx n flow : Nat) (write : Option Vec) (key : Nat) : State × Answer :=
  let x := s.sorterOf n
  if !s.ownsFlow ctx n flow then (s, { status := 1, result := 0 })
  else
    match write with
    | some v => (s.setSorter n { x with flows := tset x.flows flow v, badFlows := x.badFlows.filter fun f => decide (f ≠ flow) }, { status := 0, result := 0 })
    | none => (s.addGlobal (cellsFrom key (natToBytes 64 (tget x.flows 0 flow).toNat)), { status := 0, result := 0 })

/-- The flows that REARM names. -/
def rearmFlows (flow : Option Nat) (fb fc : Nat) : List Nat :=
  match flow with
  | some f => [f]
  | none => (List.range fc).map (fb + ·)

/-- The sorter of a control operation, where it names one. -/
def opSorter (s : State) (op : SorterOp) : Nat :=
  match op with
  | .load _ n _ => n
  | .attach a _ => a.sorter
  | .detach ctx cls lo hi =>
    match s.rules.find? fun r => decide (r.1.ctx = ctx) && decide (r.1.cls.toNat = cls) && decide (r.1.lo = lo) && decide (r.1.hi = hi) with
    | some r => r.1.sorter
    | none => 32
  | .rearm _ n _ _ _ => n
  | .state _ n _ _ => n

/-- Runs a control operation at its sorter (R277); STATE puts what it reads at a key. -/
def runSorterOp (s : State) (op : SorterOp) (key : Nat) : State × Answer :=
  match op with
  | .load ctx n r => sorterLoad s ctx n r
  | .attach a z => sorterAttach s a z
  | .detach ctx cls lo hi => sorterDetach s ctx (BitVec.ofNat 8 cls) lo hi
  | .rearm ctx n f fb fc => sorterRearm s ctx n (rearmFlows f fb fc)
  | .state ctx n f w => sorterState s ctx n f w key

/-! ### A packet at the sorting office (R275, R279, R291) -/

/-- The run of a kernel on a packet at entry (R279). -/
def startRun (a : Attachment) (k : Kernel) (p : Packet) (outbound : Bool) : Run :=
  let key := packetKey p
  let i := (key - a.lo) % a.fc
  let len := if p.kind = 0 ∨ p.kind = 7 then p.bytes.toNat else if p.kind = 6 then 32 else 0
  { packet := p, outbound := outbound, key := key, attachment := a, code := k.code, pc := 0
    k := [(1, BitVec.ofNat 64 i), (2, BitVec.ofNat 64 key), (3, BitVec.ofNat 64 len)], w := [], flow := a.fb + i, length := len
    emitted := [], wrotePayload := false }

/-- The meaning of a sorter instruction. -/
def sorterMeaning (i : Instr) (s : State) : Out :=
  match i with
  | .sorterAdd kd ka kb => execSorterAdd kd ka kb s
  | .sorterSub kd ka kb => execSorterSub kd ka kb s
  | .sorterAnd kd ka kb => execSorterAnd kd ka kb s
  | .sorterOr kd ka kb => execSorterOr kd ka kb s
  | .sorterXor kd ka kb => execSorterXor kd ka kb s
  | .sorterShl kd ka kb => execSorterShl kd ka kb s
  | .sorterShr kd ka kb => execSorterShr kd ka kb s
  | .setltu kd ka kb => execSetltu kd ka kb s
  | .seteq kd ka kb => execSeteq kd ka kb s
  | .addk kd ka imm => execAddk kd ka imm s
  | .andk kd ka imm => execAndk kd ka imm s
  | .shlk kd ka n => execShlk kd ka n s
  | .shrk kd ka n => execShrk kd ka n s
  | .movk kd imm => execMovk kd imm s
  | .sorterBeq ka kb off => execSorterBeq ka kb off s
  | .sorterBne ka kb off => execSorterBne ka kb off s
  | .sorterBltu ka kb off => execSorterBltu ka kb off s
  | .jmp off => execJmp off s
  | .hget kd f => execHget kd f s
  | .hset ka f => execHset ka f s
  | .pldw wd f => execPldw wd f s
  | .pstw wa f => execPstw wa f s
  | .wget kd wa l => execWget kd wa l s
  | .wset wd ka l => execWset wd ka l s
  | .fsel ka => execFsel ka s
  | .sld kd off => execSld kd off s
  | .sst ka off => execSst ka off s
  | .sldw wd off => execSldw wd off s
  | .sstw wa off => execSstw wa off s
  | .gld kd ka => execGld kd ka s
  | .gmem kd ka kb => execGmem kd ka kb s
  | .emit ka => execEmit ka s
  | .emitg ka => execEmitg ka s
  | .fwd => execFwd s
  | .drop => execDrop s
  | .nack n => execNack n s
  | .sorterTrap n => execSorterTrap n s
  | _ => .next s

/-- The word at a sorter's running kernel's pc, as an instruction. -/
def Sorter.head (x : Sorter) : Option Instr :=
  match x.run with
  | none => none
  | some r =>
    match r.code[r.pc]? with
    | none => none
    | some w => decodeSorter w

/-- Runs the kernel of the sorter whose turn it is to its end; R278 bounds it by 64 instructions. -/
def runKernel (s : State) (fuel : Nat) : State :=
  match fuel with
  | 0 => s
  | f + 1 =>
    match s.mySorter.head with
    | none => s
    | some i =>
      match sorterMeaning i s with
      | .next t => runKernel t f
      | _ => s

/-- A packet that no kernel takes (R275). -/
def State.passUnmatched (s : State) (it : NetItem) : State :=
  if it.packet.kind = 7 ∨ it.packet.kind = 8 then s.taken.sendNack it.packet 7
  else if it.outbound then { s.taken with sent := s.sent ++ [it.packet] }
  else { s with net := s.net.set s.args.index { it with offered := true } }

/-- Whether an earlier packet still waits for a sorter (R279: the order of arrival at the sorter). -/
def State.earlierFor (s : State) (sorter : Nat) : Bool :=
  (s.net.take s.args.index).any fun it =>
    !it.offered && (match s.ruleFor it.packet it.outbound with
      | some r => decide (r.1.sorter = sorter)
      | none => false)

/-- SORTER_PACKET: packet `index` of the sorting office meets its rule. A kernel runs to its end in this step, or, with
the flag clear, one instruction in each of the sorter's later turns (log 17, DEDUCED). -/
def execSorterPacket (s : State) : Out :=
  match s.net[s.args.index]? with
  | none => .next s
  | some it =>
    if it.offered then .next s
    else
      match s.ruleFor it.packet it.outbound with
      | none => .next (s.passUnmatched it)
      | some r =>
        let n := r.1.sorter
        if !s.sorterIdle n || s.earlierFor n then .next s
        else
          let run := startRun r.1 r.2 it.packet it.outbound
          let x := s.sorterOf n
          if x.suspended.contains run.flow then .next s.taken
          else
            let s1 := { s.taken.setSorter n { x with run := some run } with cur := { s.cur with sorter := n } }
            .next (if s.args.flag then runKernel s1 64 else s1)

end Sys2Proof.Machine
end

