-- ==== Sys2Proof/Machine/Context.lean ====
section
/-! DEFINITION. Contexts and units: pre-emption, save and restore (R372 to R374), removal (R377), page walks (R93), scrubbing
(R101), fences (R14 to R16), power and temperature (R390). -/

namespace Sys2Proof.Machine

/-- Whether FWACT is restarting a cluster's firmware (R389). -/
def State.restarting (s : State) (cluster : Nat) : Bool := decide (s.service.restart = some cluster)

/-- PREEMPTION_REQUEST: interrupt code 3 becomes pending on the three cores of a cell (R373 step 1); while the cluster's firmware
restarts the request waits (R389). -/
def execPreemptionRequest (s : State) : Out :=
  let c := s.args.cell
  if (s.residentIn c).isNone || s.cellOut c || s.restarting (c / 16) then .next s
  else
    .next (s.updCtx c fun x =>
      { x with coreA := { x.coreA with preempt := true }, coreX := { x.coreX with preempt := true }, coreC := { x.coreC with preempt := true } })

/-! ### Ranges of memory with their poison -/

/-- Replaces what a range of keys holds: its bytes, writes to it not yet visible, and its poisoned quarters of sectors. -/
def State.replaceRange (s : State) (base n : Nat) (cells : List Host.Cell) (bad : List Nat) : State :=
  let inside (a : Nat) : Bool := decide (base ≤ a) && decide (a < base + n)
  { s with
    mem := memPuts (s.mem.filter fun c => !inside c.1) cells
    writes := s.writes.map fun w =>
      { w with data := w.data.filter fun c => !inside c.1, marks := w.marks.filter fun m => !inside (16 * m.1) }
    poison := bad.foldl insertNat (s.poison.filter fun q => !inside (16 * q)) }

/-- Copies a page of 4 KiB, bytes and poison markers, from one key to another (R373). -/
def State.movePage (s : State) (source target : Nat) : State :=
  let bad := (s.flatPoison.filter fun q => decide (source ≤ 16 * q) && decide (16 * q < source + 4096)).map fun q => q - source / 16 + target / 16
  s.replaceRange target 4096 (rebase s.flatMem source target 4096) bad

/-- Pages of the image that hold the cell's SRAM (R372). -/
def sramPages : List Nat := (List.range 176).map (4096 * ·)

/-- Pages of the image that hold the control page and every other piece of context state (R372). -/
def privatePages : List Nat := (List.range 16).map fun i => 0xB0000 + 4096 * i

/-! ### Image accesses (R372, R373) -/

/-- The first byte of the image of a cell that cannot be reached, with the cause the access takes (R373). -/
def State.imageFault (s : State) (ctx cell : Nat) (kind : AccKind) : Option (Nat × Nat) :=
  (sramPages ++ privatePages).findSome? fun off =>
    match s.imageReach ctx cell off kind with
    | .error e => some e
    | .ok _ => none

/-- What an image access of a cell waits for in host-assisted mode (R389; log 12, DEDUCED). -/
def State.imageAccessWait (s : State) (ctx cell : Nat) : Option State :=
  match s.context ctx with
  | none => none
  | some c => s.assistWait (cell / 16) ctx ((sramPages ++ privatePages).map (c.imageAddr cell))

/-- Offsets of the sectors that hold the control page and the other context state, in the image and at the cell's keys (R372). -/
def stateSectors : List Nat := (List.range 1024).map fun i => 0xB0000 + 64 * i

/-- The address in the image of the first sector of context state that a test finds poisoned (R373). -/
def State.stateFault (s : State) (ctx cell : Nat) (bad : Nat → Bool) : Option Nat :=
  match s.context ctx with
  | none => none
  | some c => (stateSectors.find? bad).map (c.imageAddr cell)

/-- Poison in the part of the image that holds context state (R373). -/
def State.imagePoison (s : State) (ctx cell : Nat) : Option Nat :=
  s.stateFault ctx cell fun off =>
    match s.imageKey ctx cell off with
    | some k => s.poisonedFor (.cluster (cell / 16)) (sectorOf k)
    | none => false

/-- Poison met on context state in the cell (R373). -/
def State.cellPoison (s : State) (ctx cell : Nat) : Option Nat :=
  s.stateFault ctx cell fun off => s.poisonedFor (.cluster (cell / 16)) (sectorOf (cellKey cell off))

/-! ### Switching out (R373) -/

/-- Whether a core has parked with nothing of its own under way. -/
def State.quiet (s : State) (p : CoreRef) : Bool :=
  let k := s.coreOf p
  k.parked && k.stores.isEmpty && k.loads.isEmpty && s.settled p (s.pastLocal p) 4

/-- Whether a cell may be switched out: its cores have parked, its copies have completed (R177), no matrix command executes
(R222), and the cores' stores have drained (log 51, DEDUCED). -/
def State.switchReady (s : State) (cell : Nat) : Bool :=
  ([.a, .x, .c] : List Role).all (fun r => s.quiet ⟨cell, r⟩) && (s.copies.all fun c => decide (c.cell ≠ cell)) &&
    !(s.ctxOf cell).matrix.passed

/-- The context state as it is saved: the sequencer leaves its line, and its gate position is kept (R222). -/
def CellCtx.saveState (x : CellCtx) : CellCtx := x.ungate

/-- A restored head command that waits at its gate joins the end of its semaphore's line (R222); a member's waits for the boundary (R340). -/
def CellCtx.regate (x : CellCtx) : CellCtx :=
  match x.matrix.queue with
  | [] => x
  | c :: _ =>
    if x.matrix.gated && !x.coreC.member.active && x.grants.all (fun g => decide (g.who ≠ .sequencer)) then
      x.joinSem (cmdGsem c.word) .sequencer (cmdGcnt c.word)
    else x

/-- The cores of a cell give up their translations under way (R93). -/
def State.dropCellWalks (s : State) (cell : Nat) : State :=
  ([.a, .x, .c] : List Role).foldl (fun s r => s.dropFailed ⟨cell, r⟩) s

/-- Offsets of the save area that the device writes: those past the registers, and the reserved ones among them (R372). -/
def deviceSave : List Nat := span 0x5E0F8 8 ++ span 0x5E1F8 8 ++ span 0x5E2F8 264 ++ span 0x5F400 0xC00

/-- What the device writes into the save area at a save: the pending-load record, PRCOUNT and the poste restante, and zero elsewhere (R372,
R374), also in the entries past PRCOUNT (log 103, DESIGN CHOICE). -/
def State.clearSave (s : State) (ctx cell : Nat) : State :=
  let at' (off : Nat) (bytes : List Byte) : List Host.Cell := cellsFrom (cellKey cell off) bytes
  let poste := (s.ctxOf cell).poste
  let late := (s.niOf ctx cell).late.flatMap fun e => at' (0x5F400 + 16 * e.tag) e.bytes
  let held := (List.range poste.length).zipWith (fun i e => at' (0x5F800 + 64 * i) (natToBytes 64 e.1.body.toNat)) poste
  let cells := late ++ at' 0x5F480 (natToBytes 8 poste.length) ++ held.flatten
  s.addGlobal (cells ++ deviceSave.map fun o => (cellKey cell o, 0))

/-- Writes the image of a cell: its SRAM with poison markers, and the private part (R372, R373). -/
def State.writeImage (s : State) (ctx cell : Nat) : State :=
  let s1 := sramPages.foldl (fun s off =>
    match s.imageKey ctx cell off with
    | some k => s.movePage (cellKey cell off) k
    | none => s) s
  privatePages.foldl (fun s off =>
    match s.imageKey ctx cell off with
    | some k => s.replaceRange k 4096 ((List.range 4096).map fun i => (k + i, Config.imageByte s.tick (off + i))) []
    | none => s) s1

/-- SWITCH_OUT of a cell (R373 steps 3 to 5). -/
def execSwitchOut (s : State) : Out :=
  let cell := s.args.cell
  match s.residentIn cell with
  | none => .next s
  | some ctx =>
    if s.isDying ctx || !s.switchReady cell then .next s
    else
      match s.imageAccessWait ctx cell with
      | some t => .next t
      | none =>
      match s.imageFault ctx cell .store, s.cellPoison ctx cell with
      | some (cause, va), _ => .next (s.imageFatal ctx cell cause va)
      | none, some va => .next (s.imageFatal ctx cell 29 va)
      | none, none =>
        let s1 := (((s.dropCellWalks cell).deviceForget (cell / 16) ctx).clearSave ctx cell).writeImage ctx cell
        let v : Saved := { ctxid := ctx, cell := cell, ctx := (s1.ctxOf cell).saveState, imaged := true }
        let s2 := s1.setCell cell { s1.cellOf cell with resident := none, ctx := {} }
        .next { s2 with saved := s2.saved ++ [v] }

/-! ### Restoring (R373, R374) -/

/-- Loads the SRAM of a cell from its image (R373). -/
def State.loadImage (s : State) (ctx cell : Nat) : State :=
  sramPages.foldl (fun s off =>
    match s.imageKey ctx cell off with
    | some k => s.movePage k (cellKey cell off)
    | none => s) s

/-- The context state of a cell is written anew: no poison is met on it any more (R100, R372). -/
def State.freshState (s : State) (cell : Nat) : State := s.replaceRange (cellKey cell 0xB0000) 0x10000 [] []

/-- A context's first placement on a cell leaves operand memory and accumulator memory zero (R201). -/
def State.zeroOperands (s : State) (cell : Nat) : State := s.replaceRange (cellKey cell operandBase) 0x50000 [] []

/-- Applies the pending-load record: a value to the save-area row of its register, any other status as a deferred event, and
the tag is free (R374). -/
def State.applyLate (s : State) (ctx cell : Nat) (e : LateReply) : State :=
  let ni := s.niOf ctx cell
  let s0 := s.addGlobal ((span (0x5F400 + 16 * e.tag) 16).map fun o => (cellKey cell o, 0))
  match tfind ni.tags e.tag with
  | none => s0
  | some g =>
    let s1 := (s0.setNi ctx cell { ni with tags := tdel ni.tags e.tag }).updCore ⟨cell, .a⟩ (·.dropTag e.tag)
    if e.status = 0 then
      match g.dst with
      | some (.x r) => s1.addGlobal (cellsFrom (cellKey cell (0x5E000 + 8 * (r - 1))) (natToBytes 8 e.data.toNat))
      | _ => s1
    else s1.postEvent ⟨cell, .a⟩ e.cause g.fa

/-- A core resumes at TRAPVEC with RESTORED = 1 and TM = 1; its x and v registers hold nothing the spec names until the
handler reloads them (R373; log 48, DESIGN CHOICE). -/
def Core.resume (k : Core) (vec : VAddr) (tick role : Nat) : Core :=
  let k1 := { k with
    parked := false, saving := false, tcause := 0x8000000000000003#64, tstat := k.tstat ||| 0x11#64
    x := (List.range 31).map fun i => (i + 1, Config.freeWord tick (100 + 40 * role + i))
    v := (List.range 32).map fun i =>
      (i, BitVec.ofNat 512 (((List.range 8).map fun j => (Config.freeWord tick (1000 + 300 * role + 8 * i + j)).toNat * 2 ^ (64 * j)).sum)) }
  k1.startChain vec

/-- The cores of a restored cell resume, and a command takes its place at its gate (R222, R373). -/
def CellCtx.resume (x : CellCtx) (vec : VAddr) (tick : Nat) : CellCtx :=
  { x.regate with coreA := x.coreA.resume vec tick 0, coreX := x.coreX.resume vec tick 1, coreC := x.coreC.resume vec tick 2 }

/-- The poste restante enters the inbox in its order, ahead of every later arrival (R321, R374). PRCOUNT in the restored save area is 0: the
spec does not say what it reads while messages still wait for slots (log 103, DESIGN CHOICE). -/
def State.enterPoste (s : State) (cell : Nat) : State :=
  (s.updCtx cell fun x => x.enterRestored (Config.slotChoice s.tick) 256).addGlobal (cellsFrom (cellKey cell 0x5F480) (natToBytes 8 0))

/-- RESTORE of context `ctx` into a free cell (R373, R374). A part of a context that was never resident there begins as first
placed (log 6, DEDUCED). -/
def execRestore (s : State) : Out :=
  let ctx := s.args.ctx
  let cell := s.args.cell
  match s.savedOf ctx cell with
  | none => .next s
  | some v =>
    if (s.residentIn cell).isSome || s.cellOut cell || s.isDying ctx then .next s
    else
      let rest := s.saved.filter fun w => !(decide (w.ctxid = ctx) && decide (w.cell = cell))
      let place (s : State) : State :=
        ({ s with saved := rest }.setCell cell { s.cellOf cell with resident := some ctx, ctx := v.ctx }).freshState cell
      if !v.imaged then .next (((place s).zeroOperands cell).enterPoste cell)
      else
        match s.imageAccessWait ctx cell with
        | some t => .next t
        | none =>
        match s.imageFault ctx cell .load, s.imagePoison ctx cell with
        | some (cause, va), _ => .next (s.imageFatal ctx cell cause va)
        | none, some va => .next (s.imageFatal ctx cell 29 va)
        | none, none =>
          let ni := s.niOf ctx cell
          let s1 := (place ((s.loadImage ctx cell).deviceForget (cell / 16) ctx)).setNi ctx cell { ni with late := [] }
          let s2 := ni.late.foldl (fun s e => s.applyLate ctx cell e) s1
          let s3 := s2.enterPoste cell
          .next (s3.updCtx cell fun x => x.resume (s.trapVec ctx) s.tick)

/-! ### Removing a context (R377) -/

/-- The KIND 3 record of a removal that the host requests or that a fence or the thermal limit causes: CELL, ROLE and PC are
values the spec does not name (log 48, DESIGN CHOICE). -/
def State.removalRecord (s : State) (cause : Word) : List Byte :=
  faultRecord 3 s.chip cause 0
    (fatalDetail ((Config.freeWord s.tick 1).toNat % 65536) ((Config.freeWord s.tick 2).toNat % 256) 0 (Config.freeWord s.tick 3))

/-- Steps 1 to 4: cores stop and lose their chains, and matrix sequencers, transform units and copy engines discard their
work (R138, R177, R222, R377). -/
def State.resetCells (s : State) (ctx : Nat) : State :=
  { s with
    cells := s.cells.map fun e => if e.2.resident = some ctx then (e.1, { e.2 with resident := none, ctx := {} }) else e
    saved := s.saved.filter fun v => decide (v.ctxid ≠ ctx)
    copies := s.copies.filter fun c => decide (c.ctx ≠ ctx)
    misses := s.misses.filter fun m => decide (m.ctx ≠ ctx)
    failedWalks := s.failedWalks.filter fun f => decide (f.2.1 ≠ ctx) }

/-- Step 5: the mixing engine discards the context's blocks and exchanges without re-absorbing anything (R317). -/
def State.resetMixing (s : State) (ctx : Nat) : State :=
  { s with
    blocks := s.blocks.filter fun e => decide (e.2.ctx ≠ ctx), shares := s.shares.filter fun e => decide (e.1 / 64 ≠ ctx)
    mixUsed := s.mixUsed.filter fun e => decide (e.1 / 64 ≠ ctx), mixNext := s.mixNext.filter fun e => decide (e.1 / 64 ≠ ctx)
    mixTime := s.mixTime.filter fun e => decide (e.1 / 64 ≠ ctx), mixLate := s.mixLate.filter fun n => decide (n / 64 ≠ ctx) }

/-- A sorter without a context's packet, kernels and windows (R294). -/
def Sorter.forget (x : Sorter) (ctx : Nat) (flows : List Nat) : Sorter :=
  { x with
    kernels := x.kernels.map fun k => if k.ctx = ctx then { k with ctx := 65536, code := [] } else k
    flows := x.flows.filter fun e => !flows.contains e.1, suspended := x.suspended.filter fun f => !flows.contains f
    badFlows := x.badFlows.filter fun f => !flows.contains f
    run := match x.run with
      | some r => if r.packet.ctxid.toNat = ctx then none else some r
      | none => none }

/-- The flows of a context's windows on a sorter. -/
def State.windowFlows (s : State) (ctx n : Nat) : List Nat :=
  (s.rules.filter fun r => decide (r.1.ctx = ctx) && decide (r.1.sorter = n)).flatMap fun r => span r.1.fb r.1.fc

/-- Step 6: the sorters discard the context's packets, detach its rules and free its kernel memory and windows (R294). -/
def State.resetSorters (s : State) (ctx : Nat) : State :=
  { s with
    net := s.net.filter fun it => !(decide (it.packet.ctxid.toNat = ctx) && !it.offered && (s.ruleFor it.packet it.outbound).isSome)
    sorters := s.sorters.map fun e => (e.1, e.2.forget ctx (s.windowFlows ctx e.1))
    rules := s.rules.filter fun r => decide (r.1.ctx ≠ ctx) }

/-- Step 7: the network interface discards records, slots, tags, held adds, and messages on the way (R377). -/
def State.resetInterface (s : State) (ctx : Nat) : State :=
  { s with
    nis := s.nis.filter fun e => decide (e.1 / 1024 ≠ ctx), heldAdds := s.heldAdds.filter fun p => decide (p.1.ctxid.toNat ≠ ctx)
    initial := s.initial.filter fun m => decide (m.ctx ≠ ctx) }

/-- Whether an ownership record names a context (R333). -/
def OwnRec.names (r : OwnRec) (ctx : Nat) : Bool :=
  decide (r.holder.map Prod.fst = some ctx) || decide (r.pending.map Prod.fst = some ctx) || decide (r.handedBy.map Prod.fst = some ctx)

/-- Ownership records that name the context become unheld (R333). -/
def State.clearOwnership (s : State) (ctx : Nat) : State :=
  { s with own := s.own.map fun e => if e.2.names ctx then (e.1, {}) else e }

/-- Completes every launch of a context with STATUS 2 (R361, R377). -/
def State.endLaunches (s : State) (ctx : Nat) : State :=
  let lids := (s.launches.filter fun e => decide (e.2.ctx = ctx)).map Prod.fst
  let s1 := { s with deviceQueue := s.deviceQueue.filter fun q => !lids.contains q.1 }
  lids.foldl (fun s l => s.endLaunch l 2 0) s1

/-- Frees a context's counters and descriptor (R377). -/
def State.freeContext (s : State) (ctx : Nat) : State :=
  match s.context ctx with
  | none => s
  | some c =>
    { s with
      counters := s.counters.filter fun e => !(decide (c.cbase ≤ e.1) && decide (e.1 < c.cbase + c.climit))
      contexts := s.contexts.filter fun d => decide (d.ctxid ≠ ctx) }

/-- Removes a context in the order of R377, after its KIND 3 record. -/
def State.removeContext (s : State) (ctx : Nat) (record : List Byte) : State :=
  let s1 := ((s.writeFault ctx record).resetCells ctx).resetMixing ctx
  let s2 := ((s1.resetSorters ctx).resetInterface ctx).clearOwnership ctx
  (s2.endLaunches ctx).freeContext ctx

/-- A removal by the device itself, without waiting: an earlier fatal fault's record stands (R377). -/
def State.removeNow (s : State) (ctx : Nat) (record : List Byte) : State :=
  match s.context ctx with
  | none => s
  | some c => s.removeContext ctx (c.dying.getD record)

/-- CONTEXT_REMOVAL of context `ctx` after its fatal fault (R377). -/
def execContextRemoval (s : State) : Out :=
  match s.context s.args.ctx with
  | none => .next s
  | some c =>
    match c.dying with
    | none => .next s
    | some record => .next (s.removeContext s.args.ctx record)

/-! ### Page walks (R93) -/

/-- The misses that a cluster's walkers serve, in order of arrival. -/
def State.walkQueue (s : State) (cluster : Nat) : List Miss := s.misses.filter fun m => decide (m.cluster = cluster) && !m.assisted

/-- A walk's answer reaches its miss: a leaf fills the cluster's caches, a failure reaches every party that waits; a release of the
network interface that waited for it is taken up again (R93, R244). -/
def State.answerMiss (s : State) (m : Miss) (w : Walk) : State :=
  let s1 := { s with misses := s.misses.erase m }
  let s2 := match w with
    | .leaf e l => { s1 with tlb := s1.tlb ++ [{ cluster := m.cluster, ctx := m.ctx, page := m.page, leaf := e, level := l }] }
    | .fail => { s1 with failedWalks := s1.failedWalks ++ m.waiters.map fun p => (p, m.ctx, m.page) }
  if m.waiters.any fun p => decide (p.role = .s) then s2.checkCounters else s2

/-- PAGE_WALK: one of the eight walkers of a cluster finishes; `index` names one of the first eight misses (R93). -/
def execPageWalk (s : State) : Out :=
  let k := s.args.cluster
  if s.unitOut 1 k then .next s
  else
    match ((s.walkQueue k).take 8)[s.args.index]? with
    | none => .next s
    | some m => .next (s.answerMiss m (s.walk k m.ctx (m.page * 4096)))

/-! ### Scrubbing (R100 to R102) -/

/-- The memory that a sector lies in, as R384 and R385 number them: 0 vault, 1 LPDDR, 2 cell SRAM. -/
def sectorMemory (sector : Nat) : Nat :=
  match sector * 64 / 2 ^ 52 with
  | 0 => 1
  | 1 => 0
  | _ => 2

/-- An error found in a sector: corrected, or the poison marker written; it is counted (R100 to R102). -/
def State.scrub (s : State) (sector : Nat) (found : ScrubFound) : State :=
  let m := sectorMemory sector
  match found with
  | .valid => s
  | .correctable => { s with service := { s.service with corrected := tupd s.service.corrected 0 m (· + 1) } }
  | .uncorrectable =>
    let s1 := s.addPoison sector
    { s1 with service := { s1.service with uncorrectable := tupd s1.service.uncorrectable 0 m (· + 1) } }

/-- KIND 5: the counts of a memory go to the host (R384). -/
def State.countReport (s : State) (m : Nat) : State :=
  s.report 5 (BitVec.ofNat 64 m) (BitVec.ofNat 64 (tget s.service.corrected 0 m)) (BitVec.ofNat 64 (tget s.service.uncorrectable 0 m))

/-- SCRUB_VISIT: a scrubber's visit of sector `index`, from stage 4 of bring-up on and in hardware mode (R101, R386, R389), or with `memory` 4 an
error that a read finds there (R100; log 11, DESIGN CHOICE); `memory` 3 names flow `slot` of sorter `index` (R286). With `flag` the count
has reached the threshold of KIND 5, which the spec does not give (log 52, DESIGN CHOICE). -/
def execScrubVisit (s : State) : Out :=
  if s.args.memory = 3 then
    let x := s.sorterOf s.args.index
    if s.args.found = .uncorrectable then .next (s.setSorter s.args.index { x with badFlows := insertNat x.badFlows s.args.slot }) else .next s
  else if s.args.memory ≠ 4 ∧ (s.service.stage < 4 ∨ s.service.assisted.contains 3) then .next s
  else
    let s1 := s.scrub s.args.index s.args.found
    .next (if s.args.flag && decide (s.args.found ≠ .valid) then s1.countReport (sectorMemory s.args.index) else s1)

/-! ### Fences (R14 to R16) -/

/-- Whether a context has work in flight in a cell: a firing, an access, a copy, a command, a stream, or fabric operations
(R16). -/
def State.busyIn (s : State) (ctx cell : Nat) : Bool :=
  let n := s.niOf ctx cell
  (decide (s.residentIn cell = some ctx) &&
    (let x := s.ctxOf cell
     (([.a, .x, .c] : List Role).any fun r =>
        let k := x.core r
        k.firing.isSome || !k.stores.isEmpty || !k.loads.isEmpty || !k.sendBuffer.isEmpty || k.trapMode) ||
      !x.matrix.queue.isEmpty || x.streams.any fun t => decide (t.2.mode = 1) || !t.2.written)) ||
    (s.copies.any fun c => decide (c.ctx = ctx) && decide (c.cell = cell)) || !n.recs.isEmpty || !n.tags.isEmpty ||
    n.rel.any fun r => decide (r.2.state = .pending)

/-- The keys of the entries that a walk reads (R89). -/
def walkKeys (read : Nat → Word) (va : Nat) (fuel level : Nat) (e : Word) : List Nat :=
  if !pteV e || pteMalformed e level || pteLeaf e then []
  else
    match fuel with
    | 0 => []
    | n + 1 =>
      let k := physKey (pteSpc e) (ptePa e + 8 * tableIndex va (level + 1))
      k :: walkKeys read va n (level + 1) (read k)

/-- Whether a core has an access under way to a key that a test accepts. -/
def Core.busyAt (k : Core) (hit : Nat → Bool) : Bool :=
  k.loads.any (fun l => hit l.addr) || k.stores.any (·.writesAt hit) || k.member.ops.any fun o =>
    match o with
    | .amo _ _ addr _ _ _ _ _ _ => hit addr
    | _ => false

/-- Whether a copy reads or writes a key that a test accepts: an end of one of its ranges, or the source of a counted write that it carries. -/
def Copy.touches (c : Copy) (hit : Nat → Bool) : Bool :=
  let ws := keySegs c.cell c.pages (dSpace c.dst) (writeSegs c.dst c.src c.dorg c.xf c.index)
  let rs := keySegs c.cell c.pages (dSpace c.src) (readSegs c.dst c.src c.sorg c.xf c.index)
  ((ws ++ rs).any fun g => hit g.2.1 || hit (g.2.1 + g.2.2 - 1)) || c.writes.any fun r =>
    match r.source with
    | .memory addrs => addrs.any fun a => hit a.1
    | .data => false

/-- Whether a packet in the network goes to a key that a test accepts. -/
def State.packetAt (s : State) (p : Packet) (hit : Nat → Bool) : Bool :=
  decide (p.dchip = s.chip) && decide (p.kind ≤ 1 ∨ p.kind = 4) && decide (faKind p.addr ≤ 1) &&
    match s.fabKeys p.ctxid.toNat p.schip p.addr 1 (if p.kind = 1 then .load else .store) with
    | .ok (ks, _) => ks.any hit
    | .error _ => false

/-- Whether a context has an access under way to a key: of a core, a write still on its way, a copy, a packet, a remote load or a held add, a
walk, or an outstanding mixing exchange (R16). -/
def State.busyAt (s : State) (ctx : Nat) (hit : Nat → Bool) : Bool :=
  ((s.cellsWith ctx).any fun c =>
    match s.held ctx c with
    | none => false
    | some x => ([.a, .x, .c] : List Role).any fun r => (x.core r).busyAt hit) ||
  (s.writes.any fun w => decide (s.residentIn w.cell = some ctx) && w.data.any fun d => hit d.1) ||
  (s.copies.any fun k => decide (k.ctx = ctx) && k.touches hit) ||
  (s.net.any fun it => decide (it.packet.ctxid.toNat = ctx) && !it.outbound && s.packetAt it.packet hit) ||
  (s.nis.any fun n => decide (n.1 / 1024 = ctx) && n.2.tags.any fun t => s.packetAt t.2.packet hit) ||
  (s.heldAdds.any fun a => decide (a.1.ctxid.toNat = ctx) && hit a.2) ||
  (s.misses.any fun m => decide (m.ctx = ctx) &&
    match s.context ctx with
    | some c => (walkKeys (s.walkRead m.cluster) (m.page * 4096) 4 0 c.root).any hit
    | none => false) ||
  s.blocks.any fun b => decide (b.2.ctx = ctx) && b.2.out.isSome && (b.2.xpages ++ b.2.spages).any hit

/-- Whether a context has a message on its way to a cell (R16). -/
def State.sendsTo (s : State) (ctx cell : Nat) : Bool :=
  (s.initial.any fun m => decide (m.ctx = ctx) && decide (m.cell = cell)) ||
  (s.cellsWith ctx).any fun c =>
    match s.held ctx c with
    | none => false
    | some x => ([.a, .x, .c] : List Role).any fun r => (x.core r).sendBuffer.any fun e => decide (e.msg.cell = cell)

/-- Whether a context uses a cell: its own work in it, or that of other cells on its memories (R16). -/
def State.usesCell (s : State) (ctx cell : Nat) : Bool :=
  s.busyIn ctx cell || s.sendsTo ctx cell || s.busyAt ctx fun k => isCellKey k && decide (keyCell k = cell)

/-- The contexts with a request in flight to a unit (R16). For a port they are the ones listed in `listed` that wait for an
answer from outside; the path of a packet is the fabric's choice (R270). -/
def State.usersOf (s : State) (cls idx : Nat) (listed : List Nat) : List Nat :=
  (s.contexts.map (·.ctxid)).filter fun ctx =>
    match cls with
    | 0 => s.usesCell ctx idx
    | 1 => (span (16 * idx) 16).any (s.usesCell ctx) || (s.misses.any fun m => decide (m.ctx = ctx) && decide (m.cluster = idx)) ||
        s.blocks.any fun b => decide (b.2.ctx = ctx) && b.2.out.isSome && decide (b.2.cell / 16 = idx)
    | 2 => s.busyAt ctx fun k => decide (k / 2 ^ 52 = 1) && decide (k % 2 ^ 52 / 2 ^ 27 = idx)
    | 3 => s.busyAt ctx fun k => decide (k / 2 ^ 52 = 0) && decide (k / 2 ^ 37 = idx)
    | 5 => listed.contains ctx && s.nis.any fun n =>
        decide (n.1 / 1024 = ctx) && (!n.2.recs.isEmpty || !n.2.tags.isEmpty || n.2.rel.any fun r => decide (r.2.state = .pending))
    | 6 => (match (s.sorterOf idx).run with
        | some r => decide (r.packet.ctxid.toNat = ctx)
        | none => false) ||
        s.net.any fun it => decide (it.packet.ctxid.toNat = ctx) && !it.offered && (match s.ruleFor it.packet it.outbound with
          | some r => decide (r.1.sorter = idx)
          | none => false)
    | _ => false

/-- How many units a class has: cells, clusters, vaults, DRAM stacks, rails of the 40 scale-up ports, ports, sorters (R8 to R10). The spec
does not number the rails; rail r of scale-up port p is 5 × p + r (log 92, DESIGN CHOICE). -/
def unitCountOf (cls : Nat) : Nat :=
  match cls with
  | 0 => 1024
  | 1 => 64
  | 2 => 64
  | 3 => 8
  | 4 => 200
  | 5 => 48
  | 6 => 32
  | _ => 0

/-- Switches a unit off (R14, R15, R294). -/
def State.switchOff (s : State) (cls idx : Nat) : State :=
  let s1 := { s with service := { s.service with fenced := s.service.fenced ++ [(cls, idx)] } }
  match cls with
  | 0 => s1.setCell idx { s1.cellOf idx with fenced := true }
  | 4 => s1.setPort (idx / 5) { s1.port (idx / 5) with railsFenced := insertNat (s1.port (idx / 5)).railsFenced (idx % 5) }
  | 5 => s1.setPort idx { s1.port idx with fenced := true }
  | 6 => { s1.setSorter idx { s1.sorterOf idx with fenced := true, run := none } with rules := s1.rules.filter fun r => decide (r.1.sorter ≠ idx) }
  | _ => s1

/-- Fences a unit: it is switched off, the contexts that use it suffer a fatal fault, and the host gets KIND 1 (R14, R16, R384). R376 asks
for the fatal cause and the spec gives a fence none: CAUSE of the KIND 3 records is a free value (log 48, DESIGN CHOICE). A unit that is
fenced already stays as it is and is not reported again (log 93, DESIGN CHOICE). -/
def State.fenceUnit (s : State) (cls idx : Nat) (listed : List Nat) : State :=
  if s.unitOut cls idx then s
  else
    let users := s.usersOf cls idx listed
    let s1 := users.foldl (fun s c => s.fatal c (s.removalRecord (Config.freeWord s.tick 4))) (s.switchOff cls idx)
    s1.report 1 (BitVec.ofNat 64 cls) (BitVec.ofNat 64 idx) (BitVec.ofNat 64 users.length)

/-- UNIT_FENCE: unit `index` of class `cls` fails (R14 to R16). -/
def execUnitFence (s : State) : Out :=
  if s.args.index < unitCountOf s.args.cls then .next (s.fenceUnit s.args.cls s.args.index s.args.cells) else .next s

/-! ### Power and temperature (R390) -/

/-- POWER_WINDOW: an average power of `amount` W over 1 ms; above PLIMIT idle cycles are inserted between matrix command
occupancies until it falls below (R390; log 16, DESIGN CHOICE). -/
def execPowerWindow (s : State) : Out :=
  let v := s.service
  let idle := if v.plimit < s.args.amount then true else if s.args.amount < v.plimit then false else v.idleInserted
  .next { s with service := { v with idleInserted := idle } }

/-- THERMAL_LIMIT: a junction reaches `amount` °C: at 105, each time, KIND 7 and half the matrix issue rate; at 115 every context is removed by host
removal and all cores stop until reset (R390; log 16, DESIGN CHOICE). -/
def execThermalLimit (s : State) : Out :=
  let t := s.args.amount
  if t < 105 then .next s
  else
    let s0 := { s with service := { s.service with halfRate := true } }
    let s1 := if t < 115 || !s.service.halfRate then s0.report 7 (BitVec.ofNat 64 t) 0 0 else s0
    if t < 115 then .next s1
    else
      let s2 := { s1 with service := { s1.service with shutDown := true } }
      .next ((s2.contexts.map (·.ctxid)).foldl (fun s c => s.removeNow c (s.removalRecord 0)) s2)

end Sys2Proof.Machine
end

