-- ==== Sys2Proof/Machine/Control.lean ====
section
/-! DEFINITION. Branches and jumps (R124 to R126). -/

namespace Sys2Proof.Machine

/-- Whether NUL annuls the slots (R122). -/
def annuls (nul : BitVec 2) (taken : Bool) : Bool :=
  (decide (nul = 1#2) && !taken) || (decide (nul = 2#2) && taken)

/-- The target of a displacement of any width, truncated to 48 bits (R25). -/
def dispTarget (s : State) (disp : Int) : VAddr := BitVec.ofInt 48 (s.me.c0.toNat + disp * 4)

/-- A conditional branch with its condition worked out: it pops its queues whether or not it is taken (R124). -/
def branch (s : State) (srcs : List Reg) (nul : BitVec 2) (disp : BitVec 19) (taken : Bool) : Out :=
  .next ((s.popAll srcs).retireWith taken (dispTarget s disp.toInt) (annuls nul taken))

/-- A branch on two sources. -/
def branch2 (s : State) (a b : Reg) (nul : BitVec 2) (disp : BitVec 19) (p : Word → Word → Bool) : Out :=
  match s.blocked [a, b] none with
  | some o => o
  | none => branch s [a, b] nul disp (p (s.sval [] a) (s.sval [a] b))

/-- A branch on one source. -/
def branch1 (s : State) (a : Reg) (nul : BitVec 2) (disp : BitVec 19) (p : Word → Bool) : Out :=
  match s.blocked [a] none with
  | some o => o
  | none => branch s [a] nul disp (p (s.sval [] a))

/-- What reading the slot words for a link finds (R126). -/
inductive Link where
  /-- C2 resolved, and the address after the second slot -/
  | ok (c2 link : VAddr)
  | trap (cause : Nat) (tval : Word)
  | miss (addr : VAddr)
  deriving DecidableEq, Repr

/-- The length of the word at an address, for a link (R126): a slot word whose LEN is 0b00 traps with cause 2, with its bits [31:0]
in TVAL (log 82, DESIGN CHOICE). -/
def State.linkLen (s : State) (addr : VAddr) : Except Link Nat :=
  match s.fetch s.cur.core addr with
  | .miss => .error (.miss addr)
  | .trap cause => .error (.trap cause (addr.setWidth 64))
  | .word w =>
    if wordLen w = 0 then .error (.trap 2 ((w.setWidth 32).setWidth 64)) else .ok (wordLen w)

/-- The link of JL and JR: C2 + len(C2), C2 resolved first (R126). C1 is resolved when the jump executes (R121). -/
def State.linkOf (s : State) : Link :=
  let k := s.me
  let second (c2 : VAddr) : Link :=
    match s.linkLen c2 with
    | .error l => l
    | .ok n => .ok c2 (c2 + BitVec.ofNat 48 n)
  if k.s2 then
    match s.linkLen k.c1 with
    | .error l => l
    | .ok n => second (k.c1 + BitVec.ofNat 48 n)
  else second k.c2

/-- A jump with a link: no slot word is read when D is x0 (R126). When reading a slot word traps, the chain is saved as it stood, C2 not
resolved (log 82, DESIGN CHOICE). -/
def jump (s : State) (srcs : List Reg) (d : Reg) (nul : BitVec 2) (target : VAddr) : Out :=
  if d = 0#6 then .next ((s.popAll srcs).retireWith true target (annuls nul true))
  else
    match s.linkOf with
    | .miss addr => .next (s.requestWalk s.cur.core s.myCtxId addr.toNat)
    | .trap cause tval => trap s cause tval
    | .ok c2 link =>
      let s1 := ((s.popAll srcs).writeD d (link.setWidth 64)).updMe fun k => { k with c2 := c2, s2 := false }
      .next (s1.retireWith true target (annuls nul true))

/-- BEQ (R124). -/
def execBeq (a b : Reg) (nul : BitVec 2) (disp : BitVec 19) (s : State) : Out := branch2 s a b nul disp fun x y => decide (x = y)

/-- BNE (R124). -/
def execBne (a b : Reg) (nul : BitVec 2) (disp : BitVec 19) (s : State) : Out := branch2 s a b nul disp fun x y => decide (x ≠ y)

/-- BLT (R124). -/
def execBlt (a b : Reg) (nul : BitVec 2) (disp : BitVec 19) (s : State) : Out := branch2 s a b nul disp fun x y => decide (sgn x < sgn y)

/-- BGE (R124). -/
def execBge (a b : Reg) (nul : BitVec 2) (disp : BitVec 19) (s : State) : Out := branch2 s a b nul disp fun x y => decide (sgn y ≤ sgn x)

/-- BLTU (R124). -/
def execBltu (a b : Reg) (nul : BitVec 2) (disp : BitVec 19) (s : State) : Out := branch2 s a b nul disp fun x y => decide (uns x < uns y)

/-- BGEU (R124). -/
def execBgeu (a b : Reg) (nul : BitVec 2) (disp : BitVec 19) (s : State) : Out := branch2 s a b nul disp fun x y => decide (uns y ≤ uns x)

/-- BZ (R124). -/
def execBz (a : Reg) (nul : BitVec 2) (disp : BitVec 19) (s : State) : Out := branch1 s a nul disp fun x => decide (x = 0)

/-- BZN (R124). -/
def execBzn (a : Reg) (nul : BitVec 2) (disp : BitVec 19) (s : State) : Out := branch1 s a nul disp fun x => decide (x ≠ 0)

/-- J always takes its branch (R125). -/
def execJ (nul : BitVec 2) (imm : BitVec 25) (s : State) : Out := 
  .next (s.retireWith true (dispTarget s imm.toInt) (annuls nul true))

/-- JL (R125, R126). -/
def execJl (d : Reg) (nul : BitVec 2) (imm : BitVec 25) (s : State) : Out := 
  match s.blocked [] (some d) with
  | some o => o
  | none => jump s [] d nul (dispTarget s imm.toInt)

/-- JR (R125, R126). -/
def execJr (d a : Reg) (nul : BitVec 2) (s : State) : Out := 
  match s.blocked [a] (some d) with
  | some o => o
  | none => jump s [a] d nul ((s.sval [] a).setWidth 48)

end Sys2Proof.Machine
end

