-- ==== Sys2Proof/Machine/Csr.lean ====
section
/-! DEFINITION. The control register instructions (R106). -/

namespace Sys2Proof.Machine

/-- What stops a control register instruction: a queue end (R137), then checks 1 to 3 of R106, before its operands
(log 61, DEDUCED). -/
def csrBlocked (s : State) (srcs : List Reg) (dst : Option Reg) (n : Nat) (writes : Bool) : Option Out :=
  match badQueue s.cur.core.role srcs dst with
  | some r => some (trap s 35 (r.setWidth 64))
  | none =>
    let bad := some (trap s 2 (s.cur.word.setWidth 64))
    match csrAccess n with
    | none => bad
    | some a =>
      if csrPermitted a s.cur.core.role s.me.trapMode writes then
        (if s.scalarReady srcs dst then none else some (wait s))
      else bad

/-- Writes a control register and retires; an illegal QUANT traps with cause 46 and leaves it unchanged (R338). -/
def csrStore (s : State) (srcs : List Reg) (n : Nat) (v : Word) (result : Option (Reg × Word)) : Out :=
  if n = 0x011 ∧ quantOk v = false then trap s 46 v
  else
    let s1 := (s.popAll srcs).updMe fun k => k.csrWrite n v
    match result with
    | none => .next s1.retire
    | some (d, old) => .next (s1.writeD d old).retire

/-- CSRD (R106). -/
def execCsrd (d : Reg) (imm : BitVec 12) (s : State) : Out :=
  match csrBlocked s [] (some d) imm.toNat false with
  | some o => o
  | none => .next (s.finish [] d (s.csrRead imm.toNat))

/-- CSWR (R106). -/
def execCswr (a : Reg) (imm : BitVec 12) (s : State) : Out :=
  match csrBlocked s [a] none imm.toNat true with
  | some o => o
  | none => csrStore s [a] imm.toNat (s.sval [] a) none

/-- CSSET (R106). -/
def execCsset (d a : Reg) (imm : BitVec 12) (s : State) : Out :=
  match csrBlocked s [a] (some d) imm.toNat true with
  | some o => o
  | none =>
    let old := s.csrRead imm.toNat
    csrStore s [a] imm.toNat (old ||| s.sval [] a) (some (d, old))

/-- CSCLR (R106). -/
def execCsclr (d a : Reg) (imm : BitVec 12) (s : State) : Out :=
  match csrBlocked s [a] (some d) imm.toNat true with
  | some o => o
  | none =>
    let old := s.csrRead imm.toNat
    csrStore s [a] imm.toNat (old &&& ~~~(s.sval [] a)) (some (d, old))

end Sys2Proof.Machine
end

