-- ==== Sys2Proof/Machine/Service.lean ====
section
/-! DEFINITION. The host's side: bring-up (R386), host registers (R357, R383, R384), service commands (R385, R387, R389), SPDM (R388),
CXL.mem (R382) and declared failures (R316). -/

namespace Sys2Proof.Machine

/-- Applies a function to the service state. -/
def State.updService (s : State) (f : Service → Service) : State := { s with service := f s.service }

/-! ### Bring-up (R386) -/

/-- The module after a reset: the state of State.reset; host memory, which is not the module's, stands
(log 70, DEDUCED). -/
def State.moduleReset (s : State) : State :=
  { State.reset with mem := s.mem.filter fun c => decide (c.1 / 2 ^ 52 = 2), turns := s.turns, tick := s.tick, fresh := s.fresh }

/-- Whether a firmware image or a report is accepted: both signatures verify, and its version is not below the fused rollback counter
(R387). -/
def imageAccepted (image : List Byte) : Bool :=
  Config.ed25519Verifies image && Config.mldsaVerifies image && decide (Config.fusedRollback.toNat ≤ (Config.imageVersion image).toNat)

/-- Every cluster has an image for its supervisor core (R387). -/
def Service.booted (v : Service) (image : List Byte) : Service :=
  { v with stage := 2, secure := true, fwVersion := Config.imageVersion image, active := (List.range 64).map fun k => (k, image) }

/-- Whether the CXL link is up: before it is, the host reaches nothing (R386 stage 3). -/
def State.hostUp (s : State) : Bool := decide (3 ≤ s.service.stage)

/-- MODULE_RESET: a stage of bring-up ends (R386, R387), in order; with `flag` the module is reset. At stage 1 the boot ROM checks the
image that it finds; where the check fails it stays there, and nothing else starts until a reset. -/
def execModuleReset (s : State) : Out :=
  let v := s.service
  if s.args.flag then .next s.moduleReset
  else
    match s.args.stage, v.stage with
    | .verified, 1 =>
      let image := Config.bootImage s.tick
      if v.bootFailed then .next s
      else if imageAccepted image then .next (s.updService (·.booted image))
      else .next (s.updService fun v => { v with bootFailed := true })
    | .selfTest failed, 2 =>
      .next ((failed.foldl (fun s u => if u.2 < unitCountOf u.1 then s.fenceUnit u.1 u.2 [] else s) s).updService fun v => { v with stage := 3 })
    | .linkUp, 3 => .next (s.updService fun v => { v with stage := 4 })
    | .firmwareRuns, 4 => .next (s.updService fun v => { v with stage := 5 })
    | .portsTrained, 5 =>
      if v.chipGiven then .next (s.updService fun v => { v with stage := 6, portsEnabled := true }) else .next s
    | _, _ => .next s

/-! ### Host registers (R357, R383) -/

/-- A host queue. -/
def State.hostQueue (s : State) (q : Nat) : HostQueue := tget s.hostQueues {} q

/-- Replaces a host queue; ERR is set where TAIL has run too far ahead (R357). -/
def State.setHostQueue (s : State) (q : Nat) (h : HostQueue) : State := { s with hostQueues := tset s.hostQueues q h.check }

/-- EVHEAD: the host has consumed events; held ones are written (R384). -/
def execEvhead (s : State) : Out :=
  let s1 := s.updService fun v => { v with evhead := s.args.word.setWidth 32 }
  if s.hostUp then .next (s1.flushEvents s1.service.heldEvents.length) else .next s

/-- TAIL of launch queue `queue` (R357). -/
def execTail (s : State) : Out :=
  if s.hostUp ∧ s.args.queue < 8 then .next (s.setHostQueue s.args.queue { s.hostQueue s.args.queue with tail := s.args.word.setWidth 32 }) else .next s

/-- PLIMIT: a value outside 600 to 1500 is ignored (R383). -/
def execPlimit (s : State) : Out :=
  let n := s.args.word.toNat
  if s.hostUp ∧ 600 ≤ n ∧ n ≤ 1500 then .next (s.updService fun v => { v with plimit := n }) else .next s

/-- What a host read of a register returns (R383). -/
def State.hostRegister (s : State) (off : Nat) : Word :=
  let v := s.service
  if off = 0x0000 then (v.fwVersion.setWidth 64 <<< 32) ||| 0x00070001#64
  else if off = 0x0008 then BitVec.ofNat 64 (v.stage + 256 * v.secure.toNat)
  else if 0x1000 ≤ off ∧ off < 0x1200 then
    let h := s.hostQueue ((off - 0x1000) / 0x40)
    match (off - 0x1000) % 0x40 with
    | 0x00 => h.qbase
    | 0x08 => h.qcfg
    | 0x10 => h.tail.setWidth 64
    | 0x18 => h.head.setWidth 64
    | _ => 0
  else if 0x2000 ≤ off ∧ off < 0x2040 then BitVec.ofNat 64 (vecBytes v.mbcmd (off - 0x2000) 8)
  else if off = 0x2048 then BitVec.ofNat 64 (v.busy.isSome.toNat + 256 * (v.mbstatus % 256)) ||| (v.mbresult <<< 16)
  else if off = 0x3000 then v.evbase
  else if off = 0x3008 then v.evcfg
  else if off = 0x3010 then v.evhead.setWidth 64
  else if off = 0x3018 then v.evtail.setWidth 64
  else if off = 0x4000 then BitVec.ofNat 64 v.plimit
  else 0

/-- A service command ends: MBSTAT holds its status and result, and KIND 8 reports it (R383 to R385). -/
def State.commandDone (s : State) (opcode status : Nat) (result : Word) : State :=
  (s.updService fun v => { v with busy := none, mbstatus := status, mbresult := result }).report 8 (BitVec.ofNat 64 opcode)
    (BitVec.ofNat 64 status) result

/-- The result of a command for which R385 names none (log 48, DESIGN CHOICE). -/
def State.noResult (s : State) : Word := Config.freeWord s.tick 6 &&& 0xFFFFFFFFFFFF#64

/-- A write to MBDB starts the command in MBCMD, unless one runs; an unknown opcode ends at once with status 5 (R385). -/
def State.ring (s : State) : State :=
  match s.service.busy with
  | some _ => s
  | none =>
    let op := vecBytes s.service.mbcmd 0 1
    let s1 := s.updService fun v => { v with busy := some op }
    if 1 ≤ op ∧ op ≤ 0x0D then s1 else s1.commandDone op 5 s.noResult

/-- QCFG as a host write leaves it: EN, SPC and LOG2SZ; writing EN clears ERR (R357). -/
def qcfgWrite (old v : Word) : Word :=
  (v &&& 0xC00000000000001F#64) ||| (if v.getLsbD 63 then 0 else old &&& 0x2000000000000000#64)

/-- A host write to a register without a row of its own (R357, R383); a reserved offset ignores it. QBASE and EVBASE
keep no bits below their alignment (log 69, DEDUCED). -/
def State.hostWrite (s : State) (off : Nat) (w : Word) : State :=
  if 0x1000 ≤ off ∧ off < 0x1200 then
    let q := (off - 0x1000) / 0x40
    let h := s.hostQueue q
    match (off - 0x1000) % 0x40 with
    | 0x00 => s.setHostQueue q { h with qbase := w &&& 0xFFFFFFFFFFFFFFC0#64 }
    | 0x08 => s.setHostQueue q { h with qcfg := qcfgWrite h.qcfg w }
    | _ => s
  else if 0x2000 ≤ off ∧ off < 0x2040 ∧ off % 8 = 0 then s.updService fun v => { v with mbcmd := vecPut v.mbcmd (off - 0x2000) 8 w.toNat }
  else if off = 0x2040 then s.ring
  else if off = 0x3000 then s.updService fun v => { v with evbase := w &&& 0xFFFFFFFFFFFFF000#64 }
  else if off = 0x3008 then
    let s1 := s.updService fun v => { v with evcfg := w &&& 0x800000000000001F#64 }
    s1.flushEvents s1.service.heldEvents.length
  else s

/-- REGISTER_WRITE: a store to CTL, a window register, the tensor identifier image, or MCTL without FLUSH or RESUME, leaves the
store buffer (R84, R94, R154, R207, R347); or a host write to a register without a row of its own (R357, R383). -/
def execRegisterWrite (s : State) : Out :=
  match s.args.target with
  | .host off w => if s.hostUp then .next (s.hostWrite off w) else .next s
  | .core p n =>
    match s.controlEntry p n with
    | none => .next s
    | some (off, v) =>
      if off = 0x58 then (if v.extractLsb' 0 2 = 0 then .next (s.dropStore p n) else .next s)
      else if off < 0x2000 then .next s
      else .next ((s.dropStore p n).updCtx p.cell fun x => x.controlWrite off v)

/-! ### Service commands (R385) -/

/-- An operand of the command in MBCMD: n bytes from an offset. R385 packs the operands from byte 8; their widths are the model's
(log 53, DESIGN CHOICE). -/
def State.operand (s : State) (off n : Nat) : Nat := vecBytes s.service.mbcmd off n

/-- Runs a command that MBDB has started: its state, status and result; nothing while another opcode runs. -/
def command (s : State) (opcode : Nat) (f : State → State × Nat × Word) : Out :=
  if s.hostUp ∧ s.service.busy = some opcode then
    let r := f s
    .next (r.1.commandDone opcode r.2.1 r.2.2)
  else .next s

/-- A command that changes nothing and answers a status. -/
def refuse (s : State) (status : Nat) : State × Nat × Word := (s, status, s.noResult)

/-- A command that is done. -/
def accept (s t : State) : State × Nat × Word := (t, 0, s.noResult)

/-- The bytes at a host physical address. -/
def State.hostBytes (s : State) (addr n : Nat) : List Byte := (span (physKey 2 (addr % 2 ^ 52)) n).map s.hostByte

/-- The 64 bytes at a host physical address. -/
def State.hostVec (s : State) (addr : Nat) : Vec := BitVec.ofNat 512 (bytesToNat (s.hostBytes addr 64))

/-- A descriptor's fields (R370). -/
def descriptorOf (v : Vec) : Context :=
  let word (off : Nat) : Word := BitVec.ofNat 64 (vecBytes v off 8)
  { ctxid := vecBytes v 0 2, cbase := vecBytes v 2 2, climit := vecBytes v 4 2, mbbase := vecBytes v 6 2, mblimit := vecBytes v 8 2
    fclog2 := vecBytes v 0xA 1, root := word 0x10, trapvec := word 0x18, savebase := word 0x20, fcbase := word 0x28, gtbase := word 0x30
    sigbase := word 0x38 }

/-- Whether a descriptor keeps the rules of R370. -/
def descriptorOk (v : Vec) : Bool :=
  let c := descriptorOf v
  decide (vecBytes v 0xB 5 = 0) && decide (c.climit ≤ 8192) && decide (c.cbase + c.climit ≤ 8192) && decide (c.mblimit ≤ 4096) &&
    decide (c.mbbase + c.mblimit ≤ 4096) && decide (4 ≤ c.fclog2) && decide (c.fclog2 ≤ 16) && decide (c.trapvec.extractLsb' 0 2 = 0) &&
    decide (c.trapvec.toNat < 2 ^ 48) && decide (c.savebase.extractLsb' 0 20 = 0) && decide (c.savebase.toNat < 2 ^ 48) &&
    decide (c.fcbase.extractLsb' 0 6 = 0) && decide (c.fcbase.toNat < 2 ^ 48)

/-- The context state of a cell at first placement (R80, R104, R138, R147, R180, R219, R256, R348, R370, R381). -/
def firstPlaced (c : Context) : CellCtx :=
  let k : Core := { sigbase := c.sigbase }
  { coreA := k, coreX := k, coreC := k }

/-- Places a context on a cell: it occupies a free cell, and is switched out in an occupied one; a fenced cell takes none (R15;
log 6, DEDUCED). -/
def State.placeOn (s : State) (c : Context) (cell : Nat) : State :=
  if 1024 ≤ cell ∨ s.cellOut cell ∨ (s.held c.ctxid cell).isSome then s
  else if (s.residentIn cell).isSome then { s with saved := s.saved ++ [{ ctxid := c.ctxid, cell := cell, ctx := firstPlaced c }] }
  else (s.setCell cell { s.cellOf cell with resident := some c.ctxid, ctx := firstPlaced c }).zeroOperands cell

/-- CTXSET installs the descriptor at its host address and places the context on `cells` (R370, R385; log 6, DEDUCED). Its counters start at
zero (R239). With 64 contexts it is refused (log 68, DEDUCED). -/
def State.installContext (s : State) : State × Nat × Word :=
  let v := s.hostVec (s.operand 8 8)
  let c := descriptorOf v
  if !descriptorOk v || (s.context c.ctxid).isSome then refuse s 1
  else if 64 ≤ s.contexts.length then refuse s 2
  else
    let s1 := { s with
      contexts := s.contexts ++ [c]
      counters := s.counters.filter fun e => !(decide (c.cbase ≤ e.1) && decide (e.1 < c.cbase + c.climit)) }
    accept s (s.args.cells.foldl (fun s n => s.placeOn c n) s1)

/-- CTXSET installs a launch that the host has parsed: at its host address stand the packet and its message images, and the checks of
R359 hold (R389); a child's packet leaves the device-side queue (log 45, DESIGN CHOICE). -/
def State.installLaunch (s : State) : State × Nat × Word :=
  let addr := s.operand 8 8
  let w := s.hostVec addr
  let images : List Message := (List.range (packetField w 3 1)).map fun i => { body := s.hostVec (addr + 64 + 64 * i) }
  let child := s.operand 18 2
  match s.checkLaunch w (some images) with
  | .error _ => refuse s 1
  | .ok ms =>
    if child = 0 then
      match s.freeLid with
      | none => refuse s 2
      | some lid => accept s (s.acceptLaunch lid (launchOf w s.now none (packetField w 2 1 % 4) false) w ms)
    else
      match tfind s.launches child with
      | none => refuse s 1
      | some l =>
        if s.deviceQueue.contains (child, w) then
          accept s (({ s with deviceQueue := s.deviceQueue.filter fun q => decide (q.1 ≠ child) }).acceptLaunch child { l with accepted := s.now } w ms)
        else refuse s 1

/-- CTXSET refuses the packet of a queued child launch with a REASON (R359, R389; log 45, DESIGN CHOICE). -/
def State.refuseLaunch (s : State) : State × Nat × Word :=
  let child := s.operand 18 2
  if s.deviceQueue.any fun q => decide (q.1 = child) then
    accept s (({ s with deviceQueue := s.deviceQueue.filter fun q => decide (q.1 ≠ child) }).endLaunch child 1 (s.operand 20 1))
  else refuse s 1

/-- CTXSET: a descriptor, or in host-assisted launch parsing a launch that the host installs or refuses (R370, R385, R389; log 45,
DESIGN CHOICE). Before stage 6 it is refused (R386; log 68, DEDUCED). -/
def execCtxset (s : State) : Out :=
  command s 0x01 fun s =>
    if s.service.stage < 6 then refuse s 4
    else
      match s.operand 16 1 with
      | 0 => s.installContext
      | 1 => if s.service.assisted.contains 2 then s.installLaunch else refuse s 4
      | 2 => if s.service.assisted.contains 2 then s.refuseLaunch else refuse s 4
      | _ => refuse s 1

/-- CTXREMOVE: host removal of a context (R377, R385). -/
def execCtxremove (s : State) : Out :=
  command s 0x02 fun s =>
    let ctx := s.operand 8 2
    if (s.context ctx).isNone then refuse s 1 else accept s (s.removeNow ctx (s.removalRecord 0))

/-! ### Sorter control operations (R277, R385) -/

/-- The control operation that the operands of SORTER name, with its data at the host address: a head of 16 bytes, then at +0x10 the .sorter
record of LOAD or the 64 bytes of STATE (log 53, DESIGN CHOICE). -/
def State.sorterOperation (s : State) : Option SorterOp :=
  let ctx := s.operand 8 2
  let addr := s.operand 11 8
  let head := s.hostBytes addr 16
  let f (off n : Nat) : Nat := bytesToNat ((head.drop off).take n)
  let body (n : Nat) : List Byte := s.hostBytes (addr + 16) n
  let flag := decide (f 14 1 % 2 = 1)
  match s.operand 10 1 with
  | 0 => some (.load ctx (f 1 1) (body (32 + 4 * bytesToNat ((body 4).drop 2))))
  | 1 =>
    some (.attach { ctx := ctx, cls := BitVec.ofNat 8 (f 0 1), lo := f 4 4, hi := f 8 4, sorter := f 1 1, fb := f 2 1, fc := f 3 1, kernel := f 12 2 } flag)
  | 2 => some (.detach ctx (f 0 1) (f 4 4) (f 8 4))
  | 3 => some (.rearm ctx (f 1 1) (if flag then some (f 2 1) else none) (f 2 1) (f 3 1))
  | 4 => some (.state ctx (f 1 1) (f 2 1) (if flag then some (BitVec.ofNat 512 (bytesToNat (body 64))) else none))
  | _ => none

/-- Where STATE writes what it reads: the 64 bytes after the head (log 53, DESIGN CHOICE). -/
def State.sorterData (s : State) : Nat := physKey 2 ((s.operand 11 8 + 16) % 2 ^ 52)

/-- Runs the SORTER command, between two packets of its sorter (R277, R385). -/
def sorterCommand (s : State) : Out :=
  match s.sorterOperation with
  | none => command s 0x03 fun s => refuse s 1
  | some op =>
    if s.sorterIdle (opSorter s op) then
      command s 0x03 fun s =>
        let r := runSorterOp s op s.sorterData
        (r.1, r.2.status, r.2.result)
    else .next s

/-- A control operation of a sorter: the SORTER command that runs names it (R277, R385). -/
def sorterControl (s : State) (op : Nat) : Out := if s.operand 10 1 = op then sorterCommand s else .next s

/-- LOAD (R277, R278). -/
def execLoad (s : State) : Out := sorterControl s 0

/-- ATTACH (R277). -/
def execAttach (s : State) : Out := sorterControl s 1

/-- DETACH (R277). -/
def execDetach (s : State) : Out := sorterControl s 2

/-- REARM (R277). -/
def execRearm (s : State) : Out := sorterControl s 3

/-- STATE (R277). -/
def execState (s : State) : Out := sorterControl s 4

/-- SORTER: runs the sorter operation that its operands name (R277, R385). -/
def execSorter (s : State) : Out := sorterCommand s

/-- FABCFG: a chip identifier, T in ns, and an entry of the scale-out table, a proxy chip with its endpoint (R13, R248, R272, R385). After the
ports are enabled another identifier is refused (R385; log 68, DEDUCED). -/
def execFabcfg (s : State) : Out :=
  command s 0x04 fun s =>
    let chip := BitVec.ofNat 12 (s.operand 8 2)
    let t := s.operand 10 4
    if t < 2000 ∨ 1000000 < t then refuse s 1
    else if s.service.portsEnabled ∧ chip ≠ s.chip then refuse s 4
    else
      accept s { s with
        chip := chip, timeout := t * 5 / 4
        service := { s.service with chipGiven := true, proxies := tset s.service.proxies (s.operand 14 2) (s.operand 16 8) } }

/-- SERVICE_FENCE: fences a unit (R14, R16, R385). -/
def execServiceFence (s : State) : Out :=
  command s 0x05 fun s =>
    let cls := s.operand 8 1
    let idx := s.operand 9 2
    if idx < unitCountOf cls then accept s (s.fenceUnit cls idx s.args.cells) else refuse s 1

/-! ### Declared failures (R316) -/

/-- A failure of a chip in the contexts that `hit` names: its halves return, every pending release from it is discarded, and
entries naming it lose V (R316, R317). -/
def State.failFor (s : State) (hit : Nat → Bool) (c : BitVec 12) : State :=
  let keys := (s.blocks.filter fun e => hit e.2.ctx && decide (e.2.out.map (·.chip) = some c)).map Prod.fst
  let s1 := keys.foldl (fun s k => s.endExchange k 3) s
  let fromC (r : PendRel) : Bool := hit r.packet.ctxid.toNat && decide (r.packet.schip = c)
  { s1 with
    counters := s1.counters.map fun e => (e.1, { e.2 with pending := e.2.pending.filter fun r => !fromC r })
    blocks := s1.blocks.map fun e =>
      (e.1, if hit e.2.ctx then { e.2 with nbr := e.2.nbr.map fun n => if nbChip n.2 = c then (n.1, n.2 &&& 0x7FFFFFFFFFFFFFFF#64) else n }
            else e.2) }

/-- A declared failure of a chip, for every context (R316). -/
def State.declare (s : State) (c : BitVec 12) : State :=
  (s.failFor (fun _ => true) c).updService fun v => { v with declared := v.declared ++ [c.toNat] }

/-- DECLARE: chip `chip` has failed (R316, R385). -/
def execDeclare (s : State) : Out := command s 0x06 fun s => accept s (s.declare (BitVec.ofNat 12 (s.operand 8 2)))

/-- FAILURE_DECLARATION, once the ports have trained (R386): every switch reports chip `chip` fenced; in hardware mode it is declared failed (R316, R389). With
`flag`, chip `chip` has removed context `ctx`, and this module treats it as failed for that context (R317, log 58, DEDUCED). -/
def execFailureDeclaration (s : State) : Out :=
  if !s.service.portsEnabled then .next s
  else if s.args.flag then .next (s.failFor (fun c => decide (c = s.args.ctx)) s.args.chip)
  else
    let s1 := s.updService fun v => { v with switchFenced := insertNat v.switchFenced s.args.chip.toNat }
    .next (if s.service.assisted.contains 4 || s.service.declared.contains s.args.chip.toNat then s1 else s1.declare s.args.chip)

/-! ### Rails (R268, R389) -/

/-- RAILCAL: a rail of a scale-up port goes out for recalibration, unless a rail of the port is out or fenced (R389). -/
def execRailcal (s : State) : Out :=
  command s 0x07 fun s =>
    let n := s.operand 8 1
    let rail := s.operand 9 1
    let p := s.port n
    if railPorts ≤ n ∨ 5 ≤ rail ∨ p.fenced then refuse s 1
    else if !p.railsOut.isEmpty || !p.railsFenced.isEmpty then refuse s 2
    else accept s (s.setPort n { p with railsOut := [rail] })

/-- RAIL_RETURN: a recalibrated rail is in service again (R389). -/
def execRailReturn (s : State) : Out :=
  let p := s.port s.args.port
  .next (s.setPort s.args.port { p with railsOut := p.railsOut.filter fun r => decide (r ≠ s.args.rail) })

/-! ### Firmware (R387, R389) -/

/-- FWSTAGE: verifies and stages the image at a host address, of `amount` bytes; a bad one leaves everything in place (R387; log 53,
DESIGN CHOICE). -/
def execFwstage (s : State) : Out :=
  command s 0x08 fun s =>
    let image := s.hostBytes (s.operand 8 8) s.args.amount
    if imageAccepted image then accept s (s.updService fun v => { v with staged := some image }) else refuse s 3

/-- The supervisor core of a cluster starts with an image; DEVID shows the version of the image that started last (R383, R389; log 94,
DESIGN CHOICE). -/
def State.activate (s : State) (image : List Byte) (cluster : Nat) : State :=
  { s with
    supervisors := tset s.supervisors cluster ({ ({} : Core).startChain ((Config.freeWord s.tick 7).setWidth 48) with running := true })
    service := { s.service with active := tset s.service.active cluster image, fwVersion := Config.imageVersion image } }

/-- FWACT: activates the staged image on the clusters of its mask, one at a time (R389): a step stops the supervisor core of the next
cluster, or starts the one that was stopped; between the two the cluster restarts. -/
def execFwact (s : State) : Out :=
  if s.hostUp ∧ s.service.busy = some 0x0C then
    match s.service.staged with
    | none => command s 0x0C fun s => refuse s 1
    | some image =>
      match s.service.restart with
      | none =>
        match (List.range 64).filter fun k => (s.operand 8 8).testBit k with
        | [] => command s 0x0C fun s => accept s s
        | k :: rest => .next (s.updService fun v => { v with restart := some k, toRestart := rest })
      | some k =>
        let s1 := s.activate image k
        match s.service.toRestart with
        | [] => command (s1.updService fun v => { v with restart := none }) 0x0C fun s => accept s s
        | n :: rest => .next (s1.updService fun v => { v with restart := some n, toRestart := rest })
  else .next s

/-! ### Modes and counts (R389) -/

/-- MODE: a function to hardware mode (0) or to host-assisted mode (1) (R389; log 53, DESIGN CHOICE). -/
def execMode (s : State) : Out :=
  command s 0x09 fun s =>
    let fn := s.operand 8 1
    let mode := s.operand 9 1
    if 6 ≤ fn ∨ 2 ≤ mode then refuse s 1
    else
      let others := s.service.assisted.filter fun f => decide (f ≠ fn)
      accept s (s.updService fun v => { v with assisted := if mode = 1 then insertNat others fn else others })

/-- What ERRCNT returns: 23 bits of each count, and the scrubbing mode in bit 46 (log 54, DESIGN CHOICE). -/
def countsWord (corrected uncorrectable : Nat) (assisted : Bool) : Word :=
  BitVec.ofNat 64 (corrected % 2 ^ 23 + 2 ^ 23 * (uncorrectable % 2 ^ 23) + 2 ^ 46 * assisted.toNat)

/-- One pass of scrubbing over a memory in host-assisted mode (R389): the pairs (sector, 1 correctable or 2 uncorrectable) are what it finds
(log 11, DESIGN CHOICE); with `flag` the count has reached the threshold of KIND 5 (log 52, DESIGN CHOICE). -/
def State.scrubPass (s : State) (m : Nat) : State :=
  let found := s.args.pairs.filter fun e => decide (sectorMemory e.1 = m)
  let s1 := found.foldl (fun s e => s.scrub e.1 (if e.2 = 1 then .correctable else if e.2 = 2 then .uncorrectable else .valid)) s
  if s.args.flag && !found.isEmpty then s1.countReport m else s1

/-- ERRCNT of a memory: its counts and the scrubbing mode; with clear flag 1 they are cleared, and in host-assisted mode one pass scrubs
the memory (R102, R385, R389). -/
def execErrcnt (s : State) : Out :=
  command s 0x0A fun s =>
    let m := s.operand 8 1
    let clear := decide (s.operand 9 1 % 2 = 1)
    if 3 ≤ m then refuse s 1
    else
      let assisted := s.service.assisted.contains 3
      let s1 := if assisted && clear then s.scrubPass m else s
      let v := s1.service
      let result := countsWord (tget v.corrected 0 m) (tget v.uncorrectable 0 m) assisted
      (if clear then s1.updService fun v => { v with corrected := tset v.corrected m 0, uncorrectable := tset v.uncorrectable m 0 } else s1,
        0, result)

/-- WALKANS: answers the host-assisted walks of a page of a context with a leaf entry; an invalid entry fails under R91 (R389; log 55,
DEDUCED). -/
def execWalkans (s : State) : Out :=
  command s 0x0B fun s =>
    let ctx := s.operand 8 2
    let page := s.operand 10 8 % 2 ^ 48 / 4096
    let e : Word := BitVec.ofNat 64 (s.operand 18 8)
    let ms := s.misses.filter fun m => m.assisted && decide (m.ctx = ctx) && decide (m.page = page)
    let w : Walk := if pteV e && pteLeaf e && !pteMalformed e 4 then .leaf e 4 else .fail
    if ms.isEmpty then refuse s 1 else accept s (ms.foldl (fun s m => s.answerMiss m w) s)

/-- RESEND: the interface of a cell sends again the counted write that its record holds for a counter, sequence number and chip
(R249, R385). -/
def execResend (s : State) : Out :=
  command s 0x0D fun s =>
    let ctx := s.operand 8 2
    let cell := s.operand 10 2
    let chip := BitVec.ofNat 12 (s.operand 16 2)
    let hit (r : SendRec) : Bool :=
      decide (r.packet.ctr.toNat = s.operand 12 2) && decide (r.packet.seq.toNat = s.operand 14 2) && r.sentTo chip
    match (s.niOf ctx cell).recs.find? hit with
    | none => refuse s 1
    | some r => accept s (s.sendWrite ctx cell (r.again chip) (BitVec.ofNat 3 (s.operand 18 1)))

/-! ### SPDM and the DOE mailboxes (R382, R388) -/

/-- What a measurement covers: the boot ROM, the firmware of each cluster, and the fused key hashes (R388). -/
def State.measured (s : State) : List (List Byte) :=
  Config.bootRom :: ((List.range 64).map (tget s.service.active []) ++ [Config.keyHashes])

/-- The SPDM requests and answers so far: an SPDM request has a code of 0 to 8 (R388). -/
def Service.transcript (v : Service) : List (List Byte × List Byte) :=
  (v.doe.filter fun e => decide (e.code ≤ 8)).map fun e => (e.request, e.body)

/-- Answers an SPDM request over DOE, once the link is up; a measurement response carries an ML-DSA-65 signature over the same transcript
in its opaque data (R386, R388; log 15, DESIGN CHOICE). -/
def spdm (s : State) (code : Nat) : Out :=
  if s.hostUp then
    let before := s.service.transcript
    let body := Config.spdmAnswer code s.args.bytes s.measured before
    let signed := if code = 6 then Config.mldsaSign (before ++ [(s.args.bytes, body)]) else []
    let e : DoeEntry := { code := code, request := s.args.bytes, body := body, opaqueData := signed }
    .next (s.updService fun v => { v with doe := v.doe ++ [e] })
  else .next s

/-- GET_VERSION (R388). -/
def execGetVersion (s : State) : Out := spdm s 0

/-- GET_CAPABILITIES (R388). -/
def execGetCapabilities (s : State) : Out := spdm s 1

/-- NEGOTIATE_ALGORITHMS (R388). -/
def execNegotiateAlgorithms (s : State) : Out := spdm s 2

/-- GET_DIGESTS (R388). -/
def execGetDigests (s : State) : Out := spdm s 3

/-- GET_CERTIFICATE (R388). -/
def execGetCertificate (s : State) : Out := spdm s 4

/-- CHALLENGE (R388). -/
def execChallenge (s : State) : Out := spdm s 5

/-- GET_MEASUREMENTS (R388). -/
def execGetMeasurements (s : State) : Out := spdm s 6

/-- KEY_EXCHANGE (R388). -/
def execKeyExchange (s : State) : Out := spdm s 7

/-- FINISH (R388). -/
def execFinish (s : State) : Out := spdm s 8

/-! ### CXL.mem (R382) -/

/-- Whether a range of keys is device memory that the host reaches, or the host's own memory. -/
def hostRange (a n : Nat) : Bool :=
  decide (a + n ≤ 2 ^ 40) || (decide (2 ^ 52 ≤ a) && decide (a + n ≤ 2 ^ 52 + 2 ^ 33)) || (decide (2 ^ 53 ≤ a) && decide (a + n ≤ 3 * 2 ^ 52))

/-- HOST_MEMORY_ACCESS: a host load or store of a vault, of LPDDR, or of the host's own memory, by its key (R86, R382), or a request to the
CDAT mailbox (R382; log 15, DESIGN CHOICE), or an IDE key management message (R382; log 105, DESIGN CHOICE), once the link and IDE are up
(R386). A host store is visible everywhere, back-invalidating cached lines; it is not checked against ownership (R333); memory that is
switched off keeps nothing (log 79, DESIGN CHOICE). -/
def execHostMemoryAccess (s : State) : Out :=
  if s.hostUp then
    match s.args.access with
    | .read pa n =>
      if hostRange pa n then .next (s.updService fun v => { v with hostReads := v.hostReads ++ [(span pa n).map s.hostByte] }) else .next s
    | .write pa bytes =>
      if hostRange pa bytes.length then .next (s.addGlobalWhole ((cellsFrom pa bytes).filter fun c => !s.keyOut c.1)) else .next s
    | .cdat request => .next (s.updService fun v => { v with doe := v.doe ++ [{ code := 9, request := request, body := Config.cdatAnswer request }] })
    | .ideKeys request =>
      let e : DoeEntry := { code := 10, request := request, body := Config.ideAnswer request s.service.transcript }
      .next (s.updService fun v => { v with doe := v.doe ++ [e] })
  else .next s

end Sys2Proof.Machine
end

