-- ==== Sys2Proof/Machine/Traps.lean ====
section
/-! DEFINITION. ERET and the system instructions (R371), interrupts and deferred events (R127, R368, R369), annulled entries
(R121), containment regions (R378) and the signature checker's instructions (R381). -/

namespace Sys2Proof.Machine

/-- Cause 2 with the word at the head (R371). -/
def illegal (s : State) : Out := trap s 2 (s.cur.word.setWidth 64)

/-- n of SYSCALL, SYSBRK and SYSABORT: IMM[15:0] (R371). -/
def sysCode (s : State) : BitVec 16 := (Raw.ofWord s.cur.word).hi.setWidth 16

/-- Whether the core whose turn it is is a supervisor core. -/
def State.isSuper (s : State) : Bool := decide (s.cur.core.role = .s)

/-- The A-core returns from a pre-emption that saved nothing: the pending-load record goes to the registers and events that it
was kept from (R374; log 49, DEDUCED). -/
def State.applyRecord (s : State) : State :=
  match s.cur.core.role with
  | .a =>
    let ctx := s.myCtxId
    let cell := s.myCell
    let n := s.niOf ctx cell
    n.late.foldl (fun s e =>
      let ni := s.niOf ctx cell
      match tfind ni.tags e.tag with
      | none => s
      | some g =>
        let s1 := (s.setNi ctx cell { ni with tags := tdel ni.tags e.tag }).updMe (·.dropTag e.tag)
        if e.status = 0 then
          match g.dst with
          | some (.x r) => s1.updMe (·.setX r e.data)
          | _ => s1
        else s1.postEvent s.cur.core e.cause g.fa) ((s.setNi ctx cell { n with late := [] }).updMe fun k => { k with saving := false })
  | _ => s

/-- ERET, on a supervisor core as on the others: R371 gives that core SYSFLUSH alone of the SYS functions, which ERET is none of
(R30, R371). -/
def execEret (s : State) : Out :=
  if !s.me.trapMode then illegal s
  else
    let s1 := s.retire.updMe (·.leaveTrap)
    .next s1.applyRecord

/-- SYSCALL: retires, then traps with cause 8 (R371). -/
def execSyscall (s : State) : Out :=
  if s.isSuper || s.me.trapMode then illegal s else trap s.retire 8 ((sysCode s).setWidth 64)

/-- SYSBRK: traps with cause 3 without retiring (R371). -/
def execSysbrk (s : State) : Out :=
  if s.isSuper || s.me.trapMode then illegal s else trap s 3 ((sysCode s).setWidth 64)

/-- Discards every cached translation of a context on every cluster, and every answer of a failed walk that is still kept (R93, R371). -/
def State.flushTlb (s : State) (ctx : Nat) : State :=
  { s with tlb := s.tlb.filter fun t => decide (t.ctx ≠ ctx), failedWalks := s.failedWalks.filter fun f => decide (f.2.1 ≠ ctx) }

/-- SYSFLUSH (R371). -/
def execSysflush (a : Reg) (s : State) : Out :=
  match badQueue s.cur.core.role [a] none with
  | some r => trap s 35 (r.setWidth 64)
  | none =>
  if !s.isSuper && !s.me.trapMode then illegal s
  else
    match s.blocked [a] none with
    | some o => o
    | none =>
      let ctx := ((s.sval [] a).setWidth 16).toNat
      if !s.isSuper && decide (ctx ≠ s.myCtxId) then illegal s else .next ((s.flushTlb ctx).finishNone [a])

/-- SYSABORT: a fatal fault of the context with code n; the core runs no further (R371, R377). -/
def execSysabort (s : State) : Out :=
  if s.isSuper || !s.me.trapMode then illegal s
  else .next (s.fatalHere 0 0 (sysCode s).toNat (s.me.c0.setWidth 64))

/-- SYSPARK: this core's part of the save ends (R371, R373). -/
def execSyspark (s : State) : Out :=
  if s.isSuper || !s.me.trapMode || decide (s.me.tcause ≠ 0x8000000000000003#64) then illegal s
  else .next (s.retire.updMe fun k => { k with parked := true })

/-! ### Interrupts, deferred events, annulled entries -/

/-- INTERRUPT on the core whose turn it is: the pre-emption request, then the watchdog (R127, R364, R366, R373; log 50, DEDUCED). TVAL of
the pre-emption request is a free value (log 48, DESIGN CHOICE). From then on replies of an A-core go to its pending-load record (R374),
and results of collected operations to a record of their own (R342; log 97, DEDUCED). -/
def execInterrupt (s : State) : Out :=
  let k := s.me
  if k.trapMode || s.isSuper then .next s
  else if k.preempt then
    .next ((s.updMe fun k => { k with preempt := false, saving := decide (s.cur.core.role = .a), handling := true }).interrupt 3
      (Config.freeWord s.tick 0))
  else
    match k.watchdog with
    | some lid => .next ((s.updMe fun k => { k with watchdog := none }).interrupt 37 (BitVec.ofNat 64 lid))
    | none => .next s

/-- DEFERRED_EVENT on the core whose turn it is: the oldest waiting event (R369). -/
def execDeferredEvent (s : State) : Out :=
  let k := s.me
  match k.events with
  | [] => .next s
  | e :: rest =>
    if k.trapMode then .next s else (s.updMe fun k => { k with events := rest }).exception e.cause e.tval true

/-- The head is passed over: folded, and the chain moves on (R121, R123). -/
def Core.pass (k : Core) (word : BitVec 128) : Core := (k.foldHead word).advance false 0 false

/-- ANNULLED_PASS on the core whose turn it is (R121, R123). -/
def execAnnulledPass (s : State) : Out :=
  let k := s.me
  let a := k.c0
  match s.fetch s.cur.core a with
  | .miss => .next (s.requestWalk s.cur.core s.myCtxId a.toNat)
  | .trap cause => trap s cause (a.setWidth 64)
  | .word w =>
    if k.s1 && decide (wordLen w = 0) then trap s 2 ((w.setWidth 32).setWidth 64)
    else
      .next (s.updMe fun k =>
        let k1 := if k.s1 then { k with c1 := k.c0 + BitVec.ofNat 48 (wordLen w), s1 := false } else k
        k1.pass w)

/-! ### Containment regions (R378) -/

/-- CREG: HANDLER := the target of DISP, OPEN := 1 (R378). -/
def execCreg (imm : BitVec 25) (s : State) : Out :=
  let h := (dispTarget s imm.toInt).setWidth 64 &&& 0xFFFFFFFFFFFC#64
  .next (s.retire.updMe fun k => { k with cregh := h ||| 1#64 })

/-- Whether a remote load of the core whose turn it is is pending (R378); a cancelled one is not. -/
def State.loadsPending (s : State) : Bool :=
  match s.cur.core.role with
  | .a => s.myNi.tags.any fun e => !e.2.cancelled
  | _ => false

/-- CEND (R378): waits for pending remote loads, and outside trap mode for deferred events, then OPEN := 0. -/
def execCend (s : State) : Out :=
  let k := s.me
  if s.loadsPending || (!k.trapMode && !k.events.isEmpty) then wait s
  else .next (s.retire.updMe fun k => { k with cregh := k.cregh &&& 0xFFFFFFFFFFFFFFFE#64 })

/-! ### The signature checker (R381) -/

/-- SIGEN: EN := a[0]; clearing abandons the fold, and setting takes effect at the next block entry (R381; log 71, DEDUCED). -/
def execSigen (a : Reg) (s : State) : Out :=
  match s.blocked [a] none with
  | some o => o
  | none =>
    let on := (s.sval [] a).getLsbD 0
    .next ((s.finishNone [a]).updMe fun k =>
      if on then { k with sigEn := true, sigWait := k.sigWait || !k.sigEn } else { k with sigEn := false, fold := none, sigWait := false })

/-- SIGRD (R381). -/
def execSigrd (d : Reg) (s : State) : Out :=
  let k := s.me
  let start : Nat := match k.fold with
    | some f => f.start
    | none => 0
  alu0 s d (BitVec.ofNat 64 (2 ^ 63 * k.sigEn.toNat + 2 ^ 62 * k.fold.isSome.toNat + start))

end Sys2Proof.Machine
end

