-- ==== Sys2Proof/Machine/Vector.lean ====
section
/-! DEFINITION. The vector instructions (R223 to R238): V, VI, VCMP, VSH, VRED, VMOV, VCV, VQP and VSTR. -/

namespace Sys2Proof.Machine

/-! ### Lanes (R223) -/

/-- Lane width in bits of an ESZ field. -/
def eszWidth (esz : BitVec 2) : Nat := 8 * 2 ^ esz.toNat

/-- Lane i of width w. -/
def lane (w : Nat) (v : Vec) (i : Nat) : BitVec w := v.extractLsb' (w * i) w

/-- A vector from its lanes, lane 0 first. -/
def ofLanes {w : Nat} (ls : List (BitVec w)) : Vec := BitVec.ofNat 512 (ls.foldr (fun x acc => x.toNat + 2 ^ w * acc) 0)

/-- All lanes of width w. -/
def lanes (w : Nat) (v : Vec) : List (BitVec w) := (List.range (512 / w)).map (lane w v)

/-- A function applied lane by lane to one source. -/
def mapLanes (w : Nat) (b : Vec) (f : BitVec w → BitVec w) : Vec := ofLanes ((lanes w b).map f)

/-- A function applied lane by lane to two sources. -/
def zipLanes (w : Nat) (a b : Vec) (f : BitVec w → BitVec w → BitVec w) : Vec := ofLanes (List.zipWith f (lanes w a) (lanes w b))

/-- sat_sw (R223). -/
def satSw (w : Nat) (n : Int) : BitVec w :=
  if n < -2 ^ (w - 1) then BitVec.ofInt w (-2 ^ (w - 1))
  else if 2 ^ (w - 1) - 1 < n then BitVec.ofInt w (2 ^ (w - 1) - 1)
  else BitVec.ofInt w n

/-- sat_uw (R223). -/
def satUw (w : Nat) (n : Int) : BitVec w :=
  if n < 0 then 0 else if 2 ^ w - 1 < n then BitVec.ofInt w (2 ^ w - 1) else BitVec.ofInt w n

/-- All ones or all zeros (R231). -/
def maskLane (w : Nat) (p : Bool) : BitVec w := if p then BitVec.allOnes w else 0

/-- FP32 lanes with the flags they raise together (R195). -/
def packLanes (ls : List Lane) : Vec × Flags := (ofLanes (ls.map (·.bits)), ls.foldl (fun f l => f ||| l.flags) 0)

/-! ### Finishing a vector instruction (R225) -/

/-- Pops the sources, raises the flags and advances SRCNT when the rounding was stochastic (R196, R199, R225). -/
def State.vtake (s : State) (ss : List Reg) (vs : List Nat) (f : Flags) (sr : Bool) : State :=
  ((s.popAll ss).popPorts vs).updMe fun k =>
    let k1 := k.raise f
    if sr then { k1 with srcnt := k1.srcnt + 1 } else k1

/-- Writes a vector result and retires (R225 step 6). -/
def State.vfinish (s : State) (ss : List Reg) (vs : List Nat) (d : Reg) (v : Vec) (f : Flags) (sr : Bool) : State :=
  ((s.vtake ss vs f sr).writeV d.toNat v).retire

/-- A vector instruction that rounds: its mode is known, or it traps under R192 (R225 step 1). A queue end (cause 35) comes before a
reserved DMODE, which R225 leaves open (log 104, DESIGN CHOICE). -/
def State.withMode (s : State) (ss : List Reg) (rm : BitVec 3) (narrowing : Bool) (k : RMode → Out) : Out :=
  match s.me.mode rm narrowing with
  | some m => k m
  | none =>
    match badQueue s.cur.core.role ss none with
    | some r => trap s 35 (r.setWidth 64)
    | none => trap s 2 (s.cur.word.setWidth 64)

/-- The choice for lane j of an instruction (R194, R198). -/
def State.choice (s : State) (m : RMode) (j : Nat) : Choice :=
  { mode := m, random := if m = .sr then rnd s.me.srseed s.me.srcnt j else 0 }

/-- An instruction of one vector source and a vector result. -/
def vec1 (s : State) (d : Reg) (b : VSrc) (f : Vec → Vec × Flags) (sr : Bool) : Out :=
  let vs := vsrcRegs b
  match s.vblocked [] none vs (some b) (some d.toNat) with
  | some o => o
  | none =>
    let r := f (s.vsrcVal [] b)
    .next (s.vfinish [] vs d r.1 r.2 sr)

/-- An instruction of two vector sources and a vector result. -/
def vec2 (s : State) (d a : Reg) (b : VSrc) (f : Vec → Vec → Vec × Flags) : Out :=
  let vs := a.toNat :: vsrcRegs b
  match s.vblocked [] none vs (some b) (some d.toNat) with
  | some o => o
  | none =>
    let r := f (s.vval [] a.toNat) (s.vsrcVal [a.toNat] b)
    .next (s.vfinish [] vs d r.1 r.2 false)

/-- An instruction of three vector sources and a vector result. -/
def vec3 (s : State) (d a : Reg) (b : VSrc) (c : Reg) (f : Vec → Vec → Vec → Vec × Flags) : Out :=
  let ab := a.toNat :: vsrcRegs b
  let vs := ab ++ [c.toNat]
  match s.vblocked [] none vs (some b) (some d.toNat) with
  | some o => o
  | none =>
    let r := f (s.vval [] a.toNat) (s.vsrcVal [a.toNat] b) (s.vval ab c.toNat)
    .next (s.vfinish [] vs d r.1 r.2 false)

/-! ### V (R227 to R229) -/

/-- A function of two FP32 lanes over all lanes. -/
def fpLanes2 (f : BitVec 32 → BitVec 32 → Lane) (a b : Vec) : Vec × Flags := packLanes (List.zipWith f (lanes 32 a) (lanes 32 b))

/-- A function of one FP32 lane over all lanes. -/
def fpLanes1 (f : BitVec 32 → Lane) (b : Vec) : Vec × Flags := packLanes ((lanes 32 b).map f)

/-- VADD (R227, R228). -/
def execVadd (d a : Reg) (b : VSrc) (rm : BitVec 3) (s : State) : Out :=
  s.withMode [] rm false fun m => vec2 s d a b (fpLanes2 fun x y => fpAdd (fp x) (fp y) m)

/-- VSUB (R227, R228). -/
def execVsub (d a : Reg) (b : VSrc) (rm : BitVec 3) (s : State) : Out :=
  s.withMode [] rm false fun m => vec2 s d a b (fpLanes2 fun x y => fpAdd (fp x) (fp y).negate m)

/-- VMUL (R227, R228). -/
def execVmul (d a : Reg) (b : VSrc) (rm : BitVec 3) (s : State) : Out :=
  s.withMode [] rm false fun m => vec2 s d a b (fpLanes2 fun x y => fpMul (fp x) (fp y) m)

/-- VFMA (R227, R228). -/
def execVfma (d a : Reg) (b : VSrc) (c : Reg) (rm : BitVec 3) (s : State) : Out :=
  s.withMode [] rm false fun m => vec3 s d a b c fun x y z =>
    packLanes ((List.range 16).map fun i => fpFma (fp (lane 32 x i)) (fp (lane 32 y i)) (fp (lane 32 z i)) m)

/-- VMIN (R227, R228). -/
def execVmin (d a : Reg) (b : VSrc) (s : State) : Out := vec2 s d a b (fpLanes2 fun x y => fpMinMax x y false)

/-- VMAX (R227, R228). -/
def execVmax (d a : Reg) (b : VSrc) (s : State) : Out := vec2 s d a b (fpLanes2 fun x y => fpMinMax x y true)

/-- VABS: bits [30:0] of b, no flag (R227, R228). -/
def execVabs (d : Reg) (b : VSrc) (s : State) : Out := vec1 s d b (fun v => (mapLanes 32 v (· &&& 0x7FFFFFFF#32), 0)) false

/-- VNEG: bit 31 inverted, no flag (R227, R228). -/
def execVneg (d : Reg) (b : VSrc) (s : State) : Out := vec1 s d b (fun v => (mapLanes 32 v (· ^^^ 0x80000000#32), 0)) false

/-- VEXP2 (R229). -/
def execVexp2 (d : Reg) (b : VSrc) (s : State) : Out := vec1 s d b (fpLanes1 fpExp2) false

/-- VRCP (R229). -/
def execVrcp (d : Reg) (b : VSrc) (s : State) : Out := vec1 s d b (fpLanes1 fpRcp) false

/-- VRSQ (R229). -/
def execVrsq (d : Reg) (b : VSrc) (s : State) : Out := vec1 s d b (fpLanes1 fpRsq) false

/-! ### VI (R230) -/

/-- An integer function of two lanes at the width of ESZ, without flags. -/
def vi2 (s : State) (d a : Reg) (b : VSrc) (esz : BitVec 2) (f : (w : Nat) → BitVec w → BitVec w → BitVec w) : Out :=
  vec2 s d a b fun x y => (zipLanes (eszWidth esz) x y (f (eszWidth esz)), 0)

/-- VIADD. -/
def execViadd (d a : Reg) (b : VSrc) (esz : BitVec 2) (s : State) : Out := vi2 s d a b esz fun _ x y => x + y

/-- VIADDS. -/
def execViadds (d a : Reg) (b : VSrc) (esz : BitVec 2) (s : State) : Out := vi2 s d a b esz fun w x y => satSw w (x.toInt + y.toInt)

/-- VIADDUS. -/
def execViaddus (d a : Reg) (b : VSrc) (esz : BitVec 2) (s : State) : Out := vi2 s d a b esz fun w x y => satUw w (x.toNat + y.toNat)

/-- VISUB. -/
def execVisub (d a : Reg) (b : VSrc) (esz : BitVec 2) (s : State) : Out := vi2 s d a b esz fun _ x y => x - y

/-- VISUBS. -/
def execVisubs (d a : Reg) (b : VSrc) (esz : BitVec 2) (s : State) : Out := vi2 s d a b esz fun w x y => satSw w (x.toInt - y.toInt)

/-- VISUBUS. -/
def execVisubus (d a : Reg) (b : VSrc) (esz : BitVec 2) (s : State) : Out :=
  vi2 s d a b esz fun w x y => satUw w ((x.toNat : Int) - (y.toNat : Int))

/-- VIMUL. -/
def execVimul (d a : Reg) (b : VSrc) (esz : BitVec 2) (s : State) : Out := vi2 s d a b esz fun _ x y => x * y

/-- VIMULH. -/
def execVimulh (d a : Reg) (b : VSrc) (esz : BitVec 2) (s : State) : Out :=
  vi2 s d a b esz fun w x y => BitVec.ofInt w (x.toInt * y.toInt / 2 ^ w)

/-- VIMULHU. -/
def execVimulhu (d a : Reg) (b : VSrc) (esz : BitVec 2) (s : State) : Out :=
  vi2 s d a b esz fun w x y => BitVec.ofNat w (x.toNat * y.toNat / 2 ^ w)

/-- VIMIN. -/
def execVimin (d a : Reg) (b : VSrc) (esz : BitVec 2) (s : State) : Out := vi2 s d a b esz fun _ x y => if x.toInt ≤ y.toInt then x else y

/-- VIMAX. -/
def execVimax (d a : Reg) (b : VSrc) (esz : BitVec 2) (s : State) : Out := vi2 s d a b esz fun _ x y => if x.toInt ≤ y.toInt then y else x

/-- VIMINU. -/
def execViminu (d a : Reg) (b : VSrc) (esz : BitVec 2) (s : State) : Out := vi2 s d a b esz fun _ x y => if x.toNat ≤ y.toNat then x else y

/-- VIMAXU. -/
def execVimaxu (d a : Reg) (b : VSrc) (esz : BitVec 2) (s : State) : Out := vi2 s d a b esz fun _ x y => if x.toNat ≤ y.toNat then y else x

/-- VIAND. -/
def execViand (d a : Reg) (b : VSrc) (esz : BitVec 2) (s : State) : Out := vi2 s d a b esz fun _ x y => x &&& y

/-- VIOR. -/
def execVior (d a : Reg) (b : VSrc) (esz : BitVec 2) (s : State) : Out := vi2 s d a b esz fun _ x y => x ||| y

/-- VIXOR. -/
def execVixor (d a : Reg) (b : VSrc) (esz : BitVec 2) (s : State) : Out := vi2 s d a b esz fun _ x y => x ^^^ y

/-- VIANDN. -/
def execViandn (d a : Reg) (b : VSrc) (esz : BitVec 2) (s : State) : Out := vi2 s d a b esz fun _ x y => x &&& ~~~y

/-! ### VCMP (R231) -/

/-- A float compare: its condition on two values that are not NaN, its answer for a NaN, and whether a quiet NaN raises
NV. -/
def fpCompare (f : Val → Val → Bool) (onNan quietNv : Bool) (x y : BitVec 32) : Lane :=
  let a := fp x
  let b := fp y
  let nan := a.isNan || b.isNan
  { bits := maskLane 32 (if nan then onNan else f a b)
    flags := if nan && quietNv then flagNV else snanFlag [a, b] }

/-- VCMPFEQ. -/
def execVcmpfeq (d a : Reg) (b : VSrc) (s : State) : Out := vec2 s d a b (fpLanes2 (fpCompare eqVal false false))

/-- VCMPFLT. -/
def execVcmpflt (d a : Reg) (b : VSrc) (s : State) : Out :=
  vec2 s d a b (fpLanes2 (fpCompare (fun x y => leVal x y && !eqVal x y) false true))

/-- VCMPFLE. -/
def execVcmpfle (d a : Reg) (b : VSrc) (s : State) : Out :=
  vec2 s d a b (fpLanes2 (fpCompare (fun x y => leVal x y || eqVal x y) false true))

/-- VCMPFUN. -/
def execVcmpfun (d a : Reg) (b : VSrc) (s : State) : Out := vec2 s d a b (fpLanes2 (fpCompare (fun _ _ => false) true false))

/-- VCMPIEQ. -/
def execVcmpieq (d a : Reg) (b : VSrc) (esz : BitVec 2) (s : State) : Out := vi2 s d a b esz fun w x y => maskLane w (decide (x = y))

/-- VCMPILT. -/
def execVcmpilt (d a : Reg) (b : VSrc) (esz : BitVec 2) (s : State) : Out :=
  vi2 s d a b esz fun w x y => maskLane w (decide (x.toInt < y.toInt))

/-- VCMPILTU. -/
def execVcmpiltu (d a : Reg) (b : VSrc) (esz : BitVec 2) (s : State) : Out :=
  vi2 s d a b esz fun w x y => maskLane w (decide (x.toNat < y.toNat))

/-- VCMPSEL: lane := a if the lane of c is not 0, else b. -/
def execVcmpsel (d a : Reg) (b : VSrc) (c : Reg) (esz : BitVec 2) (s : State) : Out :=
  vec3 s d a b c fun x y z =>
    let w := eszWidth esz
    (ofLanes ((List.range (512 / w)).map fun i => if lane w z i ≠ 0 then lane w x i else lane w y i), 0)

/-! ### VSH (R232) -/

/-- A left shift of a lane. -/
def laneShl (w : Nat) (x : BitVec w) (n : Nat) : BitVec w := if n < w then x <<< n else 0

/-- A logical right shift of a lane. -/
def laneShr (w : Nat) (x : BitVec w) (n : Nat) : BitVec w := if n < w then x >>> n else 0

/-- An arithmetic right shift of a lane. -/
def laneSha (w : Nat) (x : BitVec w) (n : Nat) : BitVec w := if n < w then BitVec.ofInt w (x.toInt / 2 ^ n) else maskLane w (decide (x.toInt < 0))

/-- A shift whose amounts are the lanes of vB. -/
def shiftV (s : State) (d a b : Reg) (esz : BitVec 2) (f : (w : Nat) → BitVec w → Nat → BitVec w) : Out :=
  vi2 s d a (.reg b) esz fun w x y => f w x y.toNat

/-- A shift whose amount is a scalar. -/
def shiftS (s : State) (d a c : Reg) (esz : BitVec 2) (f : (w : Nat) → BitVec w → Nat → BitVec w) : Out :=
  match s.vblocked [c] none [a.toNat] none (some d.toNat) with
  | some o => o
  | none =>
    let n := (s.sval [] c).toNat
    let w := eszWidth esz
    .next (s.vfinish [c] [a.toNat] d (mapLanes w (s.vval [] a.toNat) fun x => f w x n) 0 false)

/-- VSHL. -/
def execVshl (d a b : Reg) (esz : BitVec 2) (s : State) : Out := shiftV s d a b esz laneShl

/-- VSHR. -/
def execVshr (d a b : Reg) (esz : BitVec 2) (s : State) : Out := shiftV s d a b esz laneShr

/-- VSHA. -/
def execVsha (d a b : Reg) (esz : BitVec 2) (s : State) : Out := shiftV s d a b esz laneSha

/-- VSHLS. -/
def execVshls (d a c : Reg) (esz : BitVec 2) (s : State) : Out := shiftS s d a c esz laneShl

/-- VSHRS. -/
def execVshrs (d a c : Reg) (esz : BitVec 2) (s : State) : Out := shiftS s d a c esz laneShr

/-- VSHAS. -/
def execVshas (d a c : Reg) (esz : BitVec 2) (s : State) : Out := shiftS s d a c esz laneSha

/-! ### VRED (R233) -/

/-- A lane in every lane. -/
def splat {w : Nat} (x : BitVec w) : Vec := ofLanes (List.replicate (512 / w) x)

/-- The FP32 sum of all lanes, rounded once (R233). -/
def fpSum (ls : List (BitVec 32)) (m : RMode) : Lane :=
  let vs := ls.map fp
  let nv := snanFlag vs
  let pos := vs.any fun v => decide (v = .inf false)
  let neg := vs.any fun v => decide (v = .inf true)
  if vs.any Val.isNan || (pos && neg) then { bits := canonNan, flags := nv ||| (if pos && neg then flagNV else 0) }
  else if pos then { bits := 0x7F800000#32, flags := 0 }
  else if neg then { bits := 0xFF800000#32, flags := 0 }
  else
    let r := sumFin (.num false 0 0) vs
    if r.isZero then
      let minus := (vs.all fun v => v.isZero && v.neg) || (decide (m = .rdn) && vs.any fun v => !v.isZero)
      { bits := if minus then 0x80000000#32 else 0, flags := 0 }
    else toFp32 r (plainChoice m)

/-- Folds fp_minmax over the lanes (R233). -/
def fpFold (ls : List (BitVec 32)) (larger : Bool) : Lane :=
  match ls with
  | [] => { bits := 0, flags := 0 }
  | x :: rest =>
    rest.foldl (fun acc y =>
      let r := fpMinMax acc.bits y larger
      { bits := r.bits, flags := acc.flags ||| r.flags }) { bits := x, flags := 0 }

/-- VREDSUM. -/
def execVredsum (d : Reg) (b : VSrc) (rm : BitVec 3) (s : State) : Out :=
  s.withMode [] rm false fun m => vec1 s d b (fun v =>
    let r := fpSum (lanes 32 v) m
    (splat r.bits, r.flags)) false

/-- VREDMAX. -/
def execVredmax (d : Reg) (b : VSrc) (s : State) : Out :=
  vec1 s d b (fun v =>
    let r := fpFold (lanes 32 v) true
    (splat r.bits, r.flags)) false

/-- VREDMIN. -/
def execVredmin (d : Reg) (b : VSrc) (s : State) : Out :=
  vec1 s d b (fun v =>
    let r := fpFold (lanes 32 v) false
    (splat r.bits, r.flags)) false

/-- An integer reduction into every lane: lane 0 folded with the others. -/
def vredInt (s : State) (d : Reg) (b : VSrc) (esz : BitVec 2) (f : (w : Nat) → BitVec w → BitVec w → BitVec w) : Out :=
  vec1 s d b (fun v =>
    let w := eszWidth esz
    match lanes w v with
    | [] => (0, 0)
    | x :: rest => (splat (rest.foldl (f w) x), 0)) false

/-- VREDISUM. -/
def execVredisum (d : Reg) (b : VSrc) (esz : BitVec 2) (s : State) : Out := vredInt s d b esz fun _ x y => x + y

/-- VREDIMAX. -/
def execVredimax (d : Reg) (b : VSrc) (esz : BitVec 2) (s : State) : Out := vredInt s d b esz fun _ x y => if x.toInt ≤ y.toInt then y else x

/-- VREDIMIN. -/
def execVredimin (d : Reg) (b : VSrc) (esz : BitVec 2) (s : State) : Out := vredInt s d b esz fun _ x y => if x.toInt ≤ y.toInt then x else y

/-- VREDOR. -/
def execVredor (d : Reg) (b : VSrc) (esz : BitVec 2) (s : State) : Out := vredInt s d b esz fun _ x y => x ||| y

/-- VREDCNT: the number of lanes that are not zero, into a scalar register. -/
def execVredcnt (d : Reg) (b : VSrc) (esz : BitVec 2) (s : State) : Out :=
  let vs := vsrcRegs b
  match s.vblocked [] (some d) vs (some b) none with
  | some o => o
  | none =>
    let n := ((lanes (eszWidth esz) (s.vsrcVal [] b)).filter fun x => decide (x ≠ 0)).length
    .next (((s.vtake [] vs 0 false).writeD d (BitVec.ofNat 64 n)).retire)

/-! ### VMOV (R234) -/

/-- VMOV. -/
def execVmov (d : Reg) (b : VSrc) (s : State) : Out := vec1 s d b (fun v => (v, 0)) false

/-- VMOVS: every lane := a[w − 1 : 0]. -/
def execVmovs (d a : Reg) (esz : BitVec 2) (s : State) : Out :=
  match s.vblocked [a] none [] none (some d.toNat) with
  | some o => o
  | none => .next (s.vfinish [a] [] d (splat ((s.sval [] a).setWidth (eszWidth esz))) 0 false)

/-- VMOVX: D := lane uns(c) of vA, zero-extended, or 0. -/
def execVmovx (d a c : Reg) (esz : BitVec 2) (s : State) : Out :=
  match s.vblocked [c] (some d) [a.toNat] none none with
  | some o => o
  | none =>
    let w := eszWidth esz
    let i := (s.sval [] c).toNat
    let v : Word := if i < 512 / w then (lane w (s.vval [] a.toNat) i).setWidth 64 else 0
    .next (((s.vtake [c] [a.toNat] 0 false).writeD d v).retire)

/-- VMOVI: vD := vA, then lane uns(c) := b[w − 1 : 0]. -/
def execVmovi (d a b c : Reg) (esz : BitVec 2) (s : State) : Out :=
  match s.vblocked [b, c] none [a.toNat] none (some d.toNat) with
  | some o => o
  | none =>
    let w := eszWidth esz
    let x : BitVec w := (s.sval [] b).setWidth w
    let i := (s.sval [b] c).toNat
    let v := s.vval [] a.toNat
    .next (s.vfinish [b, c] [a.toNat] d (ofLanes ((List.range (512 / w)).map fun j => if j = i then x else lane w v j)) 0 false)

/-- VMOVP: lane i := lane k of vA with k the lane i of vB. -/
def execVmovp (d a b : Reg) (esz : BitVec 2) (s : State) : Out :=
  vec2 s d a (.reg b) fun x y =>
    let w := eszWidth esz
    (ofLanes ((lanes w y).map fun k => if k.toNat < 512 / w then lane w x k.toNat else 0), 0)

/-- VMOVSR: a right shift of the whole register. -/
def execVmovsr (d : Reg) (b : VSrc) (c : Reg) (s : State) : Out :=
  let vs := vsrcRegs b
  match s.vblocked [c] none vs (some b) (some d.toNat) with
  | some o => o
  | none =>
    let n := (s.sval [] c).toNat
    .next (s.vfinish [c] vs d (if n < 512 then s.vsrcVal [] b >>> n else 0) 0 false)

/-! ### VCV (R235, R236) -/

/-- The funnel: 16 codes of width w shifted into the top (R236). -/
def funnel (w : Nat) (a : Vec) (codes : List Nat) : Vec :=
  let n := 16 * w
  let p := codes.foldr (fun c acc => c % 2 ^ w + 2 ^ w * acc) 0
  (a >>> n) ||| (BitVec.ofNat 512 p <<< (512 - n))

/-- VCVIF: FP32 lanes to INT32 lanes. -/
def execVcvif (d : Reg) (b : VSrc) (rm : BitVec 3) (s : State) : Out :=
  s.withMode [] rm true fun m => vec1 s d b (fun v =>
    packLanes ((List.range 16).map fun i =>
      let r := round (fp (lane 32 v i)) int32 (s.choice m i)
      { bits := BitVec.ofNat 32 r.code, flags := r.flags })) (decide (m = .sr))

/-- VCVFI: INT32 lanes to FP32 lanes. -/
def execVcvfi (d : Reg) (b : VSrc) (rm : BitVec 3) (s : State) : Out :=
  s.withMode [] rm true fun m => vec1 s d b (fun v =>
    packLanes ((List.range 16).map fun i => toFp32 (ofInt (lane 32 v i).toInt) (s.choice m i))) (decide (m = .sr))

/-- Codes of 16 values in a format, with the flags they raise together. -/
def State.codesOf (s : State) (code : Nat) (m : RMode) (f : Nat → Val) : List Nat × Flags :=
  match fmtOf code with
  | none => ([], 0)
  | some g =>
    let rs := (List.range 16).map fun i => round (f i) g (s.choice m i)
    (rs.map (·.code), rs.foldl (fun acc r => acc ||| r.flags) 0)

/-- VCVN: 16 FP32 lanes narrowed to format f, funnelled into vD. -/
def execVcvn (d a : Reg) (b : VSrc) (f : BitVec 6) (rm : BitVec 3) (s : State) : Out :=
  s.withMode [] rm true fun m =>
    let vs := a.toNat :: vsrcRegs b
    match s.vblocked [] none vs (some b) (some d.toNat) with
    | some o => o
    | none =>
      let v := s.vsrcVal [a.toNat] b
      let r := s.codesOf f.toNat m fun i => fp (lane 32 v i)
      .next (s.vfinish [] vs d (funnel (fmtWidth f.toNat) (s.vval [] a.toNat) r.1) r.2 (decide (m = .sr)))

/-- The 16 codes of width w in the low bits of a register (R182). -/
def codeAt (w : Nat) (v : Vec) (i : Nat) : Nat := v.toNat / 2 ^ (w * i) % 2 ^ w

/-- VCVW: 16 codes of format f widened to FP32 lanes, exactly. -/
def execVcvw (d b : Reg) (f : BitVec 6) (s : State) : Out :=
  vec1 s d (.reg b) (fun v =>
    packLanes ((List.range 16).map fun i => toFp32 (elemVal f.toNat (codeAt (fmtWidth f.toNat) v i) 0) (plainChoice .rne))) false

/-! ### VQP (R237) -/

/-- The exact fp(b) × ι + z of VQPQ (R237); 0 × ∞ has no value and enters as NaN (log 29, DEDUCED). -/
def quantInput (b iota : Val) (z : Nat) : Val :=
  if b.isNan || iota.isNan then .nan false
  else
    match mulVal b iota with
    | none => .nan false
    | some (.num n m e) => addFin (.num n m e) (ofInt z)
    | some v => v

/-- A quantising VQP: 16 codes of a format from the lanes and the parameter word, funnelled into vD. -/
def vqp (s : State) (d a : Reg) (b : VSrc) (c : Reg) (rm : BitVec 3) (code : Nat) (f : Val → Word → Val) (nv : Word → Bool) : Out :=
  s.withMode [c] rm true fun m =>
    let vs := a.toNat :: vsrcRegs b
    match s.vblocked [c] none vs (some b) (some d.toNat) with
    | some o => o
    | none =>
      let v := s.vsrcVal [a.toNat] b
      let p := s.sval [] c
      let r := s.codesOf code m fun i => f (fp (lane 32 v i)) p
      .next (s.vfinish [c] vs d (funnel (fmtWidth code) (s.vval [] a.toNat) r.1) (r.2 ||| if nv p then flagNV else 0) (decide (m = .sr)))

/-- VQPQ8. -/
def execVqpq8 (d a : Reg) (b : VSrc) (c : Reg) (rm : BitVec 3) (s : State) : Out :=
  vqp s d a b c rm 11 (fun x p => quantInput x (fp (p.setWidth 32)) (p.extractLsb' 32 8).toNat) fun _ => false

/-- VQPQ4. -/
def execVqpq4 (d a : Reg) (b : VSrc) (c : Reg) (rm : BitVec 3) (s : State) : Out :=
  vqp s d a b c rm 13 (fun x p => quantInput x (fp (p.setWidth 32)) (p.extractLsb' 32 4).toNat) fun _ => false

/-- The value that VQPF8AB and VQPF4AB round: fp(b) × 2^(127 − X); X = 0xFF marks a NaN block (R237). -/
def blockInput (x : Val) (p : Word) : Val :=
  let sc := (p.extractLsb' 0 8).toNat
  if sc = 255 then .nan false
  else
    match x with
    | .num n m e => .num n m (e + 127 - sc)
    | v => v

/-- VQPF8AB. -/
def execVqpf8ab (d a : Reg) (b : VSrc) (c : Reg) (rm : BitVec 3) (s : State) : Out :=
  vqp s d a b c rm 3 blockInput fun p => decide (p.extractLsb' 0 8 = 255#8)

/-- VQPF4AB. -/
def execVqpf4ab (d a : Reg) (b : VSrc) (c : Reg) (rm : BitVec 3) (s : State) : Out :=
  vqp s d a b c rm 7 blockInput fun p => decide (p.extractLsb' 0 8 = 255#8)

/-- A dequantising VQP: lane i := s × (q − z), exact (R237). A zero lane has the sign of the IEEE product (log 111, DESIGN CHOICE). -/
def vqpd (s : State) (d b c : Reg) (code : Nat) : Out :=
  match s.vblocked [c] none [b.toNat] none (some d.toNat) with
  | some o => o
  | none =>
    let p := (s.sval [] c).toNat
    let v := s.vval [] b.toNat
    let w := fmtWidth code
    let ls := (List.range 16).map fun i =>
      let l := toFp32 (elemVal code (codeAt w v i) p) (plainChoice .rne)
      if (quantScale p).isInf && decide (codeAt w v i = zeroPoint code p) then { l with flags := flagNV } else l
    let r := packLanes ls
    .next (s.vfinish [c] [b.toNat] d r.1 r.2 false)

/-- VQPDQ8. -/
def execVqpdq8 (d b c : Reg) (s : State) : Out := vqpd s d b c 14

/-- VQPDQ4. -/
def execVqpdq4 (d b c : Reg) (s : State) : Out := vqpd s d b c 17

/-! ### VSTR (R238) -/

/-- VSTRLEFT. -/
def execVstrleft (d : Reg) (imm : BitVec 2) (s : State) : Out :=
  let t := s.stream imm.toNat
  alu0 s d (if t.boundTo s.cur.core.role then BitVec.ofNat 64 (t.total - t.passed) else 0)

/-- VSTRROW. -/
def execVstrrow (d : Reg) (imm : BitVec 2) (s : State) : Out :=
  let t := s.stream imm.toNat
  alu0 s d (flag (t.boundTo s.cur.core.role && decide (t.passed < t.total) && decide (t.passed % t.cnt0 = 0)))

/-- VSTRDRAIN: waits until every element that this core has pushed has been written; a written element is visible in the
cell at once (R145). -/
def execVstrdrain (imm : BitVec 2) (s : State) : Out :=
  let t := s.stream imm.toNat
  if t.boundTo s.cur.core.role && t.out && !t.port.isEmpty then wait s else .next s.retire

end Sys2Proof.Machine
end

