-- ==== Sys2Proof/Machine/Dispatch.lean ====
section
/-! DEFINITION. One arm per row of the opcode table: the meaning of each instruction. -/

namespace Sys2Proof.Machine

def exec (i : Instr) (s : State) : Host.Outcome State Fault Refusal :=
  match i with
  | .nop => Sys2Proof.Machine.execNop s
  | .add d a b => Sys2Proof.Machine.execAdd d a b s
  | .adds d a b => Sys2Proof.Machine.execAdds d a b s
  | .addus d a b => Sys2Proof.Machine.execAddus d a b s
  | .sub d a b => Sys2Proof.Machine.execSub d a b s
  | .subs d a b => Sys2Proof.Machine.execSubs d a b s
  | .subus d a b => Sys2Proof.Machine.execSubus d a b s
  | .and d a b => Sys2Proof.Machine.execAnd d a b s
  | .andn d a b => Sys2Proof.Machine.execAndn d a b s
  | .or d a b => Sys2Proof.Machine.execOr d a b s
  | .xor d a b => Sys2Proof.Machine.execXor d a b s
  | .shl d a b => Sys2Proof.Machine.execShl d a b s
  | .shr d a b => Sys2Proof.Machine.execShr d a b s
  | .sha d a b => Sys2Proof.Machine.execSha d a b s
  | .cmpeq d a b => Sys2Proof.Machine.execCmpeq d a b s
  | .cmpne d a b => Sys2Proof.Machine.execCmpne d a b s
  | .cmplt d a b => Sys2Proof.Machine.execCmplt d a b s
  | .cmpge d a b => Sys2Proof.Machine.execCmpge d a b s
  | .cmpltu d a b => Sys2Proof.Machine.execCmpltu d a b s
  | .cmpgeu d a b => Sys2Proof.Machine.execCmpgeu d a b s
  | .addi d a imm => Sys2Proof.Machine.execAddi d a imm s
  | .andi d a imm => Sys2Proof.Machine.execAndi d a imm s
  | .ori d a imm => Sys2Proof.Machine.execOri d a imm s
  | .xori d a imm => Sys2Proof.Machine.execXori d a imm s
  | .shil d a imm => Sys2Proof.Machine.execShil d a imm s
  | .shir d a imm => Sys2Proof.Machine.execShir d a imm s
  | .shia d a imm => Sys2Proof.Machine.execShia d a imm s
  | .cmpieq d a imm => Sys2Proof.Machine.execCmpieq d a imm s
  | .cmpine d a imm => Sys2Proof.Machine.execCmpine d a imm s
  | .cmpilt d a imm => Sys2Proof.Machine.execCmpilt d a imm s
  | .cmpige d a imm => Sys2Proof.Machine.execCmpige d a imm s
  | .cmpiltu d a imm => Sys2Proof.Machine.execCmpiltu d a imm s
  | .cmpigeu d a imm => Sys2Proof.Machine.execCmpigeu d a imm s
  | .li d imm => Sys2Proof.Machine.execLi d imm s
  | .liu d imm => Sys2Proof.Machine.execLiu d imm s
  | .liw d ext => Sys2Proof.Machine.execLiw d ext s
  | .mul d a b => Sys2Proof.Machine.execMul d a b s
  | .mulh d a b => Sys2Proof.Machine.execMulh d a b s
  | .mulhu d a b => Sys2Proof.Machine.execMulhu d a b s
  | .mula d a b c => Sys2Proof.Machine.execMula d a b c s
  | .div d a b => Sys2Proof.Machine.execDiv d a b s
  | .divu d a b => Sys2Proof.Machine.execDivu d a b s
  | .divrem d a b => Sys2Proof.Machine.execDivrem d a b s
  | .divremu d a b => Sys2Proof.Machine.execDivremu d a b s
  | .bitcnt d a => Sys2Proof.Machine.execBitcnt d a s
  | .bitclz d a => Sys2Proof.Machine.execBitclz d a s
  | .bitctz d a => Sys2Proof.Machine.execBitctz d a s
  | .sel d a b c => Sys2Proof.Machine.execSel d a b c s
  | .beq a b nul disp => Sys2Proof.Machine.execBeq a b nul disp s
  | .bne a b nul disp => Sys2Proof.Machine.execBne a b nul disp s
  | .blt a b nul disp => Sys2Proof.Machine.execBlt a b nul disp s
  | .bge a b nul disp => Sys2Proof.Machine.execBge a b nul disp s
  | .bltu a b nul disp => Sys2Proof.Machine.execBltu a b nul disp s
  | .bgeu a b nul disp => Sys2Proof.Machine.execBgeu a b nul disp s
  | .bz a nul disp => Sys2Proof.Machine.execBz a nul disp s
  | .bzn a nul disp => Sys2Proof.Machine.execBzn a nul disp s
  | .j nul imm => Sys2Proof.Machine.execJ nul imm s
  | .jl d nul imm => Sys2Proof.Machine.execJl d nul imm s
  | .jr d a nul => Sys2Proof.Machine.execJr d a nul s
  | .csrd d imm => Sys2Proof.Machine.execCsrd d imm s
  | .cswr a imm => Sys2Proof.Machine.execCswr a imm s
  | .csset d a imm => Sys2Proof.Machine.execCsset d a imm s
  | .csclr d a imm => Sys2Proof.Machine.execCsclr d a imm s
  | .ld d a esz ord scope imm => Sys2Proof.Machine.execLd d a esz ord scope imm s
  | .lds d a esz ord scope imm => Sys2Proof.Machine.execLds d a esz ord scope imm s
  | .st d a esz ord scope imm => Sys2Proof.Machine.execSt d a esz ord scope imm s
  | .ld64 d a ord scope imm => Sys2Proof.Machine.execLd64 d a ord scope imm s
  | .st64 d a ord scope imm => Sys2Proof.Machine.execSt64 d a ord scope imm s
  | .amoswap d a b esz ord scope => Sys2Proof.Machine.execAmoswap d a b esz ord scope s
  | .amoadd d a b esz ord scope => Sys2Proof.Machine.execAmoadd d a b esz ord scope s
  | .amoand d a b esz ord scope => Sys2Proof.Machine.execAmoand d a b esz ord scope s
  | .amoor d a b esz ord scope => Sys2Proof.Machine.execAmoor d a b esz ord scope s
  | .amoxor d a b esz ord scope => Sys2Proof.Machine.execAmoxor d a b esz ord scope s
  | .amomin d a b esz ord scope => Sys2Proof.Machine.execAmomin d a b esz ord scope s
  | .amomax d a b esz ord scope => Sys2Proof.Machine.execAmomax d a b esz ord scope s
  | .amominu d a b esz ord scope => Sys2Proof.Machine.execAmominu d a b esz ord scope s
  | .amomaxu d a b esz ord scope => Sys2Proof.Machine.execAmomaxu d a b esz ord scope s
  | .amocas d a b c esz ord scope => Sys2Proof.Machine.execAmocas d a b c esz ord scope s
  | .fence ord scope => Sys2Proof.Machine.execFence ord scope s
  | .qlen d a => Sys2Proof.Machine.execQlen d a s
  | .qroom d a => Sys2Proof.Machine.execQroom d a s
  | .qpeek d a => Sys2Proof.Machine.execQpeek d a s
  | .strgo a k out core ext => Sys2Proof.Machine.execStrgo a k out core ext s
  | .strstop k => Sys2Proof.Machine.execStrstop k s
  | .strwait k => Sys2Proof.Machine.execStrwait k s
  | .strcnt d k => Sys2Proof.Machine.execStrcnt d k s
  | .semw imm => Sys2Proof.Machine.execSemw imm s
  | .semp imm => Sys2Proof.Machine.execSemp imm s
  | .semtry d imm => Sys2Proof.Machine.execSemtry d imm s
  | .semrd d imm => Sys2Proof.Machine.execSemrd d imm s
  | .barset d a imm => Sys2Proof.Machine.execBarset d a imm s
  | .bararr d a imm => Sys2Proof.Machine.execBararr d a imm s
  | .barwait d a imm => Sys2Proof.Machine.execBarwait d a imm s
  | .bartest d a imm => Sys2Proof.Machine.execBartest d a imm s
  | .barexp d a imm => Sys2Proof.Machine.execBarexp d a imm s
  | .copy d a b c rm ext => Sys2Proof.Machine.execCopy d a b c rm ext s
  | .cseal => Sys2Proof.Machine.execCseal s
  | .cwait imm => Sys2Proof.Machine.execCwait imm s
  | .ctest d imm => Sys2Proof.Machine.execCtest d imm s
  | .ccnt d => Sys2Proof.Machine.execCcnt d s
  | .tidld a imm => Sys2Proof.Machine.execTidld a imm s
  | .tidst a imm => Sys2Proof.Machine.execTidst a imm s
  | .tidbase a imm => Sys2Proof.Machine.execTidbase a imm s
  | .osclaim imm => Sys2Proof.Machine.execOsclaim imm s
  | .ostry d imm => Sys2Proof.Machine.execOstry d imm s
  | .osrel imm => Sys2Proof.Machine.execOsrel imm s
  | .osst d => Sys2Proof.Machine.execOsst d s
  | .vadd d a b rm => Sys2Proof.Machine.execVadd d a b rm s
  | .vsub d a b rm => Sys2Proof.Machine.execVsub d a b rm s
  | .vmul d a b rm => Sys2Proof.Machine.execVmul d a b rm s
  | .vfma d a b c rm => Sys2Proof.Machine.execVfma d a b c rm s
  | .vmin d a b => Sys2Proof.Machine.execVmin d a b s
  | .vmax d a b => Sys2Proof.Machine.execVmax d a b s
  | .vabs d b => Sys2Proof.Machine.execVabs d b s
  | .vneg d b => Sys2Proof.Machine.execVneg d b s
  | .vexp2 d b => Sys2Proof.Machine.execVexp2 d b s
  | .vrcp d b => Sys2Proof.Machine.execVrcp d b s
  | .vrsq d b => Sys2Proof.Machine.execVrsq d b s
  | .viadd d a b esz => Sys2Proof.Machine.execViadd d a b esz s
  | .viadds d a b esz => Sys2Proof.Machine.execViadds d a b esz s
  | .viaddus d a b esz => Sys2Proof.Machine.execViaddus d a b esz s
  | .visub d a b esz => Sys2Proof.Machine.execVisub d a b esz s
  | .visubs d a b esz => Sys2Proof.Machine.execVisubs d a b esz s
  | .visubus d a b esz => Sys2Proof.Machine.execVisubus d a b esz s
  | .vimul d a b esz => Sys2Proof.Machine.execVimul d a b esz s
  | .vimulh d a b esz => Sys2Proof.Machine.execVimulh d a b esz s
  | .vimulhu d a b esz => Sys2Proof.Machine.execVimulhu d a b esz s
  | .vimin d a b esz => Sys2Proof.Machine.execVimin d a b esz s
  | .vimax d a b esz => Sys2Proof.Machine.execVimax d a b esz s
  | .viminu d a b esz => Sys2Proof.Machine.execViminu d a b esz s
  | .vimaxu d a b esz => Sys2Proof.Machine.execVimaxu d a b esz s
  | .viand d a b esz => Sys2Proof.Machine.execViand d a b esz s
  | .vior d a b esz => Sys2Proof.Machine.execVior d a b esz s
  | .vixor d a b esz => Sys2Proof.Machine.execVixor d a b esz s
  | .viandn d a b esz => Sys2Proof.Machine.execViandn d a b esz s
  | .vcmpfeq d a b => Sys2Proof.Machine.execVcmpfeq d a b s
  | .vcmpflt d a b => Sys2Proof.Machine.execVcmpflt d a b s
  | .vcmpfle d a b => Sys2Proof.Machine.execVcmpfle d a b s
  | .vcmpfun d a b => Sys2Proof.Machine.execVcmpfun d a b s
  | .vcmpieq d a b esz => Sys2Proof.Machine.execVcmpieq d a b esz s
  | .vcmpilt d a b esz => Sys2Proof.Machine.execVcmpilt d a b esz s
  | .vcmpiltu d a b esz => Sys2Proof.Machine.execVcmpiltu d a b esz s
  | .vcmpsel d a b c esz => Sys2Proof.Machine.execVcmpsel d a b c esz s
  | .vshl d a b esz => Sys2Proof.Machine.execVshl d a b esz s
  | .vshr d a b esz => Sys2Proof.Machine.execVshr d a b esz s
  | .vsha d a b esz => Sys2Proof.Machine.execVsha d a b esz s
  | .vshls d a c esz => Sys2Proof.Machine.execVshls d a c esz s
  | .vshrs d a c esz => Sys2Proof.Machine.execVshrs d a c esz s
  | .vshas d a c esz => Sys2Proof.Machine.execVshas d a c esz s
  | .vredsum d b rm => Sys2Proof.Machine.execVredsum d b rm s
  | .vredmax d b => Sys2Proof.Machine.execVredmax d b s
  | .vredmin d b => Sys2Proof.Machine.execVredmin d b s
  | .vredisum d b esz => Sys2Proof.Machine.execVredisum d b esz s
  | .vredimax d b esz => Sys2Proof.Machine.execVredimax d b esz s
  | .vredimin d b esz => Sys2Proof.Machine.execVredimin d b esz s
  | .vredor d b esz => Sys2Proof.Machine.execVredor d b esz s
  | .vredcnt d b esz => Sys2Proof.Machine.execVredcnt d b esz s
  | .vmov d b => Sys2Proof.Machine.execVmov d b s
  | .vmovs d a esz => Sys2Proof.Machine.execVmovs d a esz s
  | .vmovx d a c esz => Sys2Proof.Machine.execVmovx d a c esz s
  | .vmovi d a b c esz => Sys2Proof.Machine.execVmovi d a b c esz s
  | .vmovp d a b esz => Sys2Proof.Machine.execVmovp d a b esz s
  | .vmovsr d b c => Sys2Proof.Machine.execVmovsr d b c s
  | .vcvif d b rm => Sys2Proof.Machine.execVcvif d b rm s
  | .vcvn d a b f rm => Sys2Proof.Machine.execVcvn d a b f rm s
  | .vcvfi d b rm => Sys2Proof.Machine.execVcvfi d b rm s
  | .vcvw d b f => Sys2Proof.Machine.execVcvw d b f s
  | .vqpq8 d a b c rm => Sys2Proof.Machine.execVqpq8 d a b c rm s
  | .vqpq4 d a b c rm => Sys2Proof.Machine.execVqpq4 d a b c rm s
  | .vqpf8ab d a b c rm => Sys2Proof.Machine.execVqpf8ab d a b c rm s
  | .vqpf4ab d a b c rm => Sys2Proof.Machine.execVqpf4ab d a b c rm s
  | .vqpdq8 d b c => Sys2Proof.Machine.execVqpdq8 d b c s
  | .vqpdq4 d b c => Sys2Proof.Machine.execVqpdq4 d b c s
  | .vstrleft d imm => Sys2Proof.Machine.execVstrleft d imm s
  | .vstrrow d imm => Sys2Proof.Machine.execVstrrow d imm s
  | .vstrdrain imm => Sys2Proof.Machine.execVstrdrain imm s
  | .rst d a esz imm => Sys2Proof.Machine.execRst d a esz imm s
  | .rstcp d a imm => Sys2Proof.Machine.execRstcp d a imm s
  | .rstpm a => Sys2Proof.Machine.execRstpm a s
  | .rstpmrd d => Sys2Proof.Machine.execRstpmrd d s
  | .rld d a esz imm => Sys2Proof.Machine.execRld d a esz imm s
  | .rlds d a esz imm => Sys2Proof.Machine.execRlds d a esz imm s
  | .rldadd d a esz imm => Sys2Proof.Machine.execRldadd d a esz imm s
  | .mcst d a b c => Sys2Proof.Machine.execMcst d a b c s
  | .crel d a b esz ext => Sys2Proof.Machine.execCrel d a b esz ext s
  | .crelm d a b c esz ext => Sys2Proof.Machine.execCrelm d a b c esz ext s
  | .rcptw d imm => Sys2Proof.Machine.execRcptw d imm s
  | .rcpttest d imm => Sys2Proof.Machine.execRcpttest d imm s
  | .mixreg d a => Sys2Proof.Machine.execMixreg d a s
  | .mixadd d a b => Sys2Proof.Machine.execMixadd d a b s
  | .mixrd d a b esz => Sys2Proof.Machine.execMixrd d a b esz s
  | .mixst d a b => Sys2Proof.Machine.execMixst d a b s
  | .mixstep d a b => Sys2Proof.Machine.execMixstep d a b s
  | .mixwait d a => Sys2Proof.Machine.execMixwait d a s
  | .dereg d a b c => Sys2Proof.Machine.execDereg d a b c s
  | .auto => Sys2Proof.Machine.execAuto s
  | .share => Sys2Proof.Machine.execShare s
  | .nbrset => Sys2Proof.Machine.execNbrset s
  | .ohand d a imm => Sys2Proof.Machine.execOhand d a imm s
  | .otake d a imm => Sys2Proof.Machine.execOtake d a imm s
  | .odrop a imm => Sys2Proof.Machine.execOdrop a imm s
  | .otest d a imm => Sys2Proof.Machine.execOtest d a imm s
  | .msend a b c => Sys2Proof.Machine.execMsend a b c s
  | .mpop d => Sys2Proof.Machine.execMpop d s
  | .mlen d a => Sys2Proof.Machine.execMlen d a s
  | .mlaunch d b => Sys2Proof.Machine.execMlaunch d b s
  | .fend => Sys2Proof.Machine.execFend s
  | .chmask imm => Sys2Proof.Machine.execChmask imm s
  | .chunmask imm => Sys2Proof.Machine.execChunmask imm s
  | .chrd d imm => Sys2Proof.Machine.execChrd d imm s
  | .chprio a imm => Sys2Proof.Machine.execChprio a imm s
  | .creg imm => Sys2Proof.Machine.execCreg imm s
  | .cend => Sys2Proof.Machine.execCend s
  | .eret => Sys2Proof.Machine.execEret s
  | .syscall => Sys2Proof.Machine.execSyscall s
  | .sysbrk => Sys2Proof.Machine.execSysbrk s
  | .sysflush a => Sys2Proof.Machine.execSysflush a s
  | .sysabort => Sys2Proof.Machine.execSysabort s
  | .syspark => Sys2Proof.Machine.execSyspark s
  | .sigen a => Sys2Proof.Machine.execSigen a s
  | .sigrd d => Sys2Proof.Machine.execSigrd d s
  | .sorterAdd kd ka kb => Sys2Proof.Machine.execSorterAdd kd ka kb s
  | .sorterSub kd ka kb => Sys2Proof.Machine.execSorterSub kd ka kb s
  | .sorterAnd kd ka kb => Sys2Proof.Machine.execSorterAnd kd ka kb s
  | .sorterOr kd ka kb => Sys2Proof.Machine.execSorterOr kd ka kb s
  | .sorterXor kd ka kb => Sys2Proof.Machine.execSorterXor kd ka kb s
  | .sorterShl kd ka kb => Sys2Proof.Machine.execSorterShl kd ka kb s
  | .sorterShr kd ka kb => Sys2Proof.Machine.execSorterShr kd ka kb s
  | .setltu kd ka kb => Sys2Proof.Machine.execSetltu kd ka kb s
  | .seteq kd ka kb => Sys2Proof.Machine.execSeteq kd ka kb s
  | .addk kd ka imm => Sys2Proof.Machine.execAddk kd ka imm s
  | .andk kd ka imm => Sys2Proof.Machine.execAndk kd ka imm s
  | .shlk kd ka n => Sys2Proof.Machine.execShlk kd ka n s
  | .shrk kd ka n => Sys2Proof.Machine.execShrk kd ka n s
  | .movk kd imm => Sys2Proof.Machine.execMovk kd imm s
  | .sorterBeq ka kb off => Sys2Proof.Machine.execSorterBeq ka kb off s
  | .sorterBne ka kb off => Sys2Proof.Machine.execSorterBne ka kb off s
  | .sorterBltu ka kb off => Sys2Proof.Machine.execSorterBltu ka kb off s
  | .jmp off => Sys2Proof.Machine.execJmp off s
  | .hget kd f => Sys2Proof.Machine.execHget kd f s
  | .hset ka f => Sys2Proof.Machine.execHset ka f s
  | .pldw wd f => Sys2Proof.Machine.execPldw wd f s
  | .pstw wa f => Sys2Proof.Machine.execPstw wa f s
  | .wget kd wa l => Sys2Proof.Machine.execWget kd wa l s
  | .wset wd ka l => Sys2Proof.Machine.execWset wd ka l s
  | .fsel ka => Sys2Proof.Machine.execFsel ka s
  | .sld kd off => Sys2Proof.Machine.execSld kd off s
  | .sst ka off => Sys2Proof.Machine.execSst ka off s
  | .sldw wd off => Sys2Proof.Machine.execSldw wd off s
  | .sstw wa off => Sys2Proof.Machine.execSstw wa off s
  | .gld kd ka => Sys2Proof.Machine.execGld kd ka s
  | .gmem kd ka kb => Sys2Proof.Machine.execGmem kd ka kb s
  | .emit ka => Sys2Proof.Machine.execEmit ka s
  | .emitg ka => Sys2Proof.Machine.execEmitg ka s
  | .fwd => Sys2Proof.Machine.execFwd s
  | .drop => Sys2Proof.Machine.execDrop s
  | .nack n => Sys2Proof.Machine.execNack n s
  | .sorterTrap n => Sys2Proof.Machine.execSorterTrap n s
  | .annulledPass => Sys2Proof.Machine.execAnnulledPass s
  | .interrupt => Sys2Proof.Machine.execInterrupt s
  | .deferredEvent => Sys2Proof.Machine.execDeferredEvent s
  | .streamElement => Sys2Proof.Machine.execStreamElement s
  | .semaphoreStore => Sys2Proof.Machine.execSemaphoreStore s
  | .copySector => Sys2Proof.Machine.execCopySector s
  | .copyCompletion => Sys2Proof.Machine.execCopyCompletion s
  | .mac => Sys2Proof.Machine.execMac s
  | .matrixMul => Sys2Proof.Machine.execMatrixMul s
  | .fill => Sys2Proof.Machine.execFill s
  | .mark => Sys2Proof.Machine.execMark s
  | .matrixGate => Sys2Proof.Machine.execMatrixGate s
  | .matrixComplete => Sys2Proof.Machine.execMatrixComplete s
  | .flush => Sys2Proof.Machine.execFlush s
  | .resume => Sys2Proof.Machine.execResume s
  | .countedWrite => Sys2Proof.Machine.execCountedWrite s
  | .release => Sys2Proof.Machine.execRelease s
  | .outcomeRecordExpiry => Sys2Proof.Machine.execOutcomeRecordExpiry s
  | .roundExpiry => Sys2Proof.Machine.execRoundExpiry s
  | .senderRoundExpiry => Sys2Proof.Machine.execSenderRoundExpiry s
  | .shortfallNotice => Sys2Proof.Machine.execShortfallNotice s
  | .receipt => Sys2Proof.Machine.execReceipt s
  | .nackPacket => Sys2Proof.Machine.execNackPacket s
  | .readRequest => Sys2Proof.Machine.execReadRequest s
  | .readReply => Sys2Proof.Machine.execReadReply s
  | .rldRoundExpiry => Sys2Proof.Machine.execRldRoundExpiry s
  | .linkControl => Sys2Proof.Machine.execLinkControl s
  | .bufferInterval => Sys2Proof.Machine.execBufferInterval s
  | .flitBeat => Sys2Proof.Machine.execFlitBeat s
  | .messageLeavesSendBuffer => Sys2Proof.Machine.execMessageLeavesSendBuffer s
  | .sorterPacket => Sys2Proof.Machine.execSorterPacket s
  | .load => Sys2Proof.Machine.execLoad s
  | .attach => Sys2Proof.Machine.execAttach s
  | .detach => Sys2Proof.Machine.execDetach s
  | .rearm => Sys2Proof.Machine.execRearm s
  | .state => Sys2Proof.Machine.execState s
  | .mixInterval => Sys2Proof.Machine.execMixInterval s
  | .perform => Sys2Proof.Machine.execPerform s
  | .drain => Sys2Proof.Machine.execDrain s
  | .widen => Sys2Proof.Machine.execWiden s
  | .firingBegin => Sys2Proof.Machine.execFiringBegin s
  | .launchPacket => Sys2Proof.Machine.execLaunchPacket s
  | .launchCompletion => Sys2Proof.Machine.execLaunchCompletion s
  | .energyInterval => Sys2Proof.Machine.execEnergyInterval s
  | .watchdog => Sys2Proof.Machine.execWatchdog s
  | .quantumEnd => Sys2Proof.Machine.execQuantumEnd s
  | .boundary => Sys2Proof.Machine.execBoundary s
  | .preemptionRequest => Sys2Proof.Machine.execPreemptionRequest s
  | .switchOut => Sys2Proof.Machine.execSwitchOut s
  | .restore => Sys2Proof.Machine.execRestore s
  | .contextRemoval => Sys2Proof.Machine.execContextRemoval s
  | .pageWalk => Sys2Proof.Machine.execPageWalk s
  | .scrubVisit => Sys2Proof.Machine.execScrubVisit s
  | .unitFence => Sys2Proof.Machine.execUnitFence s
  | .powerWindow => Sys2Proof.Machine.execPowerWindow s
  | .thermalLimit => Sys2Proof.Machine.execThermalLimit s
  | .moduleReset => Sys2Proof.Machine.execModuleReset s
  | .evhead => Sys2Proof.Machine.execEvhead s
  | .tail => Sys2Proof.Machine.execTail s
  | .plimit => Sys2Proof.Machine.execPlimit s
  | .registerWrite => Sys2Proof.Machine.execRegisterWrite s
  | .ctxset => Sys2Proof.Machine.execCtxset s
  | .ctxremove => Sys2Proof.Machine.execCtxremove s
  | .sorter => Sys2Proof.Machine.execSorter s
  | .fabcfg => Sys2Proof.Machine.execFabcfg s
  | .serviceFence => Sys2Proof.Machine.execServiceFence s
  | .declare => Sys2Proof.Machine.execDeclare s
  | .railcal => Sys2Proof.Machine.execRailcal s
  | .railReturn => Sys2Proof.Machine.execRailReturn s
  | .fwstage => Sys2Proof.Machine.execFwstage s
  | .mode => Sys2Proof.Machine.execMode s
  | .errcnt => Sys2Proof.Machine.execErrcnt s
  | .walkans => Sys2Proof.Machine.execWalkans s
  | .fwact => Sys2Proof.Machine.execFwact s
  | .resend => Sys2Proof.Machine.execResend s
  | .getVersion => Sys2Proof.Machine.execGetVersion s
  | .getCapabilities => Sys2Proof.Machine.execGetCapabilities s
  | .negotiateAlgorithms => Sys2Proof.Machine.execNegotiateAlgorithms s
  | .getDigests => Sys2Proof.Machine.execGetDigests s
  | .getCertificate => Sys2Proof.Machine.execGetCertificate s
  | .challenge => Sys2Proof.Machine.execChallenge s
  | .getMeasurements => Sys2Proof.Machine.execGetMeasurements s
  | .keyExchange => Sys2Proof.Machine.execKeyExchange s
  | .finish => Sys2Proof.Machine.execFinish s
  | .hostMemoryAccess => Sys2Proof.Machine.execHostMemoryAccess s
  | .failureDeclaration => Sys2Proof.Machine.execFailureDeclaration s

end Sys2Proof.Machine
end

