-- ==== Sys2Proof/Machine/Front.lean ====
section
/-! DEFINITION. The front end of a core's turn: what comes before the instruction at the head (R35, R120, R121, R350, R369),
the signature checker (R380), and the checks of R33 up to the instruction. -/

namespace Sys2Proof.Machine

/-- What the front end answers: the turn has ended, or an instruction is executed in a state. -/
inductive Front where
  | done (o : Out)
  | run (i : Instr) (s : State)

/-! ### The signature table (R79, R80) -/

/-- What stops a read of the signature table: a translation that waits for a walk, or a byte that cannot be read. -/
inductive TableStop where
  | walk (va : Nat)
  | fail (va : Nat)
  deriving DecidableEq, Repr

/-- The keys of n bytes of the signature table of the core whose turn it is, by the context's own translation and rights, which the core
waits for as for any of its own (R80, R93, R389; log 56, DEDUCED). The spec does not say what bits [63:48] of SIGBASE do, which are ignored,
nor what a SIGBASE that is not 8-byte aligned does: the table is read at that address (log 95, DESIGN CHOICE). -/
def State.tableKeys (s : State) (addr n : Nat) : Except TableStop (List Nat) :=
  let vas := span (addr % 2 ^ 48) n
  if vas.all fun a => decide (a < spadSize) then .ok (span (cellKey s.myCell (addr % 2 ^ 48)) n)
  else
    vas.foldr (fun va acc =>
      match (if regionOf va = .translated then s.transFor s.cur.core s.myCtxId va else .fail) with
      | .miss => .error (.walk va)
      | .fail => .error (.fail va)
      | .leaf e l =>
        if s.reaches e l va .load then
          match acc with
          | .error x => .error x
          | .ok ks => .ok (leafKey e l va :: ks)
        else .error (.fail va)) (.ok [])

/-- The number of n bytes of the signature table, if they can be read and are not poisoned (log 56, DEDUCED). -/
def State.tableNat (s : State) (addr n : Nat) : Except TableStop Nat :=
  match s.tableKeys addr n with
  | .error x => .error x
  | .ok ks => if (s.poisonAmong (.cell s.myCell) ks).isSome then .error (.fail addr) else .ok (s.natFor (.cell s.myCell) ks)

/-- Address of record i of a table (R79, R80). -/
def recordAddr (base i : Nat) : Nat := base + 16 + 24 * i

/-- The number of records lo ≤ i < hi of the table whose START does not exceed an address, plus lo: a binary search over
the sorted records (R80). -/
def State.searchTable (s : State) (base addr fuel lo hi : Nat) : Except TableStop Nat :=
  match fuel with
  | 0 => .ok lo
  | f + 1 =>
    if hi ≤ lo then .ok lo
    else
      let mid := (lo + hi) / 2
      match s.tableNat (recordAddr base mid) 8 with
      | .error x => .error x
      | .ok start => if start ≤ addr then s.searchTable base addr f (mid + 1) hi else s.searchTable base addr f lo mid

/-- The last record of the table whose START does not exceed an address, as a fold not yet begun (R79, R80). -/
def State.tableRecord (s : State) (base addr : Nat) : Except TableStop (Option Fold) :=
  match s.tableNat base 4 with
  | .error x => .error x
  | .ok count =>
    match s.searchTable base addr 33 0 count with
    | .error x => .error x
    | .ok 0 => .ok none
    | .ok (i + 1) =>
      match s.tableNat (recordAddr base i) 24 with
      | .error x => .error x
      | .ok r =>
        .ok (some { start := r % 2 ^ 64, length := r / 2 ^ 64 % 2 ^ 32
                    wantCfs := BitVec.ofNat 32 (r / 2 ^ 96), wantDds := BitVec.ofNat 32 (r / 2 ^ 128)
                    cfs := 0xFFFFFFFF#32, dds := 0xFFFFFFFF#32 })

/-! ### Entry and exit (R380) -/

/-- Whether an address lies in a block, past its START or on it. -/
def Fold.holds (f : Fold) (addr : Nat) : Bool := decide (f.start ≤ addr) && decide (addr < f.start + f.length)

/-- Whether the block has been left, or entered again at START (R380 step 3). -/
def Fold.left (f : Fold) (addr : Nat) : Bool := !f.holds addr || (f.begun && decide (addr = f.start))

/-- Whether the folded signatures equal the recorded ones (R78, R380 step 3). -/
def Fold.matches (f : Fold) : Bool :=
  decide (f.cfs ^^^ 0xFFFFFFFF#32 = f.wantCfs) && decide (f.dds ^^^ 0xFFFFFFFF#32 = f.wantDds)

/-- The core whose turn it is has met the answer of a failed walk (R93). -/
def State.forgetWalk (s : State) (va : Nat) : State :=
  { s with failedWalks := s.failedWalks.filter fun f => decide (f ≠ (s.cur.core, s.myCtxId, va / 4096)) }

/-- Whether the checker of a core is active (R380). -/
def Core.checking (k : Core) : Bool := decide (k.sigbase ≠ 0) && k.sigEn && !k.trapMode

/-- Entry (R380 step 1): at a START the folds start; strictly inside a block is a mismatch for that block, but not before the
first entry after SIGEN has set EN (R381); elsewhere nothing is folded. -/
def State.enterBlock (s : State) : Except Out State :=
  let k := s.me
  let a := k.c0.toNat
  match s.tableRecord k.sigbase.toNat a with
  | .error (.walk va) => .error (.next (s.requestWalk s.cur.core s.myCtxId va))
  | .error (.fail va) => .ok ((s.forgetWalk va).updMe fun k => { k with fold := none })
  | .ok none => .ok (s.updMe fun k => { k with fold := none })
  | .ok (some f) =>
    if f.start = a then .ok (s.updMe fun k => { k with fold := some f, sigWait := false })
    else if f.holds a && !k.sigWait then .error (trap s 28 (BitVec.ofNat 64 f.start))
    else .ok (s.updMe fun k => { k with fold := none })

/-- The checker as an instruction reaches the head (R380): exit, comparison, entry. The supervisor core has no checker. -/
def State.checkSignature (s : State) : Except Out State :=
  let k := s.me
  if k.checking && decide (s.cur.core.role ≠ .s) then
    match k.fold with
    | none => s.enterBlock
    | some f =>
      if f.left k.c0.toNat then
        if f.matches then s.enterBlock else .error (trap s 28 (BitVec.ofNat 64 f.start))
      else .ok s
  else .ok s

/-! ### The checks of R33 -/

/-- The majors that a core of a role executes (R30). -/
def majorPermitted (role : Role) (maj : Nat) : Bool :=
  if maj ≤ 0x13 ∨ (0x18 ≤ maj ∧ maj ≤ 0x1A) ∨ maj = 0x20 ∨ maj = 0x21 ∨ maj = 0x24 ∨ maj = 0x25 ∨ (0x60 ≤ maj ∧ maj ≤ 0x62) then true
  else if maj = 0x28 ∨ maj = 0x2A ∨ maj = 0x2B ∨ (0x30 ≤ maj ∧ maj ≤ 0x32) ∨ (0x59 ≤ maj ∧ maj ≤ 0x5B) ∨ maj = 0x63 then
    decide (role ≠ .s)
  else if maj = 0x29 ∨ (0x38 ≤ maj ∧ maj ≤ 0x3A) ∨ (0x50 ≤ maj ∧ maj ≤ 0x54) ∨ maj = 0x58 then decide (role = .a)
  else if maj = 0x3B then decide (role = .a) || decide (role = .c)
  else decide (role = .x) || decide (role = .c)

/-- C1 becomes resolved once the word at the head is known (R121). -/
def Core.resolve (k : Core) (word : BitVec 128) : Core :=
  if k.s1 then { k with c1 := k.c0 + BitVec.ofNat 48 (wordLen word), s1 := false } else k

/-- A fragment read records L, LASTW of its tile, as its instruction reaches the head (R219). -/
def Core.recordL (k : Core) (r : Raw) (lastw : Tbl (BitVec 32)) : Core :=
  match rowOf r, r.vsrc with
  | some w, .frag t _ => if w.frag && k.fragMark.isNone then { k with fragMark := some (tget lastw 0 t.toNat) } else k
  | _, _ => k

/-- The instruction at the head of the core whose turn it is has been fetched: C1 is resolved, and a fragment read records L (R121, R219). -/
def State.reachHead (s : State) (w : BitVec 128) : State :=
  { s with cur := { s.cur with word := cutWord w } }.updMe fun k =>
    (k.resolve w).recordL (Raw.ofWord (cutWord w)) s.myCtx.matrix.lastw

/-- A MIXCTL word runs as the operation that its b[3:0] name, once its operands are ready (R308; log 21, DEDUCED). -/
def State.mixctlChoice (s : State) (i : Instr) : Instr :=
  match i with
  | .dereg d a b c =>
    if s.scalarReady [a, b, c] (some d) then
      match s.mixctlOp a b with
      | 1 => .auto
      | 2 => .share
      | 3 => .nbrset
      | _ => i
    else i
  | _ => i

/-- Whether an instruction performs an access that a boundary does not collect, or forks an engine operation (R325). -/
def accessing (i : Instr) : Bool :=
  match i with
  | .ld .. | .lds .. | .ld64 .. | .st .. | .st64 .. | .fence .. | .rld .. | .rlds .. | .rldadd .. | .rst .. | .rstcp .. | .mcst .. => true
  | .crel .. | .crelm .. | .msend .. | .mlaunch .. | .copy .. | .strgo .. | .tidld .. | .tidst .. => true
  | .mixreg .. | .mixadd .. | .mixrd .. | .mixst .. | .mixstep .. | .mixwait .. | .dereg .. | .auto | .share | .nbrset => true
  | _ => false

/-- Whether an instruction needs the effect of every access before it: a release store, a fence, or the fork of a thread that reads memory
(R322, R325). -/
def ordering (i : Instr) : Bool :=
  match i with
  | .st _ _ _ ord _ _ => ord.getLsbD 1
  | .st64 _ _ ord _ _ => ord.getLsbD 1
  | .fence .. | .copy .. | .rstcp .. | .mcst .. | .strgo .. | .mlaunch .. | .mixreg .. | .mixstep .. => true
  | _ => false

/-- Whether an instruction of a member waits for the boundary: it comes after a collected acquire, or needs the effect of a collected access
(R323, R340; log 96, DEDUCED). -/
def State.heldBack (s : State) (i : Instr) : Bool :=
  s.inGroup && ((s.me.acquiring && accessing i) || (!s.me.collected.isEmpty && ordering i))

/-- Whether an instruction that has just recorded L stays at the head for now: commands enqueued after that are not waited for, and the row
may show some of their lanes (R219, R226; log 62, DEDUCED). -/
def State.lingers (s t : State) : Bool := s.me.fragMark.isNone && t.me.fragMark.isSome && (Config.freeWord s.tick 501).getLsbD 0

/-- Checks 3 to 11 of R33 on the fetched word of the core whose turn it is, then the instruction. -/
def State.checkWord (s : State) (w : BitVec 128) : Front :=
  let a := s.me.c0
  let bad (cause : Nat) : Front := .done (trap s cause (w.setWidth 64))
  if wordLen w = 0 then .done (trap s 2 ((w.setWidth 32).setWidth 64))
  else if 32 < a.toNat % 32 + wordLen w then .done (trap s 0 (a.setWidth 64))
  else
    let r := Raw.ofWord (cutWord w)
    let go (d : Decoded) : Front :=
      match d with
      | .bad .reservedBits => bad 24
      | .bad .reservedCombination => bad 24
      | .bad _ => bad 2
      | .ok i =>
        let s1 := s.reachHead w
        let j := s1.mixctlChoice i
        if s.lingers s1 then .done (.next s1) else if s1.heldBack j then .done (waitCollected s1) else .run j s1
    match decodeRaw r with
    | .bad .majorUnassigned => bad 2
    | .bad .lenMismatch => bad 2
    | .bad .functionUnassigned => bad 2
    | .bad .reservedValue => bad 2
    | d => if majorPermitted s.cur.core.role r.maj.toNat then go d else bad 2

/-- Checks 1 and 2 of R33, then the others. -/
def State.fetchHead (s : State) : Front :=
  let a := s.me.c0
  match s.fetch s.cur.core a with
  | .miss => .done (.next (s.requestWalk s.cur.core s.myCtxId a.toNat))
  | .trap cause => .done (trap s cause (a.setWidth 64))
  | .word w => s.checkWord w

/-- The instruction at the head is reached: the checker, check 0, then an annulled entry is passed over and any other one is
fetched (R33, R121, R380; log 57, DEDUCED). -/
def State.head (s : State) : Front :=
  match s.checkSignature with
  | .error o => .done o
  | .ok s1 =>
    let k := s1.me
    if k.c0.toNat % 4 ≠ 0 then .done (trap s1 0 (k.c0.setWidth 64))
    else if k.n0 then .run .annulledPass s1
    else s1.fetchHead

/-! ### A core's turn -/

/-- Whether a core of a cell runs at all: the module is not shut down, the cell is in service with a context on it whose
removal has not begun, and the core is neither parked nor stopped (R373, R377, R391). -/
def State.running (s : State) (p : CoreRef) : Bool :=
  let k := s.coreOf p
  !s.service.shutDown && !s.cellOut p.cell && !k.halted && !k.parked &&
    (match s.residentIn p.cell with
      | none => false
      | some ctx => !s.isDying ctx)

/-- The turn of a core outside trap mode: deferred events, then interrupts, then the end of a quantum, then in selection a firing's
begin, else the instruction at the head (R35, R339, R344, R350, R369, R371). -/
def State.userTurn (s : State) : Front :=
  let s1 := s.noteArrival s.cur.core
  let k := s1.me
  if !k.events.isEmpty then .run .deferredEvent s1
  else if k.preempt || k.watchdog.isSome then .run .interrupt s1
  else if k.atEnd then (if k.member.paused then .done (.next s1) else .run .quantumEnd s1)
  else if !k.running then .run .firingBegin s1
  else s1.head

/-- The turn of a supervisor core: it runs from stage 4 of bring-up on, first at an entry of its firmware (R386; log 5, DESIGN CHOICE); while
FWACT restarts it, it runs nothing, so that FLAGOR reads of its cluster wait (R389). -/
def State.superTurn (s : State) : Front :=
  let n := s.cur.core.cell / 16
  if s.service.stage < 4 || s.service.shutDown || s.unitOut 1 n || s.restarting n then .done (.next s)
  else
    match tfind s.supervisors n with
    | some k => if k.running || k.trapMode then s.head else .done (.next s)
    | none =>
      let k : Core := { ({} : Core).startChain ((Config.freeWord 0 (200 + n)).setWidth 48) with running := true }
      .done (.next { s with supervisors := tset s.supervisors n k })

/-- A core's turn up to the instruction that it executes. -/
def State.front (s : State) (p : CoreRef) : Front :=
  let s1 := { s with cur := { s.cur with core := p, word := 0 } }
  match p.role with
  | .s => if p.cell % 16 = 0 ∧ p.cell < 1024 then s1.superTurn else .done (.next s1)
  | _ =>
    if !s1.running p then .done (.next s1)
    else if s1.me.trapMode then s1.head
    else s1.userTurn

/-! ### Other turns -/

/-- Whether a row of the opcode table is a device, network or host step that a turn of its own begins: it has no word, and it is
no part of a core's turn. -/
def isEvent (i : Instr) : Bool :=
  match i with
  | .auto => false
  | .share => false
  | .nbrset => false
  | .annulledPass => false
  | .interrupt => false
  | .deferredEvent => false
  | .firingBegin => false
  | .quantumEnd => false
  | i => (toRaw i).isNone && (encodeSorter i).isNone

/-- A sorter's turn: the instruction at the running kernel's pc (R279). -/
def State.sorterTurn (s : State) (n : Nat) : Front :=
  let s1 := { s with cur := { s.cur with sorter := n } }
  match s1.mySorter.head with
  | none => .done (.next s1)
  | some i => .run i s1

/-- What a turn executes, and in which state (log 1, DESIGN CHOICE). -/
def State.begin (s : State) (t : Turn) : Front :=
  match t with
  | .core p => s.front p
  | .sorter n => s.sorterTurn n
  | .event i a => let s1 := { s with args := a }; if isEvent i then .run i s1 else .done (.next s1)

end Sys2Proof.Machine
end

