-- ==== Sys2Proof/Machine/Place.lean ====
section
/-! DEFINITION. Placing one instruction so that the next step runs it (log 8, DESIGN CHOICE). -/

namespace Sys2Proof.Machine

/-- The core that a placed core word is given to: the A-core, or the C-core for the majors of the X- and C-cores (R30). -/
def placeRole (w : BitVec 128) : Role := if majorPermitted .a (Raw.ofWord (cutWord w)).maj.toNat then .a else .c

/-- The descriptor of the context that holds cell 0 for a placed instruction. -/
def placeContext (id : Nat) : Context :=
  { ctxid := id, cbase := 0, climit := 0, mbbase := 0, mblimit := 0, fclog2 := 0, root := 0, trapvec := 0, savebase := 0
    fcbase := 0, gtbase := 0, sigbase := 0 }

/-- A core in a firing at address 0 of its scratchpad, with nothing before its head instruction. -/
def Core.atZero (k : Core) : Core :=
  { k with
    tstat := k.tstat &&& 0xFFFFFFFFFFFFFFFE#64
    firing := some (k.firing.getD { channel := 0, slots := [], popped := 0, produce := 0, lid := 0 })
    running := true, fragMark := none, events := [], preempt := false, watchdog := none, sigbase := 0, fold := none, member := {}, parked := false, halted := false
    }.startChain 0

/-- Cell 0 holds a context, in service, with the word at address 0 of its scratchpad and a core about to execute it. -/
def State.placeCore (s : State) (w : BitVec 128) : State :=
  let id := (s.residentIn 0).getD 1
  let r := placeRole w
  let s1 := if (s.context id).isSome then s.updContext id fun c => { c with dying := none }
    else { s with contexts := s.contexts ++ [placeContext id] }
  let s2 := s1.setCell 0 { s1.cellOf 0 with fenced := false, resident := some id }
  let v := { s2.service with shutDown := false, fenced := s2.service.fenced.filter fun u => decide (u ≠ (0, 0)) && decide (u ≠ (1, 0)) }
  let s3 := ({ s2 with service := v }.updCore ⟨0, r⟩ (·.atZero)).clearPoison (sectorOf (cellKey 0 0))
  { s3.addGlobal (cellsFrom (cellKey 0 0) (natToBytes 16 w.toNat)) with turns := [.core ⟨0, r⟩] }

/-- The packet that a placed sorter instruction finds: a counted write of 32 zero bytes to this chip. -/
def placePacket (chip : BitVec 12) : Packet :=
  { dchip := chip, schip := chip, scell := 0, ctxid := 1, type := 0, vn := 0, flits := 1, round := 0, addr := 0, bytes := 32
    payload := List.replicate 32 0 }

/-- Sorter 0 runs a kernel of one word. -/
def State.placeSorter (s : State) (w : BitVec 32) : State :=
  let a : Attachment := { ctx := 1, cls := 0, lo := 0, hi := 0, sorter := 0, fb := 0, fc := 1, kernel := 0 }
  let x := s.sorterOf 0
  { s.setSorter 0 { x with run := some (startRun a { ctx := 1, cls := 0, lo := 0, hi := 0, code := [w] } (placePacket s.chip) false) } with
    turns := [.sorter 0] }

end Sys2Proof.Machine
end

