-- ==== Sys2Proof/Machine/Step.lean ====
section
/-! DEFINITION. One step: a turn of a core, of a sorter, or of the device, the network or the host. -/

namespace Sys2Proof.Machine

/-- Whose turn it is: the next of the turns that are set, else the free choice (log 1, DESIGN CHOICE). -/
def State.turn (s : State) : Turn := s.turns.headD (Config.nextTurn s.tick)

/-- The state in which the turn begins: time has passed (log 2, DESIGN CHOICE), the second part of a record may land (log 83, DESIGN CHOICE), and the
turn is taken off the list. -/
def State.ticked (s : State) : State :=
  State.passTime { s.landNow with turns := s.turns.tail, tick := s.tick + 1 } (Config.elapsed s.tick)

/-- One step of the machine. -/
def step (s : State) : Host.Outcome State Fault Refusal :=
  match s.ticked.begin s.turn with
  | .done o => o
  | .run i t => exec i t

/-- The machine with an instruction placed so that the next step runs exactly it (log 8, DESIGN CHOICE). -/
def State.withFetchWord (s : State) (nbits w : Nat) : State :=
  if nbits = 32 then s.placeSorter (BitVec.ofNat 32 w) else s.placeCore (BitVec.ofNat 128 w)

end Sys2Proof.Machine
end

