-- ==== Sys2Proof/Safety.lean ====
section
/-! DEFINITION. What counts as a safe run of the module, and the terms that the statements use: what a core's instruction leaves
unchanged, how the chain moves, and what an instruction of scalar operands does. -/

namespace Sys2Proof

open Sys2Proof.Machine

/-- A step that stops: only an exception of a supervisor core in trap mode does (R371, R377; log 5, DESIGN CHOICE). -/
def Stops (s : State) : Prop := ∃ c, step s = .fault (.supervisorTrap c)

/-- A run of n steps never stops. -/
def SafeRun (n : Nat) (s : State) : Prop := ∃ t, core.run n s = .next t

/-- Two names of one core: the supervisor of a cluster has sixteen (R108). -/
def sameCore (p q : CoreRef) : Prop := p.role = q.role ∧ (if p.role = .s then p.cell / 16 = q.cell / 16 else p.cell = q.cell)

/-- Scalar fields that stop nothing: no queue end but the core's own (R137), and every field ready (R27, R138). -/
def Ready (s : State) (srcs : List Reg) (dst : Option Reg) : Prop :=
  badQueue s.cur.core.role srcs dst = none ∧ s.scalarReady srcs dst = true

/-- Nothing changes but the core whose turn it is and the queues of its cell: all of memory, every other core, cell and context
state, and everything of the device read as before. -/
structure CoreAndQueues (s t : State) : Prop where
  device : { t with cells := s.cells, supervisors := s.supervisors } = s
  cells : ∀ n, n ≠ s.myCell → t.cellOf n = s.cellOf n
  cell : { t.cellOf s.myCell with ctx := s.myCtx } = s.cellOf s.myCell
  context : { t.myCtx with coreA := s.myCtx.coreA, coreX := s.myCtx.coreX, coreC := s.myCtx.coreC, queues := s.myCtx.queues } = s.myCtx
  cores : ∀ q, ¬ sameCore s.cur.core q → t.coreOf q = s.coreOf q

/-- The chain moves as the head instruction retires (R121, R122), and of the rest of the core only x registers, the signature fold
(R380), the quantum count (R339) and L of its fragment read (R219) can change. -/
structure Moves (k k' : Core) (word : BitVec 128) (taken : Bool) (target : VAddr) (annul : Bool) : Prop where
  head : k'.c0 = k.c1 ∧ k'.n0 = (k.n1 || annul)
  middle : k'.c1 = k.c2 ∧ k'.s1 = k.s2 ∧ k'.n1 = (k.n2 || annul)
  tail : k'.c2 = (if taken then target else 0) ∧ k'.s2 = !taken ∧ k'.n2 = false
  retired : k'.retired = k.retired + 1
  fold : k'.fold = (k.foldHead word).fold
  member : k'.member = k.countQuantum.member
  mark : k'.fragMark = none
  rest : { k' with c0 := k.c0, c1 := k.c1, c2 := k.c2, n0 := k.n0, n1 := k.n1, n2 := k.n2, s1 := k.s1, s2 := k.s2,
                   retired := k.retired, fold := k.fold, member := k.member, fragMark := k.fragMark, x := k.x } = k

/-- What the result of an instruction leaves in register n: x0 keeps reading as zero, and a queue code names none (R26). -/
def regAfter (k : Core) (res : Option (Reg × Word)) (n : Nat) : Word :=
  match res with
  | some (d, v) => if d.toNat = n ∧ n ≠ 0 ∧ n < 32 then v else k.xr n
  | none => k.xr n

/-- What an instruction leaves in queue q: each source that names it pops one entry (R27), and a destination that names it pushes
the result with everything the core accessed before (R139). -/
def queueAfter (s : State) (srcs : List Reg) (res : Option (Reg × Word)) (q : Nat) : List QEntry :=
  (s.queue q).drop (srcs.filter fun r => decide (r.toNat = 32 + q)).length ++
    match res with
    | some (d, v) => if d.toNat = 32 + q then [{ value := v, after := s.past s.cur.core }] else []
    | none => []

/-- An instruction of scalar operands retires with at most one result, as a branch or not: its whole effect and its frame, where
`k` is the core with what else the instruction changes in it, just before the chain moves. -/
structure RetiresFrom (s : State) (k : Core) (t : State) (srcs : List Reg) (res : Option (Reg × Word)) (taken : Bool) (target : VAddr)
    (annul : Bool) : Prop where
  frame : CoreAndQueues s t
  core : Moves k t.me s.cur.word taken target annul
  regs : ∀ n, t.me.xr n = regAfter s.me res n
  queues : ∀ q, t.queue q = queueAfter s srcs res q

/-- An instruction of scalar operands retires and changes nothing else of its core. -/
abbrev Retires (s t : State) (srcs : List Reg) (res : Option (Reg × Word)) (taken : Bool) (target : VAddr) (annul : Bool) : Prop :=
  RetiresFrom s s.me t srcs res taken target annul

/-- An instruction answers a next state in which it has retired with one result and nothing else. -/
def Yields (i : Instr) (s : State) (srcs : List Reg) (d : Reg) (v : Word) : Prop :=
  ∃ t, exec i s = .next t ∧ Retires s t srcs (some (d, v)) false 0 false

/-- A branch answers a next state in which it has retired, taken or not, and nothing else. -/
def Branches (i : Instr) (s : State) (srcs : List Reg) (taken : Bool) (target : VAddr) (annul : Bool) : Prop :=
  ∃ t, exec i s = .next t ∧ Retires s t srcs none taken target annul

/-- The atomics of two sources (R134). -/
def twoSourceAtomics (d a b : Reg) (esz ord : BitVec 2) (scope : BitVec 3) : List Instr :=
  [.amoswap d a b esz ord scope, .amoadd d a b esz ord scope, .amoand d a b esz ord scope, .amoor d a b esz ord scope,
    .amoxor d a b esz ord scope, .amomin d a b esz ord scope, .amomax d a b esz ord scope, .amominu d a b esz ord scope,
    .amomaxu d a b esz ord scope]

/-- A vector instruction answers the state in which it has popped its scalar sources and the stream ports among its vector sources,
raised its flags, written its result through D, and retired (R225 step 6). -/
def VYields (i : Instr) (s : State) (ss : List Reg) (vs : List Nat) (d : Reg) (v : Vec) (g : Flags) (sr : Bool) : Prop :=
  exec i s = .next (s.vfinish ss vs d v g sr)

/-- A vector instruction answers a result whose lane j is `f j`, with the flags that some lane raises (R195, R225). -/
def LaneWise (i : Instr) (s : State) (ss : List Reg) (vs : List Nat) (d : Reg) (w : Nat) (f : Nat → BitVec w) (g : Nat → Flags)
    (sr : Bool) : Prop :=
  ∃ v fl, VYields i s ss vs d v fl sr ∧ (∀ j, j < 512 / w → lane w v j = f j) ∧
    ∀ k : Nat, fl.getLsbD k = true ↔ ∃ j, j < 512 / w ∧ (g j).getLsbD k = true

/-- Operands of a vector instruction that stop nothing (R225 steps 2 to 4). -/
def VReady (s : State) (ss : List Reg) (sd : Option Reg) (vs : List Nat) (frag : Option VSrc) (vd : Option Nat) : Prop :=
  s.vblocked ss sd vs frag vd = none

/-- The turn of core p in state s reaches the instruction at p's head in state v: time has passed (log 2, DESIGN CHOICE), the core runs its chain,
and in trap mode, or with no event, interrupt or ended quantum before it, nothing comes first (R35, R339, R350, R369); a supervisor core
has neither events nor firings (R371, R386, R389). -/
def AtHead (s : State) (p : CoreRef) (v : State) : Prop :=
  let b := { s.ticked with cur := { s.ticked.cur with core := p, word := 0 } }
  s.turn = .core p ∧
    ((p.role = .s ∧ p.cell % 16 = 0 ∧ p.cell < 1024 ∧ 4 ≤ b.service.stage ∧ b.service.shutDown = false ∧ b.unitOut 1 (p.cell / 16) = false ∧
        b.restarting (p.cell / 16) = false ∧ (∃ k, tfind b.supervisors (p.cell / 16) = some k ∧ (k.running || k.trapMode) = true) ∧ v = b) ∨
      (p.role ≠ .s ∧ b.running p = true ∧ b.me.trapMode = true ∧ v = b) ∨
      (p.role ≠ .s ∧ b.running p = true ∧ b.me.trapMode = false ∧ v = b.noteArrival p ∧
        v.me.events = [] ∧ v.me.preempt = false ∧ v.me.watchdog = none ∧ v.me.running = true ∧ v.me.atEnd = false))

/-- What word an instruction of the table has: one that a core fetches (R17, R20 to R24), one of a sorter's kernel (R280), or none, as the device,
network and host steps and the three operations that a MIXCTL word names beside DEREG (R308). -/
inductive WordKind where
  | core | sorter | none
  deriving DecidableEq, Repr

/-- The kind of an instruction's word, row by row of the table. -/
def wordKind (i : Instr) : WordKind :=
  match i with
  | .add .. | .adds .. | .addus .. | .sub .. | .subs .. | .subus .. | .and .. | .andn .. | .or .. | .xor .. | .shl .. | .shr .. | .sha ..
  | .cmpeq .. | .cmpne .. | .cmplt .. | .cmpge .. | .cmpltu .. | .cmpgeu .. | .addi .. | .andi .. | .ori .. | .xori .. | .shil .. | .shir ..
  | .shia .. | .cmpieq .. | .cmpine .. | .cmpilt .. | .cmpige .. | .cmpiltu .. | .cmpigeu .. | .li .. | .liu .. | .liw .. | .mul .. | .mulh ..
  | .mulhu .. | .mula .. | .div .. | .divu .. | .divrem .. | .divremu .. | .bitcnt .. | .bitclz .. | .bitctz .. | .sel .. | .beq .. | .bne ..
  | .blt .. | .bge .. | .bltu .. | .bgeu .. | .bz .. | .bzn .. | .j .. | .jl .. | .jr .. | .csrd .. | .cswr .. | .csset .. | .csclr .. | .ld ..
  | .lds .. | .st .. | .ld64 .. | .st64 .. | .amoswap .. | .amoadd .. | .amoand .. | .amoor .. | .amoxor .. | .amomin .. | .amomax ..
  | .amominu .. | .amomaxu .. | .amocas .. | .fence .. | .qlen .. | .qroom .. | .qpeek .. | .strgo .. | .strstop .. | .strwait .. | .strcnt ..
  | .semw .. | .semp .. | .semtry .. | .semrd .. | .barset .. | .bararr .. | .barwait .. | .bartest .. | .barexp .. | .copy .. | .cwait ..
  | .ctest .. | .ccnt .. | .tidld .. | .tidst .. | .tidbase .. | .osclaim .. | .ostry .. | .osrel .. | .osst .. | .vadd .. | .vsub .. | .vmul ..
  | .vfma .. | .vmin .. | .vmax .. | .vabs .. | .vneg .. | .vexp2 .. | .vrcp .. | .vrsq .. | .viadd .. | .viadds .. | .viaddus .. | .visub ..
  | .visubs .. | .visubus .. | .vimul .. | .vimulh .. | .vimulhu .. | .vimin .. | .vimax .. | .viminu .. | .vimaxu .. | .viand .. | .vior ..
  | .vixor .. | .viandn .. | .vcmpfeq .. | .vcmpflt .. | .vcmpfle .. | .vcmpfun .. | .vcmpieq .. | .vcmpilt .. | .vcmpiltu .. | .vcmpsel ..
  | .vshl .. | .vshr .. | .vsha .. | .vshls .. | .vshrs .. | .vshas .. | .vredsum .. | .vredmax .. | .vredmin .. | .vredisum .. | .vredimax ..
  | .vredimin .. | .vredor .. | .vredcnt .. | .vmov .. | .vmovs .. | .vmovx .. | .vmovi .. | .vmovp .. | .vmovsr .. | .vcvif .. | .vcvn ..
  | .vcvfi .. | .vcvw .. | .vqpq8 .. | .vqpq4 .. | .vqpf8ab .. | .vqpf4ab .. | .vqpdq8 .. | .vqpdq4 .. | .vstrleft .. | .vstrrow ..
  | .vstrdrain .. | .rst .. | .rstcp .. | .rstpm .. | .rstpmrd .. | .rld .. | .rlds .. | .rldadd .. | .mcst .. | .crel .. | .crelm .. | .rcptw ..
  | .rcpttest .. | .mixreg .. | .mixadd .. | .mixrd .. | .mixst .. | .mixstep .. | .mixwait .. | .dereg .. | .ohand .. | .otake .. | .odrop ..
  | .otest .. | .msend .. | .mpop .. | .mlen .. | .mlaunch .. | .chmask .. | .chunmask .. | .chrd .. | .chprio .. | .creg .. | .sysflush ..
  | .sigen .. | .sigrd .. | .nop | .cseal | .fend | .cend | .eret | .syscall | .sysbrk | .sysabort | .syspark => .core
  | .sorterAdd .. | .sorterSub .. | .sorterAnd .. | .sorterOr .. | .sorterXor .. | .sorterShl .. | .sorterShr .. | .setltu .. | .seteq ..
  | .addk .. | .andk .. | .shlk .. | .shrk .. | .movk .. | .sorterBeq .. | .sorterBne .. | .sorterBltu .. | .jmp .. | .hget .. | .hset ..
  | .pldw .. | .pstw .. | .wget .. | .wset .. | .fsel .. | .sld .. | .sst .. | .sldw .. | .sstw .. | .gld .. | .gmem .. | .emit .. | .emitg ..
  | .nack .. | .sorterTrap .. | .fwd | .drop => .sorter
  | .auto | .share | .nbrset | .annulledPass | .interrupt | .deferredEvent | .streamElement | .semaphoreStore | .copySector | .copyCompletion
  | .mac | .matrixMul | .fill | .mark | .matrixGate | .matrixComplete | .flush | .resume | .countedWrite | .release | .outcomeRecordExpiry
  | .roundExpiry | .senderRoundExpiry | .shortfallNotice | .receipt | .nackPacket | .readRequest | .readReply | .rldRoundExpiry | .linkControl
  | .bufferInterval | .flitBeat | .messageLeavesSendBuffer | .sorterPacket | .load | .attach | .detach | .rearm | .state | .mixInterval
  | .perform | .drain | .widen | .firingBegin | .launchPacket | .launchCompletion | .energyInterval | .watchdog | .quantumEnd | .boundary
  | .preemptionRequest | .switchOut | .restore | .contextRemoval | .pageWalk | .scrubVisit | .unitFence | .powerWindow | .thermalLimit
  | .moduleReset | .evhead | .tail | .plimit | .registerWrite | .ctxset | .ctxremove | .sorter | .fabcfg | .serviceFence | .declare | .railcal
  | .railReturn | .fwstage | .mode | .errcnt | .walkans | .fwact | .resend | .getVersion | .getCapabilities | .negotiateAlgorithms | .getDigests
  | .getCertificate | .challenge | .getMeasurements | .keyExchange | .finish | .hostMemoryAccess | .failureDeclaration => .none

/-- What every step keeps of memory: its canonical form, poisoned sectors listed in rising order without repeats, and a write that is
listed has not reached its widest scope (R318, R319). -/
def MemoryOk (s : State) : Prop :=
  s.mem.wf = true ∧ s.poison.Pairwise (· < ·) ∧ ∀ w ∈ s.writes, w.scope < w.top

end Sys2Proof
end

