-- ==== Sys2Proof/WellFormed.lean ====
section
/-! DEFINITION. Well-formed instructions: the register codes, modifiers and combinations an encoding admits (R21, R26, R28,
R32, R33 checks 8, 10 and 11; R280). -/

namespace Sys2Proof

/-- A scalar field names x0 to x31 or q0 to q6 (R26). -/
def scalarOk (r : Reg) : Bool := decide (r.toNat < 39)

/-- A vector field names v0 to v31 (R28). -/
def vectorOk (r : Reg) : Bool := decide (r.toNat < 32)

/-- Field A of a Q instruction names q0 to q6 (R140). -/
def queueOk (r : Reg) : Bool := decide (32 ≤ r.toNat) && decide (r.toNat < 39)

/-- A second vector source: a vector register or any accumulator fragment (R22, R28). -/
def vsrcOk (s : VSrc) : Bool :=
  match s with
  | .reg r => vectorOk r
  | .frag _ _ => true

/-- A fragment source needs ESZ = W where ESZ is used (R224). -/
def fragEszOk (s : VSrc) (esz : BitVec 2) : Bool :=
  match s with
  | .reg _ => true
  | .frag _ _ => decide (esz = 2#2)

/-- SCOPE holds no reserved value (R21). -/
def scopeOk (s : BitVec 3) : Bool := decide (s.toNat < 5)

/-- RM holds no reserved value (R21). -/
def rmOk (r : BitVec 3) : Bool := decide (r ≠ 7#3)

/-- NUL holds no reserved value (R21). -/
def nulOk (n : BitVec 2) : Bool := decide (n ≠ 3#2)

/-- A field that the instruction does not use in this form is zero (R32). -/
def zeroOk {n : Nat} (b : BitVec n) : Bool := decide (b = 0#n)

/-- The transform of a COPY word, EXT[45:43] (R160). -/
def copyForm (ext : BitVec 64) : Nat := (ext.extractLsb' 43 3).toNat

/-- The EXT of a COPY: reserved bits zero, SEMN zero without SEMEN, BAROFF zero without BAREN (R160). -/
def copyExtOk (ext : BitVec 64) : Bool :=
  zeroOk (ext.extractLsb' 0 17) &&
    (ext.getLsbD 38 || zeroOk (ext.extractLsb' 33 5)) && (ext.getLsbD 32 || zeroOk (ext.extractLsb' 17 15))

/-- The formats that VCVN and VCVW name: 1 to 7 and 10 to 13 (R235). -/
def vcvOk (f : BitVec 6) : Bool :=
  (decide (1 ≤ f.toNat) && decide (f.toNat ≤ 7)) || (decide (10 ≤ f.toNat) && decide (f.toNat ≤ 13))

/-- A sorter field that names w0 to w3 (R280). -/
def wideOk (r : BitVec 4) : Bool := decide (r.toNat < 4)

/-- A sorter header field number, 0 to 13 (R284). -/
def headerOk (f : BitVec 5) : Bool := decide (f.toNat ≤ 13)

/-- The forms the encodings admit. A device, network or host row carries no field (its operands: Args.wellFormed). -/
def Instr.wellFormed (i : Instr) : Bool :=
  match i with
  | .nop => true
  | .add d a b => scalarOk d && scalarOk a && scalarOk b
  | .adds d a b => scalarOk d && scalarOk a && scalarOk b
  | .addus d a b => scalarOk d && scalarOk a && scalarOk b
  | .sub d a b => scalarOk d && scalarOk a && scalarOk b
  | .subs d a b => scalarOk d && scalarOk a && scalarOk b
  | .subus d a b => scalarOk d && scalarOk a && scalarOk b
  | .and d a b => scalarOk d && scalarOk a && scalarOk b
  | .andn d a b => scalarOk d && scalarOk a && scalarOk b
  | .or d a b => scalarOk d && scalarOk a && scalarOk b
  | .xor d a b => scalarOk d && scalarOk a && scalarOk b
  | .shl d a b => scalarOk d && scalarOk a && scalarOk b
  | .shr d a b => scalarOk d && scalarOk a && scalarOk b
  | .sha d a b => scalarOk d && scalarOk a && scalarOk b
  | .cmpeq d a b => scalarOk d && scalarOk a && scalarOk b
  | .cmpne d a b => scalarOk d && scalarOk a && scalarOk b
  | .cmplt d a b => scalarOk d && scalarOk a && scalarOk b
  | .cmpge d a b => scalarOk d && scalarOk a && scalarOk b
  | .cmpltu d a b => scalarOk d && scalarOk a && scalarOk b
  | .cmpgeu d a b => scalarOk d && scalarOk a && scalarOk b
  | .addi d a _ => scalarOk d && scalarOk a
  | .andi d a _ => scalarOk d && scalarOk a
  | .ori d a _ => scalarOk d && scalarOk a
  | .xori d a _ => scalarOk d && scalarOk a
  | .shil d a _ => scalarOk d && scalarOk a
  | .shir d a _ => scalarOk d && scalarOk a
  | .shia d a _ => scalarOk d && scalarOk a
  | .cmpieq d a _ => scalarOk d && scalarOk a
  | .cmpine d a _ => scalarOk d && scalarOk a
  | .cmpilt d a _ => scalarOk d && scalarOk a
  | .cmpige d a _ => scalarOk d && scalarOk a
  | .cmpiltu d a _ => scalarOk d && scalarOk a
  | .cmpigeu d a _ => scalarOk d && scalarOk a
  | .li d _ => scalarOk d
  | .liu d _ => scalarOk d
  | .liw d _ => scalarOk d
  | .mul d a b => scalarOk d && scalarOk a && scalarOk b
  | .mulh d a b => scalarOk d && scalarOk a && scalarOk b
  | .mulhu d a b => scalarOk d && scalarOk a && scalarOk b
  | .mula d a b c => scalarOk d && scalarOk a && scalarOk b && scalarOk c
  | .div d a b => scalarOk d && scalarOk a && scalarOk b
  | .divu d a b => scalarOk d && scalarOk a && scalarOk b
  | .divrem d a b => scalarOk d && scalarOk a && scalarOk b
  | .divremu d a b => scalarOk d && scalarOk a && scalarOk b
  | .bitcnt d a => scalarOk d && scalarOk a
  | .bitclz d a => scalarOk d && scalarOk a
  | .bitctz d a => scalarOk d && scalarOk a
  | .sel d a b c => scalarOk d && scalarOk a && scalarOk b && scalarOk c
  | .beq a b nul _ => scalarOk a && scalarOk b && nulOk nul
  | .bne a b nul _ => scalarOk a && scalarOk b && nulOk nul
  | .blt a b nul _ => scalarOk a && scalarOk b && nulOk nul
  | .bge a b nul _ => scalarOk a && scalarOk b && nulOk nul
  | .bltu a b nul _ => scalarOk a && scalarOk b && nulOk nul
  | .bgeu a b nul _ => scalarOk a && scalarOk b && nulOk nul
  | .bz a nul _ => scalarOk a && nulOk nul
  | .bzn a nul _ => scalarOk a && nulOk nul
  | .j nul _ => nulOk nul
  | .jl d nul _ => scalarOk d && nulOk nul
  | .jr d a nul => scalarOk d && scalarOk a && nulOk nul
  | .csrd d _ => scalarOk d
  | .cswr a _ => scalarOk a
  | .csset d a _ => scalarOk d && scalarOk a
  | .csclr d a _ => scalarOk d && scalarOk a
  | .ld d a _ ord scope _ => scalarOk d && scalarOk a && scopeOk scope && decide (ord.toNat < 2)
  | .lds d a esz ord scope _ => scalarOk d && scalarOk a && scopeOk scope && decide (ord.toNat < 2) && decide (esz ≠ 3#2)
  | .st d a _ ord scope _ => scalarOk d && scalarOk a && scopeOk scope && decide (ord.toNat % 2 = 0)
  | .ld64 d a ord scope _ => vectorOk d && scalarOk a && scopeOk scope && decide (ord.toNat < 2)
  | .st64 d a ord scope _ => vectorOk d && scalarOk a && scopeOk scope && decide (ord.toNat % 2 = 0)
  | .amoswap d a b esz _ scope => scalarOk d && scalarOk a && scalarOk b && scopeOk scope && decide (2 ≤ esz.toNat)
  | .amoadd d a b esz _ scope => scalarOk d && scalarOk a && scalarOk b && scopeOk scope && decide (2 ≤ esz.toNat)
  | .amoand d a b esz _ scope => scalarOk d && scalarOk a && scalarOk b && scopeOk scope && decide (2 ≤ esz.toNat)
  | .amoor d a b esz _ scope => scalarOk d && scalarOk a && scalarOk b && scopeOk scope && decide (2 ≤ esz.toNat)
  | .amoxor d a b esz _ scope => scalarOk d && scalarOk a && scalarOk b && scopeOk scope && decide (2 ≤ esz.toNat)
  | .amomin d a b esz _ scope => scalarOk d && scalarOk a && scalarOk b && scopeOk scope && decide (2 ≤ esz.toNat)
  | .amomax d a b esz _ scope => scalarOk d && scalarOk a && scalarOk b && scopeOk scope && decide (2 ≤ esz.toNat)
  | .amominu d a b esz _ scope => scalarOk d && scalarOk a && scalarOk b && scopeOk scope && decide (2 ≤ esz.toNat)
  | .amomaxu d a b esz _ scope => scalarOk d && scalarOk a && scalarOk b && scopeOk scope && decide (2 ≤ esz.toNat)
  | .amocas d a b c esz _ scope => scalarOk d && scalarOk a && scalarOk b && scalarOk c && scopeOk scope && decide (2 ≤ esz.toNat)
  | .fence ord scope => scopeOk scope && decide (ord ≠ 0#2)
  | .qlen d a => scalarOk d && queueOk a
  | .qroom d a => scalarOk d && queueOk a
  | .qpeek d a => scalarOk d && queueOk a
  | .strgo a _ _ _ _ => scalarOk a
  | .strstop _ => true
  | .strwait _ => true
  | .strcnt d _ => scalarOk d
  | .semw _ => true
  | .semp _ => true
  | .semtry d _ => scalarOk d
  | .semrd d _ => scalarOk d
  | .barset d a _ => scalarOk d && scalarOk a
  | .bararr d a _ => scalarOk d && scalarOk a
  | .barwait d a _ => scalarOk d && scalarOk a
  | .bartest d a _ => scalarOk d && scalarOk a
  | .barexp d a _ => scalarOk d && scalarOk a
  | .copy d a b c rm ext => scalarOk d && scalarOk a && scalarOk b && (if copyForm ext = 6 ∨ copyForm ext = 7 then scalarOk c else zeroOk c) && (if copyForm ext = 2 then rmOk rm else zeroOk rm) && copyExtOk ext
  | .cseal => true
  | .cwait _ => true
  | .ctest d _ => scalarOk d
  | .ccnt d => scalarOk d
  | .tidld a _ => scalarOk a
  | .tidst a _ => scalarOk a
  | .tidbase a _ => scalarOk a
  | .osclaim _ => true
  | .ostry d _ => scalarOk d
  | .osrel _ => true
  | .osst d => scalarOk d
  | .vadd d a b rm => vectorOk d && vectorOk a && vsrcOk b && rmOk rm && decide (rm ≠ 6#3)
  | .vsub d a b rm => vectorOk d && vectorOk a && vsrcOk b && rmOk rm && decide (rm ≠ 6#3)
  | .vmul d a b rm => vectorOk d && vectorOk a && vsrcOk b && rmOk rm && decide (rm ≠ 6#3)
  | .vfma d a b c rm => vectorOk d && vectorOk a && vsrcOk b && vectorOk c && rmOk rm && decide (rm ≠ 6#3)
  | .vmin d a b => vectorOk d && vectorOk a && vsrcOk b
  | .vmax d a b => vectorOk d && vectorOk a && vsrcOk b
  | .vabs d b => vectorOk d && vsrcOk b
  | .vneg d b => vectorOk d && vsrcOk b
  | .vexp2 d b => vectorOk d && vsrcOk b
  | .vrcp d b => vectorOk d && vsrcOk b
  | .vrsq d b => vectorOk d && vsrcOk b
  | .viadd d a b esz => vectorOk d && vectorOk a && vsrcOk b && fragEszOk b esz
  | .viadds d a b esz => vectorOk d && vectorOk a && vsrcOk b && fragEszOk b esz
  | .viaddus d a b esz => vectorOk d && vectorOk a && vsrcOk b && fragEszOk b esz
  | .visub d a b esz => vectorOk d && vectorOk a && vsrcOk b && fragEszOk b esz
  | .visubs d a b esz => vectorOk d && vectorOk a && vsrcOk b && fragEszOk b esz
  | .visubus d a b esz => vectorOk d && vectorOk a && vsrcOk b && fragEszOk b esz
  | .vimul d a b esz => vectorOk d && vectorOk a && vsrcOk b && fragEszOk b esz
  | .vimulh d a b esz => vectorOk d && vectorOk a && vsrcOk b && fragEszOk b esz
  | .vimulhu d a b esz => vectorOk d && vectorOk a && vsrcOk b && fragEszOk b esz
  | .vimin d a b esz => vectorOk d && vectorOk a && vsrcOk b && fragEszOk b esz
  | .vimax d a b esz => vectorOk d && vectorOk a && vsrcOk b && fragEszOk b esz
  | .viminu d a b esz => vectorOk d && vectorOk a && vsrcOk b && fragEszOk b esz
  | .vimaxu d a b esz => vectorOk d && vectorOk a && vsrcOk b && fragEszOk b esz
  | .viand d a b esz => vectorOk d && vectorOk a && vsrcOk b && fragEszOk b esz
  | .vior d a b esz => vectorOk d && vectorOk a && vsrcOk b && fragEszOk b esz
  | .vixor d a b esz => vectorOk d && vectorOk a && vsrcOk b && fragEszOk b esz
  | .viandn d a b esz => vectorOk d && vectorOk a && vsrcOk b && fragEszOk b esz
  | .vcmpfeq d a b => vectorOk d && vectorOk a && vsrcOk b
  | .vcmpflt d a b => vectorOk d && vectorOk a && vsrcOk b
  | .vcmpfle d a b => vectorOk d && vectorOk a && vsrcOk b
  | .vcmpfun d a b => vectorOk d && vectorOk a && vsrcOk b
  | .vcmpieq d a b esz => vectorOk d && vectorOk a && vsrcOk b && fragEszOk b esz
  | .vcmpilt d a b esz => vectorOk d && vectorOk a && vsrcOk b && fragEszOk b esz
  | .vcmpiltu d a b esz => vectorOk d && vectorOk a && vsrcOk b && fragEszOk b esz
  | .vcmpsel d a b c esz => vectorOk d && vectorOk a && vsrcOk b && vectorOk c && fragEszOk b esz
  | .vshl d a b _ => vectorOk d && vectorOk a && vectorOk b
  | .vshr d a b _ => vectorOk d && vectorOk a && vectorOk b
  | .vsha d a b _ => vectorOk d && vectorOk a && vectorOk b
  | .vshls d a c _ => vectorOk d && vectorOk a && scalarOk c
  | .vshrs d a c _ => vectorOk d && vectorOk a && scalarOk c
  | .vshas d a c _ => vectorOk d && vectorOk a && scalarOk c
  | .vredsum d b rm => vectorOk d && vsrcOk b && rmOk rm && decide (rm ≠ 6#3)
  | .vredmax d b => vectorOk d && vsrcOk b
  | .vredmin d b => vectorOk d && vsrcOk b
  | .vredisum d b esz => vectorOk d && vsrcOk b && fragEszOk b esz
  | .vredimax d b esz => vectorOk d && vsrcOk b && fragEszOk b esz
  | .vredimin d b esz => vectorOk d && vsrcOk b && fragEszOk b esz
  | .vredor d b esz => vectorOk d && vsrcOk b && fragEszOk b esz
  | .vredcnt d b esz => scalarOk d && vsrcOk b && fragEszOk b esz
  | .vmov d b => vectorOk d && vsrcOk b
  | .vmovs d a _ => vectorOk d && scalarOk a
  | .vmovx d a c _ => scalarOk d && vectorOk a && scalarOk c
  | .vmovi d a b c _ => vectorOk d && vectorOk a && scalarOk b && scalarOk c
  | .vmovp d a b _ => vectorOk d && vectorOk a && vectorOk b
  | .vmovsr d b c => vectorOk d && vsrcOk b && scalarOk c
  | .vcvif d b rm => vectorOk d && vsrcOk b && rmOk rm
  | .vcvn d a b f rm => vectorOk d && vectorOk a && vsrcOk b && rmOk rm && vcvOk f
  | .vcvfi d b rm => vectorOk d && vsrcOk b && rmOk rm
  | .vcvw d b f => vectorOk d && vectorOk b && vcvOk f
  | .vqpq8 d a b c rm => vectorOk d && vectorOk a && vsrcOk b && scalarOk c && rmOk rm
  | .vqpq4 d a b c rm => vectorOk d && vectorOk a && vsrcOk b && scalarOk c && rmOk rm
  | .vqpf8ab d a b c rm => vectorOk d && vectorOk a && vsrcOk b && scalarOk c && rmOk rm
  | .vqpf4ab d a b c rm => vectorOk d && vectorOk a && vsrcOk b && scalarOk c && rmOk rm
  | .vqpdq8 d b c => vectorOk d && vectorOk b && scalarOk c
  | .vqpdq4 d b c => vectorOk d && vectorOk b && scalarOk c
  | .vstrleft d _ => scalarOk d
  | .vstrrow d _ => scalarOk d
  | .vstrdrain _ => true
  | .rst d a _ _ => scalarOk d && scalarOk a
  | .rstcp d a _ => scalarOk d && scalarOk a
  | .rstpm a => scalarOk a
  | .rstpmrd d => scalarOk d
  | .rld d a _ _ => scalarOk d && scalarOk a
  | .rlds d a esz _ => scalarOk d && scalarOk a && decide (esz ≠ 3#2)
  | .rldadd d a esz _ => scalarOk d && scalarOk a && decide (2 ≤ esz.toNat)
  | .mcst d a b c => scalarOk d && scalarOk a && scalarOk b && scalarOk c
  | .crel d a b esz ext => scalarOk d && scalarOk a && scalarOk b && decide (2 ≤ esz.toNat) && zeroOk (ext.extractLsb' 0 24)
  | .crelm d a b c esz ext => scalarOk d && scalarOk a && scalarOk b && scalarOk c && decide (2 ≤ esz.toNat) && zeroOk (ext.extractLsb' 0 24)
  | .rcptw d _ => scalarOk d
  | .rcpttest d _ => scalarOk d
  | .mixreg d a => scalarOk d && scalarOk a
  | .mixadd d a b => scalarOk d && scalarOk a && scalarOk b
  | .mixrd d a b _ => scalarOk d && scalarOk a && scalarOk b
  | .mixst d a b => scalarOk d && scalarOk a && scalarOk b
  | .mixstep d a b => scalarOk d && scalarOk a && scalarOk b
  | .mixwait d a => scalarOk d && scalarOk a
  | .dereg d a b c => scalarOk d && scalarOk a && scalarOk b && scalarOk c
  | .auto => true
  | .share => true
  | .nbrset => true
  | .ohand d a _ => scalarOk d && scalarOk a
  | .otake d a _ => scalarOk d && scalarOk a
  | .odrop a _ => scalarOk a
  | .otest d a _ => scalarOk d && scalarOk a
  | .msend a b c => scalarOk a && scalarOk b && scalarOk c
  | .mpop d => scalarOk d
  | .mlen d a => scalarOk d && scalarOk a
  | .mlaunch d b => scalarOk d && scalarOk b
  | .fend => true
  | .chmask _ => true
  | .chunmask _ => true
  | .chrd d _ => scalarOk d
  | .chprio a _ => scalarOk a
  | .creg _ => true
  | .cend => true
  | .eret => true
  | .syscall => true
  | .sysbrk => true
  | .sysflush a => scalarOk a
  | .sysabort => true
  | .syspark => true
  | .sigen a => scalarOk a
  | .sigrd d => scalarOk d
  | .sorterAdd _ _ _ => true
  | .sorterSub _ _ _ => true
  | .sorterAnd _ _ _ => true
  | .sorterOr _ _ _ => true
  | .sorterXor _ _ _ => true
  | .sorterShl _ _ _ => true
  | .sorterShr _ _ _ => true
  | .setltu _ _ _ => true
  | .seteq _ _ _ => true
  | .addk _ _ _ => true
  | .andk _ _ _ => true
  | .shlk _ _ _ => true
  | .shrk _ _ _ => true
  | .movk _ _ => true
  | .sorterBeq _ _ _ => true
  | .sorterBne _ _ _ => true
  | .sorterBltu _ _ _ => true
  | .jmp _ => true
  | .hget _ f => headerOk f
  | .hset _ f => headerOk f
  | .pldw wd _ => wideOk wd
  | .pstw wa _ => wideOk wa
  | .wget _ wa _ => wideOk wa
  | .wset wd _ _ => wideOk wd
  | .fsel _ => true
  | .sld _ _ => true
  | .sst _ _ => true
  | .sldw wd _ => wideOk wd
  | .sstw wa _ => wideOk wa
  | .gld _ _ => true
  | .gmem _ _ _ => true
  | .emit _ => true
  | .emitg _ => true
  | .fwd => true
  | .drop => true
  | .nack _ => true
  | .sorterTrap _ => true
  | .annulledPass => true
  | .interrupt => true
  | .deferredEvent => true
  | .streamElement => true
  | .semaphoreStore => true
  | .copySector => true
  | .copyCompletion => true
  | .mac => true
  | .matrixMul => true
  | .fill => true
  | .mark => true
  | .matrixGate => true
  | .matrixComplete => true
  | .flush => true
  | .resume => true
  | .countedWrite => true
  | .release => true
  | .outcomeRecordExpiry => true
  | .roundExpiry => true
  | .senderRoundExpiry => true
  | .shortfallNotice => true
  | .receipt => true
  | .nackPacket => true
  | .readRequest => true
  | .readReply => true
  | .rldRoundExpiry => true
  | .linkControl => true
  | .bufferInterval => true
  | .flitBeat => true
  | .messageLeavesSendBuffer => true
  | .sorterPacket => true
  | .load => true
  | .attach => true
  | .detach => true
  | .rearm => true
  | .state => true
  | .mixInterval => true
  | .perform => true
  | .drain => true
  | .widen => true
  | .firingBegin => true
  | .launchPacket => true
  | .launchCompletion => true
  | .energyInterval => true
  | .watchdog => true
  | .quantumEnd => true
  | .boundary => true
  | .preemptionRequest => true
  | .switchOut => true
  | .restore => true
  | .contextRemoval => true
  | .pageWalk => true
  | .scrubVisit => true
  | .unitFence => true
  | .powerWindow => true
  | .thermalLimit => true
  | .moduleReset => true
  | .evhead => true
  | .tail => true
  | .plimit => true
  | .registerWrite => true
  | .ctxset => true
  | .ctxremove => true
  | .sorter => true
  | .fabcfg => true
  | .serviceFence => true
  | .declare => true
  | .railcal => true
  | .railReturn => true
  | .fwstage => true
  | .mode => true
  | .errcnt => true
  | .walkans => true
  | .fwact => true
  | .resend => true
  | .getVersion => true
  | .getCapabilities => true
  | .negotiateAlgorithms => true
  | .getDigests => true
  | .getCertificate => true
  | .challenge => true
  | .getMeasurements => true
  | .keyExchange => true
  | .finish => true
  | .hostMemoryAccess => true
  | .failureDeclaration => true

end Sys2Proof
end

