-- ==== Sys2Proof/Certificates/Slice0/Obligations.lean ====
section
/-! DEFINITION. The statements about the Stoxian module: one `Prop` for each, from the numbered rules of the spec. -/

open Sys2Proof Sys2Proof.Machine

/-- R110: the ten register-register arithmetic and logic instructions complete with their result and nothing else.
R111: the shifts, by all 64 bits of a register or by a six-bit immediate; an amount from 64 upward shifts everything out.
R113, R114, R31: the immediate forms, the loads of an immediate, and NOP, which retires and does nothing else.
R112: the comparisons write 1 or 0; the immediate forms compare with the sign-extended 25-bit immediate. -/
def Obligations.ArithmeticShiftAndCompareResults : Prop :=
  (∀ (s : State) (d a b : Reg), Ready s [a, b] (some d) →
     let x := s.sval [] a
     let y := s.sval [a] b
     Yields (.add d a b) s [a, b] d (wrap (uns x + uns y)) ∧
     Yields (.adds d a b) s [a, b] d (satS (sgn x + sgn y)) ∧
     Yields (.addus d a b) s [a, b] d (satU (uns x + uns y)) ∧
     Yields (.sub d a b) s [a, b] d (wrap (uns x - uns y)) ∧
     Yields (.subs d a b) s [a, b] d (satS (sgn x - sgn y)) ∧
     Yields (.subus d a b) s [a, b] d (satU (uns x - uns y)) ∧
     Yields (.and d a b) s [a, b] d (x &&& y) ∧
     Yields (.andn d a b) s [a, b] d (x &&& ~~~y) ∧
     Yields (.or d a b) s [a, b] d (x ||| y) ∧
     Yields (.xor d a b) s [a, b] d (x ^^^ y)) ∧
  (∀ (s : State) (d a b : Reg) (n : BitVec 6),
     (Ready s [a, b] (some d) →
       let x := s.sval [] a
       let m := (s.sval [a] b).toNat
       Yields (.shl d a b) s [a, b] d (if m < 64 then x <<< m else 0) ∧
       Yields (.shr d a b) s [a, b] d (if m < 64 then x >>> m else 0) ∧
       Yields (.sha d a b) s [a, b] d (if m < 64 then x.sshiftRight m else if x.toInt < 0 then -1 else 0)) ∧
     (Ready s [a] (some d) →
       let x := s.sval [] a
       Yields (.shil d a n) s [a] d (x <<< n.toNat) ∧
       Yields (.shir d a n) s [a] d (x >>> n.toNat) ∧
       Yields (.shia d a n) s [a] d (x.sshiftRight n.toNat))) ∧
  (∀ (s : State) (d a : Reg) (imm : BitVec 25) (w : BitVec 32) (e : BitVec 64),
     (Ready s [a] (some d) →
       let x := s.sval [] a
       Yields (.addi d a imm) s [a] d (wrap (uns x + imm.toInt)) ∧
       Yields (.andi d a imm) s [a] d (x &&& wrap imm.toInt) ∧
       Yields (.ori d a imm) s [a] d (x ||| wrap imm.toInt) ∧
       Yields (.xori d a imm) s [a] d (x ^^^ wrap imm.toInt)) ∧
     (Ready s [] (some d) →
       Yields (.li d w) s [] d (wrap w.toInt) ∧
       Yields (.liu d w) s [] d (wrap w.toNat) ∧
       Yields (.liw d e) s [] d e) ∧
     Branches .nop s [] false 0 false) ∧
  (∀ (s : State) (d a b : Reg) (imm : BitVec 25),
     (Ready s [a, b] (some d) →
       let x := s.sval [] a
       let y := s.sval [a] b
       Yields (.cmpeq d a b) s [a, b] d (if x = y then 1 else 0) ∧
       Yields (.cmpne d a b) s [a, b] d (if x = y then 0 else 1) ∧
       Yields (.cmplt d a b) s [a, b] d (if x.toInt < y.toInt then 1 else 0) ∧
       Yields (.cmpge d a b) s [a, b] d (if x.toInt < y.toInt then 0 else 1) ∧
       Yields (.cmpltu d a b) s [a, b] d (if x.toNat < y.toNat then 1 else 0) ∧
       Yields (.cmpgeu d a b) s [a, b] d (if x.toNat < y.toNat then 0 else 1)) ∧
     (Ready s [a] (some d) →
       let x := s.sval [] a
       let y := imm.signExtend 64
       Yields (.cmpieq d a imm) s [a] d (if x = y then 1 else 0) ∧
       Yields (.cmpine d a imm) s [a] d (if x = y then 0 else 1) ∧
       Yields (.cmpilt d a imm) s [a] d (if x.toInt < y.toInt then 1 else 0) ∧
       Yields (.cmpige d a imm) s [a] d (if x.toInt < y.toInt then 0 else 1) ∧
       Yields (.cmpiltu d a imm) s [a] d (if x.toNat < y.toNat then 1 else 0) ∧
       Yields (.cmpigeu d a imm) s [a] d (if x.toNat < y.toNat then 0 else 1)))

/-- R115, R116: products and quotients. The low half of a product, its signed and unsigned high halves; a quotient truncated
toward zero, a remainder with the sign of the dividend, and their results for a zero divisor.
R116: a = q × b + rem for every dividend and every divisor but zero, where q is what DIV gives and rem what DIVREM gives; and
−2^63 divided by −1 gives −2^63 with remainder 0. -/
def Obligations.MultiplyAndDivideResults : Prop :=
  (∀ (s : State) (d a b c : Reg),
     (Ready s [a, b] (some d) →
       let x := s.sval [] a
       let y := s.sval [a] b
       Yields (.mul d a b) s [a, b] d (x * y) ∧
       Yields (.mulh d a b) s [a, b] d (BitVec.ofInt 64 (x.toInt * y.toInt / 2 ^ 64)) ∧
       Yields (.mulhu d a b) s [a, b] d (BitVec.ofNat 64 (x.toNat * y.toNat / 2 ^ 64)) ∧
       Yields (.div d a b) s [a, b] d (if y = 0 then -1 else BitVec.ofInt 64 (x.toInt.tdiv y.toInt)) ∧
       Yields (.divu d a b) s [a, b] d (if y = 0 then -1 else x / y) ∧
       Yields (.divrem d a b) s [a, b] d (if y = 0 then x else BitVec.ofInt 64 (x.toInt.tmod y.toInt)) ∧
       Yields (.divremu d a b) s [a, b] d (x % y)) ∧
     (Ready s [a, b, c] (some d) →
       Yields (.mula d a b c) s [a, b, c] d (s.sval [] a * s.sval [a] b + s.sval [a, b] c))) ∧
  ((∀ a b : Word, b ≠ 0 → quotS a b * b + remS a b = a ∧ quotU a b * b + remU a b = a ∧ uns (remU a b) < uns b ∧
       (sgn (remS a b) ≤ 0 ∨ 0 ≤ sgn a) ∧ (0 ≤ sgn (remS a b) ∨ sgn a ≤ 0)) ∧
     quotS (wrap (-2 ^ 63)) (wrap (-1)) = wrap (-2 ^ 63) ∧ remS (wrap (-2 ^ 63)) (wrap (-1)) = 0)

/-- R117: the bit counts. The number of one bits; the zero bits above the highest and below the lowest one bit, said by where that
bit stands; and 64 for a zero. Their words have major 0x12 and functions 0, 1 and 2. -/
def Obligations.BitCountResults : Prop :=
  ∀ (s : State) (d a : Reg),
    let opcode := fun i : Instr => (toRaw i).map fun r => (r.maj.toNat, r.fn.toNat)
    (opcode (.bitcnt d a) = some (0x12, 0) ∧ opcode (.bitclz d a) = some (0x12, 1) ∧ opcode (.bitctz d a) = some (0x12, 2)) ∧
    (Ready s [a] (some d) →
    let x := s.sval [] a
    Yields (.bitcnt d a) s [a] d (BitVec.ofNat 64 ((List.range 64).filter fun i => x.getLsbD i).length) ∧
    (∃ n, n ≤ 64 ∧ Yields (.bitclz d a) s [a] d (BitVec.ofNat 64 n) ∧ (∀ i, 64 - n ≤ i → x.getLsbD i = false) ∧
      (n < 64 → x.getLsbD (63 - n) = true)) ∧
    (∃ n, n ≤ 64 ∧ Yields (.bitctz d a) s [a] d (BitVec.ofNat 64 n) ∧ (∀ i, i < n → x.getLsbD i = false) ∧
      (n < 64 → x.getLsbD n = true)))

/-- R118: SEL takes a or b as c is zero or not, and pops every queue that it names, whichever value it selects. Its word has
major 0x13 and function 0. -/
def Obligations.SelectResult : Prop :=
  ∀ (s : State) (d a b c : Reg),
    ((toRaw (.sel d a b c)).map fun r => (r.maj.toNat, r.fn.toNat)) = some (0x13, 0) ∧
    (Ready s [a, b, c] (some d) →
      Yields (.sel d a b c) s [a, b, c] d (if s.sval [a, b] c = 0 then s.sval [a] b else s.sval [] a))

/-- R26, R27, R137: a source or a destination that names a queue end which is not the core's own raises cause 35 with the field
code, sources first, in every instruction of R110 to R116 that has two scalar sources and a result; where nothing is misused and a field is
not ready, the instruction waits and has done nothing.
R137, R140, R341: QLEN, QROOM and QPEEK. Either end of a queue reads how many entries it holds, or how many more it takes; a
member reads the view. QPEEK reads the head, which stays; it waits while there is none, and while the head may not be popped yet because
what its pusher accessed before is not visible (the model's choice: log 99, DESIGN CHOICE). Any other core traps with cause 35 and the code: for QLEN and QROOM, which name no end, that is the model's reading (log 72, DEDUCED), and so is the trap
before the operands are ready (log 61, DEDUCED). -/
def Obligations.QueueRules : Prop :=
  (∀ (s : State) (d a b : Reg) (i : Instr),
     (i ∈ [.add d a b, .adds d a b, .addus d a b, .sub d a b, .subs d a b, .subus d a b, .and d a b, .andn d a b, .or d a b, .xor d a b] ∨
       i ∈ [.shl d a b, .shr d a b, .sha d a b, .cmpeq d a b, .cmpne d a b, .cmplt d a b, .cmpge d a b, .cmpltu d a b, .cmpgeu d a b] ∨
       i ∈ [.mul d a b, .mulh d a b, .mulhu d a b, .div d a b, .divu d a b, .divrem d a b, .divremu d a b]) →
       (badSource s.cur.core.role a = true → exec i s = trap s 35 (a.setWidth 64)) ∧
       (badSource s.cur.core.role a = false → badSource s.cur.core.role b = true → exec i s = trap s 35 (b.setWidth 64)) ∧
       (badSource s.cur.core.role a = false → badSource s.cur.core.role b = false → badDest s.cur.core.role d = true →
         exec i s = trap s 35 (d.setWidth 64)) ∧
       (badQueue s.cur.core.role [a, b] (some d) = none → s.scalarReady [a, b] (some d) = false → exec i s = .next s)) ∧
  (∀ (s : State) (d a : Reg), let q := a.toNat - 32
     let count := if s.inGroup then tget s.myCtx.view.queues 0 q else (s.queue q).length
     let ends := queuePopper q = s.cur.core.role ∨ queuePusher q = s.cur.core.role
     (¬ ends → exec (.qlen d a) s = trap s 35 (a.setWidth 64) ∧ exec (.qroom d a) s = trap s 35 (a.setWidth 64)) ∧
     (queuePopper q ≠ s.cur.core.role → exec (.qpeek d a) s = trap s 35 (a.setWidth 64)) ∧
     (32 ≤ a.toNat → Ready s [] (some d) →
       (ends → Yields (.qlen d a) s [] d (BitVec.ofNat 64 count) ∧ Yields (.qroom d a) s [] d (BitVec.ofNat 64 (8 - count))) ∧
       (queuePopper q = s.cur.core.role →
         (∀ e, (s.queue q).head? = some e → s.poppable q 1 = true → Yields (.qpeek d a) s [] d e.value) ∧
         (s.poppable q 1 = false → exec (.qpeek d a) s = .next s))))

/-- R124: a conditional branch completes whether or not it is taken, pops the queues it names, and writes no register; its target
is its own address plus four times the displacement; NUL annuls the slots as R122 says.
R125: J and a jump whose D is x0 always take their branch, read no slot word and write nothing; JR goes to bits [47:0] of its
register.
R126: JL and JR with a link first resolve C2 where it is unresolved, read the length of the word there, and write the address
after it; C2 then is the entry that moves to C1. A word that cannot be fetched traps with the fetch's cause and its address, one
of length 0b00 with cause 2, without retiring (TVAL of that cause 2, and the chain saved with C2 unresolved, are the model's choice: log
82, DESIGN CHOICE). -/
def Obligations.BranchesAndJumps : Prop :=
  (∀ (s : State) (a b : Reg) (nul : BitVec 2) (disp : BitVec 19),
     let target := BitVec.ofInt 48 (s.me.c0.toNat + disp.toInt * 4)
     let annul := fun taken : Bool => if taken then decide (nul = 2#2) else decide (nul = 1#2)
     (Ready s [a, b] none →
       let x := s.sval [] a
       let y := s.sval [a] b
       let acts := fun (i : Instr) (taken : Bool) => Branches i s [a, b] taken target (annul taken)
       acts (.beq a b nul disp) (decide (x = y)) ∧
       acts (.bne a b nul disp) (decide (x ≠ y)) ∧
       acts (.blt a b nul disp) (decide (x.toInt < y.toInt)) ∧
       acts (.bge a b nul disp) (decide (y.toInt ≤ x.toInt)) ∧
       acts (.bltu a b nul disp) (decide (x.toNat < y.toNat)) ∧
       acts (.bgeu a b nul disp) (decide (y.toNat ≤ x.toNat))) ∧
     (Ready s [a] none →
       let x := s.sval [] a
       Branches (.bz a nul disp) s [a] (decide (x = 0)) target (annul (decide (x = 0))) ∧
       Branches (.bzn a nul disp) s [a] (decide (x ≠ 0)) target (annul (decide (x ≠ 0))))) ∧
  (∀ (s : State) (a : Reg) (nul : BitVec 2) (imm : BitVec 25),
     let target := BitVec.ofInt 48 (s.me.c0.toNat + imm.toInt * 4)
     Branches (.j nul imm) s [] true target (decide (nul = 2#2)) ∧
     (Ready s [] (some 0) → Branches (.jl 0 nul imm) s [] true target (decide (nul = 2#2))) ∧
     (Ready s [a] (some 0) → Branches (.jr 0 a nul) s [a] true ((s.sval [] a).setWidth 48) (decide (nul = 2#2)))) ∧
  (∀ (s : State) (d a : Reg) (nul : BitVec 2) (imm : BitVec 25) (i : Instr) (srcs : List Reg) (target : VAddr), d ≠ 0 →
     (i = .jl d nul imm ∧ srcs = [] ∧ target = BitVec.ofInt 48 (s.me.c0.toNat + imm.toInt * 4) ∨
       i = .jr d a nul ∧ srcs = [a] ∧ target = (s.sval [] a).setWidth 48) →
     Ready s srcs (some d) →
     (∀ cause, s.me.s2 = true → s.fetch s.cur.core s.me.c1 = .trap cause → exec i s = trap s cause (s.me.c1.setWidth 64)) ∧
     (∀ w, s.me.s2 = true → s.fetch s.cur.core s.me.c1 = .word w → wordLen w = 0 → exec i s = trap s 2 ((w.setWidth 32).setWidth 64)) ∧
     (∀ c2 : VAddr,
       (if s.me.s2 then ∃ w, s.fetch s.cur.core s.me.c1 = .word w ∧ wordLen w ≠ 0 ∧ c2 = s.me.c1 + BitVec.ofNat 48 (wordLen w)
         else c2 = s.me.c2) →
       (∀ cause, s.fetch s.cur.core c2 = .trap cause → exec i s = trap s cause (c2.setWidth 64)) ∧
       (∀ w, s.fetch s.cur.core c2 = .word w → wordLen w = 0 → exec i s = trap s 2 ((w.setWidth 32).setWidth 64)) ∧
       (∀ w, s.fetch s.cur.core c2 = .word w → wordLen w ≠ 0 →
         let link := (c2 + BitVec.ofNat 48 (wordLen w)).setWidth 64
         ∃ t, exec i s = .next t ∧
           RetiresFrom s { s.me with c2 := c2, s2 := false } t srcs (some (d, link)) true target (decide (nul = 2#2)))))

/-- R122: moving the chain forward: what advance leaves in every entry, annul bit and resolution bit, that it changes nothing else of
a core, and when a branch or jump annuls its slots. An annul bit that is set moves on set. -/
def Obligations.ChainAdvances : Prop :=
  ∀ (k : Core) (taken annul : Bool) (target : VAddr),
    let k' := k.advance taken target annul
    (k'.c0 = k.c1 ∧ k'.n0 = (k.n1 || annul)) ∧ (k'.c1 = k.c2 ∧ k'.s1 = k.s2 ∧ k'.n1 = (k.n2 || annul)) ∧
    (taken = true → k'.c2 = target ∧ k'.s2 = false) ∧ (taken = false → k'.c2 = 0 ∧ k'.s2 = true) ∧ k'.n2 = false ∧
    ({ k' with c0 := k.c0, c1 := k.c1, c2 := k.c2, n0 := k.n0, n1 := k.n1, n2 := k.n2, s1 := k.s1, s2 := k.s2 } : Core) = k ∧
    ∀ nul : BitVec 2, annuls nul taken = true ↔ (nul = 0b01#2 ∧ taken = false) ∨ (nul = 0b10#2 ∧ taken = true)

/-- R106, R107: which control register accesses trap with cause 2 and the word at the head: an unassigned number; a write of a read
only register, even of its own value; a register of trap mode outside it, a register written in trap mode only outside it; a register
of a context's cores on a supervisor core; FLAGOR on any other core. They come before the operands are ready (the model's reading: log 61,
DEDUCED).
R107, R108: CSRD completes with the register's value: FCSR, the stochastic rounding pair, QUANT, SIGBASE and CREGH, the
identity of the core, CYCLE and RETIRED on any core of a context; the trap registers in trap mode, on every core; FLAGOR on a supervisor
core (R197): CORES at bits [55:8], a bit for each core whose flags are not all zero, and the OR of the flags at bits [4:0], zeros for a cell
without a resident context or fenced; a core's flags as they stand, or those that a write of FCSR has just changed (which of the two is
free; that one read takes all cores at one moment is the model's reading: log 25, DEDUCED).
R106, R107, R128, R191, R338, R367: CSWR, CSSET and CSCLR complete with the register written from a, from old OR a and from old AND
NOT a; D takes the old value; of each register only the bits that it has are written, and TM of TSTAT stays. A value of QUANT that
R338 does not allow traps with cause 46 and that value instead. After a write of FCSR that
clears a flag FLAGOR may still show the flags before it; after one that only sets flags it shows the new ones (R197).
R338: a value of QUANT is legal exactly when its reserved bits are zero and LEN is 0, or LEN lies between 4096 and 1048576 and LAG
is not 0. -/
def Obligations.ControlRegisters : Prop :=
  (∀ (s : State) (d a : Reg) (imm : BitVec 12), badQueue s.cur.core.role [a] (some d) = none →
     badQueue s.cur.core.role [] (some d) = none → badQueue s.cur.core.role [a] none = none →
     let n := imm.toNat
     let bad := trap s 2 (s.cur.word.setWidth 64)
     let writesTrap := exec (.cswr a imm) s = bad ∧ exec (.csset d a imm) s = bad ∧ exec (.csclr d a imm) s = bad
     (n ∉ [0x001, 0x002, 0x003, 0x010, 0x011, 0x012, 0x013, 0x020, 0x021, 0x022, 0x040, 0x041, 0x042, 0x043, 0x044, 0x045, 0x046, 0x080] →
       exec (.csrd d imm) s = bad ∧ writesTrap) ∧
     (n ∈ [0x010, 0x013, 0x020, 0x021, 0x022, 0x080] → writesTrap) ∧
     (n ∈ [0x011, 0x012] → s.me.trapMode = false → writesTrap) ∧
     (n ∈ [0x040, 0x041, 0x042, 0x043, 0x044, 0x045, 0x046] → s.me.trapMode = false → exec (.csrd d imm) s = bad ∧ writesTrap) ∧
     (n ∈ [0x001, 0x002, 0x003] → s.cur.core.role = .s → exec (.csrd d imm) s = bad ∧ writesTrap) ∧
     (n = 0x080 → s.cur.core.role ≠ .s → exec (.csrd d imm) s = bad)) ∧
  (∀ (s : State) (d : Reg), Ready s [] (some d) →
     let reads := fun (n : BitVec 12) (v : Word) => Yields (.csrd d n) s [] d v
     (reads 0x020#12 (BitVec.ofNat 64 (s.chip.toNat * 2 ^ 16 + roleCode s.cur.core.role * 2 ^ 10 + s.cur.core.cell % 1024)) ∧
       reads 0x021#12 (BitVec.ofNat 64 s.now) ∧ reads 0x022#12 s.me.retired ∧ reads 0x011#12 s.me.quant ∧ reads 0x012#12 s.me.sigbase ∧
       reads 0x013#12 s.me.cregh ∧ reads 0x010#12 (BitVec.ofNat 64 s.myCtxId)) ∧
     (s.cur.core.role ≠ .s → reads 0x001#12 s.me.fcsr ∧ reads 0x002#12 s.me.srseed ∧ reads 0x003#12 s.me.srcnt) ∧
     (s.me.trapMode = true → reads 0x040#12 s.me.tcause ∧ reads 0x041#12 s.me.tval ∧ reads 0x042#12 s.me.tepc ∧
       reads 0x043#12 s.me.tepc1 ∧ reads 0x044#12 s.me.tepc2 ∧ reads 0x045#12 s.me.tepcn ∧ reads 0x046#12 s.me.tstat) ∧
     (s.cur.core.role = .s → ∃ (v : Word) (f : Nat → BitVec 5), reads 0x080#12 v ∧
       (∀ (c i : Nat) (r : Role), c < 16 → (i = 0 ∧ r = .a ∨ i = 1 ∧ r = .x ∨ i = 2 ∧ r = .c) →
         let cell := s.cur.core.cell / 16 * 16 + c
         let k := s.coreOf ⟨cell, r⟩
         (s.residentIn cell = none ∨ s.cellOut cell = true → f (3 * c + i) = 0) ∧
         (s.residentIn cell ≠ none → s.cellOut cell = false → f (3 * c + i) = k.fcsr.extractLsb' 8 5 ∨ k.stale = some (f (3 * c + i)))) ∧
       (∀ b, b < 5 → (v.getLsbD b = true ↔ ∃ i, i < 48 ∧ (f i).getLsbD b = true)) ∧
       (∀ i, i < 48 → (v.getLsbD (8 + i) = true ↔ f i ≠ 0)) ∧
       ∀ b, (5 ≤ b ∧ b < 8 ∨ 56 ≤ b) → v.getLsbD b = false)) ∧
  (∀ (s : State) (d a : Reg) (imm : BitVec 12),
     (s.cur.core.role ≠ .s ∧ imm.toNat ∈ [0x001, 0x002, 0x003] ∨ s.me.trapMode = true ∧ imm.toNat ∈ [0x011, 0x012, 0x040, 0x041, 0x042, 0x043, 0x044, 0x045, 0x046]) →
     let k := s.me
     let old := s.csrRead imm.toNat
     let core := fun (v : Word) (k' : Core) =>
       imm = 0x001#12 ∧ k' = { k with
         fcsr := v &&& 0xF1F00#64
         stale :=
           let held := k.fcsr.extractLsb' 8 5
           let now := (v &&& 0xF1F00#64).extractLsb' 8 5
           if held &&& ~~~now ≠ 0#5 then some held else if now = held then k.stale else none } ∨
       imm = 0x002#12 ∧ k' = { k with srseed := v } ∨
       imm = 0x003#12 ∧ k' = { k with srcnt := v } ∨ imm = 0x011#12 ∧ k' = { k with quant := v } ∨
       imm = 0x012#12 ∧ k' = { k with sigbase := v } ∨ imm = 0x040#12 ∧ k' = { k with tcause := v } ∨
       imm = 0x041#12 ∧ k' = { k with tval := v } ∨ imm = 0x042#12 ∧ k' = { k with tepc := v &&& 0xFFFFFFFFFFFF#64 } ∨
       imm = 0x043#12 ∧ k' = { k with tepc1 := v &&& 0xFFFFFFFFFFFF#64 } ∨ imm = 0x044#12 ∧ k' = { k with tepc2 := v &&& 0xFFFFFFFFFFFF#64 } ∨
       imm = 0x045#12 ∧ k' = { k with tepcn := v &&& 0x1F#64 } ∨ imm = 0x046#12 ∧ k' = { k with tstat := (v &&& 0x1E#64) ||| (k.tstat &&& 1#64) }
     let legal := fun v : Word => imm = 0x011#12 → quantOk v = true
     let writes := fun (i : Instr) (v : Word) (res : Option (Reg × Word)) =>
       (legal v → ∃ t k', core v k' ∧ exec i s = .next t ∧ RetiresFrom s k' t [a] res false 0 false) ∧
       (¬ legal v → exec i s = trap s 46 v)
     (Ready s [a] none → writes (.cswr a imm) (s.sval [] a) none) ∧
     (Ready s [a] (some d) → writes (.csset d a imm) (old ||| s.sval [] a) (some (d, old)) ∧
       writes (.csclr d a imm) (old &&& ~~~(s.sval [] a)) (some (d, old)))) ∧
  (∀ v : Word, quantOk v = true ↔
     (∀ i, i < 64 → (21 ≤ i ∧ i < 28 ∨ 32 ≤ i) → v.getLsbD i = false) ∧
       (v.toNat % 2 ^ 21 = 0 ∨ 4096 ≤ v.toNat % 2 ^ 21 ∧ v.toNat % 2 ^ 21 ≤ 1048576 ∧ v.toNat / 2 ^ 28 % 16 ≠ 0))

/-- R129, R130, R82, R91: the checks of an access of a context's core, in order: alignment (cause 4, or 6), a hole (5, or 7), the
control page for an atomic (7), a remote scratchpad whose window refuses (27), a failed translation (13, or 15), a leaf without the
right (5, or 7), and an atomic on a host page (7), each with the address. A translation that is not cached starts a walk and nothing
else. A page in memory that is switched off is refused like a range that does not exist (the model's choice: log 79, DESIGN CHOICE). The
scalar loads, the scalar store and the atomics of two sources.
R332, R100, R130 checks 19 and 20: at an owned page a load of what another core has written since the last handover traps with
cause 25 once it may be performed, and waits until then; a store or an atomic by any core but the holder traps with cause 26; where
neither holds, a load or a store that touches a poisoned sector traps with cause 29. A sector counts as poisoned where a quarter of it
holds the poison marker as the core sees it and no 64-byte store in its own store buffer fills that quarter (the model's reading: log 18,
DEDUCED). The scalar loads, the scalar store and every atomic.
R89, R90, R91, R93: a page walk reads one 8-byte entry of each table, from the root of the context's descriptor down, by bits [47:39], [38:30],
[29:21] and [20:12] of the virtual address; a pointer leads on, a leaf at level 2, 3 or 4 ends it, and an entry that is not valid or is malformed
makes it fail. A well-formed pointer has no reserved bit, no O, D or C, and names a whole table in LPDDR or vault memory; a well-formed leaf has no
reserved bit, RD where it has WR, a page aligned to its size and inside its space, and in host memory neither O nor D. A core meets the cached
leaf of its cluster and context, then the answer of a walk that failed, else it waits for a walk; a leaf lets an access through by RD for a load, WR
for a store or an atomic, X for a fetch. A poisoned entry reads as not valid (log 24, DEDUCED), memory that is switched off reads so and is
reached by no access (log 79, DESIGN CHOICE). -/
def Obligations.AccessesAreChecked : Prop :=
  (∀ (s : State) (d a b : Reg) (esz ord : BitVec 2) (scope : BitVec 3) (imm : BitVec 25) (i : Instr) (kind : AccKind) (ea size : Nat),
     s.cur.core.role ≠ .s →
     ((i = .ld d a esz ord scope imm ∨ i = .lds d a esz ord scope imm) ∧ Ready s [a] (some d) ∧ kind = .load ∧
         ea = ((s.sval [] a + imm.signExtend 64).setWidth 48).toNat ∧ size = 2 ^ esz.toNat ∨
       i = .st d a esz ord scope imm ∧ Ready s [a, d] none ∧ kind = .store ∧
         ea = ((s.sval [] a + imm.signExtend 64).setWidth 48).toNat ∧ size = 2 ^ esz.toNat ∨
       i ∈ twoSourceAtomics d a b esz ord scope ∧ Ready s [a, b] (some d) ∧ kind = .atomic ∧ ea = ((s.sval [] a).setWidth 48).toNat ∧ size = (if esz = 3#2 then 8 else 4)) →
     let traps := fun cause : Nat => exec i s = trap s cause (BitVec.ofNat 64 ea)
     let refused := if kind = .load then 5 else 7
     (ea % size ≠ 0 → traps (if kind = .load then 4 else 6)) ∧
     (ea % size = 0 →
       (0x60000 ≤ ea ∧ ea < 0x100000 ∨ 0x110000 ≤ ea ∧ ea < 0x100000000 ∨ 0x140000000 ≤ ea ∧ ea < 0x1000000000 → traps refused) ∧
       (0x100000 ≤ ea ∧ ea < 0x110000 →
         (kind = .atomic → traps 7) ∧
         (kind = .load → controlLoadOk (ea - 0x100000) size = false → traps 5) ∧
         (kind = .store → controlStoreOk s.cur.core.role (ea - 0x100000) size = false → traps 7)) ∧
       (0x100000000 ≤ ea ∧ ea < 0x140000000 →
         s.granted ((ea - 0x100000000) / 0x100000) s.myCtxId ((ea - 0x100000000) % 0x100000) size kind true = false → traps 27) ∧
       (0x1000000000 ≤ ea →
         (s.transFor s.cur.core s.myCtxId ea = .miss → exec i s = .next (s.requestWalk s.cur.core s.myCtxId ea)) ∧
         (s.transFor s.cur.core s.myCtxId ea = .fail →
           traps (if kind = .load then 13 else 15)) ∧
         (∀ e l, s.transFor s.cur.core s.myCtxId ea = .leaf e l →
           (leafGrants e kind = false ∨ s.keyOut (leafKey e l ea) = true → traps refused) ∧
           (leafGrants e kind = true → kind = .atomic → pteSpc e = 2 → traps 7))))) ∧
  (∀ (s : State) (d a b c : Reg) (esz ord : BitVec 2) (scope : BitVec 3) (imm : BitVec 25) (p : Place),
     (∀ off, p ≠ .control off) →
     let ea := effAddr (s.sval [] a) imm
     let at_ := (s.sval [] a).setWidth 48
     let size := 2 ^ esz.toNat
     let poisoned := ∃ q, q / 4 = sectorOf p.key ∧ s.quarterBad (.cell s.myCell) q = true ∧ bufferedQuad s.me.stores s.fresh q = false
     (∀ i : Instr, i = .ld d a esz ord scope imm ∨ i = .lds d a esz ord scope imm →
       Ready s [a] (some d) → s.place .load ea size (fun off => controlLoadOk off size) = .ok p →
       (p.owned ≠ none → s.mayRead (sectorOf p.key) = false → exec i s = .next s) ∧
       (p.owned = none ∨ s.mayRead (sectorOf p.key) = true →
         (∀ page, p.owned = some page → (s.ownOf page).holder ≠ some (s.myCtxId, s.coreId s.cur.core) → (s.ownOf page).written = true →
           exec i s = trap s 25 (BitVec.ofNat 64 ea)) ∧
         (s.loadRace p = false → poisoned → exec i s = trap s 29 (BitVec.ofNat 64 ea)))) ∧
     (Ready s [a, d] none → s.place .store ea size (fun off => controlStoreOk s.cur.core.role off size) = .ok p →
       (∀ page, p.owned = some page → (s.ownOf page).holder ≠ some (s.myCtxId, s.coreId s.cur.core) →
         exec (.st d a esz ord scope imm) s = trap s 26 (BitVec.ofNat 64 ea)) ∧
       (s.storeRace p = false → poisoned →
         exec (.st d a esz ord scope imm) s = trap s 29 (BitVec.ofNat 64 ea))) ∧
     (∀ (i : Instr) (srcs : List Reg), i ∈ twoSourceAtomics d a b esz ord scope ∧ srcs = [a, b] ∨
         i = .amocas d a b c esz ord scope ∧ srcs = [a, b, c] →
       Ready s srcs (some d) → s.place .atomic at_.toNat (if esz = 3#2 then 8 else 4) (fun _ => false) = .ok p →
       (∀ page, p.owned = some page → (s.ownOf page).holder ≠ some (s.myCtxId, s.coreId s.cur.core) →
         exec i s = trap s 26 (BitVec.ofNat 64 at_.toNat)))) ∧
  ((∀ (s : State) (cluster ctx va : Nat),
     let pa (e : Word) : Nat := (e.extractLsb' 12 40).toNat * 4096
     let spc (e : Word) : Nat := (e.extractLsb' 56 2).toNat
     let read (e : Word) (index : Nat) : Word :=
       let key := physKey (spc e) (pa e + 8 * index)
       if s.poisonedFor (.cluster cluster) (key / 64) = true ∨ s.keyOut key = true then 0
       else BitVec.ofNat 64 (s.natFor (.cluster cluster) (span key 8))
     let inside (e : Word) (size : Nat) : Prop :=
       (spc e = 0 ∧ pa e + size ≤ 2 ^ 40) ∨ (spc e = 1 ∧ pa e + size ≤ 2 ^ 33) ∨ (spc e = 2 ∧ pa e + size ≤ 2 ^ 52)
     let pointer (e : Word) : Prop :=
       e.getLsbD 0 = true ∧ e.getLsbD 1 = false ∧ e.getLsbD 2 = false ∧ e.getLsbD 3 = false ∧ e &&& 0xFCF0000000000C70#64 = 0 ∧
         e.getLsbD 7 = false ∧ e.getLsbD 8 = false ∧ e.getLsbD 9 = false ∧ spc e ≠ 2 ∧ inside e 4096
     let leaf (e : Word) (size : Nat) : Prop :=
       e.getLsbD 0 = true ∧ (e.getLsbD 1 = true ∨ e.getLsbD 2 = true ∨ e.getLsbD 3 = true) ∧ e &&& 0xFCF0000000000C70#64 = 0 ∧
         (e.getLsbD 2 = true → e.getLsbD 1 = true) ∧ pa e % size = 0 ∧ inside e size ∧
         (spc e = 2 → e.getLsbD 8 = false ∧ e.getLsbD 9 = false)
     (s.context ctx = none → s.walk cluster ctx va = .fail) ∧
     (∀ c, s.context ctx = some c →
       let e1 := read c.root (va / 2 ^ 39 % 512)
       let e2 := read e1 (va / 2 ^ 30 % 512)
       let e3 := read e2 (va / 2 ^ 21 % 512)
       let e4 := read e3 (va / 2 ^ 12 % 512)
       (¬ pointer c.root → s.walk cluster ctx va = .fail) ∧
       (pointer c.root → ¬ pointer e1 → s.walk cluster ctx va = .fail) ∧
       (pointer c.root → pointer e1 → leaf e2 (2 ^ 30) → s.walk cluster ctx va = .leaf e2 2) ∧
       (pointer c.root → pointer e1 → ¬ leaf e2 (2 ^ 30) → ¬ pointer e2 → s.walk cluster ctx va = .fail) ∧
       (pointer c.root → pointer e1 → pointer e2 → leaf e3 (2 ^ 21) → s.walk cluster ctx va = .leaf e3 3) ∧
       (pointer c.root → pointer e1 → pointer e2 → ¬ leaf e3 (2 ^ 21) → ¬ pointer e3 → s.walk cluster ctx va = .fail) ∧
       (pointer c.root → pointer e1 → pointer e2 → pointer e3 → leaf e4 (2 ^ 12) → s.walk cluster ctx va = .leaf e4 4) ∧
       (pointer c.root → pointer e1 → pointer e2 → pointer e3 → ¬ leaf e4 (2 ^ 12) → s.walk cluster ctx va = .fail))) ∧
   (∀ (s : State) (p : CoreRef) (ctx va : Nat),
     (∀ t, s.cached (p.cell / 16) ctx va = some t → s.transFor p ctx va = .leaf t.leaf t.level) ∧
     (s.cached (p.cell / 16) ctx va = none → (p, ctx, va / 4096) ∈ s.failedWalks → s.transFor p ctx va = .fail) ∧
     (s.cached (p.cell / 16) ctx va = none → (p, ctx, va / 4096) ∉ s.failedWalks → s.transFor p ctx va = .miss)) ∧
   (∀ (s : State) (e : Word) (va : Nat) (k : AccKind) (level size : Nat), (level, size) ∈ [(2, 2 ^ 30), (3, 2 ^ 21), (4, 2 ^ 12)] →
     let bit : Nat := match k with
       | .load => 1
       | .store => 2
       | .atomic => 2
       | .fetch => 3
     leafKey e level va = physKey (e.extractLsb' 56 2).toNat ((e.extractLsb' 12 40).toNat * 4096 + va % size) ∧
       (s.reaches e level va k = true ↔ e.getLsbD bit = true ∧ s.keyOut (leafKey e level va) = false)))

/-- R129, R131, R320, R321: the scalar loads complete. A load of plain memory into a register retires with the register waiting for
it; one into a queue, or of an owned page, takes its bytes as it retires; one of the control page takes the register of the page as it
retires (the model's reading: log 10, DEDUCED), and waits for an earlier acquire load and for the core's own store there. A load that is
performed as it retires waits while an earlier acquire load, an earlier load of the sector, or a remote load that may read it is not
performed. A load into x0 makes the access and writes nothing.
R131, R133, R320, R321, R100: PERFORM gives an outstanding load its value: its register takes the bytes that the core sees, extended
from its size, and waits no more; the load is outstanding no more; memory, every other register and every other core stay. On a
sector that has become poisoned the register keeps its value and a deferred event of cause 29 is queued (the model's reading:
log 9, DEDUCED). An LD64 may read each aligned 16 bytes before the others: the part's bytes are kept, and the load stays outstanding. -/
def Obligations.LoadsComplete : Prop :=
  (∀ (s : State) (d a : Reg) (esz ord : BitVec 2) (scope : BitVec 3) (imm : BitVec 25) (i : Instr) (signed : Bool) (p : Place),
     (i = .ld d a esz ord scope imm ∧ signed = false ∨ i = .lds d a esz ord scope imm ∧ signed = true) →
     Ready s [a] (some d) →
     let ea := effAddr (s.sval [] a) imm
     let size := 2 ^ esz.toNat
     s.place .load ea size (fun off => controlLoadOk off size) = .ok p →
     (∀ k, s.mayRead k = true ↔ (∀ l ∈ s.me.loads, l.id < s.fresh → l.acquire = false ∧ sectorOf l.addr ≠ k) ∧
       s.remoteBefore s.cur.core s.fresh (fun x => decide (sectorOf x = k)) = false) ∧
     (∀ off, p = .control off → (s.me.controlPending off = true ∨ s.mayRead (controlSector off) = false) →
       exec i s = .next s) ∧
     (∀ off, p = .control off → s.me.controlPending off = false → s.mayRead (controlSector off) = true →
       ∃ t, exec i s = .next t ∧ Retires s t [a] (some (d, extend (s.myCtx.controlRead off size) size signed)) false 0 false) ∧
     ((∀ off, p ≠ .control off) → s.loadRace p = false → s.poisonHere p.key = false →
       (p.owned = none ∧ isQueue d = false →
         let l : OutLoad := { id := s.fresh, addr := p.key, size := size, signed := signed, dst := if d = 0 then none else some (.x d.toNat)
                              ea := BitVec.ofNat 48 ea, acquire := decide (ord = 1#2) }
         ∃ t, exec i s = .next t ∧
           RetiresFrom s.bump
             { s.me with
               loads := s.me.loads ++ [l]
               pending := s.me.pending ++ (if d = 0 then [] else [{ reg := .x d.toNat, source := .load }]) } t [a] none false 0 false) ∧
       (p.owned ≠ none ∨ isQueue d = true → s.mayRead (sectorOf p.key) = false → exec i s = .next s) ∧
       (p.owned ≠ none ∨ isQueue d = true → s.mayRead (sectorOf p.key) = true →
         let value := bytesToNat (s.loadBytes s.cur.core s.fresh (span p.key size))
         ∃ t, exec i s = .next t ∧
           Retires (s.noteRead s.cur.core s.fresh (span p.key size)).bump t [a] (some (d, extend value size signed)) false 0 false))) ∧
  ((∀ (s : State) (l : OutLoad) (part : Nat), let p := s.args.core
     (s.coreOf p).loads[s.args.index]? = some l → s.mayPerform p l.id (sectorOf l.addr) = true →
     s.args.flag = true → s.args.slot = part → l.size = 64 → part < 4 → l.got = [] → s.consumes p l.id (sectorOf l.addr) = false →
     ∃ t, exec .perform s = .next t ∧
       { t with cells := s.cells, supervisors := s.supervisors } = s ∧ (∀ q, ¬ sameCore p q → t.coreOf q = s.coreOf q) ∧
       (∀ n, (t.coreOf p).xr n = (s.coreOf p).xr n ∧ (t.coreOf p).vr n = (s.coreOf p).vr n) ∧ (t.coreOf p).pending = (s.coreOf p).pending ∧
       (t.coreOf p).loads = (s.coreOf p).loads.map fun m =>
         if m.id = l.id then
           { m with got := m.got ++ (span (l.addr + 16 * part) 16).zip (s.loadBytes p l.id (span (l.addr + 16 * part) 16)) }
         else m) ∧
   ∀ (s : State) (l : OutLoad), let p := s.args.core
     (s.coreOf p).loads[s.args.index]? = some l → s.mayPerform p l.id (sectorOf l.addr) = true → s.args.flag = false →
     ∃ t, exec .perform s = .next t ∧
       { t with cells := s.cells, supervisors := s.supervisors } = s ∧ (∀ q, ¬ sameCore p q → t.coreOf q = s.coreOf q) ∧
       (t.coreOf p).loads = (s.coreOf p).loads.filter (fun m => decide (m.id ≠ l.id)) ∧
       (t.coreOf p).pending = (s.coreOf p).pending.filter (fun w => decide (some w.reg ≠ l.dst)) ∧
       (l.rest = [] ∨ s.consumes p l.id (sectorOf l.addr) = false →
         let value := bytesToNat ((span l.addr l.size).map fun y =>
           (cellAt l.got y).getD ((s.loadBytes p l.id [y]).headD 0))
         (∀ n, (t.coreOf p).xr n = if l.dst = some (.x n) ∧ n ≠ 0 then extend value l.size l.signed else (s.coreOf p).xr n) ∧
         (∀ n, (t.coreOf p).vr n = if l.dst = some (.v n) then BitVec.ofNat 512 value else (s.coreOf p).vr n) ∧
         (t.coreOf p).events = (s.coreOf p).events) ∧
       (l.rest ≠ [] → s.consumes p l.id (sectorOf l.addr) = true →
         (∀ n, (t.coreOf p).xr n = (s.coreOf p).xr n ∧ (t.coreOf p).vr n = (s.coreOf p).vr n) ∧
         (t.coreOf p).events = (s.coreOf p).events ++ [{ cause := 29, tval := l.ea.setWidth 64 }]))

/-- R131, R146, R207, R347, R321, R322, R340: ST completes. A store of memory joins the store buffer with the low bytes of d at the
computed address, so that every byte of memory reads as before; a store of the control page likewise, where its value is legal (that it
joins the store buffer is the model's reading: log 10, DEDUCED), and traps with cause 7 where it is not; a member's store to a semaphore is
collected for the boundary. A store to a barrier object narrower than the object writes its own bytes like any other (the model's choice: log
78, DESIGN CHOICE).
R320: a core sees its own store. Whatever the store buffer holds, once ST has retired a load of the same place reads the bytes
that it stored. -/
def Obligations.StoresComplete : Prop :=
  (∀ (s : State) (d a : Reg) (esz ord : BitVec 2) (scope : BitVec 3) (imm : BitVec 25) (p : Place), Ready s [a, d] none →
     let i : Instr := .st d a esz ord scope imm
     let ea := effAddr (s.sval [] a) imm
     let size := 2 ^ esz.toNat
     let v := s.sval [a] d
     let release := if 2 ≤ ord.toNat then some scope.toNat else none
     s.place .store ea size (fun off => controlStoreOk s.cur.core.role off size) = .ok p →
     let entry := fun (target : StoreTarget) (sector : Nat) (owned : Option Nat) =>
       ({ id := s.fresh, target := target, sector := sector, release := release, after := s.storeAfter release, owned := owned
          quad := false } : StoreEntry)
     let buffers := fun (e : StoreEntry) => ∃ t, exec i s = .next t ∧
       RetiresFrom s.bump { s.me with stores := s.me.stores ++ [e] } t [a, d] none false 0 false ∧ t.mem = s.mem ∧ t.writes = s.writes
     ((∀ off, p ≠ .control off) → s.storeRace p = false → s.poisonHere p.key = false →
       buffers (entry (.mem (cellsFrom p.key (natToBytes size v.toNat))) (sectorOf p.key) p.owned)) ∧
     (∀ off, p = .control off → controlValueOk off v = false → exec i s = trap s 7 (BitVec.ofNat 64 ea)) ∧
     (∀ off, p = .control off → controlValueOk off v = true → ¬ (s.inGroup = true ∧ 0x1000 ≤ off ∧ off < 0x1100) →
       buffers (entry (.control off v) (controlSector off) none)) ∧
     (∀ off, p = .control off → controlValueOk off v = true → s.inGroup = true → 0x1000 ≤ off → off < 0x1100 →
       ∃ t, exec i s = .next t ∧
         RetiresFrom s { s.me with member := { s.me.member with ops := s.me.member.ops ++ [.semStore ((off - 0x1000) / 8) (v.setWidth 8)] } }
           t [a, d] none false 0 false)) ∧
  (∀ (s t : State) (d a : Reg) (esz ord : BitVec 2) (scope : BitVec 3) (imm : BitVec 25) (p : Place), Ready s [a, d] none →
     let ea := effAddr (s.sval [] a) imm
     let size := 2 ^ esz.toNat
     s.place .store ea size (fun off => controlStoreOk s.cur.core.role off size) = .ok p → (∀ off, p ≠ .control off) →
     s.storeRace p = false → s.poisonHere p.key = false →
     exec (.st d a esz ord scope imm) s = .next t →
     bytesToNat (t.loadBytes s.cur.core t.fresh (span p.key size)) = (s.sval [a] d).toNat % 2 ^ (8 * size))

/-- R321, R332, R100: DRAIN of a store of memory. The entry leaves the buffer and joins the coherence order: every byte that it holds
is what its own cell and coherence see from then on, and every other byte reads as before; WRITTEN of an owned page is set, and a
part of a 64-byte store clears the poison of its quarter of the sector for those parties and no others (the model's reading: log 18,
DEDUCED). DRAIN of a fence only removes it.
R318, R319, R321: WIDEN makes one write visible at the next wider scope and changes what no byte holds last; a write that has
reached its widest scope leaves the list for memory, with the poison that it brings or clears, and older writes lose the bytes that it
covers. -/
def Obligations.WritesReachMemory : Prop :=
  (∀ (s : State) (e : StoreEntry), let p := s.args.core
     MemoryOk s → (s.coreOf p).stores[s.args.index]? = some e → s.mayDrain p s.args.index e = true →
     (∀ cells, e.target = .mem cells →
       ∃ t, exec .drain s = .next t ∧ (t.coreOf p).stores = (s.coreOf p).stores.eraseIdx s.args.index ∧
         (∀ x, t.byteFor (.cell p.cell) x = (cellAt cells x).getD (s.byteFor (.cell p.cell) x)) ∧
         (∀ x, t.byteLast x = (cellAt cells x).getD (s.byteLast x)) ∧
         (∀ v x, v ≠ .cell p.cell → t.byteFor v x = s.byteFor v x) ∧
         t.mem = s.mem ∧ (∀ q, ¬ sameCore p q → t.coreOf q = s.coreOf q) ∧
         (∀ page, (t.ownOf page).holder = (s.ownOf page).holder) ∧
         (∀ page, e.owned = some page → (t.ownOf page).written = true) ∧
         (∀ page, e.owned ≠ some page → t.ownOf page = s.ownOf page) ∧
         t.poison = s.poison ∧
         (∀ c, e.quad = true → cells.head? = some c → t.quarterBad (.cell p.cell) (quarterOf c.1) = false) ∧
         (∀ v q, (e.quad = false ∨ v ≠ .cell p.cell ∨ cells.head?.map (fun c => quarterOf c.1) ≠ some q) →
           t.quarterBad v q = s.quarterBad v q)) ∧
     (e.target = .fence → exec .drain s = .next (s.dropStore p s.args.index))) ∧
  (∀ (s : State) (w : Write), MemoryOk s → s.writes[s.args.index]? = some w →
     ∃ t, exec .widen s = .next t ∧ (∀ x, t.byteLast x = s.byteLast x) ∧
       (w.scope + 1 < w.top → t.writes = s.writes.modify s.args.index (fun v => { v with scope := v.scope + 1 }) ∧ t.mem = s.mem ∧
         t.poison = s.poison) ∧
       (w.scope + 1 = w.top →
         t.writes = shadow (s.writes.take s.args.index) w.data w.marks ++ s.writes.drop (s.args.index + 1) ∧
         t.mem = memPuts s.mem w.data ∧ t.poison = applyMarks s.poison w.marks) ∧
       { t with writes := s.writes, mem := s.mem, poison := s.poison } = s)

/-- R134, R135, R323, R332: an atomic completes with the old value in D, sign-extended from a word, and the new value of its function
at the computed address; every other byte that coherence holds last is as before; AMOCAS of unequal values leaves memory alone. It acts
where no store of its own to the sector, no load of the same bytes, remote ones included, no acquire load and no FENCE.REL is
outstanding, and a release once every earlier access is visible at its scope; behind a FENCE.REL it waits (the model's reading: log 77,
DEDUCED). Where the sector's last write is the poison marker it appends the marker, which sets WRITTEN, writes nothing else and traps with
cause 29. In a deterministic group it is collected on a D page instead, with its function, its operands, its order and D (a queue code as D
is the model's reading: log 27, DEDUCED); on another page it waits for the acquires that a boundary has still to apply, and a release for
every collected access (log 96, DEDUCED).
R136, R321, R322: a fence completes. With REL it leaves a mark in the store buffer that waits for every earlier access; with ACQ
alone it leaves none; with ACQ it waits, changing nothing, while a load of the core, a remote one included, has no value. -/
def Obligations.AtomicsAndFencesComplete : Prop :=
  (∀ (s : State) (d a b c : Reg) (esz ord : BitVec 2) (scope : BitVec 3) (i : Instr) (srcs : List Reg) (p : Place) (fn : Nat)
     (new : ∀ w : Nat, BitVec w → BitVec w → BitVec w → Option (BitVec w)),
     (srcs = [a, b] ∧ (i = .amoswap d a b esz ord scope ∧ fn = 0 ∧ new = (fun _ _ y _ => some y) ∨
         i = .amoadd d a b esz ord scope ∧ fn = 1 ∧ new = (fun _ m y _ => some (m + y)) ∨
         i = .amoand d a b esz ord scope ∧ fn = 2 ∧ new = (fun _ m y _ => some (m &&& y)) ∨
         i = .amoor d a b esz ord scope ∧ fn = 3 ∧ new = (fun _ m y _ => some (m ||| y)) ∨
         i = .amoxor d a b esz ord scope ∧ fn = 4 ∧ new = (fun _ m y _ => some (m ^^^ y)) ∨
         i = .amomin d a b esz ord scope ∧ fn = 5 ∧ new = (fun _ m y _ => some (if m.toInt < y.toInt then m else y)) ∨
         i = .amomax d a b esz ord scope ∧ fn = 6 ∧ new = (fun _ m y _ => some (if m.toInt < y.toInt then y else m)) ∨
         i = .amominu d a b esz ord scope ∧ fn = 7 ∧ new = (fun _ m y _ => some (if m.toNat < y.toNat then m else y)) ∨
         i = .amomaxu d a b esz ord scope ∧ fn = 8 ∧ new = (fun _ m y _ => some (if m.toNat < y.toNat then y else m))) ∨
       srcs = [a, b, c] ∧ i = .amocas d a b c esz ord scope ∧ fn = 9 ∧ new = (fun _ m y z => if m = z then some y else none)) →
     MemoryOk s → Ready s srcs (some d) →
     let wide := decide (esz = 3#2)
     let size := if wide then 8 else 4
     s.place .atomic ((s.sval [] a).setWidth 48).toNat size (fun _ => false) = .ok p → (∀ off, p ≠ .control off) →
     s.storeRace p = false →
     let collected := s.inGroup = true ∧ ∃ e l k, p = .page e l k ∧ pteD e = true
     let m := s.natLast p.key size
     let y := s.sval [a] b
     let z := if srcs = [a, b, c] then s.sval [a, b] c else 0
     let result := fun m : Nat => if wide then (new 64 (BitVec.ofNat 64 m) y z).map (·.toNat)
       else (new 32 (BitVec.ofNat 32 m) (y.setWidth 32) (z.setWidth 32)).map (·.toNat)
     let stored : Option Nat := result m
     let old : Word := if wide then BitVec.ofNat 64 m else (BitVec.ofNat 32 m).signExtend 64
     let behind := s.inGroup = true ∧ (s.me.acquiring = true ∨ 2 ≤ ord.toNat ∧ s.me.collected ≠ [])
     (¬ collected → behind → exec i s = .next (s.updMe fun k => { k with member := { k.member with behind := true } })) ∧
     (¬ collected → ¬ behind → (∃ e ∈ s.me.stores, e.target = .fence) → exec i s = .next s) ∧
     (¬ collected → ¬ behind →
       s.remoteBefore s.cur.core s.fresh (fun x => decide (p.key ≤ x) && decide (x < p.key + size)) = false →
       (∀ e ∈ s.me.stores, e.target ≠ .fence ∧ e.sector ≠ sectorOf p.key) →
       (∀ l ∈ s.me.loads, l.acquire = false ∧ (l.addr + l.size ≤ p.key ∨ p.key + size ≤ l.addr)) →
       (2 ≤ ord.toNat → s.allSettled scope.toNat = true) →
       (s.poisonedLast (sectorOf p.key) = true →
         ∃ u, exec i s = trap u 29 (BitVec.ofNat 64 ((s.sval [] a).setWidth 48).toNat) ∧ u.poisonedLast (sectorOf p.key) = true ∧
           (∀ x, u.byteLast x = s.byteLast x) ∧ (∀ page, p.owned = some page → (u.ownOf page).written = true) ∧
           (∀ page, p.owned ≠ some page → u.ownOf page = s.ownOf page) ∧
           { u with writes := s.writes, poison := s.poison, fresh := s.fresh, own := s.own } = s) ∧
       (s.poisonedLast (sectorOf p.key) = false →
       ∃ t, exec i s = .next t ∧
         RetiresFrom { s with mem := t.mem, writes := t.writes, fresh := t.fresh, own := t.own } s.me t srcs (some (d, old)) false 0 false ∧
         (∀ n, stored = some n → t.natLast p.key size = n) ∧
         (∀ x, (stored = none ∨ ¬ (p.key ≤ x ∧ x < p.key + size)) → t.byteLast x = s.byteLast x) ∧
         (∀ page, p.owned = some page → stored ≠ none → (t.ownOf page).written = true))) ∧
     (∀ m' : Nat, amoNat fn wide m' y z = result m') ∧
     (collected → s.poisonHere p.key = true → exec i s = trap s 29 (BitVec.ofNat 64 ((s.sval [] a).setWidth 48).toNat)) ∧
     (collected → s.poisonHere p.key = false → ∃ t, exec i s = .next t ∧
       let op : Collected := .amo fn wide p.key y z (if d = 0 then none else some (.x d.toNat))
         (BitVec.ofNat 64 ((s.sval [] a).setWidth 48).toNat) p.owned
         { id := s.fresh, release := if 2 ≤ ord.toNat then some scope.toNat else none, acquire := ord.getLsbD 0 }
       RetiresFrom s.bump
         { s.me with
           member := { s.me.member with ops := s.me.member.ops ++ [op] }
           pending := s.me.pending ++ (if d = 0 then [] else [{ reg := .x d.toNat, source := .boundary }]) } t srcs none false 0 false)) ∧
  (∀ (s : State) (ord : BitVec 2) (scope : BitVec 3),
     let open_ := s.me.loads ≠ [] ∨ s.remote s.cur.core (fun _ => true) ≠ []
     (ord.getLsbD 0 = true → open_ → exec (.fence ord scope) s = .next s) ∧
     ((ord.getLsbD 0 = true → ¬ open_) →
       (ord.getLsbD 1 = false → Branches (.fence ord scope) s [] false 0 false) ∧
       (ord.getLsbD 1 = true →
         let e : StoreEntry := { id := s.fresh, target := .fence, sector := 2 ^ 61, release := some scope.toNat, after := s.past s.cur.core
                                 owned := none, quad := false }
         ∃ t, exec (.fence ord scope) s = .next t ∧
           RetiresFrom s.bump { s.me with stores := s.me.stores ++ [e] } t [] none false 0 false)))

/-- R142, R143: STRGO. A stream that is not idle, or a count of zero, traps with cause 33 and its number; a base that is not a
multiple of 64 with the base; an element outside the scratchpad with its address, the least such element deciding. Else the stream
is bound and running from its first element, and the instruction retires.
R141, R142: STRSTOP, STRWAIT and STRCNT. An idle stream makes the first two no-ops; else STRSTOP waits until every element pushed
into an OUT stream is written, STRWAIT also until every element has passed, and the stream becomes idle. STRCNT reads the elements
that have not passed.
R238: VSTRLEFT reads how many elements are left to this core, 0 of a stream that is idle or bound to the other core; VSTRROW whether
the next element begins a row; VSTRDRAIN waits while an element that this core pushed is unwritten, and else retires.
R144, R145, R100: STREAM_ELEMENT. An IN generator reads its next 64-byte element from the scratchpad into a port buffer of four,
or marks it where its sector is poisoned, and reads nothing while its cell sees one part of a 64-byte store to the sector and not another;
an OUT generator writes its oldest element to the element's address, which clears poison there. -/
def Obligations.StreamsRun : Prop :=
  (∀ (s : State) (a : Reg) (k : BitVec 2) (out core : Bool) (ext : BitVec 64), Ready s [a] none →
     let v := s.sval [] a
     let cnt0 := (ext.extractLsb' 0 16).toNat
     let cnt1 := (ext.extractLsb' 32 16).toNat
     let e := fun j : Nat => (v.toNat : Int) +
       64 * (((j / cnt0 : Nat) : Int) * (ext.extractLsb' 48 16).toInt + ((j % cnt0 : Nat) : Int) * (ext.extractLsb' 16 16).toInt)
     let outside := fun j => e j < 0 ∨ 0x5FFC0 < e j
     let i : Instr := .strgo a k out core ext
     ((s.stream k.toNat).mode ≠ 0 ∨ cnt0 = 0 ∨ cnt1 = 0 → exec i s = trap s 33 (BitVec.ofNat 64 k.toNat)) ∧
     ((s.stream k.toNat).mode = 0 → cnt0 ≠ 0 → cnt1 ≠ 0 →
       (v.toNat % 64 ≠ 0 → exec i s = trap s 33 v) ∧
       (v.toNat % 64 = 0 →
         (∀ j, j < cnt0 * cnt1 → outside j → (∀ m, m < j → ¬ outside m) → exec i s = trap s 33 (BitVec.ofInt 64 (e j))) ∧
         ((∀ j, j < cnt0 * cnt1 → ¬ outside j) →
           let stream : Stream :=
             { mode := 1, out := out, coreC := core, base := v, cnt0 := cnt0, stride0 := (ext.extractLsb' 16 16).toInt, cnt1 := cnt1
               stride1 := (ext.extractLsb' 48 16).toInt, after := s.past s.cur.core
               quantum := s.quantumOf s.myCtxId }
           ∃ t, exec i s = .next t ∧ Retires (s.updStream k.toNat fun _ => stream) t [a] none false 0 false ∧
             t.stream k.toNat = stream ∧ ∀ m, m ≠ k.toNat → t.stream m = s.stream m)))) ∧
  (∀ (s : State) (d : Reg) (k : BitVec 2), let x := s.stream k.toNat
     let written := x.out = false ∨ x.port = []
     let ends := fun i : Instr => ∃ t, exec i s = .next t ∧ Retires (s.updStream k.toNat fun _ => {}) t [] none false 0 false ∧
       (t.stream k.toNat).mode = 0 ∧ ∀ m, m ≠ k.toNat → t.stream m = s.stream m
     (x.mode = 0 → Branches (.strstop k) s [] false 0 false ∧ Branches (.strwait k) s [] false 0 false) ∧
     (x.mode ≠ 0 → written → ends (.strstop k)) ∧ (x.mode ≠ 0 → ¬ written → exec (.strstop k) s = .next s) ∧
     (x.mode = 2 → written → ends (.strwait k)) ∧ (x.mode = 1 → exec (.strwait k) s = .next s) ∧
     (x.mode = 2 → ¬ written → exec (.strwait k) s = .next s) ∧
     (Ready s [] (some d) →
       Yields (.strcnt d k) s [] d (if x.mode = 0 then 0 else BitVec.ofNat 64 (x.cnt0 * x.cnt1 - x.passed)))) ∧
  (∀ (s : State) (d : Reg) (k : BitVec 2), let x := s.stream k.toNat
     let mine := x.mode ≠ 0 ∧ s.cur.core.role = (if x.coreC then .c else .x)
     (Ready s [] (some d) →
       (mine → Yields (.vstrleft d k) s [] d (BitVec.ofNat 64 (x.cnt0 * x.cnt1 - x.passed)) ∧
         Yields (.vstrrow d k) s [] d (if x.passed < x.cnt0 * x.cnt1 ∧ x.passed % x.cnt0 = 0 then 1 else 0)) ∧
       (¬ mine → Yields (.vstrleft d k) s [] d 0 ∧ Yields (.vstrrow d k) s [] d 0)) ∧
     (mine ∧ x.out = true ∧ x.port ≠ [] → exec (.vstrdrain k) s = .next s) ∧
     (¬ (mine ∧ x.out = true ∧ x.port ≠ []) → Branches (.vstrdrain k) s [] false 0 false)) ∧
  (∀ s : State, let cell := s.args.cell
     let k := s.args.slot
     let x := tget (s.ctxOf cell).streams {} k
     let key := cellKey cell (x.elem x.moved).toNat
     let put := fun (u : State) (y : Stream) => u.updCtx cell fun c => { c with streams := tset c.streams k y }
     (x.mode ≠ 0 → x.out = false → x.moved < x.cnt0 * x.cnt1 → x.port.length < 4 → s.settled ⟨cell, .a⟩ x.after 0 = true →
       s.torn cell (sectorOf key) = false →
       exec .streamElement s = .next (put s { x with
         port := x.port ++ [if s.poisonedFor (.cell cell) (sectorOf key) then none else some (BitVec.ofNat 512 (s.natFor (.cell cell) (span key 64)))]
         moved := x.moved + 1 })) ∧
     (x.out = false → s.torn cell (sectorOf key) = true → exec .streamElement s = .next s) ∧
     (∀ e rest, MemoryOk s → x.mode ≠ 0 → x.out = true → x.port = e :: rest →
       ∃ t, exec .streamElement s = .next t ∧
         tget (t.ctxOf cell).streams {} k = { x with port := rest, lids := x.lids.drop 1, moved := x.moved + 1 } ∧
         t.natLast key 64 = (e.getD 0).toNat ∧ (∀ a, a < key ∨ key + 64 ≤ a → t.byteLast a = s.byteLast a) ∧
         (key % 64 = 0 → t.poisonedFor (.cell cell) (sectorOf key) = false ∧ t.poisonedLast (sectorOf key) = false) ∧
         (∀ v q, v ≠ .cell cell ∨ q / 4 ≠ sectorOf key → t.quarterBad v q = s.quarterBad v q) ∧
         (∀ p, t.coreOf p = s.coreOf p)) ∧
     (x.mode = 0 ∨ x.out = true ∧ x.port = [] ∨ x.out = false ∧ 4 ≤ x.port.length → exec .streamElement s = .next s))

/-- R147, R148, R150: the semaphore instructions outside a deterministic group. SEMW takes its amount where the core is first in line
and COUNT suffices, joins the line with its amount and waits where not, and completes at once for an amount of 0; SEMP adds, or traps with
cause 34 past 255; SEMTRY takes and answers 1 where nothing waits and COUNT suffices, else answers 0; SEMRD reads COUNT. A post examines the
first waiter at once: it takes its amount where COUNT suffices, and then the next in line may be examined (how many before the next operation
is the model's choice: log 98, DESIGN CHOICE). A taker sees what the posting cores did before their posts: until that is visible a SEMW that has
taken its amount waits with it, and SEMTRY is held (the model's reading: log 60, DEDUCED).
R146, R148: SEMAPHORE_STORE. A store to a semaphore that leaves the store buffer sets COUNT to the low byte of its value, and is a
post of the storing core: the first waiter takes its amount at once where COUNT suffices; every other semaphore of the cell keeps its
count. -/
def Obligations.SemaphoresComplete : Prop :=
  ((∀ (s : State) (d : Reg) (imm : BitVec 13) (m : BitVec 5), s.inGroup = false →
     let n := imm.toNat % 32
     let amount := imm.toNat / 32
     let count := s.myCtx.sem n
     let me : Waiter := .core s.cur.core.role
     let line := s.myCtx.semLine n
     let first := line = [] ∨ line.head? = some me
     let moved := fun (t : State) (c : Nat) => t.myCtx.sem n = c ∧ ∀ j, j ≠ n → t.myCtx.sem j = s.myCtx.sem j
     (amount = 0 → Branches (.semw imm) s [] false 0 false) ∧
     (amount ≠ 0 → s.myCtx.grantOf n amount me = none →
       (first → amount ≤ count → s.postsReady s.myCell n = true →
         ∃ t, exec (.semw imm) s = .next t ∧ Retires (s.updMyCtx (·.takeSem n amount me)) t [] none false 0 false ∧ moved t (count - amount) ∧
           me ∉ t.myCtx.semLine n) ∧
       (¬ (first ∧ amount ≤ count) → exec (.semw imm) s = .next (s.updMyCtx (·.joinSem n me amount))) ∧
       (first → amount ≤ count → s.postsReady s.myCell n = false → exec (.semw imm) s = .next (s.updMyCtx (·.giveSem n amount me)))) ∧
     (∀ g, amount ≠ 0 → s.myCtx.grantOf n amount me = some g →
       (s.seenPosts s.myCell g.posts = true →
         ∃ t, exec (.semw imm) s = .next t ∧ Retires (s.updMyCtx (·.dropGrant me)) t [] none false 0 false ∧ moved t count) ∧
       (s.seenPosts s.myCell g.posts = false → exec (.semw imm) s = .next s)) ∧
     (255 < count + amount → exec (.semp imm) s = trap s 34 (BitVec.ofNat 64 amount)) ∧
     (count + amount ≤ 255 →
       ∃ t, exec (.semp imm) s = .next t ∧
         Retires ((s.notePost s.cur.core n).postSem s.myCell n (count + amount)) t [] none false 0 false ∧
         (line = [] → moved t (count + amount))) ∧
     (Ready s [] (some d) →
       (line = [] → amount ≤ count → s.postsReady s.myCell n = true →
         ∃ t, exec (.semtry d imm) s = .next t ∧
           Retires (s.updMyCtx (·.takeSem n amount .sequencer)) t [] (some (d, 1)) false 0 false ∧ moved t (count - amount)) ∧
       (line = [] → amount ≤ count → s.postsReady s.myCell n = false → exec (.semtry d imm) s = .next s) ∧
       (¬ (line = [] ∧ amount ≤ count) → Yields (.semtry d imm) s [] d 0) ∧
       Yields (.semrd d m) s [] d (BitVec.ofNat 64 (s.myCtx.sem m.toNat)))) ∧
   (∀ (s : State) (cell n v : Nat), ∃ k, 1 ≤ k ∧ s.postSem cell n v = s.updCtx cell fun x => (x.setSem n v).examine n k) ∧
   ∀ (x : CellCtx) (n k : Nat), let line := tget x.semLines [] n
     (line = [] → x.examine n (k + 1) = x) ∧
     (∀ e, line.head? = some e → x.sem n < e.2 → x.examine n (k + 1) = x) ∧
     (∀ e, line.head? = some e → e.2 ≤ x.sem n →
       let y := x.giveSem n e.2 e.1
       x.examine n (k + 1) = y.examine n k ∧ y.sem n = x.sem n - e.2 ∧ (∀ m, m ≠ n → y.sem m = x.sem m) ∧
       tget y.semLines [] n = line.filter (fun w => decide (w.1 ≠ e.1)) ∧
       y.grants = x.grants ++ [{ who := e.1, sem := n, amount := e.2, posts := tget x.posts [] n }] ∧ tget y.posts [] n = [])) ∧
  (∀ (s : State) (off : Nat) (v : Word), let p := s.args.core
     p.role ≠ .s → s.controlEntry p s.args.index = some (off, v) → 0x1000 ≤ off → off < 0x1100 →
     let n := (off - 0x1000) / 8
     let line := tget (s.ctxOf p.cell).semLines [] n
     ∃ t, exec .semaphoreStore s = .next t ∧
       ((∀ e, line.head? = some e → v.toNat % 256 < e.2) →
         (t.ctxOf p.cell).sem n = v.toNat % 256 ∧ (t.ctxOf p.cell).semLines = (s.ctxOf p.cell).semLines) ∧
       (∀ e, line.head? = some e → e.2 ≤ v.toNat % 256 →
         e.1 ∉ (t.ctxOf p.cell).semLine n ∧ ∃ g ∈ (t.ctxOf p.cell).grants, g.who = e.1 ∧ g.sem = n ∧ g.amount = e.2) ∧
       (∀ m, m ≠ n → (t.ctxOf p.cell).sem m = (s.ctxOf p.cell).sem m) ∧
       (t.coreOf p).stores = (s.coreOf p).stores.eraseIdx s.args.index ∧ t.mem = s.mem ∧ t.writes = s.writes ∧
       (∀ q, ¬ sameCore p q → t.coreOf q = s.coreOf q))

/-- R151, R152: what an update does to a barrier object, field by field; each is followed by the completion check, which moves GEN on
and reloads PENDING where nothing is awaited any more. EXPECTED and the reserved bits stay. -/
def Obligations.BarrierUpdates : Prop :=
  ∀ (b : BitVec 128) (n : BitVec 32),
    let after := fun (c : BitVec 128) (pending : BitVec 24) (inbound outbound : BitVec 32) =>
      barExpected c = barExpected b ∧ c.extractLsb' 120 8 = b.extractLsb' 120 8 ∧ c.extractLsb' 4 4 = b.extractLsb' 4 4 ∧
      barInbound c = inbound ∧ barOutbound c = outbound ∧
      (if pending = 0 ∧ inbound = 0 ∧ outbound = 0 then barGen c = barGen b + 1 ∧ barPending c = barExpected b
        else barGen c = barGen b ∧ barPending c = pending)
    after (barArrive b) (barPending b - 1) (barInbound b) (barOutbound b) ∧
    after (barExpect b n) (barPending b) (barInbound b + n) (barOutbound b) ∧
    after (barStart b) (barPending b) (barInbound b) (barOutbound b + 1) ∧
    after (barDone b) (barPending b) (barInbound b) (barOutbound b - 1)

/-- R153, R130, R152: the barrier instructions complete outside a deterministic group, each as one update of the 16 bytes at its
address and nothing else; BARWAIT waits while GEN is what d says. Their traps: alignment to 16 bytes, an address outside the own
scratchpad, poison, and the protocol errors of cause 39, which come after poison (the model's choice: log 100, DESIGN CHOICE). -/
def Obligations.BarriersComplete : Prop :=
  ∀ (s : State) (d a : Reg) (imm : BitVec 25), MemoryOk s → s.inGroup = false →
    let ea := ((s.sval [] a + imm.signExtend 64).setWidth 48).toNat
    let key := cellKey s.myCell ea
    let b := s.barAt key
    let fits := ea % 16 = 0 ∧ ea < 0x60000 ∧ s.poisonHere key = false
    let traps := fun (i : Instr) (align fault : Nat) =>
      (ea % 16 ≠ 0 → exec i s = trap s align (BitVec.ofNat 64 ea)) ∧
      (ea % 16 = 0 → 0x60000 ≤ ea → exec i s = trap s fault (BitVec.ofNat 64 ea)) ∧
      (ea % 16 = 0 → ea < 0x60000 → s.poisonHere key = true → exec i s = trap s 29 (BitVec.ofNat 64 ea))
    let updates := fun (i : Instr) (srcs : List Reg) (c : BitVec 128) (res : Option (Reg × Word)) =>
      ∃ t, exec i s = .next t ∧
        RetiresFrom { s with mem := t.mem, writes := t.writes, fresh := t.fresh } s.me t srcs res false 0 false ∧
        t.barAt key = c ∧ (∀ x, x < key ∨ key + 16 ≤ x → t.byteLast x = s.byteLast x)
    (Ready s [a, d] none → let v := s.sval [a] d
      traps (.barset d a imm) 6 7 ∧ traps (.barexp d a imm) 6 7 ∧ traps (.barwait d a imm) 4 5 ∧
      (fits → v.setWidth 24 = 0#24 → exec (.barset d a imm) s = trap s 39 (BitVec.ofNat 64 ea)) ∧
      (fits → s.sectorQuiet key = true →
        (v.setWidth 24 ≠ 0#24 → barOutbound b ≠ 0 → exec (.barset d a imm) s = trap s 39 (BitVec.ofNat 64 ea)) ∧
        (v.setWidth 24 ≠ 0#24 → barOutbound b = 0 →
          updates (.barset d a imm) [a, d] (barMake 0 (v.setWidth 24) 0 0 (v.setWidth 24)) none) ∧
        updates (.barexp d a imm) [a, d] (barExpect b (v.setWidth 32)) none ∧
        (barGen b ≠ v.setWidth 4 → Branches (.barwait d a imm) s [a, d] false 0 false) ∧
        (barGen b = v.setWidth 4 → exec (.barwait d a imm) s = .next s))) ∧
    (Ready s [a] (some d) →
      traps (.bararr d a imm) 6 7 ∧ traps (.bartest d a imm) 4 5 ∧
      (fits → s.sectorQuiet key = true → Yields (.bartest d a imm) s [a] d ((barGen b).setWidth 64)) ∧
      (fits → s.sectorQuiet key = true → s.allSettled 0 = true →
        (barPending b = 0 → exec (.bararr d a imm) s = trap s 39 (BitVec.ofNat 64 ea)) ∧
        (barPending b ≠ 0 → updates (.bararr d a imm) [a] (barArrive b) (some (d, (barGen b).setWidth 64)))))

/-- R340, R341: in a deterministic group SEMP and SEMTRY are collected and retire, SEMTRY with its register pending (a queue code as D is the
model's reading: log 27, DEDUCED); SEMW is collected once and waits for the boundary, and retires when the boundary has granted it; SEMRD
reads the view.
R340, R341, R153: in a deterministic group BARSET, BAREXP and BARARR are collected and retire, BARARR with the object's generation of
the view; BARTEST reads the view; BARWAIT is collected once and waits for the boundary, and retires when the boundary has granted it.
R340, R341: in a deterministic group OHAND, ODROP and OTAKE are collected for the boundary and retire, OTAKE with its register pending;
OTEST reads the records as the last boundary took them. -/
def Obligations.CollectedInGroup : Prop :=
  (∀ (s : State) (d : Reg) (imm : BitVec 13) (m : BitVec 5), s.inGroup = true →
     let n := imm.toNat % 32
     let amount := imm.toNat / 32
     let with_ := fun op : Collected => { s.me with member := { s.me.member with ops := s.me.member.ops ++ [op] } }
     (∃ t, exec (.semp imm) s = .next t ∧ RetiresFrom s (with_ (.semPost n amount)) t [] none false 0 false) ∧
     (Ready s [] (some d) →
       (∃ t, exec (.semtry d imm) s = .next t ∧
         RetiresFrom s.bump
           { with_ (.semTry n amount (if d = 0 then none else some (.x d.toNat)) s.fresh) with
             pending := s.me.pending ++ (if d = 0 then [] else [{ reg := .x d.toNat, source := .boundary }]) } t [] none false 0 false) ∧
       Yields (.semrd d m) s [] d ((tget s.myCtx.view.sems 0 m.toNat).setWidth 64)) ∧
     (s.me.member.granted = some (.semWait n amount) → Branches (.semw imm) s [] false 0 false) ∧
     (s.me.member.granted ≠ some (.semWait n amount) → .semWait n amount ∉ s.me.member.ops →
       exec (.semw imm) s = .next (s.updMe fun _ => with_ (.semWait n amount))) ∧
     (s.me.member.granted ≠ some (.semWait n amount) → .semWait n amount ∈ s.me.member.ops → exec (.semw imm) s = .next s)) ∧
  (∀ (s : State) (d a : Reg) (imm : BitVec 25), s.inGroup = true →
     let ea := ((s.sval [] a + imm.signExtend 64).setWidth 48).toNat
     let key := cellKey s.myCell ea
     let view : Word := BitVec.ofNat 64 ((memGet s.myCtx.view.spad key).toNat % 16)
     let with_ := fun op : Collected => { s.me with member := { s.me.member with ops := s.me.member.ops ++ [op] } }
     ea % 16 = 0 → ea < 0x60000 → s.poisonHere key = false →
     (Ready s [a, d] none → let v := s.sval [a] d
       let waits : Collected := .barWait key (v.toNat % 16)
       (v.setWidth 24 ≠ 0#24 → s.sectorQuiet key = true → barOutbound (s.barAt key) = 0 →
         ∃ t, exec (.barset d a imm) s = .next t ∧ RetiresFrom s (with_ (.barSet key (v.toNat % 2 ^ 24))) t [a, d] none false 0 false) ∧
       (∃ t, exec (.barexp d a imm) s = .next t ∧ RetiresFrom s (with_ (.barExpect key (v.setWidth 32))) t [a, d] none false 0 false) ∧
       (s.me.member.granted = some waits → Branches (.barwait d a imm) s [a, d] false 0 false) ∧
       (s.me.member.granted ≠ some waits → waits ∉ s.me.member.ops → exec (.barwait d a imm) s = .next (s.updMe fun _ => with_ waits)) ∧
       (s.me.member.granted ≠ some waits → waits ∈ s.me.member.ops → exec (.barwait d a imm) s = .next s)) ∧
     (Ready s [a] (some d) →
       (∃ t, exec (.bararr d a imm) s = .next t ∧ RetiresFrom s (with_ (.barArrive key)) t [a] (some (d, view)) false 0 false) ∧
       Yields (.bartest d a imm) s [a] d view)) ∧
  (∀ (s : State) (d a : Reg) (imm : BitVec 25) (e : Word) (l : Nat), s.inGroup = true →
     let ea := effAddr (s.sval [] a) imm
     let me := (s.myCtxId, s.coreId s.cur.core)
     let page := leafPage e
     let with_ := fun op : Collected => { s.me with member := { s.me.member with ops := s.me.member.ops ++ [op] } }
     0x1000000000 ≤ ea → s.transFor s.cur.core s.myCtxId ea = .leaf e l → pteO e = true →
     (s.reaches e l ea .store = true → (s.ownOf page).holder = some me → s.handReady page = true →
       (Ready s [a, d] none → s.handTarget (s.sval [a] d) = true →
         ∃ t, exec (.ohand d a imm) s = .next t ∧ RetiresFrom s (with_ (.hand page (s.sval [a] d))) t [a, d] none false 0 false) ∧
       (Ready s [a] none → ∃ t, exec (.odrop a imm) s = .next t ∧ RetiresFrom s (with_ (.drop page)) t [a] none false 0 false)) ∧
     (s.reaches e l ea .load = true → Ready s [a] (some d) →
       (∃ t, exec (.otake d a imm) s = .next t ∧
         RetiresFrom s.bump
           { with_ (.take page (if d = 0 then none else some (.x d.toNat)) s.fresh) with
             pending := s.me.pending ++ (if d = 0 then [] else [{ reg := .x d.toNat, source := .boundary }]) } t [a] none false 0 false) ∧
       Yields (.otest d a imm) s [a] d ((s.ownViewOf page).word me)))

/-- R225 step 6, R196, R199, R103: what retiring a vector instruction leaves, where none of the registers it names is a stream port: vD
holds the result, FCSR has gained the flags and lost none, SRCNT has advanced by one exactly when the rounding was stochastic, the
queues named have lost their entries, and nothing else has changed but what FLAGOR may still show of flags that a write of FCSR changed (R197).
R143, R144, R225: a vector instruction whose source is a stream port pops one element for each time it names the port, one whose
destination is a port pushes its result, and either leaves the register's own contents alone.
R144, R145, R225, R219: what stops a vector function of two vector sources, in order: a stream port whose use is wrong (cause 33,
with its number); then it waits for its ports and its fragment, for the latter until MDONE reaches the LASTW that the tile had as the
instruction reached the head, and where it would push it waits for a boundary that has still to apply an acquire before it (the model's
reading: log 96, DEDUCED); then a poisoned fragment (cause 29, 2^33 + 16 × T + R), and a poisoned element that it would pop. -/
def Obligations.VectorRetirementAndChecks : Prop :=
  (∀ (s : State) (ss : List Reg) (vs : List Nat) (d : Reg) (v : Vec) (g : Flags) (sr : Bool),
     (∀ n ∈ vs, s.isPort n = false) → s.isPort d.toNat = false →
     let t := s.vfinish ss vs d v g sr
     RetiresFrom s
       { s.me with
         v := t.me.v
         fcsr := s.me.fcsr ||| (g.setWidth 64 <<< 8)
         stale := if s.me.fcsr.extractLsb' 8 5 ||| g = s.me.fcsr.extractLsb' 8 5 then s.me.stale else none
         srcnt := if sr then s.me.srcnt + 1 else s.me.srcnt } t ss none false 0 false ∧
     (∀ n, t.me.vr n = if n = d.toNat then v else s.me.vr n) ∧
     (∀ n, s.me.fcsr.getLsbD n = true → t.me.fcsr.getLsbD n = true)) ∧
  (∀ (s : State) (ss : List Reg) (vs : List Nat) (d : Reg) (v : Vec) (g : Flags) (sr : Bool),
     let t := s.vfinish ss vs d v g sr
     (∀ n, s.isPort n = true → n ≠ d.toNat →
       (t.stream n).port = (s.stream n).port.drop (countNat vs n) ∧ (t.stream n).passed = (s.stream n).passed + countNat vs n ∧
         (0 < countNat vs n → (s.stream n).total ≤ (s.stream n).passed + countNat vs n → (t.stream n).mode = 2) ∧
         t.me.vr n = s.me.vr n) ∧
     (s.isPort d.toNat = true → d.toNat ∉ vs →
       (t.stream d.toNat).port = (s.stream d.toNat).port ++ [some v] ∧ (t.stream d.toNat).passed = (s.stream d.toNat).passed + 1 ∧
         ((s.stream d.toNat).total ≤ (s.stream d.toNat).passed + 1 → (t.stream d.toNat).mode = 2) ∧
         ∀ n, t.me.vr n = s.me.vr n)) ∧
  (∀ (s : State) (d a : Reg) (b : VSrc) (esz : BitVec 2) (i : Instr),
     (i = .viadd d a b esz ∨ i = .visub d a b esz ∨ i = .vimul d a b esz ∨ i = .viand d a b esz ∨ i = .vmin d a b ∨ i = .vmax d a b ∨
       i = .vcmpfeq d a b ∨ i = .vcmpieq d a b esz) →
     let vs := a.toNat :: vsrcRegs b
     (∀ k, s.portTrap vs (some d.toNat) = some k → exec i s = trap s 33 (BitVec.ofNat 64 k)) ∧
     (∀ tl r, b = .frag tl r →
       (s.vsrcReady b = true ↔ (s.myCtx.matrix.done - s.me.fragMark.getD (tget s.myCtx.matrix.lastw 0 tl.toNat)).toNat < 2 ^ 31)) ∧
     let held := s.inGroup = true ∧ s.me.acquiring = true ∧ s.isPort d.toNat = true
     (s.portTrap vs (some d.toNat) = none →
       (held → exec i s = .next (s.updMe fun k => { k with member := { k.member with behind := true } })) ∧
       (¬ held → ¬ (s.vectorReady vs (some d.toNat) = true ∧ s.vsrcReady b = true) → exec i s = .next s) ∧
       (¬ held → s.vectorReady vs (some d.toNat) = true → s.vsrcReady b = true →
         (∀ tl r, b = .frag tl r → (∃ x ∈ fragKeys s.myCell tl.toNat r.toNat, s.poisonedFor (.cell s.myCell) (sectorOf x) = true) →
           exec i s = trap s 29 (BitVec.ofNat 64 (2 ^ 33 + 16 * tl.toNat + r.toNat))) ∧
         (s.vsrcPoison b = none → ∀ v, s.poisonedPort [] vs = some v → exec i s = trap s 29 v))))

/-- R227, R228, R229: the functions of V complete with their lane results. The arithmetic ones round once in their mode; VMIN and VMAX
order −0 below +0; VABS and VNEG change bit 31 alone and raise no flag. A reserved mode of DMODE traps with cause 2 instead.
R228, R227: fp_op of a fused product and sum, and fp_minmax. A NaN among the inputs gives the canonical NaN, with NV exactly for a
signalling one; 0 × ∞ and ∞ − ∞ give it with NV; another infinity gives the infinity; finite inputs give a × b + c exact, rounded once;
an exact zero has the sign of both terms where these agree and the product is zero, else − under RDN only. VMIN and VMAX give one of the two
inputs: the smaller or the larger in the order −∞ < negatives < −0 < +0 < positives < +∞, which is that of the codes read as signed
magnitudes, −0 just below +0.
R229: VEXP2, VRCP and VRSQ of a lane. Their answers for NaNs, infinities and zeros. The reciprocal and the reciprocal square root of
another value are the FP32 value next to the exact one on the side of zero, with NX where it is not the exact one and UF where it is also
tiny; a reciprocal beyond the largest finite value is ∞ with OF and NX. VEXP2 is ∞ with OF and NX from 128 on, +0 with UF and NX below −149,
the exact power of two for an integer between, and for another value raises NX and is no less than the power of two below (how its bits
are worked out is the model's reading: log 14, DEDUCED). -/
def Obligations.FloatVectorResults : Prop :=
  (∀ (s : State) (d a c : Reg) (b : VSrc) (rm : BitVec 3),
     let x := s.vval [] a.toNat
     let y := s.vsrcVal [a.toNat] b
     let z := s.vval (a.toNat :: vsrcRegs b) c.toNat
     let y1 := s.vsrcVal [] b
     let two := fun (i : Instr) (f : BitVec 32 → BitVec 32 → Lane) =>
       LaneWise i s [] (a.toNat :: vsrcRegs b) d 32 (fun j => (f (lane 32 x j) (lane 32 y j)).bits)
         (fun j => (f (lane 32 x j) (lane 32 y j)).flags) false
     let one := fun (i : Instr) (f : BitVec 32 → Lane) =>
       LaneWise i s [] (vsrcRegs b) d 32 (fun j => (f (lane 32 y1 j)).bits) (fun j => (f (lane 32 y1 j)).flags) false
     (s.me.mode rm false = none →
       exec (.vadd d a b rm) s = trap s 2 (s.cur.word.setWidth 64) ∧ exec (.vsub d a b rm) s = trap s 2 (s.cur.word.setWidth 64) ∧
       exec (.vmul d a b rm) s = trap s 2 (s.cur.word.setWidth 64) ∧ exec (.vfma d a b c rm) s = trap s 2 (s.cur.word.setWidth 64)) ∧
     (VReady s [] none (a.toNat :: vsrcRegs b) (some b) (some d.toNat) →
       (∀ m, s.me.mode rm false = some m →
         two (.vadd d a b rm) (fun p q => fpAdd (fp p) (fp q) m) ∧ two (.vsub d a b rm) (fun p q => fpAdd (fp p) (fp q).negate m) ∧
         two (.vmul d a b rm) (fun p q => fpMul (fp p) (fp q) m)) ∧
       two (.vmin d a b) (fun p q => fpMinMax p q false) ∧ two (.vmax d a b) (fun p q => fpMinMax p q true)) ∧
     (VReady s [] none (a.toNat :: vsrcRegs b ++ [c.toNat]) (some b) (some d.toNat) → ∀ m, s.me.mode rm false = some m →
       LaneWise (.vfma d a b c rm) s [] (a.toNat :: vsrcRegs b ++ [c.toNat]) d 32
         (fun j => (fpFma (fp (lane 32 x j)) (fp (lane 32 y j)) (fp (lane 32 z j)) m).bits)
         (fun j => (fpFma (fp (lane 32 x j)) (fp (lane 32 y j)) (fp (lane 32 z j)) m).flags) false) ∧
     (VReady s [] none (vsrcRegs b) (some b) (some d.toNat) →
       one (.vabs d b) (fun p => { bits := p &&& 0x7FFFFFFF#32, flags := 0 }) ∧ one (.vneg d b) (fun p => { bits := p ^^^ 0x80000000#32, flags := 0 }) ∧
       one (.vexp2 d b) fpExp2 ∧ one (.vrcp d b) fpRcp ∧ one (.vrsq d b) fpRsq)) ∧
  ((∀ (x y z : BitVec 32) (m : RMode), let a := fp x
     let b := fp y
     let c := fp z
     let inf := fun (n : Bool) => ({ bits := if n then 0xFF800000#32 else 0x7F800000#32, flags := 0 } : Lane)
     let invalid : Lane := { bits := canonNan, flags := flagNV }
     (a.isNan = true ∨ b.isNan = true ∨ c.isNan = true →
       fpFma a b c m = { bits := canonNan, flags := if a.isSnan || b.isSnan || c.isSnan then flagNV else 0 }) ∧
     (a.isNan = false → b.isNan = false → c.isNan = false →
       (a.isInf = true ∧ b.isZero = true ∨ a.isZero = true ∧ b.isInf = true → fpFma a b c m = invalid) ∧
       ((a.isInf = true ∨ b.isInf = true) → a.isZero = false → b.isZero = false →
         (c.isInf = true → c.neg ≠ (a.neg != b.neg) → fpFma a b c m = invalid) ∧
         (c.isInf = false ∨ c.neg = (a.neg != b.neg) → fpFma a b c m = inf (a.neg != b.neg))) ∧
       (a.isInf = false → b.isInf = false → c.isInf = true → fpFma a b c m = inf c.neg)) ∧
     (∀ (na nb nc : Bool) (ma mb mc : Nat) (ea eb ec : Int), a = .num na ma ea → b = .num nb mb eb → c = .num nc mc ec →
       let low := min (ea + eb) ec
       let total := (if na = nb then 1 else -1) * ((ma * mb : Nat) : Int) * 2 ^ (ea + eb - low).toNat +
         (if nc then -1 else 1) * (mc : Int) * 2 ^ (ec - low).toNat
       (total ≠ 0 → fpFma a b c m = toFp32 (.num (decide (total < 0)) total.natAbs low) (plainChoice m)) ∧
       (total = 0 → (ma * mb ≠ 0 ∨ (na != nb) ≠ nc) → fpFma a b c m = { bits := if m = .rdn then 0x80000000#32 else 0, flags := 0 }) ∧
       (total = 0 → ma * mb = 0 → (na != nb) = nc → fpFma a b c m = { bits := if nc then 0x80000000#32 else 0, flags := 0 }))) ∧
   ∀ (x y : BitVec 32), let place := fun v : BitVec 32 => (if v.getLsbD 31 then -1 - (v.toNat % 2 ^ 31 : Nat) else (v.toNat : Int) : Int)
     ((fp x).isNan = true ∨ (fp y).isNan = true → ∀ larger,
       fpMinMax x y larger = { bits := canonNan, flags := if (fp x).isSnan || (fp y).isSnan then flagNV else 0 }) ∧
     ((fp x).isNan = false → (fp y).isNan = false →
       fpMinMax x y false = { bits := if place x ≤ place y then x else y, flags := 0 } ∧
       fpMinMax x y true = { bits := if place x ≤ place y then y else x, flags := 0 })) ∧
  (∀ x : BitVec 32,
     let nan := fun sig : Bool => ({ bits := canonNan, flags := if sig then flagNV else 0 } : Lane)
     let exactly := fun bits : BitVec 32 => ({ bits := bits, flags := 0 } : Lane)
     (∀ sig, fp x = .nan sig → fpExp2 x = nan sig ∧ fpRcp x = nan sig ∧ fpRsq x = nan sig) ∧
     (fp x = .inf true → fpExp2 x = exactly 0 ∧ fpRcp x = exactly 0x80000000#32 ∧ fpRsq x = nan true) ∧
     (fp x = .inf false → fpExp2 x = exactly 0x7F800000#32 ∧ fpRcp x = exactly 0 ∧ fpRsq x = exactly 0) ∧
     (∀ n e, fp x = .num n 0 e → fpExp2 x = exactly 0x3F800000#32 ∧
       fpRcp x = { bits := if n then 0xFF800000#32 else 0x7F800000#32, flags := flagDZ } ∧
       fpRsq x = { bits := if n then 0xFF800000#32 else 0x7F800000#32, flags := flagDZ }) ∧
     (∀ (n : Bool) (m : Nat) (e : Int), fp x = .num n m e → m ≠ 0 →
       -- v × |b| against 1, and v² × b against 1, for the finite value v of a code
       let recip := fun (c : Nat) (p : Nat → Nat → Prop) =>
         ∃ k d, fp (BitVec.ofNat 32 c) = .num false k d ∧ p (k * m * 2 ^ (d + e + 400).toNat) (2 ^ 400)
       let root := fun (c : Nat) (p : Nat → Nat → Prop) =>
         ∃ k d, fp (BitVec.ofNat 32 c) = .num false k d ∧ p (k * k * m * 2 ^ (2 * d + e + 800).toNat) (2 ^ 800)
       (recip 0x7F7FFFFF (· < ·) → fpRcp x = { bits := if n then 0xFF800000#32 else 0x7F800000#32, flags := flagOF ||| flagNX }) ∧
       (¬ recip 0x7F7FFFFF (· < ·) → ∃ c, c < 0x7F800000 ∧ (fpRcp x).bits = BitVec.ofNat 32 (c + if n then 2 ^ 31 else 0) ∧
         recip c (· ≤ ·) ∧ ¬ recip (c + 1) (· ≤ ·) ∧
         (recip c (· = ·) → (fpRcp x).flags = 0) ∧
         (¬ recip c (· = ·) → (fpRcp x).flags = if 2 ^ 275 < m * 2 ^ (e + 149).toNat then flagUF ||| flagNX else flagNX)) ∧
       (n = true → fpRsq x = nan true) ∧
       (n = false → ∃ c, c < 0x7F800000 ∧ (fpRsq x).bits = BitVec.ofNat 32 c ∧ root c (· ≤ ·) ∧ ¬ root (c + 1) (· ≤ ·) ∧
         (root c (· = ·) → (fpRsq x).flags = 0) ∧ (¬ root c (· = ·) → (fpRsq x).flags = flagNX)) ∧
       let b : Int := (if n then -1 else 1) * (m : Int) * 2 ^ (e + 149).toNat
       (128 * 2 ^ 149 ≤ b → fpExp2 x = { bits := 0x7F800000#32, flags := flagOF ||| flagNX }) ∧
       (b < -149 * 2 ^ 149 → fpExp2 x = { bits := 0, flags := flagUF ||| flagNX }) ∧
       (-149 * 2 ^ 149 ≤ b → b < 128 * 2 ^ 149 →
         ∃ k d, fp (fpExp2 x).bits = .num false k d ∧
           (b % 2 ^ 149 = 0 → k * 2 ^ (d + 149).toNat = 2 ^ (b / 2 ^ 149 + 149).toNat ∧ (fpExp2 x).flags = 0) ∧
           (b % 2 ^ 149 ≠ 0 → 2 ^ (b / 2 ^ 149 + 149).toNat ≤ k * 2 ^ (d + 149).toNat ∧ (fpExp2 x).flags.getLsbD 4 = true))))

/-- R183, R194, R228: the FP32 arithmetic of a lane. A NaN among the inputs gives the canonical NaN, with NV exactly for a signalling
one; ∞ − ∞ and 0 × ∞ give it with NV; another infinity gives the infinity; two finite inputs give the exact sum or product, rounded once
in the mode; an exact zero sum is −0 for two negative zeros, or under RDN for anything but two positive zeros.
R183, R194, R195: a value that FP32 holds rounds to itself in every mode, with no flag: no bit of the decoding or of the rounding is
dropped.
R194, R195: what rounding a finite value other than zero gives, for every format. A float result is one of the two neighbours of the
exact value: lo, the largest magnitude of the format that does not exceed it, or hi, the next one, 2^(emax + 1) beyond the largest. RTZ takes
lo; RUP and RDN take hi on their own side; RNE and RNA the nearer, on a tie the even code and hi; SR takes hi where the random word is below
the value's place between them, times 2^32. A narrow float has 0 and its least magnitude as neighbours below that magnitude, and saturates
where it has no infinity. An integer format rounds to an integer in the same way and clamps it. OF is raised where the result passes the
largest finite value, UF where the value is tiny and not exact, NX where it is not exact, and NV alone where an integer is clamped.
R194, R195: what rounding a NaN, an infinity and a zero gives, for every format. A NaN gives the format's canonical NaN, with NV for a
signalling one; 0 with NV where it has none. An infinity stays one, or becomes the largest value of its sign with NV: the end of the range
on its own side in an integer format (for minus infinity the model's choice: log 110, DESIGN CHOICE). A zero keeps its sign in an IEEE
format, and is +0 in any other. -/
def Obligations.FloatArithmetic : Prop :=
  (∀ (x y : BitVec 32) (m : RMode), let a := fp x
     let b := fp y
     (a.isNan = true ∨ b.isNan = true →
       let g : Flags := if a.isSnan || b.isSnan then flagNV else 0
       fpAdd a b m = { bits := canonNan, flags := g } ∧ fpMul a b m = { bits := canonNan, flags := g }) ∧
     (∀ p q, a = .inf p → b = .inf q →
       (p ≠ q → fpAdd a b m = { bits := canonNan, flags := flagNV }) ∧
       (p = q → fpAdd a b m = { bits := if p then 0xFF800000#32 else 0x7F800000#32, flags := 0 }) ∧
       fpMul a b m = { bits := if p = q then 0x7F800000#32 else 0xFF800000#32, flags := 0 }) ∧
     (∀ p n k e, (a = .inf p ∧ b = .num n k e ∨ a = .num n k e ∧ b = .inf p) →
       fpAdd a b m = { bits := if p then 0xFF800000#32 else 0x7F800000#32, flags := 0 } ∧
       (k = 0 → fpMul a b m = { bits := canonNan, flags := flagNV }) ∧
       (k ≠ 0 → fpMul a b m = { bits := if p = n then 0x7F800000#32 else 0xFF800000#32, flags := 0 })) ∧
     (∀ (nx : Bool) (mx : Nat) (ex : Int) (ny : Bool) (my : Nat) (ey : Int), a = .num nx mx ex → b = .num ny my ey →
       let low := min ex ey
       let total := (if nx then -1 else 1) * (mx : Int) * 2 ^ (ex - low).toNat + (if ny then -1 else 1) * (my : Int) * 2 ^ (ey - low).toNat
       (total ≠ 0 → fpAdd a b m = toFp32 (.num (decide (total < 0)) total.natAbs low) (plainChoice m)) ∧
       (total = 0 → mx ≠ 0 ∨ nx ≠ ny → fpAdd a b m = { bits := if m = .rdn then 0x80000000#32 else 0, flags := 0 }) ∧
       (total = 0 → mx = 0 → nx = ny → fpAdd a b m = { bits := if nx then 0x80000000#32 else 0, flags := 0 }) ∧
       fpMul a b m = toFp32 (.num (nx != ny) (mx * my) (ex + ey)) (plainChoice m))) ∧
  (∀ (x : BitVec 32) (c : Choice), (fp x).isNan = false → toFp32 (fp x) c = { bits := x, flags := 0 }) ∧
  (∀ (code : Nat) (f : Fmt) (neg : Bool) (m : Nat) (e : Int) (ch : Choice), fmtOf code = some f → m ≠ 0 →
     let up := fun (odd : Bool) (rem gap : Nat) => decide (rem ≠ 0) && (match ch.mode with
       | .rtz => false
       | .rup => !neg
       | .rdn => neg
       | .rne => decide (gap < 2 * rem) || decide (gap = 2 * rem) && odd
       | .rna => decide (gap ≤ 2 * rem)
       | .sr => decide (ch.random < rem * 2 ^ 32 / gap))
     let raised := fun (p : Bool) (g : Flags) => if p then g else 0#5
     (∀ w ebits mbits bias maxCode, f = .ieee w ebits mbits bias maxCode →
       let low := min e (1 - bias - mbits)
       let v := m * 2 ^ (e - low).toNat
       let mag := fun c : Nat => (if c < 2 ^ mbits then c else (2 ^ mbits + c % 2 ^ mbits) * 2 ^ (c / 2 ^ mbits - 1)) *
         2 ^ (1 - bias - mbits - low).toNat
       ∃ lo, lo ≤ maxCode ∧ mag lo ≤ v ∧ (lo < maxCode → v < mag (lo + 1)) ∧
         let rem := v - mag lo
         let hi := up (decide (lo % 2 = 1)) rem (mag (lo + 1) - mag lo)
         round (.num neg m e) f ch =
           { code := (if neg then 2 ^ (w - 1) else 0) + if hi then lo + 1 else lo
             flags := raised (hi && decide (lo = maxCode)) flagOF ||| raised (decide (v < mag (2 ^ mbits)) && decide (rem ≠ 0)) flagUF |||
               raised (decide (rem ≠ 0)) flagNX }) ∧
     (∀ w mbits bias maxCode hasInf nan, f = .narrow w mbits bias maxCode hasInf nan →
       let low := min e (-bias - mbits)
       let v := m * 2 ^ (e - low).toNat
       let mag := fun c : Nat => (2 ^ mbits + c % 2 ^ mbits) * 2 ^ (c / 2 ^ mbits) * 2 ^ (-bias - mbits - low).toNat
       let least := if neg then 0 else 1
       let sign := if neg then 2 ^ (w - 1) else 0
       (v < mag least →
         round (.num neg m e) f ch = { code := if up false v (mag least) then sign + least else 0, flags := flagUF ||| flagNX }) ∧
       (mag least ≤ v → hasInf = false → mag maxCode < v → round (.num neg m e) f ch = { code := sign + maxCode, flags := flagOF ||| flagNX }) ∧
       (mag least ≤ v → (hasInf = true ∨ v ≤ mag maxCode) →
         ∃ lo, least ≤ lo ∧ lo ≤ maxCode ∧ mag lo ≤ v ∧ (lo < maxCode → v < mag (lo + 1)) ∧
           let rem := v - mag lo
           let hi := up (decide (lo % 2 = 1)) rem (mag (lo + 1) - mag lo)
           round (.num neg m e) f ch =
             { code := sign + if hi then lo + 1 else lo
               flags := raised (hi && decide (lo = maxCode)) flagOF ||| raised (decide (rem ≠ 0)) flagNX })) ∧
     (∀ w lo hi, f = .int w lo hi →
       let low := min e 0
       let v := m * 2 ^ (e - low).toNat
       let unit := 2 ^ (-low).toNat
       let r : Int := (if neg then -1 else 1) * ((v / unit : Nat) + if up (decide (v / unit % 2 = 1)) (v % unit) unit then 1 else 0)
       round (.num neg m e) f ch =
         { code := (max lo (min hi r) % 2 ^ w).toNat
           flags := if r < lo ∨ hi < r then flagNV else raised (decide (v % unit ≠ 0)) flagNX })) ∧
  (∀ (code : Nat) (f : Fmt) (neg : Bool) (e : Int) (ch : Choice), fmtOf code = some f →
     let signalling := if neg then flagNV else 0#5
     (∀ w ebits mbits bias maxCode, f = .ieee w ebits mbits bias maxCode →
       let sign := if neg then 2 ^ (w - 1) else 0
       let top := (2 ^ ebits - 1) * 2 ^ mbits
       round (.nan neg) f ch = { code := top + 2 ^ (mbits - 1), flags := signalling } ∧
       round (.inf neg) f ch = { code := sign + top, flags := 0 } ∧ round (.num neg 0 e) f ch = { code := sign, flags := 0 }) ∧
     (∀ w mbits bias maxCode hasInf nan, f = .narrow w mbits bias maxCode hasInf nan →
       let sign := if neg then 2 ^ (w - 1) else 0
       (∀ c, nan = some c → round (.nan neg) f ch = { code := c, flags := signalling }) ∧
       (nan = none → round (.nan neg) f ch = { code := 0, flags := flagNV }) ∧
       (hasInf = true → round (.inf neg) f ch = { code := sign + maxCode + 1, flags := 0 }) ∧
       (hasInf = false → round (.inf neg) f ch = { code := sign + maxCode, flags := flagNV }) ∧
       round (.num neg 0 e) f ch = { code := 0, flags := 0 }) ∧
     (∀ w lo hi, f = .int w lo hi →
       round (.nan neg) f ch = { code := 0, flags := flagNV } ∧
       round (.inf neg) f ch = { code := ((if neg then lo else hi) % 2 ^ w).toNat, flags := flagNV } ∧
       round (.num neg 0 e) f ch = { code := 0, flags := 0 }))

/-- R230: the integer functions of VI complete with their lane results at the width of ESZ, without flags.
R231, R232: vector compares write a lane of ones or of zeros, the float ones with NV for a signalling NaN, or for any NaN where the
table says so; VCMPSEL selects by lane; the shifts compare their amount with the lane width, taken from the lane of vB or from all 64
bits of a scalar. -/
def Obligations.IntegerVectorResults : Prop :=
  (∀ (s : State) (d a : Reg) (b : VSrc) (esz : BitVec 2), VReady s [] none (a.toNat :: vsrcRegs b) (some b) (some d.toNat) →
     let w := 8 * 2 ^ esz.toNat
     let x := s.vval [] a.toNat
     let y := s.vsrcVal [a.toNat] b
     let two := fun (i : Instr) (f : BitVec w → BitVec w → BitVec w) =>
       LaneWise i s [] (a.toNat :: vsrcRegs b) d w (fun j => f (lane w x j) (lane w y j)) (fun _ => 0) false
     let clampS := fun n : Int => BitVec.ofInt w (max (-2 ^ (w - 1)) (min (2 ^ (w - 1) - 1) n))
     let clampU := fun n : Int => BitVec.ofInt w (max 0 (min (2 ^ w - 1) n))
     two (.viadd d a b esz) (fun p q => p + q) ∧
     two (.viadds d a b esz) (fun p q => clampS (p.toInt + q.toInt)) ∧
     two (.viaddus d a b esz) (fun p q => clampU (p.toNat + q.toNat)) ∧
     two (.visub d a b esz) (fun p q => p - q) ∧
     two (.visubs d a b esz) (fun p q => clampS (p.toInt - q.toInt)) ∧
     two (.visubus d a b esz) (fun p q => clampU ((p.toNat : Int) - q.toNat)) ∧
     two (.vimul d a b esz) (fun p q => p * q) ∧
     two (.vimulh d a b esz) (fun p q => BitVec.ofInt w (p.toInt * q.toInt / 2 ^ w)) ∧
     two (.vimulhu d a b esz) (fun p q => BitVec.ofNat w (p.toNat * q.toNat / 2 ^ w)) ∧
     two (.vimin d a b esz) (fun p q => if p.toInt < q.toInt then p else q) ∧
     two (.vimax d a b esz) (fun p q => if p.toInt < q.toInt then q else p) ∧
     two (.viminu d a b esz) (fun p q => if p.toNat < q.toNat then p else q) ∧
     two (.vimaxu d a b esz) (fun p q => if p.toNat < q.toNat then q else p) ∧
     two (.viand d a b esz) (fun p q => p &&& q) ∧
     two (.vior d a b esz) (fun p q => p ||| q) ∧
     two (.vixor d a b esz) (fun p q => p ^^^ q) ∧
     two (.viandn d a b esz) (fun p q => p &&& ~~~q)) ∧
  (∀ (s : State) (d a c r : Reg) (b : VSrc) (esz : BitVec 2),
     let w := 8 * 2 ^ esz.toNat
     let x := s.vval [] a.toNat
     let y := s.vsrcVal [a.toNat] b
     let z := s.vval (a.toNat :: vsrcRegs b) c.toNat
     let mask := fun (w : Nat) (p : Prop) [Decidable p] => (if p then BitVec.allOnes w else 0#w)
     let fl := fun (i : Instr) (p : Val → Val → Bool) (onNan anyNan : Bool) =>
       LaneWise i s [] (a.toNat :: vsrcRegs b) d 32
         (fun j => let m := fp (lane 32 x j)
           let n := fp (lane 32 y j)
           mask 32 (if m.isNan || n.isNan then onNan = true else p m n = true))
         (fun j => let m := fp (lane 32 x j)
           let n := fp (lane 32 y j)
           if (m.isSnan || n.isSnan) || (anyNan && (m.isNan || n.isNan)) then flagNV else 0) false
     let int := fun (i : Instr) (p : BitVec w → BitVec w → Bool) =>
       LaneWise i s [] (a.toNat :: vsrcRegs b) d w (fun j => mask w (p (lane w x j) (lane w y j) = true)) (fun _ => 0) false
     let shl := fun (v : BitVec w) (n : Nat) => if n < w then v <<< n else 0#w
     let shr := fun (v : BitVec w) (n : Nat) => if n < w then v >>> n else 0#w
     let sha := fun (v : BitVec w) (n : Nat) => if n < w then v.sshiftRight n else mask w (v.toInt < 0)
     let byLane := fun (i : Instr) (f : BitVec w → Nat → BitVec w) =>
       LaneWise i s [] [a.toNat, r.toNat] d w (fun j => f (lane w x j) (lane w (s.vval [a.toNat] r.toNat) j).toNat) (fun _ => 0) false
     let byScalar := fun (i : Instr) (f : BitVec w → Nat → BitVec w) =>
       LaneWise i s [r] [a.toNat] d w (fun j => f (lane w x j) (s.sval [] r).toNat) (fun _ => 0) false
     (VReady s [] none (a.toNat :: vsrcRegs b) (some b) (some d.toNat) →
       fl (.vcmpfeq d a b) eqVal false false ∧
       fl (.vcmpflt d a b) (fun m n => leVal m n && !eqVal m n) false true ∧
       fl (.vcmpfle d a b) (fun m n => leVal m n || eqVal m n) false true ∧
       fl (.vcmpfun d a b) (fun _ _ => false) true false ∧
       int (.vcmpieq d a b esz) (fun p q => p == q) ∧
       int (.vcmpilt d a b esz) (fun p q => decide (p.toInt < q.toInt)) ∧
       int (.vcmpiltu d a b esz) (fun p q => decide (p.toNat < q.toNat))) ∧
     (VReady s [] none (a.toNat :: vsrcRegs b ++ [c.toNat]) (some b) (some d.toNat) →
       LaneWise (.vcmpsel d a b c esz) s [] (a.toNat :: vsrcRegs b ++ [c.toNat]) d w
         (fun j => if lane w z j = 0 then lane w y j else lane w x j) (fun _ => 0) false) ∧
     (VReady s [] none [a.toNat, r.toNat] (some (.reg r)) (some d.toNat) →
       byLane (.vshl d a r esz) shl ∧ byLane (.vshr d a r esz) shr ∧ byLane (.vsha d a r esz) sha) ∧
     (VReady s [r] none [a.toNat] none (some d.toNat) →
       byScalar (.vshls d a r esz) shl ∧ byScalar (.vshrs d a r esz) shr ∧ byScalar (.vshas d a r esz) sha))

/-- R233: the reductions put one result into every lane: the sum rounded once, the largest and smallest by fp_minmax, and the integer
sum, extremes and OR at the width of ESZ; VREDCNT writes the number of lanes that are not zero to a scalar.
R233: what VREDSUM and the float extremes put into the lanes. The sum: the canonical NaN for a NaN or for both infinities, with NV for a
signalling NaN or the infinities; else an infinity among the lanes; else the exact sum of all lanes, rounded once; an exact zero is −0 when
every lane is −0, or under RDN when some lane is not zero. The extremes: the canonical NaN for any NaN, with NV for a signalling one; else the
lane that no other lane lies below, or above, in the order of fp_minmax, whatever the order of the fold.
R234: the moves complete: a whole register or fragment, one scalar in every lane, a lane to a scalar, a scalar into one lane, lanes
permuted by the lanes of another register, and the whole register shifted right. -/
def Obligations.ReductionAndMoveResults : Prop :=
  (∀ (s : State) (d : Reg) (b : VSrc) (esz : BitVec 2) (rm : BitVec 3),
     let w := 8 * 2 ^ esz.toNat
     let v := s.vsrcVal [] b
     let each := fun (i : Instr) (w : Nat) (r : BitVec w) (g : Flags) => LaneWise i s [] (vsrcRegs b) d w (fun _ => r) (fun _ => g) false
     let ints := (List.range (512 / w)).map fun j => lane w v j
     (VReady s [] none (vsrcRegs b) (some b) (some d.toNat) →
       (∀ m, s.me.mode rm false = some m →
         each (.vredsum d b rm) 32 (fpSum ((List.range 16).map fun j => lane 32 v j) m).bits
           (fpSum ((List.range 16).map fun j => lane 32 v j) m).flags) ∧
       each (.vredmax d b) 32 (fpFold ((List.range 16).map fun j => lane 32 v j) true).bits
         (fpFold ((List.range 16).map fun j => lane 32 v j) true).flags ∧
       each (.vredmin d b) 32 (fpFold ((List.range 16).map fun j => lane 32 v j) false).bits
         (fpFold ((List.range 16).map fun j => lane 32 v j) false).flags ∧
       each (.vredisum d b esz) w (ints.foldr (· + ·) 0) 0 ∧
       (∃ r, each (.vredimax d b esz) w r 0 ∧ r ∈ ints ∧ ∀ p ∈ ints, p.toInt ≤ r.toInt) ∧
       (∃ r, each (.vredimin d b esz) w r 0 ∧ r ∈ ints ∧ ∀ p ∈ ints, r.toInt ≤ p.toInt) ∧
       each (.vredor d b esz) w (ints.foldr (· ||| ·) 0) 0) ∧
     (VReady s [] (some d) (vsrcRegs b) (some b) none →
       exec (.vredcnt d b esz) s =
         .next ((s.vtake [] (vsrcRegs b) 0 false).writeD d (BitVec.ofNat 64 (ints.filter fun p => decide (p ≠ 0)).length)).retire)) ∧
  ((∀ (ls : List (BitVec 32)) (m : RMode),
     let both := 0x7F800000#32 ∈ ls ∧ 0xFF800000#32 ∈ ls
     let nan := ∃ l ∈ ls, (fp l).isNan = true
     let snan := ∃ l ∈ ls, (fp l).isSnan = true
     let total := (ls.map fun l => (fp l).units (-149)).foldr (· + ·) 0
     (nan ∨ both → (fpSum ls m).bits = canonNan ∧ (snan ∨ both → (fpSum ls m).flags = flagNV) ∧
       (¬ (snan ∨ both) → (fpSum ls m).flags = 0)) ∧
     (¬ (nan ∨ both) →
       (∀ i, i = 0x7F800000#32 ∨ i = 0xFF800000#32 → i ∈ ls → fpSum ls m = { bits := i, flags := 0 }) ∧
       ((∀ l ∈ ls, (fp l).isInf = false) →
         (total ≠ 0 → ∃ k e : Int, -149 ≤ e ∧ k * 2 ^ (e + 149).toNat = total ∧
           fpSum ls m = toFp32 (.num (decide (k < 0)) k.natAbs e) (plainChoice m)) ∧
         (total = 0 → ((∀ l ∈ ls, l = 0x80000000#32) ∨ m = .rdn ∧ ∃ l ∈ ls, l &&& 0x7FFFFFFF#32 ≠ 0) →
           fpSum ls m = { bits := 0x80000000#32, flags := 0 }) ∧
         (total = 0 → ¬ ((∀ l ∈ ls, l = 0x80000000#32) ∨ m = .rdn ∧ ∃ l ∈ ls, l &&& 0x7FFFFFFF#32 ≠ 0) →
           fpSum ls m = { bits := 0, flags := 0 })))) ∧
   ∀ (x y : BitVec 32) (rest : List (BitVec 32)) (larger : Bool), let ls := x :: y :: rest
     let place := fun v : BitVec 32 => (if v.getLsbD 31 then -1 - (v.toNat % 2 ^ 31 : Nat) else (v.toNat : Int) : Int)
     ((∃ l ∈ ls, (fp l).isNan = true) → (fpFold ls larger).bits = canonNan ∧
       ((∃ l ∈ ls, (fp l).isSnan = true) → (fpFold ls larger).flags = flagNV) ∧
       ((∀ l ∈ ls, (fp l).isSnan = false) → (fpFold ls larger).flags = 0)) ∧
     ((∀ l ∈ ls, (fp l).isNan = false) → (fpFold ls larger).flags = 0 ∧ (fpFold ls larger).bits ∈ ls ∧
       ∀ l ∈ ls, if larger then place l ≤ place (fpFold ls larger).bits else place (fpFold ls larger).bits ≤ place l)) ∧
  (∀ (s : State) (d a b c : Reg) (vb : VSrc) (esz : BitVec 2),
     let w := 8 * 2 ^ esz.toNat
     let x := s.vval [] a.toNat
     let y := s.vval [a.toNat] b.toNat
     (VReady s [] none (vsrcRegs vb) (some vb) (some d.toNat) →
       VYields (.vmov d vb) s [] (vsrcRegs vb) d (s.vsrcVal [] vb) 0 false) ∧
     (VReady s [a] none [] none (some d.toNat) →
       LaneWise (.vmovs d a esz) s [a] [] d w (fun _ => (s.sval [] a).setWidth w) (fun _ => 0) false) ∧
     (VReady s [c] (some d) [a.toNat] none none → let i := (s.sval [] c).toNat
       exec (.vmovx d a c esz) s =
         .next ((s.vtake [c] [a.toNat] 0 false).writeD d (if i < 512 / w then (lane w x i).setWidth 64 else 0)).retire) ∧
     (VReady s [b, c] none [a.toNat] none (some d.toNat) →
       LaneWise (.vmovi d a b c esz) s [b, c] [a.toNat] d w
         (fun j => if (s.sval [b] c).toNat = j then (s.sval [] b).setWidth w else lane w x j) (fun _ => 0) false) ∧
     (VReady s [] none [a.toNat, b.toNat] (some (.reg b)) (some d.toNat) →
       LaneWise (.vmovp d a b esz) s [] [a.toNat, b.toNat] d w
         (fun j => if (lane w y j).toNat < 512 / w then lane w x (lane w y j).toNat else 0) (fun _ => 0) false) ∧
     (VReady s [c] none (vsrcRegs vb) (some vb) (some d.toNat) → let n := (s.sval [] c).toNat
       VYields (.vmovsr d vb c) s [c] (vsrcRegs vb) d (if n < 512 then s.vsrcVal [] vb >>> n else 0) 0 false))

/-- R235, R236, R194, R198: the conversions complete. VCVIF and VCVFI round lane by lane; VCVN shifts the 16 rounded codes of its format
into the top of vD above what vA held; VCVW widens 16 codes from the low bits exactly. Each lane draws its own random word under SR.
R237: the quantising functions complete with the codes of their sixteen rounded values funnelled into vD, and NV for a NaN block (0 × ∞
enters the rounding as a NaN, the model's reading: log 29, DEDUCED); the dequantising ones with the lanes s × (q − z), raising NV for a
signalling NaN scale and for an infinite scale where q = z, and nothing else (the sign of a zero lane is the model's choice: log 111, DESIGN
CHOICE). -/
def Obligations.ConversionResults : Prop :=
  (∀ (s : State) (d a r : Reg) (b : VSrc) (rm : BitVec 3) (f : BitVec 6) (g : Fmt),
     let y := s.vsrcVal [] b
     (VReady s [] none (vsrcRegs b) (some b) (some d.toNat) → ∀ m, s.me.mode rm true = some m →
       LaneWise (.vcvif d b rm) s [] (vsrcRegs b) d 32 (fun j => BitVec.ofNat 32 (round (fp (lane 32 y j)) int32 (s.choice m j)).code)
         (fun j => (round (fp (lane 32 y j)) int32 (s.choice m j)).flags) (decide (m = .sr)) ∧
       LaneWise (.vcvfi d b rm) s [] (vsrcRegs b) d 32 (fun j => (toFp32 (ofInt (lane 32 y j).toInt) (s.choice m j)).bits)
         (fun j => (toFp32 (ofInt (lane 32 y j).toInt) (s.choice m j)).flags) (decide (m = .sr))) ∧
     (VReady s [] none (a.toNat :: vsrcRegs b) (some b) (some d.toNat) → fmtOf f.toNat = some g → 1 ≤ f.toNat → f.toNat ≤ 13 →
       ∀ m, s.me.mode rm true = some m →
       let v := s.vsrcVal [a.toNat] b
       let w := fmtWidth f.toNat
       ∃ out fl, VYields (.vcvn d a b f rm) s [] (a.toNat :: vsrcRegs b) d out fl (decide (m = .sr)) ∧
         (∀ j, j < 16 → out.toNat / 2 ^ (512 - 16 * w + w * j) % 2 ^ w = (round (fp (lane 32 v j)) g (s.choice m j)).code % 2 ^ w) ∧
         out.toNat % 2 ^ (512 - 16 * w) = (s.vval [] a.toNat).toNat / 2 ^ (16 * w) ∧
         ∀ k : Nat, fl.getLsbD k = true ↔ ∃ j, j < 16 ∧ (round (fp (lane 32 v j)) g (s.choice m j)).flags.getLsbD k = true) ∧
     (VReady s [] none [r.toNat] (some (.reg r)) (some d.toNat) →
       let w := fmtWidth f.toNat
       let code := fun j => (s.vval [] r.toNat).toNat / 2 ^ (w * j) % 2 ^ w
       LaneWise (.vcvw d r f) s [] [r.toNat] d 32 (fun j => (toFp32 (elemVal f.toNat (code j) 0) (plainChoice .rne)).bits)
         (fun j => (toFp32 (elemVal f.toNat (code j) 0) (plainChoice .rne)).flags) false)) ∧
  (∀ (s : State) (d a c r : Reg) (b : VSrc) (rm : BitVec 3),
     let p := s.sval [] c
     let v := s.vsrcVal [a.toNat] b
     let quantises := fun (i : Instr) (code : Nat) (input : Val → Val) (nv : Bool) (m : RMode) =>
       let w := fmtWidth code
       ∃ g out fl, fmtOf code = some g ∧ VYields i s [c] (a.toNat :: vsrcRegs b) d out fl (decide (m = .sr)) ∧
         (∀ j, j < 16 → out.toNat / 2 ^ (512 - 16 * w + w * j) % 2 ^ w = (round (input (fp (lane 32 v j))) g (s.choice m j)).code % 2 ^ w) ∧
         out.toNat % 2 ^ (512 - 16 * w) = (s.vval [] a.toNat).toNat / 2 ^ (16 * w) ∧
         ∀ k : Nat, fl.getLsbD k = true ↔
           (∃ j, j < 16 ∧ (round (input (fp (lane 32 v j))) g (s.choice m j)).flags.getLsbD k = true) ∨ nv = true ∧ k = 0
     let dequantises := fun (i : Instr) (code : Nat) =>
       let w := fmtWidth code
       let q := fun j => (s.vval [] r.toNat).toNat / 2 ^ (w * j) % 2 ^ w
       LaneWise i s [c] [r.toNat] d 32 (fun j => (toFp32 (elemVal code (q j) p.toNat) (plainChoice .rne)).bits)
         (fun j => if (quantScale p.toNat).isSnan || (quantScale p.toNat).isInf && q j == zeroPoint code p.toNat then flagNV else 0) false
     (VReady s [c] none (a.toNat :: vsrcRegs b) (some b) (some d.toNat) → ∀ m, s.me.mode rm true = some m →
       quantises (.vqpq8 d a b c rm) 11 (fun x => quantInput x (fp (p.setWidth 32)) (p.toNat / 2 ^ 32 % 2 ^ 8)) false m ∧
       quantises (.vqpq4 d a b c rm) 13 (fun x => quantInput x (fp (p.setWidth 32)) (p.toNat / 2 ^ 32 % 2 ^ 4)) false m ∧
       quantises (.vqpf8ab d a b c rm) 3 (fun x => blockInput x p) (decide (p.toNat % 256 = 255)) m ∧
       quantises (.vqpf4ab d a b c rm) 7 (fun x => blockInput x p) (decide (p.toNat % 256 = 255)) m) ∧
     (VReady s [c] none [r.toNat] none (some d.toNat) → dequantises (.vqpdq8 d r c) 14 ∧ dequantises (.vqpdq4 d r c) 17))

/-- R133, R130, R129, R82, R91, R332: the checks of LD64 and ST64. What stops their operands comes first: a stream port whose use is wrong, a
wait, a poisoned element (the model's choice: log 81, DESIGN CHOICE). Then, in the order of a scalar access: alignment to 64 bytes (cause
4, or 6), a hole (5, or 7), the control page but the inboxes for a load and MCMD by the C-core for a store (5, or 7), a remote scratchpad
whose window refuses (27), a failed translation (13, or 15), a leaf without the right (5, or 7), and memory that is switched off likewise
(the model's choice: log 79, DESIGN CHOICE); a page whose translation is not cached starts a walk and nothing else. Then LD64 waits at an
owned page until it may be performed, traps with cause 25 at one that another has written, and with cause 29 where it would consume poison
(of any quarter of the sector that its own store buffer does not fill: the model's reading, log 18, DEDUCED); ST64 traps with cause 26 at a
page that its core does not hold.
R133, R321, R100: LD64 and ST64 complete. LD64 retires with its vector register waiting for the 64 bytes, or hands them over as it
retires where the register is a stream port or the page is owned; ST64 puts the 64 bytes of its source into the store buffer as four
entries of 16 bytes, each of which clears the poison of its quarter as it drains (the model's reading: log 18, DEDUCED), so that every byte
of memory reads as before. A control-page load reads
the page as it retires (the model's reading: log 10, DEDUCED), and a stream port hands its element over at one moment (log 62,
DEDUCED). -/
def Obligations.VectorLoadsAndStores : Prop :=
  (∀ (s : State) (d a : Reg) (ord : BitVec 2) (scope : BitVec 3) (imm : BitVec 25) (i : Instr) (kind : AccKind) (vs : List Nat) (vd : Option Nat),
     s.cur.core.role ≠ .s →
     (i = .ld64 d a ord scope imm ∧ kind = .load ∧ vs = [] ∧ vd = some d.toNat ∨
       i = .st64 d a ord scope imm ∧ kind = .store ∧ vs = [d.toNat] ∧ vd = none) →
     let ea := ((s.sval [] a + imm.signExtend 64).setWidth 48).toNat
     let traps := fun cause : Nat => exec i s = trap s cause (BitVec.ofNat 64 ea)
     let refused := if kind = .load then 5 else 7
     let off := ea - 0x100000
     let leaf := fun (e : Word) (l : Nat) => s.transFor s.cur.core s.myCtxId ea = .leaf e l
     (∀ o, s.vblocked [a] none vs none vd = some o → exec i s = o) ∧
     (VReady s [a] none vs none vd →
       (ea % 64 ≠ 0 → traps (if kind = .load then 4 else 6)) ∧
       (ea % 64 = 0 →
         (0x60000 ≤ ea ∧ ea < 0x100000 ∨ 0x110000 ≤ ea ∧ ea < 0x100000000 ∨ 0x140000000 ≤ ea ∧ ea < 0x1000000000 → traps refused) ∧
         (0x100000 ≤ ea ∧ ea < 0x110000 →
           (kind = .load → ¬ (0x4000 ≤ off ∧ off < 0x8000) → traps 5) ∧
           (kind = .store → ¬ (off = 0 ∧ s.cur.core.role = .c) → traps 7)) ∧
         (0x100000000 ≤ ea ∧ ea < 0x140000000 →
           s.granted ((ea - 0x100000000) / 0x100000) s.myCtxId ((ea - 0x100000000) % 0x100000) 64 kind true = false → traps 27) ∧
         (0x1000000000 ≤ ea →
           (s.transFor s.cur.core s.myCtxId ea = .miss → exec i s = .next (s.requestWalk s.cur.core s.myCtxId ea)) ∧
           (s.transFor s.cur.core s.myCtxId ea = .fail → traps (if kind = .load then 13 else 15)) ∧
           (∀ e l, leaf e l → (leafGrants e kind = false ∨ s.keyOut (leafKey e l ea) = true → traps refused) ∧
             (leafGrants e kind = true → s.keyOut (leafKey e l ea) = false →
               let record := s.ownOf (leafPage e)
               let other := pteO e = true ∧ record.holder ≠ some (s.myCtxId, s.coreId s.cur.core)
               let early := pteO e = true ∧ s.mayRead (sectorOf (leafKey e l ea)) = false
               (kind = .store → other → traps 26) ∧
               (kind = .load → early → exec i s = .next s) ∧
               (kind = .load → ¬ early → other → record.written = true → traps 25) ∧
               (kind = .load → ¬ early → ¬ (other ∧ record.written = true) → s.poisonHere (leafKey e l ea) = true → traps 29)))) ∧
         (kind = .load → ea < 0x60000 → s.poisonHere (cellKey s.myCell ea) = true → traps 29)))) ∧
  (∀ (s : State) (d a : Reg) (ord : BitVec 2) (scope : BitVec 3) (imm : BitVec 25) (p : Place),
     let ea := ((s.sval [] a + imm.signExtend 64).setWidth 48).toNat
     (VReady s [a] none [] none (some d.toNat) →
       (ea % 64 ≠ 0 → exec (.ld64 d a ord scope imm) s = trap s 4 (BitVec.ofNat 64 ea)) ∧
       (∀ off, s.place .load ea 64 (fun off => controlLoadOk off 64) = .ok (.control off) → s.me.controlPending off = false →
         s.mayRead (controlSector off) = true →
         exec (.ld64 d a ord scope imm) s =
           .next (((s.popAll [a]).writeV d.toNat (BitVec.ofNat 512 (s.myCtx.controlRead off 64))).retire)) ∧
       (s.place .load ea 64 (fun off => controlLoadOk off 64) = .ok p → (∀ off, p ≠ .control off) → s.loadRace p = false →
         s.poisonHere p.key = false →
         (p.owned = none ∧ s.isPort d.toNat = false →
           let l : OutLoad := { id := s.fresh, addr := p.key, size := 64, signed := false, dst := some (.v d.toNat)
                                ea := BitVec.ofNat 48 ea, acquire := decide (ord = 1#2) }
           ∃ t, exec (.ld64 d a ord scope imm) s = .next t ∧
             RetiresFrom s.bump
               { s.me with loads := s.me.loads ++ [l], pending := s.me.pending ++ [{ reg := .v d.toNat, source := .load }] }
               t [a] none false 0 false) ∧
         (p.owned ≠ none ∨ s.isPort d.toNat = true → s.mayRead (sectorOf p.key) = true →
           exec (.ld64 d a ord scope imm) s = .next
             ((((s.noteRead s.cur.core s.fresh (span p.key 64)).bump.popAll [a]).writeV d.toNat
               (BitVec.ofNat 512 (bytesToNat (s.loadBytes s.cur.core s.fresh (span p.key 64))))).retire)))) ∧
     (VReady s [a] none [d.toNat] none none →
       let permitted := fun off => decide (off = 0) && decide (s.cur.core.role = .c)
       let release := if 2 ≤ ord.toNat then some scope.toNat else none
       let v := s.vval [] d.toNat
       (ea % 64 ≠ 0 → exec (.st64 d a ord scope imm) s = trap s 6 (BitVec.ofNat 64 ea)) ∧
       (s.place .store ea 64 permitted = .ok p → (∀ off, p ≠ .control off) →
         (s.storeRace p = true → exec (.st64 d a ord scope imm) s = trap s 26 (BitVec.ofNat 64 ea)) ∧
         (s.storeRace p = false →
           ∃ t, exec (.st64 d a ord scope imm) s = .next t ∧ t.mem = s.mem ∧ t.writes = s.writes ∧ t.poison = s.poison ∧
             t.me.stores.take s.me.stores.length = s.me.stores ∧
             ((t.me.stores.drop s.me.stores.length).map fun e => (e.target, e.sector, e.release, e.owned, e.quad)) =
               [0, 1, 2, 3].map (fun i => (StoreTarget.mem (cellsFrom (p.key + 16 * i) (natToBytes 16 (v.toNat / 2 ^ (128 * i) % 2 ^ 128))),
                 sectorOf p.key, release, p.owned, true)) ∧
             (∀ n, t.me.xr n = s.me.xr n) ∧ (∀ n, t.me.vr n = s.me.vr n) ∧ t.me.fcsr = s.me.fcsr ∧
             t.me.retired = s.me.retired + 1 ∧ t.me.c0 = s.me.c1 ∧ (∀ q, ¬ sameCore s.cur.core q → t.coreOf q = s.coreOf q)))))

/-- R212, R209, R210, R213, R219: a matrix command that the C-core stores to MCMD. It waits while sixteen are queued, and in a deterministic
group while a boundary has still to apply what the core did before it (the model's reading: log 96, DEDUCED); reserved bits
trap with cause 24, a command against R209 and R210 with cause 41, a product that names a slot not held with cause 31. Else it joins the
end of the queue under the next number, which MENQ then holds, and becomes LASTW of the tile it writes. Of several reasons of cause 41 the
lowest is given (the model's reading: log 30, DEDUCED), and PSEM without PEN gives reason 5 (the model's choice: log 80, DESIGN
CHOICE). -/
def Obligations.MatrixCommandsEnqueue : Prop :=
  ∀ (s : State) (d a : Reg) (ord : BitVec 2) (scope : BitVec 3) (imm : BitVec 25) (off : Nat), VReady s [a] none [d.toNat] none none →
    let permitted := fun off => decide (off = 0) && decide (s.cur.core.role = .c)
    s.place .store (effAddr (s.sval [] a) imm) 64 permitted = .ok (.control off) →
    let i : Instr := .st64 d a ord scope imm
    let w := s.vval [] d.toNat
    let m := s.myCtx.matrix
    let product := cmdKind w = 1 ∨ cmdKind w = 2
    let held := s.inGroup = true ∧ s.me.collected ≠ []
    (16 ≤ m.queue.length → exec i s = .next s) ∧
    (m.queue.length < 16 → held → exec i s = .next (s.updMe fun k => { k with member := { k.member with behind := true } })) ∧
    (m.queue.length < 16 → ¬ held → (2 ≤ ord.toNat → s.allSettled scope.toNat = true) →
      (w.toNat / 2 ^ 61 % 8 ≠ 0 ∨ w.toNat / 2 ^ 112 ≠ 0 → exec i s = trap s 24 (w.setWidth 64)) ∧
      (w.toNat / 2 ^ 61 % 8 = 0 → w.toNat / 2 ^ 112 = 0 →
        (cmdReason w ≠ 0 → exec i s = trap s 41 (BitVec.ofNat 64 (cmdReason w + 2 ^ 16 * cmdTag w))) ∧
        (cmdReason w = 0 →
          (product → s.myCtx.held.getLsbD (cmdSlotA w) = false → exec i s = trap s 31 (BitVec.ofNat 64 (cmdSlotA w))) ∧
          (product → s.myCtx.held.getLsbD (cmdSlotA w) = true → s.myCtx.held.getLsbD (cmdSlotB w) = false →
            exec i s = trap s 31 (BitVec.ofNat 64 (cmdSlotB w))) ∧
          ((product → s.myCtx.held.getLsbD (cmdSlotA w) = true ∧ s.myCtx.held.getLsbD (cmdSlotB w) = true) →
            ∃ t c, exec i s = .next t ∧ t.myCtx.matrix.queue = m.queue ++ [c] ∧ c.word = w ∧ c.number = m.enq + 1 ∧
              t.myCtx.matrix.enq = m.enq + 1 ∧ t.myCtx.matrix.done = m.done ∧
              (∀ tile, tget t.myCtx.matrix.lastw 0 tile = if cmdKind w ≠ 4 ∧ tile = cmdTile w then m.enq + 1 else tget m.lastw 0 tile) ∧
              t.mem = s.mem ∧ t.writes = s.writes ∧ t.me.retired = s.me.retired + 1 ∧ t.me.stores = s.me.stores ∧
              (∀ n, t.me.xr n = s.me.xr n)))))

/-- R213, R214, R215: the head command executes once it has passed its gate and what its core did before it is visible in the cell. MAC
and MUL compute every element of the tile from the rows of the slots, MAC upon the tile's own elements and MUL from zero; FILL gives every
element the fill value; MARK computes nothing. A poisoned operand gives no result but the poison. A command may read elements of its slots
and its tile before the others: it computes with each as it read it.
R214, R218, R200: the element that an integer product adds to is its exact sum of products modulo 2^32, without flags, and the term
of a quantised group is Σ (a − za)(b − zb). -/
def Obligations.MatrixCommandsExecute : Prop :=
  (∀ (s : State) (c : MatrixCmd) (rest : List MatrixCmd), let cell := s.args.cell
     let m := (s.ctxOf cell).matrix
     let w := c.word
     m.queue = c :: rest → m.passed = true → m.result = none → m.stopped = false → s.settled ⟨cell, .c⟩ c.after 0 = true →
     let instr := fun i : Instr => cmdKind w = 1 ∧ i = .mac ∨ cmdKind w = 2 ∧ i = .matrixMul
     (∀ i, instr i → s.args.flag = true → m.early = [] →
       ∃ t early, exec i s = .next t ∧ t = s.updMatrix cell (fun m => { m with early := early }) ∧
         ∀ a, tfind early a =
           if (∃ k ∈ s.args.cells, k / 4 = a / 4) ∧ s.poisonedFor (.cell cell) (sectorOf a) = false then some (s.byteFor (.cell cell) a) else none) ∧
     (s.args.flag = false →
     let gives := fun (i : Instr) (r : MatrixResult) => exec i s = .next (s.updMatrix cell fun m => { m with result := some r, early := [] })
     let clean := fun accumulate : Bool => s.slotPoisoned cell (cmdSlotA w) (cmdFmtA w) (cmdK w) = false ∧
       s.slotPoisoned cell (cmdSlotB w) (cmdFmtB w) (cmdK w) = false ∧
       (accumulate = true → ∀ k ∈ tileSectors cell (cmdTile w), s.engineBad cell (span (tileKey cell (cmdTile w)) 1024) k = false)
     let lane := fun (accumulate : Bool) (n : Nat) => productElem (cmdFmtA w) (cmdFmtB w) (cmdK w)
       (s.rowNat cell (cmdSlotA w) (n / 16)) (s.rowNat cell (cmdSlotB w) (n % 16))
       (if accumulate then BitVec.ofNat 32 (s.engineNat cell (tileKey cell (cmdTile w) + 4 * n) 4) else 0)
     let computes := fun (i : Instr) (accumulate : Bool) =>
       (clean accumulate → ∃ r, gives i r ∧ r.writes = true ∧ r.poisoned = false ∧ r.tile.length = 256 ∧
         (∀ n, n < 256 → r.tile[n]? = some (lane accumulate n).bits) ∧
         ∀ k : Nat, r.flags.getLsbD k = true ↔ ∃ n, n < 256 ∧ (lane accumulate n).flags.getLsbD k = true) ∧
       (¬ clean accumulate → gives i { tile := [], flags := 0, writes := false, poisoned := true })
     (cmdKind w = 1 → computes .mac true) ∧ (cmdKind w = 2 → computes .matrixMul false) ∧
     (cmdKind w = 3 → gives .fill { tile := List.replicate 256 (w.extractLsb' 80 32), flags := 0, writes := true, poisoned := false }) ∧
     (cmdKind w = 4 → gives .mark { tile := [], flags := 0, writes := false, poisoned := false }) ∧
     ∀ a, s.engineByte cell a = (tfind m.early a).getD (s.byteFor (.cell cell) a))) ∧
  ((∀ (fa fb k rowA rowB : Nat) (acc : BitVec 32) (x y : Fmt), fa ∈ [10, 11, 12, 13] → fb ∈ [10, 11, 12, 13] →
     fmtOf fa = some x → fmtOf fb = some y →
     let a := fun j => (decodeFmt x (rowA / 2 ^ (fmtWidth fa * j) % 2 ^ fmtWidth fa)).units 0
     let b := fun j => (decodeFmt y (rowB / 2 ^ (fmtWidth fb * j) % 2 ^ fmtWidth fb)).units 0
     productElem fa fb k rowA rowB acc = { bits := BitVec.ofInt 32 (acc.toNat + ((List.range k).map fun j => a j * b j).sum), flags := 0 }) ∧
   (∀ (as bs : List Nat) (za zb : Nat), as.length = bs.length →
     groupTerm as bs za zb = (List.zipWith (fun (a b : Nat) => ((a : Int) - za) * ((b : Int) - zb)) as bs).sum))

/-- R213 steps 1 and 3, R148, R195, R219, R220: MATRIX_GATE lets the head command pass, taking its semaphore's amount where it has one and
is first in line, and else joins the line, where a post gives it the amount; it passes once what the posting cores did before their posts is
visible (the model's reading: log 60, DEDUCED). MATRIX_COMPLETE writes the tile, which clears its poison, merges the flags into the C-core's FCSR,
sets MDONE to the command's number and posts its semaphore; a command that met poison poisons its tile as its cell sees it, stops the
sequencer and gives its core a deferred event of cause 29. R226, R215: single elements may become visible before the command completes, and
keep then what another has written to them since.
R207, R221: a store to MCTL that leaves the store buffer. While the sequencer is not stopped it does nothing; FLUSH discards every
queued command and sets MDONE to MENQ; RESUME clears STOPPED and FCAUSE, and the head command is taken again from its gate. -/
def Obligations.MatrixCommandsFinish : Prop :=
  (∀ (s : State) (c : MatrixCmd) (rest : List MatrixCmd), let cell := s.args.cell
     let x := s.ctxOf cell
     let m := x.matrix
     let w := c.word
     let gated := cmdGen w = true ∧ cmdGcnt w ≠ 0
     m.queue = c :: rest →
     (m.stopped = false → m.passed = false →
       (¬ gated → exec .matrixGate s = .next (s.updMatrix cell fun m => { m with passed := true, gated := false })) ∧
       (gated → x.coreC.member.active = false →
         let grant := x.grantOf (cmdGsem w) (cmdGcnt w) .sequencer
         let passes := fun f : CellCtx → CellCtx =>
           exec .matrixGate s = .next ((s.updCtx cell f).updMatrix cell fun m => { m with passed := true, gated := false })
         let waits := fun f : CellCtx → CellCtx =>
           exec .matrixGate s = .next ((s.updCtx cell f).updMatrix cell fun m => { m with gated := true })
         (grant = none →
           (x.mayTake (cmdGsem w) (cmdGcnt w) .sequencer = true → s.postsReady cell (cmdGsem w) = true →
             passes (·.takeSem (cmdGsem w) (cmdGcnt w) .sequencer)) ∧
           (x.mayTake (cmdGsem w) (cmdGcnt w) .sequencer = true → s.postsReady cell (cmdGsem w) = false →
             waits (·.giveSem (cmdGsem w) (cmdGcnt w) .sequencer)) ∧
           (x.mayTake (cmdGsem w) (cmdGcnt w) .sequencer = false → waits (·.joinSem (cmdGsem w) .sequencer (cmdGcnt w)))) ∧
         (∀ g, grant = some g → (s.seenPosts cell g.posts = true → passes (·.dropGrant .sequencer)) ∧
           (s.seenPosts cell g.posts = false → exec .matrixGate s = .next s)))) ∧
     (∀ r lane e, m.result = some r → s.args.flag = true → s.args.index = lane → r.writes = true → r.poisoned = false →
       r.tile[lane]? = some e → lane ∉ r.shown → MemoryOk s →
       ∃ t, exec .matrixComplete s = .next t ∧
         (∃ u : State, t = u.updMatrix cell (fun m => { m with result := some { r with shown := r.shown ++ [lane] } }) ∧
           { u with mem := s.mem, writes := s.writes, fresh := s.fresh } = s) ∧
         e = BitVec.ofNat 32 (t.natLast (tileKey cell (cmdTile w) + 4 * lane) 4) ∧
         ∀ y, ¬ (tileKey cell (cmdTile w) + 4 * lane ≤ y ∧ y < tileKey cell (cmdTile w) + 4 * lane + 4) → t.byteLast y = s.byteLast y) ∧
     (∀ r, m.result = some r → s.args.flag = false →
       (r.poisoned = true → MemoryOk s →
         ∃ t, exec .matrixComplete s = .next t ∧
           (∀ k ∈ tileSectors cell (cmdTile w), t.poisonedFor (.cell cell) k = true ∧ t.poisonedLast k = true) ∧
           (∀ v q, v ≠ .cell cell ∨ q / 4 ∉ tileSectors cell (cmdTile w) → t.quarterBad v q = s.quarterBad v q) ∧
           (t.ctxOf cell).matrix = { m with queue := rest, done := c.number, passed := false, gated := false, result := none
                                            stopped := true, fcause := 29 } ∧
           (t.coreOf ⟨cell, .c⟩).events = (s.coreOf ⟨cell, .c⟩).events ++
             [{ cause := 29, tval := BitVec.ofNat 64 (2 ^ 32 + cmdTile w * 2 ^ 16 + cmdTag w) }] ∧
           t.mem = s.mem ∧ (∀ v y, t.byteFor v y = s.byteFor v y)) ∧
       (r.poisoned = false →
         ∃ t, exec .matrixComplete s = .next (if cmdPen w then t.lagPost cell .c c.quantum (cmdPsem w) else t) ∧
           (t.ctxOf cell).matrix = { m with queue := rest, done := c.number, passed := false, gated := false, result := none } ∧
           (t.coreOf ⟨cell, .c⟩).fcsr = (s.coreOf ⟨cell, .c⟩).fcsr ||| (r.flags.setWidth 64 <<< 8) ∧
           (r.writes = false → t.mem = s.mem ∧ t.writes = s.writes) ∧
           (r.writes = true → r.tile.length = 256 → MemoryOk s →
             (∀ k ∈ tileSectors cell (cmdTile w), t.poisonedLast k = false) ∧
             (∀ n, n < 256 → n ∉ r.shown → r.tile[n]? = some (BitVec.ofNat 32 (t.natLast (tileKey cell (cmdTile w) + 4 * n) 4))) ∧
             (∀ y, ¬ (tileKey cell (cmdTile w) ≤ y ∧ y < tileKey cell (cmdTile w) + 1024) ∨ (y - tileKey cell (cmdTile w)) / 4 ∈ r.shown →
               t.byteLast y = s.byteLast y))))) ∧
  (∀ (s : State) (v : Word), let p := s.args.core
     p.role ≠ .s → s.controlEntry p s.args.index = some (0x58, v) →
     let m := (s.ctxOf p.cell).matrix
     let after := fun (i : Instr) (m' : Matrix) => ∃ t, exec i s = .next t ∧ (t.ctxOf p.cell).matrix = m' ∧
       (t.coreOf p).stores = (s.coreOf p).stores.eraseIdx s.args.index ∧ t.mem = s.mem ∧ t.writes = s.writes ∧
       (∀ n, (t.ctxOf p.cell).sem n = (s.ctxOf p.cell).sem n)
     let flushed : Matrix := { m with queue := [], done := m.enq, gated := false, passed := false, early := [], result := none }
     (v.getLsbD 1 = true → v.getLsbD 0 = false → after .flush (if m.stopped then flushed else m)) ∧
     (v.getLsbD 1 = true → v.getLsbD 0 = true → after .flush (if m.stopped then { flushed with stopped := false, fcause := 0 } else m)) ∧
     (v.getLsbD 1 = false → v.getLsbD 0 = true →
       after .resume (if m.stopped then { m with stopped := false, fcause := 0, gated := false, passed := false } else m)))

/-- R128, R366, R367, R368, R120, R127, R340: taking a trap outside trap mode on a core of a context, for a cause other than 28 and 29, and
for any cause on a supervisor core. The chain is saved in TEPC, TEPC1, TEPC2 and TEPCN, or zeros outside a firing; TCAUSE and TVAL take the
cause and the value; TSTAT says trap mode, a synchronous trap, the open region and the firing; the core starts at TRAPVEC, a supervisor core
at an address that the spec does not give (log 5, DESIGN CHOICE), with nothing resolved and nothing annulled; it leaves the line of every
semaphore and every slot and waits for no page walk; its registers, the head's count of retired instructions, the operations it has collected,
memory and every other core stay.
R368, R377: a trap in trap mode is fatal: the core stops with its chain and registers as they were, and the context's removal is
declared with a KIND 3 record that names the cause, the value, the core and the pc; an earlier declaration stands. A supervisor core
belongs to no context: there the machine stops (log 5, DESIGN CHOICE).
R378, R379: causes 28 and 29 outside trap mode. In an open region the core unwinds: x1, x2 and x3 take the cause, the value and the
pc, the region closes, and the core starts at the region's handler; every other register stays and TSTAT and the trap registers are not
written. Outside a region the fault is fatal. -/
def Obligations.TakingATrap : Prop :=
  (∀ (s : State) (cause : Nat) (tval : Word), s.me.trapMode = false → (s.cur.core.role ≠ .s → cause ≠ 28 ∧ cause ≠ 29) →
     let k := s.me
     let on := k.running = true
     let bit := fun (b : Bool) (n : Nat) => if b then 2 ^ n else 0
     ∃ t, trap s cause tval = .next t ∧
       { t with cells := s.cells, supervisors := s.supervisors, failedWalks := s.failedWalks, misses := s.misses } = s ∧
       t.failedWalks = s.failedWalks.filter (fun f => decide (f.1 ≠ s.cur.core)) ∧ (∀ m ∈ t.misses, s.cur.core ∉ m.waiters) ∧
       t.me.tcause = BitVec.ofNat 64 cause ∧ t.me.tval = tval ∧
       (on → t.me.tepc = k.c0.setWidth 64 ∧ t.me.tepc1 = k.c1.setWidth 64 ∧ t.me.tepc2 = k.c2.setWidth 64 ∧
         t.me.tepcn = BitVec.ofNat 64 (bit k.n0 0 + bit k.n1 1 + bit k.n2 2 + bit k.s1 3 + bit k.s2 4)) ∧
       (¬ on → t.me.tepc = 0 ∧ t.me.tepc1 = 0 ∧ t.me.tepc2 = 0 ∧ t.me.tepcn = 0) ∧
       t.me.tstat = BitVec.ofNat 64 (1 + bit (k.cregh.getLsbD 0) 2 + bit k.running 3) ∧
       t.me.c0 = s.myVec ∧ (s.cur.core.role ≠ .s → t.me.c0 = s.trapVec s.myCtxId) ∧ t.me.c1 = 0 ∧ t.me.c2 = 0 ∧ t.me.s1 = true ∧ t.me.s2 = true ∧
       t.me.n0 = false ∧ t.me.n1 = false ∧ t.me.n2 = false ∧
       (∀ n, .core s.cur.core.role ∉ t.myCtx.semLine n) ∧ (∀ n, s.cur.core.role ∉ tget t.myCtx.slotLines [] n) ∧
       { t.me with tcause := k.tcause, tval := k.tval, tepc := k.tepc, tepc1 := k.tepc1, tepc2 := k.tepc2, tepcn := k.tepcn, tstat := k.tstat
                   c0 := k.c0, c1 := k.c1, c2 := k.c2, s1 := k.s1, s2 := k.s2, n0 := k.n0, n1 := k.n1, n2 := k.n2
                   fragMark := k.fragMark } = k ∧
       (∀ q, ¬ sameCore s.cur.core q → t.coreOf q = s.coreOf q)) ∧
  (∀ (s : State) (cause : Nat) (tval : Word), s.me.trapMode = true →
     (s.cur.core.role = .s → trap s cause tval = .fault (.supervisorTrap cause)) ∧
     (s.cur.core.role ≠ .s →
     ∃ t, trap s cause tval = .next t ∧ t.me = { s.me with halted := true } ∧
       (∀ q, ¬ sameCore s.cur.core q → t.coreOf q = s.coreOf q) ∧ t.mem = s.mem ∧ t.writes = s.writes ∧
       t.contexts = s.contexts.map fun c =>
         if c.ctxid = s.myCtxId then
           { c with dying := some (c.dying.getD (faultRecord 3 s.chip (BitVec.ofNat 64 cause) tval
               (fatalDetail s.myCell (roleCode s.cur.core.role) 0 (s.me.c0.setWidth 64)))) }
         else c)) ∧
  (∀ (s : State) (cause : Nat) (tval : Word), s.cur.core.role ≠ .s → s.me.trapMode = false → cause = 28 ∨ cause = 29 →
     let k := s.me
     let pc : Word := if k.running then k.c0.setWidth 64 else 0
     (k.cregh.getLsbD 0 = true →
       ∃ t, trap s cause tval = .next t ∧
         (∀ n, t.me.xr n = if n = 1 then BitVec.ofNat 64 cause else if n = 2 then tval else if n = 3 then pc else k.xr n) ∧
         (∀ n, t.me.vr n = k.vr n) ∧ t.me.cregh = k.cregh &&& 0xFFFFFFFFFFFFFFFE#64 ∧
         t.me.c0 = (k.cregh &&& 0xFFFFFFFFFFFC#64).setWidth 48 ∧ t.me.c1 = 0 ∧ t.me.c2 = 0 ∧ t.me.s1 = true ∧ t.me.s2 = true ∧
         t.me.n0 = false ∧ t.me.n1 = false ∧ t.me.n2 = false ∧
         t.me.tstat = k.tstat ∧ t.me.tcause = k.tcause ∧ t.me.tval = k.tval ∧ t.me.tepc = k.tepc ∧ t.me.retired = k.retired ∧
         t.me.fold = none ∧ t.mem = s.mem ∧ t.writes = s.writes ∧ (∀ q, ¬ sameCore s.cur.core q → t.coreOf q = s.coreOf q)) ∧
     (k.cregh.getLsbD 0 = false →
       trap s cause tval = .next ((s.dropFailed s.cur.core).fatalHere (BitVec.ofNat 64 cause) tval 0 pc)))

/-- R371, R128, R367, R30: ERET in trap mode, on a core whose pending-load record is empty, retires and leaves trap mode. With FIRING set the
chain comes back from TEPC, TEPC1, TEPC2 and TEPCN, else the core returns to selection with no chain. Outside trap mode it traps with cause
2. What a boundary gave a register while the handler of a pre-emption ran enters it now, the last value where there are several (the model's
reading of R342: log 97, DEDUCED). -/
def Obligations.ReturnFromTrap : Prop :=
  ∀ s : State, let k := s.me
    (k.trapMode = false → exec .eret s = trap s 2 (s.cur.word.setWidth 64)) ∧
    (k.trapMode = true → (s.cur.core.role = .a → (s.niOf s.myCtxId s.myCell).late = []) →
      ∃ t, exec .eret s = .next t ∧ t.me.tstat = k.tstat &&& 0xFFFFFFFFFFFFFFFE#64 ∧ t.me.trapMode = false ∧
        t.me.retired = k.retired + 1 ∧ t.me.running = k.tstat.getLsbD 3 ∧
        t.me.saving = (if s.cur.core.role = .a then false else k.saving) ∧ t.me.handling = false ∧ t.me.lateD = [] ∧
        (∀ before n v after, k.lateD = before ++ (n, v) :: after → n ≠ 0 → (∀ e ∈ after, e.1 ≠ n) → t.me.xr n = v) ∧
        (∀ n, (∀ e ∈ k.lateD, e.1 ≠ n) → t.me.xr n = k.xr n) ∧
        { t.me with tstat := k.tstat, c0 := k.c0, c1 := k.c1, c2 := k.c2, n0 := k.n0, n1 := k.n1, n2 := k.n2, s1 := k.s1, s2 := k.s2
                    retired := k.retired, fragMark := k.fragMark, running := k.running, saving := k.saving, handling := k.handling
                    lateD := k.lateD, x := k.x } = k ∧
        (k.tstat.getLsbD 3 = true →
          t.me.c0 = k.tepc.setWidth 48 ∧ t.me.c1 = k.tepc1.setWidth 48 ∧ t.me.c2 = k.tepc2.setWidth 48 ∧
          t.me.n0 = k.tepcn.getLsbD 0 ∧ t.me.n1 = k.tepcn.getLsbD 1 ∧ t.me.n2 = k.tepcn.getLsbD 2 ∧
          t.me.s1 = k.tepcn.getLsbD 3 ∧ t.me.s2 = k.tepcn.getLsbD 4) ∧
        (k.tstat.getLsbD 3 = false → t.me.c0 = 0 ∧ t.me.c1 = 0 ∧ t.me.c2 = 0 ∧ t.me.s1 = false ∧ t.me.s2 = false) ∧
        t.mem = s.mem ∧ t.writes = s.writes ∧ t.contexts = s.contexts ∧ (∀ q, ¬ sameCore s.cur.core q → t.coreOf q = s.coreOf q))

/-- R371, R373, R377: the system instructions. SYSCALL retires and then takes a trap of cause 8 with its code, SYSBRK takes one of cause 3
without retiring; both are illegal in trap mode. SYSFLUSH, SYSABORT and SYSPARK are illegal outside it: SYSFLUSH drops the cached
translations of the core's own context, SYSABORT stops the core and declares a fatal fault with its code, SYSPARK parks the core in the
pre-emption handler only. On a supervisor core SYSFLUSH drops those of any context, and the others are illegal. SYSFLUSH also drops the
answers of failed walks. That it is illegal before its operand is ready is the model's reading (log 61, DEDUCED), and so is the code, which is
taken from the fetched word (log 22, DESIGN CHOICE).
R378, R381: CREG opens a region with its handler; CEND closes it once no remote load and, outside trap mode, no deferred event is
pending, and else waits; SIGEN sets or clears the checker, and clearing abandons the fold; SIGRD reads EN, whether a block is open, and its
start. Setting EN inside a block takes effect at the next block entry (the model's reading: log 71, DEDUCED). -/
def Obligations.SystemInstructions : Prop :=
  (∀ (s : State) (a : Reg),
     let bad := trap s 2 (s.cur.word.setWidth 64)
     let code : Word := (sysCode s).setWidth 64
     let flushes := fun ctx : Nat => ∃ t, exec (.sysflush a) s = .next t ∧ Retires { s with tlb := t.tlb, failedWalks := t.failedWalks } t [a] none false 0 false ∧
       (∀ f, f ∈ t.failedWalks ↔ f ∈ s.failedWalks ∧ f.2.1 ≠ ctx) ∧ ∀ e, e ∈ t.tlb ↔ e ∈ s.tlb ∧ e.ctx ≠ ctx
     (s.cur.core.role = .s → exec .syscall s = bad ∧ exec .sysbrk s = bad ∧ exec .sysabort s = bad ∧ exec .syspark s = bad ∧
       (Ready s [a] none → flushes ((s.sval [] a).toNat % 2 ^ 16))) ∧
     (s.cur.core.role ≠ .s →
     (s.me.trapMode = true → exec .syscall s = bad ∧ exec .sysbrk s = bad) ∧
     (s.me.trapMode = false →
       exec .syscall s = .next ((s.retire.dropFailed s.cur.core).enterTrap 8 code false) ∧
       exec .sysbrk s = .next ((s.dropFailed s.cur.core).enterTrap 3 code false) ∧
       exec .sysabort s = bad ∧ exec .syspark s = bad ∧ (badQueue s.cur.core.role [a] none = none → exec (.sysflush a) s = bad)) ∧
     (s.me.trapMode = true →
       exec .sysabort s = .next (s.fatalHere 0 0 (sysCode s).toNat (s.me.c0.setWidth 64)) ∧
       (s.me.tcause ≠ 0x8000000000000003#64 → exec .syspark s = bad) ∧
       (s.me.tcause = 0x8000000000000003#64 →
         ∃ t, exec .syspark s = .next t ∧ t.me.parked = true ∧ Retires s (t.updMe fun k => { k with parked := s.me.parked }) [] none false 0 false) ∧
       (Ready s [a] none →
         ((s.sval [] a).toNat % 2 ^ 16 ≠ s.myCtxId → exec (.sysflush a) s = bad) ∧
         ((s.sval [] a).toNat % 2 ^ 16 = s.myCtxId → flushes s.myCtxId))))) ∧
  (∀ (s : State) (d a : Reg) (imm : BitVec 25), let k := s.me
     let target := BitVec.ofInt 48 (k.c0.toNat + imm.toInt * 4)
     (∃ t, exec (.creg imm) s = .next t ∧ CoreAndQueues s t ∧ (∀ q, t.queue q = s.queue q) ∧
       t.me = { k.retire s.cur.word false 0 false with cregh := ((target.setWidth 64) &&& 0xFFFFFFFFFFFC#64) ||| 1#64 }) ∧
     (s.loadsPending = true ∨ k.trapMode = false ∧ k.events ≠ [] → exec .cend s = .next s) ∧
     (s.loadsPending = false → (k.trapMode = true ∨ k.events = []) →
       ∃ t, exec .cend s = .next t ∧ CoreAndQueues s t ∧ (∀ q, t.queue q = s.queue q) ∧
         t.me = { k.retire s.cur.word false 0 false with cregh := k.cregh &&& 0xFFFFFFFFFFFFFFFE#64 }) ∧
     (Ready s [a] none →
       ((s.sval [] a).getLsbD 0 = true → ∃ t, exec (.sigen a) s = .next t ∧ t.me.sigEn = true ∧ (k.sigEn = false → t.me.sigWait = true) ∧
         (k.sigEn = true → t.me.sigWait = k.sigWait) ∧ t.me.retired = k.retired + 1 ∧ CoreAndQueues s t ∧ ∀ n, t.me.xr n = k.xr n) ∧
       ((s.sval [] a).getLsbD 0 = false → ∃ t, exec (.sigen a) s = .next t ∧ t.me.sigEn = false ∧ t.me.fold = none ∧
         t.me.retired = k.retired + 1 ∧ CoreAndQueues s t ∧ ∀ n, t.me.xr n = k.xr n)) ∧
     (Ready s [] (some d) →
       Yields (.sigrd d) s [] d (BitVec.ofNat 64 ((if k.sigEn then 2 ^ 63 else 0) + (match k.fold with | some f => 2 ^ 62 + f.start | none => 0)))))

/-- R127, R35, R366, R368, R369, R373: what waits is taken outside trap mode only. INTERRUPT takes a pending pre-emption with code 3 and
bit 63 of TCAUSE, else a watchdog with code 37 and its launch; DEFERRED_EVENT takes the oldest deferred event as a trap with bit 1 of TSTAT
set. TVAL of a pre-emption is a free value (log 48, DESIGN CHOICE); that it comes before the watchdog is the model's reading (log 50,
DEDUCED). An A-core that takes it begins to save: its late replies go to the pending-load record (R374), and what boundaries give its
registers to a record of their own (the model's reading of R342: log 97, DEDUCED).
R121, R122, R123: an annulled entry is passed over. Its word is fetched, C1 resolved from its length, and the chain moves; nothing
retires, and no register, queue or byte of memory changes. A word that cannot be fetched traps, as does one of length 0b00 whose successor
is unresolved. -/
def Obligations.WhatComesBeforeTheHead : Prop :=
  (∀ s : State, s.cur.core.role ≠ .s → let k := s.me
     (k.trapMode = true → exec .interrupt s = .next s ∧ exec .deferredEvent s = .next s) ∧
     (k.trapMode = false →
       (k.preempt = true → ∃ t, exec .interrupt s = .next t ∧ t.me.tcause = 0x8000000000000003#64 ∧ t.me.preempt = false ∧
         t.me.saving = decide (s.cur.core.role = .a) ∧ t.me.handling = true ∧
         t.me.trapMode = true ∧ t.me.c0 = s.trapVec s.myCtxId ∧ t.me.watchdog = k.watchdog ∧ ∀ n, t.me.xr n = k.xr n) ∧
       (∀ lid, k.preempt = false → k.watchdog = some lid → ∃ t, exec .interrupt s = .next t ∧ t.me.tcause = 0x8000000000000025#64 ∧
         t.me.tval = BitVec.ofNat 64 lid ∧ t.me.watchdog = none ∧ t.me.trapMode = true ∧ t.me.c0 = s.trapVec s.myCtxId ∧
         ∀ n, t.me.xr n = k.xr n) ∧
       (k.preempt = false → k.watchdog = none → exec .interrupt s = .next s) ∧
       (∀ e rest, k.events = e :: rest → e.cause ≠ 28 → e.cause ≠ 29 → ∃ t, exec .deferredEvent s = .next t ∧ t.me.events = rest ∧
         t.me.tcause = BitVec.ofNat 64 e.cause ∧ t.me.tval = e.tval ∧ t.me.tstat.getLsbD 1 = true ∧ t.me.trapMode = true ∧
         t.me.c0 = s.trapVec s.myCtxId ∧ ∀ n, t.me.xr n = k.xr n) ∧
       (∀ e rest, k.events = e :: rest → e.cause = 28 ∨ e.cause = 29 →
         exec .deferredEvent s = trap (s.updMe fun k => { k with events := rest }) e.cause e.tval) ∧
       (k.events = [] → exec .deferredEvent s = .next s))) ∧
  (∀ s : State, let k := s.me
     (∀ cause, s.fetch s.cur.core k.c0 = .trap cause →
       exec .annulledPass s = trap s cause (k.c0.setWidth 64)) ∧
     (∀ w, s.fetch s.cur.core k.c0 = .word w → k.s1 = true → wordLen w = 0 →
       exec .annulledPass s = trap s 2 ((w.setWidth 32).setWidth 64)) ∧
     (∀ w, s.fetch s.cur.core k.c0 = .word w → ¬ (k.s1 = true ∧ wordLen w = 0) →
       ∃ t, exec .annulledPass s = .next t ∧ CoreAndQueues s t ∧ (∀ q, t.queue q = s.queue q) ∧
         t.me.c0 = (if k.s1 then k.c0 + BitVec.ofNat 48 (wordLen w) else k.c1) ∧ t.me.n0 = k.n1 ∧
         t.me.c1 = k.c2 ∧ t.me.s1 = k.s2 ∧ t.me.n1 = k.n2 ∧ t.me.c2 = 0 ∧ t.me.s2 = true ∧ t.me.n2 = false ∧
         { t.me with c0 := k.c0, c1 := k.c1, c2 := k.c2, n0 := k.n0, n1 := k.n1, n2 := k.n2, s1 := k.s1, s2 := k.s2, fold := k.fold } = k))

/-- R162, R163, R169, R173, R177: COPY. With every check of its stages passed it answers 1 where it needs a transform unit and none is free, and
else starts: the copy joins those in flight with the descriptors and origins that it read at issue, and the open batch; a stochastic
rounding draws a key from SRCNT; a barrier that it names counts one transfer outbound, also in a poisoned sector (the model's choice: log 85,
DESIGN CHOICE); D is 0. A reserved DMODE stops no conversion that needs no rounding (R192).
R163, R164, R168, R170, R91, R192: what stops COPY, in the order of its checks. A reserved DMODE for a CVT that rounds by it (cause 2, before
the wait for room: the model's choice, log 86, DESIGN CHOICE); without room it waits; then a queue code (35); a descriptor against R164 (40,
with the identifier, the end and the lowest reason), the destination's first, then the source's, then that of the pair; a barrier beyond the
scratchpad (7); the list of a gather or scatter: too long (40, reason 9), not aligned (4), beyond the scratchpad (5), poisoned (29 with the
offset of its first poisoned byte, which the spec does not give: the model's reading, log 31, DEDUCED), an entry out of range (40, reason 9);
a slot that is not held (31); the first source byte, then the first destination byte, that fails its space's check, with its cause; a
transforming copy whose ends overlap (30). A page whose translation is not cached starts a walk. The reasons and the checks of the spaces
are said after this.
R164, R155, R157, R158, R202: the reasons that one descriptor gives a copy. The reason is the lowest whose condition holds, and 0 where
none does. 1: the rank is not 1 to 4, or an extent or a stride beyond it is not zero; 2: an extent within it is zero; 3: the format or the
space is none, or the space is not the copy's; 4: a reserved bit is set, or a stride is outside 48 signed bits; 6: an accumulator end that
is not FP32; 7: an origin that is not on a byte, or not on a group; 8: a grouped format with rank above 2, or with SZBASE or SZSTR in operand
memory; 10: a grouped end of operand memory that R202 does not allow.
R164, R165, R166, R167, R193: the reason that a pair of descriptors gives a copy: 5 where the shapes do not meet the transform's rule, else 6
where the formats do not, or where SR is asked for and the conversion is not narrowing, else 0. T16 compares the extents as they stand in the
descriptors, beyond the rank too (the model's choice: log 107, DESIGN CHOICE).
R159, R163, R91, R95, R332: the checks of a space. An end in the own scratchpad, in operand memory or in the accumulators is checked
against 0x60000, 0x40000 and 0x10000 bytes (the second is the model's reading: log 63, DEDUCED), and the lowest byte outside decides, with cause 5
for a read and 7 for a write; a remote end must lie in one window register of one cell of the context, else cause 27; a GLOB or HOST end is
checked page by page, and the lowest first byte of a page that fails decides. Such a byte that no translated space holds fails with 5 or 7
(the model's choice: log 108, DESIGN CHOICE); else a translation that is not cached, one that failed (13, 15), a leaf without the right, in memory
that is switched off (log 79, DESIGN CHOICE) or, for HOST, not in host space (5, 7), and what another core has written, or holds (25, 26). -/
def Obligations.CopiesIssue : Prop :=
  (∀ (s : State) (d a b c : Reg) (rm : BitVec 3) (ext : BitVec 64) (index : List Nat),
     let f := copyFields ext
     let srcs := if f.xf = 6 ∨ f.xf = 7 then [a, b, c] else [a, b]
     let dorg := s.sval [] a
     let sorg := s.sval [a] b
     let list := if f.xf = 6 ∨ f.xf = 7 then s.sval [a, b] c else 0
     let dd := s.tidOf f.dtid
     let sd := s.tidOf f.stid
     let ws := writeSegs dd sd dorg f.xf index
     let rs := readSegs dd sd sorg f.xf index
     let pages := s.pagesOf ((if f.sspace = 0 ∨ f.sspace = 5 then rs else []) ++ (if f.dspace = 0 ∨ f.dspace = 5 then ws else []))
     let wk := keySegs s.myCell pages f.dspace ws
     let rk := keySegs s.myCell pages f.sspace rs ++ (if f.xf = 6 ∨ f.xf = 7 then [(0, cellKey s.myCell list.toNat, 4 * index.length)] else [])
     (f.xf = 2 → (s.me.mode rm true).isSome = true ∨ isNarrowing (dFmt dd) (dFmt sd) = false) → s.copyRoom s.myCell = true → Ready s srcs (some d) →
     s.me.controlPending (0x9000 + 64 * f.dtid) = false → s.me.controlPending (0x9000 + 64 * f.stid) = false →
     (∀ n, f.bar = some n → n ≤ 0x5FFF0 ∧ s.sectorQuiet (cellKey s.myCell n) = true) →
     descReason dd f.dspace dorg f.xf = 0 → descReason sd f.sspace sorg f.xf = 0 → pairReason dd sd f.xf (decide (rm = 6#3)) = 0 →
     s.indexList dd sd f.dtid f.stid f.xf list = .ok index →
     (∀ n, n < 32 → n ∈ (if f.dspace = 3 then slotsOf ws else []) ++ (if f.sspace = 3 then slotsOf rs else []) → s.myCtx.held.getLsbD n = true) →
     s.endStop f.sspace false rs = none → s.endStop f.dspace true ws = none → (f.xf ≠ 0 → overlapAt wk rk = none) →
     (f.xf ≠ 0 → s.unitRoom s.myCell = false → Yields (.copy d a b c rm ext) s srcs d 1) ∧
     (f.xf = 0 ∨ s.unitRoom s.myCell = true →
       ∃ t cp, exec (.copy d a b c rm ext) s = .next t ∧ t.copies = s.copies ++ [cp] ∧ cp.id = s.fresh ∧ s.fresh < t.fresh ∧
         cp.cell = s.myCell ∧ cp.ctx = s.myCtxId ∧ cp.dst = dd ∧ cp.src = sd ∧ cp.dorg = dorg ∧ cp.sorg = sorg ∧ cp.xf = f.xf ∧
         cp.index = index ∧ cp.slack = f.slack ∧ cp.issue = s.now ∧ cp.sem = f.sem ∧ cp.seed = s.me.srseed ∧ cp.key = s.me.srcnt ∧
         cp.pages = pages ∧ cp.todo = sectorsOf wk ∧ cp.flags = 0 ∧
         t.myCtx.unsealed = s.myCtx.unsealed ++ [cp.id] ∧
         (∀ n, t.me.xr n = regAfter s.me (some (d, 0)) n) ∧ t.me.retired = s.me.retired + 1 ∧ t.me.c0 = s.me.c1 ∧
         t.me.srcnt = (if f.xf = 2 ∧ s.me.mode rm (isNarrowing (dFmt dd) (dFmt sd)) = some .sr then s.me.srcnt + 1 else s.me.srcnt) ∧
         (f.bar = none → t.mem = s.mem ∧ t.writes = s.writes) ∧
         (∀ n, f.bar = some n → MemoryOk s → t.barAt (cellKey s.myCell n) = barStart (s.barAt (cellKey s.myCell n)) ∧
           ∀ y, ¬ (cellKey s.myCell n ≤ y ∧ y < cellKey s.myCell n + 16) → t.byteLast y = s.byteLast y))) ∧
  (∀ (s : State) (d a b c : Reg) (rm : BitVec 3) (ext : BitVec 64),
     let f := copyFields ext
     let i : Instr := .copy d a b c rm ext
     let lists := f.xf = 6 ∨ f.xf = 7
     let srcs := if lists then [a, b, c] else [a, b]
     let dorg := s.sval [] a
     let sorg := s.sval [a] b
     let list := if lists then s.sval [a, b] c else 0
     let dd := s.tidOf f.dtid
     let sd := s.tidOf f.stid
     let code := fun (tid : Nat) (source : Bool) (reason : Nat) => BitVec.ofNat 64 (tid + (if source then 64 else 0) + 256 * reason)
     let dr := descReason dd f.dspace dorg f.xf
     let sr := descReason sd f.sspace sorg f.xf
     let pr := pairReason dd sd f.xf (decide (rm = 6#3))
     let reserved := f.xf = 2 ∧ s.me.mode rm true = none
     s.me.controlPending (0x9000 + 64 * f.dtid) = false → s.me.controlPending (0x9000 + 64 * f.stid) = false →
     (reserved → isNarrowing (dFmt dd) (dFmt sd) = true → exec i s = trap s 2 (s.cur.word.setWidth 64)) ∧
     (¬ (reserved ∧ isNarrowing (dFmt dd) (dFmt sd) = true) →
       (s.copyRoom s.myCell = false → exec i s = .next s) ∧
       (s.copyRoom s.myCell = true →
         (∀ r, badQueue s.cur.core.role srcs (some d) = some r → exec i s = trap s 35 (r.setWidth 64)) ∧
         (Ready s srcs (some d) → (∀ n, f.bar = some n → s.sectorQuiet (cellKey s.myCell n) = true) →
           (dr ≠ 0 → exec i s = trap s 40 (code f.dtid false dr)) ∧
           (dr = 0 → sr ≠ 0 → exec i s = trap s 40 (code f.stid true sr)) ∧
           (dr = 0 → sr = 0 → pr ≠ 0 → exec i s = trap s 40 (code f.dtid false pr)) ∧
           (dr = 0 → sr = 0 → pr = 0 →
             (∀ n, f.bar = some n → 0x5FFF0 < n → exec i s = trap s 7 (BitVec.ofNat 64 n)) ∧
             ((∀ n, f.bar = some n → n ≤ 0x5FFF0) →
               let gath := decide (f.xf = 6)
               let n := if gath then dDim dd 1 else dDim sd 1
               let bound := if gath then dDim sd 1 else dDim dd 1
               let bytes := span (cellKey s.myCell list.toNat) (4 * n)
               let entry := fun j => bytesToNat (((s.loadBytes s.cur.core s.fresh bytes).drop (4 * j)).take 4);
               (lists → 256 < n → exec i s = trap s 40 (code (if gath then f.dtid else f.stid) (!gath) 9)) ∧
               (lists → n ≤ 256 → list.toNat % 4 ≠ 0 → exec i s = trap s 4 list) ∧
               (lists → n ≤ 256 → list.toNat % 4 = 0 → 0x60000 < list.toNat + 4 * n →
                 exec i s = trap s 5 (if list.toNat < 0x60000 then 0x60000 else list)) ∧
               (lists → n ≤ 256 → list.toNat % 4 = 0 → list.toNat + 4 * n ≤ 0x60000 → (∀ y ∈ bytes, s.mayRead (sectorOf y) = true) →
                 (∀ y, bytes.find? s.poisonHere = some y → exec i s = trap s 29 (BitVec.ofNat 64 (y - cellKey s.myCell 0))) ∧
                 ((∀ y ∈ bytes, s.poisonHere y = false) → (∃ j, j < n ∧ bound ≤ entry j) →
                   exec i s = trap s 40 (code (if gath then f.stid else f.dtid) gath 9))) ∧
               (∀ index, s.indexList dd sd f.dtid f.stid f.xf list = .ok index →
                 let ws := writeSegs dd sd dorg f.xf index
                 let rs := readSegs dd sd sorg f.xf index
                 let touched := (if f.dspace = 3 then slotsOf ws else []) ++ (if f.sspace = 3 then slotsOf rs else [])
                 let free := fun n => n ∈ touched ∧ s.myCtx.held.getLsbD n = false
                 let pages := s.pagesOf ((if f.sspace = 0 ∨ f.sspace = 5 then rs else []) ++ (if f.dspace = 0 ∨ f.dspace = 5 then ws else []))
                 let wk := keySegs s.myCell pages f.dspace ws
                 let rk := keySegs s.myCell pages f.sspace rs ++ (if lists then [(0, cellKey s.myCell list.toNat, 4 * index.length)] else [])
                 let stops := fun (r : ByteCheck × Int) (o : Out) =>
                   (∀ cause, r.1 = .bad cause → o = trap s cause (BitVec.ofInt 64 r.2)) ∧
                   (r.1 = .miss → o = .next (s.requestWalk s.cur.core s.myCtxId r.2.toNat))
                 (∀ n, n < 32 → free n → (∀ m, m < n → ¬ free m) → exec i s = trap s 31 (BitVec.ofNat 64 n)) ∧
                 ((∀ n, n < 32 → ¬ free n) →
                   (∀ r, s.endCheck f.sspace false rs = some r → stops r (exec i s)) ∧
                   (s.endCheck f.sspace false rs = none → ∀ r, s.endCheck f.dspace true ws = some r → stops r (exec i s)) ∧
                   (s.endCheck f.sspace false rs = none → s.endCheck f.dspace true ws = none → f.xf ≠ 0 →
                     ∀ y, overlapAt wk rk = some y → exec i s = trap s 30 (BitVec.ofInt 64 y)))))))))) ∧
  (∀ (d : Vec) (space xf : Nat) (org : Word),
     let bits := fun lo n : Nat => d.toNat / 2 ^ lo % 2 ^ n
     let stride := fun k : Nat => (d.extractLsb' (128 + 64 * k) 64).toInt
     let dim := fun k : Nat => bits (128 + 16 * k) 16
     let fmt := bits 64 5
     let spc := bits 69 3
     let rank := bits 72 3
     let szstr := (d.extractLsb' 448 64).toInt
     let o0 := org.toNat % 2 ^ 16
     let wide := fun n : Int => n < -2 ^ 47 ∨ 2 ^ 47 ≤ n
     let quant := 14 ≤ fmt ∧ fmt ≤ 19
     let block := fmt = 8 ∨ fmt = 9
     let group := (quant ∨ block) ∧ o0 % groupSize fmt ≠ 0
     let breaks := fun n : Nat =>
       n = 1 ∧ (rank = 0 ∨ 4 < rank ∨ ∃ k, k < 4 ∧ rank ≤ k ∧ (dim k ≠ 0 ∨ k ≠ 0 ∧ stride k ≠ 0)) ∨
       n = 2 ∧ (∃ k, k < rank ∧ dim k = 0) ∨
       n = 3 ∧ (20 ≤ fmt ∨ 6 ≤ spc ∨ spc ≠ space) ∨
       n = 4 ∧ (bits 48 16 ≠ 0 ∨ bits 75 53 ≠ 0 ∨ bits 432 16 ≠ 0 ∨ wide (stride 1) ∨ wide (stride 2) ∨ wide (stride 3) ∨ wide szstr) ∨
       n = 6 ∧ spc = 4 ∧ fmt ≠ 0 ∨
       n = 7 ∧ (o0 * fmtWidth fmt % 8 ≠ 0 ∨ group ∧ (quant ∨ xf = 0 ∨ xf = 6 ∨ xf = 7)) ∨
       n = 8 ∧ ((quant ∨ block) ∧ 2 < rank ∨ spc = 3 ∧ (quant ∨ block) ∧ (bits 384 48 ≠ 0 ∨ szstr ≠ 0)) ∨
       n = 10 ∧ spc = 3 ∧ (quant ∨ block) ∧ (bits 0 48 % 0x200 ≠ 0 ∨ stride 1 % 0x200 ≠ 0 ∨ kLimit fmt < dim 0)
     (∀ n, breaks n → (∀ m, m < n → ¬ breaks m) → descReason d space org xf = n) ∧
       ((∀ n, ¬ breaks n) → descReason d space org xf = 0)) ∧
  (∀ (d s : Vec) (xf : Nat) (sr : Bool), xf < 8 →
     let dim := fun (v : Vec) (k : Nat) => v.toNat / 2 ^ (128 + 16 * k) % 2 ^ 16
     let rank := fun v : Vec => v.toNat / 2 ^ 72 % 2 ^ 3
     let fd := d.toNat / 2 ^ 64 % 2 ^ 5
     let fs := s.toNat / 2 ^ 64 % 2 ^ 5
     let same := fun k => dim d k = dim s k
     let ranks := rank d = rank s
     let packed := fun (v u : Vec) (w : Nat) => ranks ∧ same 1 ∧ same 2 ∧ same 3 ∧ dim v 0 * w = dim u 0 * w + (dim u 0 + 63) / 64 * 64
     let groups := fun f : Nat => f = 8 ∨ f = 9 ∨ 14 ≤ f ∧ f ≤ 19
     let shape :=
       ((xf = 0 ∨ xf = 2) → ranks ∧ same 0 ∧ same 1 ∧ same 2 ∧ same 3) ∧
       (xf = 1 → dim d 0 = 16 ∧ dim d 1 = 16 ∧ dim s 0 = 16 ∧ dim s 1 = 16 ∧ same 2 ∧ same 3) ∧
       (xf = 3 → ranks ∧ ∀ k, k < rank d → same k ∨ dim s k = 1) ∧
       (xf = 4 → packed d s (fmtWidth fd)) ∧ (xf = 5 → packed s d (fmtWidth fs)) ∧
       ((xf = 6 ∨ xf = 7) → rank d = 2 ∧ rank s = 2 ∧ same 0)
     let format :=
       (xf ≠ 2 → fd = fs) ∧ (xf = 1 → fd ∈ [0, 1, 2, 3, 4, 7, 10, 11, 12, 13]) ∧
       (xf = 2 → ¬ groups fd ∧ (sr = true → isNarrowing fd fs = true)) ∧ (xf = 3 → ¬ groups fd) ∧
       ((xf = 4 ∨ xf = 5) → fd ∈ [0, 1, 2, 3, 4, 10, 11])
     (¬ shape → pairReason d s xf sr = 5) ∧ (shape → ¬ format → pairReason d s xf sr = 6) ∧ (shape → format → pairReason d s xf sr = 0)) ∧
  (∀ (s : State) (write : Bool) (segs : List Seg), (∀ g ∈ segs, 0 < g.2) →
     let refused := if write then 7 else 5
     let within := fun y : Int => ∃ g ∈ segs, g.1 ≤ y ∧ y < g.1 + g.2
     let first := fun y : Int => ∃ g ∈ segs, g.1 ≤ y ∧ y < g.1 + g.2 ∧ (y = g.1 ∨ y % 4096 = 0)
     (∀ (space : Nat) (hi : Int), (space = 1 ∧ hi = 0x60000 ∨ space = 3 ∧ hi = 0x40000 ∨ space = 4 ∧ hi = 0x10000) →
       let outside := fun y : Int => within y ∧ (y < 0 ∨ hi ≤ y)
       ((∀ y, ¬ outside y) → s.endCheck space write segs = none) ∧
       (∀ y, outside y → (∀ z, z < y → ¬ outside z) → s.endCheck space write segs = some (.bad refused, y))) ∧
     (segs ≠ [] → (s.endCheck 2 write segs = none ↔ ∃ cell i, i < 8 ∧ cell < 1024 ∧ s.residentIn cell = some s.myCtxId ∧ s.cellOut cell = false ∧
       let w := tget (s.ctxOf cell).windows 0 i
       let low := 64 * (w.toNat % 2 ^ 13)
       let high := min (low + 64 * (w.toNat / 2 ^ 32 % 2 ^ 13)) 0x60000
       w.getLsbD 63 = true ∧ w.getLsbD (if write then 60 else 59) = true ∧
         ∀ y, within y → (0x100000000 + 0x100000 * cell + low : Nat) ≤ y ∧ y < (0x100000000 + 0x100000 * cell + high : Nat))) ∧
     (∀ r, s.endCheck 2 write segs = some r → r.1 = .bad 27) ∧
     (∀ space : Nat, space = 0 ∨ space = 5 →
       let check := s.translatedByte (decide (space = 5)) write
       ((∀ y, first y → check y = .fine) → s.endCheck space write segs = none) ∧
       (∀ y, first y → check y ≠ .fine → (∀ z, first z → z < y → check z = .fine) → s.endCheck space write segs = some (check y, y))) ∧
     ∀ (host : Bool) (va : Int), let kind : AccKind := if write then .store else .load
       let answers := fun r : ByteCheck => s.translatedByte host write va = r
       (va < 0x1000000000 ∨ 2 ^ 48 ≤ va → answers (.bad refused)) ∧
       (0x1000000000 ≤ va → va < 2 ^ 48 →
         (s.transFor s.cur.core s.myCtxId va.toNat = .miss → answers .miss) ∧
         (s.transFor s.cur.core s.myCtxId va.toNat = .fail → answers (.bad (if write then 15 else 13))) ∧
         (∀ e l, s.transFor s.cur.core s.myCtxId va.toNat = .leaf e l →
           let record := s.ownOf (leafPage e)
           let other := pteO e = true ∧ record.holder ≠ some (s.myCtxId, s.coreId s.cur.core)
           let right := leafGrants e kind = true ∧ s.keyOut (leafKey e l va.toNat) = false ∧ (host = true → pteSpc e = 2)
           (¬ right → answers (.bad refused)) ∧
           (right → write = true → (other → answers (.bad 26)) ∧ (¬ other → answers .fine)) ∧
           (right → write = false → (other ∧ record.written = true → answers (.bad 25)) ∧ (¬ (other ∧ record.written = true) → answers .fine)))))

/-- R157, R158, R165, R168, R202: the rows of a copy. Row r of a window has the coordinates i1, i2 and i3 in that order; its first byte lies at BASE plus
each coordinate's stride and the origin's; its group parameters at SZBASE plus SZSTR for each row, in operand memory 0x180 bytes after the
row, one entry for each group that its elements touch. Rows are written in rising order: GATH writes row i with row index[i] of the source,
SCAT row index[i] with row i, EXP each row with the source row that has coordinate 0 wherever the source's extent is 1, the others each row
with the same.
R165, R166, R182, R167: the elements that a copy gives. NONE, GATH and SCAT take element i0 of the source row; EXP that element modulo the
source's extent; T16 element i1 of source row i0 of the same block; CVT the source element's value under its group's parameters, rounded into
the destination's format, with the random word of the element's place. A row's bytes hold its elements one after another from bit 0. A CMPR
row is the mask of the elements that are not zero, those elements in order, and zeros; DCMPR puts each element of the mask back at its place.
R165, R158, R168, R170, R171, R172, R173, R332: serving one sector of a copy. The engine works out the sector's bytes row by row, of each row
its elements and, where the transform moves them, the parameter bytes of the source row as they stand; of two rows that
name one byte the later wins, also over a row that derives from poison (the model's choice: log 109, DESIGN CHOICE), and writes them for its cell to see, as one write of the copy; a sector that it writes whole loses its poison;
where some of them derives from a poisoned sector it writes the marker instead. A page that is owned is marked written. The sector is done,
the flags join the copy's, and nothing else changes. A plain copy whose ends overlap keeps its source bytes first.
R172, R173, R15, R16: a cluster's engine, unless the cluster is switched off, serves one sector of the copy of a context that no fence has
struck whose slack, less one for every 4096 cycles since it was issued, is least;
of equals the one issued earlier. A copy whose work is done and whose writes are visible at chip scope, or at system scope for a HOST
destination, completes: it leaves those in flight, its flags enter the A-core's FCSR, its semaphore is posted and its barrier counts one
transfer done. R175: an engine may read bytes of a sector's source before the others; they are kept for that sector, and nothing else changes.
R178, R341: CSEAL makes the copies started since the last seal one batch, and waits while sixteen are unfinished; CWAIT retires once at
most n are unfinished; CTEST and CCNT read how many are, a member by the lag rule: a batch shows as finished once its quantum lies LAG quanta back,
one without copies at once. CCNT shows the low 8 bits of each count (the model's choice where one is above 255: log 106, DESIGN CHOICE). -/
def Obligations.CopiesAndBatches : Prop :=
  ((∀ (d : Vec) (org : Word) (i1 i2 i3 : Nat), i1 < dExtent d 1 → i2 < dExtent d 2 → i3 < dExtent d 3 →
     let row := copyRow d org (i1 + dExtent d 1 * (i2 + dExtent d 2 * i3))
     let o := fun k : Nat => org.toNat / 2 ^ (16 * k) % 2 ^ 16
     let stride := fun k : Nat => (d.extractLsb' (128 + 64 * k) 64).toInt
     let fmt := d.toNat / 2 ^ 64 % 2 ^ 5
     let start : Int := (d.toNat % 2 ^ 48 : Nat) + (o 1 + i1 : Nat) * stride 1 + (o 2 + i2 : Nat) * stride 2 + (o 3 + i3 : Nat) * stride 3
     let g := groupSize fmt
     let n := dExtent d 0
     row.addr = start + (o 0 * fmtWidth fmt / 8 : Nat) ∧ row.len = (n * fmtWidth fmt + 7) / 8 ∧
       (g = 0 → row.plen = 0) ∧
       (g ≠ 0 → row.plen = paramSize fmt * ((o 0 + n - 1) / g - o 0 / g + 1) ∧
         row.paddr = (if d.toNat / 2 ^ 69 % 2 ^ 3 = 3 then start + 0x180
           else (d.toNat / 2 ^ 384 % 2 ^ 48 : Nat) + (o 1 + i1 : Nat) * (d.extractLsb' 448 64).toInt) + (paramSize fmt * (o 0 / g) : Nat))) ∧
   (∀ (d s : Vec) (index : List Nat),
     (∀ i : Nat, (rowPairs d s 6 index)[i]? = index[i]?.map fun v => (i, v)) ∧ (∀ i : Nat, (rowPairs d s 7 index)[i]? = index[i]?.map fun v => (v, i)) ∧
     (∀ xf r : Nat, xf ∉ ([3, 6, 7] : List Nat) → (rowPairs d s xf index)[r]? = if r < dExtent d 1 * dExtent d 2 * dExtent d 3 then some (r, r) else none) ∧
     (rowPairs d s 3 index).length = dExtent d 1 * dExtent d 2 * dExtent d 3 ∧
     ∀ i1 i2 i3, i1 < dExtent d 1 → i2 < dExtent d 2 → i3 < dExtent d 3 → (∀ k, dExtent s k = dExtent d k ∨ dExtent s k = 1) →
       let at_ := fun k i : Nat => if dExtent s k = 1 then 0 else i
       let r := i1 + dExtent d 1 * (i2 + dExtent d 2 * i3)
       (rowPairs d s 3 index)[r]? = some (r, at_ 1 i1 + dExtent s 1 * (at_ 2 i2 + dExtent s 2 * at_ 3 i3)))) ∧
  (∀ (c : Copy) (rd : Reader) (r k : Nat),
     let w := fmtWidth (dFmt c.dst)
     let n := dExtent c.dst 0
     let row := copyRow c.src c.sorg k
     let moved := fun o : Option Nat => o.map fun v => (v, (0 : Flags))
     (∀ i, (c.xf = 0 ∨ c.xf = 6 ∨ c.xf = 7 → c.elem rd r k i = moved (c.srcCode rd row.addr i)) ∧
       (c.xf = 3 → c.elem rd r k i = moved (c.srcCode rd row.addr (i % dExtent c.src 0))) ∧
       (c.xf = 1 → c.elem rd r k i = moved (c.srcCode rd (copyRow c.src c.sorg (i + 16 * (r / 16))).addr (r % 16))) ∧
       (∀ v p f m, c.xf = 2 → c.srcCode rd row.addr i = some v → c.srcParam rd row i = some p → fmtOf (dFmt c.dst) = some f → modeOfCode c.mode = some m →
         let out := round (elemVal (dFmt c.src) v p) f { mode := m, random := if m = .sr then rnd c.seed c.key (r * n + i) else 0 }
         c.elem rd r k i = some (out.code, out.flags))) ∧
     (∀ (v : Nat → Nat) (g : Nat → Flags), c.xf ≠ 4 → c.xf ≠ 5 → 0 < w → (∀ i, i < n → c.elem rd r k i = some (v i, g i) ∧ v i < 2 ^ w) →
       ∃ bytes fl, c.rowData rd r k (List.range (rowBytes c.dst)) = (bytes.map some, fl) ∧
         (∀ i, i < n → bytesToNat bytes / 2 ^ (w * i) % 2 ^ w = v i) ∧ bytesToNat bytes < 2 ^ (w * n) ∧
         ∀ b : Nat, fl.getLsbD b = true ↔ ∃ i, i < n ∧ (g i).getLsbD b = true) ∧
     (∀ codes : List Nat, codes.length = dExtent c.src 0 → (∀ i v, codes[i]? = some v → c.srcCode rd row.addr i = some v) →
       ∃ mask zeros, c.cmprRow rd k = some (natToBytes ((codes.length + 63) / 64 * 8) mask ++
           (codes.filter fun v => decide (v ≠ 0)).flatMap (fun v => natToBytes (fmtWidth (dFmt c.src) / 8) v) ++ List.replicate zeros 0) ∧
         ∀ i v, codes[i]? = some v → (mask.testBit i = true ↔ v ≠ 0)) ∧
     ∀ bs, c.srcBytes rd row.addr row.len = some bs →
       let mask := bytesToNat (bs.take ((n + 63) / 64 * 8))
       let before := fun i => ((List.range i).filter fun j => mask.testBit j).length
       (n + 63) / 64 * 8 + before n * (w / 8) ≤ bs.length →
       ∃ out, c.dcmprRow rd k = some out ∧ out.length = n * (w / 8) ∧
         ∀ i, i < n → (out.drop (w / 8 * i)).take (w / 8) =
           if mask.testBit i then (bs.drop ((n + 63) / 64 * 8 + before i * (w / 8))).take (w / 8) else List.replicate (w / 8) 0) ∧
  ((∀ (s : State) (c0 : Copy) (sector : Nat), MemoryOk s →
     let c := s.takeSnapshot c0
     let r := c.sectorData (s.reader c) sector
     let cells := lastBytes sector r.1
     let t := s.serveSector c0 sector
     let owned := (c.pages.find? fun p => decide (p.2.1 / 4096 = sector * 64 / 4096)).bind fun p => p.2.2
     t.copies = s.copies.map (fun b => if b.id = c.id then { c with todo := c.todo.drop 1, early := [], flags := c.flags ||| r.2 } else b) ∧
     ((∃ y, (y, none) ∈ cells) → t.poisonedFor (.cell c.cell) sector = true ∧ t.poisonedLast sector = true ∧ ∀ v y, t.byteFor v y = s.byteFor v y) ∧
     ((∀ y, (y, none) ∉ cells) →
       (∀ y b, (y, some b) ∈ cells → t.byteLast y = b ∧ t.byteFor (.cell c.cell) y = b) ∧ (∀ y, (∀ b, (y, b) ∉ cells) → t.byteLast y = s.byteLast y) ∧
       (cells.length = 64 → t.poisonedFor (.cell c.cell) sector = false) ∧
       (cells.length ≠ 64 → ∀ v q, t.quarterBad v q = s.quarterBad v q)) ∧
     (∀ w ∈ t.writes, w ∉ s.writes → w.id = c.id ∧ w.owner = .copy c.id ∧ w.scope = 0) ∧
     (∀ page, owned = some page → dSpace c.dst = 0 ∨ dSpace c.dst = 5 → (t.ownOf page).written = true) ∧
     { t with copies := s.copies, writes := s.writes, own := s.own } = s) ∧
   (∀ (sector y : Nat) (b : Option Byte) (cells : List (Nat × Option Byte)), (y, b) ∈ lastBytes sector cells ↔
     sectorOf y = sector ∧ ∃ before after, cells = before ++ (y, b) :: after ∧ ∀ x ∈ after, x.1 ≠ y) ∧
   (∀ (c : Copy) (rd : Reader) (sector : Nat) (p : Nat × Nat), p ∈ rowPairs c.dst c.src c.xf c.index →
     let row := copyRow c.dst c.dorg p.1
     let key := fun j : Nat => spaceKey c.cell c.pages (dSpace c.dst) (row.addr + (j : Int))
     let js := (List.range row.len).filter fun j => decide (sectorOf (key j) = sector)
     let pkey := fun j : Nat => spaceKey c.cell c.pages (dSpace c.dst) (row.paddr + (j : Int))
     let moved := if c.xf = 0 ∨ c.xf = 6 ∨ c.xf = 7 then (List.range row.plen).filter fun j => decide (sectorOf (pkey j) = sector) else []
     let params := moved.map fun j : Nat =>
       (pkey j, rd (spaceKey c.cell c.pages (dSpace c.src) ((copyRow c.src c.sorg p.2).paddr + (j : Int))))
     ∃ before after, (c.sectorData rd sector).1 = before ++ (js.map key).zip (c.rowData rd p.1 p.2 js).1 ++ params ++ after) ∧
   ∀ (s : State) (c : Copy) (wk rk : List (Int × Nat × Nat)), wk = keySegs c.cell c.pages (dSpace c.dst) (writeSegs c.dst c.src c.dorg c.xf c.index) →
     rk = keySegs c.cell c.pages (dSpace c.src) (readSegs c.dst c.src c.sorg c.xf c.index) →
     (overlapAt wk rk = none ∨ c.snapshot ≠ none → s.takeSnapshot c = c) ∧
     (overlapAt wk rk ≠ none → c.snapshot = none → ∃ m, s.takeSnapshot c = { c with snapshot := some m } ∧
       ∀ y, tfind m y = if (∃ g ∈ rk, g.2.1 ≤ y ∧ y < g.2.1 + g.2.2) then s.reader c y else none)) ∧
  ((∀ (s : State) (c : Copy), s.args.memory ≠ 1 → s.nextCopy s.args.cluster = some c →
     (c.cell / 16 = s.args.cluster ∧ s.copyReady c = true ∧ s.unitOut 1 s.args.cluster = false ∧ s.isDying c.ctx = false ∧
       ∃ before after, s.copies = before ++ c :: after ∧
       ∀ b, b.cell / 16 = s.args.cluster → s.copyReady b = true → s.isDying b.ctx = false →
         (b ∈ before → c.slack - (s.now - c.issue) / 4096 < b.slack - (s.now - b.issue) / 4096) ∧
         (b ∈ after → c.slack - (s.now - c.issue) / 4096 ≤ b.slack - (s.now - b.issue) / 4096)) ∧
     (∀ sector rest, c.todo = sector :: rest → s.args.flag = false → exec .copySector s = .next (s.serveSector c sector)) ∧
     (∀ sector rest, c.todo = sector :: rest → s.args.flag = true →
       ∃ t, exec .copySector s = .next t ∧ { t with copies := s.copies } = s ∧
         t.copies = s.copies.map fun b => if b.id = c.id then { c with early := c.early ++ s.args.cells.filterMap fun y =>
           if (tfind c.early y).isSome then none else (s.reader c y).map fun v => (y, v) } else b) ∧
     (∀ w rest, c.todo = [] → c.writes = w :: rest → s.args.flag = false →
       exec .copySector s = .next ((s.setCopy { c with writes := rest, early := [] }).sendFirst c.ctx c.cell w 0 c.early))) ∧
   (∀ (s : State) (c : Copy), s.copies[s.args.index]? = some c → c.todo = [] → c.writes = [] →
     s.writesAt [c.id] (if dSpace c.dst = 5 then 4 else 2) = true →
     ∃ t, t.copies = s.copies.filter (fun b => decide (b.id ≠ c.id)) ∧
       (t.coreOf ⟨c.cell, .a⟩).fcsr = (s.coreOf ⟨c.cell, .a⟩).fcsr ||| (c.flags.setWidth 64 <<< 8) ∧
       { t with cells := s.cells, copies := s.copies } = s ∧ (∀ q, ¬ sameCore ⟨c.cell, .a⟩ q → t.coreOf q = s.coreOf q) ∧
       let u := match c.sem with
         | some n => t.lagPost c.cell .a c.quantum n
         | none => t
       exec .copyCompletion s = .next (match c.bar with
         | some key => u.lagBar c.cell c.quantum key (.copy c.id)
         | none => u))) ∧
  (∀ (s : State) (d : Reg) (imm : BitVec 4),
     let n := s.unfinished s.myCell
     (16 ≤ n → exec .cseal s = .next s) ∧
     (n < 16 → ∃ t, exec .cseal s = .next t ∧ t.myCtx.unsealed = [] ∧
       (∃ kept, t.myCtx.sealed = kept ++ [{ copies := s.myCtx.unsealed, quantum := s.myCtx.unsealedQuantum }] ∧ kept <:+ s.myCtx.sealed) ∧
       t.me.retired = s.me.retired + 1 ∧ (∀ m, t.me.xr m = s.me.xr m) ∧ t.copies = s.copies ∧ t.mem = s.mem) ∧
     (n ≤ imm.toNat → Branches (.cwait imm) s [] false 0 false) ∧ (imm.toNat < n → exec (.cwait imm) s = .next s) ∧
     (Ready s [] (some d) →
       (let shown := if s.inGroup then
           (s.myCtx.sealed.dropWhile fun b => decide (b.copies = []) || decide (b.quantum + s.me.quantLag ≤ s.quantumOf s.myCtxId)).length else n;
         Yields (.ctest d imm) s [] d (if shown ≤ imm.toNat then 1 else 0)) ∧
       Yields (.ccnt d) s [] d (BitVec.ofNat 64 (n % 256 + 256 * (s.myCtx.unsealed.length % 256) + 65536 * (s.cellCopies s.myCell % 256)))))

/-- R179: TIDLD loads an entry of the tensor identifier image from 64 bytes of the own scratchpad, TIDST stores one, and TIDBASE replaces
bits [47:0] of one; every other entry stays. An address that is not a multiple of 64 traps with cause 4, or 6, one outside the scratchpad
with 5, or 7.
R180, R148: OSCLAIM takes a free slot when its core is first in line, and else joins the line and waits; OSTRY takes one without waiting
and says whether it did; OSREL frees a held slot, traps with cause 31 on a free one, and waits while a copy or a queued command names it;
OSST reads which are held. -/
def Obligations.IdentifiersAndSlots : Prop :=
  (∀ (s : State) (a : Reg) (imm : BitVec 25) (m : BitVec 6), Ready s [a] none →
     let v := s.sval [] a
     let n := imm.toNat % 64
     let ea := ((v + (BitVec.ofNat 19 (imm.toNat / 64)).signExtend 64 * 64).setWidth 48).toNat
     let key := cellKey s.myCell ea
     (ea % 64 ≠ 0 → exec (.tidld a imm) s = trap s 4 (BitVec.ofNat 64 ea) ∧ exec (.tidst a imm) s = trap s 6 (BitVec.ofNat 64 ea)) ∧
     (ea % 64 = 0 → 0x60000 ≤ ea →
       exec (.tidld a imm) s = trap s 5 (BitVec.ofNat 64 ea) ∧ exec (.tidst a imm) s = trap s 7 (BitVec.ofNat 64 ea)) ∧
     (ea % 64 = 0 → ea < 0x60000 → s.me.controlPending (0x9000 + 64 * n) = false →
       (s.mayRead (sectorOf key) = true → s.poisonHere key = true → exec (.tidld a imm) s = trap s 29 (BitVec.ofNat 64 ea)) ∧
       (s.mayRead (sectorOf key) = true → s.poisonHere key = false →
         ∃ t, exec (.tidld a imm) s = .next t ∧
           tget t.myCtx.tids 0 n = BitVec.ofNat 512 (bytesToNat (s.loadBytes s.cur.core s.fresh (span key 64))) ∧
           (∀ j, j ≠ n → tget t.myCtx.tids 0 j = tget s.myCtx.tids 0 j) ∧ t.me.retired = s.me.retired + 1 ∧ t.mem = s.mem ∧
           t.writes = s.writes ∧ ∀ j, t.me.xr j = s.me.xr j) ∧
       (∃ t, exec (.tidst a imm) s = .next t ∧ t.myCtx.tids = s.myCtx.tids ∧ t.mem = s.mem ∧ t.writes = s.writes ∧
         t.me.retired = s.me.retired + 1 ∧ (∀ j, t.me.xr j = s.me.xr j) ∧ t.me.stores.take s.me.stores.length = s.me.stores ∧
         (t.me.stores.drop s.me.stores.length).map (fun e => e.target) = [0, 1, 2, 3].map fun i =>
           StoreTarget.mem (cellsFrom (key + 16 * i) (natToBytes 16 ((tget s.myCtx.tids 0 n).toNat / 2 ^ (128 * i) % 2 ^ 128))))) ∧
     (s.me.controlPending (0x9000 + 64 * m.toNat) = false →
       ∃ t, exec (.tidbase a m) s = .next t ∧
         (tget t.myCtx.tids 0 m.toNat).toNat % 2 ^ 48 = v.toNat % 2 ^ 48 ∧
         (tget t.myCtx.tids 0 m.toNat).toNat / 2 ^ 48 = (tget s.myCtx.tids 0 m.toNat).toNat / 2 ^ 48 ∧
         (∀ j, j ≠ m.toNat → tget t.myCtx.tids 0 j = tget s.myCtx.tids 0 j) ∧ t.me.retired = s.me.retired + 1 ∧ t.mem = s.mem ∧
         ∀ j, t.me.xr j = s.me.xr j)) ∧
  (∀ (s : State) (d : Reg) (imm : BitVec 5), s.cur.core.role ≠ .s →
     let n := imm.toNat
     let held := s.myCtx.held.getLsbD n
     let line := tget s.myCtx.slotLines [] n
     let now := fun (t : State) (v : Bool) => ∀ j, j < 32 → t.myCtx.held.getLsbD j = if j = n then v else s.myCtx.held.getLsbD j
     let named := (s.copies.any fun c => decide (c.cell = s.myCell) && c.slots.contains n) || s.myCtx.matrix.names n
     (held = false → (line = [] ∨ line.head? = some s.cur.core.role) →
       ∃ t, exec (.osclaim imm) s = .next t ∧ now t true ∧ s.cur.core.role ∉ tget t.myCtx.slotLines [] n ∧
         t.me.retired = s.me.retired + 1 ∧ (∀ j, t.me.xr j = s.me.xr j) ∧ t.mem = s.mem) ∧
     (¬ (held = false ∧ (line = [] ∨ line.head? = some s.cur.core.role)) →
       ∃ t, exec (.osclaim imm) s = .next t ∧ t.myCtx.held = s.myCtx.held ∧ t.me = s.me ∧
         tget t.myCtx.slotLines [] n = if s.cur.core.role ∈ line then line else line ++ [s.cur.core.role]) ∧
     (Ready s [] (some d) →
       (held = false → line = [] →
         ∃ t, exec (.ostry d imm) s = .next t ∧ now t true ∧ (∀ j, t.me.xr j = regAfter s.me (some (d, 1)) j) ∧ t.me.retired = s.me.retired + 1) ∧
       (¬ (held = false ∧ line = []) → Yields (.ostry d imm) s [] d 0) ∧
       Yields (.osst d) s [] d (s.myCtx.held.setWidth 64)) ∧
     (held = false → exec (.osrel imm) s = trap s 31 (BitVec.ofNat 64 n)) ∧
     (held = true → named = true → exec (.osrel imm) s = .next s) ∧
     (held = true → named = false → ∃ t, exec (.osrel imm) s = .next t ∧ now t false ∧ t.me.retired = s.me.retired + 1 ∧
       (∀ j, t.me.xr j = s.me.xr j) ∧ t.mem = s.mem))

/-- R330, R331: the ownership instructions outside a deterministic group. At a page whose leaf has O = 1 the holder hands the page to a core
that may have it, or drops it, once all that it did is visible at chip scope; a core takes a page that is its own, pending for it, free, or
handed on by itself and not yet taken, and D says which; OTEST reads the record. What else stops them: an address that is not on an owned
page (cause 45, reason 1), a COREID that may not have it (45, reason 2), and a core that does not hold the page (cause 26). -/
def Obligations.OwnershipInstructions : Prop :=
  ∀ (s : State) (d a : Reg) (imm : BitVec 25), s.inGroup = false →
    let ea := effAddr (s.sval [] a) imm
    let me := (s.myCtxId, s.coreId s.cur.core)
    (ea < 0x1000000000 → Ready s [a] none → exec (.odrop a imm) s = trap s 45 1) ∧
    (∀ e l, 0x1000000000 ≤ ea → s.transFor s.cur.core s.myCtxId ea = .leaf e l →
      let page := leafPage e
      let r := s.ownOf page
      let becomes := fun (i : Instr) (srcs : List Reg) (r' : OwnRec) (res : Option (Reg × Word)) =>
        ∃ t, exec i s = .next t ∧ t.ownOf page = r' ∧ (∀ p, p ≠ page → t.ownOf p = s.ownOf p) ∧
          Retires { s with own := t.own } t srcs res false 0 false
      (Ready s [a, d] none → let heir := s.sval [a] d
        (s.reaches e l ea .store = false → exec (.ohand d a imm) s = trap s 7 (BitVec.ofNat 64 ea)) ∧
        (s.reaches e l ea .store = true → pteO e = false → exec (.ohand d a imm) s = trap s 45 1) ∧
        (s.reaches e l ea .store = true → pteO e = true →
          (s.handTarget heir = false → exec (.ohand d a imm) s = trap s 45 2) ∧
          (s.handTarget heir = true →
            (r.holder ≠ some me → exec (.ohand d a imm) s = trap s 26 (BitVec.ofNat 64 ea)) ∧
            (r.holder = some me → s.handReady page = false → exec (.ohand d a imm) s = .next s) ∧
            (r.holder = some me → s.handReady page = true →
              becomes (.ohand d a imm) [a, d] { r with holder := none, pending := some (s.myCtxId, heir), handedBy := some me } none)))) ∧
      (Ready s [a] none → s.reaches e l ea .store = true → pteO e = true →
        (r.holder ≠ some me → exec (.odrop a imm) s = trap s 26 (BitVec.ofNat 64 ea)) ∧
        (r.holder = some me → s.handReady page = false → exec (.odrop a imm) s = .next s) ∧
        (r.holder = some me → s.handReady page = true →
          becomes (.odrop a imm) [a] { r with holder := none, pending := none, written := false } none)) ∧
      (Ready s [a] (some d) → s.reaches e l ea .load = true → pteO e = true →
        let held : OwnRec := { r with holder := some me, pending := none, written := false }
        (r.holder = some me → becomes (.otake d a imm) [a] r (some (d, 0))) ∧
        (r.holder ≠ some me → r.pending = some me → becomes (.otake d a imm) [a] held (some (d, 1))) ∧
        (r.holder = none → r.pending = none → becomes (.otake d a imm) [a] held (some (d, 2))) ∧
        (r.holder ≠ some me → (∃ p, r.pending = some p ∧ p ≠ me) → r.handedBy = some me → becomes (.otake d a imm) [a] held (some (d, 3))) ∧
        (r.holder ≠ some me → r.pending ≠ some me → ¬ (r.holder = none ∧ r.pending = none) → ¬ (r.pending ≠ none ∧ r.handedBy = some me) →
          exec (.otake d a imm) s = .next s) ∧
        Yields (.otest d a imm) s [a] d (BitVec.ofNat 64
          ((if r.holder = some me then 1 else if r.holder ≠ none then 2 else if r.pending = some me then 3 else if r.pending ≠ none then 4 else 0) +
            if r.written then 256 else 0))))

/-- R256, R257, R260, R263, R267, R405: the counted writes. RST and MCST check kind and range (cause 7), alignment or length, and group
(42), wait while the cell's 4096 send records are full, and else send one counted write with CTR and SEQ of PMK, keep its record, and advance
SEQ; a group that holds a proxy traps with 42 (log 87, DEDUCED), and while the walk to the group's entry is the host's to make, MCST raises it and
waits (log 12, DEDUCED). The payload of MCST is read from the own scratchpad after it has retired: its record, which names the source bytes and the
accesses before it, waits among the sendings of the interface. RSTCP keeps the records of its writes and hands them to the copy engine. RSTPM and
RSTPMRD write and read PMK.
R325, R267, R405: the interface reads a sending sector by sector, or single bytes of one before the others (the model's step for it: log 101,
DESIGN CHOICE), each as the core's cell sees it then, once the accesses before the counted write are visible at cell scope. With the last byte the
write leaves; a poisoned sector withholds it with a deferred event of cause 29, for which there is room (log 84, DEDUCED). -/
def Obligations.CountedWritesLeave : Prop :=
  ∀ (s : State) (d a b c : Reg) (esz : BitVec 2) (imm : BitVec 25) (m : BitVec 6),
    let ctx := s.myCtxId
    let cell := s.myCell
    let pmk := s.myCtx.pmk
    let ni := s.niOf ctx cell
    let reaches := fun fa : Word =>
      fa.toNat / 2 ^ 48 % 16 = 0 ∧ 0x1000000000 ≤ fa.toNat % 2 ^ 48 ∨
        fa.toNat / 2 ^ 48 % 16 = 1 ∧ 0x100000000 ≤ fa.toNat % 2 ^ 48 ∧ fa.toNat % 2 ^ 48 < 0x140000000
    let advanced := fun (t : State) (n : Nat) =>
      t.myCtx.pmk.toNat % 2 ^ 16 = (pmk.toNat + n) % 2 ^ 16 ∧ t.myCtx.pmk.toNat / 2 ^ 16 = pmk.toNat / 2 ^ 16
    let heads := fun (p : Packet) (type : Nat) (dchip : BitVec 12) (fa : Word) (i len : Nat) =>
      p.kind = type ∧ p.dchip = dchip ∧ p.schip = s.chip ∧ p.scell.toNat = cell % 1024 ∧ p.ctxid.toNat = ctx % 65536 ∧ p.addr = fa ∧
        p.ctr = pmk.extractLsb' 32 13 ∧ p.seq = pmk.extractLsb' 0 16 + BitVec.ofNat 16 i ∧ p.bytes.toNat = len ∧ p.round = 0 ∧ p.dcell = 0
    let sends := fun (i : Instr) (srcs : List Reg) (type : Nat) (dchip : BitVec 12) (fa : Word) (bytes : List Byte) =>
      ∃ t r q out, exec i s = .next t ∧
        Retires { s.updMyCtx (fun x => { x with pmk := t.myCtx.pmk }) with net := t.net, nis := t.nis } t srcs none false 0 false ∧
        advanced t 1 ∧ t.niOf ctx cell = { ni with recs := ni.recs ++ [r] } ∧ t.net = s.net ++ [{ packet := q, outbound := out, offered := false }] ∧
        (out = true ↔ type = 7 ∨ dchip ≠ s.chip) ∧ heads r.packet type dchip fa 0 bytes.length ∧ heads q type dchip fa 0 bytes.length ∧
        q.payload = bytes ∧ q.pcrc = crc32c bytes
    (Ready s [a, d] none →
      let v := s.sval [] a
      let fa := (v &&& 0xFFFF000000000000#64) ||| ((v + imm.signExtend 64) &&& 0xFFFFFFFFFFFF#64)
      let size := 2 ^ esz.toNat
      (¬ reaches fa → exec (.rst d a esz imm) s = trap s 7 fa) ∧
      (reaches fa → fa.toNat % size ≠ 0 → exec (.rst d a esz imm) s = trap s 6 fa) ∧
      (reaches fa → fa.toNat % size = 0 → 4096 < s.recordsIn cell + 1 → exec (.rst d a esz imm) s = .next s) ∧
      (reaches fa → fa.toNat % size = 0 → s.recordsIn cell + 1 ≤ 4096 →
        sends (.rst d a esz imm) [a, d] 0 (fa.extractLsb' 52 12) fa (natToBytes size (s.sval [a] d).toNat))) ∧
    (Ready s [a, b, c, d] none →
      let src := (s.sval [] a).toNat
      let group := s.sval [a] b
      let fa := s.sval [a, b] c
      let len := (s.sval [a, b, c] d).toNat
      let i : Instr := .mcst d a b c
      let valid := fa.extractLsb' 52 12 = 0 ∧ reaches fa ∧ 1 ≤ len ∧ len ≤ 256 ∧ group.toNat < 1024 ∧ src + len ≤ 0x60000
      let proxied := s.groupProxy ctx group.toNat = true
      (¬ (fa.extractLsb' 52 12 = 0 ∧ reaches fa) → exec i s = trap s 7 fa) ∧
      (fa.extractLsb' 52 12 = 0 → reaches fa →
        (len = 0 ∨ 256 < len → exec i s = trap s 42 (BitVec.ofNat 64 len)) ∧
        (1 ≤ len → len ≤ 256 → 1024 ≤ group.toNat → exec i s = trap s 42 group) ∧
        (1 ≤ len → len ≤ 256 → group.toNat < 1024 → 0x60000 < src + len →
          exec i s = trap s 5 (if src < 0x60000 then 0x60000 else BitVec.ofNat 64 src))) ∧
      (∀ t, valid → s.groupWait ctx group.toNat = some t → exec i s = .next t) ∧
      (valid → s.groupWait ctx group.toNat = none →
        (proxied → exec i s = trap s 42 group) ∧
        (¬ proxied → 4096 < s.recordsIn cell + 1 → exec i s = .next s) ∧
        (¬ proxied → s.recordsIn cell + 1 ≤ 4096 →
          ∃ t r, exec i s = .next t ∧
            Retires { s.updMyCtx (fun x => { x with pmk := t.myCtx.pmk }) with nis := t.nis } t [a, b, c, d] none false 0 false ∧ advanced t 1 ∧
            t.niOf ctx cell = { ni with recs := ni.recs ++ [r], outgoing := ni.outgoing ++ [{ record := r, round := 0, got := [] }] } ∧
            r.source = .memory ((List.range len).map fun j => (cellKey cell (src + j), src + j)) ∧ r.after = s.past s.cur.core ∧
            heads r.packet 7 (group.setWidth 12) fa 0 len))) ∧
    (Ready s [a, d] none →
      let fa := s.sval [] a
      let org := s.sval [a] d
      let desc := s.tidOf m.toNat
      let total := rowCount desc * rowBytes desc
      let n := (total + 255) / 256
      let segs := rowSegs ((List.range (rowCount desc)).map (copyRow desc org)) false
      let pages := if dSpace desc = 0 then s.pagesOf segs else []
      (¬ reaches fa → exec (.rstcp d a m) s = trap s 7 fa) ∧
      (reaches fa → fa.toNat % 64 ≠ 0 → exec (.rstcp d a m) s = trap s 6 fa) ∧
      (reaches fa → fa.toNat % 64 = 0 → s.me.controlPending (0x9000 + 64 * m.toNat) = false → dSpace desc ≤ 1 →
        descReason desc (dSpace desc) org 8 = 0 →
        (0x40000 < total → exec (.rstcp d a m) s = trap s 42 (BitVec.ofNat 64 total)) ∧
        (total ≤ 0x40000 → s.endStop (dSpace desc) false segs = none → s.copyRoom cell = true → s.recordsIn cell + n ≤ 4096 →
          ∃ t cp, exec (.rstcp d a m) s = .next t ∧ t.copies = s.copies ++ [cp] ∧ cp.id = s.fresh ∧ cp.src = desc ∧ cp.todo = [] ∧
            cp.writes.length = n ∧ (t.niOf ctx cell).recs = ni.recs ++ cp.writes ∧ t.net = s.net ∧ advanced t n ∧
            (∀ i r, cp.writes[i]? = some r →
              let part := ((rstcpBytes cell pages desc org).drop (256 * i)).take 256
              r.source = .memory part ∧ r.after = s.past s.cur.core ∧
              heads r.packet 0 (fa.extractLsb' 52 12)
                ((fa &&& 0xFFFF000000000000#64) ||| ((fa + BitVec.ofNat 64 (256 * i)) &&& 0xFFFFFFFFFFFF#64)) i part.length) ∧
            t.me.retired = s.me.retired + 1 ∧ (∀ j, t.me.xr j = s.me.xr j) ∧ t.mem = s.mem ∧ t.writes = s.writes))) ∧
    (Ready s [a] none → let v := s.sval [] a
      (v &&& 0xFFFFE000FFFF0000#64 ≠ 0 → exec (.rstpm a) s = trap s 42 v) ∧
      (v &&& 0xFFFFE000FFFF0000#64 = 0 →
        ∃ t, exec (.rstpm a) s = .next t ∧ Retires (s.updMyCtx fun x => { x with pmk := v }) t [a] none false 0 false)) ∧
    (Ready s [] (some d) → Yields (.rstpmrd d) s [] d pmk) ∧
    (∀ (ctx cell n : Nat) (x : Sending) (bytes : List (Nat × Nat)),
      s.args.memory = 1 → s.args.ctx = ctx → s.args.cell = cell → s.args.index = n → (s.niOf ctx cell).outgoing[n]? = some x →
      x.record.source = .memory bytes → s.residentIn cell = some ctx → s.cellOut cell = false → (∀ y ∈ bytes, ∃ o, o < 0x60000 ∧ y.1 = cellKey cell o) →
      cell < 1024 →
      let unread := bytes.filter fun y => decide (∀ g ∈ x.got, g.1 ≠ y.1)
      let sector := sectorOf ((unread.map Prod.fst).headD 0)
      let part := unread.filter fun y => decide (sectorOf y.1 = sector) && (!s.args.flag || s.args.cells.contains y.1)
      let dropped := { s.niOf ctx cell with outgoing := (s.niOf ctx cell).outgoing.eraseIdx n }
      let poisoned := s.poisonedFor (.cell cell) sector = true ∧ part ≠ []
      (s.settled ⟨cell, .a⟩ x.record.after 0 = false → exec .copySector s = .next s) ∧
      (s.settled ⟨cell, .a⟩ x.record.after 0 = true →
        (poisoned → 16 ≤ s.niEvents ctx cell → exec .copySector s = .next s) ∧
        (poisoned → s.niEvents ctx cell < 16 →
          ∃ t, exec .copySector s = .next t ∧ t.niOf ctx cell = dropped ∧ t.net = s.net ∧
            (t.coreOf ⟨cell, .a⟩).events =
              (s.coreOf ⟨cell, .a⟩).events ++ [{ cause := 29, tval := BitVec.ofNat 64 ((part.map Prod.snd).headD 0 / 64 * 64) }]) ∧
        (¬ poisoned →
          let got := x.got ++ part.map fun y => (y.1, s.byteFor (.cell cell) y.1)
          ((∃ y ∈ bytes, ∀ g ∈ got, g.1 ≠ y.1) →
            ∃ t, exec .copySector s = .next t ∧ t.niOf ctx cell =
              { s.niOf ctx cell with outgoing := (s.niOf ctx cell).outgoing.set n { record := x.record, round := x.round, got := got } } ∧
              { t with nis := s.nis } = s) ∧
          ((∀ y ∈ bytes, ∃ g ∈ got, g.1 = y.1) →
            ∃ t q out, exec .copySector s = .next t ∧ t.niOf ctx cell = dropped ∧ { t with nis := s.nis, net := s.net } = s ∧
              t.net = s.net ++ [{ packet := q, outbound := out, offered := false }] ∧
              q.payload = (bytes.map fun y => (tfind got y.1).getD 0) ∧ q.pcrc = crc32c q.payload ∧ q.round = x.round ∧
              q.dchip = x.record.packet.dchip ∧ q.addr = x.record.packet.addr ∧ q.ctr = x.record.packet.ctr ∧ q.seq = x.record.packet.seq ∧
              q.type = x.record.packet.type))))

/-- R258, R259, R263: the remote loads. Kind and range (cause 5), alignment (4), a destination that names a queue and a chip behind the
scale-out table (42); then the load waits while all eight tags are in use, while an acquire load of the core is not performed (R321, R322), for RLDADD while
a fence waits (log 77, DEDUCED), and, where it goes to another chip, while a remote load of the same sector there is under way (log 102,
DEDUCED); and else takes the lowest tag, sends its request and retires with
its register waiting for the tag, an access like those before it (R319). RLDADD sends the addend of its register and the cell's next ATAG; it is an atomic (R98, R336), whose causes
are 7 and 6 (log 34, DEDUCED).
R261, R262, R263, R272, R397, R341: CREL and CRELM check kind and range (cause 7), alignment (6), group, COUNT and, for CRELM, a proxy as
the chip or in the group (42; log 87, DEDUCED for the group), while the walk to the group's entry is the host's to make raise it and wait
(log 12, DEDUCED), wait while no release slot is free, and else take the lowest, send the release and answer its number. RCPTW waits for a pending slot; it frees one that is
complete (0), refused (cause 27) or failed (cause 43), and answers 1 for a free one; RCPTTEST reads the state, a member by the lag rule. -/
def Obligations.RemoteLoadsAndReleasesIssue : Prop :=
  (∀ (s : State) (d a : Reg) (esz : BitVec 2) (imm : BitVec 25) (i : Instr) (signed counter : Bool) (add : Option Word),
     (i = .rld d a esz imm ∧ signed = false ∧ counter = decide (esz = 3#2) ∧ add = none ∨
       i = .rlds d a esz imm ∧ signed = true ∧ counter = false ∧ add = none ∨
       i = .rldadd d a esz imm ∧ signed = decide (esz = 2#2) ∧ counter = false ∧ add = some (s.me.xr d.toNat)) →
     badQueue s.cur.core.role [a] (some d) = none → s.scalarReady [a] (if isQueue d then none else some d) = true →
     let ctx := s.myCtxId
     let cell := s.myCell
     let ni := s.niOf ctx cell
     let v := s.sval [] a
     let fa := (v &&& 0xFFFF000000000000#64) ||| ((v + imm.signExtend 64) &&& 0xFFFFFFFFFFFF#64)
     let size := 2 ^ esz.toNat
     let caddr := fa.toNat % 2 ^ 48
     let kind := fa.toNat / 2 ^ 48 % 16
     let reaches := kind = 0 ∧ 0x1000000000 ≤ caddr ∨ kind = 1 ∧ 0x100000000 ≤ caddr ∧ caddr < 0x140000000 ∨
       counter = true ∧ kind = 2 ∧ caddr % 8 = 0 ∧ caddr < 65536
     let proxy := (tfind s.service.proxies (fa.toNat / 2 ^ 52)).isSome
     let follows := fa.extractLsb' 52 12 ≠ s.chip ∧ ∃ e ∈ ni.tags, ni.tagWaits e.1 = true ∧ e.2.fa.toNat / 2 ^ 48 = fa.toNat / 2 ^ 48 ∧
       e.2.fa.toNat % 2 ^ 48 / 64 = caddr / 64
     (¬ reaches → exec i s = trap s (if add.isSome then 7 else 5) fa) ∧
     (reaches → fa.toNat % size ≠ 0 → exec i s = trap s (if add.isSome then 6 else 4) fa) ∧
     (reaches → fa.toNat % size = 0 → isQueue d = true → exec i s = trap s 42 (d.setWidth 64)) ∧
     (reaches → fa.toNat % size = 0 → isQueue d = false →
       (proxy = true → exec i s = trap s 42 fa) ∧
       (proxy = false →
         ((∀ n, n < 8 → (tfind ni.tags n).isSome = true) → exec i s = .next s) ∧
         ((∃ l ∈ s.me.loads, l.acquire = true) ∨ add.isSome = true ∧ s.me.fenceWaits = true ∨ follows → exec i s = .next s) ∧
         (∀ n, n < 8 → tfind ni.tags n = none → (∀ j, j < n → (tfind ni.tags j).isSome = true) →
           (∀ l ∈ s.me.loads, l.acquire = false) → ¬ (add.isSome = true ∧ s.me.fenceWaits = true) → ¬ follows →
           ∃ t q g out, exec i s = .next t ∧ t.net = s.net ++ [{ packet := q, outbound := out, offered := false }] ∧
             (out = true ↔ fa.extractLsb' 52 12 ≠ s.chip) ∧
             q.kind = 1 ∧ q.dchip = fa.extractLsb' 52 12 ∧ q.schip = s.chip ∧ q.addr = fa ∧ q.ltag.toNat = n ∧ q.size = esz ∧ q.round = 0 ∧
             q.fetchAdd = add.isSome ∧ q.data.toNat = (add.getD 0).toNat % 2 ^ (8 * size) ∧
             (let own := s.cellOf cell
              (t.cellOf cell).atag = (if add.isSome then own.atag + 1 else own.atag) ∧ (add.isSome = true → q.atag = own.atag)) ∧
             tfind (t.niOf ctx cell).tags n = some g ∧ (∀ j, j ≠ n → tfind (t.niOf ctx cell).tags j = tfind ni.tags j) ∧
             g.id = s.fresh ∧ g.packet = q ∧ g.dst = (if d = 0 then none else some (.x d.toNat)) ∧ g.signed = signed ∧ g.round = 1 ∧
             g.deadline = s.now + s.timeout ∧ g.cancelled = false ∧
             RetiresFrom { s.setCell cell { s.cellOf cell with atag := (t.cellOf cell).atag } with net := t.net, nis := t.nis, fresh := s.fresh + 1 }
               { s.me with pending := s.me.pending ++ (if d = 0 then [] else [{ reg := .x d.toNat, source := .tag n }]) }
               t [a] none false 0 false)))) ∧
  (∀ (s : State) (d a b c : Reg) (esz : BitVec 2) (ext : BitVec 64) (i : Instr) (srcs : List Reg) (group : Option Word),
     let ctx := s.myCtxId
     let cell := s.myCell
     let ni := s.niOf ctx cell
     let free := fun n => (tget ni.rel {} n).state = .free
     ((i = .crel d a b esz ext ∧ srcs = [a, b] ∧ group = none ∨ i = .crelm d a b c esz ext ∧ srcs = [a, b, c] ∧ group = some (s.sval [a, b] c)) →
       Ready s srcs (some d) →
       let fa := s.sval [] a
       let count := ext.extractLsb' 24 11
       let reaches := fa.toNat / 2 ^ 48 % 16 = 0 ∧ 0x1000000000 ≤ fa.toNat % 2 ^ 48 ∨
         fa.toNat / 2 ^ 48 % 16 = 1 ∧ 0x100000000 ≤ fa.toNat % 2 ^ 48 ∧ fa.toNat % 2 ^ 48 < 0x140000000
       let aligned := fa.toNat % 2 ^ esz.toNat = 0
       let inGroup := ∀ g, group = some g → g.toNat < 1024
       let counts := 1 ≤ count.toNat ∧ count.toNat ≤ 1024
       (¬ reaches → exec i s = trap s 7 fa) ∧ (reaches → ¬ aligned → exec i s = trap s 6 fa) ∧
       (reaches → aligned → (∀ g, group = some g → 1024 ≤ g.toNat → exec i s = trap s 42 g) ∧
         (inGroup → ¬ counts → exec i s = trap s 42 (count.setWidth 64)) ∧
         (inGroup → counts → group ≠ none → (tfind s.service.proxies (fa.toNat / 2 ^ 52)).isSome = true → exec i s = trap s 42 fa) ∧
         (∀ g u, group = some g → g.toNat < 1024 → counts → tfind s.service.proxies (fa.toNat / 2 ^ 52) = none →
           s.groupWait ctx g.toNat = some u → exec i s = .next u) ∧
         (∀ g, group = some g → g.toNat < 1024 → counts → tfind s.service.proxies (fa.toNat / 2 ^ 52) = none → s.groupWait ctx g.toNat = none →
           s.groupProxy ctx g.toNat = true → exec i s = trap s 42 g) ∧
         (inGroup → counts → (∀ g, group = some g → tfind s.service.proxies (fa.toNat / 2 ^ 52) = none ∧ s.groupWait ctx g.toNat = none ∧ s.groupProxy ctx g.toNat = false) →
           ((∀ n, n < 16 → ¬ free n) → exec i s = .next s) ∧
           (∀ n, n < 16 → free n → (∀ j, j < n → ¬ free j) →
             ∃ t q out, exec i s = .next t ∧ t.net = s.net ++ [{ packet := q, outbound := out, offered := false }] ∧
               (out = true ↔ group ≠ none ∨ fa.extractLsb' 52 12 ≠ s.chip) ∧
               q.kind = (if group = none then 4 else 8) ∧
               q.dchip = (match group with | some g => g.setWidth 12 | none => fa.extractLsb' 52 12) ∧
               q.schip = s.chip ∧ q.addr = fa ∧ q.ctr = ext.extractLsb' 51 13 ∧ q.seq = ext.extractLsb' 35 16 ∧ q.bytes = count ∧
               q.rslot.toNat = n ∧ q.fsz = esz ∧ q.fval = s.sval [a] b ∧ q.round = 0 ∧
               (let r := tget (t.niOf ctx cell).rel {} n
                r.state = .pending ∧ r.packet = some q ∧ r.round = 1 ∧ r.deadline = s.now + s.timeout ∧ r.mixing = none) ∧
               (∀ j, j ≠ n → tget (t.niOf ctx cell).rel {} j = tget ni.rel {} j) ∧
               Retires { s with net := t.net, nis := t.nis } t srcs (some (d, BitVec.ofNat 64 n)) false 0 false)))) ∧
     (∀ imm : BitVec 4, Ready s [] (some d) →
       let slot := tget ni.rel {} imm.toNat
       let hidden := s.inGroup = true ∧ slot.state ≠ .free ∧ s.inView slot.quantum = false
       let code : Word := match slot.state with
         | .pending => 0
         | .free => 1
         | .complete => 2
         | .refused _ _ => 3
         | .failed => 4
       let freed := fun u : State => (tget (u.niOf ctx cell).rel {} imm.toNat).state = .free ∧
         (∀ j, j ≠ imm.toNat → tget (u.niOf ctx cell).rel {} j = tget ni.rel {} j) ∧ { u with nis := s.nis } = s
       (slot.state = .pending → exec (.rcptw d imm) s = .next s) ∧
       (slot.state = .free → Yields (.rcptw d imm) s [] d 1) ∧
       (slot.state = .complete → ∃ t u, exec (.rcptw d imm) s = .next t ∧ freed u ∧ Retires u t [] (some (d, 0)) false 0 false) ∧
       (∀ reason raddr, slot.state = .refused reason raddr → ∃ u, freed u ∧ exec (.rcptw d imm) s = trap u 27 raddr) ∧
       (slot.state = .failed → ∃ u, freed u ∧ exec (.rcptw d imm) s = trap u 43 (BitVec.ofNat 64 imm.toNat)) ∧
       (¬ hidden → Yields (.rcpttest d imm) s [] d code) ∧ (hidden → Yields (.rcpttest d imm) s [] d 0)))

/-- R301, R303 to R307: the mixing instructions on a block. A number that names no registered block of the context traps with cause 44,
reason 1. Each waits while a retired acquire load is not performed (R322, R326, R402). R295, R303, R304: an element is a signed 64-bit integer in the
bytes of the block's kept pages; the increment of an element is the exact product rounded to the nearest integer, ties to even, and the value of
one is the exact ratio rounded to the format, the canonical NaN with NV where the mass is 0. MIXADD adds the increments of its FP32 elements, with
cause 5, 29 (log 66, DEDUCED) and 32 for what it cannot read or hold; MIXRD writes the rounded values of the elements; MIXST reads a piece
of the block's state; MIXSTEP starts an exchange with the entry that b names, or with the first valid one from NEXT on, and its bytes count
in the current interval (State.spend; log 35, DEDUCED), once the interface of the registering cell has a release slot and room for the send
records of the exchange; MIXWAIT waits while an exchange is outstanding. -/
def Obligations.MixingInstructions : Prop :=
  (∀ (neg : Bool) (m : Nat) (e : Int), let r := rneInt neg m e
    let n := if neg then -(m : Int) else m
    (0 ≤ e → r = (n * 2 ^ e.toNat, false)) ∧
    (e < 0 → let q : Int := 2 ^ (-e).toNat
      2 * (r.1 * q - n) ≤ q ∧ -q ≤ 2 * (r.1 * q - n) ∧ (2 * (r.1 * q - n) = q ∨ 2 * (r.1 * q - n) = -q → r.1 % 2 = 0) ∧
        (r.2 = true ↔ r.1 * q ≠ n))) ∧
  (∀ (k : Block) (neg : Bool) (m : Nat) (e : Int), mixIncrement k (.num neg m e) = rneInt neg (m * k.m) (e - 48 - k.e)) ∧
  (∀ (k : Block) (f : Fmt) (canon : Nat) (x : Int), (k.m = 0 → mixValue k f canon x = { code := canon, flags := flagNV }) ∧
    (k.m ≠ 0 → ∃ m : Nat, mixValue k f canon x = round (.num (decide (x < 0)) m (48 + k.e - 401)) f (plainChoice .rne) ∧
      (let p := x.natAbs * 2 ^ 401
       m * k.m = p ∨ m % 2 = 1 ∧ (m - 1) * k.m < p ∧ p < (m + 1) * k.m))) ∧
  (∀ (s : State) (k : Block) (xs : List Int),
    let place := fun j : Nat => k.xpages.getD ((k.xoff + j) / 4096) 0 + (k.xoff + j) % 4096
    (s.elems k).length = k.n ∧
    (∀ i, i < k.n → (∀ j, j < 8 → s.poisonedLast (sectorOf (place (8 * i + j))) = false ∧ s.keyOut (place (8 * i + j)) = false) →
      (s.elems k)[i]? = some (BitVec.ofNat 64 (bytesToNat ((List.range 8).map fun j => s.byteLast (place (8 * i + j))))).toInt) ∧
    (xs.length = k.n → (∀ i j, i < 8 * k.n → j < 8 * k.n → place i = place j → i = j) →
      (∀ i x j, xs[i]? = some x → j < 8 →
        (s.putElems k xs).byteLast (place (8 * i + j)) = BitVec.ofNat 8 ((BitVec.ofInt 64 x).toNat / 2 ^ (8 * j))) ∧
      ∀ y, (∀ j, j < 8 * k.n → place j ≠ y) → (s.putElems k xs).byteLast y = s.byteLast y)) ∧
  (∀ (s : State) (k : Block), s.mixRoom k = true ↔
    (∃ n, n < 16 ∧ (tget (s.niOf k.ctx k.cell).rel {} n).state = .free) ∧ s.recordsIn k.cell + (1 + (8 * k.n + 255) / 256) ≤ 4096) ∧
  ∀ (s : State) (d a b : Reg) (esz : BitVec 2) (cx : Context), s.context s.myCtxId = some cx →
    let cell := s.myCell
    let v := s.sval [] a
    let w := s.sval [a] b
    let key := cx.mbbase + v.toNat
    let bad := fun (i : Instr) => exec i s = trap s 44 (BitVec.ofNat 64 (1 + 256 * (v.toNat % 65536)))
    let early := ∃ l ∈ s.me.loads, l.acquire = true
    (early → (Ready s [a, b] (some d) → exec (.mixadd d a b) s = .next s ∧ exec (.mixrd d a b esz) s = .next s ∧
        exec (.mixst d a b) s = .next s ∧ exec (.mixstep d a b) s = .next s) ∧
      (Ready s [a] (some d) → exec (.mixwait d a) s = .next s)) ∧
    (¬ early → ¬ (v.toNat < 4096 ∧ v.toNat < cx.mblimit ∧ ∃ k, tfind s.blocks key = some k ∧ k.ctx = s.myCtxId) →
      (Ready s [a, b] (some d) → bad (.mixadd d a b) ∧ bad (.mixrd d a b esz) ∧ bad (.mixst d a b) ∧ bad (.mixstep d a b)) ∧
      (Ready s [a] (some d) → bad (.mixwait d a))) ∧
    (∀ k, ¬ early → v.toNat < 4096 → v.toNat < cx.mblimit → tfind s.blocks key = some k → k.ctx = s.myCtxId →
      (Ready s [a] (some d) →
        (k.out ≠ none → exec (.mixwait d a) s = .next s) ∧ (k.out = none → Yields (.mixwait d a) s [a] d (BitVec.ofNat 64 k.last))) ∧
      (Ready s [a, b] (some d) →
        -- MIXST
        (w = 0 → Yields (.mixst d a b) s [a, b] d (BitVec.ofNat 64 k.m)) ∧ (w = 1 → Yields (.mixst d a b) s [a, b] d (k.dis.setWidth 64)) ∧
        (w = 2 → Yields (.mixst d a b) s [a, b] d (k.ddec.setWidth 64)) ∧ (w = 3 → Yields (.mixst d a b) s [a, b] d k.exch) ∧
        (w = 4 → Yields (.mixst d a b) s [a, b] d (BitVec.ofNat 64
          (k.next + (if k.out = none then 0 else 16) + 32 * k.target + (if k.auto then 512 else 0) + 1024 * k.last))) ∧
        (w = 5 → Yields (.mixst d a b) s [a, b] d (BitVec.ofInt 64 k.e)) ∧ (w = 6 → Yields (.mixst d a b) s [a, b] d k.fails) ∧
        (7 ≤ w.toNat → exec (.mixst d a b) s = trap s 44 3) ∧
        -- MIXADD
        (let off := w.toNat
         let f := fun j => fp (BitVec.ofNat 32 (s.natFor (.cell cell) (span (cellKey cell (off + 4 * j)) 4)))
         let incs := (List.range k.n).map fun j => mixIncrement k (f j)
         let sums := List.zipWith (fun x (i : Int × Bool) => x + i.1) (s.elems k) incs
         let range := off % 4 = 0 ∧ off + 4 * k.n ≤ 0x60000
         let clean := ∀ x ∈ span (cellKey cell off) (4 * k.n), s.poisonedFor (.cell cell) (sectorOf x) = false
         let number := fun j => (f j).isNan = false ∧ (f j).isInf = false
         let fits := fun j => ∀ x h, sums[j]? = some x → k.half[j]? = some h → fitsElem x = true ∧ fitsElem (x + h) = true
         let i : Instr := .mixadd d a b
         (¬ range → exec i s = trap s 5 w) ∧
         (range → s.rangeQuiet off (4 * k.n) = false → exec i s = .next s) ∧
         (range → s.rangeQuiet off (4 * k.n) = true → ¬ clean → exec i s = trap s 29 w) ∧
         (range → s.rangeQuiet off (4 * k.n) = true → clean →
           (∀ j, j < k.n → ¬ number j → (∀ m, m < j → number m) → exec i s = trap s 32 (BitVec.ofNat 64 j)) ∧
           ((∀ j, j < k.n → number j) →
             (∀ j, ¬ fits j → (∀ m, m < j → fits m) → exec i s = trap s 32 (BitVec.ofNat 64 j)) ∧
             ((∀ j, fits j) →
               let inexact := (incs.filter (·.2)).length
               ∃ t, exec i s = .next t ∧
                 RetiresFrom { s with mem := t.mem, writes := t.writes, poison := t.poison, blocks := t.blocks }
                   (if 0 < inexact then s.me.raise flagNX else s.me) t [a, b] (some (d, BitVec.ofNat 64 inexact)) false 0 false ∧
                 t.mem = (s.putElems k sums).mem ∧ t.writes = (s.putElems k sums).writes ∧ t.poison = (s.putElems k sums).poison ∧
                 tfind t.blocks key = some k ∧ ∀ j, j ≠ key → tfind t.blocks j = tfind s.blocks j)))) ∧
        -- MIXRD
        (let off := w.toNat
         let width := if esz = 1#2 then 2 else 4
         let r := fun x => mixValue k (if esz = 1#2 then (fmtOf 2).getD fp32 else fp32) (if esz = 1#2 then 0x7FC0 else 0x7FC00000) x
         let range := off % width = 0 ∧ off + width * k.n ≤ 0x60000
         let i : Instr := .mixrd d a b esz
         (¬ range → exec i s = trap s 7 w) ∧
         (range → esz ≠ 1#2 → esz ≠ 2#2 → exec i s = trap s 24 (s.cur.word.setWidth 64)) ∧
         (range → esz = 1#2 ∨ esz = 2#2 →
           (s.rangeQuiet off (width * k.n) = false → exec i s = .next s) ∧
           (s.rangeQuiet off (width * k.n) = true → (∃ x ∈ span (cellKey cell off) (width * k.n), s.poisonHere x = true ∧
             ∃ y, sectorOf y = sectorOf x ∧ y ∉ span (cellKey cell off) (width * k.n)) → exec i s = trap s 29 w) ∧
           (s.rangeQuiet off (width * k.n) = true → (∀ x ∈ span (cellKey cell off) (width * k.n), s.poisonHere x = false) → 0 < k.n →
             (∀ v ∈ s.writes, v.scope < v.top) →
             ∃ t, exec i s = .next t ∧
               RetiresFrom { s with writes := t.writes, fresh := t.fresh, poison := t.poison }
                 (s.me.raise (((s.elems k).map r).foldl (fun g y => g ||| y.flags) 0)) t [a, b] (some (d, BitVec.ofNat 64 k.n)) false 0 false ∧
               (∀ j x, (s.elems k)[j]? = some x →
                 t.natFor (.cell cell) (span (cellKey cell (off + width * j)) width) = (r x).code % 2 ^ (8 * width)) ∧
               ∀ y, y ∉ span (cellKey cell off) (width * k.n) → ∀ u, t.byteFor u y = s.byteFor u y))) ∧
        -- MIXSTEP
        (let i : Instr := .mixstep d a b
         let starts := fun (k1 : Block) (n : Nat) =>
           (k.out ≠ none ∨ s.mixRoom k = false → exec i s = .next s) ∧
           (k.out = none → s.mixRoom k = true →
             exec i s = .next (((s.spend k1).startExchange key k1 n (if s.inGroup then some (s.quantumOf s.myCtxId) else none)).finish
               [a, b] d (BitVec.ofNat 64 n)))
         let valid := fun n => (k.entry (n % 16)).getLsbD 63 = true
         (16 < w.toNat → exec i s = trap s 44 3) ∧
         (∀ n, w.toNat = n + 1 → n < 16 → ((k.entry n).getLsbD 63 = false → exec i s = trap s 44 5) ∧
           ((k.entry n).getLsbD 63 = true → starts k n)) ∧
         (w = 0 → ((∀ n, n < 16 → ¬ valid (k.next + n)) → exec i s = trap s 44 5) ∧
           (∀ n, n < 16 → valid (k.next + n) → (∀ m, m < n → ¬ valid (k.next + m)) →
             starts { k with next := ((k.next + n) % 16 + 1) % 16 } ((k.next + n) % 16))))))

/-- R306, R309, R310, R311, R312: what an exchange does. Starting one halves the mass and takes floor(x / 2) from every element, in one update,
and sends the half: W counted writes under the entry's counter and next sequence number, the first with the header, then a release at the
doorbell through a slot of the interface. Ending one with LAST 0 drops the half; any other outcome adds it back; where the engine of the block's cluster or memory that the block keeps is
switched off, nothing changes (R15; for memory log 79, DESIGN CHOICE). Absorbing one refuses a
header that does not fit the block (reason 14) and a sum that does not fit its elements or mass (15; each sum alone and with the block's own
registered half, log 88, DEDUCED), and else adds the half; where both masses are non-zero, DIS becomes the FP32 rounding of the greatest
difference of the two ratios, and DDEC follows it. What an engine reads of a poisoned sector is a value of its own (log 37, DESIGN CHOICE). -/
def Obligations.ExchangesMoveHalves : Prop :=
  (∀ (s : State) (key n slot : Nat) (b : Block) (forked : Option Nat), (s.niOf b.ctx b.cell).freeSlot = some slot →
    let t := s.startExchange key b n forked
    let e := b.entry n
    let q := tget b.seqs 0 n
    let writes := 1 + (8 * b.n + 255) / 256
    let item := fun p : Packet => ({ packet := p, outbound := decide (p.dchip ≠ s.chip), offered := false } : NetItem)
    (∃ b', tfind t.blocks key = some b' ∧ b'.m + b.m / 2 = b.m ∧ b'.target = n ∧
      b'.out = some { half := (s.elems b).map fun x => x.fdiv 2, mass := b.m / 2, entry := n, chip := e.extractLsb' 0 12, slot := slot, forked := forked } ∧
      tget b'.seqs 0 n = q + BitVec.ofNat 16 writes ∧ (∀ j, j ≠ n → tget b'.seqs 0 j = tget b.seqs 0 j) ∧
      { b' with m := b.m, target := b.target, out := b.out, seqs := b.seqs } = b) ∧
    t.mem = (s.putElems b ((s.elems b).map fun x => x - x.fdiv 2)).mem ∧
    (∃ (ps : List Packet) (rel : Packet), t.net = s.net ++ ps.map item ++ [item rel] ∧ ps.length = writes ∧
      (∀ i p, ps[i]? = some p → p.kind = 0 ∧ p.dchip = e.extractLsb' 0 12 ∧ p.dcell = e.extractLsb' 24 10 ∧ p.ctr = e.extractLsb' 50 13 ∧
        p.seq = q + BitVec.ofNat 16 i ∧ p.schip = s.chip ∧ p.pcrc = crc32c p.payload) ∧
      (∀ p, ps[0]? = some p → p.payload.length = 64 ∧ bytesToNat (p.payload.take 8) = b.m / 2 % 2 ^ 64 ∧
        bytesToNat ((p.payload.drop 16).take 4) = b.n % 2 ^ 32) ∧
      rel.kind = 4 ∧ rel.dchip = e.extractLsb' 0 12 ∧ rel.ctr = e.extractLsb' 50 13 ∧ rel.seq = q ∧ rel.bytes = BitVec.ofNat 11 writes ∧
      rel.fval = b.exch ∧ rel.rslot = BitVec.ofNat 4 slot ∧ rel.addr.toNat % 2 ^ 32 = 0xFFFFFFF8 ∧
      (tget (t.niOf b.ctx b.cell).rel {} slot).state = .pending ∧ (tget (t.niOf b.ctx b.cell).rel {} slot).packet = some rel ∧
      (tget (t.niOf b.ctx b.cell).rel {} slot).mixing = some key)) ∧
  (∀ (s : State) (b : Block), s.blockOut b = true ↔
    (1, b.cell / 16) ∈ s.service.fenced ∨ ∃ page, (page ∈ b.xpages ∨ page ∈ b.spages) ∧ s.keyOut page = true) ∧
  (∀ (s : State) (key last : Nat) (b : Block), tfind s.blocks key = some b → s.blockOut b = true → s.endExchange key last = s) ∧
  (∀ (s : State) (key last : Nat) (b : Block) (x : Exchange), tfind s.blocks key = some b → b.out = some x → s.blockOut b = false →
    let t := s.endExchange key last
    (tget (t.niOf b.ctx b.cell).rel {} x.slot).state = .free ∧ (∀ j, j ≠ key → tfind t.blocks j = tfind s.blocks j) ∧
    (last = 0 → tfind t.blocks key = some { b with out := none, exch := b.exch + 1, last := 0 } ∧ t.mem = s.mem ∧ t.writes = s.writes) ∧
    (last ≠ 0 → tfind t.blocks key = some { b with out := none, m := b.m + x.mass, fails := b.fails + 1, last := last } ∧
      t.mem = (s.putElems b (List.zipWith (· + ·) (s.elems b) x.half)).mem)) ∧
  (∀ (s : State) (key slot : Nat) (b : Block),
    let base := slot * slotBytes b.n
    let field := fun off len => s.pagedNat b.spages b.soff (base + off) len
    let fits := (BitVec.ofNat 8 (field 8 1)).toInt = b.e ∧ field 16 4 = b.n
    let h := (List.range b.n).map fun i => (BitVec.ofNat 64 (field (64 + 8 * i) 8)).toInt
    let sums := List.zipWith (· + ·) (s.elems b) h
    let holds := (∀ (j : Nat) (x own : Int), sums[j]? = some x → b.half[j]? = some own → fitsElem x = true ∧ fitsElem (x + own) = true) ∧
      b.m + field 0 8 + b.halfMass < 2 ^ 64
    let mh := field 0 8
    let apart := fun j => (List.zipWith (fun (x y : Int) => (x * mh - y * b.m).natAbs) (s.elems b) h)[j]?
    (¬ fits → s.absorb key b slot = .error 14) ∧ (fits → ¬ holds → s.absorb key b slot = .error 15) ∧
    (fits → holds → ∃ t b', s.absorb key b slot = .ok t ∧ t.mem = (s.putElems b sums).mem ∧ tfind t.blocks key = some b' ∧
      b'.m = b.m + field 0 8 ∧ b'.exch = b.exch + 1 ∧ { b' with m := b.m, exch := b.exch, dis := b.dis, ddec := b.ddec } = b ∧
      (b.m = 0 ∨ mh = 0 → b'.dis = b.dis ∧ b'.ddec = b.ddec) ∧
      (b.m ≠ 0 → mh ≠ 0 → ∀ top : Nat, (∀ (j : Nat) v, apart j = some v → v ≤ top) → (∃ j, apart j = some top) →
        (∃ m : Nat, b'.dis = BitVec.ofNat 32 (round (.num false m (48 + b.e - 401)) fp32 (plainChoice .rne)).code ∧
          (let q := b.m * mh
           let p := top * 2 ^ 401
           m * q = p ∨ m % 2 = 1 ∧ (m - 1) * q < p ∧ p < (m + 1) * q)) ∧
        (b.ddec = 0x7F800000#32 → b'.ddec = b'.dis) ∧
        (b.ddec ≠ 0x7F800000#32 → b'.dis ≠ 0x7F800000#32 → b'.ddec = BitVec.ofNat 32
          (round (mulFin (addFin (mulFin (ofInt 7) (fp b.ddec)) (fp b'.dis)) (ofUnits 1 (-3))) fp32 (plainChoice .rne)).code))))

/-- R297, R298, R301, R302, R308, R313: registering and control of a block. MIXREG with every check passed registers the block that its record
describes and answers 0; what its record says wrongly traps with cause 44, reasons 3 and 2; the first page whose translation fails traps
with cause 13 in the element range and 15 in the staging area (log 76, DEDUCED), and one without a right with 5 or 7; poison under its
record traps with cause 29 (log 66, DEDUCED). AUTO, SHARE and NBRSET are read from the word of MIXCTL (logs 21, DEDUCED, and 22, DESIGN
CHOICE). DEREG drops a block without an exchange and
answers its mass; AUTO, SHARE and NBRSET replace the switch, the share and an entry, and answer the old one.
R313, R15: every 1024 cycles an engine, unless its cluster is switched off, goes through the blocks of a context in ascending number from the one
after the block last served. One with AUTO, without an exchange, with a valid entry and with room at its cell starts an exchange to the entry that
MIXSTEP would choose, if it fits in what remains of SHARE × 256 bytes, or as the first of the interval; where one does not fit, nothing more
starts, and the next interval begins at that block, as its first exchange. What MIXSTEP spent since the last interval counts (log 35, DEDUCED). With
SHARE 0 nothing starts. -/
def Obligations.BlockRegistryAndControl : Prop :=
  (∀ (s : State) (d a : Reg) (cx : Context), s.context s.myCtxId = some cx → Ready s [a] (some d) →
    let cell := s.myCell
    let off := s.sval [] a
    let r := mixRecord (s.natFor (.cell cell) (span (cellKey cell off.toNat) 64))
    let key := cx.mbbase + r.blk
    let i : Instr := .mixreg d a
    let xs := pageStarts r.xbase (8 * r.n)
    let ss := pageStarts r.sbase (r.nslot * slotBytes r.n)
    (¬ (off.toNat % 64 = 0 ∧ off.toNat + 64 ≤ 0x60000) → exec i s = trap s 5 off) ∧
    (off.toNat % 64 = 0 → off.toNat + 64 ≤ 0x60000 → s.allSettled 2 = false → exec i s = .next s) ∧
    (off.toNat % 64 = 0 → off.toNat + 64 ≤ 0x60000 → s.allSettled 2 = true →
      s.poisonedFor (.cell cell) (sectorOf (cellKey cell off.toNat)) = true → exec i s = trap s 29 off) ∧
    (off.toNat % 64 = 0 → off.toNat + 64 ≤ 0x60000 → s.allSettled 2 = true →
      s.poisonedFor (.cell cell) (sectorOf (cellKey cell off.toNat)) = false →
      (r.ncnt = 0 ∨ r.nbase % 8 = 0 ∧ r.nbase + 8 * r.ncnt ≤ 0x60000 ∧
        ∀ x ∈ span (cellKey cell r.nbase) (8 * r.ncnt), s.poisonedFor (.cell cell) (sectorOf x) = false) →
      (r.ok cx.mblimit = false → exec i s = trap s 44 3) ∧
      (r.ok cx.mblimit = true → ∀ va : Nat, let trans := s.transFor s.cur.core s.myCtxId
        let may := fun u => (∃ e l, trans u = .leaf e l ∧ s.reaches e l u .load = true)
        let passed := fun u => inTranslated u = false ∨ may u ∧ ∃ e l, trans u = .leaf e l ∧ e.getLsbD 2 = true
        let stops := fun failed : Nat =>
          (trans va = .fail → exec i s = trap s failed (BitVec.ofNat 64 va)) ∧
          (∀ e l, trans va = .leaf e l → (¬ may va → exec i s = trap s 5 (BitVec.ofNat 64 va)) ∧
            (may va → e.getLsbD 2 = false → exec i s = trap s 7 (BitVec.ofNat 64 va)))
        inTranslated va = true →
        (∀ us vs, xs = us ++ va :: vs → (∀ u ∈ us, passed u) → stops 13) ∧
        (∀ us vs, (∀ u ∈ xs, passed u) → ss = us ++ va :: vs → (∀ u ∈ us, passed u) → stops 15)) ∧
      (r.ok cx.mblimit = true → s.mixPageStop .load xs = none → s.mixPageStop .store ss = none →
        (tfind s.blocks key ≠ none → exec i s = trap s 44 2) ∧
        (tfind s.blocks key = none → s.blocks.length < 4096 → s.mixPagesOk xs (r.xbase + 8 * r.n - 1) = true →
          s.mixPagesOk ss (r.sbase + r.nslot * slotBytes r.n - 1) = true → s.mixPoison (s.keptPages xs) r.xbase r.n = none →
          ∃ t k, exec i s = .next t ∧ tfind t.blocks key = some k ∧ k.ctx = s.myCtxId ∧ k.cell = cell ∧ k.num = r.blk ∧ k.e = r.e ∧ k.n = r.n ∧
            k.nslot = r.nslot ∧ k.m = r.m0 ∧ k.auto = r.auto ∧ k.out = none ∧ k.exch = 0 ∧ k.fails = 0 ∧ k.next = 0 ∧
            k.dis = 0x7F800000#32 ∧ k.ddec = 0x7F800000#32 ∧
            (∀ j, j < r.ncnt → k.entry j = BitVec.ofNat 64 (s.natFor (.cell cell) (span (cellKey cell (r.nbase + 8 * j)) 8))) ∧
            (∀ j, r.ncnt ≤ j → k.entry j = 0) ∧
            Retires { s with blocks := t.blocks } t [a] (some (d, 0)) false 0 false ∧ ∀ j, j ≠ key → tfind t.blocks j = tfind s.blocks j)))) ∧
  (∀ (s : State) (cx : Context) (k : Block) (i : Instr) (d a b c : Reg) (op : Nat), s.context s.myCtxId = some cx →
    (i = .dereg d a b c ∧ op = 0 ∨
      ((Raw.ofWord s.cur.word).d = d ∧ (Raw.ofWord s.cur.word).a = a ∧ (Raw.ofWord s.cur.word).b = b ∧ (Raw.ofWord s.cur.word).c = c) ∧
        (i = .auto ∧ op = 1 ∨ i = .share ∧ op = 2 ∨ i = .nbrset ∧ op = 3)) →
    Ready s [a, b, c] (some d) → ((∃ l ∈ s.me.loads, l.acquire = true) → exec i s = .next s) ∧
    ((∀ l ∈ s.me.loads, l.acquire = false) →
    let blk := (s.sval [] a).toNat
    let v := s.sval [a] b
    let key := cx.mbbase + blk
    blk < 4096 → blk < cx.mblimit → tfind s.blocks key = some k → k.ctx = s.myCtxId →
    (65536 ≤ v.toNat → exec i s = trap s 44 3) ∧ (v.toNat < 65536 → 4 ≤ v.toNat % 16 → exec i s = trap s 44 6) ∧
    (v.toNat < 65536 → v.toNat % 16 = op →
      let named := fun mask : Word => v &&& ~~~ mask = 0
      let becomes := fun (k' : Block) (old : Word) => ∃ t, exec i s = .next t ∧ tfind t.blocks key = some k' ∧
        (∀ j, j ≠ key → tfind t.blocks j = tfind s.blocks j) ∧ Retires { s with blocks := t.blocks } t [a, b, c] (some (d, old)) false 0 false
      (op = 0 → (¬ named 0xF#64 → exec i s = trap s 44 3) ∧ (named 0xF#64 →
        (k.out ≠ none → exec i s = .next s) ∧
        (k.out = none → ∃ t, exec i s = .next t ∧ tfind t.blocks key = none ∧ (∀ j, j ≠ key → tfind t.blocks j = tfind s.blocks j) ∧
          Retires { s with blocks := t.blocks } t [a, b, c] (some (d, BitVec.ofNat 64 k.m)) false 0 false))) ∧
      (op = 1 → (¬ named 0x10F#64 → exec i s = trap s 44 3) ∧
        (named 0x10F#64 → becomes { k with auto := v.getLsbD 8 } (if k.auto then 1 else 0))) ∧
      (op = 2 → (¬ named 0xFF0F#64 → exec i s = trap s 44 3) ∧
        (named 0xFF0F#64 → ∃ t, exec i s = .next t ∧ t.share k.ctx (k.cell / 16) = v.toNat / 256 ∧ t.blocks = s.blocks ∧
          Retires { s with shares := t.shares } t [a, b, c] (some (d, BitVec.ofNat 64 (s.share k.ctx (k.cell / 16)))) false 0 false)) ∧
      (op = 3 → (¬ named 0xFF#64 → exec i s = trap s 44 3) ∧
        (named 0xFF#64 → let n := v.toNat / 16
          becomes { k with nbr := tset k.nbr n (s.sval [a, b] c), seqs := tset k.seqs n 0 } (k.entry n)))))) ∧
  (∀ s : State,
    let key := mixKey s.args.ctx s.args.cluster
    (s.unitOut 1 s.args.cluster = true ∨ s.now < tget s.mixTime 0 key + 1024 → exec .mixInterval s = .next s) ∧
    (s.unitOut 1 s.args.cluster = false → tget s.mixTime 0 key + 1024 ≤ s.now →
      (s.share s.args.ctx s.args.cluster = 0 →
        exec .mixInterval s = .next { s with mixTime := tset s.mixTime key s.now, mixUsed := tset s.mixUsed key 0 }) ∧
      (0 < s.share s.args.ctx s.args.cluster → ∀ (base : Nat) (order : List (Nat × Nat)),
        (s.blocks.map Prod.fst).Pairwise (· < ·) → (∀ e ∈ s.blocks, e.2.ctx = s.args.ctx → e.1 = base + e.2.num) →
        let first := tget s.mixNext 0 key
        (∀ p, p ∈ order ↔ ∃ b, (p.2, b) ∈ s.blocks ∧ b.ctx = s.args.ctx ∧ b.cell / 16 = s.args.cluster ∧ b.num = p.1) →
        order.Pairwise (fun x y => first ≤ x.1 ∧ y.1 < first ∨ (first ≤ x.1 ↔ first ≤ y.1) ∧ x.1 < y.1) →
        let serve := fun (acc : State × Bool × Bool) (p : Nat × Nat) =>
          match acc, tfind acc.1.blocks p.2 with
          | (u, started, stopped), some b =>
            match (List.range 16).find? fun i => (b.entry ((b.next + i) % 16)).getLsbD 63 with
            | some i =>
              if stopped = true ∨ b.auto = false ∨ b.out.isSome = true ∨ u.mixRoom b = false then acc
              else if started = true ∧ ¬ (key ∈ s.mixLate ∧ p.1 = first) ∧
                  256 * u.share s.args.ctx s.args.cluster < tget u.mixUsed 0 key + (64 + 8 * b.n) then
                ({ u with mixNext := tset u.mixNext key p.1, mixLate := key :: u.mixLate }, started, true)
              else
                let n := (b.next + i) % 16
                let b' := { b with next := (n + 1) % 16 }
                let u' := (u.spend b').startExchange p.2 b' n none
                ({ u' with mixNext := tset u'.mixNext key (p.1 + 1) }, true, false)
            | none => acc
          | _, none => acc
        let u := (order.foldl serve ({ s with mixLate := s.mixLate.filter fun k => decide (k ≠ key) }, decide (0 < tget s.mixUsed 0 key), false)).1
        exec .mixInterval s = .next { u with mixTime := tset u.mixTime key s.now, mixUsed := tset u.mixUsed key 0 }))) ∧
  (∀ (s : State) (b : Block), let key := mixKey b.ctx (b.cell / 16)
    (s.spend b).mixUsed = tset s.mixUsed key (tget s.mixUsed 0 key + (64 + 8 * b.n)) ∧ { s.spend b with mixUsed := s.mixUsed } = s)

/-- R345, R352 to R356, R341: the message instructions. Outside a firing, or in trap mode, MSEND, MPOP, MLAUNCH and FEND trap with cause
47, reason 4, before their operands are ready (log 61, DEDUCED). MSEND with its checks passed puts the 48 bytes of its payload under the header of R345 (its context, its chip, cell and role as the sender, ORIGIN 0, the
destination's cell and channel, its launch and the tag) into the send buffer, uses one of the
firing's reserved entries and counts a message of its launch in flight; poison under its payload traps with cause 29 (log 66, DEDUCED); MPOP answers the control-page address of the next consumed message,
or 0; MLEN the length of a channel's line, a member of a deterministic one as the view has it; FEND frees the firing's slots, ends its chain and its region, and retires. -/
def Obligations.MessageInstructions : Prop :=
  ∀ (s : State) (d a b c : Reg), let k := s.me
    let cell := s.myCell
    let reason := fun (i : Instr) (n : Nat) => exec i s = trap s 47 (BitVec.ofNat 64 n)
    (k.trapMode = true ∨ k.firing = none →
      reason .fend 4 ∧ (badQueue s.cur.core.role [a, b, c] none = none → reason (.msend a b c) 4) ∧
      (badQueue s.cur.core.role [] (some d) = none → reason (.mpop d) 4) ∧
      (badQueue s.cur.core.role [b] (some d) = none → reason (.mlaunch d b) 4)) ∧
    (∀ f, k.trapMode = false → k.firing = some f →
      (Ready s [] (some d) →
        (f.slots.length ≤ f.popped → Yields (.mpop d) s [] d 0) ∧
        (∀ n, f.slots[f.popped]? = some n → ∃ t, exec (.mpop d) s = .next t ∧
          RetiresFrom s { k with firing := some { f with popped := f.popped + 1 } } t []
            (some (d, BitVec.ofNat 64 (0x104000 + 64 * n))) false 0 false)) ∧
      (Ready s [a, b, c] none →
        let fa := s.sval [] a
        let off := (s.sval [a] b).toNat
        let dcell := fa.toNat % 2 ^ 48 / 64
        let ch := fa.toNat % 64
        let i : Instr := .msend a b c
        let here := fa.toNat / 2 ^ 48 % 16 = 3 ∧ fa.extractLsb' 52 12 = s.chip ∧ fa.toNat % 2 ^ 48 < 65536
        let inside := off % 16 = 0 ∧ off + 48 ≤ 0x60000
        let keys := span (cellKey cell off) 48
        (¬ here → reason i 1) ∧
        (here → off % 16 ≠ 0 → exec i s = trap s 4 (BitVec.ofNat 64 off)) ∧
        (here → off % 16 = 0 → 0x60000 < off + 48 → exec i s = trap s 5 (BitVec.ofNat 64 off)) ∧
        (here → inside → s.held s.myCtxId dcell = none → exec i s = trap s 27 fa) ∧
        (∀ x, here → inside → s.held s.myCtxId dcell = some x → let ctl := (tget x.pigeons {} ch).ctl
          (ctl.getLsbD 63 = false → reason i 2) ∧ (ctl.getLsbD 63 = true → f.produce = 0 → reason i 3) ∧
          (ctl.getLsbD 63 = true → 0 < f.produce →
            ((∃ y ∈ keys, s.mayRead (sectorOf y) = false) → exec i s = .next s) ∧
            ((∀ y ∈ keys, s.mayRead (sectorOf y) = true) → (∃ y ∈ keys, s.poisonHere y = true) → exec i s = trap s 29 (BitVec.ofNat 64 off)) ∧
            ((∀ y ∈ keys, s.mayRead (sectorOf y) = true) → (∀ y ∈ keys, s.poisonHere y = false) → s.myCtxId < 65536 → cell < 1024 → f.lid < 65536 →
              ∃ t e, exec i s = .next t ∧
                (let u : State := { (s.noteRead s.cur.core s.fresh keys).bump with launches := t.launches }
                 RetiresFrom u { u.me with sendBuffer := k.sendBuffer ++ [e], firing := some { f with produce := f.produce - 1 } }
                   t [a, b, c] none false 0 false) ∧
                e.msg.body.toNat / 2 ^ 128 = bytesToNat (s.loadBytes s.cur.core s.fresh keys) ∧ e.msg.ctx = s.myCtxId ∧ e.msg.cell = dcell ∧
                e.msg.ch = ch ∧ e.msg.lid = f.lid ∧ e.msg.body.toNat / 2 ^ 100 % 2 ^ 12 = s.chip.toNat ∧ e.msg.body.toNat / 2 ^ 90 % 2 ^ 10 = cell ∧
                e.msg.body.toNat / 2 ^ 88 % 4 = roleCode s.cur.core.role ∧ e.msg.body.toNat / 2 ^ 86 % 4 = 0 ∧ e.msg.body.toNat / 2 ^ 64 % 2 ^ 6 = 0 ∧
                e.msg.body.toNat / 2 ^ 32 % 2 ^ 16 = 0 ∧ e.num = s.fresh ∧
                e.after = ((s.noteRead s.cur.core s.fresh keys).bump).past s.cur.core ∧ e.msg.body.toNat % 2 ^ 32 = (s.sval [a, b] c).toNat % 2 ^ 32 ∧
                (∀ l, tfind s.launches f.lid = some l → tfind t.launches f.lid = some { l with inflight := l.inflight + 1 }) ∧
                ∀ n, n ≠ f.lid → tfind t.launches n = tfind s.launches n)))) ∧
      (s.cur.core.role ≠ .s → s.myCtx.poste = [] →
        ∃ t, exec .fend s = .next t ∧ t.me.firing = none ∧ t.me.running = false ∧ t.me.c0 = 0 ∧ t.me.c1 = 0 ∧ t.me.c2 = 0 ∧ t.me.s1 = false ∧ t.me.s2 = false ∧
          t.me.n0 = false ∧ t.me.n1 = false ∧ t.me.n2 = false ∧ t.me.cregh = k.cregh &&& 0xFFFFFFFFFFFFFFFE#64 ∧
          t.me.retired = k.retired + 1 ∧ (∀ n, t.me.xr n = k.xr n) ∧ t.myCtx.taken = s.myCtx.taken.filter (fun n => decide (n ∉ f.slots)) ∧
          t.myCtx.inbox = s.myCtx.inbox ∧ t.myCtx.lines = s.myCtx.lines ∧ t.mem = s.mem ∧ t.writes = s.writes ∧
          (∀ l, tfind s.launches f.lid = some l → ∃ l', tfind t.launches f.lid = some l' ∧ l'.active = l.active - 1 ∧ l'.inflight = l.inflight ∧
            (let adds := s.remote s.cur.core fun g => g.packet.fetchAdd && decide (g.packet.dchip = s.chip)
             ∃ e : Ended, l'.after = l.after ++ [e] ∧ e.core = s.cur.core ∧ e.ids = s.pastLocal s.cur.core ++ k.collected ++ adds ∧
               e.held = (k.member.active && !k.member.ops.isEmpty))) ∧
          (∀ q, ¬ sameCore s.cur.core q → t.coreOf q = s.coreOf q))) ∧
    (Ready s [a] (some d) → let n := (s.sval [] a).toNat
      let restored := (s.myCtx.poste.filter fun e => e.2 && decide (e.1.ch = n)).length
      let waiting := if s.inGroup && (tget s.myCtx.view.ctls 0 n).getLsbD 62 then (tget s.myCtx.view.lines [] n).length + restored
        else (tget s.myCtx.lines [] n).length
      (64 ≤ n → reason (.mlen d a) 1) ∧ (n < 64 → Yields (.mlen d a) s [a] d (BitVec.ofNat 64 waiting)))

/-- R347, R356, R340: the channel instructions wait while a store of the core to CTL is on its way (log 10, DEDUCED); a member that acts on a deterministic
channel has its operation collected; else CHMASK and CHUNMASK set and clear MASK, CHPRIO replaces PRIO (values from 8 on trap with cause 47,
reason 6), and CHRD reads CTL. Every other bit and every other channel stays.
R349, R350, R341: the pigeonhole that a core fires next is enabled, unmasked, of its role, holds CONSUME messages, and finds room in the send
buffer; of those that it might choose it has the highest class, that of the launch of its line's first message, then the highest PRIO, and of
equals it comes first after the channel fired last, counting upward modulo 64; where there is none, none fires. A member chooses by the
view, without class and among deterministic channels only, and then waits for room and for messages of a restore (log 44, DEDUCED). R349, R362: a
launch's class is its own, and never above its parent's (log 46, DEDUCED). -/
def Obligations.ChannelsAndSelection : Prop :=
  (∀ (s : State) (d a : Reg) (n : BitVec 6), let x := s.myCtx
     let ctl := (tget x.pigeons {} n.toNat).ctl
     let pending := s.me.controlPending (0x2000 + 64 * n.toNat)
     let collects := s.inGroup = true ∧ ctl.getLsbD 62 = true
     let does := fun (i : Instr) (srcs : List Reg) (op value : Nat) (ctl' : Word → Prop) =>
       (pending = true → exec i s = .next s) ∧
       (pending = false → collects →
         ∃ t, exec i s = .next t ∧
           RetiresFrom s { s.me with member := { s.me.member with ops := s.me.member.ops ++ [.channel op n.toNat value] } } t srcs none false 0 false) ∧
       (pending = false → ¬ collects →
         ∃ t, exec i s = .next t ∧ Retires (s.updMyCtx fun x => { x with pigeons := t.myCtx.pigeons }) t srcs none false 0 false ∧
           ctl' (tget t.myCtx.pigeons {} n.toNat).ctl ∧ (tget t.myCtx.pigeons {} n.toNat).fired = (tget x.pigeons {} n.toNat).fired ∧
           ∀ m, m ≠ n.toNat → tget t.myCtx.pigeons {} m = tget x.pigeons {} m)
     does (.chmask n) [] 0 0 (fun v => ∀ j, j < 64 → v.getLsbD j = if j = 61 then true else ctl.getLsbD j) ∧
     does (.chunmask n) [] 1 0 (fun v => ∀ j, j < 64 → v.getLsbD j = if j = 61 then false else ctl.getLsbD j) ∧
     (Ready s [a] none → let v := (s.sval [] a).toNat
       (8 ≤ v → exec (.chprio a n) s = trap s 47 6) ∧
       (v < 8 → does (.chprio a n) [a] 3 v
         (fun w => ∀ j, j < 64 → w.getLsbD j = if 58 ≤ j ∧ j < 61 then v.testBit (j - 58) else ctl.getLsbD j))) ∧
     (badQueue s.cur.core.role [] (some d) = none → pending = true → exec (.chrd d n) s = .next s) ∧
     (Ready s [] (some d) → pending = false → Yields (.chrd d n) s [] d ctl)) ∧
  ((∀ (s : State) (lid : Nat) (l : Launch), tfind s.launches lid = some l → s.classOf lid ≤ l.cls ∧ (l.parent = none → s.classOf lid = l.cls) ∧
     ∀ p h, l.parent = some p → tfind s.launches p = some h → h.parent = none → s.classOf lid = min l.cls h.cls) ∧
   ∀ (s : State) (p : CoreRef) (n : Nat),
     let x := s.ctxOf p.cell
     let k := x.core p.role
     let member := k.member.active
     let ctl := fun n => if member then tget x.view.ctls 0 n else (tget x.pigeons {} n).ctl
     let line := fun n => if member then (if (ctl n).getLsbD 62 then (tget x.lines [] n).filter fun i => decide (i ∈ tget x.view.lines [] n) else [])
       else tget x.lines [] n
     let restored := fun n => if member && (ctl n).getLsbD 62 then (x.poste.filter fun e => e.2 && decide (e.1.ch = n)).length else 0
     let consume := fun n => ((ctl n).extractLsb' 48 4).toNat
     let may := fun n => (ctl n).getLsbD 63 = true ∧ (ctl n).getLsbD 61 = false ∧ ((ctl n).extractLsb' 56 2).toNat = roleCode p.role ∧
       consume n ≤ (line n).length + restored n
     let room := fun n => ((ctl n).extractLsb' 52 4).toNat ≤
       8 - k.sendBuffer.length - (match k.firing with | some f => f.produce | none => 0) ∧ consume n ≤ (line n).length
     let prio := fun n => ((ctl n).extractLsb' 58 3).toNat
     let cls := fun n => match member, line n with
       | false, i :: _ => s.classOf ((tget x.inbox 0 i).toNat / 2 ^ 48 % 65536)
       | _, _ => 0
     let turn := fun n => (n + 64 - (k.lastFired + 1) % 64) % 64
     let before := fun m => cls m < cls n ∨ cls m = cls n ∧ (prio m < prio n ∨ prio m = prio n ∧ turn n ≤ turn m)
     s.selected p = some n ↔ n < 64 ∧ may n ∧ room n ∧ ∀ m, m < 64 → may m → (member = true ∨ room m) → before m)

/-- R104, R120, R341, R346, R350, R351, R353: a firing begins and a message arrives. FIRING_BEGIN takes CONSUME messages of the selected channel
from its line, a member those that the view holds, counts the firing, sets x1 and x2 to the channel and to CONSUME, and starts the chain at the
handler of CTL. A message leaves
a send buffer once it is the oldest to its channel and what its sender did is visible on the chip, and the initial messages of a
launch leave in image order; it takes a free
inbox slot, which one being a free choice (log 23, DESIGN CHOICE), and joins the channel's line; with no slot free, or to a fenced cell (R15),
it stays. R340: one to a deterministic channel of a group is held at its cell for the boundary, a member's with its core number and its place
among the sends.
R359 to R364: launches. MLAUNCH puts a packet into the device-side queue under the lowest free LID, its class never above its parent's
(log 46, DEDUCED), and answers the LID; poison under the packet traps with cause 29 (log 66, DEDUCED). LAUNCH_PACKET takes one packet, of the device-side queue without a wait for room in the launch
table (log 65, DEDUCED), and none while the host parses launches or has the walk to the message images to make (R389; log 12, DEDUCED): a refused one ends with STATUS 1 and its reason, an accepted one loads QUANT
and sends its messages. LAUNCH_COMPLETION ends a launch that is done, once a walk to its record that is the host's has been answered, and nothing else. ENERGY_INTERVAL meters every 1024 cycles; a launch
without a budget is not metered, one at its budget falls below its current class, or reports cause 38 once. WATCHDOG raises cause 37 on every core of the
cluster with a firing of the launch, resident or switched out, and restarts. -/
def Obligations.FiringsAndLaunches : Prop :=
  ((∀ s : State, let p := s.cur.core
     (s.selected p = none → exec .firingBegin s = .next s) ∧
     (∀ n, s.selected p = some n → let x := s.myCtx
       let member := s.me.member.active
       let ctl := if member then tget x.view.ctls 0 n else (tget x.pigeons {} n).ctl
       let consume := (ctl.extractLsb' 48 4).toNat
       let slots := (if member then (tget x.lines [] n).filter fun i => decide (i ∈ tget x.view.lines [] n) else tget x.lines [] n).take consume
       let lidOf := fun i => ({ body := tget x.inbox 0 i } : Message).lid
       let lid := (slots.map lidOf).headD 0
       p.role ≠ .s →
       ∃ t, exec .firingBegin s = .next t ∧
         t.me.firing = some { channel := n, slots := slots, popped := 0, produce := (ctl.extractLsb' 52 4).toNat, lid := lid } ∧
         t.me.running = true ∧ t.me.lastFired = n ∧ t.me.retired = s.me.retired ∧
         (∀ m, t.me.xr m = if m = 1 then BitVec.ofNat 64 n else if m = 2 then BitVec.ofNat 64 consume else s.me.xr m) ∧
         (∀ m, t.me.vr m = s.me.vr m) ∧ t.me.c0 = ctl.setWidth 48 ∧ t.me.c1 = 0 ∧ t.me.c2 = 0 ∧ t.me.s1 = true ∧ t.me.s2 = true ∧
         t.me.n0 = false ∧ t.me.n1 = false ∧ t.me.n2 = false ∧
         tget t.myCtx.lines [] n = (tget x.lines [] n).filter (fun i => decide (i ∉ slots)) ∧
         (∀ m, m ≠ n → tget t.myCtx.lines [] m = tget x.lines [] m) ∧
         (tget t.myCtx.pigeons {} n).fired = (tget x.pigeons {} n).fired + 1 ∧ (tget t.myCtx.pigeons {} n).ctl = (tget x.pigeons {} n).ctl ∧
         t.mem = s.mem ∧ t.writes = s.writes ∧ (∀ q, ¬ sameCore p q → t.coreOf q = s.coreOf q) ∧
         (∀ m l, tfind s.launches m = some l → ∃ l', tfind t.launches m = some l' ∧
           l'.inflight = l.inflight - (slots.filter fun i => decide (lidOf i = m)).length ∧
           l'.active = (if m = lid then l.active + 1 else l.active) ∧ l'.fired = (if m = lid then l.fired + 1 else l.fired)))) ∧
   (∀ (s : State) (m : Message), let n := s.args.index
     let x := s.ctxOf m.cell
     let line := fun (u : Message) => m.cell = u.cell ∧ m.ch = u.ch ∧ m.ctx = u.ctx
     let det := fun y : CellCtx => ((tfind y.view.ctls m.ch).getD (tget y.pigeons {} m.ch).ctl).getLsbD 62 = true ∧ s.hasGroup m.ctx = true
     let plain := s.residentIn m.cell = some m.ctx ∧ ¬ det x
     let full := s.cellOut m.cell = true ∨ x.poste ≠ [] ∨ ∀ j, j < 256 → j ∈ x.taken
     let lands := fun t : State => ∃ j, j < 256 ∧ j ∉ x.taken ∧ tget (t.ctxOf m.cell).inbox 0 j = m.body ∧
       (∀ i, i ≠ j → tget (t.ctxOf m.cell).inbox 0 i = tget x.inbox 0 i) ∧ (t.ctxOf m.cell).taken = x.taken ++ [j] ∧
       tget (t.ctxOf m.cell).lines [] m.ch = tget x.lines [] m.ch ++ [j] ∧ t.mem = s.mem ∧ t.writes = s.writes
     let i : Instr := .messageLeavesSendBuffer
     let p := s.args.core
     (∀ e, s.args.flag = false → (s.coreOf p).sendBuffer[n]? = some e → e.msg = m →
       ((∃ o ∈ (s.coreOf p).sendBuffer.take n, line o.msg) ∨ s.settled p e.after 2 = false → exec i s = .next s) ∧
       (¬ (∃ o ∈ (s.coreOf p).sendBuffer.take n, line o.msg) → s.settled p e.after 2 = true →
         (plain → ¬ full → ∃ t, exec i s = .next t ∧ lands t ∧ (t.coreOf p).sendBuffer = (s.coreOf p).sendBuffer.eraseIdx n) ∧
         (plain → full → exec i s = .next s) ∧
         (∀ y, s.held m.ctx m.cell = some y → det y → p.role ≠ .s →
           ∃ t y', exec i s = .next t ∧ t.held m.ctx m.cell = some y' ∧
             y'.heldMessages = y.heldMessages ++ [(if (s.coreOf p).member.active then some (lcn p, e.num) else none, m)] ∧
             (t.coreOf p).sendBuffer = (s.coreOf p).sendBuffer.eraseIdx n ∧ y'.inbox = y.inbox ∧ y'.lines = y.lines))) ∧
     (s.args.flag = true → s.initial[n]? = some m →
       ((∃ o ∈ s.initial.take n, o.lid = m.lid) → exec i s = .next s) ∧
       ((∀ o ∈ s.initial.take n, o.lid ≠ m.lid) → plain →
         (¬ full → ∃ t, exec i s = .next t ∧ lands t ∧ t.initial = s.initial.eraseIdx n) ∧ (full → exec i s = .next s))))) ∧
  ((∀ (s : State) (d b : Reg) (f : Firing) (h : Launch), s.me.trapMode = false → s.me.firing = some f → tfind s.launches f.lid = some h →
     Ready s [b] (some d) →
     let off := (s.sval [] b).toNat
     let keys := span (cellKey s.myCell off) 64
     let w : Vec := BitVec.ofNat 512 (bytesToNat (s.loadBytes s.cur.core s.fresh keys))
     let i : Instr := .mlaunch d b
     let reads := off % 64 = 0 ∧ off + 64 ≤ 0x60000 ∧ ∀ y ∈ keys, s.mayRead (sectorOf y) = true
     let fits := reads ∧ ∀ y ∈ keys, s.poisonHere y = false
     let inUse := fun l => tfind s.launches l ≠ none ∨ s.recordDue l = true
     let lawful := vecBytes w 0 2 = s.myCtxId ∧ launchRsv w = false
     (off % 64 ≠ 0 → exec i s = trap s 4 (BitVec.ofNat 64 off)) ∧
     (off % 64 = 0 → 0x60000 < off + 64 → exec i s = trap s 5 (BitVec.ofNat 64 off)) ∧
     (off % 64 = 0 → off + 64 ≤ 0x60000 → ¬ reads → exec i s = .next s) ∧
     (reads → (∃ y ∈ keys, s.poisonHere y = true) → exec i s = trap s 29 (BitVec.ofNat 64 off)) ∧
     (fits → ¬ lawful → exec i s = trap s 47 5) ∧
     (fits → lawful → 256 ≤ s.deviceQueue.length → exec i s = .next s) ∧
     (fits → lawful → s.deviceQueue.length < 256 → (∀ l, 1 ≤ l → l ≤ 1024 → inUse l) → exec i s = .next s) ∧
     (∀ lid, fits → lawful → s.deviceQueue.length < 256 → 1 ≤ lid → lid ≤ 1024 → ¬ inUse lid →
       (∀ l, 1 ≤ l → l < lid → inUse l) →
       ∃ t l, exec i s = .next t ∧
         Retires { (s.noteRead s.cur.core s.fresh keys).bump with launches := t.launches, deviceQueue := t.deviceQueue } t [b]
           (some (d, BitVec.ofNat 64 lid)) false 0 false ∧
         t.deviceQueue = s.deviceQueue ++ [(lid, w)] ∧ tfind t.launches lid = some l ∧ l.ctx = s.myCtxId ∧ l.parent = some f.lid ∧
         l.cls = min (vecBytes w 2 1 % 4) (s.classOf f.lid) ∧ l.queued = true ∧ l.inflight = 0 ∧ l.active = 0 ∧ l.children = 0 ∧
         tfind t.launches f.lid = some { h with children := h.children + 1 } ∧
         ∀ n, n ≠ lid → n ≠ f.lid → tfind t.launches n = tfind s.launches n)) ∧
   (∀ s : State, (2 ∈ s.service.assisted → exec .launchPacket s = .next s) ∧ (2 ∉ s.service.assisted →
     (∀ lid w rest t, s.deviceQueue = (lid, w) :: rest → s.imageWait w = some t → exec .launchPacket s = .next t) ∧
     (∀ lid w rest, s.deviceQueue = (lid, w) :: rest → s.imageWait w = none →
       let u : State := { s.deviceForget 0 (vecBytes w 0 2) with deviceQueue := rest }
       (∀ r, s.parseLaunch w = .error r → exec .launchPacket s = .next (u.endLaunch lid 1 r)) ∧
       (∀ ms l, s.parseLaunch w = .ok ms → tfind s.launches lid = some l →
         exec .launchPacket s = .next (u.acceptLaunch lid { l with accepted := s.now } w ms))) ∧
     (∀ q lid, s.deviceQueue = [] → 6 ≤ s.service.stage → s.nextHostQueue = some q → s.freeLid = some lid →
       let q' := tget s.hostQueues {} q
       let w : Vec := BitVec.ofNat 512 (bytesToNat ((span q'.entryKey 64).map s.hostByte))
       (∀ u, s.imageWait w = some u → exec .launchPacket s = .next u) ∧
       (s.imageWait w = none → ∃ t, exec .launchPacket s = .next t ∧ (tget t.hostQueues {} q).head = (tget s.hostQueues {} q).head + 1 ∧
         t.nextQueue = (q + 1) % 8 ∧ ∀ j, j ≠ q → tget t.hostQueues {} j = tget s.hostQueues {} j)) ∧
     (s.deviceQueue = [] → (s.service.stage < 6 ∨ s.nextHostQueue = none ∨ s.freeLid = none) → exec .launchPacket s = .next s))) ∧
   (∀ (s : State) (lid : Nat) (l : Launch) (w : Vec) (ms : List Message), let t := s.acceptLaunch lid l w ms
     (∃ l', tfind t.launches lid = some l' ∧ l'.inflight = ms.length ∧ l'.queued = false ∧ l'.cls = l.cls) ∧
     t.initial.length = s.initial.length + ms.length ∧ t.initial.take s.initial.length = s.initial ∧ t.mem = s.mem ∧ t.writes = s.writes ∧
     ∀ n, vecBytes w 8 2 ≤ n → n < vecBytes w 8 2 + vecBytes w 0xA 2 → s.residentIn n = some l.ctx →
       ∀ r, r ≠ .s → (t.coreOf ⟨n, r⟩).quant = BitVec.ofNat 64 (vecBytes w 4 4)) ∧
   (∀ s : State, let lid := s.args.lid
     (∀ l u, tfind s.launches lid = some l → s.launchDone lid l = true → s.assistWait 0 l.ctx (span l.crec.toNat 32) = some u →
       exec .launchCompletion s = .next u) ∧
     (∀ l, tfind s.launches lid = some l → s.launchDone lid l = true → s.assistWait 0 l.ctx (span l.crec.toNat 32) = none →
       exec .launchCompletion s = .next ((s.endLaunch lid 0 0).deviceForget 0 l.ctx) ∧ tfind (s.endLaunch lid 0 0).launches lid = none ∧
       (s.endLaunch lid 0 0).cells = s.cells) ∧
     (∀ cluster ctx, (s.deviceForget cluster ctx).failedWalks = s.failedWalks.filter (fun f => !(decide (f.1 = deviceParty cluster) && decide (f.2.1 = ctx))) ∧
       { s.deviceForget cluster ctx with failedWalks := s.failedWalks } = s) ∧
     (∀ l, tfind s.launches lid = some l → s.launchDone lid l = false → exec .launchCompletion s = .next s) ∧
     (tfind s.launches lid = none → exec .launchCompletion s = .next s ∧ exec .watchdog s = .next s) ∧
     (∀ l, tfind s.launches lid = some l → l.wdog = 0 ∨ tget l.watch 0 s.args.cluster < l.wdog * 1024 → exec .watchdog s = .next s) ∧
     (∀ l, tfind s.launches lid = some l → l.wdog ≠ 0 → l.wdog * 1024 ≤ tget l.watch 0 s.args.cluster →
       ∃ t, exec .watchdog s = .next t ∧ (∀ e ∈ s.firingCores s.args.cluster lid, ∃ x, t.held l.ctx e.1.cell = some x ∧ (x.core e.1.role).watchdog = some lid) ∧
         (∀ p n, (t.coreOf p).xr n = (s.coreOf p).xr n) ∧
         tfind t.launches lid = some { l with watch := tset l.watch s.args.cluster 0 } ∧ t.mem = s.mem ∧ t.writes = s.writes) ∧
     (s.now < s.energyTime + 1024 → exec .energyInterval s = .next s) ∧
     (s.energyTime + 1024 ≤ s.now →
       exec .energyInterval s = .next (s.args.pairs.foldl (fun s e => s.meter e.1 e.2) { s with energyTime := s.energyTime + 1024 })) ∧
     (∀ n l e, tfind s.launches n = some l →
       (l.energy = 0 → s.meter n e = s) ∧
       (l.energy ≠ 0 → l.metered + e < l.energy →
         tfind (s.meter n e).launches n = some { l with used := l.used + e, metered := l.metered + e }) ∧
       (l.energy ≠ 0 → l.energy ≤ l.metered + e → 0 < s.classOf n →
         tfind (s.meter n e).launches n = some { l with used := l.used + e, metered := 0, cls := s.classOf n - 1 }) ∧
       (l.energy ≠ 0 → l.energy ≤ l.metered + e → s.classOf n = 0 →
         tfind (s.meter n e).launches n = some { l with used := l.used + e, metered := l.metered + e, exhausted := true }))))

/-- R239 to R242, R254, R93: a counted write at its target. A payload that fails its check is dropped; one behind a write to the same counter
that waits for a walk stays in the network, and so does one whose own translation needs a walk; a context that is absent and a counter
beyond its limit are refused with reasons 4 and 9; a sequence number behind the horizon, or at a position that is not awaited, is dropped, one
beyond the horizon refused with reason 8. Else the payload is stored, for the whole domain to see (R321), and its position ARRIVED with COUNT one more; where the store is refused
the position is REFUSED. Pending releases are checked after it.
R243 to R246, R93: a release at its target. A window beyond the horizon is refused with reason 10, one that overlaps another pending release
with reason 11; a window that has been released, also one ahead of BASE (log 43, DEDUCED), answers from its outcome record; the same release again is dropped; else it is pending, and
completes as soon as no position of its window is awaited: with a refused position it answers status 1 and the lowest such position's reason
and address and writes no flag, else it writes its flag and answers status 0, or waits for the walk of its flag's address. Its positions are RELEASED, its outcome kept, and the
horizon moves past the released positions at its start. OUTCOME_RECORD_EXPIRY drops a record after 32 T. -/
def Obligations.WritesAndReleasesArrive : Prop :=
  ((∀ (s : State) (p : Packet) (ks : List Nat) (e : Option Word), faKind p.addr ≠ 4 →
     s.fabKeys p.ctxid.toNat p.schip p.addr p.payload.length .store = .ok (ks, e) →
     s.storePayload p = .ok (s.addWhole s.fresh (cellsAt ks p.payload) 0
       (.fabric p.schip.toNat p.scell.toNat p.ctxid.toNat p.ctr.toNat p.seq.toNat) 3).bump) ∧
   ∀ (s : State) (p : Packet), s.arrived 0 = some p →
     let i : Instr := .countedWrite
     let u : State := { s with net := s.net.eraseIdx s.args.index }
     let nack := fun reason : Nat => exec i s = .next (u.transmit (p.nack s.chip reason))
     (p.pcrc ≠ crc32c p.payload → exec i s = .next u) ∧
     let behind := ∃ it ∈ s.net.take s.args.index, it.waits = true ∧ it.outbound = false ∧ it.packet.kind = 0 ∧ it.packet.ctxid = p.ctxid ∧
       it.packet.ctr = p.ctr
     (p.pcrc = crc32c p.payload → behind → exec i s = .next s) ∧
     (p.pcrc = crc32c p.payload → ¬ behind →
       (s.context p.ctxid.toNat = none → nack 4) ∧
       (∀ c, s.context p.ctxid.toNat = some c →
         (c.climit ≤ p.ctr.toNat → nack 9) ∧
         (p.ctr.toNat < c.climit → let n := c.cbase + p.ctr.toNat
           let t := s.counter n
           let pos := (p.seq - t.base).toNat
           (32768 ≤ pos → exec i s = .next u) ∧ (1024 ≤ pos → pos < 32768 → nack 8) ∧
           (pos < 1024 → tget t.pos .awaited pos ≠ .awaited → exec i s = .next u) ∧
           (pos < 1024 → tget t.pos .awaited pos = .awaited →
             (∀ v, u.storePayload p = .ok v →
               exec i s = .next ((v.setCounter n { t with pos := tset t.pos pos .arrived, count := t.count + 1 }).checkAll n)) ∧
             (∀ r, u.storePayload p = .error (.refuse r) →
               exec i s = .next (((u.fabForget p.ctxid.toNat).setCounter n { t with pos := tset t.pos pos (.refused r p.addr) }).checkAll n)) ∧
             (∀ va, u.storePayload p = .error (.walk va) → exec i s = .next (s.holdForWalk p.ctxid.toNat va)) ∧
             (t.pending = [] → ∀ v, u.storePayload p = .ok v →
               ∃ w, exec i s = .next w ∧ (w.counter n).count = t.count + 1 ∧ (w.counter n).base = t.base ∧
                 tget (w.counter n).pos .awaited pos = .arrived ∧ (∀ j, j ≠ pos → tget (w.counter n).pos .awaited j = tget t.pos .awaited j) ∧
                 (∀ m, m ≠ n → w.counter m = s.counter m) ∧ w.net = u.net ∧ w.mem = v.mem ∧ w.cells = s.cells)))))) ∧
  ((∀ (s : State) (p : Packet) (c : Context), s.arrived 4 = some p → s.context p.ctxid.toNat = some c → p.ctr.toNat < c.climit →
     let i : Instr := .release
     let u : State := { s with net := s.net.eraseIdx s.args.index }
     let n := c.cbase + p.ctr.toNat
     let t := s.counter n
     let start := (p.seq - t.base).toNat
     let count := p.bytes.toNat
     let past := 32768 ≤ start ∧ start + count ≤ 65536
     let done := ∀ j, j < count → tget t.pos .awaited (start + j) = .released
     let answered := exec i s = .next (match t.outcomes.find? fun o => decide (o.start = p.seq) && decide (o.count = count) with
       | some o => u.transmit (p.receipt s.chip o.status o.reason o.raddr)
       | none => u)
     let same := ∃ r ∈ t.pending, r.packet.seq = p.seq ∧ r.packet.bytes = p.bytes
     let overlaps := ∃ r ∈ t.pending, let start' := (r.packet.seq - t.base).toNat
       start < start' + r.packet.bytes.toNat ∧ start' < start + count
     (past → answered) ∧ (¬ past → 1024 < start + count → exec i s = .next (u.transmit (p.nack s.chip 10))) ∧
     (¬ past → start + count ≤ 1024 → done → answered) ∧
     (¬ past → start + count ≤ 1024 → ¬ done → same → exec i s = .next u) ∧
     (¬ past → start + count ≤ 1024 → ¬ done → ¬ same → overlaps → exec i s = .next (u.transmit (p.nack s.chip 11))) ∧
     (¬ past → start + count ≤ 1024 → ¬ done → ¬ same → ¬ overlaps →
       exec i s = .next ((u.setCounter n { t with pending := t.pending ++ [{ packet := p, round := 1, deadline := s.now + s.timeout }] }).checkAll n))) ∧
   (∀ (s : State) (n : Nat) (r : PendRel) (rest : List PendRel), let t := s.counter n
     let waits := ∃ j, j < r.packet.bytes.toNat ∧ tget t.pos .awaited ((r.packet.seq - t.base).toNat + j) = .awaited
     s.checkAll n = s.checkReleases n t.pending ∧ s.checkReleases n [] = s ∧
     (64 ≤ t.outcomes.length ∨ waits → s.checkReleases n (r :: rest) = s.checkReleases n rest) ∧
     (t.outcomes.length < 64 → ¬ waits → s.checkReleases n (r :: rest) = (s.completeRelease n r).checkReleases n rest)) ∧
   (∀ (s : State) (n : Nat) (r : PendRel), let t := s.counter n
     let p := r.packet
     let w := s.completeRelease n r
     let start := (p.seq - t.base).toNat
     let ends := fun (status reason : Nat) (raddr : Word) =>
       (∃ out, w.net = s.net ++ [{ packet := p.receipt s.chip status reason raddr, outbound := out, offered := false }]) ∧
       w.counter n = t.releaseWindow { start := p.seq, count := p.bytes.toNat, status := status, reason := reason, raddr := raddr, time := s.now }
     (∀ j reason fa, j < p.bytes.toNat → tget t.pos .awaited (start + j) = .refused reason fa →
       (∀ k, k < j → ∀ e a, tget t.pos .awaited (start + k) ≠ .refused e a) → ends 1 reason fa ∧ w.mem = s.mem ∧ w.writes = s.writes) ∧
     ((∀ j, j < p.bytes.toNat → ∀ e a, tget t.pos .awaited (start + j) ≠ .refused e a) →
       (∀ v, s.storeFlag p = .ok v → ends 0 0 0 ∧ w.mem = v.mem ∧ w.writes = v.writes) ∧
       (∀ reason, s.storeFlag p = .error (.refuse reason) → ends 1 reason p.addr ∧ w.mem = s.mem ∧ w.writes = s.writes) ∧
       (∀ va, s.storeFlag p = .error (.walk va) → w.counter n = t ∧ w.net = s.net ∧ w = s.fabWalk p.ctxid.toNat va))) ∧
   (∀ (t : Counter) (o : OutcomeRec), let u := t.releaseWindow o
     let start := (o.start - t.base).toNat
     let pos := fun d => if start ≤ d ∧ d < start + o.count then Pos.released else tget t.pos .awaited d
     u.outcomes = t.outcomes ++ [o] ∧ u.count = t.count ∧
     u.pending = t.pending.filter (fun r => !(decide (r.packet.seq = o.start) && decide (r.packet.bytes.toNat = o.count))) ∧
     ∃ k, k ≤ 1024 ∧ u.base = t.base + BitVec.ofNat 16 k ∧ (∀ d, d < k → pos d = .released) ∧ (k < 1024 → pos k ≠ .released) ∧
       ∀ d, tget u.pos .awaited d = pos (d + k)) ∧
   (∀ (s : State) (o : OutcomeRec), let n := s.args.ctr
     let t := s.counter n
     t.outcomes[s.args.index]? = some o →
     (s.now < o.time + 32 * s.timeout → exec .outcomeRecordExpiry s = .next s) ∧
     (o.time + 32 * s.timeout ≤ s.now → exec .outcomeRecordExpiry s =
       .next ((s.setCounter n { t with outcomes := t.outcomes.eraseIdx s.args.index }).checkAll n))))

/-- R245, R247 to R249, R262, R265, R311: the rounds of a release and its answers. At the target a round that expires with positions awaited
sends notices of them and doubles the time, and after round 5 the release fails with status 2; a failing one waits for a free outcome
record (log 39, DEDUCED). At the sender a round that expires without a notice sends the release again, and after round 5 its slot has failed. A
receipt or a NACK settles the slot that awaits it; one for no such slot only frees records. R247: a receipt frees the records of the window to the
chip that it comes from, and what settles a slot those of its release's window, to its chip or to its group. R248, R253: every chunk of 256 numbers
in which one is awaited has its notice, with the round and a bit for each number awaited. A NACK of a counted write frees the record of that
write alone: of its CTR and SEQ and to the chip that refused it, or multicast (log 89, DEDUCED). Notices and
answers carry SCELL back (log 32, DEDUCED), and a packet with a field out of range is dropped (log 38, DEDUCED). R249: the sender notes the round of every
notice for its release, of a later round than its own too, and sends again, once in a round to a chip, the writes that it names: those whose record
names the chip, and multicast writes, to that chip alone (R292; log 89, DEDUCED). One whose source lies in memory waits among the sendings
of the interface.
R10, R268, R269: the ports. FLIT_BEAT is one of three things (log 90, DESIGN CHOICE). A beat that is received and cannot be rebuilt spoils
its packet, and the last beat delivers a packet that is well formed, whole and for this chip, and counts its flits in the occupancy, drops
it, or leaves it at its sender while the space of its virtual network is full. A packet that waits to leave goes by a port within the limit
that the peer has announced: one for another domain by a scale-out port, any other by a scale-up port (R13, R272). And the peer drains units of its buffer. LINK_CONTROL takes the limits that the peer announces. BUFFER_INTERVAL
divides the lent part of the buffer every 1024 cycles and announces the limits; the occupancy of an interval begins with what the buffer holds, and with none the limits stand (log 40, DESIGN CHOICE). A port
that does not exist, is fenced or is not enabled does nothing. -/
def Obligations.RoundsAndAnswers : Prop :=
  ((∀ (s : State) (r : PendRel), let n := s.args.ctr
     let t := s.counter n
     let p := r.packet
     let waits := ∃ j, j < p.bytes.toNat ∧ tget t.pos .awaited ((p.seq - t.base).toNat + j) = .awaited
     t.pending[s.args.index]? = some r →
     (s.now < r.deadline ∨ ¬ waits → exec .roundExpiry s = .next s) ∧
     (r.deadline ≤ s.now → waits → r.round < 5 →
       ∃ w, exec .roundExpiry s = .next w ∧ (w.counter n).pending =
         t.pending.set s.args.index { r with round := r.round + 1, deadline := r.deadline + s.timeout * 2 ^ r.round } ∧
         (w.counter n).pos = t.pos ∧ w.mem = s.mem ∧
         w.net = s.net ++ (noticesOf t p s.chip r.round).map fun q =>
           { packet := q, outbound := decide (q.kind = 7) || decide (q.kind = 8) || decide (q.dchip ≠ s.chip), offered := false }) ∧
     (r.deadline ≤ s.now → waits → 5 ≤ r.round → 64 ≤ t.outcomes.length → exec .roundExpiry s = .next s) ∧
     (r.deadline ≤ s.now → waits → 5 ≤ r.round → t.outcomes.length < 64 →
       exec .roundExpiry s = .next
         ((((s.setCounter n (t.releaseWindow { start := p.seq, count := p.bytes.toNat, status := 2, reason := 0, raddr := 0, time := s.now })).transmit
           (p.receipt s.chip 2 0 0)).reportRelease p 0 p.schip).checkAll n))) ∧
   (∀ (t : Counter) (p : Packet) (chip : BitVec 12) (round : Nat), p.bytes.toNat ≤ 1024 → ∀ q ∈ noticesOf t p chip round,
     q.kind = 6 ∧ q.dchip = p.schip ∧ q.schip = chip ∧ q.scell = p.scell ∧ q.ctr = p.ctr ∧ q.seq = p.seq ∧ q.bytes = p.bytes ∧ q.rslot = p.rslot ∧
       q.payload.length = 32 ∧ q.round = BitVec.ofNat 3 round ∧ ∀ j, j < 256 → ((bytesToNat q.payload).testBit j = true ↔ 256 * q.status.toNat + j < p.bytes.toNat ∧
         tget t.pos .awaited ((p.seq - t.base).toNat + 256 * q.status.toNat + j) = .awaited)) ∧
   (∀ (t : Counter) (p : Packet) (chip : BitVec 12) (round : Nat), p.bytes.toNat ≤ 1024 → ∀ j, j < p.bytes.toNat →
     tget t.pos .awaited ((p.seq - t.base).toNat + j) = .awaited →
     ∃ q ∈ noticesOf t p chip round, q.status.toNat = j / 256 ∧ (bytesToNat q.payload).testBit (j % 256) = true) ∧
   (∀ (s : State) (p : Packet), let ctx := s.args.ctx
     let cell := s.args.cell
     let ni := s.niOf ctx cell
     let r := tget ni.rel {} s.args.slot
     r.packet = some p →
     (r.state ≠ .pending ∨ r.round = 0 ∨ s.now < r.deadline → exec .senderRoundExpiry s = .next s) ∧
     (r.state = .pending → r.round ≠ 0 → r.deadline ≤ s.now →
       (r.round < 5 → ∃ w, exec .senderRoundExpiry s = .next w ∧
         tget (w.niOf ctx cell).rel {} s.args.slot =
           { r with round := r.round + 1, deadline := r.deadline + s.timeout * 2 ^ r.round } ∧
         (r.round ∈ r.noticed → w.net = s.net) ∧
         (r.round ∉ r.noticed → ∃ out, w.net = s.net ++ [{ packet := { p with round := BitVec.ofNat 3 r.round }, outbound := out, offered := false }])) ∧
       (5 ≤ r.round → ∃ w, exec .senderRoundExpiry s = .next w ∧ w.net = s.net ∧
         tget (w.niOf ctx cell).rel {} s.args.slot = { r with round := 0, state := if r.mixing = none then .failed else .pending }))) ∧
   (∀ (s : State) (p : Packet), let ctx := p.ctxid.toNat
     let cell := p.scell.toNat
     let ni := s.niOf ctx cell
     let slot := p.rslot.toNat
     let r := tget ni.rel {} slot
     let awaited := r.state = .pending ∧ r.ctr = p.ctr.toNat ∧ r.start = p.seq
     let erased := s.net.eraseIdx s.args.index
     let named := fun (q : Packet) (chip : BitVec 12) (many : Bool) (e : SendRec) =>
       decide (e.packet.ctr = q.ctr) && decide ((e.packet.seq - q.seq).toNat < q.bytes.toNat) && decide (e.packet.dchip = chip) &&
         (decide (e.packet.kind = 7) == many)
     let settles := fun recs : List SendRec => match r.packet with
       | some q => recs.filter fun e => !named q q.dchip (decide (q.kind = 8)) e
       | none => recs
     (s.arrived 5 = some p →
       let left := ni.recs.filter fun e => !named p p.schip false e
       (¬ awaited → ∃ w, exec .receipt s = .next w ∧ w.net = erased ∧ (w.niOf ctx cell).rel = ni.rel ∧ w.mem = s.mem ∧
         (w.niOf ctx cell).recs = left) ∧
       (awaited → r.mixing = none → ∃ w, exec .receipt s = .next w ∧ w.net = erased ∧ (w.niOf ctx cell).recs = settles left ∧
         tget (w.niOf ctx cell).rel {} slot =
           { r with round := 0, state := if p.status = 0#2 then .complete else if p.status = 1#2 then .refused p.reason.toNat p.addr else .failed } ∧
         ∀ j, j ≠ slot → tget (w.niOf ctx cell).rel {} j = tget ni.rel {} j)) ∧
     (s.arrived 3 = some p → p.answers = 2#2 →
       (¬ awaited → exec .nackPacket s = .next { s with net := erased }) ∧
       (awaited → r.mixing = none → ∃ w, exec .nackPacket s = .next w ∧ w.net = erased ∧ (w.niOf ctx cell).recs = settles ni.recs ∧
         tget (w.niOf ctx cell).rel {} slot = { r with round := 0, state := .refused p.reason.toNat p.addr })) ∧
     (s.arrived 3 = some p → p.answers = 0#2 →
       (16 ≤ s.niEvents ctx cell → exec .nackPacket s = .next s) ∧
       (s.niEvents ctx cell < 16 → s.residentIn cell = some ctx → ∃ w, exec .nackPacket s = .next w ∧ w.net = erased ∧
         (let chip := p.addr.extractLsb' 52 12
          (w.niOf ctx cell).recs = ni.recs.filter fun r => !(decide (r.packet.ctr = p.ctr) && decide (r.packet.seq = p.seq) &&
            (decide (r.packet.kind = 7) || decide (r.packet.dchip = chip)))) ∧
         (w.coreOf ⟨cell, .a⟩).events = (s.coreOf ⟨cell, .a⟩).events ++ [{ cause := 27, tval := p.addr }])) ∧
     (s.arrived 6 = some p → 1 ∉ s.service.assisted →
       let seqs := (noticeBits p.payload).map fun j => p.seq + BitVec.ofNat 16 (256 * p.status.toNat) + BitVec.ofNat 16 j
       ∃ w : State, exec .shortfallNotice s = .next (w.resendAll ctx cell p.schip p.ctr p.round seqs) ∧
         w.net = erased ∧ (w.niOf ctx cell).recs = ni.recs ∧ (w.niOf ctx cell).outgoing = ni.outgoing ∧ w.mem = s.mem ∧ w.cells = s.cells ∧
         (awaited → tget (w.niOf ctx cell).rel {} slot = { r with noticed := r.noticed ++ [p.round.toNat] }) ∧
         (¬ awaited → (w.niOf ctx cell).rel = ni.rel) ∧ ∀ j, j ≠ slot → tget (w.niOf ctx cell).rel {} j = tget ni.rel {} j)) ∧
   (∀ (s : State) (ctx cell : Nat) (chip : BitVec 12) (ctr : BitVec 13) (round : BitVec 3) (seqs : List (BitVec 16)) (i : Nat) (r : SendRec),
     let recs := (s.niOf ctx cell).recs
     let w := s.resendAll ctx cell chip ctr round seqs
     let asked := r.packet.ctr = ctr ∧ r.packet.seq ∈ seqs ∧ (r.packet.kind = 7 ∨ r.packet.dchip = chip) ∧ (chip, round) ∉ r.sent
     let again := fun q : Packet => q.seq = r.packet.seq ∧ q.ctr = r.packet.ctr ∧ q.dchip = chip ∧
       q.kind = (if r.packet.kind = 7 then 0 else r.packet.kind) ∧
       q.addr = (if r.packet.kind = 7 then (chip.setWidth 64 <<< 52) ||| (r.packet.addr &&& 0x000FFFFFFFFFFFFF#64) else r.packet.addr)
     recs[i]? = some r → (¬ asked → (w.niOf ctx cell).recs[i]? = some r) ∧
       (asked → (w.niOf ctx cell).recs[i]? = some { r with sent := r.sent ++ [(chip, round)] } ∧
         (r.source = .data → ∃ it ∈ w.net, again it.packet ∧ it.packet.round = round ∧ it.packet.payload = r.packet.payload) ∧
         (r.source ≠ .data → ∃ x ∈ (w.niOf ctx cell).outgoing, again x.record.packet ∧ x.round = round ∧ x.got = [] ∧ x.record.source = r.source)))) ∧
  (∀ s : State, let n := s.args.port
     let pt := s.port n
     let bad := pt.rxBad = true ∨ (if pt.railsOut = [] ∧ pt.railsFenced = [] then 1 else 0) < s.args.amount
     let up := n < 48 ∧ pt.fenced = false ∧ s.service.portsEnabled = true
     (¬ up → exec .flitBeat s = .next s ∧ exec .bufferInterval s = .next s ∧ exec .linkControl s = .next s) ∧
     (up → s.args.memory = 0 →
       (s.args.flag = false → ∃ t, exec .flitBeat s = .next t ∧ ((t.port n).rxBad = true ↔ bad) ∧ t.net = s.net ∧
         { t.port n with rxBad := pt.rxBad } = pt) ∧
       (∀ p, s.args.flag = true → s.args.packet = some p →
         let taken := ¬ bad ∧ p.wellFormed = true ∧ p.dchip = s.chip ∧ p.kind ≠ 7 ∧ p.kind ≠ 8 ∧ p.kind ≠ 9
         let units := (p.flits.toNat + 1) / 2
         let fits := s.heldUnits n p.vn.toNat + units ≤ s.space n p.vn.toNat
         (taken → ¬ fits → exec .flitBeat s = .next s) ∧
         (taken → fits → ∃ t, exec .flitBeat s = .next t ∧ (t.port n).rxBad = false ∧
           tget (t.port n).occupancy 0 p.vn.toNat = tget pt.occupancy 0 p.vn.toNat + units ∧
           t.net = s.net ++ [{ packet := p, outbound := false, offered := false, port := some n }] ∧ t.cells = s.cells ∧ t.mem = s.mem) ∧
         (¬ taken → ∃ t, exec .flitBeat s = .next t ∧ (t.port n).rxBad = false ∧ t.net = s.net ∧ { t.port n with rxBad := pt.rxBad } = pt))) ∧
     (∀ v, let announced := tget pt.announced 64 v
       s.heldUnits n v = ((s.net.filter fun it => decide (it.port = some n) && decide (it.packet.vn.toNat = v)).map
         fun it => (it.packet.flits.toNat + 1) / 2).sum ∧
       s.space n v = if s.heldUnits n v ≤ announced then announced else max announced (tget pt.old 64 v)) ∧
     (up → s.args.memory = 1 →
       (s.sent[s.args.index]? = none → exec .flitBeat s = .next s) ∧
       (∀ p, s.sent[s.args.index]? = some p → let v := p.vn.toNat
         let out := tget pt.out 0 v + (p.flits.toNat + 1) / 2
         let fitting := (tfind s.service.proxies p.dchip.toNat).isSome = decide (40 ≤ n)
         (¬ fitting → exec .flitBeat s = .next s) ∧
         (tget pt.limits 64 v < out → exec .flitBeat s = .next s) ∧
         (fitting → out ≤ tget pt.limits 64 v → ∃ t, exec .flitBeat s = .next t ∧ t.crossed = s.crossed ++ [(n, p)] ∧ t.sent = s.sent.eraseIdx s.args.index ∧
           tget (t.port n).out 0 v = out ∧ t.net = s.net ∧ t.mem = s.mem))) ∧
     (up → s.args.memory = 2 → ∃ t, exec .flitBeat s = .next t ∧ { t with ports := s.ports } = s ∧
       ∀ v, tget (t.port n).out 0 v = if v = s.args.slot % 4 then tget pt.out 0 v - s.args.amount else tget pt.out 0 v) ∧
     (up → (s.now < pt.lastInterval + 1024 → exec .bufferInterval s = .next s) ∧
       (pt.lastInterval + 1024 ≤ s.now → let total := ((List.range 4).map fun v => tget pt.occupancy 0 v).sum
         ∃ t p, exec .bufferInterval s = .next t ∧ (t.port n).lastInterval = s.now ∧ (∀ v, v < 4 → tget (t.port n).occupancy 0 v = s.heldUnits n v) ∧ t.crossed = s.crossed ++ [(n, p)] ∧
           p.kind = 9 ∧ (∀ v, v < 4 → tget (t.port n).old 64 v = s.space n v) ∧ (total = 0 → (t.port n).announced = pt.announced) ∧
           (total ≠ 0 → ∀ v, v < 4 → tget (t.port n).announced 64 v = min 0xFFFF (64 + Config.lentBuffer * tget pt.occupancy 0 v / total)))) ∧
     (∀ p, up → s.args.packet = some p → p.kind = 9 → p.wellFormed = true → ∃ t, exec .linkControl s = .next t ∧
       (∀ v, v < 4 → tget (t.port n).limits 0 v = p.data.toNat / 2 ^ (16 * v) % 65536) ∧ { t.port n with limits := pt.limits } = pt ∧
       ∀ m, m ≠ n → t.port m = s.port m) ∧
     (s.args.packet = none → exec .linkControl s = .next s))

/-- R255, R258, R259, R264, R318, R320, R321, R332, R336, R340, R93: remote loads. A request at its target answers the bytes, a counter, or a refusal. One of
this chip is an access of its A-core: it reads what that core's buffered stores and its cell see, notes the writes that it read, and waits for
earlier loads, and a fetch-and-add for earlier buffered stores, of its sectors (log 102, DEDUCED); one of another chip reads what the domain
sees. A sector that
is poisoned answers with poison; one whose translation needs a walk stays in the network; and an owned page that another core has written is refused with reason 16. A fetch-and-add is done once: the
same request again gets its kept reply, and one from outside a deterministic group to its D page is held. At the sender the reply that
answers a waiting tag writes its register, extended from its size, and frees the tag; one to a free tag is dropped (log 64, DEDUCED); a
poisoned one is a deferred event of cause 29, a refused one of cause 27, or of 25 with reason 16. A round that expires sends the request again, and after round
5 the load fails with cause 43. Each of these events waits while the interface holds 16. -/
def Obligations.RemoteLoadsAreServed : Prop :=
  (∀ (s : State) (p : Packet), s.arrived 1 = some p →
    let i : Instr := .readRequest
    let u : State := { s with net := s.net.eraseIdx s.args.index }
    let n := 2 ^ p.size.toNat
    let ctx := p.ctxid.toNat
    let nack := fun reason : Nat => exec i s = .next (u.transmit (p.nack s.chip reason))
    let refuses := fun reason : Nat => exec i s = .next ((u.fabForget ctx).transmit (p.nack s.chip reason))
    let replies := fun (poison : Bool) (v : Nat) => exec i s = .next (u.transmit (replyTo p s.chip poison v))
    let own := p.schip = s.chip
    let k := s.heldCore ctx ⟨p.scell.toNat, .a⟩
    let id := match tfind (s.niOf ctx p.scell.toNat).tags p.ltag.toNat with | some g => g.id | none => s.fresh
    let viewer : Viewer := if own then .cell p.scell.toNat else .far
    let hits := fun (ks : List Nat) (a : Nat) => ks.any fun b => decide (sectorOf a = sectorOf b)
    let held := fun ks : List Nat => own ∧ ((∃ l ∈ k.loads, l.id < id ∧ hits ks l.addr = true) ∨
      s.tagsBefore ctx p.scell.toNat id (hits ks) = true ∨ p.fetchAdd = true ∧ ∃ e ∈ k.stores, e.id < id ∧ e.writesAt (hits ks) = true)
    (s.context ctx = none → nack 4) ∧
    (∀ c, s.context ctx = some c →
      (p.fetchAdd = false → faKind p.addr = 2 → let j := faAddr p.addr / 8
        (c.climit ≤ j → nack 9) ∧
        (j < c.climit → replies false ((s.counter (c.cbase + j)).count.toNat + 2 ^ 32 * (s.counter (c.cbase + j)).base.toNat))) ∧
      (p.fetchAdd = false → faKind p.addr ≠ 2 →
        (∀ r, s.fabKeys ctx p.schip p.addr n .load = .error (.refuse r) → refuses r) ∧
        (∀ va, s.fabKeys ctx p.schip p.addr n .load = .error (.walk va) → exec i s = .next (s.holdForWalk ctx va)) ∧
        (∀ ks e, s.fabKeys ctx p.schip p.addr n .load = .ok (ks, e) →
          let raced := ∃ w, e = some w ∧ pteO w = true ∧ (s.ownOf (leafPage w)).written = true
          (held ks → exec i s = .next s) ∧ (¬ held ks → raced → nack 16) ∧
          (¬ held ks → ¬ raced → (s.requestPoison p ks = true → replies true 0) ∧
            (s.requestPoison p ks = false → ∃ v : State, v.net = u.net ∧ v.mem = s.mem ∧ v.writes = s.writes ∧ v.nis = s.nis ∧
              (¬ own → v = u) ∧ (own → s.held ctx p.scell.toNat ≠ none → ∀ b, b ∈ (v.heldCore ctx ⟨p.scell.toNat, .a⟩).seen ↔ (b ∈ k.seen ∧ ∃ x ∈ s.writes, x.id = b.2) ∨
                b.1 = id ∧ b.2 ∈ s.sourcesFor viewer (ks.filter fun a => (bufferByte k.stores id a).isNone)) ∧
              exec i s = .next (v.transmit (replyTo p s.chip false
                (bytesToNat (ks.map fun a => (if own then bufferByte k.stores id a else none).getD (s.byteFor viewer a))))))) ∧
          ((∀ a ∈ ks, s.poisonedFor viewer (sectorOf a) = false) → s.requestPoison p ks = false) ∧
          (¬ own ∨ (∀ e ∈ k.stores, id ≤ e.id) → (∃ a ∈ ks, s.poisonedFor viewer (sectorOf a) = true) → s.requestPoison p ks = true))) ∧
      (p.fetchAdd = true → 
        let kept := s.kept.find? (fun k =>
          decide (k.schip = p.schip.toNat) && decide (k.scell = p.scell.toNat) && decide (k.atag = p.atag));
        (∀ k, kept = some k → replies k.poison k.data.toNat) ∧
        (kept = none → (∀ r, s.fabKeys ctx p.schip p.addr n .atomic = .error (.refuse r) → refuses r) ∧
          (∀ va, s.fabKeys ctx p.schip p.addr n .atomic = .error (.walk va) → exec i s = .next (s.holdForWalk ctx va)) ∧
          (∀ ks e, s.fabKeys ctx p.schip p.addr n .atomic = .ok (ks, e) →
            let holds := leafD e = true ∧ s.hasGroup ctx = true ∧ ¬ (own ∧ k.member.active = true)
            (¬ holds → held ks → exec i s = .next s) ∧ (¬ holds → ¬ held ks → exec i s = .next (u.remoteAdd p (ks.headD 0) 0)) ∧
            (holds → (∃ q ∈ s.heldAdds, sameAdd p q.1 = true) → exec i s = .next u) ∧
            (holds → (∀ q ∈ s.heldAdds, sameAdd p q.1 = false) → exec i s = .next { u with heldAdds := s.heldAdds ++ [(p, ks.headD 0)] })))))) ∧
  (∀ (s : State) (p : Packet) (key least : Nat), let n := 2 ^ p.size.toNat
    let t := s.remoteAdd p key least
    let keeps := fun (bad : Bool) (v : Nat) => ∃ ks k, t.kept = ks ++ [k] ∧ k.schip = p.schip.toNat ∧ k.scell = p.scell.toNat ∧ k.atag = p.atag ∧
      k.poison = bad ∧ k.data = BitVec.ofNat 64 v
    (s.poisonedLast (sectorOf key) = true → t.poisonedLast (sectorOf key) = true ∧ (∀ a, t.byteLast a = s.byteLast a) ∧ keeps true 0 ∧
      ∃ out, t.net = s.net ++ [{ packet := replyTo p s.chip true 0, outbound := out, offered := false }]) ∧
    (MemoryOk s → s.poisonedLast (sectorOf key) = false → keeps false (s.natLast key n) ∧
    t.natLast key n = (s.natLast key n + p.data.toNat) % 2 ^ (8 * n) ∧ (∀ a, a < key ∨ key + n ≤ a → t.byteLast a = s.byteLast a) ∧
    ∃ out, t.net = s.net ++ [{ packet := replyTo p s.chip false (s.natLast key n), outbound := out, offered := false }])) ∧
  (∀ (s : State) (p : Packet) (g : LoadTag), s.arrived 2 = some p →
    let ctx := p.ctxid.toNat
    let cell := p.scell.toNat
    let ni := s.niOf ctx cell
    let t := p.ltag.toNat
    let u : State := { s with net := s.net.eraseIdx s.args.index }
    let answers := tfind ni.tags t = some g ∧ (∀ e ∈ ni.late, e.tag ≠ t) ∧ g.packet.addr = p.addr ∧ g.packet.atag = p.atag ∧
      g.packet.fetchAdd = p.fetchAdd ∧ g.packet.size = p.size
    (tfind ni.tags t = none → exec .readReply s = .next u) ∧
    (answers → g.cancelled = false → s.saving ctx cell = false →
      (p.status = 0#2 → ∃ w, exec .readReply s = .next w ∧ tfind (w.niOf ctx cell).tags t = none ∧ w.net = u.net ∧
        (∀ n, (w.coreOf ⟨cell, .a⟩).xr n = if g.dst = some (.x n) ∧ n ≠ 0 then extend p.data.toNat (2 ^ p.size.toNat) g.signed
          else (s.coreOf ⟨cell, .a⟩).xr n) ∧
        (w.coreOf ⟨cell, .a⟩).pending = (s.coreOf ⟨cell, .a⟩).pending.filter fun q => decide (q.source ≠ .tag t)) ∧
      (p.status ≠ 0#2 → 16 ≤ s.niEvents ctx cell → exec .readReply s = .next s) ∧
      (p.status ≠ 0#2 → s.niEvents ctx cell < 16 → ∃ w, exec .readReply s = .next w ∧ tfind (w.niOf ctx cell).tags t = none ∧
        (∀ n, (w.coreOf ⟨cell, .a⟩).xr n = (s.coreOf ⟨cell, .a⟩).xr n) ∧
        (w.coreOf ⟨cell, .a⟩).events = (s.coreOf ⟨cell, .a⟩).events ++ [{ cause := 29, tval := g.fa }]))) ∧
  (∀ (s : State) (p : Packet) (g : LoadTag), s.arrived 3 = some p → p.answers = 1#2 → let ctx := p.ctxid.toNat
    let cell := p.scell.toNat
    let ni := s.niOf ctx cell
    let t := p.ltag.toNat
    (16 ≤ s.niEvents ctx cell → exec .nackPacket s = .next s) ∧
    (s.niEvents ctx cell < 16 → tfind ni.tags t = some g → (∀ e ∈ ni.late, e.tag ≠ t) → g.cancelled = false → s.saving ctx cell = false →
      ∃ w, exec .nackPacket s = .next w ∧ tfind (w.niOf ctx cell).tags t = none ∧ (w.coreOf ⟨cell, .a⟩).events =
        (s.coreOf ⟨cell, .a⟩).events ++ [{ cause := if p.reason = 16#8 then 25 else 27, tval := g.fa }])) ∧
  (∀ (s : State) (g : LoadTag), let ctx := s.args.ctx
    let cell := s.args.cell
    let ni := s.niOf ctx cell
    let t := s.args.slot
    tfind ni.tags t = some g → (∀ e ∈ ni.late, e.tag ≠ t) →
    (s.now < g.deadline → exec .rldRoundExpiry s = .next s) ∧
    (g.deadline ≤ s.now → g.round < 5 → ∃ w out, exec .rldRoundExpiry s = .next w ∧
      tfind (w.niOf ctx cell).tags t = some { g with round := g.round + 1, deadline := g.deadline + s.timeout * 2 ^ g.round } ∧
      w.net = s.net ++ [{ packet := { g.packet with round := BitVec.ofNat 3 g.round }, outbound := out, offered := false }]) ∧
    (g.deadline ≤ s.now → 5 ≤ g.round → g.cancelled = false → 16 ≤ s.niEvents ctx cell → exec .rldRoundExpiry s = .next s) ∧
    (g.deadline ≤ s.now → 5 ≤ g.round → g.cancelled = false → s.saving ctx cell = false → s.niEvents ctx cell < 16 →
      ∃ w, exec .rldRoundExpiry s = .next w ∧ tfind (w.niOf ctx cell).tags t = none ∧
        (w.coreOf ⟨cell, .a⟩).events = (s.coreOf ⟨cell, .a⟩).events ++ [{ cause := 43, tval := g.fa }]))

/-- R273, R279, R282, R283, R285: the sorter instructions that only change registers, and the branches. With a kernel running, each writes
its result to its register and goes to the next index, or a branch to its target; k0 reads as zero and keeps nothing. Nothing else of the
machine changes.
R284, R285, R286, R290: the sorter instructions that reach the packet and the flow state. HGET reads a header field, 0 where the TYPE has
none; HSET writes one, and traps with reason 7 for a value that the field does not take; PLDW and PSTW move 32 payload bytes, and trap with
reason 3 beyond the payload; FSEL selects a flow of the window; SLD, SST, SLDW and SSTW move bytes of the current flow, and trap with reason
6 where its state is lost. A trap suspends the flow, drops the packet and its replicas, and writes its report into the fault channel of the
attachment's context: record n of R376 goes to slot (n − 1) mod 2^FCLOG2, bytes 0x04 to 0x3F first and SEQ last.
R287, R288, R289, R254, R285: groups and the ends of a kernel. GLD and GMEM read a group, EMIT and EMITG add replicas, at most 64 in all,
or trap with reason 7; a group that cannot be read, breaks its rules, or lies beyond 1023 traps with its reason, but GLD of one beyond 1023
answers 0; while the walk to its entry is the host's to make, the instruction raises it and waits (R389; log 12, DEDUCED). FWD sends the replicas and then the packet, DROP the replicas, NACK the replicas and a NACK; TRAP traps with reason 1 and its code. -/
def Obligations.SorterInstructions : Prop :=
  (∀ (s : State) (r : Run) (kd ka kb wd wa : BitVec 4) (imm : BitVec 18) (n : BitVec 6) (off : BitVec 8) (l : BitVec 2), s.mySorter.run = some r →
     let same := fun t : State => t.mySorter = { s.mySorter with run := t.mySorter.run } ∧ (∀ m, m ≠ s.cur.sorter → t.sorterOf m = s.sorterOf m) ∧
       { t with sorters := s.sorters } = s
     let writes := fun (i : Instr) (v : Word) => ∃ t u, exec i s = .next t ∧ t.mySorter.run = some u ∧ same t ∧
       (∀ m, u.kr m = if m = kd ∧ m ≠ 0 then v else r.kr m) ∧ { u with k := r.k, pc := r.pc } = r ∧ u.pc = r.pc + 1
     let goes := fun (i : Instr) (taken : Prop) [Decidable taken] => ∃ t, exec i s = .next t ∧ same t ∧
       t.mySorter.run = some { r with pc := if taken then r.pc + off.toNat else r.pc + 1 }
     let a := r.kr ka
     let b := r.kr kb
     writes (.sorterAdd kd ka kb) (a + b) ∧ writes (.sorterSub kd ka kb) (a - b) ∧ writes (.sorterAnd kd ka kb) (a &&& b) ∧
     writes (.sorterOr kd ka kb) (a ||| b) ∧ writes (.sorterXor kd ka kb) (a ^^^ b) ∧
     writes (.sorterShl kd ka kb) (if b.toNat < 64 then a <<< b.toNat else 0) ∧
     writes (.sorterShr kd ka kb) (if b.toNat < 64 then a >>> b.toNat else 0) ∧
     writes (.setltu kd ka kb) (if a.toNat < b.toNat then 1 else 0) ∧ writes (.seteq kd ka kb) (if a = b then 1 else 0) ∧
     writes (.addk kd ka imm) (a + imm.signExtend 64) ∧ writes (.andk kd ka imm) (a &&& imm.setWidth 64) ∧
     writes (.shlk kd ka n) (a <<< n.toNat) ∧ writes (.shrk kd ka n) (a >>> n.toNat) ∧ writes (.movk kd imm) (imm.signExtend 64) ∧
     writes (.wget kd wa l) (BitVec.ofNat 64 ((r.wr wa).toNat / 2 ^ (64 * l.toNat))) ∧
     goes (.sorterBeq ka kb off) (a = b) ∧ goes (.sorterBne ka kb off) (a ≠ b) ∧ goes (.sorterBltu ka kb off) (a.toNat < b.toNat) ∧
     goes (.jmp off) True ∧
     (∃ t u, exec (.wset wd ka l) s = .next t ∧ same t ∧ t.mySorter.run = some u ∧ { u with w := r.w, pc := r.pc } = r ∧ u.pc = r.pc + 1 ∧
       (∀ m, m ≠ wd → u.wr m = r.wr m) ∧
       ∀ j, j < 4 → (u.wr wd).extractLsb' (64 * j) 64 = if j = l.toNat then a else (r.wr wd).extractLsb' (64 * j) 64)) ∧
  ((∀ (s : State) (ctx : Nat) (c : Context) (record : List Byte), s.context ctx = some c → record.length = 60 →
     let va := c.fcbase.toNat + 64 * (c.fcSeq.toNat % 2 ^ c.fclog2)
     let t := s.writeFault ctx record
     ({ t with mem := s.mem, writes := s.writes, poison := s.poison, trailing := s.trailing, contexts := s.contexts, service := s.service } = s) ∧
     (∀ k, t.context k = if k = ctx then some { c with fcSeq := c.fcSeq + 1 } else s.context k) ∧
     (∀ keys, s.deviceKeys 0 ctx .store (span va 64) = .ok keys → keys.Nodup →
       t.service = s.service ∧ (∀ j k, j < 60 → keys[j + 4]? = some k → t.byteLast k = record.getD j 0) ∧
       (∀ k, k ∉ keys.drop 4 → t.byteLast k = s.byteLast k) ∧
       t.trailing = s.trailing ++ [.bytes ((keys.take 4).zip (natToBytes 4 (c.fcSeq.toNat + 1)))])) ∧
   ∀ (s : State) (r : Run) (kd ka wd wa : BitVec 4) (f : BitVec 5) (c o : BitVec 3) (h : BitVec 1), s.mySorter.run = some r →
     let x := s.mySorter
     let trapped := fun (i : Instr) (reason : Nat) => exec i s = .next (s.kernelTrap r reason 0)
     let keeps := fun (i : Instr) (u : Run) => exec i s = .next (s.keepRun { u with pc := r.pc + 1 })
     let p := r.packet
     let at_ := 32 * c.toNat
     let flow := tget x.flows 0 r.flow
     let bytes := fun (i n : Nat) => flow.toNat / 2 ^ (8 * i) % 2 ^ (8 * n)
     let puts := fun (i : Instr) (b n v : Nat) => ∃ t, exec i s = .next t ∧ t.mySorter.run = some { r with pc := r.pc + 1 } ∧
       (∀ m, m ≠ r.flow → tget t.mySorter.flows 0 m = tget x.flows 0 m) ∧
       (∀ j, j < 512 → (tget t.mySorter.flows 0 r.flow).getLsbD j =
         if 8 * b ≤ j ∧ j < 8 * (b + n) then v.testBit (j - 8 * b) else flow.getLsbD j) ∧
       { t with sorters := s.sorters } = s
     -- header fields
     keeps (.hget kd f) (r.setK kd (if carries p.kind f.toNat then Packet.field p f.toNat else 0)) ∧
     (fieldWritable f.toNat = true → carries p.kind f.toNat = true →
       (badField f.toNat (r.kr ka) = true → trapped (.hset ka f) 7) ∧
       (badField f.toNat (r.kr ka) = false → keeps (.hset ka f) { r with packet := putField p f.toNat (r.kr ka) } ∧
         carries (putField p f.toNat (r.kr ka)).kind f.toNat = true ∧
         (f = 0 → Packet.field (putField p f.toNat (r.kr ka)) 0 = r.kr ka) ∧ (f = 6 → Packet.field (putField p f.toNat (r.kr ka)) 6 = r.kr ka) ∧
         (f = 13 → Packet.field (putField p f.toNat (r.kr ka)) 13 = r.kr ka))) ∧
     -- payload
     (r.length ≤ at_ → trapped (.pldw wd c) 3 ∧ trapped (.pstw wa c) 3) ∧
     (at_ < r.length →
       keeps (.pldw wd c) (r.setW wd (BitVec.ofNat 256 (bytesToNat (((p.payload.take r.length).drop at_).take 32)))) ∧
       (r.length = p.payload.length → ∃ u, keeps (.pstw wa c) u ∧ u.wrotePayload = true ∧ u.packet.payload.length = p.payload.length ∧
         ∀ j, u.packet.payload[j]? = if at_ ≤ j ∧ j < at_ + 32 ∧ j < r.length
           then some (BitVec.ofNat 8 ((r.wr wa).toNat / 2 ^ (8 * (j - at_)))) else p.payload[j]?)) ∧
     -- flow state
     (∃ u, keeps (.fsel ka) u ∧ u.flow = r.attachment.fb + (r.kr ka).toNat % r.attachment.fc ∧
       u.kr 1 = BitVec.ofNat 64 ((r.kr ka).toNat % r.attachment.fc) ∧ (∀ m, m ≠ 1 → u.kr m = r.kr m) ∧ u.packet = r.packet) ∧
     (r.flow ∈ x.badFlows → trapped (.sld kd o) 6 ∧ trapped (.sst ka o) 6 ∧ trapped (.sldw wd h) 6 ∧ trapped (.sstw wa h) 6) ∧
     (r.flow ∉ x.badFlows →
       keeps (.sld kd o) (r.setK kd (BitVec.ofNat 64 (bytes (8 * o.toNat) 8))) ∧
       keeps (.sldw wd h) (r.setW wd (BitVec.ofNat 256 (bytes (32 * h.toNat) 32))) ∧
       puts (.sst ka o) (8 * o.toNat) 8 (r.kr ka).toNat ∧ puts (.sstw wa h) (32 * h.toNat) 32 (r.wr wa).toNat) ∧
     (∀ reason code, let t := s.kernelTrap r reason code
       t.mySorter.run = none ∧ (∀ m, m ∈ t.mySorter.suspended ↔ m ∈ x.suspended ∨ m = r.flow) ∧ t.net = s.net ∧ t.sent = s.sent ∧
       ∃ u : State, { u with sorters := s.sorters } = s ∧ t = u.writeFault r.attachment.ctx
         ([1, 0] ++ natToBytes 2 s.chip.toNat ++ natToBytes 8 36 ++ natToBytes 8 0 ++
           [BitVec.ofNat 8 s.cur.sorter, BitVec.ofNat 8 r.flow, BitVec.ofNat 8 r.pc, BitVec.ofNat 8 reason, BitVec.ofNat 8 code] ++
           natToBytes 1 r.attachment.cls.toNat ++ [0, 0] ++ natToBytes 4 r.key ++ natToBytes 4 r.packet.seq.toNat ++ List.replicate 24 0))) ∧
  (∀ (s : State) (r : Run) (kd ka kb : BitVec 4) (n : BitVec 8), s.mySorter.run = some r →
     let trapped := fun (i : Instr) (reason code : Nat) => exec i s = .next (s.kernelTrap r reason code)
     let keeps := fun (i : Instr) (u : Run) => exec i s = .next (s.keepRun { u with pc := r.pc + 1 })
     let g := (r.kr ka).toNat
     let ctx := r.packet.ctxid.toNat
     let group := s.groupOf ctx g
     let emits := fun (i : Instr) (chips : List (BitVec 12)) =>
       (64 < r.emitted.length + chips.length → trapped i 7 0) ∧
       (r.emitted.length + chips.length ≤ 64 → ∃ u, keeps i u ∧ { u with emitted := r.emitted } = r ∧
         u.emitted.take r.emitted.length = r.emitted ∧ (u.emitted.drop r.emitted.length).map (fun q => (q.dchip, q.addr.extractLsb' 52 12)) =
           chips.map (fun m => (m, m)))
     let ended := fun (i : Instr) (last : List Packet) => ∃ t, exec i s = .next t ∧ t.mySorter.run = none ∧ t.mySorter.flows = s.mySorter.flows ∧
       t.mySorter.suspended = s.mySorter.suspended ∧ t.mem = s.mem ∧ t.cells = s.cells ∧
       (let sealed := fun q : Packet => if r.wrotePayload = true ∧ (q.kind = 0 ∨ q.kind = 7) then { q with pcrc := crc32c q.payload } else q
        let all := r.emitted.map sealed ++ last.map sealed
        let stays := fun q : Packet => decide (q.dchip = s.chip ∧ q.kind ≠ 7 ∧ q.kind ≠ 8)
        t.net = s.net ++ (all.filter stays).map (fun q => { packet := q, outbound := false, offered := true }) ∧
        t.sent = s.sent ++ all.filter fun q => !stays q)
     (1024 ≤ g → keeps (.gld kd ka) (r.setK kd 0) ∧ trapped (.gmem kd ka kb) 4 0 ∧ trapped (.emitg ka) 4 0) ∧
     (∀ u, g < 1024 → s.groupWait ctx g = some u →
       exec (.gld kd ka) s = .next u ∧ exec (.gmem kd ka kb) s = .next u ∧ exec (.emitg ka) s = .next u) ∧
     (∀ reason, g < 1024 → s.groupWait ctx g = none → group = .bad reason →
       let t := (s.deviceForget 0 ctx).kernelTrap r reason 0
       exec (.gld kd ka) s = .next t ∧ exec (.gmem kd ka kb) s = .next t ∧ exec (.emitg ka) s = .next t) ∧
     (∀ ms, g < 1024 → s.groupWait ctx g = none → group = .members ms →
       keeps (.gld kd ka) (r.setK kd (BitVec.ofNat 64 ms.length)) ∧
       (ms.length ≤ (r.kr kb).toNat → trapped (.gmem kd ka kb) 4 0) ∧
       (∀ m, ms[(r.kr kb).toNat]? = some m → keeps (.gmem kd ka kb) (r.setK kd (m.setWidth 64))) ∧
       emits (.emitg ka) ms) ∧
     (4096 ≤ g → trapped (.emit ka) 7 0) ∧ (g < 4096 → emits (.emit ka) [BitVec.ofNat 12 g]) ∧
     trapped (.sorterTrap n) 1 n.toNat ∧ ended .drop [] ∧ ended .fwd [r.packet] ∧
     (∃ t q, exec (.nack n) s = .next t ∧ t.mySorter.run = none ∧ q.kind = 3 ∧ q.dchip = r.packet.schip ∧ q.schip = s.chip ∧
       q.reason = n ∧ q.addr = r.packet.addr ∧
       (t.net.getLast? = some { packet := q, outbound := false, offered := true } ∧ q.dchip = s.chip ∨
         t.sent.getLast? = some q ∧ q.dchip ≠ s.chip)))

/-- R274 to R279, R291, R294, R385: control operations and packets at the sorting office. A control operation is the SORTER command that
runs, its operands in MBCMD and at the host address (log 53, DESIGN CHOICE); it waits while its sorter runs a kernel, then takes effect whole
and ends the command. LOAD places a kernel that the verifier accepts where kernel memory has room, and else answers the first condition of
R278 that it breaks; ATTACH adds a rule for a kernel of its own context, class and range, in a flow window that no other context has, in
place of the rule of the same context, class and range, and zeroes the window on request; DETACH removes one rule; REARM clears the suspension of a
flow or of every flow of a window; STATE reads or writes a flow of an own window. What an operation is not said to change stays. A packet that
no rule matches passes on, but one to a group is refused with reason 7; one to a suspended flow is dropped; else it starts its kernel, which
runs to its end in the step or, with the flag clear, one instruction at a time (log 17, DEDUCED). -/
def Obligations.SorterControlAndOffice : Prop :=
  (∀ (s : State) (op : SorterOp) (i : Instr), s.hostUp = true → s.service.busy = some 3 → s.sorterOperation = some op →
    (i = .sorter ∨ i = (match op with
      | .load _ _ _ => .load
      | .attach _ _ => .attach
      | .detach _ _ _ _ => .detach
      | .rearm _ _ _ _ _ => .rearm
      | .state _ _ _ _ => .state)) →
    let ends := fun (u : State) (status : Nat) (result : Word) => ∃ t, exec i s = .next t ∧ t = u.commandDone 3 status result ∧
      t.rules = u.rules ∧ t.sorters = u.sorters ∧ t.net = u.net ∧ t.cells = u.cells ∧ t.service.busy = none ∧ t.service.mbstatus = status ∧
      t.service.mbresult = result
    let changes := fun (n : Nat) (x : Sorter) (status : Nat) (result : Word) => ∃ u, ends u status result ∧ u.sorterOf n = x ∧
      (∀ m, m ≠ n → u.sorterOf m = s.sorterOf m) ∧ { u with sorters := s.sorters } = s
    (s.sorterIdle (opSorter s op) = false → exec i s = .next s) ∧
    (s.sorterIdle (opSorter s op) = true →
      (∀ ctx n record, op = .load ctx n record → let x := s.sorterOf n
        let up := n < 32 ∧ x.fenced = false ∧ s.context ctx ≠ none
        (¬ up → ends s 1 0) ∧ (up → kernelOf ctx record = none → ends s 1 1) ∧
        (∀ k, up → kernelOf ctx record = some k → let used := (x.kernels.map fun k => k.code.length).sum
          (verify k ≠ 0 → ends s 1 (BitVec.ofNat 64 (verify k))) ∧ (verify k = 0 → 256 < used + k.code.length → ends s 2 0) ∧
          (verify k = 0 → used + k.code.length ≤ 256 →
            changes n { x with kernels := x.kernels ++ [k] } 0 (BitVec.ofNat 64 x.kernels.length)))) ∧
      (∀ a zero, op = .attach a zero → let x := s.sorterOf a.sorter
        let same := fun r : Attachment × Kernel => decide (r.1.ctx = a.ctx ∧ r.1.cls = a.cls ∧ r.1.lo = a.lo ∧ r.1.hi = a.hi)
        let inside := fun f => a.fb ≤ f ∧ f < a.fb + a.fc
        let fits := fun k : Kernel => a.sorter < 32 ∧ x.fenced = false ∧ k.ctx = a.ctx ∧ k.cls = a.cls ∧ k.lo = a.lo ∧ k.hi = a.hi ∧ a.fc ≠ 0 ∧
          a.fb + a.fc ≤ 128 ∧
          (∀ r ∈ s.rules, same r = false → r.1.ctx = a.ctx → r.1.cls = a.cls → r.1.hi < a.lo ∨ a.hi < r.1.lo) ∧
          ∀ r ∈ s.rules, r.1.ctx ≠ a.ctx → r.1.sorter = a.sorter → r.1.fb + r.1.fc ≤ a.fb ∨ a.fb + a.fc ≤ r.1.fb
        ((∀ k, x.kernels[a.kernel]? = some k → ¬ fits k) → ends s 1 0) ∧
        (∀ k, x.kernels[a.kernel]? = some k → fits k → ∃ u, ends u 0 0 ∧ u.rules = s.rules.filter (fun r => !same r) ++ [(a, k)] ∧
          (let y := u.sorterOf a.sorter
           (∀ f, tget y.flows 0 f = if zero = true ∧ inside f then 0 else tget x.flows 0 f) ∧
           (∀ f, f ∈ y.badFlows ↔ f ∈ x.badFlows ∧ ¬ (zero = true ∧ inside f)) ∧
           { y with flows := x.flows, badFlows := x.badFlows } = x) ∧
          (∀ m, m ≠ a.sorter → u.sorterOf m = s.sorterOf m) ∧ { u with sorters := s.sorters, rules := s.rules } = s)) ∧
      (∀ ctx cls lo hi, op = .detach ctx cls lo hi →
        let hit := fun r : Attachment × Kernel => decide (r.1.ctx = ctx ∧ r.1.cls = BitVec.ofNat 8 cls ∧ r.1.lo = lo ∧ r.1.hi = hi)
        ((∀ r ∈ s.rules, hit r = false) → ends s 1 0) ∧
        ((∃ r ∈ s.rules, hit r = true) → ends { s with rules := s.rules.filter fun r => !hit r } 0 0)) ∧
      (∀ ctx n flow fb fc, op = .rearm ctx n flow fb fc → let x := s.sorterOf n
        let named := fun f => match flow with | some g => f = g | none => fb ≤ f ∧ f < fb + fc
        let owned := fun f => ∃ r ∈ s.rules, r.1.ctx = ctx ∧ r.1.sorter = n ∧ r.1.fb ≤ f ∧ f < r.1.fb + r.1.fc
        ((∃ f, named f ∧ ¬ owned f) → ends s 1 0) ∧
        ((∀ f, named f → owned f) → ∃ y, changes n y 0 0 ∧ { y with suspended := x.suspended } = x ∧
          ∀ f, f ∈ y.suspended ↔ f ∈ x.suspended ∧ ¬ named f)) ∧
      (∀ ctx n f write, op = .state ctx n f write → let x := s.sorterOf n
        let owned := ∃ r ∈ s.rules, r.1.ctx = ctx ∧ r.1.sorter = n ∧ r.1.fb ≤ f ∧ f < r.1.fb + r.1.fc
        (¬ owned → ends s 1 0) ∧
        (owned → (write = none → ends (s.addGlobal (cellsFrom s.sorterData (natToBytes 64 (tget x.flows 0 f).toNat))) 0 0) ∧
          (∀ v, write = some v → ∃ y, changes n y 0 0 ∧ tget y.flows 0 f = v ∧ (∀ m, m ≠ f → tget y.flows 0 m = tget x.flows 0 m) ∧
            (∀ m, m ∈ y.badFlows ↔ m ∈ x.badFlows ∧ m ≠ f) ∧ { y with flows := x.flows, badFlows := x.badFlows } = x))))) ∧
  (∀ s : State, ¬ (s.hostUp = true ∧ s.service.busy = some 3) →
    exec .load s = .next s ∧ exec .attach s = .next s ∧ exec .detach s = .next s ∧ exec .rearm s = .next s ∧ exec .state s = .next s) ∧
  (∀ (s : State) (it : NetItem), s.net[s.args.index]? = some it → let n := s.args.index
    let i : Instr := .sorterPacket
    let u : State := { s with net := s.net.eraseIdx n }
    (it.offered = true → exec i s = .next s) ∧
    (it.offered = false → s.ruleFor it.packet it.outbound = none →
      (it.packet.kind = 7 ∨ it.packet.kind = 8 → exec i s = .next (u.transmit (it.packet.nack s.chip 7))) ∧
      (it.packet.kind ≠ 7 → it.packet.kind ≠ 8 → it.outbound = true → exec i s = .next { u with sent := s.sent ++ [it.packet] }) ∧
      (it.packet.kind ≠ 7 → it.packet.kind ≠ 8 → it.outbound = false →
        exec i s = .next { s with net := s.net.set n { it with offered := true } })) ∧
    (∀ r, it.offered = false → s.ruleFor it.packet it.outbound = some r → let run := startRun r.1 r.2 it.packet it.outbound
      let x := s.sorterOf r.1.sorter
      (x.run ≠ none ∨ s.earlierFor r.1.sorter = true → exec i s = .next s) ∧
      (x.run = none → s.earlierFor r.1.sorter = false →
        (run.flow ∈ x.suspended → exec i s = .next u) ∧
        (run.flow ∉ x.suspended →
          let v : State := { u.setSorter r.1.sorter { x with run := some run } with cur := { s.cur with sorter := r.1.sorter } }
          (s.args.flag = false → exec i s = .next v) ∧ (s.args.flag = true → exec i s = .next (runKernel v 64))))))

/-- R337 to R342: a quantum and its boundary. A member that has counted LEN instructions pauses. The boundary of a context's group is taken
once it is ready and the context is not failing: the quantum number goes up by one, and every core of the context is a member from then on
exactly when LEN of its QUANT is not 0; a member that had counted LEN starts from 0. What a boundary waits for beyond R340 is the model's
reading (log 33, DEDUCED), as is that a member that still waits keeps its count (log 74, DEDUCED).
R337, R340, R341: the order of a boundary b. Cells and cores of the context are taken in ascending logical-core number. The messages that
members still hold in their send buffers join the ones held for the boundary (log 33, DEDUCED), and what was forked long enough ago enters
the view. Each core's collected operations are then applied in program order, and a wait that is not satisfied stays; then the sequencer
gates; then the held remote adds, in ascending (SCHIP, SCELL, ATAG); then the held messages, members' first by the sender's number and in the
order sent, others' in the order of arrival (one that finds no room stays: log 47, DEDUCED), each add refused where its memory has been switched off; then the view is taken and every member that
does not wait starts the next quantum.
R134, R148, R152, R153, R330 to R332, R340, R347: what a boundary does with one collected operation of a core p, for each kind: its whole
effect, and whether it stays for the next boundary. What fails now becomes a deferred event of the core (log 28, DEDUCED), and a result
lands in the register or queue that still waits for it (log 27, DEDUCED), in a handler of a pre-emption when that returns (log 97, DEDUCED). A post is
followed by the examination of the first waiters (log 98, DESIGN CHOICE). What a collected release orders is visible at its scope first
(R323). -/
def Obligations.QuantaAndBoundaries : Prop :=
  (∀ s : State, let k := s.me
     let ctx := s.args.ctx
     let atEnd := fun k : Core => k.member.active = true ∧ k.quant.toNat % 2 ^ 21 ≠ 0 ∧ k.quant.toNat % 2 ^ 21 ≤ k.member.count
     (¬ atEnd k → exec .quantumEnd s = .next s) ∧
     (atEnd k → exec .quantumEnd s = .next (s.updMe fun k => { k with member := { k.member with paused := true } })) ∧
     (s.context ctx = none → exec .boundary s = .next s) ∧
     (∀ c, s.context ctx = some c →
       (c.dying ≠ none ∨ s.boundaryReady ctx c.quantum = false → exec .boundary s = .next s) ∧
       (c.dying = none → s.boundaryReady ctx c.quantum = true →
         ∃ t c', exec .boundary s = .next t ∧ t = s.boundary ctx c.quantum ∧ t.context ctx = some c' ∧ c'.quantum = c.quantum + 1 ∧
           { c' with quantum := c.quantum, ownView := c.ownView, dying := none } = c ∧
           ((∀ n, s.held ctx n ≠ none → s.residentIn n = some ctx) → c'.dying = none) ∧
           ∀ n r, n < 1024 → r ≠ .s → s.residentIn n = some ctx → let u := t.coreOf ⟨n, r⟩
             (u.member.active = true ↔ u.quant.toNat % 2 ^ 21 ≠ 0) ∧ u.c0 = (s.coreOf ⟨n, r⟩).c0 ∧
               (atEnd (s.coreOf ⟨n, r⟩) → u.member.count = 0 ∧ u.member.paused = false)))) ∧
  (∀ (s : State) (ctx b : Nat),
     let cells := s.cellsWith ctx
     let cores := (s.coresOfContext ctx).map Prod.fst
     cells.Pairwise (· < ·) ∧ (cores.map lcn).Pairwise (· < ·) ∧
     (∃ collected entered applied gated added delivered viewed : State,
       collected = cores.foldl (fun u p => u.collectSends ctx p) s ∧
       entered = cells.foldl (fun u c => u.enterPosts ctx b c) collected ∧
       applied = cores.foldl (fun u p => u.applyOps ctx p) entered ∧
       gated = cells.foldl (fun u c => u.boundaryGate ctx c) (applied.updEnded ctx fun e => { e with held := false }) ∧
       added = gated.applyAdds ctx ∧
       delivered = cells.foldl (fun u c => u.deliverHeld ctx c) added ∧
       viewed = (delivered.takeView ctx).updContext ctx (fun c => { c with quantum := b + 1 }) ∧
       s.boundary ctx b =
         cores.foldl (fun u p => u.updHeldCore ctx p fun k => k.nextQuantum (viewed.stillWaiting ctx p (viewed.heldCore ctx p))) viewed) ∧
     (∀ p : CoreRef, let one := fun (r : State × List Collected) (op : Collected) =>
         let o := r.1.applyOp ctx p op
         (o.1.noteEnded ctx p r.1.fresh, if o.2 = true then r.2 ++ [op] else r.2)
       let r := (s.heldCore ctx p).member.ops.foldl one (s, [])
       s.applyOps ctx p = r.1.updHeldCore ctx p fun k => { k with member := { k.member with ops := r.2 } }) ∧
     (let mine := fun e : Packet × Nat => e.1.ctxid.toNat = ctx
      ∃ l : List (Packet × Nat), l.Perm (s.heldAdds.filter fun e => decide (mine e)) ∧
       l.Pairwise (fun e f => e.1.schip.toNat * 2 ^ 26 + e.1.scell.toNat * 2 ^ 16 + e.1.atag.toNat ≤
         f.1.schip.toNat * 2 ^ 26 + f.1.scell.toNat * 2 ^ 16 + f.1.atag.toNat) ∧
       s.applyAdds ctx = l.foldl (fun u e => if u.keyOut e.2 then u.transmit (e.1.nack u.chip 5) else u.remoteAdd e.1 e.2 2) { s with heldAdds := s.heldAdds.filter fun e => decide (¬ mine e) }) ∧
     (∀ c x, s.held ctx c = some x → ∃ members others : List (Option (Nat × Nat) × Message),
       others = x.heldMessages.filter (fun e => e.1.isNone) ∧ members.Perm (x.heldMessages.filter fun e => e.1.isSome) ∧
       (members.filterMap Prod.fst).Pairwise (fun a b => a.1 < b.1 ∨ a.1 = b.1 ∧ a.2 ≤ b.2) ∧
       (∀ n, members.filter (fun e => decide (e.1 = some n)) = x.heldMessages.filter fun e => decide (e.1 = some n)) ∧
       s.deliverHeld ctx c = (members ++ others).foldl (fun u e =>
         match u.placeMessage e.2 with
         | some v => v
         | none => u.updHeld ctx c fun x => { x with heldMessages := x.heldMessages ++ [e] })
         (s.updHeld ctx c fun x => { x with heldMessages := [] }))) ∧
  (∀ (s : State) (ctx : Nat) (p : CoreRef) (x : CellCtx), MemoryOk s → p.role ≠ .s → s.held ctx p.cell = some x →
     let k := x.core p.role
     let me : Waiter := .core p.role
     let stays := fun op : Collected => s.applyOp ctx p op = (s, true)
     let changes := fun (op : Collected) (y : CellCtx) => ∃ t, s.applyOp ctx p op = (t, false) ∧ t.held ctx p.cell = some y ∧
       (∀ c, c ≠ p.cell → t.held ctx c = s.held ctx c) ∧ { t with cells := s.cells, saved := s.saved } = s
     let event := fun (cause : Nat) (tval : Word) => x.setCore p.role { k with events := k.events ++ [{ cause := cause, tval := tval }] }
     let granted := fun (y : CellCtx) (op : Collected) => y.setCore p.role { k with member := { k.member with granted := some op } }
     let lands := fun (y : CellCtx) (dst : Option RegName) (v : Word) =>
       match dst with
       | some (.x n) =>
         let q : Pend := { reg := .x n, source := .boundary }
         let k' := { k with pending := k.pending.erase q }
         if q ∈ k.pending then
           (if n < 32 then y.setCore p.role (if k.handling then { k' with lateD := k.lateD ++ [(n, v)] } else k'.setX n v)
            else { y.setCore p.role k' with queues := tupd y.queues [] (n - 32) (· ++ [{ value := v, after := [] }]) })
         else y
       | _ => y
     (∀ n amount, let op : Collected := .semPost n amount
       (255 < x.sem n + amount → changes op (event 34 (BitVec.ofNat 64 amount))) ∧
       (x.sem n + amount ≤ 255 → changes op ((x.setSem n (x.sem n + amount)).examine n s.examined))) ∧
     (∀ n amount, let op : Collected := .semWait n amount
       let first := x.semLine n = [] ∨ (x.semLine n).head? = some me
       (amount = 0 → changes op (granted x op)) ∧
       (amount ≠ 0 → first → amount ≤ x.sem n → changes op (granted (x.takeSem n amount me) op)) ∧
       (amount ≠ 0 → ¬ (first ∧ amount ≤ x.sem n) → stays op)) ∧
     (∀ n amount dst id, let op : Collected := .semTry n amount dst id
       (x.semLine n = [] → amount ≤ x.sem n → changes op (lands (x.takeSem n amount .sequencer) dst 1)) ∧
       (¬ (x.semLine n = [] ∧ amount ≤ x.sem n) → changes op (lands x dst 0))) ∧
     (∀ n count, changes (.semStore n count) ((x.setSem n count.toNat).examine n s.examined)) ∧
     (∀ fn n value, ∃ y, changes (.channel fn n value) y ∧ { y with pigeons := x.pigeons } = x ∧
       (∀ j, j ≠ n → tget y.pigeons {} j = tget x.pigeons {} j) ∧
       (let v := tget x.pigeons {} n
        let w := tget y.pigeons {} n
        { w with ctl := v.ctl } = v ∧ (fn = 0 → w.ctl = v.ctl ||| 0x2000000000000000#64) ∧ (fn = 1 → w.ctl = v.ctl &&& 0xDFFFFFFFFFFFFFFF#64) ∧
         (2 ≤ fn → ∀ j, j < 64 → w.ctl.getLsbD j = if 58 ≤ j ∧ j ≤ 60 then value.testBit (j - 58) else v.ctl.getLsbD j))) ∧
     (s.residentIn p.cell = some ctx → ∀ addr, let b := s.barAt addr
       let updates := fun (op : Collected) (c : BitVec 128) => ∃ t, s.applyOp ctx p op = (t, false) ∧ t.barAt addr = c ∧
         (∀ a, a < addr ∨ addr + 16 ≤ a → t.byteLast a = s.byteLast a) ∧ { t with mem := s.mem, writes := s.writes, fresh := s.fresh } = s
       (∀ n, let v := BitVec.ofNat 24 n
         (barOutbound b = 0 → updates (.barSet addr n) (barMake 0 v 0 0 v)) ∧
         (barOutbound b ≠ 0 → changes (.barSet addr n) (event 39 (BitVec.ofNat 64 (addr % 2 ^ 20))))) ∧
       (barPending b ≠ 0 → updates (.barArrive addr) (barArrive b)) ∧
       (barPending b = 0 → changes (.barArrive addr) (event 39 (BitVec.ofNat 64 (addr % 2 ^ 20)))) ∧
       (∀ n, updates (.barExpect addr n) (barExpect b n)) ∧
       (∀ gen, let op : Collected := .barWait addr gen
         ((barGen b).toNat ≠ gen → changes op (granted x op)) ∧ ((barGen b).toNat = gen → stays op))) ∧
     (∀ page, let r := s.ownOf page
       let mine := (ctx, s.coreId p)
       let becomes := fun (op : Collected) (r' : OwnRec) (y : CellCtx) => ∃ t, s.applyOp ctx p op = (t, false) ∧ t.ownOf page = r' ∧
         (∀ q, q ≠ page → t.ownOf q = s.ownOf q) ∧ t.held ctx p.cell = some y ∧ { t with own := s.own, cells := s.cells, saved := s.saved } = s
       (∀ heir, becomes (.hand page heir) { r with holder := none, pending := some (ctx, heir), handedBy := some mine } x) ∧
       becomes (.drop page) { r with holder := none, pending := none, written := false } x ∧
       ∀ dst id, let op : Collected := .take page dst id
         let held : OwnRec := { r with holder := some mine, pending := none, written := false }
         (r.holder = some mine → becomes op r (lands x dst 0)) ∧
         (r.holder ≠ some mine → r.pending = some mine → becomes op held (lands x dst 1)) ∧
         (r.holder = none → r.pending = none → becomes op held (lands x dst 2)) ∧
         (r.holder ≠ some mine → (∃ q, r.pending = some q ∧ q ≠ mine) → r.handedBy = some mine → becomes op held (lands x dst 3)) ∧
         (r.holder ≠ some mine → r.pending ≠ some mine → ¬ (r.holder = none ∧ r.pending = none) → ¬ (r.pending ≠ none ∧ r.handedBy = some mine) →
           stays op)) ∧
     (∀ fn wide addr y z dst ea owned order, let op : Collected := .amo fn wide addr y z dst ea owned order
       let size := if wide then 8 else 4
       let m := s.natLast addr size
       let stored := amoNat fn wide m y z
       let old : Word := if wide then BitVec.ofNat 64 m else (BitVec.ofNat 32 m).signExtend 64
       let waits := match dst with
         | some r => k.pending.erase { reg := r, source := .boundary }
         | none => k.pending
       let fails := fun cause : Nat => x.setCore p.role { k with pending := waits, events := k.events ++ [{ cause := cause, tval := ea }] }
       (s.keyOut addr = true → changes op (fails 7)) ∧
       (s.keyOut addr = false → s.poisonedLast (sectorOf addr) = false → ∃ t, s.applyOp ctx p op = (t, false) ∧ t.held ctx p.cell = some (lands x dst old) ∧
         (∀ n, stored = some n → t.natLast addr size = n) ∧
         (∀ a, (stored = none ∨ ¬ (addr ≤ a ∧ a < addr + size)) → t.byteLast a = s.byteLast a) ∧
         (∀ page, owned = some page → stored ≠ none → (t.ownOf page).written = true) ∧
         (∀ page, owned ≠ some page ∨ stored = none → t.ownOf page = s.ownOf page) ∧
         (∀ sc, order.release = some sc → s.residentIn p.cell = some ctx →
           (∀ n ∈ s.pastLocal p, n < order.id → t.writesAt [n] sc = true) ∧ ∀ e ∈ k.seen, e.1 < order.id → t.writesAt [e.2] sc = true) ∧
         { t with mem := s.mem, writes := s.writes, fresh := s.fresh, own := s.own, cells := s.cells, saved := s.saved } = s) ∧
       (s.keyOut addr = false → s.poisonedLast (sectorOf addr) = true → ∃ t, s.applyOp ctx p op = (t, false) ∧ t.poisonedLast (sectorOf addr) = true ∧
         (∀ a, t.byteLast a = s.byteLast a) ∧ t.held ctx p.cell = some (fails 29) ∧
         (∀ page, owned = some page → (t.ownOf page).written = true) ∧ (∀ page, owned ≠ some page → t.ownOf page = s.ownOf page) ∧
         { t with mem := s.mem, writes := s.writes, poison := s.poison, fresh := s.fresh, own := s.own, cells := s.cells, saved := s.saved } = s)))

/-- R372 to R374, R389: PREEMPTION_REQUEST makes interrupt code 3 pending on the three cores of a cell, and waits while the firmware of its cluster
restarts. SWITCH_OUT of a cell whose cores have parked and whose work is done (its stores drained too: log 51, DEDUCED) saves its state and frees
the cell; while the walk to a page of its image is the host's to make, it raises it and waits, as RESTORE does (R389; log 12, DEDUCED); an image that
cannot be written, and poison on the state that is saved, is a fatal fault (in this order: log 7, DESIGN
CHOICE). RESTORE of a context into a free cell in service brings its state back: its cores resume at TRAPVEC, in trap mode, with RESTORED set; a
part that was never resident begins as first placed (log 6, DEDUCED).
R377, R138, R177, R222, R294, R317, R333, R361: CONTEXT_REMOVAL of a context with a fatal fault leaves nothing of it: no cell, no part
switched out, no copy, block, mixing cursor, rule, launch, miss, failed walk or descriptor; every other cell stays as it was. -/
def Obligations.ContextsSwitchAndEnd : Prop :=
  (∀ s : State, let cell := s.args.cell
     let ctx := s.args.ctx
     (s.residentIn cell = none ∨ s.cellOut cell = true ∨ s.service.restart = some (cell / 16) → exec .preemptionRequest s = .next s) ∧
     (s.residentIn cell ≠ none → s.cellOut cell = false → s.service.restart ≠ some (cell / 16) → ∃ t, exec .preemptionRequest s = .next t ∧
       (∀ r, r ≠ .s → (t.coreOf ⟨cell, r⟩).preempt = true ∧ { t.coreOf ⟨cell, r⟩ with preempt := (s.coreOf ⟨cell, r⟩).preempt } = s.coreOf ⟨cell, r⟩) ∧
       (∀ n, n ≠ cell → t.cellOf n = s.cellOf n) ∧ { t with cells := s.cells } = s) ∧
     (s.residentIn cell = none → exec .switchOut s = .next s) ∧
     (∀ own, s.residentIn cell = some own →
       (s.isDying own = true ∨ s.switchReady cell = false → exec .switchOut s = .next s) ∧
       (s.isDying own = false → s.switchReady cell = true → ∀ u, s.imageAccessWait own cell = some u → exec .switchOut s = .next u) ∧
       (s.isDying own = false → s.switchReady cell = true → s.imageAccessWait own cell = none →
         (∀ cause va, s.imageFault own cell .store = some (cause, va) → exec .switchOut s = .next (s.imageFatal own cell cause va)) ∧
         (s.imageFault own cell .store = none → ∀ va, s.cellPoison own cell = some va → exec .switchOut s = .next (s.imageFatal own cell 29 va)) ∧
         (s.imageFault own cell .store = none → s.cellPoison own cell = none → ∃ t v, exec .switchOut s = .next t ∧ t.residentIn cell = none ∧ t.saved = s.saved ++ [v] ∧
           v.ctxid = own ∧ v.cell = cell ∧ v.imaged = true ∧ (∀ r, r ≠ .s → v.ctx.core r = s.coreOf ⟨cell, r⟩) ∧
           v.ctx.sems = (s.ctxOf cell).sems ∧ v.ctx.queues = (s.ctxOf cell).queues ∧ v.ctx.tids = (s.ctxOf cell).tids ∧
           v.ctx.windows = (s.ctxOf cell).windows ∧ v.ctx.poste = (s.ctxOf cell).poste ∧ v.ctx.matrix = (s.ctxOf cell).matrix ∧ (∀ n, n ≠ cell → t.cellOf n = s.cellOf n) ∧
           (∀ n, Waiter.sequencer ∉ v.ctx.semLine n) ∧ ∀ f ∈ t.failedWalks, f.1.cell = cell → f.1.role = .s))) ∧
     (s.savedOf ctx cell = none → exec .restore s = .next s) ∧
     (∀ v, s.savedOf ctx cell = some v →
       (s.residentIn cell ≠ none ∨ s.cellOut cell = true ∨ s.isDying ctx = true → exec .restore s = .next s) ∧
       (s.residentIn cell = none → s.cellOut cell = false → s.isDying ctx = false → v.imaged = true →
         ∀ u, s.imageAccessWait ctx cell = some u → exec .restore s = .next u) ∧
       (s.residentIn cell = none → s.cellOut cell = false → s.isDying ctx = false → (v.imaged = true → s.imageAccessWait ctx cell = none) →
         (v.imaged = true → ∀ cause va, s.imageFault ctx cell .load = some (cause, va) → exec .restore s = .next (s.imageFatal ctx cell cause va)) ∧
         (v.imaged = true → s.imageFault ctx cell .load = none → ∀ va, s.imagePoison ctx cell = some va →
           exec .restore s = .next (s.imageFatal ctx cell 29 va)) ∧
         (v.imaged = false ∨ s.imageFault ctx cell .load = none ∧ s.imagePoison ctx cell = none →
           ∃ t, exec .restore s = .next t ∧ t.residentIn cell = some ctx ∧ (∀ n, n ≠ cell → t.cellOf n = s.cellOf n) ∧
             (∀ w ∈ t.saved, ¬ (w.ctxid = ctx ∧ w.cell = cell)) ∧
             (v.imaged = false → ∀ r, r ≠ .s → t.coreOf ⟨cell, r⟩ = v.ctx.core r) ∧
             (v.imaged = true → ∀ r, r ≠ .s → let k := t.coreOf ⟨cell, r⟩
               k.c0 = s.trapVec ctx ∧ k.s1 = true ∧ k.s2 = true ∧ k.n0 = false ∧ k.n1 = false ∧ k.n2 = false ∧ k.parked = false ∧
                 k.trapMode = true ∧ k.tstat.getLsbD 4 = true ∧ k.tcause = 0x8000000000000003#64 ∧
                 k.saving = false ∧ k.tepc = (v.ctx.core r).tepc ∧ k.fcsr = (v.ctx.core r).fcsr ∧ k.retired = (v.ctx.core r).retired))))) ∧
  (∀ s : State, let ctx := s.args.ctx
     (s.context ctx = none → exec .contextRemoval s = .next s) ∧
     (∀ c, s.context ctx = some c → c.dying = none → exec .contextRemoval s = .next s) ∧
     (∀ c record, s.context ctx = some c → c.dying = some record → ∃ t, exec .contextRemoval s = .next t ∧
       t.context ctx = none ∧ (∀ n, t.residentIn n ≠ some ctx) ∧ (∀ n, s.residentIn n ≠ some ctx → t.cellOf n = s.cellOf n) ∧
       (∀ v ∈ t.saved, v.ctxid ≠ ctx) ∧ (∀ x ∈ t.copies, x.ctx ≠ ctx) ∧ (∀ x ∈ t.blocks, x.2.ctx ≠ ctx) ∧ (∀ x ∈ t.rules, x.1.ctx ≠ ctx) ∧
       (∀ x ∈ t.launches, x.2.ctx ≠ ctx) ∧ (∀ x ∈ t.misses, x.ctx ≠ ctx) ∧ (∀ x ∈ t.heldAdds, x.1.ctxid.toNat ≠ ctx) ∧
       (∀ f ∈ t.failedWalks, f.2.1 ≠ ctx) ∧ (∀ x ∈ t.mixNext, x.1 / 64 ≠ ctx) ∧ (∀ x ∈ t.mixTime, x.1 / 64 ≠ ctx) ∧
       (∀ d, d ∈ t.contexts → d.ctxid ≠ ctx) ∧ ∀ page, (t.ownOf page).names ctx = false))

/-- R14 to R16, R86, R87, R93, R100 to R102, R286, R376, R384, R386, R387, R390: the device's own steps. PAGE_WALK answers one of the first eight misses
of a cluster: a leaf is cached there page by page (log 73, DESIGN CHOICE), a failure reaches every party that waits, and a release that waited is checked again. SCRUB_VISIT, from stage 4 of
bring-up on and in hardware mode, or at a read's error, counts an
error and writes the poison marker for an uncorrectable one (log 11, DESIGN CHOICE), which every party sees at once (log 18, DEDUCED), and reports KIND 5 at a threshold (log 52, DESIGN CHOICE). UNIT_FENCE
switches a unit off: a vault's or a stack's memory, a cell, a port, a rail (numbered 5 p + r over the 40 scale-up ports: log 92, DESIGN CHOICE) or a
sorter; the contexts that use it get a fatal fault whose CAUSE no rule names (log 48, DESIGN CHOICE), and the host KIND 1; a unit fenced already stays so
(log 93, DESIGN CHOICE). POWER_WINDOW inserts idle cycles above PLIMIT and stops below it; THERMAL_LIMIT halves the matrix issue rate from 105 °C on with
a KIND 7 each time, and shuts the module down from 115 °C on (log 16, DESIGN CHOICE). MODULE_RESET takes the stages of bring-up in order; where the check of the boot image fails, the module stays at stage 1
until a reset; or it resets the module, which leaves host memory (log 70, DEDUCED). -/
def Obligations.DeviceSteps : Prop :=
  ∀ s : State, let v := s.service
    (let k := s.args.cluster
     let queue := (s.misses.filter fun m => decide (m.cluster = k) && !m.assisted).take 8
     (s.unitOut 1 k = true ∨ queue.length ≤ s.args.index → exec .pageWalk s = .next s) ∧
     (∀ m, s.unitOut 1 k = false → queue[s.args.index]? = some m →
       let goesOn := fun u : State => if m.waiters.any (fun p => decide (p.role = .s)) then u.checkCounters else u
       (∀ e l, s.walk k m.ctx (m.page * 4096) = .leaf e l →
         exec .pageWalk s = .next (goesOn { s with
           misses := s.misses.erase m, tlb := s.tlb ++ [{ cluster := m.cluster, ctx := m.ctx, page := m.page, leaf := e, level := l }] })) ∧
       (s.walk k m.ctx (m.page * 4096) = .fail →
         exec .pageWalk s = .next (goesOn { s with
           misses := s.misses.erase m, failedWalks := s.failedWalks ++ m.waiters.map fun p => (p, m.ctx, m.page) })))) ∧
    (s.args.memory ≠ 3 → s.args.memory ≠ 4 → v.stage < 4 ∨ 3 ∈ v.assisted → exec .scrubVisit s = .next s) ∧
    (s.args.memory ≠ 3 → s.args.memory = 4 ∨ 4 ≤ v.stage ∧ 3 ∉ v.assisted → let k := s.args.index
      let m := sectorMemory k
      (s.args.found = .valid → exec .scrubVisit s = .next s) ∧
      (s.args.found = .correctable → s.args.flag = false → ∃ t, exec .scrubVisit s = .next t ∧
        tget t.service.corrected 0 m = tget v.corrected 0 m + 1 ∧ { t with service := v } = s) ∧
      (s.args.found = .uncorrectable → s.args.flag = false → ∃ t, exec .scrubVisit s = .next t ∧
        (∀ w, t.poisonedFor w k = true) ∧ (∀ w j, j ≠ k → t.poisonedFor w j = s.poisonedFor w j) ∧ (∀ w a, t.byteFor w a = s.byteFor w a) ∧
        tget t.service.uncorrectable 0 m = tget v.uncorrectable 0 m + 1 ∧ { t with service := v, writes := s.writes, poison := s.poison } = s) ∧
      (s.args.found ≠ .valid → s.args.flag = true → ∃ t, t = s.scrub k s.args.found ∧ exec .scrubVisit s = .next (t.report 5 (BitVec.ofNat 64 m)
        (BitVec.ofNat 64 (tget t.service.corrected 0 m)) (BitVec.ofNat 64 (tget t.service.uncorrectable 0 m))))) ∧
    (s.args.memory = 3 → s.args.found = .uncorrectable → ∃ t, exec .scrubVisit s = .next t ∧
      ∀ f, f ∈ (t.sorterOf s.args.index).badFlows ↔ f ∈ (s.sorterOf s.args.index).badFlows ∨ f = s.args.slot) ∧
    (let cls := s.args.cls
     let idx := s.args.index
     let units := match cls with | 0 => 1024 | 1 => 64 | 2 => 64 | 3 => 8 | 4 => 200 | 5 => 48 | 6 => 32 | _ => 0
     let users := s.usersOf cls idx s.args.cells
     (units ≤ idx ∨ (cls, idx) ∈ v.fenced → exec .unitFence s = .next s) ∧
     (idx < units → (cls, idx) ∉ v.fenced → ∃ t, exec .unitFence s = .next t ∧ t.service.fenced = v.fenced ++ [(cls, idx)] ∧
       (cls = 0 → t.cellOut idx = true) ∧ (cls = 1 → ∀ n, n / 16 = idx → t.cellOut n = true) ∧
       (cls = 2 → ∀ a, a < 2 ^ 27 → t.keyOut (2 ^ 52 + idx * 2 ^ 27 + a) = true) ∧ (cls = 3 → ∀ a, a < 2 ^ 37 → t.keyOut (idx * 2 ^ 37 + a) = true) ∧
       (cls = 4 → idx % 5 ∈ (t.port (idx / 5)).railsFenced) ∧ (cls = 5 → (t.port idx).fenced = true) ∧
       (cls = 6 → (t.sorterOf idx).run = none ∧ ∀ r ∈ t.rules, r.1.sorter ≠ idx) ∧
       (∀ c ∈ users, t.isDying c = true) ∧
       (∀ c d, c ∈ users → s.context c = some d → d.dying = none → t.context c = some { d with dying := some (s.removalRecord (Config.freeWord s.tick 4)) }) ∧
       (v.ringSize = 0 → t.service.heldEvents = v.heldEvents ++
         [{ kind := 1, arg0 := BitVec.ofNat 64 cls, arg1 := BitVec.ofNat 64 idx, arg2 := BitVec.ofNat 64 users.length }]) ∧
       ∀ p n, (t.coreOf p).xr n = (s.coreOf p).xr n)) ∧
    exec .powerWindow s = .next { s with service := { v with
      idleInserted := if v.plimit < s.args.amount then true else if s.args.amount < v.plimit then false else v.idleInserted } } ∧
    (let celsius := s.args.amount
     (celsius < 105 → exec .thermalLimit s = .next s) ∧
     (105 ≤ celsius → celsius < 115 →
       exec .thermalLimit s = .next (({ s with service := { v with halfRate := true } } : State).report 7 (BitVec.ofNat 64 celsius) 0 0)) ∧
     (115 ≤ celsius → ∃ t, exec .thermalLimit s = .next t ∧ t.service.halfRate = true ∧ t.service.shutDown = true ∧ t.contexts = [])) ∧
    (s.args.flag = true → ∃ t, exec .moduleReset s = .next t ∧ t.mem = s.mem.filter (fun c => decide (c.1 / 2 ^ 52 = 2)) ∧
      { t with mem := [], turns := [], tick := 0, fresh := 0 } = State.reset) ∧
    (s.args.flag = false →
      let ends := fun (stage : BringUp) (n : Nat) => s.args.stage = stage → v.stage = n → ∃ t, exec .moduleReset s = .next t ∧ t.service.stage = n + 1
      let image := Config.bootImage s.tick
      let accepted := Config.ed25519Verifies image = true ∧ Config.mldsaVerifies image = true ∧
        Config.fusedRollback.toNat ≤ (Config.imageVersion image).toNat
      (s.args.stage = .verified → v.stage = 1 → (v.bootFailed = true → exec .moduleReset s = .next s) ∧
        (v.bootFailed = false → ¬ accepted → exec .moduleReset s = .next { s with service := { v with bootFailed := true } }) ∧
        (v.bootFailed = false → accepted → ∃ t, exec .moduleReset s = .next t ∧ t.service.stage = 2 ∧ t.service.secure = true ∧
          t.service.fwVersion = Config.imageVersion image ∧ ∀ n, n < 64 → tget t.service.active [] n = image)) ∧
      (∀ failed, ends (.selfTest failed) 2) ∧ ends .linkUp 3 ∧ ends .firmwareRuns 4 ∧
      (v.chipGiven = true → ends .portsTrained 5) ∧
      (s.args.stage = .portsTrained → v.chipGiven = false → exec .moduleReset s = .next s) ∧
      (s.args.stage = .linkUp → v.stage ≠ 3 → exec .moduleReset s = .next s))

/-- R357, R382 to R384, R386: the host's registers and memory accesses, once the CXL link is up. EVHEAD, TAIL of a launch queue and PLIMIT take the
value written, PLIMIT between 600 and 1500 only; a queue whose TAIL runs further ahead than its size sets ERR; a write of EN clears it, unless it still
does (which bits a register keeps: log 69, DEDUCED). A host load returns the bytes of its range, a host store is visible to every party at once and clears
the poison of the sectors that it covers, for every party at once (log 18, DEDUCED); the CDAT mailbox (log 15, DESIGN CHOICE) and IDE key management (log
105, DESIGN CHOICE) answer with free contents. A core's store to a control register of
its cell takes effect as it leaves the store buffer (log 10, DEDUCED). -/
def Obligations.HostAccesses : Prop :=
  ∀ s : State, let v := s.service
    (v.stage < 3 → exec .evhead s = .next s ∧ exec .tail s = .next s ∧ exec .plimit s = .next s ∧ exec .hostMemoryAccess s = .next s ∧
      ∀ off w, s.args.target = .host off w → exec .registerWrite s = .next s) ∧
    (3 ≤ v.stage →
      (∃ t, exec .evhead s = .next t ∧ t.service.evhead = s.args.word.setWidth 32 ∧ t.cells = s.cells ∧ t.contexts = s.contexts) ∧
      (8 ≤ s.args.queue → exec .tail s = .next s) ∧
      (s.args.queue < 8 → ∃ t, exec .tail s = .next t ∧ (tget t.hostQueues {} s.args.queue).tail = s.args.word.setWidth 32 ∧
        (∀ q, q ≠ s.args.queue → tget t.hostQueues {} q = tget s.hostQueues {} q) ∧
        (let h := tget s.hostQueues {} s.args.queue
         let lg := h.qcfg.toNat % 32
         let far := 4 ≤ lg ∧ lg ≤ 16 ∧ 2 ^ lg < ((s.args.word.setWidth 32 : BitVec 32) - h.head).toNat
         (tget t.hostQueues {} s.args.queue).qcfg = if far then h.qcfg ||| 0x2000000000000000#64 else h.qcfg)) ∧
      exec .plimit s = .next { s with service := { v with
        plimit := if 600 ≤ s.args.word.toNat ∧ s.args.word.toNat ≤ 1500 then s.args.word.toNat else v.plimit } } ∧
      (∀ off w, s.args.target = .host off w → exec .registerWrite s = .next (s.hostWrite off w)) ∧
      (∀ pa n, s.args.access = .read pa n → hostRange pa n = true →
        (∀ a, pa ≤ a → a < pa + n → s.poisonedFor .host (sectorOf a) = false ∧ s.keyOut a = false) →
        exec .hostMemoryAccess s = .next { s with service := { v with hostReads := v.hostReads ++ [(span pa n).map (s.byteFor .host)] } }) ∧
      (∀ pa bytes, s.args.access = .write pa bytes → hostRange pa bytes.length = true → ∃ t, exec .hostMemoryAccess s = .next t ∧
        (∀ w i b, s.keyOut (pa + i) = false → bytes[i]? = some b → t.byteFor w (pa + i) = b) ∧
        (∀ w a, a < pa ∨ pa + bytes.length ≤ a → t.byteFor w a = s.byteFor w a) ∧
        (∀ w k, (∀ a, 64 * k ≤ a → a < 64 * k + 64 → pa ≤ a ∧ a < pa + bytes.length ∧ s.keyOut a = false) → t.poisonedFor w k = false) ∧
        { t with mem := s.mem, writes := s.writes, poison := s.poison } = s) ∧
      (∀ request, s.args.access = .cdat request →
        exec .hostMemoryAccess s = .next { s with service := { v with doe := v.doe ++ [{ code := 9, request := request, body := Config.cdatAnswer request }] } }) ∧
      (∀ request, s.args.access = .ideKeys request → let transcript := (v.doe.filter fun e => decide (e.code ≤ 8)).map fun e => (e.request, e.body)
        exec .hostMemoryAccess s = .next { s with service :=
          { v with doe := v.doe ++ [{ code := 10, request := request, body := Config.ideAnswer request transcript }] } })) ∧
    (∀ q w, q < 8 → let h := tget s.hostQueues {} q
      let g := tget (s.hostWrite (0x1008 + 0x40 * q) w).hostQueues {} q
      let lg := w.toNat % 32
      let far := 4 ≤ lg ∧ lg ≤ 16 ∧ 2 ^ lg < (h.tail - h.head).toNat
      g.qcfg.getLsbD 63 = w.getLsbD 63 ∧ g.qcfg.getLsbD 62 = w.getLsbD 62 ∧ g.qcfg.toNat % 32 = lg ∧
        (g.qcfg.getLsbD 61 = true ↔ far ∨ (w.getLsbD 63 = false ∧ h.qcfg.getLsbD 61 = true))) ∧
    (∀ q w, q < 8 → (tget (s.hostWrite (0x1000 + 0x40 * q) w).hostQueues {} q).qbase = w &&& 0xFFFFFFFFFFFFFFC0#64) ∧
    (∀ p n off w, s.args.target = .core p n → p.role ≠ .s → s.controlEntry p n = some (off, w) →
      (0x2000 ≤ off → off < 0x3000 → off % 64 = 0 → ∃ t, exec .registerWrite s = .next t ∧
        (tget (t.ctxOf p.cell).pigeons {} ((off - 0x2000) / 64)).ctl = w ∧ (t.coreOf p).stores = (s.coreOf p).stores.eraseIdx n ∧
        ∀ j, j ≠ (off - 0x2000) / 64 → tget (t.ctxOf p.cell).pigeons {} j = tget (s.ctxOf p.cell).pigeons {} j) ∧
      (0x8000 ≤ off → off < 0x8040 → ∃ t, exec .registerWrite s = .next t ∧
        tget (t.ctxOf p.cell).windows 0 ((off - 0x8000) / 8) = w ∧ (t.coreOf p).stores = (s.coreOf p).stores.eraseIdx n) ∧
      (0x9000 ≤ off → off < 0xA000 → off % 8 = 0 → ∃ t, exec .registerWrite s = .next t ∧
        vecBytes (tget (t.ctxOf p.cell).tids 0 ((off - 0x9000) / 64)) (off % 64) 8 = w.toNat ∧
        (t.coreOf p).stores = (s.coreOf p).stores.eraseIdx n))

/-- R13, R248, R272, R277, R316, R370, R377, R385 to R387, R389: the service commands. Each runs only once the link is up and while its opcode is the command
in execution, and ends it with its status, its result (a free value where R385 names none: log 48, DESIGN CHOICE) and a KIND 8 event; its operands lie in
MBCMD at places of the model's (log 53, DESIGN CHOICE). CTXSET of a descriptor against R370 answers 1, before stage 6 status 4 and a 65th context 2 (log
68, DEDUCED), and else places the context (log 6, DEDUCED); of a launch of host-assisted parsing it installs or refuses it (log 45, DESIGN CHOICE). FABCFG
takes an identifier and T between 2000 and 1000000 ns, and after the ports are enabled no other identifier (log 68, DEDUCED); RAILCAL takes a rail
out, at most one of a port; FWSTAGE keeps an image that is accepted; ERRCNT's result is packed by the model (log 54, DESIGN CHOICE); a leaf of WALKANS
that is no valid one fails the walk (log 55, DEDUCED).
R249, R264, R277, R385, R389: the service commands that may wait or take several steps. SORTER runs the operation that its operands name, between two packets of
its sorter; operands that name none answer 1 (their layout: log 53, DESIGN CHOICE). RESEND sends the counted write of the record again, a multicast
write to the chip alone (R292; log 89, DEDUCED); without a record it answers 1. FWACT restarts the supervisor cores of the clusters of its mask one after the other, each with
the staged image; without one it answers 1. DEVID then shows the version of the image that started last (log 94, DESIGN CHOICE).
R316, R317, R382 to R385, R388, R389: the end of a command; a rail's return; SPDM answers, once the link is up, over the boot ROM, the firmware of each
cluster and the fused hashes, each of the requests and answers so far, with a measurement signed by ML-DSA-65 too over the same transcript; their contents
are free values (log 15, DESIGN CHOICE); once the ports have trained, a failure that every switch
reports, or that concerns one context (log 58, DEDUCED). -/
def Obligations.ServiceCommands : Prop :=
  (∀ (s : State) (i : Instr) (op : Nat), let v := s.service
     let arg := fun off n : Nat => vecBytes v.mbcmd off n
     (i = .ctxset ∧ op = 1 ∨ i = .ctxremove ∧ op = 2 ∨ i = .fabcfg ∧ op = 4 ∨ i = .serviceFence ∧ op = 5 ∨ i = .declare ∧ op = 6 ∨
       i = .railcal ∧ op = 7 ∨ i = .fwstage ∧ op = 8 ∨ i = .mode ∧ op = 9 ∨ i = .errcnt ∧ op = 10 ∨ i = .walkans ∧ op = 11) →
     (v.stage < 3 ∨ v.busy ≠ some op → exec i s = .next s) ∧
     (3 ≤ v.stage → v.busy = some op →
       (∃ u status result, exec i s = .next ((u : State).commandDone op status result)) ∧
       let ends := fun (u : State) (status : Nat) => exec i s = .next (u.commandDone op status s.noResult)
       (i = .ctxset → let d : Vec := BitVec.ofNat 512 (bytesToNat (s.hostBytes (arg 8 8) 64))
         let kind := arg 16 1
         let child := arg 18 2
         (v.stage < 6 → ends s 4) ∧
         (6 ≤ v.stage → 3 ≤ kind → ends s 1) ∧
         (6 ≤ v.stage → kind = 0 → descriptorOk d = false ∨ s.context (vecBytes d 0 2) ≠ none → ends s 1) ∧
         (6 ≤ v.stage → kind = 0 → descriptorOk d = true → s.context (vecBytes d 0 2) = none →
           (64 ≤ s.contexts.length → ends s 2) ∧
           (s.contexts.length < 64 → ∃ u c, ends u 0 ∧ u.contexts = s.contexts ++ [c] ∧ c.ctxid = vecBytes d 0 2 ∧ c.cbase = vecBytes d 2 2 ∧
             c.climit = vecBytes d 4 2 ∧ c.trapvec.toNat = vecBytes d 0x18 8 ∧ c.root.toNat = vecBytes d 0x10 8 ∧ c.quantum = 0 ∧
             ∀ n, c.cbase ≤ n → n < c.cbase + c.climit → u.counter n = {})) ∧
         (6 ≤ v.stage → kind = 1 ∨ kind = 2 → 2 ∉ v.assisted → ends s 4) ∧
         (6 ≤ v.stage → kind = 1 → 2 ∈ v.assisted →
           let images : List Message := (List.range (vecBytes d 3 1)).map fun j => { body := s.hostVec (arg 8 8 + 64 + 64 * j) }
           (∀ reason, s.checkLaunch d (some images) = .error reason → ends s 1) ∧
           (∀ ms, s.checkLaunch d (some images) = .ok ms → child = 0 →
             (s.freeLid = none → ends s 2) ∧
             (∀ lid, s.freeLid = some lid → ends (s.acceptLaunch lid (launchOf d s.now none (vecBytes d 2 1 % 4) false) d ms) 0))) ∧
         (6 ≤ v.stage → kind = 2 → 2 ∈ v.assisted →
           ((∀ e ∈ s.deviceQueue, e.1 ≠ child) → ends s 1) ∧
           ((∃ e ∈ s.deviceQueue, e.1 = child) →
             ends (({ s with deviceQueue := s.deviceQueue.filter fun e => decide (e.1 ≠ child) } : State).endLaunch child 1 (arg 20 1)) 0))) ∧
       (i = .ctxremove → let ctx := arg 8 2
         (s.context ctx = none → ends s 1) ∧
         (s.context ctx ≠ none → ∃ u, ends u 0 ∧ u.context ctx = none ∧ ∀ n, u.residentIn n ≠ some ctx)) ∧
       (i = .fabcfg → let chip := BitVec.ofNat 12 (arg 8 2)
         let ns := arg 10 4
         (ns < 2000 ∨ 1000000 < ns → ends s 1) ∧
         (2000 ≤ ns → ns ≤ 1000000 → v.portsEnabled = true → chip ≠ s.chip → ends s 4) ∧
         (2000 ≤ ns → ns ≤ 1000000 → v.portsEnabled = false ∨ chip = s.chip → ∃ u, ends u 0 ∧ u.chip = chip ∧ u.timeout = ns * 5 / 4 ∧
           u.service.chipGiven = true ∧ tfind u.service.proxies (arg 14 2) = some (arg 16 8) ∧
           ∀ n, n ≠ arg 14 2 → tfind u.service.proxies n = tfind v.proxies n)) ∧
       (i = .serviceFence → (unitCountOf (arg 8 1) ≤ arg 9 2 → ends s 1) ∧
         (arg 9 2 < unitCountOf (arg 8 1) → ends (s.fenceUnit (arg 8 1) (arg 9 2) s.args.cells) 0)) ∧
       (i = .declare → ends (s.declare (BitVec.ofNat 12 (arg 8 2))) 0) ∧
       (i = .railcal → let p := s.port (arg 8 1)
         let exists_ := arg 8 1 < 40 ∧ arg 9 1 < 5 ∧ p.fenced = false
         (¬ exists_ → ends s 1) ∧ (exists_ → p.railsOut ≠ [] ∨ p.railsFenced ≠ [] → ends s 2) ∧
         (exists_ → p.railsOut = [] → p.railsFenced = [] → ∃ u, ends u 0 ∧ (u.port (arg 8 1)).railsOut = [arg 9 1] ∧
           ∀ n, n ≠ arg 8 1 → u.port n = s.port n)) ∧
       (i = .fwstage → let image := s.hostBytes (arg 8 8) s.args.amount
         let accepted := Config.ed25519Verifies image = true ∧ Config.mldsaVerifies image = true ∧
           Config.fusedRollback.toNat ≤ (Config.imageVersion image).toNat
         (¬ accepted → ends s 3) ∧ (accepted → ends { s with service := { v with staged := some image } } 0)) ∧
       (i = .mode → let fn := arg 8 1
         let mode := arg 9 1
         (6 ≤ fn ∨ 2 ≤ mode → ends s 1) ∧ (fn < 6 → mode < 2 → ∃ u, ends u 0 ∧
           ∀ f, f ∈ u.service.assisted ↔ f ∈ v.assisted ∧ f ≠ fn ∨ mode = 1 ∧ f = fn)) ∧
       (i = .errcnt → let m := arg 8 1
         let counts := fun w : Service => BitVec.ofNat 64 (tget w.corrected 0 m % 2 ^ 23 + 2 ^ 23 * (tget w.uncorrectable 0 m % 2 ^ 23) +
           2 ^ 46 * (if 3 ∈ v.assisted then 1 else 0))
         (3 ≤ m → ends s 1) ∧
         (m < 3 → arg 9 1 % 2 = 0 → exec i s = .next (s.commandDone op 0 (counts v))) ∧
         (m < 3 → arg 9 1 % 2 = 1 → ∃ u w : State, exec i s = .next (u.commandDone op 0 (counts w.service)) ∧
           w = (if 3 ∈ v.assisted then s.scrubPass m else s) ∧ tget u.service.corrected 0 m = 0 ∧ tget u.service.uncorrectable 0 m = 0 ∧
           { u with service := w.service } = w)) ∧
       (i = .walkans → let page := arg 10 8 % 2 ^ 48 / 4096
         let e : Word := BitVec.ofNat 64 (arg 18 8)
         let mine := fun m : Miss => m.assisted && decide (m.ctx = arg 8 2) && decide (m.page = page)
         let ms := s.misses.filter mine
         (ms = [] → ends s 1) ∧
         (ms ≠ [] → (∀ m ∈ ms, ∀ p ∈ m.waiters, p.role ≠ .s) → ∃ u, ends u 0 ∧ (∀ m, m ∈ u.misses ↔ m ∈ s.misses ∧ mine m = false) ∧
           (let valid := pteV e = true ∧ pteLeaf e = true ∧ pteMalformed e 4 = false
            (valid → u.failedWalks = s.failedWalks ∧ u.tlb = s.tlb ++ ms.map fun m =>
              { cluster := m.cluster, ctx := m.ctx, page := m.page, leaf := e, level := 4 }) ∧
            (¬ valid → u.tlb = s.tlb ∧ u.failedWalks = s.failedWalks ++ ms.flatMap fun m => m.waiters.map fun p => (p, m.ctx, m.page))))))) ∧
  (∀ s : State, let v := s.service
     let arg := fun off n : Nat => vecBytes v.mbcmd off n
     let ends := fun (i : Instr) (op : Nat) (u : State) (status : Nat) => exec i s = .next (u.commandDone op status s.noResult)
     (v.stage < 3 ∨ v.busy ≠ some 3 → exec .sorter s = .next s) ∧ (v.stage < 3 ∨ v.busy ≠ some 13 → exec .resend s = .next s) ∧
     (v.stage < 3 ∨ v.busy ≠ some 12 → exec .fwact s = .next s) ∧
     (3 ≤ v.stage → v.busy = some 3 →
       (s.sorterOperation = none → ends .sorter 3 s 1) ∧
       (∀ op, s.sorterOperation = some op →
         (s.sorterIdle (opSorter s op) = false → exec .sorter s = .next s) ∧
         (s.sorterIdle (opSorter s op) = true → let r := runSorterOp s op s.sorterData
           exec .sorter s = .next (r.1.commandDone 3 r.2.status r.2.result)))) ∧
     (3 ≤ v.stage → v.busy = some 13 → let chip := BitVec.ofNat 12 (arg 16 2)
       let hit := fun r : SendRec => r.packet.ctr.toNat = arg 12 2 ∧ r.packet.seq.toNat = arg 14 2 ∧ (r.packet.kind = 7 ∨ r.packet.dchip = chip)
       let recs := (s.niOf (arg 8 2) (arg 10 2)).recs
       ((∀ r ∈ recs, ¬ hit r) → ends .resend 13 s 1) ∧
       (∀ before r after, recs = before ++ r :: after → hit r → (∀ q ∈ before, ¬ hit q) →
         ends .resend 13 (s.sendWrite (arg 8 2) (arg 10 2) (r.again chip) (BitVec.ofNat 3 (arg 18 1))) 0)) ∧
     (∀ (ctx cell : Nat) (r : SendRec) (round : BitVec 3), let ni := s.niOf ctx cell
       (r.source = .data → ∃ out, s.sendWrite ctx cell r round =
         { s with net := s.net ++ [{ packet := { r.packet with round := round }, outbound := out, offered := false }] }) ∧
       (r.source ≠ .data → ∃ u, s.sendWrite ctx cell r round = u ∧ { u with nis := s.nis } = s ∧
         u.niOf ctx cell = { ni with outgoing := ni.outgoing ++ [{ record := r, round := round, got := [] }] })) ∧
     (3 ≤ v.stage → v.busy = some 12 →
       (v.staged = none → ends .fwact 12 s 1) ∧
       (∀ image, v.staged = some image →
         (v.restart = none →
           ((∀ k, k < 64 → (arg 8 8).testBit k = false) → ends .fwact 12 s 0) ∧
           (∀ k rest, (List.range 64).filter (fun k => (arg 8 8).testBit k) = k :: rest →
             exec .fwact s = .next { s with service := { v with restart := some k, toRestart := rest } })) ∧
         (∀ k, v.restart = some k → ∃ u : State, (v.toRestart = [] → u.service.restart = none ∧ ends .fwact 12 u 0) ∧
           (∀ n rest, v.toRestart = n :: rest → u.service.restart = some n ∧ u.service.toRestart = rest ∧ exec .fwact s = .next u) ∧
           tget u.service.active [] k = image ∧ (∀ n, n ≠ k → tget u.service.active [] n = tget v.active [] n) ∧
           u.service.fwVersion = Config.imageVersion image ∧ (∃ c, tfind u.supervisors k = some c ∧ c.running = true ∧ c.c0 = (Config.freeWord s.tick 7).setWidth 48) ∧
           (∀ n, n ≠ k → tfind u.supervisors n = tfind s.supervisors n) ∧ { u with service := v, supervisors := s.supervisors } = s)))) ∧
  (∀ s : State, let v := s.service
     (∀ op status result, let t := s.commandDone op status result
       t.service.busy = none ∧ t.service.mbstatus = status ∧ t.service.mbresult = result ∧ t.cells = s.cells ∧ t.contexts = s.contexts ∧
         (v.ringSize = 0 → t.service.heldEvents = v.heldEvents ++ [{ kind := 8, arg0 := BitVec.ofNat 64 op, arg1 := BitVec.ofNat 64 status, arg2 := result }] ∧
           t.mem = s.mem)) ∧
     (∃ t, exec .railReturn s = .next t ∧ (∀ r, r ∈ (t.port s.args.port).railsOut ↔ r ∈ (s.port s.args.port).railsOut ∧ r ≠ s.args.rail) ∧
       ∀ n, n ≠ s.args.port → t.port n = s.port n) ∧
     (let covered := Config.bootRom :: ((List.range 64).map (tget v.active []) ++ [Config.keyHashes])
      let answers := fun (i : Instr) (code : Nat) => (v.stage < 3 → exec i s = .next s) ∧
       (3 ≤ v.stage → let before := (v.doe.filter fun e => decide (e.code ≤ 8)).map fun e => (e.request, e.body)
         let body := Config.spdmAnswer code s.args.bytes covered before
         exec i s = .next { s with service := { v with
           doe := v.doe ++ [{ code := code, request := s.args.bytes, body := body
                              opaqueData := if code = 6 then Config.mldsaSign (before ++ [(s.args.bytes, body)]) else [] }] } })
      answers .getVersion 0 ∧ answers .getCapabilities 1 ∧ answers .negotiateAlgorithms 2 ∧ answers .getDigests 3 ∧
      answers .getCertificate 4 ∧ answers .challenge 5 ∧ answers .getMeasurements 6 ∧ answers .keyExchange 7 ∧ answers .finish 8) ∧
     (v.portsEnabled = false → exec .failureDeclaration s = .next s) ∧
     (v.portsEnabled = true → s.args.flag = true → exec .failureDeclaration s = .next (s.failFor (fun c => decide (c = s.args.ctx)) s.args.chip)) ∧
     (v.portsEnabled = true → s.args.flag = false → ∃ t, exec .failureDeclaration s = .next t ∧ s.args.chip.toNat ∈ t.service.switchFenced ∧
       (4 ∉ v.assisted → s.args.chip.toNat ∈ t.service.declared) ∧ (4 ∈ v.assisted → t.service.declared = v.declared ∧ t.blocks = s.blocks)) ∧
     (∀ (hit : Nat → Bool) (c : BitVec 12), let t := s.failFor hit c
       (∀ n r, r ∈ (t.counter n).pending → ¬ (hit r.packet.ctxid.toNat = true ∧ r.packet.schip = c)) ∧
       ∀ key b, tfind t.blocks key = some b → hit b.ctx = true → ∀ e, e ∈ b.nbr → e.2.extractLsb' 0 12 = c → e.2.getLsbD 63 = false))

/-- R17 to R26, R280, R281, R288: words that the spec's encodings give, bit by bit, decode to the instructions they stand for. -/
def Obligations.SpecWordsDecode : Prop :=
  decodeWord 0x1#128 = .ok .nop ∧
    decodeWord 0x0002000008200061#128 = .ok (.beq 1 0 1 16) ∧
    decodeWord 0x0000100000000169#128 = .ok (.creg 32) ∧
    decodeWord 0x185#128 = .ok .eret ∧
    decodeWord 0x00002180000000A9#128 = .ok (.semw 0x43) ∧
    decodeWord 0x0000E30000A000C1#128 = .ok (.msend 5 6 7) ∧
    decodeWord 0x8600000020A28515#128 = .ok (.vcvn 5 5 (.frag 3 0) 2 1) ∧
    decodeWord 0x202051C80000000000000580214380E3#128 = .ok (.copy 7 10 11 0 1 0x202051C800000000#64) ∧
    decodeWord 0x0A000000400000000000036000A2014F#128 = .ok (.crel 4 5 6 3 0x0A00000040000000#64) ∧
    decodeWord 0x48151#128 = .ok (.rcptw 9 0) ∧ decodeWord 0x1418961#128 = .ok (.mixstep 3 10 0) ∧
    decodeSorter 0x75080000#32 = some (.gld 4 2) ∧ decodeSorter 0x8C00000C#32 = some (.nack 12)

/-- R17 to R26, R280, R281, R288, R289 and the encoding tables: every instruction of the table that a core fetches has a word of a core, every
sorter instruction has a word of a sorter, and no other instruction has one; and for every instruction whose operands are well formed, its word
decodes back to that instruction. What a SYSCALL, SYSBRK or SYSABORT word holds beside its opcode stays in the word, and AUTO, SHARE and NBRSET
have no word beside the MIXCTL word that names them (logs 21, DEDUCED, and 22, DESIGN CHOICE). -/
def Obligations.DecodeInvertsEncode : Prop :=
  (∀ i : Instr, ((encode i).isSome = true ↔ wordKind i = .core) ∧ ((encodeSorter i).isSome = true ↔ wordKind i = .sorter)) ∧
  ∀ i : Instr, i.wellFormed = true →
    (∀ w, encode i = some w → decodeWord w = .ok i) ∧
    (∀ w, encodeSorter i = some w → decodeSorter w = some i)

/-- R17, R18, R33, R35, R121, R279, R339, R350, R369, R380: a step whose turn reaches a core's head executes the decoded instruction: with the checker
satisfied (it is asked before check 0: log 57, DEDUCED) and the pc aligned, an annulled entry is passed over, and bytes that decode to an instruction of a major the role executes run that
instruction, with its word noted, the next entry of the chain resolved and L of a fragment read recorded (R219). A MIXCTL word is the operation its b
names (log 21, DEDUCED). An instruction whose fragment read has just recorded L may stay at the head, by a free value (R226; log 62, DEDUCED), and
in a group an access after a collected acquire, or one that orders earlier collected accesses, waits for the boundary (log 96, DEDUCED). Before the
head come a deferred event, an interrupt, the end of a quantum and the begin of a firing, in that order. A
sorter's turn runs the instruction at its
kernel's pc; any other turn runs the device, network or host step it names (log 1, DESIGN CHOICE).
R18, R19, R30, R32, R33, R81, R82, R93: what a step does with a head that it cannot execute. A pc that is not 4-byte aligned traps with cause 0, annulled or
not. The fetch reads, from the pc on, the bytes of its 32-byte block, at most 16: of the own scratchpad, or of translated memory where the leaf lets a
core fetch, else it traps with cause 1, with cause 12 where the translation fails, and with cause 29 where the block is poisoned; a page that is
not cached waits for its walk. A supervisor core fetches from its own memory. A word of reserved length, an unassigned major or
function, a reserved value or a major of another role traps with cause 2, a word that crosses its block with cause 0, and reserved bits with cause 24. Memory that is
switched off counts as a range that does not exist (log 79, DESIGN CHOICE); the checker comes before check 0 (log 57, DEDUCED). -/
def Obligations.StepRunsTheInstruction : Prop :=
  ((∀ (s : State) (p : CoreRef) (v u : State), AtHead s p v → v.checkSignature = .ok u → u.me.c0.toNat % 4 = 0 →
     (u.me.n0 = true → step s = exec .annulledPass u) ∧
     (∀ (w : BitVec 128) (i : Instr), u.me.n0 = false → u.fetch p u.me.c0 = .word w → u.me.c0.toNat % 32 + wordLen w ≤ 32 →
       decodeWord (cutWord w) = .ok i → majorPermitted p.role (Raw.ofWord (cutWord w)).maj.toNat = true →
       let t := ({ u with cur := { u.cur with word := cutWord w } } : State).updMe fun k =>
         (k.resolve w).recordL (Raw.ofWord (cutWord w)) u.myCtx.matrix.lastw
       let j := t.mixctlChoice i
       let lingers := u.me.fragMark = none ∧ t.me.fragMark ≠ none ∧ (Config.freeWord u.tick 501).getLsbD 0 = true
       let held := t.inGroup = true ∧ (t.me.acquiring = true ∧ accessing j = true ∨ t.me.collected ≠ [] ∧ ordering j = true)
       (lingers → step s = .next t) ∧ (¬ lingers → held → step s = waitCollected t) ∧ (¬ lingers → ¬ held → step s = exec j t) ∧
         ((∀ d a b c, i ≠ .dereg d a b c) → j = i))) ∧
   (∀ (s : State) (p : CoreRef), s.turn = .core p → p.role ≠ .s →
     let b := { s.ticked with cur := { s.ticked.cur with core := p, word := 0 } }
     let v := b.noteArrival p
     b.running p = true → b.me.trapMode = false →
       (v.me.events ≠ [] → step s = exec .deferredEvent v) ∧
       (v.me.events = [] → v.me.preempt = true ∨ v.me.watchdog ≠ none → step s = exec .interrupt v) ∧
       (v.me.events = [] → v.me.preempt = false → v.me.watchdog = none →
         (v.me.atEnd = true → v.me.member.paused = true → step s = .next v) ∧
         (v.me.atEnd = true → v.me.member.paused = false → step s = exec .quantumEnd v) ∧
         (v.me.atEnd = false → v.me.running = false → step s = exec .firingBegin v))) ∧
   (∀ (s : State) (n : Nat) (i : Instr) (r : Run) (w : BitVec 32), s.turn = .sorter n → (s.ticked.sorterOf n).run = some r →
     r.code[r.pc]? = some w → decodeSorter w = some i → step s = exec i { s.ticked with cur := { s.ticked.cur with sorter := n } }) ∧
   (∀ (s : State) (i : Instr) (a : Args), s.turn = .event i a →
     (isEvent i = true → step s = exec i { s.ticked with args := a }) ∧ (isEvent i = false → step s = .next { s.ticked with args := a }))) ∧
  ((∀ (s : State) (p : CoreRef) (v u : State), AtHead s p v → v.checkSignature = .ok u →
     let at0 := u.me.c0.setWidth 64
     (u.me.c0.toNat % 4 ≠ 0 → step s = trap u 0 at0) ∧
     (u.me.c0.toNat % 4 = 0 → u.me.n0 = false →
       (u.fetch p u.me.c0 = .miss → step s = .next (u.requestWalk p u.myCtxId u.me.c0.toNat)) ∧
       (∀ c, u.fetch p u.me.c0 = .trap c → step s = trap u c at0) ∧
       (∀ w, u.fetch p u.me.c0 = .word w →
         (wordLen w = 0 → step s = trap u 2 ((w.setWidth 32).setWidth 64)) ∧
         (wordLen w ≠ 0 → 32 < u.me.c0.toNat % 32 + wordLen w → step s = trap u 0 at0) ∧
         (wordLen w ≠ 0 → u.me.c0.toNat % 32 + wordLen w ≤ 32 →
           let permitted := majorPermitted p.role (Raw.ofWord (cutWord w)).maj.toNat
           (decodeWord w = .bad .majorUnassigned ∨ decodeWord w = .bad .lenMismatch ∨ decodeWord w = .bad .functionUnassigned ∨
               decodeWord w = .bad .reservedValue ∨ permitted = false → step s = trap u 2 (w.setWidth 64)) ∧
           (decodeWord w = .bad .reservedBits ∨ decodeWord w = .bad .reservedCombination → permitted = true →
             step s = trap u 24 (w.setWidth 64)))))) ∧
   ∀ (s : State) (p : CoreRef) (c : VAddr),
     let a := c.toNat
     let block (key : Nat) : Fetched :=
       if s.poisonedFor (.cell p.cell) (key / 64) then .trap 29
       else .word (BitVec.ofNat 128 (s.natFor (.cell p.cell) (span key (min 16 (32 - a % 32)))))
     (p.role = .s → s.fetch p c = block (superKey (p.cell / 16) a)) ∧
     (p.role ≠ .s → a < 0x60000 → s.fetch p c = block (cellKey p.cell a)) ∧
     (p.role ≠ .s → 0x60000 ≤ a → a < 0x1000000000 → s.fetch p c = .trap 1) ∧
     (p.role ≠ .s → 0x1000000000 ≤ a →
       let found := s.transFor p ((s.residentIn p.cell).getD 0) a
       (found = .miss → s.fetch p c = .miss) ∧ (found = .fail → s.fetch p c = .trap 12) ∧
       (∀ e l, found = .leaf e l →
         s.fetch p c = if e.getLsbD 3 = true ∧ s.keyOut (leafKey e l a) = false then block (leafKey e l a) else .trap 1)))

/-- R86, R100, R107, R256, R286, R329, R386 and the model's own choices (logs 3, 4, 8, DESIGN CHOICE): the module right after reset: bring-up at stage 1, the
cycle count 0, nothing in service by a program; every x and v register, every chain, control, trap, window and identifier register, every semaphore and counter is zero,
every queue of a core, of a cell and of the host is empty, memory reads as zero and no sector is poisoned, no page is held, nothing is under way. -/
def Obligations.ResetState : Prop :=
  let s := State.reset
  s.service.stage = 1 ∧ s.now = 0 ∧ s.chip = 0 ∧ s.timeout = 20000 ∧ s.service.plimit = 1500 ∧ s.service.mbstatus = 0 ∧ s.service.busy = none ∧
    (∀ p : CoreRef, ∀ n, (s.coreOf p).xr n = 0 ∧ (s.coreOf p).vr n = 0) ∧
    (∀ p : CoreRef, (s.coreOf p).retired = 0 ∧ (s.coreOf p).fcsr = 0 ∧ (s.coreOf p).trapMode = false) ∧
    (∀ p : CoreRef, let k := s.coreOf p
      k.running = false ∧ k.c0 = 0 ∧ k.c1 = 0 ∧ k.c2 = 0 ∧ k.n0 = false ∧ k.n1 = false ∧ k.n2 = false ∧ k.srseed = 0 ∧ k.srcnt = 0 ∧ k.quant = 0 ∧
        k.sigbase = 0 ∧ k.cregh = 0 ∧ k.tcause = 0 ∧ k.tval = 0 ∧ k.tepc = 0 ∧ k.tepc1 = 0 ∧ k.tepc2 = 0 ∧ k.tepcn = 0 ∧ k.tstat = 0 ∧ k.firing = none ∧
        k.sendBuffer = [] ∧ k.stores = [] ∧ k.loads = [] ∧ k.events = [] ∧ k.parked = false ∧ k.halted = false) ∧
    (∀ c n, tget (s.ctxOf c).queues [] n = [] ∧ tget (s.ctxOf c).windows 0 n = 0 ∧ tget (s.ctxOf c).tids 0 n = 0 ∧
      tget (s.ctxOf c).inbox 0 n = 0 ∧ tget (s.ctxOf c).pigeons {} n = ({} : Pigeon) ∧ tget (s.ctxOf c).streams {} n = ({} : Stream) ∧
      tget (s.ctxOf c).matrix.lastw 0 n = 0) ∧
    (∀ c, (s.ctxOf c).matrix.queue = [] ∧ (s.ctxOf c).matrix.enq = 0 ∧ (s.ctxOf c).matrix.done = 0 ∧ (s.ctxOf c).held = 0 ∧ (s.ctxOf c).pmk = 0) ∧
    (∀ c, s.residentIn c = none) ∧ (∀ c n, (s.ctxOf c).sem n = 0) ∧ (∀ n, s.counter n = {}) ∧ (∀ page, s.ownOf page = {}) ∧
    (∀ v a, s.byteFor v a = 0) ∧ (∀ v k, s.poisonedFor v k = false) ∧ (∀ q, tget s.hostQueues {} q = ({} : HostQueue)) ∧
    (∀ n, (s.sorterOf n).run = none ∧ (s.sorterOf n).kernels = []) ∧ s.contexts = [] ∧ s.copies = [] ∧ s.launches = [] ∧ s.net = [] ∧ s.sent = []

/-- R100, R318, R319: the invariant of memory holds after reset. -/
def Obligations.ResetMemoryOk : Prop :=
  MemoryOk State.reset

/-- R100, R318, R319: every step keeps the invariant of memory: its canonical form, the poisoned sectors in order, and no listed write that
every party already sees. -/
def Obligations.StepsKeepMemory : Prop :=
  ∀ s t : State, MemoryOk s → step s = .next t → MemoryOk t
end

