-- ==== Sys2Proof/Laws/Memory.lean ====
section
/-! SUPPORT. Tables and memory: a read after a write, and that every memory operation keeps the canonical form. -/

namespace Sys2Proof.Machine

set_option Elab.async false

/-! ### Tables -/

@[simp] theorem tget_nil {α : Type} (d : α) (k : Nat) : tget [] d k = d := rfl

theorem tget_tset {α : Type} (t : Tbl α) (d v : α) (k j : Nat) : tget (tset t k v) d j = if k = j then v else tget t d j := by
  induction t with
  | nil => rfl
  | cons e rest ih =>
    obtain ⟨k', v'⟩ := e
    simp only [tset, tget]
    split
    · subst_vars; simp only [tget]; split <;> simp_all
    · split
      · simp only [tget]
      · simp only [tget, ih]
        split <;> split <;> simp_all

@[simp] theorem tget_tset_same {α : Type} (t : Tbl α) (d v : α) (k : Nat) : tget (tset t k v) d k = v := by
  simp [tget_tset]

theorem tget_tset_other {α : Type} (t : Tbl α) (d v : α) (k j : Nat) (h : k ≠ j) : tget (tset t k v) d j = tget t d j := by
  simp [tget_tset, h]

theorem tget_tupd {α : Type} (t : Tbl α) (d : α) (k j : Nat) (f : α → α) :
    tget (tupd t d k f) d j = if k = j then f (tget t d k) else tget t d j := by
  simp [tupd, tget_tset]

@[simp] theorem tget_tupd_same {α : Type} (t : Tbl α) (d : α) (k : Nat) (f : α → α) :
    tget (tupd t d k f) d k = f (tget t d k) := by
  simp [tupd]

/-! ### Reading after writing -/

@[simp] theorem memGet_nil (a : Nat) : memGet [] a = 0 := rfl

/-- A memory whose addresses all lie above an address reads as 0 there. -/
theorem memGet_below (m : Memory) (a : Nat) (h : ∀ c ∈ m, a < c.1) : memGet m a = 0 := by
  induction m with
  | nil => rfl
  | cons c rest ih =>
    have h1 := h c (by simp)
    simp only [memGet]
    rw [if_neg (by omega), ih fun e he => h e (by simp [he])]

/-- The canonical form of a memory with a first entry. -/
theorem Memory.wf_cons (c : Host.Cell) (m : Memory) :
    Memory.wf (c :: m) = true ↔ (∀ e ∈ m, c.1 < e.1) ∧ c.2 ≠ 0#8 ∧ Memory.wf m = true := by
  simp only [Memory.wf, List.map_cons, List.pairwise_cons, List.all_cons, Bool.and_eq_true, decide_eq_true_eq, List.mem_map]
  constructor
  · rintro ⟨⟨h1, h2⟩, h3, h4⟩
    exact ⟨fun e he => h1 e.1 ⟨e, he, rfl⟩, h3, h2, h4⟩
  · rintro ⟨h1, h3, h2, h4⟩
    exact ⟨⟨fun a ⟨e, he, ha⟩ => ha ▸ h1 e he, h2⟩, h3, h4⟩

/-- A read after a write of a canonical memory: the byte written, or the byte that was there. -/
theorem memGet_memPut (m : Memory) (a j : Nat) (b : Byte) (h : m.wf = true) :
    memGet (memPut m a b) j = if a = j then b else memGet m j := by
  induction m with
  | nil =>
    simp only [memPut]
    split
    · simp_all
    · simp [memGet]
  | cons c rest ih =>
    obtain ⟨k, v⟩ := c
    obtain ⟨h1, -, h3⟩ := (Memory.wf_cons (k, v) rest).mp h
    simp only at h1
    simp only [memPut]
    split
    · rename_i hlt
      split
      · subst_vars
        by_cases hj : a = j
        · subst hj
          rw [if_pos rfl, memGet_below]
          intro e he
          rcases List.mem_cons.mp he with rfl | he
          · exact hlt
          · exact Nat.lt_trans hlt (h1 e he)
        · simp [hj]
      · simp only [memGet]
    · split
      · rename_i hka
        subst hka
        split
        · rename_i hb
          subst hb
          by_cases hj : k = j
          · subst hj
            rw [if_pos rfl, memGet_below _ _ h1]
          · simp [memGet, hj]
        · simp only [memGet]
          split <;> simp_all
      · simp only [memGet, ih h3]
        split <;> split <;> simp_all

/-! ### The canonical form is kept -/

/-- The addresses of a memory after a write. -/
theorem mem_memPut (m : Memory) (a : Nat) (b : Byte) (e : Host.Cell) (h : e ∈ memPut m a b) : e = (a, b) ∨ e ∈ m := by
  induction m with
  | nil =>
    simp only [memPut] at h
    split at h <;> simp_all
  | cons c rest ih =>
    obtain ⟨k, v⟩ := c
    simp only [memPut] at h
    split at h
    · split at h <;> simp_all
    · split at h
      · split at h
        · simp_all
        · rcases List.mem_cons.mp h with h | h <;> simp_all
      · rcases List.mem_cons.mp h with h | h
        · simp_all
        · rcases ih h with h | h <;> simp_all

/-- A write keeps the canonical form. -/
theorem wf_memPut (m : Memory) (a : Nat) (b : Byte) (h : m.wf = true) : (memPut m a b).wf = true := by
  induction m with
  | nil =>
    simp only [memPut]
    split
    · rfl
    · simp_all [Memory.wf]
  | cons c rest ih =>
    obtain ⟨k, v⟩ := c
    have hc := h
    obtain ⟨h1, h2, h3⟩ := (Memory.wf_cons (k, v) rest).mp h
    simp only at h1 h2
    simp only [memPut]
    split
    · rename_i hlt
      split
      · exact hc
      · rename_i hb
        refine (Memory.wf_cons _ _).mpr ⟨?_, hb, hc⟩
        intro e he
        rcases List.mem_cons.mp he with rfl | he
        · exact hlt
        · exact Nat.lt_trans hlt (h1 e he)
    · split
      · split
        · exact h3
        · rename_i hb
          exact (Memory.wf_cons _ _).mpr ⟨by subst_vars; exact h1, hb, h3⟩
      · refine (Memory.wf_cons _ _).mpr ⟨?_, h2, ih h3⟩
        intro e he
        rcases mem_memPut rest a b e he with rfl | he
        · simp only; omega
        · exact h1 e he

/-- Writing bytes keeps the canonical form. -/
theorem wf_memPuts (cs : List Host.Cell) (m : Memory) (h : m.wf = true) : (memPuts m cs).wf = true := by
  induction cs with
  | nil => exact h
  | cons c rest ih => exact wf_memPut (memPuts m rest) c.1 c.2 ih

/-- Dropping entries keeps the canonical form. -/
theorem wf_filter (p : Host.Cell → Bool) (m : Memory) (h : m.wf = true) : Memory.wf (m.filter p) = true := by
  induction m with
  | nil => exact h
  | cons c rest ih =>
    obtain ⟨h1, h2, h3⟩ := (Memory.wf_cons c rest).mp h
    simp only [List.filter_cons]
    split
    · exact (Memory.wf_cons _ _).mpr ⟨fun e he => h1 e ((List.mem_filter.mp he).1), h2, ih h3⟩
    · exact ih h3

/-- Settling writes keeps the canonical form. -/
theorem wf_settleWrites (pre ws : List Write) (m : Memory) (p : List Nat) (h : m.wf = true) : (settleWrites pre ws m p).2.1.wf = true := by
  induction ws generalizing pre m p with
  | nil => exact h
  | cons w rest ih =>
    simp only [settleWrites]
    split
    · exact ih _ _ _ (wf_memPuts _ _ h)
    · exact ih _ _ _ h

theorem State.settle_wf (s : State) (h : s.mem.wf = true) : s.settle.mem.wf = true := wf_settleWrites [] s.writes s.mem s.poison h

theorem State.append_wf (s : State) (w : Write) (h : s.mem.wf = true) : (s.append w).mem.wf = true := State.settle_wf _ h

theorem State.addGlobal_wf (s : State) (cs : List Host.Cell) (h : s.mem.wf = true) : (s.addGlobal cs).mem.wf = true :=
  wf_memPuts cs s.mem h

theorem State.addWrite_wf (s : State) (id : Nat) (cs : List Host.Cell) (cell : Nat) (o : Owner) (scope : Nat)
    (h : s.mem.wf = true) : (s.addWrite id cs cell o scope).mem.wf = true := by
  unfold State.addWrite
  split
  · exact h
  · exact State.append_wf _ _ h

theorem State.addGlobalWhole_wf (s : State) (cs : List Host.Cell) (h : s.mem.wf = true) : (s.addGlobalWhole cs).mem.wf = true :=
  wf_memPuts cs s.mem h

/-- The memory right after reset has the canonical form. -/
theorem reset_wf : State.reset.mem.wf = true := rfl

/-- What memory holds once bytes are written: at each address the byte of the first cell for it, elsewhere what it held. -/
theorem memGet_memPuts (cs : List Host.Cell) (m : Memory) (a : Nat) (h : m.wf = true) :
    memGet (memPuts m cs) a = (cellAt cs a).getD (memGet m a) := by
  induction cs with
  | nil => rfl
  | cons c rest ih =>
    show memGet (memPut (memPuts m rest) c.1 c.2) a = _
    rw [memGet_memPut _ _ _ _ (wf_memPuts rest m h), cellAt]
    split
    · rfl
    · exact ih

/-- Memory written at once reads elsewhere as before. -/
theorem memGet_memPuts_other (cs : List Host.Cell) (m : Memory) (j : Nat) (h : m.wf = true) (hj : ∀ c ∈ cs, c.1 ≠ j) :
    memGet (memPuts m cs) j = memGet m j := by
  rw [memGet_memPuts cs m j h]
  have hn : cellAt cs j = none := by
    induction cs with
    | nil => rfl
    | cons c rest ih => rw [cellAt, if_neg (hj c (by simp))]; exact ih fun e he => hj e (by simp [he])
  rw [hn]; rfl

/-! ### The coherence order -/

theorem lastWrites_append (ws us : List Write) (a : Nat) (b : Byte) : lastWrites (ws ++ us) a b = lastWrites us a (lastWrites ws a b) := by
  induction ws generalizing b with
  | nil => rfl
  | cons w rest ih => exact ih _

theorem cellAt_filter (l cs : List Host.Cell) (a : Nat) :
    cellAt (l.filter fun c => (cellAt cs c.1).isNone) a = if (cellAt cs a).isSome then none else cellAt l a := by
  induction l with
  | nil => simp [cellAt]
  | cons c rest ih =>
    by_cases hc : c.1 = a
    · subst hc
      by_cases hs : (cellAt cs c.1).isSome
      · rw [List.filter_cons_of_neg (by cases h : cellAt cs c.1 <;> simp_all), ih]; simp [hs]
      · rw [List.filter_cons_of_pos (by simpa using hs)]; simp [hs, cellAt]
    · by_cases hs : (cellAt cs c.1).isSome
      · rw [List.filter_cons_of_neg (by cases h : cellAt cs c.1 <;> simp_all), ih]; simp [cellAt, hc]
      · rw [List.filter_cons_of_pos (by simpa using hs), cellAt, if_neg hc, ih]; simp [cellAt, hc]

/-- The byte that coherence has last, under writes that newer cells cover. -/
theorem lastWrites_shadow (ws : List Write) (cs : List Host.Cell) (ms : List (Nat × Bool)) (a : Nat) (b : Byte) :
    lastWrites (shadow ws cs ms) a b = if (cellAt cs a).isSome then b else lastWrites ws a b := by
  induction ws generalizing b with
  | nil => simp [shadow, lastWrites]
  | cons w rest ih =>
    show lastWrites (shadow rest cs ms) a _ = _
    rw [ih, lastWrites, cellAt_filter]
    split <;> simp

/-- Settling changes what no byte holds last. -/
theorem lastWrites_settle (pre ws : List Write) (m : Memory) (p : List Nat) (a : Nat) (h : m.wf = true) :
    lastWrites (settleWrites pre ws m p).1 a (memGet (settleWrites pre ws m p).2.1 a) = lastWrites (pre ++ ws) a (memGet m a) := by
  induction ws generalizing pre m p with
  | nil => simp [settleWrites]
  | cons w rest ih =>
    simp only [settleWrites]
    split
    · rw [ih _ _ _ (wf_memPuts _ _ h), lastWrites_append, lastWrites_append, lastWrites_shadow, memGet_memPuts _ _ _ h, lastWrites]
      cases cellAt w.data a <;> simp
    · rw [ih _ _ _ h]; simp

theorem State.byteLast_settle (s : State) (a : Nat) (h : s.mem.wf = true) : s.settle.byteLast a = s.byteLast a := by
  have := lastWrites_settle [] s.writes s.mem s.poison a h
  simpa [State.settle, State.byteLast] using this

/-- A new write is what coherence has last at its own bytes. -/
theorem State.byteLast_addWrite (s : State) (id : Nat) (cs : List Host.Cell) (cell : Nat) (o : Owner) (scope a : Nat)
    (h : s.mem.wf = true) : (s.addWrite id cs cell o scope).byteLast a = (cellAt cs a).getD (s.byteLast a) := by
  unfold State.addWrite
  split
  · rfl
  · refine (State.byteLast_settle _ a ?_).trans ?_
    · exact h
    · simp [State.byteLast, lastWrites_append, lastWrites]

/-- A write that is visible at once is what coherence has last at its own bytes. -/
theorem State.byteLast_addGlobal (s : State) (cs : List Host.Cell) (a : Nat) (h : s.mem.wf = true) :
    (s.addGlobal cs).byteLast a = (cellAt cs a).getD (s.byteLast a) := by
  show lastWrites (shadow s.writes cs []) a (memGet (memPuts s.mem cs) a) = _
  rw [lastWrites_shadow, memGet_memPuts _ _ _ h]
  cases cellAt cs a <;> simp [State.byteLast]

theorem readWrites_shadow (ws : List Write) (v : Viewer) (cs : List Host.Cell) (ms : List (Nat × Bool)) (a : Nat) (b : Byte) :
    readWrites (shadow ws cs ms) v a b = if (cellAt cs a).isSome then b else readWrites ws v a b := by
  induction ws generalizing b with
  | nil => simp [shadow, readWrites]
  | cons w rest ih =>
    show readWrites (shadow rest cs ms) v a _ = _
    rw [ih, readWrites]
    have hv : ({ w with
        data := w.data.filter fun c => (cellAt cs c.1).isNone
        marks := w.marks.filter fun m => !(ms.any fun n => decide (n.1 = m.1)) } : Write).visibleTo v = w.visibleTo v := by
      cases v <;> rfl
    rw [hv, cellAt_filter]
    split <;> simp

/-- A write that is visible at once is what every party sees. -/
theorem State.byteFor_addGlobal (s : State) (v : Viewer) (cs : List Host.Cell) (a : Nat) (h : s.mem.wf = true) :
    (s.addGlobal cs).byteFor v a = (cellAt cs a).getD (s.byteFor v a) := by
  show readWrites (shadow s.writes cs []) v a (memGet (memPuts s.mem cs) a) = _
  rw [readWrites_shadow, memGet_memPuts _ _ _ h]
  cases cellAt cs a <;> simp [State.byteFor]

/-! ### Poison (R100, R336) -/

theorem mem_insertNat (l : List Nat) (n a : Nat) : a ∈ insertNat l n ↔ a = n ∨ a ∈ l := by
  induction l with
  | nil => simp [insertNat]
  | cons m rest ih =>
    unfold insertNat
    split
    · subst_vars; simp
    · split
      · simp
      · simp only [List.mem_cons, ih]
        exact ⟨fun h => h.elim (fun h => .inr (.inl h)) fun h => h.elim .inl fun h => .inr (.inr h),
          fun h => h.elim (fun h => .inr (.inl h)) fun h => h.elim .inl fun h => .inr (.inr h)⟩

/-- Inserting keeps a strictly rising list. -/
theorem pairwise_insertNat (l : List Nat) (n : Nat) (h : l.Pairwise (· < ·)) : (insertNat l n).Pairwise (· < ·) := by
  induction l with
  | nil => simp [insertNat]
  | cons m rest ih =>
    obtain ⟨h1, h2⟩ := List.pairwise_cons.mp h
    unfold insertNat
    split
    · exact h
    · split
      · rename_i hlt
        refine List.pairwise_cons.mpr ⟨fun a ha => ?_, h⟩
        rcases List.mem_cons.mp ha with rfl | ha
        · exact hlt
        · exact Nat.lt_trans hlt (h1 a ha)
      · refine List.pairwise_cons.mpr ⟨fun a ha => ?_, ih h2⟩
        rcases (mem_insertNat rest n a).mp ha with rfl | ha
        · omega
        · exact h1 a ha

/-- Marks keep the poisoned quarters strictly rising. -/
theorem pairwise_applyMarks (ms : List (Nat × Bool)) (p : List Nat) (h : p.Pairwise (· < ·)) : (applyMarks p ms).Pairwise (· < ·) := by
  induction ms generalizing p with
  | nil => exact h
  | cons m rest ih =>
    refine ih _ ?_
    by_cases hm : m.2 = true
    · simp only [hm, if_true]; exact pairwise_insertNat p m.1 h
    · simp only [hm]; exact h.filter _

/-- Settling writes keeps the poisoned quarters strictly rising. -/
theorem pairwise_settleWrites (pre ws : List Write) (m : Memory) (p : List Nat) (h : p.Pairwise (· < ·)) :
    (settleWrites pre ws m p).2.2.Pairwise (· < ·) := by
  induction ws generalizing pre m p with
  | nil => exact h
  | cons w rest ih =>
    simp only [settleWrites]
    split
    · exact ih _ _ _ (pairwise_applyMarks _ _ h)
    · exact ih _ _ _ h

theorem State.settle_poison (s : State) (h : s.poison.Pairwise (· < ·)) : s.settle.poison.Pairwise (· < ·) :=
  pairwise_settleWrites [] s.writes s.mem s.poison h

theorem State.setMarks_poison (s : State) (ms : List (Nat × Bool)) (h : s.poison.Pairwise (· < ·)) :
    (s.setMarks ms).poison.Pairwise (· < ·) :=
  pairwise_applyMarks ms s.poison h

theorem readMarks_append (ws us : List Write) (sees : Write → Bool) (q : Nat) (b : Bool) :
    readMarks (ws ++ us) sees q b = readMarks us sees q (readMarks ws sees q b) := by
  induction ws generalizing b with
  | nil => rfl
  | cons w rest ih => exact ih _

end Sys2Proof.Machine
end

