-- ==== Sys2Proof/Laws/State.lean ====
section
/-! SUPPORT. What each update of the state and of a core leaves as it was: one lemma per field per update, so that no proof unfolds a
record update. -/

namespace Sys2Proof.Machine

set_option Elab.async false

/-! ### Cells -/

@[simp] theorem State.setCell_supervisors (s : State) (n : Nat) (x : Cell) : (s.setCell n x).supervisors = s.supervisors := rfl
@[simp] theorem State.setCell_saved (s : State) (n : Nat) (x : Cell) : (s.setCell n x).saved = s.saved := rfl
@[simp] theorem State.setCell_nis (s : State) (n : Nat) (x : Cell) : (s.setCell n x).nis = s.nis := rfl
@[simp] theorem State.setCell_mem (s : State) (n : Nat) (x : Cell) : (s.setCell n x).mem = s.mem := rfl
@[simp] theorem State.setCell_poison (s : State) (n : Nat) (x : Cell) : (s.setCell n x).poison = s.poison := rfl
@[simp] theorem State.setCell_writes (s : State) (n : Nat) (x : Cell) : (s.setCell n x).writes = s.writes := rfl
@[simp] theorem State.setCell_own (s : State) (n : Nat) (x : Cell) : (s.setCell n x).own = s.own := rfl
@[simp] theorem State.setCell_tlb (s : State) (n : Nat) (x : Cell) : (s.setCell n x).tlb = s.tlb := rfl
@[simp] theorem State.setCell_misses (s : State) (n : Nat) (x : Cell) : (s.setCell n x).misses = s.misses := rfl
@[simp] theorem State.setCell_failedWalks (s : State) (n : Nat) (x : Cell) : (s.setCell n x).failedWalks = s.failedWalks := rfl
@[simp] theorem State.setCell_contexts (s : State) (n : Nat) (x : Cell) : (s.setCell n x).contexts = s.contexts := rfl
@[simp] theorem State.setCell_copies (s : State) (n : Nat) (x : Cell) : (s.setCell n x).copies = s.copies := rfl
@[simp] theorem State.setCell_launches (s : State) (n : Nat) (x : Cell) : (s.setCell n x).launches = s.launches := rfl
@[simp] theorem State.setCell_initial (s : State) (n : Nat) (x : Cell) : (s.setCell n x).initial = s.initial := rfl
@[simp] theorem State.setCell_deviceQueue (s : State) (n : Nat) (x : Cell) : (s.setCell n x).deviceQueue = s.deviceQueue := rfl
@[simp] theorem State.setCell_hostQueues (s : State) (n : Nat) (x : Cell) : (s.setCell n x).hostQueues = s.hostQueues := rfl
@[simp] theorem State.setCell_nextQueue (s : State) (n : Nat) (x : Cell) : (s.setCell n x).nextQueue = s.nextQueue := rfl
@[simp] theorem State.setCell_counters (s : State) (n : Nat) (x : Cell) : (s.setCell n x).counters = s.counters := rfl
@[simp] theorem State.setCell_kept (s : State) (n : Nat) (x : Cell) : (s.setCell n x).kept = s.kept := rfl
@[simp] theorem State.setCell_heldAdds (s : State) (n : Nat) (x : Cell) : (s.setCell n x).heldAdds = s.heldAdds := rfl
@[simp] theorem State.setCell_net (s : State) (n : Nat) (x : Cell) : (s.setCell n x).net = s.net := rfl
@[simp] theorem State.setCell_sent (s : State) (n : Nat) (x : Cell) : (s.setCell n x).sent = s.sent := rfl
@[simp] theorem State.setCell_ports (s : State) (n : Nat) (x : Cell) : (s.setCell n x).ports = s.ports := rfl
@[simp] theorem State.setCell_sorters (s : State) (n : Nat) (x : Cell) : (s.setCell n x).sorters = s.sorters := rfl
@[simp] theorem State.setCell_rules (s : State) (n : Nat) (x : Cell) : (s.setCell n x).rules = s.rules := rfl
@[simp] theorem State.setCell_blocks (s : State) (n : Nat) (x : Cell) : (s.setCell n x).blocks = s.blocks := rfl
@[simp] theorem State.setCell_shares (s : State) (n : Nat) (x : Cell) : (s.setCell n x).shares = s.shares := rfl
@[simp] theorem State.setCell_mixUsed (s : State) (n : Nat) (x : Cell) : (s.setCell n x).mixUsed = s.mixUsed := rfl
@[simp] theorem State.setCell_mixNext (s : State) (n : Nat) (x : Cell) : (s.setCell n x).mixNext = s.mixNext := rfl
@[simp] theorem State.setCell_mixTime (s : State) (n : Nat) (x : Cell) : (s.setCell n x).mixTime = s.mixTime := rfl
@[simp] theorem State.setCell_crossed (s : State) (n : Nat) (x : Cell) : (s.setCell n x).crossed = s.crossed := rfl
@[simp] theorem State.setCell_mixLate (s : State) (n : Nat) (x : Cell) : (s.setCell n x).mixLate = s.mixLate := rfl
@[simp] theorem State.setCell_trailing (s : State) (n : Nat) (x : Cell) : (s.setCell n x).trailing = s.trailing := rfl
@[simp] theorem State.setCell_chip (s : State) (n : Nat) (x : Cell) : (s.setCell n x).chip = s.chip := rfl
@[simp] theorem State.setCell_timeout (s : State) (n : Nat) (x : Cell) : (s.setCell n x).timeout = s.timeout := rfl
@[simp] theorem State.setCell_service (s : State) (n : Nat) (x : Cell) : (s.setCell n x).service = s.service := rfl
@[simp] theorem State.setCell_energyTime (s : State) (n : Nat) (x : Cell) : (s.setCell n x).energyTime = s.energyTime := rfl
@[simp] theorem State.setCell_turns (s : State) (n : Nat) (x : Cell) : (s.setCell n x).turns = s.turns := rfl
@[simp] theorem State.setCell_tick (s : State) (n : Nat) (x : Cell) : (s.setCell n x).tick = s.tick := rfl
@[simp] theorem State.setCell_now (s : State) (n : Nat) (x : Cell) : (s.setCell n x).now = s.now := rfl
@[simp] theorem State.setCell_fresh (s : State) (n : Nat) (x : Cell) : (s.setCell n x).fresh = s.fresh := rfl
@[simp] theorem State.setCell_cur (s : State) (n : Nat) (x : Cell) : (s.setCell n x).cur = s.cur := rfl
@[simp] theorem State.setCell_args (s : State) (n : Nat) (x : Cell) : (s.setCell n x).args = s.args := rfl

/-! ### The context state of a cell -/

@[simp] theorem State.setCtx_supervisors (s : State) (n : Nat) (x : CellCtx) : (s.setCtx n x).supervisors = s.supervisors := rfl
@[simp] theorem State.setCtx_saved (s : State) (n : Nat) (x : CellCtx) : (s.setCtx n x).saved = s.saved := rfl
@[simp] theorem State.setCtx_nis (s : State) (n : Nat) (x : CellCtx) : (s.setCtx n x).nis = s.nis := rfl
@[simp] theorem State.setCtx_mem (s : State) (n : Nat) (x : CellCtx) : (s.setCtx n x).mem = s.mem := rfl
@[simp] theorem State.setCtx_poison (s : State) (n : Nat) (x : CellCtx) : (s.setCtx n x).poison = s.poison := rfl
@[simp] theorem State.setCtx_writes (s : State) (n : Nat) (x : CellCtx) : (s.setCtx n x).writes = s.writes := rfl
@[simp] theorem State.setCtx_own (s : State) (n : Nat) (x : CellCtx) : (s.setCtx n x).own = s.own := rfl
@[simp] theorem State.setCtx_tlb (s : State) (n : Nat) (x : CellCtx) : (s.setCtx n x).tlb = s.tlb := rfl
@[simp] theorem State.setCtx_misses (s : State) (n : Nat) (x : CellCtx) : (s.setCtx n x).misses = s.misses := rfl
@[simp] theorem State.setCtx_failedWalks (s : State) (n : Nat) (x : CellCtx) : (s.setCtx n x).failedWalks = s.failedWalks := rfl
@[simp] theorem State.setCtx_contexts (s : State) (n : Nat) (x : CellCtx) : (s.setCtx n x).contexts = s.contexts := rfl
@[simp] theorem State.setCtx_copies (s : State) (n : Nat) (x : CellCtx) : (s.setCtx n x).copies = s.copies := rfl
@[simp] theorem State.setCtx_launches (s : State) (n : Nat) (x : CellCtx) : (s.setCtx n x).launches = s.launches := rfl
@[simp] theorem State.setCtx_initial (s : State) (n : Nat) (x : CellCtx) : (s.setCtx n x).initial = s.initial := rfl
@[simp] theorem State.setCtx_deviceQueue (s : State) (n : Nat) (x : CellCtx) : (s.setCtx n x).deviceQueue = s.deviceQueue := rfl
@[simp] theorem State.setCtx_hostQueues (s : State) (n : Nat) (x : CellCtx) : (s.setCtx n x).hostQueues = s.hostQueues := rfl
@[simp] theorem State.setCtx_nextQueue (s : State) (n : Nat) (x : CellCtx) : (s.setCtx n x).nextQueue = s.nextQueue := rfl
@[simp] theorem State.setCtx_counters (s : State) (n : Nat) (x : CellCtx) : (s.setCtx n x).counters = s.counters := rfl
@[simp] theorem State.setCtx_kept (s : State) (n : Nat) (x : CellCtx) : (s.setCtx n x).kept = s.kept := rfl
@[simp] theorem State.setCtx_heldAdds (s : State) (n : Nat) (x : CellCtx) : (s.setCtx n x).heldAdds = s.heldAdds := rfl
@[simp] theorem State.setCtx_net (s : State) (n : Nat) (x : CellCtx) : (s.setCtx n x).net = s.net := rfl
@[simp] theorem State.setCtx_sent (s : State) (n : Nat) (x : CellCtx) : (s.setCtx n x).sent = s.sent := rfl
@[simp] theorem State.setCtx_ports (s : State) (n : Nat) (x : CellCtx) : (s.setCtx n x).ports = s.ports := rfl
@[simp] theorem State.setCtx_sorters (s : State) (n : Nat) (x : CellCtx) : (s.setCtx n x).sorters = s.sorters := rfl
@[simp] theorem State.setCtx_rules (s : State) (n : Nat) (x : CellCtx) : (s.setCtx n x).rules = s.rules := rfl
@[simp] theorem State.setCtx_blocks (s : State) (n : Nat) (x : CellCtx) : (s.setCtx n x).blocks = s.blocks := rfl
@[simp] theorem State.setCtx_shares (s : State) (n : Nat) (x : CellCtx) : (s.setCtx n x).shares = s.shares := rfl
@[simp] theorem State.setCtx_mixUsed (s : State) (n : Nat) (x : CellCtx) : (s.setCtx n x).mixUsed = s.mixUsed := rfl
@[simp] theorem State.setCtx_mixNext (s : State) (n : Nat) (x : CellCtx) : (s.setCtx n x).mixNext = s.mixNext := rfl
@[simp] theorem State.setCtx_mixTime (s : State) (n : Nat) (x : CellCtx) : (s.setCtx n x).mixTime = s.mixTime := rfl
@[simp] theorem State.setCtx_crossed (s : State) (n : Nat) (x : CellCtx) : (s.setCtx n x).crossed = s.crossed := rfl
@[simp] theorem State.setCtx_mixLate (s : State) (n : Nat) (x : CellCtx) : (s.setCtx n x).mixLate = s.mixLate := rfl
@[simp] theorem State.setCtx_trailing (s : State) (n : Nat) (x : CellCtx) : (s.setCtx n x).trailing = s.trailing := rfl
@[simp] theorem State.setCtx_chip (s : State) (n : Nat) (x : CellCtx) : (s.setCtx n x).chip = s.chip := rfl
@[simp] theorem State.setCtx_timeout (s : State) (n : Nat) (x : CellCtx) : (s.setCtx n x).timeout = s.timeout := rfl
@[simp] theorem State.setCtx_service (s : State) (n : Nat) (x : CellCtx) : (s.setCtx n x).service = s.service := rfl
@[simp] theorem State.setCtx_energyTime (s : State) (n : Nat) (x : CellCtx) : (s.setCtx n x).energyTime = s.energyTime := rfl
@[simp] theorem State.setCtx_turns (s : State) (n : Nat) (x : CellCtx) : (s.setCtx n x).turns = s.turns := rfl
@[simp] theorem State.setCtx_tick (s : State) (n : Nat) (x : CellCtx) : (s.setCtx n x).tick = s.tick := rfl
@[simp] theorem State.setCtx_now (s : State) (n : Nat) (x : CellCtx) : (s.setCtx n x).now = s.now := rfl
@[simp] theorem State.setCtx_fresh (s : State) (n : Nat) (x : CellCtx) : (s.setCtx n x).fresh = s.fresh := rfl
@[simp] theorem State.setCtx_cur (s : State) (n : Nat) (x : CellCtx) : (s.setCtx n x).cur = s.cur := rfl
@[simp] theorem State.setCtx_args (s : State) (n : Nat) (x : CellCtx) : (s.setCtx n x).args = s.args := rfl

/-! ### A function on the context state of a cell -/

@[simp] theorem State.updCtx_supervisors (s : State) (n : Nat) (f : CellCtx → CellCtx) : (s.updCtx n f).supervisors = s.supervisors := rfl
@[simp] theorem State.updCtx_saved (s : State) (n : Nat) (f : CellCtx → CellCtx) : (s.updCtx n f).saved = s.saved := rfl
@[simp] theorem State.updCtx_nis (s : State) (n : Nat) (f : CellCtx → CellCtx) : (s.updCtx n f).nis = s.nis := rfl
@[simp] theorem State.updCtx_mem (s : State) (n : Nat) (f : CellCtx → CellCtx) : (s.updCtx n f).mem = s.mem := rfl
@[simp] theorem State.updCtx_poison (s : State) (n : Nat) (f : CellCtx → CellCtx) : (s.updCtx n f).poison = s.poison := rfl
@[simp] theorem State.updCtx_writes (s : State) (n : Nat) (f : CellCtx → CellCtx) : (s.updCtx n f).writes = s.writes := rfl
@[simp] theorem State.updCtx_own (s : State) (n : Nat) (f : CellCtx → CellCtx) : (s.updCtx n f).own = s.own := rfl
@[simp] theorem State.updCtx_tlb (s : State) (n : Nat) (f : CellCtx → CellCtx) : (s.updCtx n f).tlb = s.tlb := rfl
@[simp] theorem State.updCtx_misses (s : State) (n : Nat) (f : CellCtx → CellCtx) : (s.updCtx n f).misses = s.misses := rfl
@[simp] theorem State.updCtx_failedWalks (s : State) (n : Nat) (f : CellCtx → CellCtx) : (s.updCtx n f).failedWalks = s.failedWalks := rfl
@[simp] theorem State.updCtx_contexts (s : State) (n : Nat) (f : CellCtx → CellCtx) : (s.updCtx n f).contexts = s.contexts := rfl
@[simp] theorem State.updCtx_copies (s : State) (n : Nat) (f : CellCtx → CellCtx) : (s.updCtx n f).copies = s.copies := rfl
@[simp] theorem State.updCtx_launches (s : State) (n : Nat) (f : CellCtx → CellCtx) : (s.updCtx n f).launches = s.launches := rfl
@[simp] theorem State.updCtx_initial (s : State) (n : Nat) (f : CellCtx → CellCtx) : (s.updCtx n f).initial = s.initial := rfl
@[simp] theorem State.updCtx_deviceQueue (s : State) (n : Nat) (f : CellCtx → CellCtx) : (s.updCtx n f).deviceQueue = s.deviceQueue := rfl
@[simp] theorem State.updCtx_hostQueues (s : State) (n : Nat) (f : CellCtx → CellCtx) : (s.updCtx n f).hostQueues = s.hostQueues := rfl
@[simp] theorem State.updCtx_nextQueue (s : State) (n : Nat) (f : CellCtx → CellCtx) : (s.updCtx n f).nextQueue = s.nextQueue := rfl
@[simp] theorem State.updCtx_counters (s : State) (n : Nat) (f : CellCtx → CellCtx) : (s.updCtx n f).counters = s.counters := rfl
@[simp] theorem State.updCtx_kept (s : State) (n : Nat) (f : CellCtx → CellCtx) : (s.updCtx n f).kept = s.kept := rfl
@[simp] theorem State.updCtx_heldAdds (s : State) (n : Nat) (f : CellCtx → CellCtx) : (s.updCtx n f).heldAdds = s.heldAdds := rfl
@[simp] theorem State.updCtx_net (s : State) (n : Nat) (f : CellCtx → CellCtx) : (s.updCtx n f).net = s.net := rfl
@[simp] theorem State.updCtx_sent (s : State) (n : Nat) (f : CellCtx → CellCtx) : (s.updCtx n f).sent = s.sent := rfl
@[simp] theorem State.updCtx_ports (s : State) (n : Nat) (f : CellCtx → CellCtx) : (s.updCtx n f).ports = s.ports := rfl
@[simp] theorem State.updCtx_sorters (s : State) (n : Nat) (f : CellCtx → CellCtx) : (s.updCtx n f).sorters = s.sorters := rfl
@[simp] theorem State.updCtx_rules (s : State) (n : Nat) (f : CellCtx → CellCtx) : (s.updCtx n f).rules = s.rules := rfl
@[simp] theorem State.updCtx_blocks (s : State) (n : Nat) (f : CellCtx → CellCtx) : (s.updCtx n f).blocks = s.blocks := rfl
@[simp] theorem State.updCtx_shares (s : State) (n : Nat) (f : CellCtx → CellCtx) : (s.updCtx n f).shares = s.shares := rfl
@[simp] theorem State.updCtx_mixUsed (s : State) (n : Nat) (f : CellCtx → CellCtx) : (s.updCtx n f).mixUsed = s.mixUsed := rfl
@[simp] theorem State.updCtx_mixNext (s : State) (n : Nat) (f : CellCtx → CellCtx) : (s.updCtx n f).mixNext = s.mixNext := rfl
@[simp] theorem State.updCtx_mixTime (s : State) (n : Nat) (f : CellCtx → CellCtx) : (s.updCtx n f).mixTime = s.mixTime := rfl
@[simp] theorem State.updCtx_crossed (s : State) (n : Nat) (f : CellCtx → CellCtx) : (s.updCtx n f).crossed = s.crossed := rfl
@[simp] theorem State.updCtx_mixLate (s : State) (n : Nat) (f : CellCtx → CellCtx) : (s.updCtx n f).mixLate = s.mixLate := rfl
@[simp] theorem State.updCtx_trailing (s : State) (n : Nat) (f : CellCtx → CellCtx) : (s.updCtx n f).trailing = s.trailing := rfl
@[simp] theorem State.updCtx_chip (s : State) (n : Nat) (f : CellCtx → CellCtx) : (s.updCtx n f).chip = s.chip := rfl
@[simp] theorem State.updCtx_timeout (s : State) (n : Nat) (f : CellCtx → CellCtx) : (s.updCtx n f).timeout = s.timeout := rfl
@[simp] theorem State.updCtx_service (s : State) (n : Nat) (f : CellCtx → CellCtx) : (s.updCtx n f).service = s.service := rfl
@[simp] theorem State.updCtx_energyTime (s : State) (n : Nat) (f : CellCtx → CellCtx) : (s.updCtx n f).energyTime = s.energyTime := rfl
@[simp] theorem State.updCtx_turns (s : State) (n : Nat) (f : CellCtx → CellCtx) : (s.updCtx n f).turns = s.turns := rfl
@[simp] theorem State.updCtx_tick (s : State) (n : Nat) (f : CellCtx → CellCtx) : (s.updCtx n f).tick = s.tick := rfl
@[simp] theorem State.updCtx_now (s : State) (n : Nat) (f : CellCtx → CellCtx) : (s.updCtx n f).now = s.now := rfl
@[simp] theorem State.updCtx_fresh (s : State) (n : Nat) (f : CellCtx → CellCtx) : (s.updCtx n f).fresh = s.fresh := rfl
@[simp] theorem State.updCtx_cur (s : State) (n : Nat) (f : CellCtx → CellCtx) : (s.updCtx n f).cur = s.cur := rfl
@[simp] theorem State.updCtx_args (s : State) (n : Nat) (f : CellCtx → CellCtx) : (s.updCtx n f).args = s.args := rfl

/-! ### A function on the context state of the cell whose turn it is -/

@[simp] theorem State.updMyCtx_supervisors (s : State) (f : CellCtx → CellCtx) : (s.updMyCtx f).supervisors = s.supervisors := rfl
@[simp] theorem State.updMyCtx_saved (s : State) (f : CellCtx → CellCtx) : (s.updMyCtx f).saved = s.saved := rfl
@[simp] theorem State.updMyCtx_nis (s : State) (f : CellCtx → CellCtx) : (s.updMyCtx f).nis = s.nis := rfl
@[simp] theorem State.updMyCtx_mem (s : State) (f : CellCtx → CellCtx) : (s.updMyCtx f).mem = s.mem := rfl
@[simp] theorem State.updMyCtx_poison (s : State) (f : CellCtx → CellCtx) : (s.updMyCtx f).poison = s.poison := rfl
@[simp] theorem State.updMyCtx_writes (s : State) (f : CellCtx → CellCtx) : (s.updMyCtx f).writes = s.writes := rfl
@[simp] theorem State.updMyCtx_own (s : State) (f : CellCtx → CellCtx) : (s.updMyCtx f).own = s.own := rfl
@[simp] theorem State.updMyCtx_tlb (s : State) (f : CellCtx → CellCtx) : (s.updMyCtx f).tlb = s.tlb := rfl
@[simp] theorem State.updMyCtx_misses (s : State) (f : CellCtx → CellCtx) : (s.updMyCtx f).misses = s.misses := rfl
@[simp] theorem State.updMyCtx_failedWalks (s : State) (f : CellCtx → CellCtx) : (s.updMyCtx f).failedWalks = s.failedWalks := rfl
@[simp] theorem State.updMyCtx_contexts (s : State) (f : CellCtx → CellCtx) : (s.updMyCtx f).contexts = s.contexts := rfl
@[simp] theorem State.updMyCtx_copies (s : State) (f : CellCtx → CellCtx) : (s.updMyCtx f).copies = s.copies := rfl
@[simp] theorem State.updMyCtx_launches (s : State) (f : CellCtx → CellCtx) : (s.updMyCtx f).launches = s.launches := rfl
@[simp] theorem State.updMyCtx_initial (s : State) (f : CellCtx → CellCtx) : (s.updMyCtx f).initial = s.initial := rfl
@[simp] theorem State.updMyCtx_deviceQueue (s : State) (f : CellCtx → CellCtx) : (s.updMyCtx f).deviceQueue = s.deviceQueue := rfl
@[simp] theorem State.updMyCtx_hostQueues (s : State) (f : CellCtx → CellCtx) : (s.updMyCtx f).hostQueues = s.hostQueues := rfl
@[simp] theorem State.updMyCtx_nextQueue (s : State) (f : CellCtx → CellCtx) : (s.updMyCtx f).nextQueue = s.nextQueue := rfl
@[simp] theorem State.updMyCtx_counters (s : State) (f : CellCtx → CellCtx) : (s.updMyCtx f).counters = s.counters := rfl
@[simp] theorem State.updMyCtx_kept (s : State) (f : CellCtx → CellCtx) : (s.updMyCtx f).kept = s.kept := rfl
@[simp] theorem State.updMyCtx_heldAdds (s : State) (f : CellCtx → CellCtx) : (s.updMyCtx f).heldAdds = s.heldAdds := rfl
@[simp] theorem State.updMyCtx_net (s : State) (f : CellCtx → CellCtx) : (s.updMyCtx f).net = s.net := rfl
@[simp] theorem State.updMyCtx_sent (s : State) (f : CellCtx → CellCtx) : (s.updMyCtx f).sent = s.sent := rfl
@[simp] theorem State.updMyCtx_ports (s : State) (f : CellCtx → CellCtx) : (s.updMyCtx f).ports = s.ports := rfl
@[simp] theorem State.updMyCtx_sorters (s : State) (f : CellCtx → CellCtx) : (s.updMyCtx f).sorters = s.sorters := rfl
@[simp] theorem State.updMyCtx_rules (s : State) (f : CellCtx → CellCtx) : (s.updMyCtx f).rules = s.rules := rfl
@[simp] theorem State.updMyCtx_blocks (s : State) (f : CellCtx → CellCtx) : (s.updMyCtx f).blocks = s.blocks := rfl
@[simp] theorem State.updMyCtx_shares (s : State) (f : CellCtx → CellCtx) : (s.updMyCtx f).shares = s.shares := rfl
@[simp] theorem State.updMyCtx_mixUsed (s : State) (f : CellCtx → CellCtx) : (s.updMyCtx f).mixUsed = s.mixUsed := rfl
@[simp] theorem State.updMyCtx_mixNext (s : State) (f : CellCtx → CellCtx) : (s.updMyCtx f).mixNext = s.mixNext := rfl
@[simp] theorem State.updMyCtx_mixTime (s : State) (f : CellCtx → CellCtx) : (s.updMyCtx f).mixTime = s.mixTime := rfl
@[simp] theorem State.updMyCtx_crossed (s : State) (f : CellCtx → CellCtx) : (s.updMyCtx f).crossed = s.crossed := rfl
@[simp] theorem State.updMyCtx_mixLate (s : State) (f : CellCtx → CellCtx) : (s.updMyCtx f).mixLate = s.mixLate := rfl
@[simp] theorem State.updMyCtx_trailing (s : State) (f : CellCtx → CellCtx) : (s.updMyCtx f).trailing = s.trailing := rfl
@[simp] theorem State.updMyCtx_chip (s : State) (f : CellCtx → CellCtx) : (s.updMyCtx f).chip = s.chip := rfl
@[simp] theorem State.updMyCtx_timeout (s : State) (f : CellCtx → CellCtx) : (s.updMyCtx f).timeout = s.timeout := rfl
@[simp] theorem State.updMyCtx_service (s : State) (f : CellCtx → CellCtx) : (s.updMyCtx f).service = s.service := rfl
@[simp] theorem State.updMyCtx_energyTime (s : State) (f : CellCtx → CellCtx) : (s.updMyCtx f).energyTime = s.energyTime := rfl
@[simp] theorem State.updMyCtx_turns (s : State) (f : CellCtx → CellCtx) : (s.updMyCtx f).turns = s.turns := rfl
@[simp] theorem State.updMyCtx_tick (s : State) (f : CellCtx → CellCtx) : (s.updMyCtx f).tick = s.tick := rfl
@[simp] theorem State.updMyCtx_now (s : State) (f : CellCtx → CellCtx) : (s.updMyCtx f).now = s.now := rfl
@[simp] theorem State.updMyCtx_fresh (s : State) (f : CellCtx → CellCtx) : (s.updMyCtx f).fresh = s.fresh := rfl
@[simp] theorem State.updMyCtx_cur (s : State) (f : CellCtx → CellCtx) : (s.updMyCtx f).cur = s.cur := rfl
@[simp] theorem State.updMyCtx_args (s : State) (f : CellCtx → CellCtx) : (s.updMyCtx f).args = s.args := rfl

/-! ### Cores -/

@[simp] theorem State.setCore_saved (s : State) (p : CoreRef) (k : Core) : (s.setCore p k).saved = s.saved := by cases p with | mk c r => cases r <;> rfl
@[simp] theorem State.setCore_nis (s : State) (p : CoreRef) (k : Core) : (s.setCore p k).nis = s.nis := by cases p with | mk c r => cases r <;> rfl
@[simp] theorem State.setCore_mem (s : State) (p : CoreRef) (k : Core) : (s.setCore p k).mem = s.mem := by cases p with | mk c r => cases r <;> rfl
@[simp] theorem State.setCore_poison (s : State) (p : CoreRef) (k : Core) : (s.setCore p k).poison = s.poison := by cases p with | mk c r => cases r <;> rfl
@[simp] theorem State.setCore_writes (s : State) (p : CoreRef) (k : Core) : (s.setCore p k).writes = s.writes := by cases p with | mk c r => cases r <;> rfl
@[simp] theorem State.setCore_own (s : State) (p : CoreRef) (k : Core) : (s.setCore p k).own = s.own := by cases p with | mk c r => cases r <;> rfl
@[simp] theorem State.setCore_tlb (s : State) (p : CoreRef) (k : Core) : (s.setCore p k).tlb = s.tlb := by cases p with | mk c r => cases r <;> rfl
@[simp] theorem State.setCore_misses (s : State) (p : CoreRef) (k : Core) : (s.setCore p k).misses = s.misses := by cases p with | mk c r => cases r <;> rfl
@[simp] theorem State.setCore_failedWalks (s : State) (p : CoreRef) (k : Core) : (s.setCore p k).failedWalks = s.failedWalks := by cases p with | mk c r => cases r <;> rfl
@[simp] theorem State.setCore_contexts (s : State) (p : CoreRef) (k : Core) : (s.setCore p k).contexts = s.contexts := by cases p with | mk c r => cases r <;> rfl
@[simp] theorem State.setCore_copies (s : State) (p : CoreRef) (k : Core) : (s.setCore p k).copies = s.copies := by cases p with | mk c r => cases r <;> rfl
@[simp] theorem State.setCore_launches (s : State) (p : CoreRef) (k : Core) : (s.setCore p k).launches = s.launches := by cases p with | mk c r => cases r <;> rfl
@[simp] theorem State.setCore_initial (s : State) (p : CoreRef) (k : Core) : (s.setCore p k).initial = s.initial := by cases p with | mk c r => cases r <;> rfl
@[simp] theorem State.setCore_deviceQueue (s : State) (p : CoreRef) (k : Core) : (s.setCore p k).deviceQueue = s.deviceQueue := by cases p with | mk c r => cases r <;> rfl
@[simp] theorem State.setCore_hostQueues (s : State) (p : CoreRef) (k : Core) : (s.setCore p k).hostQueues = s.hostQueues := by cases p with | mk c r => cases r <;> rfl
@[simp] theorem State.setCore_nextQueue (s : State) (p : CoreRef) (k : Core) : (s.setCore p k).nextQueue = s.nextQueue := by cases p with | mk c r => cases r <;> rfl
@[simp] theorem State.setCore_counters (s : State) (p : CoreRef) (k : Core) : (s.setCore p k).counters = s.counters := by cases p with | mk c r => cases r <;> rfl
@[simp] theorem State.setCore_kept (s : State) (p : CoreRef) (k : Core) : (s.setCore p k).kept = s.kept := by cases p with | mk c r => cases r <;> rfl
@[simp] theorem State.setCore_heldAdds (s : State) (p : CoreRef) (k : Core) : (s.setCore p k).heldAdds = s.heldAdds := by cases p with | mk c r => cases r <;> rfl
@[simp] theorem State.setCore_net (s : State) (p : CoreRef) (k : Core) : (s.setCore p k).net = s.net := by cases p with | mk c r => cases r <;> rfl
@[simp] theorem State.setCore_sent (s : State) (p : CoreRef) (k : Core) : (s.setCore p k).sent = s.sent := by cases p with | mk c r => cases r <;> rfl
@[simp] theorem State.setCore_ports (s : State) (p : CoreRef) (k : Core) : (s.setCore p k).ports = s.ports := by cases p with | mk c r => cases r <;> rfl
@[simp] theorem State.setCore_sorters (s : State) (p : CoreRef) (k : Core) : (s.setCore p k).sorters = s.sorters := by cases p with | mk c r => cases r <;> rfl
@[simp] theorem State.setCore_rules (s : State) (p : CoreRef) (k : Core) : (s.setCore p k).rules = s.rules := by cases p with | mk c r => cases r <;> rfl
@[simp] theorem State.setCore_blocks (s : State) (p : CoreRef) (k : Core) : (s.setCore p k).blocks = s.blocks := by cases p with | mk c r => cases r <;> rfl
@[simp] theorem State.setCore_shares (s : State) (p : CoreRef) (k : Core) : (s.setCore p k).shares = s.shares := by cases p with | mk c r => cases r <;> rfl
@[simp] theorem State.setCore_mixUsed (s : State) (p : CoreRef) (k : Core) : (s.setCore p k).mixUsed = s.mixUsed := by cases p with | mk c r => cases r <;> rfl
@[simp] theorem State.setCore_mixNext (s : State) (p : CoreRef) (k : Core) : (s.setCore p k).mixNext = s.mixNext := by cases p with | mk c r => cases r <;> rfl
@[simp] theorem State.setCore_mixTime (s : State) (p : CoreRef) (k : Core) : (s.setCore p k).mixTime = s.mixTime := by cases p with | mk c r => cases r <;> rfl
@[simp] theorem State.setCore_crossed (s : State) (p : CoreRef) (k : Core) : (s.setCore p k).crossed = s.crossed := by cases p with | mk c r => cases r <;> rfl
@[simp] theorem State.setCore_mixLate (s : State) (p : CoreRef) (k : Core) : (s.setCore p k).mixLate = s.mixLate := by cases p with | mk c r => cases r <;> rfl
@[simp] theorem State.setCore_trailing (s : State) (p : CoreRef) (k : Core) : (s.setCore p k).trailing = s.trailing := by cases p with | mk c r => cases r <;> rfl
@[simp] theorem State.setCore_chip (s : State) (p : CoreRef) (k : Core) : (s.setCore p k).chip = s.chip := by cases p with | mk c r => cases r <;> rfl
@[simp] theorem State.setCore_timeout (s : State) (p : CoreRef) (k : Core) : (s.setCore p k).timeout = s.timeout := by cases p with | mk c r => cases r <;> rfl
@[simp] theorem State.setCore_service (s : State) (p : CoreRef) (k : Core) : (s.setCore p k).service = s.service := by cases p with | mk c r => cases r <;> rfl
@[simp] theorem State.setCore_energyTime (s : State) (p : CoreRef) (k : Core) : (s.setCore p k).energyTime = s.energyTime := by cases p with | mk c r => cases r <;> rfl
@[simp] theorem State.setCore_turns (s : State) (p : CoreRef) (k : Core) : (s.setCore p k).turns = s.turns := by cases p with | mk c r => cases r <;> rfl
@[simp] theorem State.setCore_tick (s : State) (p : CoreRef) (k : Core) : (s.setCore p k).tick = s.tick := by cases p with | mk c r => cases r <;> rfl
@[simp] theorem State.setCore_now (s : State) (p : CoreRef) (k : Core) : (s.setCore p k).now = s.now := by cases p with | mk c r => cases r <;> rfl
@[simp] theorem State.setCore_fresh (s : State) (p : CoreRef) (k : Core) : (s.setCore p k).fresh = s.fresh := by cases p with | mk c r => cases r <;> rfl
@[simp] theorem State.setCore_cur (s : State) (p : CoreRef) (k : Core) : (s.setCore p k).cur = s.cur := by cases p with | mk c r => cases r <;> rfl
@[simp] theorem State.setCore_args (s : State) (p : CoreRef) (k : Core) : (s.setCore p k).args = s.args := by cases p with | mk c r => cases r <;> rfl

/-! ### A function on a core -/

@[simp] theorem State.updCore_saved (s : State) (p : CoreRef) (f : Core → Core) : (s.updCore p f).saved = s.saved := State.setCore_saved s p _
@[simp] theorem State.updCore_nis (s : State) (p : CoreRef) (f : Core → Core) : (s.updCore p f).nis = s.nis := State.setCore_nis s p _
@[simp] theorem State.updCore_mem (s : State) (p : CoreRef) (f : Core → Core) : (s.updCore p f).mem = s.mem := State.setCore_mem s p _
@[simp] theorem State.updCore_poison (s : State) (p : CoreRef) (f : Core → Core) : (s.updCore p f).poison = s.poison := State.setCore_poison s p _
@[simp] theorem State.updCore_writes (s : State) (p : CoreRef) (f : Core → Core) : (s.updCore p f).writes = s.writes := State.setCore_writes s p _
@[simp] theorem State.updCore_own (s : State) (p : CoreRef) (f : Core → Core) : (s.updCore p f).own = s.own := State.setCore_own s p _
@[simp] theorem State.updCore_tlb (s : State) (p : CoreRef) (f : Core → Core) : (s.updCore p f).tlb = s.tlb := State.setCore_tlb s p _
@[simp] theorem State.updCore_misses (s : State) (p : CoreRef) (f : Core → Core) : (s.updCore p f).misses = s.misses := State.setCore_misses s p _
@[simp] theorem State.updCore_failedWalks (s : State) (p : CoreRef) (f : Core → Core) : (s.updCore p f).failedWalks = s.failedWalks := State.setCore_failedWalks s p _
@[simp] theorem State.updCore_contexts (s : State) (p : CoreRef) (f : Core → Core) : (s.updCore p f).contexts = s.contexts := State.setCore_contexts s p _
@[simp] theorem State.updCore_copies (s : State) (p : CoreRef) (f : Core → Core) : (s.updCore p f).copies = s.copies := State.setCore_copies s p _
@[simp] theorem State.updCore_launches (s : State) (p : CoreRef) (f : Core → Core) : (s.updCore p f).launches = s.launches := State.setCore_launches s p _
@[simp] theorem State.updCore_initial (s : State) (p : CoreRef) (f : Core → Core) : (s.updCore p f).initial = s.initial := State.setCore_initial s p _
@[simp] theorem State.updCore_deviceQueue (s : State) (p : CoreRef) (f : Core → Core) : (s.updCore p f).deviceQueue = s.deviceQueue := State.setCore_deviceQueue s p _
@[simp] theorem State.updCore_hostQueues (s : State) (p : CoreRef) (f : Core → Core) : (s.updCore p f).hostQueues = s.hostQueues := State.setCore_hostQueues s p _
@[simp] theorem State.updCore_nextQueue (s : State) (p : CoreRef) (f : Core → Core) : (s.updCore p f).nextQueue = s.nextQueue := State.setCore_nextQueue s p _
@[simp] theorem State.updCore_counters (s : State) (p : CoreRef) (f : Core → Core) : (s.updCore p f).counters = s.counters := State.setCore_counters s p _
@[simp] theorem State.updCore_kept (s : State) (p : CoreRef) (f : Core → Core) : (s.updCore p f).kept = s.kept := State.setCore_kept s p _
@[simp] theorem State.updCore_heldAdds (s : State) (p : CoreRef) (f : Core → Core) : (s.updCore p f).heldAdds = s.heldAdds := State.setCore_heldAdds s p _
@[simp] theorem State.updCore_net (s : State) (p : CoreRef) (f : Core → Core) : (s.updCore p f).net = s.net := State.setCore_net s p _
@[simp] theorem State.updCore_sent (s : State) (p : CoreRef) (f : Core → Core) : (s.updCore p f).sent = s.sent := State.setCore_sent s p _
@[simp] theorem State.updCore_ports (s : State) (p : CoreRef) (f : Core → Core) : (s.updCore p f).ports = s.ports := State.setCore_ports s p _
@[simp] theorem State.updCore_sorters (s : State) (p : CoreRef) (f : Core → Core) : (s.updCore p f).sorters = s.sorters := State.setCore_sorters s p _
@[simp] theorem State.updCore_rules (s : State) (p : CoreRef) (f : Core → Core) : (s.updCore p f).rules = s.rules := State.setCore_rules s p _
@[simp] theorem State.updCore_blocks (s : State) (p : CoreRef) (f : Core → Core) : (s.updCore p f).blocks = s.blocks := State.setCore_blocks s p _
@[simp] theorem State.updCore_shares (s : State) (p : CoreRef) (f : Core → Core) : (s.updCore p f).shares = s.shares := State.setCore_shares s p _
@[simp] theorem State.updCore_mixUsed (s : State) (p : CoreRef) (f : Core → Core) : (s.updCore p f).mixUsed = s.mixUsed := State.setCore_mixUsed s p _
@[simp] theorem State.updCore_mixNext (s : State) (p : CoreRef) (f : Core → Core) : (s.updCore p f).mixNext = s.mixNext := State.setCore_mixNext s p _
@[simp] theorem State.updCore_mixTime (s : State) (p : CoreRef) (f : Core → Core) : (s.updCore p f).mixTime = s.mixTime := State.setCore_mixTime s p _
@[simp] theorem State.updCore_crossed (s : State) (p : CoreRef) (f : Core → Core) : (s.updCore p f).crossed = s.crossed := State.setCore_crossed s p _
@[simp] theorem State.updCore_mixLate (s : State) (p : CoreRef) (f : Core → Core) : (s.updCore p f).mixLate = s.mixLate := State.setCore_mixLate s p _
@[simp] theorem State.updCore_trailing (s : State) (p : CoreRef) (f : Core → Core) : (s.updCore p f).trailing = s.trailing := State.setCore_trailing s p _
@[simp] theorem State.updCore_chip (s : State) (p : CoreRef) (f : Core → Core) : (s.updCore p f).chip = s.chip := State.setCore_chip s p _
@[simp] theorem State.updCore_timeout (s : State) (p : CoreRef) (f : Core → Core) : (s.updCore p f).timeout = s.timeout := State.setCore_timeout s p _
@[simp] theorem State.updCore_service (s : State) (p : CoreRef) (f : Core → Core) : (s.updCore p f).service = s.service := State.setCore_service s p _
@[simp] theorem State.updCore_energyTime (s : State) (p : CoreRef) (f : Core → Core) : (s.updCore p f).energyTime = s.energyTime := State.setCore_energyTime s p _
@[simp] theorem State.updCore_turns (s : State) (p : CoreRef) (f : Core → Core) : (s.updCore p f).turns = s.turns := State.setCore_turns s p _
@[simp] theorem State.updCore_tick (s : State) (p : CoreRef) (f : Core → Core) : (s.updCore p f).tick = s.tick := State.setCore_tick s p _
@[simp] theorem State.updCore_now (s : State) (p : CoreRef) (f : Core → Core) : (s.updCore p f).now = s.now := State.setCore_now s p _
@[simp] theorem State.updCore_fresh (s : State) (p : CoreRef) (f : Core → Core) : (s.updCore p f).fresh = s.fresh := State.setCore_fresh s p _
@[simp] theorem State.updCore_cur (s : State) (p : CoreRef) (f : Core → Core) : (s.updCore p f).cur = s.cur := State.setCore_cur s p _
@[simp] theorem State.updCore_args (s : State) (p : CoreRef) (f : Core → Core) : (s.updCore p f).args = s.args := State.setCore_args s p _

/-! ### A function on the core whose turn it is -/

@[simp] theorem State.updMe_saved (s : State) (f : Core → Core) : (s.updMe f).saved = s.saved := State.updCore_saved s _ f
@[simp] theorem State.updMe_nis (s : State) (f : Core → Core) : (s.updMe f).nis = s.nis := State.updCore_nis s _ f
@[simp] theorem State.updMe_mem (s : State) (f : Core → Core) : (s.updMe f).mem = s.mem := State.updCore_mem s _ f
@[simp] theorem State.updMe_poison (s : State) (f : Core → Core) : (s.updMe f).poison = s.poison := State.updCore_poison s _ f
@[simp] theorem State.updMe_writes (s : State) (f : Core → Core) : (s.updMe f).writes = s.writes := State.updCore_writes s _ f
@[simp] theorem State.updMe_own (s : State) (f : Core → Core) : (s.updMe f).own = s.own := State.updCore_own s _ f
@[simp] theorem State.updMe_tlb (s : State) (f : Core → Core) : (s.updMe f).tlb = s.tlb := State.updCore_tlb s _ f
@[simp] theorem State.updMe_misses (s : State) (f : Core → Core) : (s.updMe f).misses = s.misses := State.updCore_misses s _ f
@[simp] theorem State.updMe_failedWalks (s : State) (f : Core → Core) : (s.updMe f).failedWalks = s.failedWalks := State.updCore_failedWalks s _ f
@[simp] theorem State.updMe_contexts (s : State) (f : Core → Core) : (s.updMe f).contexts = s.contexts := State.updCore_contexts s _ f
@[simp] theorem State.updMe_copies (s : State) (f : Core → Core) : (s.updMe f).copies = s.copies := State.updCore_copies s _ f
@[simp] theorem State.updMe_launches (s : State) (f : Core → Core) : (s.updMe f).launches = s.launches := State.updCore_launches s _ f
@[simp] theorem State.updMe_initial (s : State) (f : Core → Core) : (s.updMe f).initial = s.initial := State.updCore_initial s _ f
@[simp] theorem State.updMe_deviceQueue (s : State) (f : Core → Core) : (s.updMe f).deviceQueue = s.deviceQueue := State.updCore_deviceQueue s _ f
@[simp] theorem State.updMe_hostQueues (s : State) (f : Core → Core) : (s.updMe f).hostQueues = s.hostQueues := State.updCore_hostQueues s _ f
@[simp] theorem State.updMe_nextQueue (s : State) (f : Core → Core) : (s.updMe f).nextQueue = s.nextQueue := State.updCore_nextQueue s _ f
@[simp] theorem State.updMe_counters (s : State) (f : Core → Core) : (s.updMe f).counters = s.counters := State.updCore_counters s _ f
@[simp] theorem State.updMe_kept (s : State) (f : Core → Core) : (s.updMe f).kept = s.kept := State.updCore_kept s _ f
@[simp] theorem State.updMe_heldAdds (s : State) (f : Core → Core) : (s.updMe f).heldAdds = s.heldAdds := State.updCore_heldAdds s _ f
@[simp] theorem State.updMe_net (s : State) (f : Core → Core) : (s.updMe f).net = s.net := State.updCore_net s _ f
@[simp] theorem State.updMe_sent (s : State) (f : Core → Core) : (s.updMe f).sent = s.sent := State.updCore_sent s _ f
@[simp] theorem State.updMe_ports (s : State) (f : Core → Core) : (s.updMe f).ports = s.ports := State.updCore_ports s _ f
@[simp] theorem State.updMe_sorters (s : State) (f : Core → Core) : (s.updMe f).sorters = s.sorters := State.updCore_sorters s _ f
@[simp] theorem State.updMe_rules (s : State) (f : Core → Core) : (s.updMe f).rules = s.rules := State.updCore_rules s _ f
@[simp] theorem State.updMe_blocks (s : State) (f : Core → Core) : (s.updMe f).blocks = s.blocks := State.updCore_blocks s _ f
@[simp] theorem State.updMe_shares (s : State) (f : Core → Core) : (s.updMe f).shares = s.shares := State.updCore_shares s _ f
@[simp] theorem State.updMe_mixUsed (s : State) (f : Core → Core) : (s.updMe f).mixUsed = s.mixUsed := State.updCore_mixUsed s _ f
@[simp] theorem State.updMe_mixNext (s : State) (f : Core → Core) : (s.updMe f).mixNext = s.mixNext := State.updCore_mixNext s _ f
@[simp] theorem State.updMe_mixTime (s : State) (f : Core → Core) : (s.updMe f).mixTime = s.mixTime := State.updCore_mixTime s _ f
@[simp] theorem State.updMe_crossed (s : State) (f : Core → Core) : (s.updMe f).crossed = s.crossed := State.updCore_crossed s _ f
@[simp] theorem State.updMe_mixLate (s : State) (f : Core → Core) : (s.updMe f).mixLate = s.mixLate := State.updCore_mixLate s _ f
@[simp] theorem State.updMe_trailing (s : State) (f : Core → Core) : (s.updMe f).trailing = s.trailing := State.updCore_trailing s _ f
@[simp] theorem State.updMe_chip (s : State) (f : Core → Core) : (s.updMe f).chip = s.chip := State.updCore_chip s _ f
@[simp] theorem State.updMe_timeout (s : State) (f : Core → Core) : (s.updMe f).timeout = s.timeout := State.updCore_timeout s _ f
@[simp] theorem State.updMe_service (s : State) (f : Core → Core) : (s.updMe f).service = s.service := State.updCore_service s _ f
@[simp] theorem State.updMe_energyTime (s : State) (f : Core → Core) : (s.updMe f).energyTime = s.energyTime := State.updCore_energyTime s _ f
@[simp] theorem State.updMe_turns (s : State) (f : Core → Core) : (s.updMe f).turns = s.turns := State.updCore_turns s _ f
@[simp] theorem State.updMe_tick (s : State) (f : Core → Core) : (s.updMe f).tick = s.tick := State.updCore_tick s _ f
@[simp] theorem State.updMe_now (s : State) (f : Core → Core) : (s.updMe f).now = s.now := State.updCore_now s _ f
@[simp] theorem State.updMe_fresh (s : State) (f : Core → Core) : (s.updMe f).fresh = s.fresh := State.updCore_fresh s _ f
@[simp] theorem State.updMe_cur (s : State) (f : Core → Core) : (s.updMe f).cur = s.cur := State.updCore_cur s _ f
@[simp] theorem State.updMe_args (s : State) (f : Core → Core) : (s.updMe f).args = s.args := State.updCore_args s _ f

/-! ### The network interface -/

@[simp] theorem State.setNi_cells (s : State) (ctx cell : Nat) (n : Ni) : (s.setNi ctx cell n).cells = s.cells := rfl
@[simp] theorem State.setNi_supervisors (s : State) (ctx cell : Nat) (n : Ni) : (s.setNi ctx cell n).supervisors = s.supervisors := rfl
@[simp] theorem State.setNi_saved (s : State) (ctx cell : Nat) (n : Ni) : (s.setNi ctx cell n).saved = s.saved := rfl
@[simp] theorem State.setNi_mem (s : State) (ctx cell : Nat) (n : Ni) : (s.setNi ctx cell n).mem = s.mem := rfl
@[simp] theorem State.setNi_poison (s : State) (ctx cell : Nat) (n : Ni) : (s.setNi ctx cell n).poison = s.poison := rfl
@[simp] theorem State.setNi_writes (s : State) (ctx cell : Nat) (n : Ni) : (s.setNi ctx cell n).writes = s.writes := rfl
@[simp] theorem State.setNi_own (s : State) (ctx cell : Nat) (n : Ni) : (s.setNi ctx cell n).own = s.own := rfl
@[simp] theorem State.setNi_tlb (s : State) (ctx cell : Nat) (n : Ni) : (s.setNi ctx cell n).tlb = s.tlb := rfl
@[simp] theorem State.setNi_misses (s : State) (ctx cell : Nat) (n : Ni) : (s.setNi ctx cell n).misses = s.misses := rfl
@[simp] theorem State.setNi_failedWalks (s : State) (ctx cell : Nat) (n : Ni) : (s.setNi ctx cell n).failedWalks = s.failedWalks := rfl
@[simp] theorem State.setNi_contexts (s : State) (ctx cell : Nat) (n : Ni) : (s.setNi ctx cell n).contexts = s.contexts := rfl
@[simp] theorem State.setNi_copies (s : State) (ctx cell : Nat) (n : Ni) : (s.setNi ctx cell n).copies = s.copies := rfl
@[simp] theorem State.setNi_launches (s : State) (ctx cell : Nat) (n : Ni) : (s.setNi ctx cell n).launches = s.launches := rfl
@[simp] theorem State.setNi_initial (s : State) (ctx cell : Nat) (n : Ni) : (s.setNi ctx cell n).initial = s.initial := rfl
@[simp] theorem State.setNi_deviceQueue (s : State) (ctx cell : Nat) (n : Ni) : (s.setNi ctx cell n).deviceQueue = s.deviceQueue := rfl
@[simp] theorem State.setNi_hostQueues (s : State) (ctx cell : Nat) (n : Ni) : (s.setNi ctx cell n).hostQueues = s.hostQueues := rfl
@[simp] theorem State.setNi_nextQueue (s : State) (ctx cell : Nat) (n : Ni) : (s.setNi ctx cell n).nextQueue = s.nextQueue := rfl
@[simp] theorem State.setNi_counters (s : State) (ctx cell : Nat) (n : Ni) : (s.setNi ctx cell n).counters = s.counters := rfl
@[simp] theorem State.setNi_kept (s : State) (ctx cell : Nat) (n : Ni) : (s.setNi ctx cell n).kept = s.kept := rfl
@[simp] theorem State.setNi_heldAdds (s : State) (ctx cell : Nat) (n : Ni) : (s.setNi ctx cell n).heldAdds = s.heldAdds := rfl
@[simp] theorem State.setNi_net (s : State) (ctx cell : Nat) (n : Ni) : (s.setNi ctx cell n).net = s.net := rfl
@[simp] theorem State.setNi_sent (s : State) (ctx cell : Nat) (n : Ni) : (s.setNi ctx cell n).sent = s.sent := rfl
@[simp] theorem State.setNi_ports (s : State) (ctx cell : Nat) (n : Ni) : (s.setNi ctx cell n).ports = s.ports := rfl
@[simp] theorem State.setNi_sorters (s : State) (ctx cell : Nat) (n : Ni) : (s.setNi ctx cell n).sorters = s.sorters := rfl
@[simp] theorem State.setNi_rules (s : State) (ctx cell : Nat) (n : Ni) : (s.setNi ctx cell n).rules = s.rules := rfl
@[simp] theorem State.setNi_blocks (s : State) (ctx cell : Nat) (n : Ni) : (s.setNi ctx cell n).blocks = s.blocks := rfl
@[simp] theorem State.setNi_shares (s : State) (ctx cell : Nat) (n : Ni) : (s.setNi ctx cell n).shares = s.shares := rfl
@[simp] theorem State.setNi_mixUsed (s : State) (ctx cell : Nat) (n : Ni) : (s.setNi ctx cell n).mixUsed = s.mixUsed := rfl
@[simp] theorem State.setNi_mixNext (s : State) (ctx cell : Nat) (n : Ni) : (s.setNi ctx cell n).mixNext = s.mixNext := rfl
@[simp] theorem State.setNi_mixTime (s : State) (ctx cell : Nat) (n : Ni) : (s.setNi ctx cell n).mixTime = s.mixTime := rfl
@[simp] theorem State.setNi_crossed (s : State) (ctx cell : Nat) (n : Ni) : (s.setNi ctx cell n).crossed = s.crossed := rfl
@[simp] theorem State.setNi_mixLate (s : State) (ctx cell : Nat) (n : Ni) : (s.setNi ctx cell n).mixLate = s.mixLate := rfl
@[simp] theorem State.setNi_trailing (s : State) (ctx cell : Nat) (n : Ni) : (s.setNi ctx cell n).trailing = s.trailing := rfl
@[simp] theorem State.setNi_chip (s : State) (ctx cell : Nat) (n : Ni) : (s.setNi ctx cell n).chip = s.chip := rfl
@[simp] theorem State.setNi_timeout (s : State) (ctx cell : Nat) (n : Ni) : (s.setNi ctx cell n).timeout = s.timeout := rfl
@[simp] theorem State.setNi_service (s : State) (ctx cell : Nat) (n : Ni) : (s.setNi ctx cell n).service = s.service := rfl
@[simp] theorem State.setNi_energyTime (s : State) (ctx cell : Nat) (n : Ni) : (s.setNi ctx cell n).energyTime = s.energyTime := rfl
@[simp] theorem State.setNi_turns (s : State) (ctx cell : Nat) (n : Ni) : (s.setNi ctx cell n).turns = s.turns := rfl
@[simp] theorem State.setNi_tick (s : State) (ctx cell : Nat) (n : Ni) : (s.setNi ctx cell n).tick = s.tick := rfl
@[simp] theorem State.setNi_now (s : State) (ctx cell : Nat) (n : Ni) : (s.setNi ctx cell n).now = s.now := rfl
@[simp] theorem State.setNi_fresh (s : State) (ctx cell : Nat) (n : Ni) : (s.setNi ctx cell n).fresh = s.fresh := rfl
@[simp] theorem State.setNi_cur (s : State) (ctx cell : Nat) (n : Ni) : (s.setNi ctx cell n).cur = s.cur := rfl
@[simp] theorem State.setNi_args (s : State) (ctx cell : Nat) (n : Ni) : (s.setNi ctx cell n).args = s.args := rfl

/-! ### Context descriptors -/

@[simp] theorem State.updContext_cells (s : State) (id : Nat) (f : Context → Context) : (s.updContext id f).cells = s.cells := rfl
@[simp] theorem State.updContext_supervisors (s : State) (id : Nat) (f : Context → Context) : (s.updContext id f).supervisors = s.supervisors := rfl
@[simp] theorem State.updContext_saved (s : State) (id : Nat) (f : Context → Context) : (s.updContext id f).saved = s.saved := rfl
@[simp] theorem State.updContext_nis (s : State) (id : Nat) (f : Context → Context) : (s.updContext id f).nis = s.nis := rfl
@[simp] theorem State.updContext_mem (s : State) (id : Nat) (f : Context → Context) : (s.updContext id f).mem = s.mem := rfl
@[simp] theorem State.updContext_poison (s : State) (id : Nat) (f : Context → Context) : (s.updContext id f).poison = s.poison := rfl
@[simp] theorem State.updContext_writes (s : State) (id : Nat) (f : Context → Context) : (s.updContext id f).writes = s.writes := rfl
@[simp] theorem State.updContext_own (s : State) (id : Nat) (f : Context → Context) : (s.updContext id f).own = s.own := rfl
@[simp] theorem State.updContext_tlb (s : State) (id : Nat) (f : Context → Context) : (s.updContext id f).tlb = s.tlb := rfl
@[simp] theorem State.updContext_misses (s : State) (id : Nat) (f : Context → Context) : (s.updContext id f).misses = s.misses := rfl
@[simp] theorem State.updContext_failedWalks (s : State) (id : Nat) (f : Context → Context) : (s.updContext id f).failedWalks = s.failedWalks := rfl
@[simp] theorem State.updContext_copies (s : State) (id : Nat) (f : Context → Context) : (s.updContext id f).copies = s.copies := rfl
@[simp] theorem State.updContext_launches (s : State) (id : Nat) (f : Context → Context) : (s.updContext id f).launches = s.launches := rfl
@[simp] theorem State.updContext_initial (s : State) (id : Nat) (f : Context → Context) : (s.updContext id f).initial = s.initial := rfl
@[simp] theorem State.updContext_deviceQueue (s : State) (id : Nat) (f : Context → Context) : (s.updContext id f).deviceQueue = s.deviceQueue := rfl
@[simp] theorem State.updContext_hostQueues (s : State) (id : Nat) (f : Context → Context) : (s.updContext id f).hostQueues = s.hostQueues := rfl
@[simp] theorem State.updContext_nextQueue (s : State) (id : Nat) (f : Context → Context) : (s.updContext id f).nextQueue = s.nextQueue := rfl
@[simp] theorem State.updContext_counters (s : State) (id : Nat) (f : Context → Context) : (s.updContext id f).counters = s.counters := rfl
@[simp] theorem State.updContext_kept (s : State) (id : Nat) (f : Context → Context) : (s.updContext id f).kept = s.kept := rfl
@[simp] theorem State.updContext_heldAdds (s : State) (id : Nat) (f : Context → Context) : (s.updContext id f).heldAdds = s.heldAdds := rfl
@[simp] theorem State.updContext_net (s : State) (id : Nat) (f : Context → Context) : (s.updContext id f).net = s.net := rfl
@[simp] theorem State.updContext_sent (s : State) (id : Nat) (f : Context → Context) : (s.updContext id f).sent = s.sent := rfl
@[simp] theorem State.updContext_ports (s : State) (id : Nat) (f : Context → Context) : (s.updContext id f).ports = s.ports := rfl
@[simp] theorem State.updContext_sorters (s : State) (id : Nat) (f : Context → Context) : (s.updContext id f).sorters = s.sorters := rfl
@[simp] theorem State.updContext_rules (s : State) (id : Nat) (f : Context → Context) : (s.updContext id f).rules = s.rules := rfl
@[simp] theorem State.updContext_blocks (s : State) (id : Nat) (f : Context → Context) : (s.updContext id f).blocks = s.blocks := rfl
@[simp] theorem State.updContext_shares (s : State) (id : Nat) (f : Context → Context) : (s.updContext id f).shares = s.shares := rfl
@[simp] theorem State.updContext_mixUsed (s : State) (id : Nat) (f : Context → Context) : (s.updContext id f).mixUsed = s.mixUsed := rfl
@[simp] theorem State.updContext_mixNext (s : State) (id : Nat) (f : Context → Context) : (s.updContext id f).mixNext = s.mixNext := rfl
@[simp] theorem State.updContext_mixTime (s : State) (id : Nat) (f : Context → Context) : (s.updContext id f).mixTime = s.mixTime := rfl
@[simp] theorem State.updContext_crossed (s : State) (id : Nat) (f : Context → Context) : (s.updContext id f).crossed = s.crossed := rfl
@[simp] theorem State.updContext_mixLate (s : State) (id : Nat) (f : Context → Context) : (s.updContext id f).mixLate = s.mixLate := rfl
@[simp] theorem State.updContext_trailing (s : State) (id : Nat) (f : Context → Context) : (s.updContext id f).trailing = s.trailing := rfl
@[simp] theorem State.updContext_chip (s : State) (id : Nat) (f : Context → Context) : (s.updContext id f).chip = s.chip := rfl
@[simp] theorem State.updContext_timeout (s : State) (id : Nat) (f : Context → Context) : (s.updContext id f).timeout = s.timeout := rfl
@[simp] theorem State.updContext_service (s : State) (id : Nat) (f : Context → Context) : (s.updContext id f).service = s.service := rfl
@[simp] theorem State.updContext_energyTime (s : State) (id : Nat) (f : Context → Context) : (s.updContext id f).energyTime = s.energyTime := rfl
@[simp] theorem State.updContext_turns (s : State) (id : Nat) (f : Context → Context) : (s.updContext id f).turns = s.turns := rfl
@[simp] theorem State.updContext_tick (s : State) (id : Nat) (f : Context → Context) : (s.updContext id f).tick = s.tick := rfl
@[simp] theorem State.updContext_now (s : State) (id : Nat) (f : Context → Context) : (s.updContext id f).now = s.now := rfl
@[simp] theorem State.updContext_fresh (s : State) (id : Nat) (f : Context → Context) : (s.updContext id f).fresh = s.fresh := rfl
@[simp] theorem State.updContext_cur (s : State) (id : Nat) (f : Context → Context) : (s.updContext id f).cur = s.cur := rfl
@[simp] theorem State.updContext_args (s : State) (id : Nat) (f : Context → Context) : (s.updContext id f).args = s.args := rfl

/-! ### Numbers of accesses -/

@[simp] theorem State.bump_cells (s : State)  : (s.bump ).cells = s.cells := rfl
@[simp] theorem State.bump_supervisors (s : State)  : (s.bump ).supervisors = s.supervisors := rfl
@[simp] theorem State.bump_saved (s : State)  : (s.bump ).saved = s.saved := rfl
@[simp] theorem State.bump_nis (s : State)  : (s.bump ).nis = s.nis := rfl
@[simp] theorem State.bump_mem (s : State)  : (s.bump ).mem = s.mem := rfl
@[simp] theorem State.bump_poison (s : State)  : (s.bump ).poison = s.poison := rfl
@[simp] theorem State.bump_writes (s : State)  : (s.bump ).writes = s.writes := rfl
@[simp] theorem State.bump_own (s : State)  : (s.bump ).own = s.own := rfl
@[simp] theorem State.bump_tlb (s : State)  : (s.bump ).tlb = s.tlb := rfl
@[simp] theorem State.bump_misses (s : State)  : (s.bump ).misses = s.misses := rfl
@[simp] theorem State.bump_failedWalks (s : State)  : (s.bump ).failedWalks = s.failedWalks := rfl
@[simp] theorem State.bump_contexts (s : State)  : (s.bump ).contexts = s.contexts := rfl
@[simp] theorem State.bump_copies (s : State)  : (s.bump ).copies = s.copies := rfl
@[simp] theorem State.bump_launches (s : State)  : (s.bump ).launches = s.launches := rfl
@[simp] theorem State.bump_initial (s : State)  : (s.bump ).initial = s.initial := rfl
@[simp] theorem State.bump_deviceQueue (s : State)  : (s.bump ).deviceQueue = s.deviceQueue := rfl
@[simp] theorem State.bump_hostQueues (s : State)  : (s.bump ).hostQueues = s.hostQueues := rfl
@[simp] theorem State.bump_nextQueue (s : State)  : (s.bump ).nextQueue = s.nextQueue := rfl
@[simp] theorem State.bump_counters (s : State)  : (s.bump ).counters = s.counters := rfl
@[simp] theorem State.bump_kept (s : State)  : (s.bump ).kept = s.kept := rfl
@[simp] theorem State.bump_heldAdds (s : State)  : (s.bump ).heldAdds = s.heldAdds := rfl
@[simp] theorem State.bump_net (s : State)  : (s.bump ).net = s.net := rfl
@[simp] theorem State.bump_sent (s : State)  : (s.bump ).sent = s.sent := rfl
@[simp] theorem State.bump_ports (s : State)  : (s.bump ).ports = s.ports := rfl
@[simp] theorem State.bump_sorters (s : State)  : (s.bump ).sorters = s.sorters := rfl
@[simp] theorem State.bump_rules (s : State)  : (s.bump ).rules = s.rules := rfl
@[simp] theorem State.bump_blocks (s : State)  : (s.bump ).blocks = s.blocks := rfl
@[simp] theorem State.bump_shares (s : State)  : (s.bump ).shares = s.shares := rfl
@[simp] theorem State.bump_mixUsed (s : State)  : (s.bump ).mixUsed = s.mixUsed := rfl
@[simp] theorem State.bump_mixNext (s : State)  : (s.bump ).mixNext = s.mixNext := rfl
@[simp] theorem State.bump_mixTime (s : State)  : (s.bump ).mixTime = s.mixTime := rfl
@[simp] theorem State.bump_crossed (s : State)  : (s.bump ).crossed = s.crossed := rfl
@[simp] theorem State.bump_mixLate (s : State)  : (s.bump ).mixLate = s.mixLate := rfl
@[simp] theorem State.bump_trailing (s : State)  : (s.bump ).trailing = s.trailing := rfl
@[simp] theorem State.bump_chip (s : State)  : (s.bump ).chip = s.chip := rfl
@[simp] theorem State.bump_timeout (s : State)  : (s.bump ).timeout = s.timeout := rfl
@[simp] theorem State.bump_service (s : State)  : (s.bump ).service = s.service := rfl
@[simp] theorem State.bump_energyTime (s : State)  : (s.bump ).energyTime = s.energyTime := rfl
@[simp] theorem State.bump_turns (s : State)  : (s.bump ).turns = s.turns := rfl
@[simp] theorem State.bump_tick (s : State)  : (s.bump ).tick = s.tick := rfl
@[simp] theorem State.bump_now (s : State)  : (s.bump ).now = s.now := rfl
@[simp] theorem State.bump_cur (s : State)  : (s.bump ).cur = s.cur := rfl
@[simp] theorem State.bump_args (s : State)  : (s.bump ).args = s.args := rfl

/-! ### Poison -/

@[simp] theorem State.addPoison_cells (s : State) (k : Nat) : (s.addPoison k).cells = s.cells := rfl
@[simp] theorem State.addPoison_supervisors (s : State) (k : Nat) : (s.addPoison k).supervisors = s.supervisors := rfl
@[simp] theorem State.addPoison_saved (s : State) (k : Nat) : (s.addPoison k).saved = s.saved := rfl
@[simp] theorem State.addPoison_nis (s : State) (k : Nat) : (s.addPoison k).nis = s.nis := rfl
@[simp] theorem State.addPoison_mem (s : State) (k : Nat) : (s.addPoison k).mem = s.mem := rfl
@[simp] theorem State.addPoison_own (s : State) (k : Nat) : (s.addPoison k).own = s.own := rfl
@[simp] theorem State.addPoison_tlb (s : State) (k : Nat) : (s.addPoison k).tlb = s.tlb := rfl
@[simp] theorem State.addPoison_misses (s : State) (k : Nat) : (s.addPoison k).misses = s.misses := rfl
@[simp] theorem State.addPoison_failedWalks (s : State) (k : Nat) : (s.addPoison k).failedWalks = s.failedWalks := rfl
@[simp] theorem State.addPoison_contexts (s : State) (k : Nat) : (s.addPoison k).contexts = s.contexts := rfl
@[simp] theorem State.addPoison_copies (s : State) (k : Nat) : (s.addPoison k).copies = s.copies := rfl
@[simp] theorem State.addPoison_launches (s : State) (k : Nat) : (s.addPoison k).launches = s.launches := rfl
@[simp] theorem State.addPoison_initial (s : State) (k : Nat) : (s.addPoison k).initial = s.initial := rfl
@[simp] theorem State.addPoison_deviceQueue (s : State) (k : Nat) : (s.addPoison k).deviceQueue = s.deviceQueue := rfl
@[simp] theorem State.addPoison_hostQueues (s : State) (k : Nat) : (s.addPoison k).hostQueues = s.hostQueues := rfl
@[simp] theorem State.addPoison_nextQueue (s : State) (k : Nat) : (s.addPoison k).nextQueue = s.nextQueue := rfl
@[simp] theorem State.addPoison_counters (s : State) (k : Nat) : (s.addPoison k).counters = s.counters := rfl
@[simp] theorem State.addPoison_kept (s : State) (k : Nat) : (s.addPoison k).kept = s.kept := rfl
@[simp] theorem State.addPoison_heldAdds (s : State) (k : Nat) : (s.addPoison k).heldAdds = s.heldAdds := rfl
@[simp] theorem State.addPoison_net (s : State) (k : Nat) : (s.addPoison k).net = s.net := rfl
@[simp] theorem State.addPoison_sent (s : State) (k : Nat) : (s.addPoison k).sent = s.sent := rfl
@[simp] theorem State.addPoison_ports (s : State) (k : Nat) : (s.addPoison k).ports = s.ports := rfl
@[simp] theorem State.addPoison_sorters (s : State) (k : Nat) : (s.addPoison k).sorters = s.sorters := rfl
@[simp] theorem State.addPoison_rules (s : State) (k : Nat) : (s.addPoison k).rules = s.rules := rfl
@[simp] theorem State.addPoison_blocks (s : State) (k : Nat) : (s.addPoison k).blocks = s.blocks := rfl
@[simp] theorem State.addPoison_shares (s : State) (k : Nat) : (s.addPoison k).shares = s.shares := rfl
@[simp] theorem State.addPoison_mixUsed (s : State) (k : Nat) : (s.addPoison k).mixUsed = s.mixUsed := rfl
@[simp] theorem State.addPoison_mixNext (s : State) (k : Nat) : (s.addPoison k).mixNext = s.mixNext := rfl
@[simp] theorem State.addPoison_mixTime (s : State) (k : Nat) : (s.addPoison k).mixTime = s.mixTime := rfl
@[simp] theorem State.addPoison_crossed (s : State) (k : Nat) : (s.addPoison k).crossed = s.crossed := rfl
@[simp] theorem State.addPoison_mixLate (s : State) (k : Nat) : (s.addPoison k).mixLate = s.mixLate := rfl
@[simp] theorem State.addPoison_trailing (s : State) (k : Nat) : (s.addPoison k).trailing = s.trailing := rfl
@[simp] theorem State.addPoison_chip (s : State) (k : Nat) : (s.addPoison k).chip = s.chip := rfl
@[simp] theorem State.addPoison_timeout (s : State) (k : Nat) : (s.addPoison k).timeout = s.timeout := rfl
@[simp] theorem State.addPoison_service (s : State) (k : Nat) : (s.addPoison k).service = s.service := rfl
@[simp] theorem State.addPoison_energyTime (s : State) (k : Nat) : (s.addPoison k).energyTime = s.energyTime := rfl
@[simp] theorem State.addPoison_turns (s : State) (k : Nat) : (s.addPoison k).turns = s.turns := rfl
@[simp] theorem State.addPoison_tick (s : State) (k : Nat) : (s.addPoison k).tick = s.tick := rfl
@[simp] theorem State.addPoison_now (s : State) (k : Nat) : (s.addPoison k).now = s.now := rfl
@[simp] theorem State.addPoison_fresh (s : State) (k : Nat) : (s.addPoison k).fresh = s.fresh := rfl
@[simp] theorem State.addPoison_cur (s : State) (k : Nat) : (s.addPoison k).cur = s.cur := rfl
@[simp] theorem State.addPoison_args (s : State) (k : Nat) : (s.addPoison k).args = s.args := rfl

/-! ### Clearing poison -/

@[simp] theorem State.clearPoison_cells (s : State) (k : Nat) : (s.clearPoison k).cells = s.cells := rfl
@[simp] theorem State.clearPoison_supervisors (s : State) (k : Nat) : (s.clearPoison k).supervisors = s.supervisors := rfl
@[simp] theorem State.clearPoison_saved (s : State) (k : Nat) : (s.clearPoison k).saved = s.saved := rfl
@[simp] theorem State.clearPoison_nis (s : State) (k : Nat) : (s.clearPoison k).nis = s.nis := rfl
@[simp] theorem State.clearPoison_mem (s : State) (k : Nat) : (s.clearPoison k).mem = s.mem := rfl
@[simp] theorem State.clearPoison_own (s : State) (k : Nat) : (s.clearPoison k).own = s.own := rfl
@[simp] theorem State.clearPoison_tlb (s : State) (k : Nat) : (s.clearPoison k).tlb = s.tlb := rfl
@[simp] theorem State.clearPoison_misses (s : State) (k : Nat) : (s.clearPoison k).misses = s.misses := rfl
@[simp] theorem State.clearPoison_failedWalks (s : State) (k : Nat) : (s.clearPoison k).failedWalks = s.failedWalks := rfl
@[simp] theorem State.clearPoison_contexts (s : State) (k : Nat) : (s.clearPoison k).contexts = s.contexts := rfl
@[simp] theorem State.clearPoison_copies (s : State) (k : Nat) : (s.clearPoison k).copies = s.copies := rfl
@[simp] theorem State.clearPoison_launches (s : State) (k : Nat) : (s.clearPoison k).launches = s.launches := rfl
@[simp] theorem State.clearPoison_initial (s : State) (k : Nat) : (s.clearPoison k).initial = s.initial := rfl
@[simp] theorem State.clearPoison_deviceQueue (s : State) (k : Nat) : (s.clearPoison k).deviceQueue = s.deviceQueue := rfl
@[simp] theorem State.clearPoison_hostQueues (s : State) (k : Nat) : (s.clearPoison k).hostQueues = s.hostQueues := rfl
@[simp] theorem State.clearPoison_nextQueue (s : State) (k : Nat) : (s.clearPoison k).nextQueue = s.nextQueue := rfl
@[simp] theorem State.clearPoison_counters (s : State) (k : Nat) : (s.clearPoison k).counters = s.counters := rfl
@[simp] theorem State.clearPoison_kept (s : State) (k : Nat) : (s.clearPoison k).kept = s.kept := rfl
@[simp] theorem State.clearPoison_heldAdds (s : State) (k : Nat) : (s.clearPoison k).heldAdds = s.heldAdds := rfl
@[simp] theorem State.clearPoison_net (s : State) (k : Nat) : (s.clearPoison k).net = s.net := rfl
@[simp] theorem State.clearPoison_sent (s : State) (k : Nat) : (s.clearPoison k).sent = s.sent := rfl
@[simp] theorem State.clearPoison_ports (s : State) (k : Nat) : (s.clearPoison k).ports = s.ports := rfl
@[simp] theorem State.clearPoison_sorters (s : State) (k : Nat) : (s.clearPoison k).sorters = s.sorters := rfl
@[simp] theorem State.clearPoison_rules (s : State) (k : Nat) : (s.clearPoison k).rules = s.rules := rfl
@[simp] theorem State.clearPoison_blocks (s : State) (k : Nat) : (s.clearPoison k).blocks = s.blocks := rfl
@[simp] theorem State.clearPoison_shares (s : State) (k : Nat) : (s.clearPoison k).shares = s.shares := rfl
@[simp] theorem State.clearPoison_mixUsed (s : State) (k : Nat) : (s.clearPoison k).mixUsed = s.mixUsed := rfl
@[simp] theorem State.clearPoison_mixNext (s : State) (k : Nat) : (s.clearPoison k).mixNext = s.mixNext := rfl
@[simp] theorem State.clearPoison_mixTime (s : State) (k : Nat) : (s.clearPoison k).mixTime = s.mixTime := rfl
@[simp] theorem State.clearPoison_crossed (s : State) (k : Nat) : (s.clearPoison k).crossed = s.crossed := rfl
@[simp] theorem State.clearPoison_mixLate (s : State) (k : Nat) : (s.clearPoison k).mixLate = s.mixLate := rfl
@[simp] theorem State.clearPoison_trailing (s : State) (k : Nat) : (s.clearPoison k).trailing = s.trailing := rfl
@[simp] theorem State.clearPoison_chip (s : State) (k : Nat) : (s.clearPoison k).chip = s.chip := rfl
@[simp] theorem State.clearPoison_timeout (s : State) (k : Nat) : (s.clearPoison k).timeout = s.timeout := rfl
@[simp] theorem State.clearPoison_service (s : State) (k : Nat) : (s.clearPoison k).service = s.service := rfl
@[simp] theorem State.clearPoison_energyTime (s : State) (k : Nat) : (s.clearPoison k).energyTime = s.energyTime := rfl
@[simp] theorem State.clearPoison_turns (s : State) (k : Nat) : (s.clearPoison k).turns = s.turns := rfl
@[simp] theorem State.clearPoison_tick (s : State) (k : Nat) : (s.clearPoison k).tick = s.tick := rfl
@[simp] theorem State.clearPoison_now (s : State) (k : Nat) : (s.clearPoison k).now = s.now := rfl
@[simp] theorem State.clearPoison_fresh (s : State) (k : Nat) : (s.clearPoison k).fresh = s.fresh := rfl
@[simp] theorem State.clearPoison_cur (s : State) (k : Nat) : (s.clearPoison k).cur = s.cur := rfl
@[simp] theorem State.clearPoison_args (s : State) (k : Nat) : (s.clearPoison k).args = s.args := rfl

/-! ### Marks that reach every party at once -/

@[simp] theorem State.setMarks_cells (s : State) (ms : List (Nat × Bool)) : (s.setMarks ms).cells = s.cells := rfl
@[simp] theorem State.setMarks_supervisors (s : State) (ms : List (Nat × Bool)) : (s.setMarks ms).supervisors = s.supervisors := rfl
@[simp] theorem State.setMarks_saved (s : State) (ms : List (Nat × Bool)) : (s.setMarks ms).saved = s.saved := rfl
@[simp] theorem State.setMarks_nis (s : State) (ms : List (Nat × Bool)) : (s.setMarks ms).nis = s.nis := rfl
@[simp] theorem State.setMarks_mem (s : State) (ms : List (Nat × Bool)) : (s.setMarks ms).mem = s.mem := rfl
@[simp] theorem State.setMarks_own (s : State) (ms : List (Nat × Bool)) : (s.setMarks ms).own = s.own := rfl
@[simp] theorem State.setMarks_tlb (s : State) (ms : List (Nat × Bool)) : (s.setMarks ms).tlb = s.tlb := rfl
@[simp] theorem State.setMarks_misses (s : State) (ms : List (Nat × Bool)) : (s.setMarks ms).misses = s.misses := rfl
@[simp] theorem State.setMarks_failedWalks (s : State) (ms : List (Nat × Bool)) : (s.setMarks ms).failedWalks = s.failedWalks := rfl
@[simp] theorem State.setMarks_contexts (s : State) (ms : List (Nat × Bool)) : (s.setMarks ms).contexts = s.contexts := rfl
@[simp] theorem State.setMarks_copies (s : State) (ms : List (Nat × Bool)) : (s.setMarks ms).copies = s.copies := rfl
@[simp] theorem State.setMarks_launches (s : State) (ms : List (Nat × Bool)) : (s.setMarks ms).launches = s.launches := rfl
@[simp] theorem State.setMarks_initial (s : State) (ms : List (Nat × Bool)) : (s.setMarks ms).initial = s.initial := rfl
@[simp] theorem State.setMarks_deviceQueue (s : State) (ms : List (Nat × Bool)) : (s.setMarks ms).deviceQueue = s.deviceQueue := rfl
@[simp] theorem State.setMarks_hostQueues (s : State) (ms : List (Nat × Bool)) : (s.setMarks ms).hostQueues = s.hostQueues := rfl
@[simp] theorem State.setMarks_nextQueue (s : State) (ms : List (Nat × Bool)) : (s.setMarks ms).nextQueue = s.nextQueue := rfl
@[simp] theorem State.setMarks_counters (s : State) (ms : List (Nat × Bool)) : (s.setMarks ms).counters = s.counters := rfl
@[simp] theorem State.setMarks_kept (s : State) (ms : List (Nat × Bool)) : (s.setMarks ms).kept = s.kept := rfl
@[simp] theorem State.setMarks_heldAdds (s : State) (ms : List (Nat × Bool)) : (s.setMarks ms).heldAdds = s.heldAdds := rfl
@[simp] theorem State.setMarks_net (s : State) (ms : List (Nat × Bool)) : (s.setMarks ms).net = s.net := rfl
@[simp] theorem State.setMarks_sent (s : State) (ms : List (Nat × Bool)) : (s.setMarks ms).sent = s.sent := rfl
@[simp] theorem State.setMarks_ports (s : State) (ms : List (Nat × Bool)) : (s.setMarks ms).ports = s.ports := rfl
@[simp] theorem State.setMarks_sorters (s : State) (ms : List (Nat × Bool)) : (s.setMarks ms).sorters = s.sorters := rfl
@[simp] theorem State.setMarks_rules (s : State) (ms : List (Nat × Bool)) : (s.setMarks ms).rules = s.rules := rfl
@[simp] theorem State.setMarks_blocks (s : State) (ms : List (Nat × Bool)) : (s.setMarks ms).blocks = s.blocks := rfl
@[simp] theorem State.setMarks_shares (s : State) (ms : List (Nat × Bool)) : (s.setMarks ms).shares = s.shares := rfl
@[simp] theorem State.setMarks_mixUsed (s : State) (ms : List (Nat × Bool)) : (s.setMarks ms).mixUsed = s.mixUsed := rfl
@[simp] theorem State.setMarks_mixNext (s : State) (ms : List (Nat × Bool)) : (s.setMarks ms).mixNext = s.mixNext := rfl
@[simp] theorem State.setMarks_mixTime (s : State) (ms : List (Nat × Bool)) : (s.setMarks ms).mixTime = s.mixTime := rfl
@[simp] theorem State.setMarks_crossed (s : State) (ms : List (Nat × Bool)) : (s.setMarks ms).crossed = s.crossed := rfl
@[simp] theorem State.setMarks_mixLate (s : State) (ms : List (Nat × Bool)) : (s.setMarks ms).mixLate = s.mixLate := rfl
@[simp] theorem State.setMarks_trailing (s : State) (ms : List (Nat × Bool)) : (s.setMarks ms).trailing = s.trailing := rfl
@[simp] theorem State.setMarks_chip (s : State) (ms : List (Nat × Bool)) : (s.setMarks ms).chip = s.chip := rfl
@[simp] theorem State.setMarks_timeout (s : State) (ms : List (Nat × Bool)) : (s.setMarks ms).timeout = s.timeout := rfl
@[simp] theorem State.setMarks_service (s : State) (ms : List (Nat × Bool)) : (s.setMarks ms).service = s.service := rfl
@[simp] theorem State.setMarks_energyTime (s : State) (ms : List (Nat × Bool)) : (s.setMarks ms).energyTime = s.energyTime := rfl
@[simp] theorem State.setMarks_turns (s : State) (ms : List (Nat × Bool)) : (s.setMarks ms).turns = s.turns := rfl
@[simp] theorem State.setMarks_tick (s : State) (ms : List (Nat × Bool)) : (s.setMarks ms).tick = s.tick := rfl
@[simp] theorem State.setMarks_now (s : State) (ms : List (Nat × Bool)) : (s.setMarks ms).now = s.now := rfl
@[simp] theorem State.setMarks_fresh (s : State) (ms : List (Nat × Bool)) : (s.setMarks ms).fresh = s.fresh := rfl
@[simp] theorem State.setMarks_cur (s : State) (ms : List (Nat × Bool)) : (s.setMarks ms).cur = s.cur := rfl
@[simp] theorem State.setMarks_args (s : State) (ms : List (Nat × Bool)) : (s.setMarks ms).args = s.args := rfl

/-! ### Writes that have reached their scope -/

@[simp] theorem State.settle_cells (s : State)  : (s.settle ).cells = s.cells := rfl
@[simp] theorem State.settle_supervisors (s : State)  : (s.settle ).supervisors = s.supervisors := rfl
@[simp] theorem State.settle_saved (s : State)  : (s.settle ).saved = s.saved := rfl
@[simp] theorem State.settle_nis (s : State)  : (s.settle ).nis = s.nis := rfl
@[simp] theorem State.settle_own (s : State)  : (s.settle ).own = s.own := rfl
@[simp] theorem State.settle_tlb (s : State)  : (s.settle ).tlb = s.tlb := rfl
@[simp] theorem State.settle_misses (s : State)  : (s.settle ).misses = s.misses := rfl
@[simp] theorem State.settle_failedWalks (s : State)  : (s.settle ).failedWalks = s.failedWalks := rfl
@[simp] theorem State.settle_contexts (s : State)  : (s.settle ).contexts = s.contexts := rfl
@[simp] theorem State.settle_copies (s : State)  : (s.settle ).copies = s.copies := rfl
@[simp] theorem State.settle_launches (s : State)  : (s.settle ).launches = s.launches := rfl
@[simp] theorem State.settle_initial (s : State)  : (s.settle ).initial = s.initial := rfl
@[simp] theorem State.settle_deviceQueue (s : State)  : (s.settle ).deviceQueue = s.deviceQueue := rfl
@[simp] theorem State.settle_hostQueues (s : State)  : (s.settle ).hostQueues = s.hostQueues := rfl
@[simp] theorem State.settle_nextQueue (s : State)  : (s.settle ).nextQueue = s.nextQueue := rfl
@[simp] theorem State.settle_counters (s : State)  : (s.settle ).counters = s.counters := rfl
@[simp] theorem State.settle_kept (s : State)  : (s.settle ).kept = s.kept := rfl
@[simp] theorem State.settle_heldAdds (s : State)  : (s.settle ).heldAdds = s.heldAdds := rfl
@[simp] theorem State.settle_net (s : State)  : (s.settle ).net = s.net := rfl
@[simp] theorem State.settle_sent (s : State)  : (s.settle ).sent = s.sent := rfl
@[simp] theorem State.settle_ports (s : State)  : (s.settle ).ports = s.ports := rfl
@[simp] theorem State.settle_sorters (s : State)  : (s.settle ).sorters = s.sorters := rfl
@[simp] theorem State.settle_rules (s : State)  : (s.settle ).rules = s.rules := rfl
@[simp] theorem State.settle_blocks (s : State)  : (s.settle ).blocks = s.blocks := rfl
@[simp] theorem State.settle_shares (s : State)  : (s.settle ).shares = s.shares := rfl
@[simp] theorem State.settle_mixUsed (s : State)  : (s.settle ).mixUsed = s.mixUsed := rfl
@[simp] theorem State.settle_mixNext (s : State)  : (s.settle ).mixNext = s.mixNext := rfl
@[simp] theorem State.settle_mixTime (s : State)  : (s.settle ).mixTime = s.mixTime := rfl
@[simp] theorem State.settle_crossed (s : State)  : (s.settle ).crossed = s.crossed := rfl
@[simp] theorem State.settle_mixLate (s : State)  : (s.settle ).mixLate = s.mixLate := rfl
@[simp] theorem State.settle_trailing (s : State)  : (s.settle ).trailing = s.trailing := rfl
@[simp] theorem State.settle_chip (s : State)  : (s.settle ).chip = s.chip := rfl
@[simp] theorem State.settle_timeout (s : State)  : (s.settle ).timeout = s.timeout := rfl
@[simp] theorem State.settle_service (s : State)  : (s.settle ).service = s.service := rfl
@[simp] theorem State.settle_energyTime (s : State)  : (s.settle ).energyTime = s.energyTime := rfl
@[simp] theorem State.settle_turns (s : State)  : (s.settle ).turns = s.turns := rfl
@[simp] theorem State.settle_tick (s : State)  : (s.settle ).tick = s.tick := rfl
@[simp] theorem State.settle_now (s : State)  : (s.settle ).now = s.now := rfl
@[simp] theorem State.settle_fresh (s : State)  : (s.settle ).fresh = s.fresh := rfl
@[simp] theorem State.settle_cur (s : State)  : (s.settle ).cur = s.cur := rfl
@[simp] theorem State.settle_args (s : State)  : (s.settle ).args = s.args := rfl

/-! ### Bytes visible everywhere at once -/

@[simp] theorem State.addGlobal_cells (s : State) (cs : List Host.Cell) : (s.addGlobal cs).cells = s.cells := rfl
@[simp] theorem State.addGlobal_supervisors (s : State) (cs : List Host.Cell) : (s.addGlobal cs).supervisors = s.supervisors := rfl
@[simp] theorem State.addGlobal_saved (s : State) (cs : List Host.Cell) : (s.addGlobal cs).saved = s.saved := rfl
@[simp] theorem State.addGlobal_nis (s : State) (cs : List Host.Cell) : (s.addGlobal cs).nis = s.nis := rfl
@[simp] theorem State.addGlobal_poison (s : State) (cs : List Host.Cell) : (s.addGlobal cs).poison = s.poison := rfl
@[simp] theorem State.addGlobal_own (s : State) (cs : List Host.Cell) : (s.addGlobal cs).own = s.own := rfl
@[simp] theorem State.addGlobal_tlb (s : State) (cs : List Host.Cell) : (s.addGlobal cs).tlb = s.tlb := rfl
@[simp] theorem State.addGlobal_misses (s : State) (cs : List Host.Cell) : (s.addGlobal cs).misses = s.misses := rfl
@[simp] theorem State.addGlobal_failedWalks (s : State) (cs : List Host.Cell) : (s.addGlobal cs).failedWalks = s.failedWalks := rfl
@[simp] theorem State.addGlobal_contexts (s : State) (cs : List Host.Cell) : (s.addGlobal cs).contexts = s.contexts := rfl
@[simp] theorem State.addGlobal_copies (s : State) (cs : List Host.Cell) : (s.addGlobal cs).copies = s.copies := rfl
@[simp] theorem State.addGlobal_launches (s : State) (cs : List Host.Cell) : (s.addGlobal cs).launches = s.launches := rfl
@[simp] theorem State.addGlobal_initial (s : State) (cs : List Host.Cell) : (s.addGlobal cs).initial = s.initial := rfl
@[simp] theorem State.addGlobal_deviceQueue (s : State) (cs : List Host.Cell) : (s.addGlobal cs).deviceQueue = s.deviceQueue := rfl
@[simp] theorem State.addGlobal_hostQueues (s : State) (cs : List Host.Cell) : (s.addGlobal cs).hostQueues = s.hostQueues := rfl
@[simp] theorem State.addGlobal_nextQueue (s : State) (cs : List Host.Cell) : (s.addGlobal cs).nextQueue = s.nextQueue := rfl
@[simp] theorem State.addGlobal_counters (s : State) (cs : List Host.Cell) : (s.addGlobal cs).counters = s.counters := rfl
@[simp] theorem State.addGlobal_kept (s : State) (cs : List Host.Cell) : (s.addGlobal cs).kept = s.kept := rfl
@[simp] theorem State.addGlobal_heldAdds (s : State) (cs : List Host.Cell) : (s.addGlobal cs).heldAdds = s.heldAdds := rfl
@[simp] theorem State.addGlobal_net (s : State) (cs : List Host.Cell) : (s.addGlobal cs).net = s.net := rfl
@[simp] theorem State.addGlobal_sent (s : State) (cs : List Host.Cell) : (s.addGlobal cs).sent = s.sent := rfl
@[simp] theorem State.addGlobal_ports (s : State) (cs : List Host.Cell) : (s.addGlobal cs).ports = s.ports := rfl
@[simp] theorem State.addGlobal_sorters (s : State) (cs : List Host.Cell) : (s.addGlobal cs).sorters = s.sorters := rfl
@[simp] theorem State.addGlobal_rules (s : State) (cs : List Host.Cell) : (s.addGlobal cs).rules = s.rules := rfl
@[simp] theorem State.addGlobal_blocks (s : State) (cs : List Host.Cell) : (s.addGlobal cs).blocks = s.blocks := rfl
@[simp] theorem State.addGlobal_shares (s : State) (cs : List Host.Cell) : (s.addGlobal cs).shares = s.shares := rfl
@[simp] theorem State.addGlobal_mixUsed (s : State) (cs : List Host.Cell) : (s.addGlobal cs).mixUsed = s.mixUsed := rfl
@[simp] theorem State.addGlobal_mixNext (s : State) (cs : List Host.Cell) : (s.addGlobal cs).mixNext = s.mixNext := rfl
@[simp] theorem State.addGlobal_mixTime (s : State) (cs : List Host.Cell) : (s.addGlobal cs).mixTime = s.mixTime := rfl
@[simp] theorem State.addGlobal_crossed (s : State) (cs : List Host.Cell) : (s.addGlobal cs).crossed = s.crossed := rfl
@[simp] theorem State.addGlobal_mixLate (s : State) (cs : List Host.Cell) : (s.addGlobal cs).mixLate = s.mixLate := rfl
@[simp] theorem State.addGlobal_trailing (s : State) (cs : List Host.Cell) : (s.addGlobal cs).trailing = s.trailing := rfl
@[simp] theorem State.addGlobal_chip (s : State) (cs : List Host.Cell) : (s.addGlobal cs).chip = s.chip := rfl
@[simp] theorem State.addGlobal_timeout (s : State) (cs : List Host.Cell) : (s.addGlobal cs).timeout = s.timeout := rfl
@[simp] theorem State.addGlobal_service (s : State) (cs : List Host.Cell) : (s.addGlobal cs).service = s.service := rfl
@[simp] theorem State.addGlobal_energyTime (s : State) (cs : List Host.Cell) : (s.addGlobal cs).energyTime = s.energyTime := rfl
@[simp] theorem State.addGlobal_turns (s : State) (cs : List Host.Cell) : (s.addGlobal cs).turns = s.turns := rfl
@[simp] theorem State.addGlobal_tick (s : State) (cs : List Host.Cell) : (s.addGlobal cs).tick = s.tick := rfl
@[simp] theorem State.addGlobal_now (s : State) (cs : List Host.Cell) : (s.addGlobal cs).now = s.now := rfl
@[simp] theorem State.addGlobal_fresh (s : State) (cs : List Host.Cell) : (s.addGlobal cs).fresh = s.fresh := rfl
@[simp] theorem State.addGlobal_cur (s : State) (cs : List Host.Cell) : (s.addGlobal cs).cur = s.cur := rfl
@[simp] theorem State.addGlobal_args (s : State) (cs : List Host.Cell) : (s.addGlobal cs).args = s.args := rfl

/-! ### A scalar register -/

@[simp] theorem Core.setX_v (k : Core) (n : Nat) (v : Word) : (k.setX n v).v = k.v := by unfold Core.setX; split <;> rfl
@[simp] theorem Core.setX_c0 (k : Core) (n : Nat) (v : Word) : (k.setX n v).c0 = k.c0 := by unfold Core.setX; split <;> rfl
@[simp] theorem Core.setX_c1 (k : Core) (n : Nat) (v : Word) : (k.setX n v).c1 = k.c1 := by unfold Core.setX; split <;> rfl
@[simp] theorem Core.setX_c2 (k : Core) (n : Nat) (v : Word) : (k.setX n v).c2 = k.c2 := by unfold Core.setX; split <;> rfl
@[simp] theorem Core.setX_n0 (k : Core) (n : Nat) (v : Word) : (k.setX n v).n0 = k.n0 := by unfold Core.setX; split <;> rfl
@[simp] theorem Core.setX_n1 (k : Core) (n : Nat) (v : Word) : (k.setX n v).n1 = k.n1 := by unfold Core.setX; split <;> rfl
@[simp] theorem Core.setX_n2 (k : Core) (n : Nat) (v : Word) : (k.setX n v).n2 = k.n2 := by unfold Core.setX; split <;> rfl
@[simp] theorem Core.setX_s1 (k : Core) (n : Nat) (v : Word) : (k.setX n v).s1 = k.s1 := by unfold Core.setX; split <;> rfl
@[simp] theorem Core.setX_s2 (k : Core) (n : Nat) (v : Word) : (k.setX n v).s2 = k.s2 := by unfold Core.setX; split <;> rfl
@[simp] theorem Core.setX_fcsr (k : Core) (n : Nat) (v : Word) : (k.setX n v).fcsr = k.fcsr := by unfold Core.setX; split <;> rfl
@[simp] theorem Core.setX_srseed (k : Core) (n : Nat) (v : Word) : (k.setX n v).srseed = k.srseed := by unfold Core.setX; split <;> rfl
@[simp] theorem Core.setX_srcnt (k : Core) (n : Nat) (v : Word) : (k.setX n v).srcnt = k.srcnt := by unfold Core.setX; split <;> rfl
@[simp] theorem Core.setX_quant (k : Core) (n : Nat) (v : Word) : (k.setX n v).quant = k.quant := by unfold Core.setX; split <;> rfl
@[simp] theorem Core.setX_sigbase (k : Core) (n : Nat) (v : Word) : (k.setX n v).sigbase = k.sigbase := by unfold Core.setX; split <;> rfl
@[simp] theorem Core.setX_cregh (k : Core) (n : Nat) (v : Word) : (k.setX n v).cregh = k.cregh := by unfold Core.setX; split <;> rfl
@[simp] theorem Core.setX_retired (k : Core) (n : Nat) (v : Word) : (k.setX n v).retired = k.retired := by unfold Core.setX; split <;> rfl
@[simp] theorem Core.setX_tcause (k : Core) (n : Nat) (v : Word) : (k.setX n v).tcause = k.tcause := by unfold Core.setX; split <;> rfl
@[simp] theorem Core.setX_tval (k : Core) (n : Nat) (v : Word) : (k.setX n v).tval = k.tval := by unfold Core.setX; split <;> rfl
@[simp] theorem Core.setX_tepc (k : Core) (n : Nat) (v : Word) : (k.setX n v).tepc = k.tepc := by unfold Core.setX; split <;> rfl
@[simp] theorem Core.setX_tepc1 (k : Core) (n : Nat) (v : Word) : (k.setX n v).tepc1 = k.tepc1 := by unfold Core.setX; split <;> rfl
@[simp] theorem Core.setX_tepc2 (k : Core) (n : Nat) (v : Word) : (k.setX n v).tepc2 = k.tepc2 := by unfold Core.setX; split <;> rfl
@[simp] theorem Core.setX_tepcn (k : Core) (n : Nat) (v : Word) : (k.setX n v).tepcn = k.tepcn := by unfold Core.setX; split <;> rfl
@[simp] theorem Core.setX_tstat (k : Core) (n : Nat) (v : Word) : (k.setX n v).tstat = k.tstat := by unfold Core.setX; split <;> rfl
@[simp] theorem Core.setX_firing (k : Core) (n : Nat) (v : Word) : (k.setX n v).firing = k.firing := by unfold Core.setX; split <;> rfl
@[simp] theorem Core.setX_lastFired (k : Core) (n : Nat) (v : Word) : (k.setX n v).lastFired = k.lastFired := by unfold Core.setX; split <;> rfl
@[simp] theorem Core.setX_sendBuffer (k : Core) (n : Nat) (v : Word) : (k.setX n v).sendBuffer = k.sendBuffer := by unfold Core.setX; split <;> rfl
@[simp] theorem Core.setX_stores (k : Core) (n : Nat) (v : Word) : (k.setX n v).stores = k.stores := by unfold Core.setX; split <;> rfl
@[simp] theorem Core.setX_loads (k : Core) (n : Nat) (v : Word) : (k.setX n v).loads = k.loads := by unfold Core.setX; split <;> rfl
@[simp] theorem Core.setX_seen (k : Core) (n : Nat) (v : Word) : (k.setX n v).seen = k.seen := by unfold Core.setX; split <;> rfl
@[simp] theorem Core.setX_pending (k : Core) (n : Nat) (v : Word) : (k.setX n v).pending = k.pending := by unfold Core.setX; split <;> rfl
@[simp] theorem Core.setX_events (k : Core) (n : Nat) (v : Word) : (k.setX n v).events = k.events := by unfold Core.setX; split <;> rfl
@[simp] theorem Core.setX_preempt (k : Core) (n : Nat) (v : Word) : (k.setX n v).preempt = k.preempt := by unfold Core.setX; split <;> rfl
@[simp] theorem Core.setX_watchdog (k : Core) (n : Nat) (v : Word) : (k.setX n v).watchdog = k.watchdog := by unfold Core.setX; split <;> rfl
@[simp] theorem Core.setX_sigEn (k : Core) (n : Nat) (v : Word) : (k.setX n v).sigEn = k.sigEn := by unfold Core.setX; split <;> rfl
@[simp] theorem Core.setX_sigWait (k : Core) (n : Nat) (v : Word) : (k.setX n v).sigWait = k.sigWait := by unfold Core.setX; split <;> rfl
@[simp] theorem Core.setX_fold (k : Core) (n : Nat) (v : Word) : (k.setX n v).fold = k.fold := by unfold Core.setX; split <;> rfl
@[simp] theorem Core.setX_member (k : Core) (n : Nat) (v : Word) : (k.setX n v).member = k.member := by unfold Core.setX; split <;> rfl
@[simp] theorem Core.setX_parked (k : Core) (n : Nat) (v : Word) : (k.setX n v).parked = k.parked := by unfold Core.setX; split <;> rfl
@[simp] theorem Core.setX_halted (k : Core) (n : Nat) (v : Word) : (k.setX n v).halted = k.halted := by unfold Core.setX; split <;> rfl
@[simp] theorem Core.setX_stale (k : Core) (n : Nat) (v : Word) : (k.setX n v).stale = k.stale := by unfold Core.setX; split <;> rfl
@[simp] theorem Core.setX_running (k : Core) (n : Nat) (v : Word) : (k.setX n v).running = k.running := by unfold Core.setX; split <;> rfl
@[simp] theorem Core.setX_fragMark (k : Core) (n : Nat) (v : Word) : (k.setX n v).fragMark = k.fragMark := by unfold Core.setX; split <;> rfl
@[simp] theorem Core.setX_saving (k : Core) (n : Nat) (v : Word) : (k.setX n v).saving = k.saving := by unfold Core.setX; split <;> rfl
@[simp] theorem Core.setX_handling (k : Core) (n : Nat) (v : Word) : (k.setX n v).handling = k.handling := by unfold Core.setX; split <;> rfl
@[simp] theorem Core.setX_lateD (k : Core) (n : Nat) (v : Word) : (k.setX n v).lateD = k.lateD := by unfold Core.setX; split <;> rfl

/-! ### A vector register -/

@[simp] theorem Core.setV_x (k : Core) (n : Nat) (v : Vec) : (k.setV n v).x = k.x := rfl
@[simp] theorem Core.setV_c0 (k : Core) (n : Nat) (v : Vec) : (k.setV n v).c0 = k.c0 := rfl
@[simp] theorem Core.setV_c1 (k : Core) (n : Nat) (v : Vec) : (k.setV n v).c1 = k.c1 := rfl
@[simp] theorem Core.setV_c2 (k : Core) (n : Nat) (v : Vec) : (k.setV n v).c2 = k.c2 := rfl
@[simp] theorem Core.setV_n0 (k : Core) (n : Nat) (v : Vec) : (k.setV n v).n0 = k.n0 := rfl
@[simp] theorem Core.setV_n1 (k : Core) (n : Nat) (v : Vec) : (k.setV n v).n1 = k.n1 := rfl
@[simp] theorem Core.setV_n2 (k : Core) (n : Nat) (v : Vec) : (k.setV n v).n2 = k.n2 := rfl
@[simp] theorem Core.setV_s1 (k : Core) (n : Nat) (v : Vec) : (k.setV n v).s1 = k.s1 := rfl
@[simp] theorem Core.setV_s2 (k : Core) (n : Nat) (v : Vec) : (k.setV n v).s2 = k.s2 := rfl
@[simp] theorem Core.setV_fcsr (k : Core) (n : Nat) (v : Vec) : (k.setV n v).fcsr = k.fcsr := rfl
@[simp] theorem Core.setV_srseed (k : Core) (n : Nat) (v : Vec) : (k.setV n v).srseed = k.srseed := rfl
@[simp] theorem Core.setV_srcnt (k : Core) (n : Nat) (v : Vec) : (k.setV n v).srcnt = k.srcnt := rfl
@[simp] theorem Core.setV_quant (k : Core) (n : Nat) (v : Vec) : (k.setV n v).quant = k.quant := rfl
@[simp] theorem Core.setV_sigbase (k : Core) (n : Nat) (v : Vec) : (k.setV n v).sigbase = k.sigbase := rfl
@[simp] theorem Core.setV_cregh (k : Core) (n : Nat) (v : Vec) : (k.setV n v).cregh = k.cregh := rfl
@[simp] theorem Core.setV_retired (k : Core) (n : Nat) (v : Vec) : (k.setV n v).retired = k.retired := rfl
@[simp] theorem Core.setV_tcause (k : Core) (n : Nat) (v : Vec) : (k.setV n v).tcause = k.tcause := rfl
@[simp] theorem Core.setV_tval (k : Core) (n : Nat) (v : Vec) : (k.setV n v).tval = k.tval := rfl
@[simp] theorem Core.setV_tepc (k : Core) (n : Nat) (v : Vec) : (k.setV n v).tepc = k.tepc := rfl
@[simp] theorem Core.setV_tepc1 (k : Core) (n : Nat) (v : Vec) : (k.setV n v).tepc1 = k.tepc1 := rfl
@[simp] theorem Core.setV_tepc2 (k : Core) (n : Nat) (v : Vec) : (k.setV n v).tepc2 = k.tepc2 := rfl
@[simp] theorem Core.setV_tepcn (k : Core) (n : Nat) (v : Vec) : (k.setV n v).tepcn = k.tepcn := rfl
@[simp] theorem Core.setV_tstat (k : Core) (n : Nat) (v : Vec) : (k.setV n v).tstat = k.tstat := rfl
@[simp] theorem Core.setV_firing (k : Core) (n : Nat) (v : Vec) : (k.setV n v).firing = k.firing := rfl
@[simp] theorem Core.setV_lastFired (k : Core) (n : Nat) (v : Vec) : (k.setV n v).lastFired = k.lastFired := rfl
@[simp] theorem Core.setV_sendBuffer (k : Core) (n : Nat) (v : Vec) : (k.setV n v).sendBuffer = k.sendBuffer := rfl
@[simp] theorem Core.setV_stores (k : Core) (n : Nat) (v : Vec) : (k.setV n v).stores = k.stores := rfl
@[simp] theorem Core.setV_loads (k : Core) (n : Nat) (v : Vec) : (k.setV n v).loads = k.loads := rfl
@[simp] theorem Core.setV_seen (k : Core) (n : Nat) (v : Vec) : (k.setV n v).seen = k.seen := rfl
@[simp] theorem Core.setV_pending (k : Core) (n : Nat) (v : Vec) : (k.setV n v).pending = k.pending := rfl
@[simp] theorem Core.setV_events (k : Core) (n : Nat) (v : Vec) : (k.setV n v).events = k.events := rfl
@[simp] theorem Core.setV_preempt (k : Core) (n : Nat) (v : Vec) : (k.setV n v).preempt = k.preempt := rfl
@[simp] theorem Core.setV_watchdog (k : Core) (n : Nat) (v : Vec) : (k.setV n v).watchdog = k.watchdog := rfl
@[simp] theorem Core.setV_sigEn (k : Core) (n : Nat) (v : Vec) : (k.setV n v).sigEn = k.sigEn := rfl
@[simp] theorem Core.setV_sigWait (k : Core) (n : Nat) (v : Vec) : (k.setV n v).sigWait = k.sigWait := rfl
@[simp] theorem Core.setV_fold (k : Core) (n : Nat) (v : Vec) : (k.setV n v).fold = k.fold := rfl
@[simp] theorem Core.setV_member (k : Core) (n : Nat) (v : Vec) : (k.setV n v).member = k.member := rfl
@[simp] theorem Core.setV_parked (k : Core) (n : Nat) (v : Vec) : (k.setV n v).parked = k.parked := rfl
@[simp] theorem Core.setV_halted (k : Core) (n : Nat) (v : Vec) : (k.setV n v).halted = k.halted := rfl
@[simp] theorem Core.setV_stale (k : Core) (n : Nat) (v : Vec) : (k.setV n v).stale = k.stale := rfl
@[simp] theorem Core.setV_running (k : Core) (n : Nat) (v : Vec) : (k.setV n v).running = k.running := rfl
@[simp] theorem Core.setV_fragMark (k : Core) (n : Nat) (v : Vec) : (k.setV n v).fragMark = k.fragMark := rfl
@[simp] theorem Core.setV_saving (k : Core) (n : Nat) (v : Vec) : (k.setV n v).saving = k.saving := rfl
@[simp] theorem Core.setV_handling (k : Core) (n : Nat) (v : Vec) : (k.setV n v).handling = k.handling := rfl
@[simp] theorem Core.setV_lateD (k : Core) (n : Nat) (v : Vec) : (k.setV n v).lateD = k.lateD := rfl

/-! ### The chain moves forward -/

@[simp] theorem Core.advance_x (k : Core) (t : Bool) (a : VAddr) (u : Bool) : (k.advance t a u).x = k.x := rfl
@[simp] theorem Core.advance_v (k : Core) (t : Bool) (a : VAddr) (u : Bool) : (k.advance t a u).v = k.v := rfl
@[simp] theorem Core.advance_fcsr (k : Core) (t : Bool) (a : VAddr) (u : Bool) : (k.advance t a u).fcsr = k.fcsr := rfl
@[simp] theorem Core.advance_srseed (k : Core) (t : Bool) (a : VAddr) (u : Bool) : (k.advance t a u).srseed = k.srseed := rfl
@[simp] theorem Core.advance_srcnt (k : Core) (t : Bool) (a : VAddr) (u : Bool) : (k.advance t a u).srcnt = k.srcnt := rfl
@[simp] theorem Core.advance_quant (k : Core) (t : Bool) (a : VAddr) (u : Bool) : (k.advance t a u).quant = k.quant := rfl
@[simp] theorem Core.advance_sigbase (k : Core) (t : Bool) (a : VAddr) (u : Bool) : (k.advance t a u).sigbase = k.sigbase := rfl
@[simp] theorem Core.advance_cregh (k : Core) (t : Bool) (a : VAddr) (u : Bool) : (k.advance t a u).cregh = k.cregh := rfl
@[simp] theorem Core.advance_retired (k : Core) (t : Bool) (a : VAddr) (u : Bool) : (k.advance t a u).retired = k.retired := rfl
@[simp] theorem Core.advance_tcause (k : Core) (t : Bool) (a : VAddr) (u : Bool) : (k.advance t a u).tcause = k.tcause := rfl
@[simp] theorem Core.advance_tval (k : Core) (t : Bool) (a : VAddr) (u : Bool) : (k.advance t a u).tval = k.tval := rfl
@[simp] theorem Core.advance_tepc (k : Core) (t : Bool) (a : VAddr) (u : Bool) : (k.advance t a u).tepc = k.tepc := rfl
@[simp] theorem Core.advance_tepc1 (k : Core) (t : Bool) (a : VAddr) (u : Bool) : (k.advance t a u).tepc1 = k.tepc1 := rfl
@[simp] theorem Core.advance_tepc2 (k : Core) (t : Bool) (a : VAddr) (u : Bool) : (k.advance t a u).tepc2 = k.tepc2 := rfl
@[simp] theorem Core.advance_tepcn (k : Core) (t : Bool) (a : VAddr) (u : Bool) : (k.advance t a u).tepcn = k.tepcn := rfl
@[simp] theorem Core.advance_tstat (k : Core) (t : Bool) (a : VAddr) (u : Bool) : (k.advance t a u).tstat = k.tstat := rfl
@[simp] theorem Core.advance_firing (k : Core) (t : Bool) (a : VAddr) (u : Bool) : (k.advance t a u).firing = k.firing := rfl
@[simp] theorem Core.advance_lastFired (k : Core) (t : Bool) (a : VAddr) (u : Bool) : (k.advance t a u).lastFired = k.lastFired := rfl
@[simp] theorem Core.advance_sendBuffer (k : Core) (t : Bool) (a : VAddr) (u : Bool) : (k.advance t a u).sendBuffer = k.sendBuffer := rfl
@[simp] theorem Core.advance_stores (k : Core) (t : Bool) (a : VAddr) (u : Bool) : (k.advance t a u).stores = k.stores := rfl
@[simp] theorem Core.advance_loads (k : Core) (t : Bool) (a : VAddr) (u : Bool) : (k.advance t a u).loads = k.loads := rfl
@[simp] theorem Core.advance_seen (k : Core) (t : Bool) (a : VAddr) (u : Bool) : (k.advance t a u).seen = k.seen := rfl
@[simp] theorem Core.advance_pending (k : Core) (t : Bool) (a : VAddr) (u : Bool) : (k.advance t a u).pending = k.pending := rfl
@[simp] theorem Core.advance_events (k : Core) (t : Bool) (a : VAddr) (u : Bool) : (k.advance t a u).events = k.events := rfl
@[simp] theorem Core.advance_preempt (k : Core) (t : Bool) (a : VAddr) (u : Bool) : (k.advance t a u).preempt = k.preempt := rfl
@[simp] theorem Core.advance_watchdog (k : Core) (t : Bool) (a : VAddr) (u : Bool) : (k.advance t a u).watchdog = k.watchdog := rfl
@[simp] theorem Core.advance_sigEn (k : Core) (t : Bool) (a : VAddr) (u : Bool) : (k.advance t a u).sigEn = k.sigEn := rfl
@[simp] theorem Core.advance_sigWait (k : Core) (t : Bool) (a : VAddr) (u : Bool) : (k.advance t a u).sigWait = k.sigWait := rfl
@[simp] theorem Core.advance_fold (k : Core) (t : Bool) (a : VAddr) (u : Bool) : (k.advance t a u).fold = k.fold := rfl
@[simp] theorem Core.advance_member (k : Core) (t : Bool) (a : VAddr) (u : Bool) : (k.advance t a u).member = k.member := rfl
@[simp] theorem Core.advance_parked (k : Core) (t : Bool) (a : VAddr) (u : Bool) : (k.advance t a u).parked = k.parked := rfl
@[simp] theorem Core.advance_halted (k : Core) (t : Bool) (a : VAddr) (u : Bool) : (k.advance t a u).halted = k.halted := rfl
@[simp] theorem Core.advance_stale (k : Core) (t : Bool) (a : VAddr) (u : Bool) : (k.advance t a u).stale = k.stale := rfl
@[simp] theorem Core.advance_running (k : Core) (t : Bool) (a : VAddr) (u : Bool) : (k.advance t a u).running = k.running := rfl
@[simp] theorem Core.advance_fragMark (k : Core) (t : Bool) (a : VAddr) (u : Bool) : (k.advance t a u).fragMark = k.fragMark := rfl
@[simp] theorem Core.advance_saving (k : Core) (t : Bool) (a : VAddr) (u : Bool) : (k.advance t a u).saving = k.saving := rfl
@[simp] theorem Core.advance_handling (k : Core) (t : Bool) (a : VAddr) (u : Bool) : (k.advance t a u).handling = k.handling := rfl
@[simp] theorem Core.advance_lateD (k : Core) (t : Bool) (a : VAddr) (u : Bool) : (k.advance t a u).lateD = k.lateD := rfl

/-! ### The chain starts anew -/

@[simp] theorem Core.startChain_x (k : Core) (h : VAddr) : (k.startChain h).x = k.x := rfl
@[simp] theorem Core.startChain_v (k : Core) (h : VAddr) : (k.startChain h).v = k.v := rfl
@[simp] theorem Core.startChain_fcsr (k : Core) (h : VAddr) : (k.startChain h).fcsr = k.fcsr := rfl
@[simp] theorem Core.startChain_srseed (k : Core) (h : VAddr) : (k.startChain h).srseed = k.srseed := rfl
@[simp] theorem Core.startChain_srcnt (k : Core) (h : VAddr) : (k.startChain h).srcnt = k.srcnt := rfl
@[simp] theorem Core.startChain_quant (k : Core) (h : VAddr) : (k.startChain h).quant = k.quant := rfl
@[simp] theorem Core.startChain_sigbase (k : Core) (h : VAddr) : (k.startChain h).sigbase = k.sigbase := rfl
@[simp] theorem Core.startChain_cregh (k : Core) (h : VAddr) : (k.startChain h).cregh = k.cregh := rfl
@[simp] theorem Core.startChain_retired (k : Core) (h : VAddr) : (k.startChain h).retired = k.retired := rfl
@[simp] theorem Core.startChain_tcause (k : Core) (h : VAddr) : (k.startChain h).tcause = k.tcause := rfl
@[simp] theorem Core.startChain_tval (k : Core) (h : VAddr) : (k.startChain h).tval = k.tval := rfl
@[simp] theorem Core.startChain_tepc (k : Core) (h : VAddr) : (k.startChain h).tepc = k.tepc := rfl
@[simp] theorem Core.startChain_tepc1 (k : Core) (h : VAddr) : (k.startChain h).tepc1 = k.tepc1 := rfl
@[simp] theorem Core.startChain_tepc2 (k : Core) (h : VAddr) : (k.startChain h).tepc2 = k.tepc2 := rfl
@[simp] theorem Core.startChain_tepcn (k : Core) (h : VAddr) : (k.startChain h).tepcn = k.tepcn := rfl
@[simp] theorem Core.startChain_tstat (k : Core) (h : VAddr) : (k.startChain h).tstat = k.tstat := rfl
@[simp] theorem Core.startChain_firing (k : Core) (h : VAddr) : (k.startChain h).firing = k.firing := rfl
@[simp] theorem Core.startChain_lastFired (k : Core) (h : VAddr) : (k.startChain h).lastFired = k.lastFired := rfl
@[simp] theorem Core.startChain_sendBuffer (k : Core) (h : VAddr) : (k.startChain h).sendBuffer = k.sendBuffer := rfl
@[simp] theorem Core.startChain_stores (k : Core) (h : VAddr) : (k.startChain h).stores = k.stores := rfl
@[simp] theorem Core.startChain_loads (k : Core) (h : VAddr) : (k.startChain h).loads = k.loads := rfl
@[simp] theorem Core.startChain_seen (k : Core) (h : VAddr) : (k.startChain h).seen = k.seen := rfl
@[simp] theorem Core.startChain_pending (k : Core) (h : VAddr) : (k.startChain h).pending = k.pending := rfl
@[simp] theorem Core.startChain_events (k : Core) (h : VAddr) : (k.startChain h).events = k.events := rfl
@[simp] theorem Core.startChain_preempt (k : Core) (h : VAddr) : (k.startChain h).preempt = k.preempt := rfl
@[simp] theorem Core.startChain_watchdog (k : Core) (h : VAddr) : (k.startChain h).watchdog = k.watchdog := rfl
@[simp] theorem Core.startChain_sigEn (k : Core) (h : VAddr) : (k.startChain h).sigEn = k.sigEn := rfl
@[simp] theorem Core.startChain_sigWait (k : Core) (h : VAddr) : (k.startChain h).sigWait = k.sigWait := rfl
@[simp] theorem Core.startChain_fold (k : Core) (h : VAddr) : (k.startChain h).fold = k.fold := rfl
@[simp] theorem Core.startChain_member (k : Core) (h : VAddr) : (k.startChain h).member = k.member := rfl
@[simp] theorem Core.startChain_parked (k : Core) (h : VAddr) : (k.startChain h).parked = k.parked := rfl
@[simp] theorem Core.startChain_halted (k : Core) (h : VAddr) : (k.startChain h).halted = k.halted := rfl
@[simp] theorem Core.startChain_stale (k : Core) (h : VAddr) : (k.startChain h).stale = k.stale := rfl
@[simp] theorem Core.startChain_running (k : Core) (h : VAddr) : (k.startChain h).running = k.running := rfl
@[simp] theorem Core.startChain_fragMark (k : Core) (h : VAddr) : (k.startChain h).fragMark = k.fragMark := rfl
@[simp] theorem Core.startChain_saving (k : Core) (h : VAddr) : (k.startChain h).saving = k.saving := rfl
@[simp] theorem Core.startChain_handling (k : Core) (h : VAddr) : (k.startChain h).handling = k.handling := rfl
@[simp] theorem Core.startChain_lateD (k : Core) (h : VAddr) : (k.startChain h).lateD = k.lateD := rfl

/-! ### The chain is discarded -/

@[simp] theorem Core.noChain_x (k : Core)  : (k.noChain ).x = k.x := rfl
@[simp] theorem Core.noChain_v (k : Core)  : (k.noChain ).v = k.v := rfl
@[simp] theorem Core.noChain_fcsr (k : Core)  : (k.noChain ).fcsr = k.fcsr := rfl
@[simp] theorem Core.noChain_srseed (k : Core)  : (k.noChain ).srseed = k.srseed := rfl
@[simp] theorem Core.noChain_srcnt (k : Core)  : (k.noChain ).srcnt = k.srcnt := rfl
@[simp] theorem Core.noChain_quant (k : Core)  : (k.noChain ).quant = k.quant := rfl
@[simp] theorem Core.noChain_sigbase (k : Core)  : (k.noChain ).sigbase = k.sigbase := rfl
@[simp] theorem Core.noChain_cregh (k : Core)  : (k.noChain ).cregh = k.cregh := rfl
@[simp] theorem Core.noChain_retired (k : Core)  : (k.noChain ).retired = k.retired := rfl
@[simp] theorem Core.noChain_tcause (k : Core)  : (k.noChain ).tcause = k.tcause := rfl
@[simp] theorem Core.noChain_tval (k : Core)  : (k.noChain ).tval = k.tval := rfl
@[simp] theorem Core.noChain_tepc (k : Core)  : (k.noChain ).tepc = k.tepc := rfl
@[simp] theorem Core.noChain_tepc1 (k : Core)  : (k.noChain ).tepc1 = k.tepc1 := rfl
@[simp] theorem Core.noChain_tepc2 (k : Core)  : (k.noChain ).tepc2 = k.tepc2 := rfl
@[simp] theorem Core.noChain_tepcn (k : Core)  : (k.noChain ).tepcn = k.tepcn := rfl
@[simp] theorem Core.noChain_tstat (k : Core)  : (k.noChain ).tstat = k.tstat := rfl
@[simp] theorem Core.noChain_firing (k : Core)  : (k.noChain ).firing = k.firing := rfl
@[simp] theorem Core.noChain_lastFired (k : Core)  : (k.noChain ).lastFired = k.lastFired := rfl
@[simp] theorem Core.noChain_sendBuffer (k : Core)  : (k.noChain ).sendBuffer = k.sendBuffer := rfl
@[simp] theorem Core.noChain_stores (k : Core)  : (k.noChain ).stores = k.stores := rfl
@[simp] theorem Core.noChain_loads (k : Core)  : (k.noChain ).loads = k.loads := rfl
@[simp] theorem Core.noChain_seen (k : Core)  : (k.noChain ).seen = k.seen := rfl
@[simp] theorem Core.noChain_pending (k : Core)  : (k.noChain ).pending = k.pending := rfl
@[simp] theorem Core.noChain_events (k : Core)  : (k.noChain ).events = k.events := rfl
@[simp] theorem Core.noChain_preempt (k : Core)  : (k.noChain ).preempt = k.preempt := rfl
@[simp] theorem Core.noChain_watchdog (k : Core)  : (k.noChain ).watchdog = k.watchdog := rfl
@[simp] theorem Core.noChain_sigEn (k : Core)  : (k.noChain ).sigEn = k.sigEn := rfl
@[simp] theorem Core.noChain_sigWait (k : Core)  : (k.noChain ).sigWait = k.sigWait := rfl
@[simp] theorem Core.noChain_fold (k : Core)  : (k.noChain ).fold = k.fold := rfl
@[simp] theorem Core.noChain_member (k : Core)  : (k.noChain ).member = k.member := rfl
@[simp] theorem Core.noChain_parked (k : Core)  : (k.noChain ).parked = k.parked := rfl
@[simp] theorem Core.noChain_halted (k : Core)  : (k.noChain ).halted = k.halted := rfl
@[simp] theorem Core.noChain_stale (k : Core)  : (k.noChain ).stale = k.stale := rfl
@[simp] theorem Core.noChain_running (k : Core)  : (k.noChain ).running = k.running := rfl
@[simp] theorem Core.noChain_fragMark (k : Core)  : (k.noChain ).fragMark = k.fragMark := rfl
@[simp] theorem Core.noChain_saving (k : Core)  : (k.noChain ).saving = k.saving := rfl
@[simp] theorem Core.noChain_handling (k : Core)  : (k.noChain ).handling = k.handling := rfl
@[simp] theorem Core.noChain_lateD (k : Core)  : (k.noChain ).lateD = k.lateD := rfl

/-! ### The signature checker -/

@[simp] theorem Core.foldHead_x (k : Core) (w : BitVec 128) : (k.foldHead w).x = k.x := by unfold Core.foldHead; split <;> rfl
@[simp] theorem Core.foldHead_v (k : Core) (w : BitVec 128) : (k.foldHead w).v = k.v := by unfold Core.foldHead; split <;> rfl
@[simp] theorem Core.foldHead_c0 (k : Core) (w : BitVec 128) : (k.foldHead w).c0 = k.c0 := by unfold Core.foldHead; split <;> rfl
@[simp] theorem Core.foldHead_c1 (k : Core) (w : BitVec 128) : (k.foldHead w).c1 = k.c1 := by unfold Core.foldHead; split <;> rfl
@[simp] theorem Core.foldHead_c2 (k : Core) (w : BitVec 128) : (k.foldHead w).c2 = k.c2 := by unfold Core.foldHead; split <;> rfl
@[simp] theorem Core.foldHead_n0 (k : Core) (w : BitVec 128) : (k.foldHead w).n0 = k.n0 := by unfold Core.foldHead; split <;> rfl
@[simp] theorem Core.foldHead_n1 (k : Core) (w : BitVec 128) : (k.foldHead w).n1 = k.n1 := by unfold Core.foldHead; split <;> rfl
@[simp] theorem Core.foldHead_n2 (k : Core) (w : BitVec 128) : (k.foldHead w).n2 = k.n2 := by unfold Core.foldHead; split <;> rfl
@[simp] theorem Core.foldHead_s1 (k : Core) (w : BitVec 128) : (k.foldHead w).s1 = k.s1 := by unfold Core.foldHead; split <;> rfl
@[simp] theorem Core.foldHead_s2 (k : Core) (w : BitVec 128) : (k.foldHead w).s2 = k.s2 := by unfold Core.foldHead; split <;> rfl
@[simp] theorem Core.foldHead_fcsr (k : Core) (w : BitVec 128) : (k.foldHead w).fcsr = k.fcsr := by unfold Core.foldHead; split <;> rfl
@[simp] theorem Core.foldHead_srseed (k : Core) (w : BitVec 128) : (k.foldHead w).srseed = k.srseed := by unfold Core.foldHead; split <;> rfl
@[simp] theorem Core.foldHead_srcnt (k : Core) (w : BitVec 128) : (k.foldHead w).srcnt = k.srcnt := by unfold Core.foldHead; split <;> rfl
@[simp] theorem Core.foldHead_quant (k : Core) (w : BitVec 128) : (k.foldHead w).quant = k.quant := by unfold Core.foldHead; split <;> rfl
@[simp] theorem Core.foldHead_sigbase (k : Core) (w : BitVec 128) : (k.foldHead w).sigbase = k.sigbase := by unfold Core.foldHead; split <;> rfl
@[simp] theorem Core.foldHead_cregh (k : Core) (w : BitVec 128) : (k.foldHead w).cregh = k.cregh := by unfold Core.foldHead; split <;> rfl
@[simp] theorem Core.foldHead_retired (k : Core) (w : BitVec 128) : (k.foldHead w).retired = k.retired := by unfold Core.foldHead; split <;> rfl
@[simp] theorem Core.foldHead_tcause (k : Core) (w : BitVec 128) : (k.foldHead w).tcause = k.tcause := by unfold Core.foldHead; split <;> rfl
@[simp] theorem Core.foldHead_tval (k : Core) (w : BitVec 128) : (k.foldHead w).tval = k.tval := by unfold Core.foldHead; split <;> rfl
@[simp] theorem Core.foldHead_tepc (k : Core) (w : BitVec 128) : (k.foldHead w).tepc = k.tepc := by unfold Core.foldHead; split <;> rfl
@[simp] theorem Core.foldHead_tepc1 (k : Core) (w : BitVec 128) : (k.foldHead w).tepc1 = k.tepc1 := by unfold Core.foldHead; split <;> rfl
@[simp] theorem Core.foldHead_tepc2 (k : Core) (w : BitVec 128) : (k.foldHead w).tepc2 = k.tepc2 := by unfold Core.foldHead; split <;> rfl
@[simp] theorem Core.foldHead_tepcn (k : Core) (w : BitVec 128) : (k.foldHead w).tepcn = k.tepcn := by unfold Core.foldHead; split <;> rfl
@[simp] theorem Core.foldHead_tstat (k : Core) (w : BitVec 128) : (k.foldHead w).tstat = k.tstat := by unfold Core.foldHead; split <;> rfl
@[simp] theorem Core.foldHead_firing (k : Core) (w : BitVec 128) : (k.foldHead w).firing = k.firing := by unfold Core.foldHead; split <;> rfl
@[simp] theorem Core.foldHead_lastFired (k : Core) (w : BitVec 128) : (k.foldHead w).lastFired = k.lastFired := by unfold Core.foldHead; split <;> rfl
@[simp] theorem Core.foldHead_sendBuffer (k : Core) (w : BitVec 128) : (k.foldHead w).sendBuffer = k.sendBuffer := by unfold Core.foldHead; split <;> rfl
@[simp] theorem Core.foldHead_stores (k : Core) (w : BitVec 128) : (k.foldHead w).stores = k.stores := by unfold Core.foldHead; split <;> rfl
@[simp] theorem Core.foldHead_loads (k : Core) (w : BitVec 128) : (k.foldHead w).loads = k.loads := by unfold Core.foldHead; split <;> rfl
@[simp] theorem Core.foldHead_seen (k : Core) (w : BitVec 128) : (k.foldHead w).seen = k.seen := by unfold Core.foldHead; split <;> rfl
@[simp] theorem Core.foldHead_pending (k : Core) (w : BitVec 128) : (k.foldHead w).pending = k.pending := by unfold Core.foldHead; split <;> rfl
@[simp] theorem Core.foldHead_events (k : Core) (w : BitVec 128) : (k.foldHead w).events = k.events := by unfold Core.foldHead; split <;> rfl
@[simp] theorem Core.foldHead_preempt (k : Core) (w : BitVec 128) : (k.foldHead w).preempt = k.preempt := by unfold Core.foldHead; split <;> rfl
@[simp] theorem Core.foldHead_watchdog (k : Core) (w : BitVec 128) : (k.foldHead w).watchdog = k.watchdog := by unfold Core.foldHead; split <;> rfl
@[simp] theorem Core.foldHead_sigEn (k : Core) (w : BitVec 128) : (k.foldHead w).sigEn = k.sigEn := by unfold Core.foldHead; split <;> rfl
@[simp] theorem Core.foldHead_sigWait (k : Core) (w : BitVec 128) : (k.foldHead w).sigWait = k.sigWait := by unfold Core.foldHead; split <;> rfl
@[simp] theorem Core.foldHead_member (k : Core) (w : BitVec 128) : (k.foldHead w).member = k.member := by unfold Core.foldHead; split <;> rfl
@[simp] theorem Core.foldHead_parked (k : Core) (w : BitVec 128) : (k.foldHead w).parked = k.parked := by unfold Core.foldHead; split <;> rfl
@[simp] theorem Core.foldHead_halted (k : Core) (w : BitVec 128) : (k.foldHead w).halted = k.halted := by unfold Core.foldHead; split <;> rfl
@[simp] theorem Core.foldHead_stale (k : Core) (w : BitVec 128) : (k.foldHead w).stale = k.stale := by unfold Core.foldHead; split <;> rfl
@[simp] theorem Core.foldHead_running (k : Core) (w : BitVec 128) : (k.foldHead w).running = k.running := by unfold Core.foldHead; split <;> rfl
@[simp] theorem Core.foldHead_fragMark (k : Core) (w : BitVec 128) : (k.foldHead w).fragMark = k.fragMark := by unfold Core.foldHead; split <;> rfl
@[simp] theorem Core.foldHead_saving (k : Core) (w : BitVec 128) : (k.foldHead w).saving = k.saving := by unfold Core.foldHead; split <;> rfl
@[simp] theorem Core.foldHead_handling (k : Core) (w : BitVec 128) : (k.foldHead w).handling = k.handling := by unfold Core.foldHead; split <;> rfl
@[simp] theorem Core.foldHead_lateD (k : Core) (w : BitVec 128) : (k.foldHead w).lateD = k.lateD := by unfold Core.foldHead; split <;> rfl

/-! ### The quantum count -/

@[simp] theorem Core.countQuantum_x (k : Core)  : (k.countQuantum ).x = k.x := by unfold Core.countQuantum; split <;> rfl
@[simp] theorem Core.countQuantum_v (k : Core)  : (k.countQuantum ).v = k.v := by unfold Core.countQuantum; split <;> rfl
@[simp] theorem Core.countQuantum_c0 (k : Core)  : (k.countQuantum ).c0 = k.c0 := by unfold Core.countQuantum; split <;> rfl
@[simp] theorem Core.countQuantum_c1 (k : Core)  : (k.countQuantum ).c1 = k.c1 := by unfold Core.countQuantum; split <;> rfl
@[simp] theorem Core.countQuantum_c2 (k : Core)  : (k.countQuantum ).c2 = k.c2 := by unfold Core.countQuantum; split <;> rfl
@[simp] theorem Core.countQuantum_n0 (k : Core)  : (k.countQuantum ).n0 = k.n0 := by unfold Core.countQuantum; split <;> rfl
@[simp] theorem Core.countQuantum_n1 (k : Core)  : (k.countQuantum ).n1 = k.n1 := by unfold Core.countQuantum; split <;> rfl
@[simp] theorem Core.countQuantum_n2 (k : Core)  : (k.countQuantum ).n2 = k.n2 := by unfold Core.countQuantum; split <;> rfl
@[simp] theorem Core.countQuantum_s1 (k : Core)  : (k.countQuantum ).s1 = k.s1 := by unfold Core.countQuantum; split <;> rfl
@[simp] theorem Core.countQuantum_s2 (k : Core)  : (k.countQuantum ).s2 = k.s2 := by unfold Core.countQuantum; split <;> rfl
@[simp] theorem Core.countQuantum_fcsr (k : Core)  : (k.countQuantum ).fcsr = k.fcsr := by unfold Core.countQuantum; split <;> rfl
@[simp] theorem Core.countQuantum_srseed (k : Core)  : (k.countQuantum ).srseed = k.srseed := by unfold Core.countQuantum; split <;> rfl
@[simp] theorem Core.countQuantum_srcnt (k : Core)  : (k.countQuantum ).srcnt = k.srcnt := by unfold Core.countQuantum; split <;> rfl
@[simp] theorem Core.countQuantum_quant (k : Core)  : (k.countQuantum ).quant = k.quant := by unfold Core.countQuantum; split <;> rfl
@[simp] theorem Core.countQuantum_sigbase (k : Core)  : (k.countQuantum ).sigbase = k.sigbase := by unfold Core.countQuantum; split <;> rfl
@[simp] theorem Core.countQuantum_cregh (k : Core)  : (k.countQuantum ).cregh = k.cregh := by unfold Core.countQuantum; split <;> rfl
@[simp] theorem Core.countQuantum_retired (k : Core)  : (k.countQuantum ).retired = k.retired := by unfold Core.countQuantum; split <;> rfl
@[simp] theorem Core.countQuantum_tcause (k : Core)  : (k.countQuantum ).tcause = k.tcause := by unfold Core.countQuantum; split <;> rfl
@[simp] theorem Core.countQuantum_tval (k : Core)  : (k.countQuantum ).tval = k.tval := by unfold Core.countQuantum; split <;> rfl
@[simp] theorem Core.countQuantum_tepc (k : Core)  : (k.countQuantum ).tepc = k.tepc := by unfold Core.countQuantum; split <;> rfl
@[simp] theorem Core.countQuantum_tepc1 (k : Core)  : (k.countQuantum ).tepc1 = k.tepc1 := by unfold Core.countQuantum; split <;> rfl
@[simp] theorem Core.countQuantum_tepc2 (k : Core)  : (k.countQuantum ).tepc2 = k.tepc2 := by unfold Core.countQuantum; split <;> rfl
@[simp] theorem Core.countQuantum_tepcn (k : Core)  : (k.countQuantum ).tepcn = k.tepcn := by unfold Core.countQuantum; split <;> rfl
@[simp] theorem Core.countQuantum_tstat (k : Core)  : (k.countQuantum ).tstat = k.tstat := by unfold Core.countQuantum; split <;> rfl
@[simp] theorem Core.countQuantum_firing (k : Core)  : (k.countQuantum ).firing = k.firing := by unfold Core.countQuantum; split <;> rfl
@[simp] theorem Core.countQuantum_lastFired (k : Core)  : (k.countQuantum ).lastFired = k.lastFired := by unfold Core.countQuantum; split <;> rfl
@[simp] theorem Core.countQuantum_sendBuffer (k : Core)  : (k.countQuantum ).sendBuffer = k.sendBuffer := by unfold Core.countQuantum; split <;> rfl
@[simp] theorem Core.countQuantum_stores (k : Core)  : (k.countQuantum ).stores = k.stores := by unfold Core.countQuantum; split <;> rfl
@[simp] theorem Core.countQuantum_loads (k : Core)  : (k.countQuantum ).loads = k.loads := by unfold Core.countQuantum; split <;> rfl
@[simp] theorem Core.countQuantum_seen (k : Core)  : (k.countQuantum ).seen = k.seen := by unfold Core.countQuantum; split <;> rfl
@[simp] theorem Core.countQuantum_pending (k : Core)  : (k.countQuantum ).pending = k.pending := by unfold Core.countQuantum; split <;> rfl
@[simp] theorem Core.countQuantum_events (k : Core)  : (k.countQuantum ).events = k.events := by unfold Core.countQuantum; split <;> rfl
@[simp] theorem Core.countQuantum_preempt (k : Core)  : (k.countQuantum ).preempt = k.preempt := by unfold Core.countQuantum; split <;> rfl
@[simp] theorem Core.countQuantum_watchdog (k : Core)  : (k.countQuantum ).watchdog = k.watchdog := by unfold Core.countQuantum; split <;> rfl
@[simp] theorem Core.countQuantum_sigEn (k : Core)  : (k.countQuantum ).sigEn = k.sigEn := by unfold Core.countQuantum; split <;> rfl
@[simp] theorem Core.countQuantum_sigWait (k : Core)  : (k.countQuantum ).sigWait = k.sigWait := by unfold Core.countQuantum; split <;> rfl
@[simp] theorem Core.countQuantum_fold (k : Core)  : (k.countQuantum ).fold = k.fold := by unfold Core.countQuantum; split <;> rfl
@[simp] theorem Core.countQuantum_parked (k : Core)  : (k.countQuantum ).parked = k.parked := by unfold Core.countQuantum; split <;> rfl
@[simp] theorem Core.countQuantum_halted (k : Core)  : (k.countQuantum ).halted = k.halted := by unfold Core.countQuantum; split <;> rfl
@[simp] theorem Core.countQuantum_stale (k : Core)  : (k.countQuantum ).stale = k.stale := by unfold Core.countQuantum; split <;> rfl
@[simp] theorem Core.countQuantum_running (k : Core)  : (k.countQuantum ).running = k.running := by unfold Core.countQuantum; split <;> rfl
@[simp] theorem Core.countQuantum_fragMark (k : Core)  : (k.countQuantum ).fragMark = k.fragMark := by unfold Core.countQuantum; split <;> rfl
@[simp] theorem Core.countQuantum_saving (k : Core)  : (k.countQuantum ).saving = k.saving := by unfold Core.countQuantum; split <;> rfl
@[simp] theorem Core.countQuantum_handling (k : Core)  : (k.countQuantum ).handling = k.handling := by unfold Core.countQuantum; split <;> rfl
@[simp] theorem Core.countQuantum_lateD (k : Core)  : (k.countQuantum ).lateD = k.lateD := by unfold Core.countQuantum; split <;> rfl

/-! ### Retirement -/

@[simp] theorem Core.retire_x (k : Core) (w : BitVec 128) (t : Bool) (a : VAddr) (u : Bool) : (k.retire w t a u).x = k.x := by simp [Core.retire]
@[simp] theorem Core.retire_v (k : Core) (w : BitVec 128) (t : Bool) (a : VAddr) (u : Bool) : (k.retire w t a u).v = k.v := by simp [Core.retire]
@[simp] theorem Core.retire_fcsr (k : Core) (w : BitVec 128) (t : Bool) (a : VAddr) (u : Bool) : (k.retire w t a u).fcsr = k.fcsr := by simp [Core.retire]
@[simp] theorem Core.retire_srseed (k : Core) (w : BitVec 128) (t : Bool) (a : VAddr) (u : Bool) : (k.retire w t a u).srseed = k.srseed := by simp [Core.retire]
@[simp] theorem Core.retire_srcnt (k : Core) (w : BitVec 128) (t : Bool) (a : VAddr) (u : Bool) : (k.retire w t a u).srcnt = k.srcnt := by simp [Core.retire]
@[simp] theorem Core.retire_quant (k : Core) (w : BitVec 128) (t : Bool) (a : VAddr) (u : Bool) : (k.retire w t a u).quant = k.quant := by simp [Core.retire]
@[simp] theorem Core.retire_sigbase (k : Core) (w : BitVec 128) (t : Bool) (a : VAddr) (u : Bool) : (k.retire w t a u).sigbase = k.sigbase := by simp [Core.retire]
@[simp] theorem Core.retire_cregh (k : Core) (w : BitVec 128) (t : Bool) (a : VAddr) (u : Bool) : (k.retire w t a u).cregh = k.cregh := by simp [Core.retire]
@[simp] theorem Core.retire_tcause (k : Core) (w : BitVec 128) (t : Bool) (a : VAddr) (u : Bool) : (k.retire w t a u).tcause = k.tcause := by simp [Core.retire]
@[simp] theorem Core.retire_tval (k : Core) (w : BitVec 128) (t : Bool) (a : VAddr) (u : Bool) : (k.retire w t a u).tval = k.tval := by simp [Core.retire]
@[simp] theorem Core.retire_tepc (k : Core) (w : BitVec 128) (t : Bool) (a : VAddr) (u : Bool) : (k.retire w t a u).tepc = k.tepc := by simp [Core.retire]
@[simp] theorem Core.retire_tepc1 (k : Core) (w : BitVec 128) (t : Bool) (a : VAddr) (u : Bool) : (k.retire w t a u).tepc1 = k.tepc1 := by simp [Core.retire]
@[simp] theorem Core.retire_tepc2 (k : Core) (w : BitVec 128) (t : Bool) (a : VAddr) (u : Bool) : (k.retire w t a u).tepc2 = k.tepc2 := by simp [Core.retire]
@[simp] theorem Core.retire_tepcn (k : Core) (w : BitVec 128) (t : Bool) (a : VAddr) (u : Bool) : (k.retire w t a u).tepcn = k.tepcn := by simp [Core.retire]
@[simp] theorem Core.retire_tstat (k : Core) (w : BitVec 128) (t : Bool) (a : VAddr) (u : Bool) : (k.retire w t a u).tstat = k.tstat := by simp [Core.retire]
@[simp] theorem Core.retire_firing (k : Core) (w : BitVec 128) (t : Bool) (a : VAddr) (u : Bool) : (k.retire w t a u).firing = k.firing := by simp [Core.retire]
@[simp] theorem Core.retire_lastFired (k : Core) (w : BitVec 128) (t : Bool) (a : VAddr) (u : Bool) : (k.retire w t a u).lastFired = k.lastFired := by simp [Core.retire]
@[simp] theorem Core.retire_sendBuffer (k : Core) (w : BitVec 128) (t : Bool) (a : VAddr) (u : Bool) : (k.retire w t a u).sendBuffer = k.sendBuffer := by simp [Core.retire]
@[simp] theorem Core.retire_stores (k : Core) (w : BitVec 128) (t : Bool) (a : VAddr) (u : Bool) : (k.retire w t a u).stores = k.stores := by simp [Core.retire]
@[simp] theorem Core.retire_loads (k : Core) (w : BitVec 128) (t : Bool) (a : VAddr) (u : Bool) : (k.retire w t a u).loads = k.loads := by simp [Core.retire]
@[simp] theorem Core.retire_seen (k : Core) (w : BitVec 128) (t : Bool) (a : VAddr) (u : Bool) : (k.retire w t a u).seen = k.seen := by simp [Core.retire]
@[simp] theorem Core.retire_pending (k : Core) (w : BitVec 128) (t : Bool) (a : VAddr) (u : Bool) : (k.retire w t a u).pending = k.pending := by simp [Core.retire]
@[simp] theorem Core.retire_events (k : Core) (w : BitVec 128) (t : Bool) (a : VAddr) (u : Bool) : (k.retire w t a u).events = k.events := by simp [Core.retire]
@[simp] theorem Core.retire_preempt (k : Core) (w : BitVec 128) (t : Bool) (a : VAddr) (u : Bool) : (k.retire w t a u).preempt = k.preempt := by simp [Core.retire]
@[simp] theorem Core.retire_watchdog (k : Core) (w : BitVec 128) (t : Bool) (a : VAddr) (u : Bool) : (k.retire w t a u).watchdog = k.watchdog := by simp [Core.retire]
@[simp] theorem Core.retire_sigEn (k : Core) (w : BitVec 128) (t : Bool) (a : VAddr) (u : Bool) : (k.retire w t a u).sigEn = k.sigEn := by simp [Core.retire]
@[simp] theorem Core.retire_sigWait (k : Core) (w : BitVec 128) (t : Bool) (a : VAddr) (u : Bool) : (k.retire w t a u).sigWait = k.sigWait := by simp [Core.retire]
@[simp] theorem Core.retire_parked (k : Core) (w : BitVec 128) (t : Bool) (a : VAddr) (u : Bool) : (k.retire w t a u).parked = k.parked := by simp [Core.retire]
@[simp] theorem Core.retire_halted (k : Core) (w : BitVec 128) (t : Bool) (a : VAddr) (u : Bool) : (k.retire w t a u).halted = k.halted := by simp [Core.retire]
@[simp] theorem Core.retire_stale (k : Core) (w : BitVec 128) (t : Bool) (a : VAddr) (u : Bool) : (k.retire w t a u).stale = k.stale := by simp [Core.retire]
@[simp] theorem Core.retire_running (k : Core) (w : BitVec 128) (t : Bool) (a : VAddr) (u : Bool) : (k.retire w t a u).running = k.running := by simp [Core.retire]
@[simp] theorem Core.retire_saving (k : Core) (w : BitVec 128) (t : Bool) (a : VAddr) (u : Bool) : (k.retire w t a u).saving = k.saving := by simp [Core.retire]
@[simp] theorem Core.retire_handling (k : Core) (w : BitVec 128) (t : Bool) (a : VAddr) (u : Bool) : (k.retire w t a u).handling = k.handling := by simp [Core.retire]
@[simp] theorem Core.retire_lateD (k : Core) (w : BitVec 128) (t : Bool) (a : VAddr) (u : Bool) : (k.retire w t a u).lateD = k.lateD := by simp [Core.retire]

/-! ### Taking a trap -/

@[simp] theorem Core.enterTrap_x (k : Core) (c t : Word) (d : Bool) (v : VAddr) : (k.enterTrap c t d v).x = k.x := rfl
@[simp] theorem Core.enterTrap_v (k : Core) (c t : Word) (d : Bool) (v : VAddr) : (k.enterTrap c t d v).v = k.v := rfl
@[simp] theorem Core.enterTrap_fcsr (k : Core) (c t : Word) (d : Bool) (v : VAddr) : (k.enterTrap c t d v).fcsr = k.fcsr := rfl
@[simp] theorem Core.enterTrap_srseed (k : Core) (c t : Word) (d : Bool) (v : VAddr) : (k.enterTrap c t d v).srseed = k.srseed := rfl
@[simp] theorem Core.enterTrap_srcnt (k : Core) (c t : Word) (d : Bool) (v : VAddr) : (k.enterTrap c t d v).srcnt = k.srcnt := rfl
@[simp] theorem Core.enterTrap_quant (k : Core) (c t : Word) (d : Bool) (v : VAddr) : (k.enterTrap c t d v).quant = k.quant := rfl
@[simp] theorem Core.enterTrap_sigbase (k : Core) (c t : Word) (d : Bool) (v : VAddr) : (k.enterTrap c t d v).sigbase = k.sigbase := rfl
@[simp] theorem Core.enterTrap_cregh (k : Core) (c t : Word) (d : Bool) (v : VAddr) : (k.enterTrap c t d v).cregh = k.cregh := rfl
@[simp] theorem Core.enterTrap_retired (k : Core) (c t : Word) (d : Bool) (v : VAddr) : (k.enterTrap c t d v).retired = k.retired := rfl
@[simp] theorem Core.enterTrap_firing (k : Core) (c t : Word) (d : Bool) (v : VAddr) : (k.enterTrap c t d v).firing = k.firing := rfl
@[simp] theorem Core.enterTrap_lastFired (k : Core) (c t : Word) (d : Bool) (v : VAddr) : (k.enterTrap c t d v).lastFired = k.lastFired := rfl
@[simp] theorem Core.enterTrap_sendBuffer (k : Core) (c t : Word) (d : Bool) (v : VAddr) : (k.enterTrap c t d v).sendBuffer = k.sendBuffer := rfl
@[simp] theorem Core.enterTrap_stores (k : Core) (c t : Word) (d : Bool) (v : VAddr) : (k.enterTrap c t d v).stores = k.stores := rfl
@[simp] theorem Core.enterTrap_loads (k : Core) (c t : Word) (d : Bool) (v : VAddr) : (k.enterTrap c t d v).loads = k.loads := rfl
@[simp] theorem Core.enterTrap_seen (k : Core) (c t : Word) (d : Bool) (v : VAddr) : (k.enterTrap c t d v).seen = k.seen := rfl
@[simp] theorem Core.enterTrap_pending (k : Core) (c t : Word) (d : Bool) (v : VAddr) : (k.enterTrap c t d v).pending = k.pending := rfl
@[simp] theorem Core.enterTrap_events (k : Core) (c t : Word) (d : Bool) (v : VAddr) : (k.enterTrap c t d v).events = k.events := rfl
@[simp] theorem Core.enterTrap_preempt (k : Core) (c t : Word) (d : Bool) (v : VAddr) : (k.enterTrap c t d v).preempt = k.preempt := rfl
@[simp] theorem Core.enterTrap_watchdog (k : Core) (c t : Word) (d : Bool) (v : VAddr) : (k.enterTrap c t d v).watchdog = k.watchdog := rfl
@[simp] theorem Core.enterTrap_sigEn (k : Core) (c t : Word) (d : Bool) (v : VAddr) : (k.enterTrap c t d v).sigEn = k.sigEn := rfl
@[simp] theorem Core.enterTrap_sigWait (k : Core) (c t : Word) (d : Bool) (v : VAddr) : (k.enterTrap c t d v).sigWait = k.sigWait := rfl
@[simp] theorem Core.enterTrap_fold (k : Core) (c t : Word) (d : Bool) (v : VAddr) : (k.enterTrap c t d v).fold = k.fold := rfl
@[simp] theorem Core.enterTrap_parked (k : Core) (c t : Word) (d : Bool) (v : VAddr) : (k.enterTrap c t d v).parked = k.parked := rfl
@[simp] theorem Core.enterTrap_halted (k : Core) (c t : Word) (d : Bool) (v : VAddr) : (k.enterTrap c t d v).halted = k.halted := rfl
@[simp] theorem Core.enterTrap_stale (k : Core) (c t : Word) (d : Bool) (v : VAddr) : (k.enterTrap c t d v).stale = k.stale := rfl
@[simp] theorem Core.enterTrap_running (k : Core) (c t : Word) (d : Bool) (v : VAddr) : (k.enterTrap c t d v).running = k.running := rfl
@[simp] theorem Core.enterTrap_saving (k : Core) (c t : Word) (d : Bool) (v : VAddr) : (k.enterTrap c t d v).saving = k.saving := rfl
@[simp] theorem Core.enterTrap_member (k : Core) (c t : Word) (d : Bool) (v : VAddr) : (k.enterTrap c t d v).member = k.member := rfl
@[simp] theorem Core.enterTrap_handling (k : Core) (c t : Word) (d : Bool) (v : VAddr) : (k.enterTrap c t d v).handling = k.handling := rfl
@[simp] theorem Core.enterTrap_lateD (k : Core) (c t : Word) (d : Bool) (v : VAddr) : (k.enterTrap c t d v).lateD = k.lateD := rfl

/-! ### The chain loaded back -/

@[simp] theorem Core.restoreChain_x (k : Core)  : (k.restoreChain ).x = k.x := rfl
@[simp] theorem Core.restoreChain_v (k : Core)  : (k.restoreChain ).v = k.v := rfl
@[simp] theorem Core.restoreChain_fcsr (k : Core)  : (k.restoreChain ).fcsr = k.fcsr := rfl
@[simp] theorem Core.restoreChain_srseed (k : Core)  : (k.restoreChain ).srseed = k.srseed := rfl
@[simp] theorem Core.restoreChain_srcnt (k : Core)  : (k.restoreChain ).srcnt = k.srcnt := rfl
@[simp] theorem Core.restoreChain_quant (k : Core)  : (k.restoreChain ).quant = k.quant := rfl
@[simp] theorem Core.restoreChain_sigbase (k : Core)  : (k.restoreChain ).sigbase = k.sigbase := rfl
@[simp] theorem Core.restoreChain_cregh (k : Core)  : (k.restoreChain ).cregh = k.cregh := rfl
@[simp] theorem Core.restoreChain_retired (k : Core)  : (k.restoreChain ).retired = k.retired := rfl
@[simp] theorem Core.restoreChain_tcause (k : Core)  : (k.restoreChain ).tcause = k.tcause := rfl
@[simp] theorem Core.restoreChain_tval (k : Core)  : (k.restoreChain ).tval = k.tval := rfl
@[simp] theorem Core.restoreChain_tepc (k : Core)  : (k.restoreChain ).tepc = k.tepc := rfl
@[simp] theorem Core.restoreChain_tepc1 (k : Core)  : (k.restoreChain ).tepc1 = k.tepc1 := rfl
@[simp] theorem Core.restoreChain_tepc2 (k : Core)  : (k.restoreChain ).tepc2 = k.tepc2 := rfl
@[simp] theorem Core.restoreChain_tepcn (k : Core)  : (k.restoreChain ).tepcn = k.tepcn := rfl
@[simp] theorem Core.restoreChain_tstat (k : Core)  : (k.restoreChain ).tstat = k.tstat := rfl
@[simp] theorem Core.restoreChain_firing (k : Core)  : (k.restoreChain ).firing = k.firing := rfl
@[simp] theorem Core.restoreChain_lastFired (k : Core)  : (k.restoreChain ).lastFired = k.lastFired := rfl
@[simp] theorem Core.restoreChain_sendBuffer (k : Core)  : (k.restoreChain ).sendBuffer = k.sendBuffer := rfl
@[simp] theorem Core.restoreChain_stores (k : Core)  : (k.restoreChain ).stores = k.stores := rfl
@[simp] theorem Core.restoreChain_loads (k : Core)  : (k.restoreChain ).loads = k.loads := rfl
@[simp] theorem Core.restoreChain_seen (k : Core)  : (k.restoreChain ).seen = k.seen := rfl
@[simp] theorem Core.restoreChain_pending (k : Core)  : (k.restoreChain ).pending = k.pending := rfl
@[simp] theorem Core.restoreChain_events (k : Core)  : (k.restoreChain ).events = k.events := rfl
@[simp] theorem Core.restoreChain_preempt (k : Core)  : (k.restoreChain ).preempt = k.preempt := rfl
@[simp] theorem Core.restoreChain_watchdog (k : Core)  : (k.restoreChain ).watchdog = k.watchdog := rfl
@[simp] theorem Core.restoreChain_sigEn (k : Core)  : (k.restoreChain ).sigEn = k.sigEn := rfl
@[simp] theorem Core.restoreChain_sigWait (k : Core)  : (k.restoreChain ).sigWait = k.sigWait := rfl
@[simp] theorem Core.restoreChain_fold (k : Core)  : (k.restoreChain ).fold = k.fold := rfl
@[simp] theorem Core.restoreChain_member (k : Core)  : (k.restoreChain ).member = k.member := rfl
@[simp] theorem Core.restoreChain_parked (k : Core)  : (k.restoreChain ).parked = k.parked := rfl
@[simp] theorem Core.restoreChain_halted (k : Core)  : (k.restoreChain ).halted = k.halted := rfl
@[simp] theorem Core.restoreChain_stale (k : Core)  : (k.restoreChain ).stale = k.stale := rfl
@[simp] theorem Core.restoreChain_running (k : Core)  : (k.restoreChain ).running = k.running := rfl
@[simp] theorem Core.restoreChain_fragMark (k : Core)  : (k.restoreChain ).fragMark = k.fragMark := rfl
@[simp] theorem Core.restoreChain_saving (k : Core)  : (k.restoreChain ).saving = k.saving := rfl
@[simp] theorem Core.restoreChain_handling (k : Core)  : (k.restoreChain ).handling = k.handling := rfl
@[simp] theorem Core.restoreChain_lateD (k : Core)  : (k.restoreChain ).lateD = k.lateD := rfl

/-! ### Returning from a trap -/

@[simp] theorem Core.leaveTrap_x (k : Core) : k.leaveTrap.x = k.lateX := by unfold Core.leaveTrap; split <;> rfl
/-- Where no boundary has given anything meanwhile, the registers stay. -/
theorem Core.lateX_nil (k : Core) (h : k.lateD = []) : k.lateX = k.x := by unfold Core.lateX; rw [h]; rfl
@[simp] theorem Core.leaveTrap_v (k : Core)  : (k.leaveTrap ).v = k.v := by unfold Core.leaveTrap; split <;> rfl
@[simp] theorem Core.leaveTrap_fcsr (k : Core)  : (k.leaveTrap ).fcsr = k.fcsr := by unfold Core.leaveTrap; split <;> rfl
@[simp] theorem Core.leaveTrap_srseed (k : Core)  : (k.leaveTrap ).srseed = k.srseed := by unfold Core.leaveTrap; split <;> rfl
@[simp] theorem Core.leaveTrap_srcnt (k : Core)  : (k.leaveTrap ).srcnt = k.srcnt := by unfold Core.leaveTrap; split <;> rfl
@[simp] theorem Core.leaveTrap_quant (k : Core)  : (k.leaveTrap ).quant = k.quant := by unfold Core.leaveTrap; split <;> rfl
@[simp] theorem Core.leaveTrap_sigbase (k : Core)  : (k.leaveTrap ).sigbase = k.sigbase := by unfold Core.leaveTrap; split <;> rfl
@[simp] theorem Core.leaveTrap_cregh (k : Core)  : (k.leaveTrap ).cregh = k.cregh := by unfold Core.leaveTrap; split <;> rfl
@[simp] theorem Core.leaveTrap_retired (k : Core)  : (k.leaveTrap ).retired = k.retired := by unfold Core.leaveTrap; split <;> rfl
@[simp] theorem Core.leaveTrap_tcause (k : Core)  : (k.leaveTrap ).tcause = k.tcause := by unfold Core.leaveTrap; split <;> rfl
@[simp] theorem Core.leaveTrap_tval (k : Core)  : (k.leaveTrap ).tval = k.tval := by unfold Core.leaveTrap; split <;> rfl
@[simp] theorem Core.leaveTrap_tepc (k : Core)  : (k.leaveTrap ).tepc = k.tepc := by unfold Core.leaveTrap; split <;> rfl
@[simp] theorem Core.leaveTrap_tepc1 (k : Core)  : (k.leaveTrap ).tepc1 = k.tepc1 := by unfold Core.leaveTrap; split <;> rfl
@[simp] theorem Core.leaveTrap_tepc2 (k : Core)  : (k.leaveTrap ).tepc2 = k.tepc2 := by unfold Core.leaveTrap; split <;> rfl
@[simp] theorem Core.leaveTrap_tepcn (k : Core)  : (k.leaveTrap ).tepcn = k.tepcn := by unfold Core.leaveTrap; split <;> rfl
@[simp] theorem Core.leaveTrap_firing (k : Core)  : (k.leaveTrap ).firing = k.firing := by unfold Core.leaveTrap; split <;> rfl
@[simp] theorem Core.leaveTrap_lastFired (k : Core)  : (k.leaveTrap ).lastFired = k.lastFired := by unfold Core.leaveTrap; split <;> rfl
@[simp] theorem Core.leaveTrap_sendBuffer (k : Core)  : (k.leaveTrap ).sendBuffer = k.sendBuffer := by unfold Core.leaveTrap; split <;> rfl
@[simp] theorem Core.leaveTrap_stores (k : Core)  : (k.leaveTrap ).stores = k.stores := by unfold Core.leaveTrap; split <;> rfl
@[simp] theorem Core.leaveTrap_loads (k : Core)  : (k.leaveTrap ).loads = k.loads := by unfold Core.leaveTrap; split <;> rfl
@[simp] theorem Core.leaveTrap_seen (k : Core)  : (k.leaveTrap ).seen = k.seen := by unfold Core.leaveTrap; split <;> rfl
@[simp] theorem Core.leaveTrap_pending (k : Core)  : (k.leaveTrap ).pending = k.pending := by unfold Core.leaveTrap; split <;> rfl
@[simp] theorem Core.leaveTrap_events (k : Core)  : (k.leaveTrap ).events = k.events := by unfold Core.leaveTrap; split <;> rfl
@[simp] theorem Core.leaveTrap_preempt (k : Core)  : (k.leaveTrap ).preempt = k.preempt := by unfold Core.leaveTrap; split <;> rfl
@[simp] theorem Core.leaveTrap_watchdog (k : Core)  : (k.leaveTrap ).watchdog = k.watchdog := by unfold Core.leaveTrap; split <;> rfl
@[simp] theorem Core.leaveTrap_sigEn (k : Core)  : (k.leaveTrap ).sigEn = k.sigEn := by unfold Core.leaveTrap; split <;> rfl
@[simp] theorem Core.leaveTrap_sigWait (k : Core)  : (k.leaveTrap ).sigWait = k.sigWait := by unfold Core.leaveTrap; split <;> rfl
@[simp] theorem Core.leaveTrap_fold (k : Core)  : (k.leaveTrap ).fold = k.fold := by unfold Core.leaveTrap; split <;> rfl
@[simp] theorem Core.leaveTrap_member (k : Core)  : (k.leaveTrap ).member = k.member := by unfold Core.leaveTrap; split <;> rfl
@[simp] theorem Core.leaveTrap_parked (k : Core)  : (k.leaveTrap ).parked = k.parked := by unfold Core.leaveTrap; split <;> rfl
@[simp] theorem Core.leaveTrap_halted (k : Core)  : (k.leaveTrap ).halted = k.halted := by unfold Core.leaveTrap; split <;> rfl
@[simp] theorem Core.leaveTrap_stale (k : Core)  : (k.leaveTrap ).stale = k.stale := by unfold Core.leaveTrap; split <;> rfl
@[simp] theorem Core.leaveTrap_fragMark (k : Core)  : (k.leaveTrap ).fragMark = k.fragMark := by unfold Core.leaveTrap; split <;> rfl
@[simp] theorem Core.leaveTrap_saving (k : Core)  : (k.leaveTrap ).saving = k.saving := by unfold Core.leaveTrap; split <;> rfl
@[simp] theorem Core.leaveTrap_handling (k : Core) : k.leaveTrap.handling = false := by unfold Core.leaveTrap; split <;> rfl
@[simp] theorem Core.leaveTrap_lateD (k : Core) : k.leaveTrap.lateD = [] := by unfold Core.leaveTrap; split <;> rfl

end Sys2Proof.Machine
end

