-- ==== Sys2Proof/Laws/Ops.lean ====
section
/-! SUPPORT. What each shared operation does, said once: reading back cells, contexts and cores, registers, retirement, and the
ends of an instruction. -/

namespace Sys2Proof.Machine

set_option Elab.async false

/-! ### Cells, contexts and cores -/

@[simp] theorem State.cellOf_setCell_same (s : State) (n : Nat) (x : Cell) : (s.setCell n x).cellOf n = x := by
  simp [State.cellOf, State.setCell]

theorem State.cellOf_setCell_other (s : State) (n m : Nat) (x : Cell) (h : n ≠ m) : (s.setCell n x).cellOf m = s.cellOf m :=
  tget_tset_other _ _ _ _ _ h

@[simp] theorem State.ctxOf_setCtx_same (s : State) (n : Nat) (x : CellCtx) : (s.setCtx n x).ctxOf n = x := by
  simp [State.ctxOf, State.setCtx]

theorem State.cellOf_setCtx_other (s : State) (n m : Nat) (x : CellCtx) (h : n ≠ m) : (s.setCtx n x).cellOf m = s.cellOf m :=
  s.cellOf_setCell_other n m _ h

theorem State.ctxOf_setCtx_other (s : State) (n m : Nat) (x : CellCtx) (h : n ≠ m) : (s.setCtx n x).ctxOf m = s.ctxOf m :=
  congrArg Cell.ctx (s.cellOf_setCtx_other n m x h)

@[simp] theorem State.ctxOf_updCtx_same (s : State) (n : Nat) (f : CellCtx → CellCtx) : (s.updCtx n f).ctxOf n = f (s.ctxOf n) := by
  simp [State.updCtx]

theorem State.cellOf_updCtx_other (s : State) (n m : Nat) (f : CellCtx → CellCtx) (h : n ≠ m) :
    (s.updCtx n f).cellOf m = s.cellOf m :=
  s.cellOf_setCtx_other n m _ h

theorem State.ctxOf_updCtx_other (s : State) (n m : Nat) (f : CellCtx → CellCtx) (h : n ≠ m) :
    (s.updCtx n f).ctxOf m = s.ctxOf m :=
  s.ctxOf_setCtx_other n m _ h

/-- A change of a context leaves the rest of the cell alone. -/
theorem State.cellOf_setCtx_same (s : State) (n : Nat) (x : CellCtx) :
    { (s.setCtx n x).cellOf n with ctx := s.ctxOf n } = s.cellOf n := by
  simp [State.setCtx, State.ctxOf]

@[simp] theorem CellCtx.core_setCore_same (x : CellCtx) (r : Role) (k : Core) (h : r ≠ .s) : (x.setCore r k).core r = k := by
  cases r <;> first | rfl | exact absurd rfl h

theorem CellCtx.core_setCore_other (x : CellCtx) (r q : Role) (k : Core) (h : r ≠ q) : (x.setCore r k).core q = x.core q := by
  cases r <;> cases q <;> first | rfl | exact absurd rfl h

@[simp] theorem State.coreOf_setCore_same (s : State) (p : CoreRef) (k : Core) : (s.setCore p k).coreOf p = k := by
  obtain ⟨c, r⟩ := p
  cases r <;> simp [State.setCore, State.coreOf, CellCtx.setCore, CellCtx.core]

theorem State.coreOf_user (s : State) (p : CoreRef) (h : p.role ≠ .s) : s.coreOf p = (s.ctxOf p.cell).core p.role := by
  obtain ⟨c, r⟩ := p
  cases r <;> first | rfl | exact absurd rfl h

theorem State.setCore_user (s : State) (p : CoreRef) (k : Core) (h : p.role ≠ .s) :
    s.setCore p k = s.updCtx p.cell (·.setCore p.role k) := by
  obtain ⟨c, r⟩ := p
  cases r <;> first | rfl | exact absurd rfl h

theorem State.coreOf_super (s : State) (p : CoreRef) (h : p.role = .s) : s.coreOf p = tget s.supervisors {} (p.cell / 16) := by
  obtain ⟨c, r⟩ := p
  subst h; rfl

theorem State.setCore_super (s : State) (p : CoreRef) (k : Core) (h : p.role = .s) :
    s.setCore p k = { s with supervisors := tset s.supervisors (p.cell / 16) k } := by
  obtain ⟨c, r⟩ := p
  subst h; rfl

theorem State.coreOf_setCore_other (s : State) (p q : CoreRef) (k : Core) (h : ¬ sameCore p q) :
    (s.setCore p k).coreOf q = s.coreOf q := by
  by_cases hp : p.role = .s
  · rw [s.setCore_super p k hp]
    by_cases hq : q.role = .s
    · rw [State.coreOf_super _ q hq, State.coreOf_super _ q hq]
      refine tget_tset_other _ _ _ _ _ fun he => h ⟨by rw [hp, hq], by rw [if_pos hp]; exact he⟩
    · rw [State.coreOf_user _ q hq, State.coreOf_user _ q hq]; rfl
  · rw [s.setCore_user p k hp]
    by_cases hq : q.role = .s
    · rw [State.coreOf_super _ q hq, State.coreOf_super _ q hq]; rfl
    · rw [State.coreOf_user _ q hq, State.coreOf_user _ q hq]
      by_cases hc : p.cell = q.cell
      · rw [hc, State.ctxOf_updCtx_same]
        refine CellCtx.core_setCore_other _ _ _ _ fun he => h ⟨he, by rw [if_neg hp]; exact hc⟩
      · rw [State.ctxOf_updCtx_other _ _ _ _ hc]

@[simp] theorem State.coreOf_updCore_same (s : State) (p : CoreRef) (f : Core → Core) : (s.updCore p f).coreOf p = f (s.coreOf p) := by
  simp [State.updCore]

theorem State.coreOf_updCore_other (s : State) (p q : CoreRef) (f : Core → Core) (h : ¬ sameCore p q) :
    (s.updCore p f).coreOf q = s.coreOf q :=
  s.coreOf_setCore_other p q _ h

@[simp] theorem State.me_updMe (s : State) (f : Core → Core) : (s.updMe f).me = f s.me := by
  simp [State.me, State.updMe]

theorem State.coreOf_updMe_other (s : State) (q : CoreRef) (f : Core → Core) (h : ¬ sameCore s.cur.core q) :
    (s.updMe f).coreOf q = s.coreOf q :=
  s.coreOf_updCore_other _ q f h

end Sys2Proof.Machine

namespace Sys2Proof

set_option Elab.async false

open Sys2Proof.Machine

/-! ### Popping, writing and retiring -/

theorem Machine.CellCtx.setCore_cores (x : CellCtx) (r : Role) (k : Core) :
    { x.setCore r k with coreA := x.coreA, coreX := x.coreX, coreC := x.coreC, queues := x.queues } = x := by
  cases r <;> rfl

/-- A change of the core whose turn it is keeps the frame. -/
theorem CoreAndQueues.updMe (s : State) (f : Core → Core) : CoreAndQueues s (s.updMe f) := by
  by_cases h : s.cur.core.role = .s
  · have e : s.updMe f = { s with supervisors := tset s.supervisors (s.cur.core.cell / 16) (f s.me) } := s.setCore_super _ _ h
    exact ⟨by rw [e], fun n _ => by rw [e]; rfl, by rw [e]; rfl, by rw [e]; rfl,
      fun q hq => s.coreOf_updMe_other q f hq⟩
  · have e : s.updMe f = s.updCtx s.myCell (·.setCore s.cur.core.role (f s.me)) := s.setCore_user _ _ h
    refine ⟨by rw [e]; rfl, fun n hn => by rw [e]; exact s.cellOf_updCtx_other _ _ _ (Ne.symm hn), ?_, ?_,
      fun q hq => s.coreOf_updMe_other q f hq⟩
    · rw [e]; exact s.cellOf_setCtx_same _ _
    · have : (s.updMe f).myCtx = s.myCtx.setCore s.cur.core.role (f s.me) := by
        rw [e]; exact s.ctxOf_updCtx_same s.myCell _
      rw [this]; exact CellCtx.setCore_cores _ _ _

theorem CoreAndQueues.refl (s : State) : CoreAndQueues s s := ⟨rfl, fun _ _ => rfl, rfl, rfl, fun _ _ => rfl⟩

theorem CoreAndQueues.cur {s t : State} (h : CoreAndQueues s t) : t.cur = s.cur := by
  have := congrArg State.cur h.device; exact this

theorem CoreAndQueues.trans {s t u : State} (h : CoreAndQueues s t) (g : CoreAndQueues t u) : CoreAndQueues s u := by
  have hc := h.cur
  have hm : t.myCell = s.myCell := congrArg (fun c : Current => c.core.cell) hc
  refine ⟨?_, fun n hn => (g.cells n (hm ▸ hn)).trans (h.cells n hn), ?_, ?_, fun q hq => (g.cores q (hc ▸ hq)).trans (h.cores q hq)⟩
  · have a := h.device; have b := g.device
    rw [← b] at a; exact a
  · have a := h.cell; have b := g.cell
    rw [hm] at b; rw [← b] at a; exact a
  · have a := h.context; have b := g.context
    rw [← b] at a; exact a

@[simp] theorem Machine.State.myCtx_updMyCtx (s : State) (f : CellCtx → CellCtx) : (s.updMyCtx f).myCtx = f s.myCtx := s.ctxOf_updCtx_same s.myCell f

/-- A change of a cell's context state that leaves its cores alone leaves every core alone. -/
theorem Machine.State.coreOf_updMyCtx (s : State) (f : CellCtx → CellCtx) (hf : ∀ r, (f s.myCtx).core r = s.myCtx.core r) (p : CoreRef) :
    (s.updMyCtx f).coreOf p = s.coreOf p := by
  by_cases hp : p.role = .s
  · rw [State.coreOf_super _ p hp, State.coreOf_super _ p hp]; rfl
  · rw [State.coreOf_user _ p hp, State.coreOf_user _ p hp]
    by_cases hc : s.myCell = p.cell
    · rw [← hc]; exact (congrArg (CellCtx.core · p.role) (s.myCtx_updMyCtx f)).trans (hf p.role)
    · rw [State.updMyCtx, s.ctxOf_updCtx_other _ _ _ hc]

/-- What a change of one queue of the own cell does. -/
theorem updQueue_spec (s : State) (k : Nat) (f : List QEntry → List QEntry) (t : State)
    (ht : t = s.updMyCtx fun x => { x with queues := tupd x.queues [] k f }) :
    CoreAndQueues s t ∧ (∀ p, t.coreOf p = s.coreOf p) ∧ (∀ q, t.queue q = if k = q then f (s.queue q) else s.queue q) := by
  subst ht
  have hk := s.coreOf_updMyCtx (fun x => { x with queues := tupd x.queues [] k f }) (fun r => by cases r <;> rfl)
  refine ⟨⟨rfl, fun n hn => s.cellOf_updCtx_other _ _ _ (Ne.symm hn), s.cellOf_setCtx_same _ _, ?_, fun q _ => hk q⟩, hk, fun q => ?_⟩
  · show CellCtx.mk .. = _
    simp only [State.myCtx_updMyCtx]
  · show tget (State.myCtx _).queues [] q = _
    rw [State.myCtx_updMyCtx]
    show tget (tupd s.myCtx.queues [] k f) [] q = _
    rw [tget_tupd]
    by_cases h : k = q
    · subst h; rw [if_pos rfl, if_pos rfl]; rfl
    · rw [if_neg h, if_neg h]; rfl

/-- Popping keeps the frame, leaves every core alone, and drops one entry of a queue for every source that names it. -/
theorem popAll_spec (srcs : List Reg) : ∀ s : State, CoreAndQueues s (s.popAll srcs) ∧ (∀ p, (s.popAll srcs).coreOf p = s.coreOf p) ∧
    (∀ q, (s.popAll srcs).queue q = (s.queue q).drop (srcs.filter fun r => decide (r.toNat = 32 + q)).length) := by
  induction srcs with
  | nil => intro s; exact ⟨.refl s, fun _ => rfl, fun _ => rfl⟩
  | cons r rs ih =>
    intro s
    by_cases hq : isQueue r = true
    · obtain ⟨f0, k0, d0⟩ := updQueue_spec s (queueOf r) (·.drop 1) _ rfl
      obtain ⟨f, k, d⟩ := ih (s.updMyCtx fun x => { x with queues := tupd x.queues [] (queueOf r) (·.drop 1) })
      have e : s.popAll (r :: rs) = (s.updMyCtx fun x => { x with queues := tupd x.queues [] (queueOf r) (·.drop 1) }).popAll rs := by
        simp only [State.popAll, List.foldl_cons, hq, if_true]
      rw [e]
      refine ⟨f0.trans f, fun p => (k p).trans (k0 p), fun q => ?_⟩
      rw [d q, d0 q]
      have hq' : 32 ≤ r.toNat := by simpa [isQueue] using hq
      by_cases hn : r.toNat = 32 + q
      · have : queueOf r = q := by unfold queueOf; omega
        rw [if_pos this, List.drop_drop, List.filter_cons_of_pos (by simpa using hn), List.length_cons, Nat.add_comm 1]
      · have : queueOf r ≠ q := by unfold queueOf; omega
        rw [if_neg this, List.filter_cons_of_neg (by simpa using hn)]
    · obtain ⟨f, k, d⟩ := ih s
      have e : s.popAll (r :: rs) = s.popAll rs := by
        simp only [State.popAll, List.foldl_cons, hq]; rfl
      rw [e]
      have hq' : ¬ 32 ≤ r.toNat := by simpa [isQueue] using hq
      exact ⟨f, k, fun q => by rw [d q, List.filter_cons_of_neg (by simp; omega)]⟩

/-- A change of the own core leaves the queues alone. -/
@[simp] theorem Machine.State.queue_updMe (s : State) (f : Core → Core) (q : Nat) : (s.updMe f).queue q = s.queue q := by
  show tget (State.myCtx _).queues [] q = tget s.myCtx.queues [] q
  by_cases h : s.cur.core.role = .s
  · rw [show s.updMe f = _ from s.setCore_super _ _ h]; rfl
  · rw [show s.updMe f = s.updMyCtx (·.setCore s.cur.core.role (f s.me)) from s.setCore_user _ _ h, State.myCtx_updMyCtx]
    cases s.cur.core.role <;> rfl

/-- Writing a result: a register, or one entry of a queue. -/
theorem writeD_spec (s : State) (d : Reg) (v : Word) : CoreAndQueues s (s.writeD d v) ∧
    (s.writeD d v).me = (if isQueue d then s.me else s.me.setX d.toNat v) ∧
    (∀ q, (s.writeD d v).queue q = s.queue q ++ (if d.toNat = 32 + q then [{ value := v, after := s.past s.cur.core }] else [])) := by
  by_cases hq : isQueue d = true
  · have e : s.writeD d v = s.updMyCtx fun x => { x with queues := tupd x.queues [] (queueOf d) (· ++ [{ value := v, after := s.past s.cur.core }]) } := by
      unfold State.writeD; rw [if_pos hq]
    obtain ⟨f, k, q0⟩ := updQueue_spec s (queueOf d) (· ++ [{ value := v, after := s.past s.cur.core }]) _ e
    refine ⟨f, ?_, fun q => ?_⟩
    · rw [if_pos hq]; exact (congrArg _ (congrArg Current.core f.cur)).trans (k s.cur.core)
    · rw [q0 q]
      have hq' : 32 ≤ d.toNat := by simpa [isQueue] using hq
      by_cases hn : d.toNat = 32 + q
      · rw [if_pos (by unfold queueOf; omega), if_pos hn]
      · rw [if_neg (by unfold queueOf; omega), if_neg hn, List.append_nil]
  · have e : s.writeD d v = s.updMe fun k => k.setX d.toNat v := by unfold State.writeD; rw [if_neg hq]
    have hq' : ¬ 32 ≤ d.toNat := by simpa [isQueue] using hq
    rw [e]
    refine ⟨.updMe s _, by rw [if_neg hq, State.me_updMe], fun q => ?_⟩
    rw [if_neg (by omega), List.append_nil]
    exact s.queue_updMe _ q

theorem foldHead_fold (k : Core) (w : BitVec 128) : k.foldHead w = { k with fold := (k.foldHead w).fold } := by
  unfold Core.foldHead; split <;> rfl

theorem countQuantum_member (k : Core) : k.countQuantum = { k with member := k.countQuantum.member } := by
  unfold Core.countQuantum; split <;> rfl

theorem countQuantum_fold (k : Core) (f : Option Fold) :
    ({ k with fold := f } : Core).countQuantum = { k.countQuantum with fold := f } := by
  unfold Core.countQuantum Core.trapMode; split <;> rfl

/-- A retirement in one record: what every core field becomes. -/
theorem retire_eq (k : Core) (w : BitVec 128) (taken : Bool) (target : VAddr) (annul : Bool) :
    k.retire w taken target annul = ({ k with fold := (k.foldHead w).fold, member := k.countQuantum.member, retired := k.retired + 1, fragMark := none } : Core).advance
      taken target annul := by
  unfold Core.retire
  rw [foldHead_fold k w, countQuantum_fold, countQuantum_member k]

/-- What retiring does to a core, also after a write of one x register. -/
theorem moves_retire (k : Core) (w : BitVec 128) (taken : Bool) (target : VAddr) (annul : Bool) (n : Nat) (v : Word) :
    Moves k (k.retire w taken target annul) w taken target annul ∧ Moves k ((k.setX n v).retire w taken target annul) w taken target annul := by
  rw [retire_eq, retire_eq]
  have h1 : ((k.setX n v).foldHead w).fold = (k.foldHead w).fold := by
    unfold Core.setX; split
    · rfl
    · unfold Core.foldHead Core.trapMode; dsimp only; split <;> rfl
  have h2 : (k.setX n v).countQuantum.member = k.countQuantum.member := by
    unfold Core.setX; split
    · rfl
    · unfold Core.countQuantum Core.trapMode; dsimp only; split <;> rfl
  have h3 : (k.setX n v).retired = k.retired := by unfold Core.setX; split <;> rfl
  rw [h1, h2, h3]
  refine ⟨⟨⟨rfl, rfl⟩, ⟨rfl, rfl, rfl⟩, ⟨rfl, rfl, rfl⟩, rfl, rfl, rfl, rfl, rfl⟩, ?_⟩
  unfold Core.setX
  split <;> exact ⟨⟨rfl, rfl⟩, ⟨rfl, rfl, rfl⟩, ⟨rfl, rfl, rfl⟩, rfl, rfl, rfl, rfl, rfl⟩

@[simp] theorem Machine.Core.xr_setX (k : Core) (n m : Nat) (v : Word) :
    (k.setX n v).xr m = if n = m ∧ m ≠ 0 then v else k.xr m := by
  unfold Core.setX Core.xr
  by_cases h0 : m = 0
  · subst h0; simp
  · by_cases hn : n = 0
    · subst hn; rw [if_pos rfl, if_neg h0, if_neg (by omega)]
    · rw [if_neg hn, if_neg h0, if_neg h0, tget_tset]
      by_cases h : n = m
      · rw [if_pos h, if_pos ⟨h, h0⟩]
      · rw [if_neg h, if_neg (by omega)]

@[simp] theorem Machine.Core.xr_retire (k : Core) (w : BitVec 128) (taken : Bool) (target : VAddr) (annul : Bool) (m : Nat) :
    (k.retire w taken target annul).xr m = k.xr m := by
  rw [retire_eq]; rfl

theorem me_of_cores {s t : State} (h : t.cur = s.cur) (k : ∀ p, t.coreOf p = s.coreOf p) : t.me = s.me :=
  (congrArg t.coreOf (congrArg Current.core h)).trans (k s.cur.core)

/-- The cells hold the same contexts. -/
theorem CoreAndQueues.residentIn {s t : State} (f : CoreAndQueues s t) (c : Nat) : t.residentIn c = s.residentIn c := by
  by_cases h : c = s.myCell
  · subst h; have := congrArg Cell.resident f.cell; exact this
  · exact congrArg Cell.resident (f.cells c h)

/-- The accesses not yet visible everywhere stay the same where the core's buffers and what it has collected do. -/
theorem CoreAndQueues.past {s t : State} (f : CoreAndQueues s t) {k : Core} (hk : t.coreOf s.cur.core = k)
    (h : k.stores = s.me.stores ∧ k.loads = s.me.loads ∧ k.seen = s.me.seen ∧ k.member.ops = s.me.member.ops) :
    t.past t.cur.core = s.past s.cur.core := by
  have hw : t.writes = s.writes := by have := congrArg State.writes f.device; exact this
  have hn : t.nis = s.nis := by have := congrArg State.nis f.device; exact this
  unfold State.past State.pastLocal State.remote Core.collected State.niOf
  simp only [f.cur, hk, hw, hn, f.residentIn, h]
  rfl

theorem past_popAll (s : State) (srcs : List Reg) : (s.popAll srcs).past (s.popAll srcs).cur.core = s.past s.cur.core := by
  obtain ⟨f, k, -⟩ := popAll_spec srcs s
  exact f.past (k s.cur.core) ⟨rfl, rfl, rfl, rfl⟩

theorem moves_setX (k : Core) (d : Reg) (v : Word) (w : BitVec 128) (taken : Bool) (target : VAddr) (annul : Bool) :
    Moves k ((if isQueue d then k else k.setX d.toNat v).retire w taken target annul) w taken target annul := by
  split
  · exact (moves_retire k w taken target annul 0 0).1
  · exact (moves_retire k w taken target annul d.toNat v).2

theorem xr_setD (k : Core) (d : Reg) (v : Word) (n : Nat) :
    (if isQueue d then k else k.setX d.toNat v).xr n = regAfter k (some (d, v)) n := by
  unfold regAfter
  by_cases hd : 32 ≤ d.toNat
  · rw [if_pos (by simpa [isQueue] using hd)]
    exact (if_neg (by omega)).symm
  · rw [if_neg (by simpa [isQueue] using hd), Machine.Core.xr_setX]
    by_cases h : d.toNat = n ∧ n ≠ 0
    · rw [if_pos h]; exact (if_pos ⟨h.1, h.2, by omega⟩).symm
    · rw [if_neg h]; exact (if_neg (by omega)).symm

/-- Popping the sources, changing the core, and retiring without a result. -/
theorem retiresFrom_none (s : State) (srcs : List Reg) (f : Core → Core) (taken : Bool) (target : VAddr) (annul : Bool)
    (hx : ∀ n, (f s.me).xr n = s.me.xr n) :
    RetiresFrom s (f s.me) (((s.popAll srcs).updMe f).retireWith taken target annul) srcs none taken target annul := by
  obtain ⟨g, k, d⟩ := popAll_spec srcs s
  have g2 := CoreAndQueues.updMe (s.popAll srcs) f
  have e : (((s.popAll srcs).updMe f).retireWith taken target annul).me = (f s.me).retire s.cur.word taken target annul := by
    rw [State.retireWith, State.me_updMe, State.me_updMe, me_of_cores g.cur k, (g.trans g2).cur]
  refine ⟨(g.trans g2).trans (.updMe _ _), ?_, fun n => ?_, fun q => ?_⟩
  · rw [e]; exact (moves_retire _ s.cur.word taken target annul 0 0).1
  · rw [e, Machine.Core.xr_retire]; exact hx n
  · rw [State.retireWith, State.queue_updMe, State.queue_updMe, d q]; exact (List.append_nil _).symm

/-- Popping the sources, changing the core, writing a result and retiring. -/
theorem retiresFrom_write (s : State) (srcs : List Reg) (f : Core → Core) (d : Reg) (v : Word) (taken : Bool) (target : VAddr) (annul : Bool)
    (hx : ∀ n, (f s.me).xr n = s.me.xr n) (hp : (f s.me).stores = s.me.stores ∧ (f s.me).loads = s.me.loads ∧ (f s.me).seen = s.me.seen ∧ (f s.me).member.ops = s.me.member.ops) :
    RetiresFrom s (f s.me) ((((s.popAll srcs).updMe f).writeD d v).retireWith taken target annul) srcs (some (d, v)) taken target annul := by
  obtain ⟨g, k, q⟩ := popAll_spec srcs s
  have g2 := CoreAndQueues.updMe (s.popAll srcs) f
  obtain ⟨g3, k3, q3⟩ := writeD_spec ((s.popAll srcs).updMe f) d v
  have hm : ((s.popAll srcs).updMe f).me = f s.me := by rw [State.me_updMe, me_of_cores g.cur k]
  have hpast : ((s.popAll srcs).updMe f).past ((s.popAll srcs).updMe f).cur.core = s.past s.cur.core := by
    exact (g.trans g2).past (by rw [← (g.trans g2).cur]; exact hm) hp
  have e : ((((s.popAll srcs).updMe f).writeD d v).retireWith taken target annul).me =
      (if isQueue d then f s.me else (f s.me).setX d.toNat v).retire s.cur.word taken target annul := by
    rw [State.retireWith, State.me_updMe, k3, hm, ((g.trans g2).trans g3).cur]
  refine ⟨((g.trans g2).trans g3).trans (.updMe _ _), ?_, fun n => ?_, fun n => ?_⟩
  · rw [e]; exact moves_setX _ d v _ _ _ _
  · rw [e, Machine.Core.xr_retire, xr_setD]
    unfold regAfter
    rw [hx n]
  · rw [State.retireWith, State.queue_updMe, q3 n, hpast, State.queue_updMe, q n]; rfl

/-- Popping the sources and retiring, taken or not. -/
theorem retires_retireWith (s : State) (srcs : List Reg) (taken : Bool) (target : VAddr) (annul : Bool) :
    Retires s ((s.popAll srcs).retireWith taken target annul) srcs none taken target annul := by
  obtain ⟨f, k, d⟩ := popAll_spec srcs s
  have hm := me_of_cores f.cur k
  have e : ((s.popAll srcs).retireWith taken target annul).me = s.me.retire s.cur.word taken target annul := by
    rw [State.retireWith, State.me_updMe, hm, f.cur]
  refine ⟨f.trans (.updMe _ _), ?_, fun n => ?_, fun q => ?_⟩
  · rw [e]; exact (moves_retire s.me s.cur.word taken target annul 0 0).1
  · rw [e, Machine.Core.xr_retire]; rfl
  · rw [State.retireWith, State.queue_updMe, d q]; exact (List.append_nil _).symm

/-- Popping the sources, writing a result and retiring. -/
theorem retires_finish (s : State) (srcs : List Reg) (d : Reg) (v : Word) :
    Retires s (s.finish srcs d v) srcs (some (d, v)) false 0 false := by
  obtain ⟨f, k, q⟩ := popAll_spec srcs s
  obtain ⟨f2, k2, q2⟩ := writeD_spec (s.popAll srcs) d v
  have ht : s.finish srcs d v = ((s.popAll srcs).writeD d v).updMe fun k => k.retire ((s.popAll srcs).writeD d v).cur.word false 0 false := rfl
  have e : (s.finish srcs d v).me = (if isQueue d then s.me else s.me.setX d.toNat v).retire s.cur.word false 0 false := by
    rw [ht, State.me_updMe, k2, me_of_cores f.cur k, f2.cur, f.cur]
  refine ⟨ht ▸ (f.trans f2).trans (.updMe _ _), ?_, fun n => ?_, fun n => ?_⟩
  · rw [e]; exact moves_setX _ d v _ _ _ _
  · rw [e, Machine.Core.xr_retire, xr_setD]
  · rw [ht, State.queue_updMe, q2 n, q n, past_popAll]; rfl

/-- Ready fields stop nothing. -/
theorem Ready.blocked {s : State} {srcs : List Reg} {dst : Option Reg} (h : Ready s srcs dst) : s.blocked srcs dst = none := by
  unfold State.blocked; rw [h.1]; simp [h.2]

/-- An instruction of one source answers its result. -/
theorem yields_alu1 {s : State} {d a : Reg} (h : Ready s [a] (some d)) (f : Word → Word) :
    ∃ t, alu1 s d a f = .next t ∧ Retires s t [a] (some (d, f (s.sval [] a))) false 0 false :=
  ⟨_, by unfold alu1; rw [h.blocked], retires_finish s _ _ _⟩

/-- An instruction of two sources answers its result. -/
theorem yields_alu2 {s : State} {d a b : Reg} (h : Ready s [a, b] (some d)) (f : Word → Word → Word) :
    ∃ t, alu2 s d a b f = .next t ∧ Retires s t [a, b] (some (d, f (s.sval [] a) (s.sval [a] b))) false 0 false :=
  ⟨_, by unfold alu2; rw [h.blocked], retires_finish s _ _ _⟩

/-- An instruction of three sources answers its result. -/
theorem yields_alu3 {s : State} {d a b c : Reg} (h : Ready s [a, b, c] (some d)) (f : Word → Word → Word → Word) :
    ∃ t, alu3 s d a b c f = .next t ∧
      Retires s t [a, b, c] (some (d, f (s.sval [] a) (s.sval [a] b) (s.sval [a, b] c))) false 0 false :=
  ⟨_, by unfold alu3; rw [h.blocked], retires_finish s _ _ _⟩

/-- An instruction without a source answers its result. -/
theorem yields_alu0 {s : State} {d : Reg} (h : Ready s [] (some d)) (v : Word) :
    ∃ t, alu0 s d v = .next t ∧ Retires s t [] (some (d, v)) false 0 false :=
  ⟨_, by unfold alu0; rw [h.blocked], retires_finish s _ _ _⟩

end Sys2Proof
end

