-- ==== Sys2Proof/Laws/PerInstr.lean ====
section
/-! SUPPORT. The family F of per-instruction lemmas: the word of a well-formed instruction decodes to it. -/

set_option linter.unusedSimpArgs false

namespace Sys2Proof.Laws

set_option Elab.async false

/-! ### Fields of joined words -/

theorem field_low {n m : Nat} (x : BitVec n) (y : BitVec m) (a k : Nat) (h : a + k ≤ m) :
    (x ++ y).extractLsb' a k = y.extractLsb' a k := by
  ext i hi
  simp only [BitVec.getElem_extractLsb', BitVec.getLsbD_append]
  have : a + i < m := by omega
  simp [this]

theorem field_high {n m : Nat} (x : BitVec n) (y : BitVec m) (a k : Nat) (h : m ≤ a) :
    (x ++ y).extractLsb' a k = x.extractLsb' (a - m) k := by
  ext i hi
  simp only [BitVec.getElem_extractLsb', BitVec.getLsbD_append]
  rw [if_neg (by omega)]
  congr 1; omega

theorem field_top {n m : Nat} (x : BitVec n) (y : BitVec m) : (x ++ y).extractLsb' m n = x := by
  rw [field_high x y m n (Nat.le_refl m), Nat.sub_self, BitVec.extractLsb'_eq_self]

theorem cut_append {n m : Nat} (x : BitVec n) (y : BitVec m) : (x ++ y).setWidth m = y := by
  ext i hi
  simp only [BitVec.getElem_setWidth, BitVec.getLsbD_append]
  simp [hi]

/-- Splitting the word that fields were joined into gives the fields back (R20, R21). -/
theorem ofWord_toWord (r : Raw) : Raw.ofWord r.toWord = r := by
  cases r
  simp only [Raw.ofWord, Raw.toWord, Raw.mk.injEq]
  refine ⟨?_, ?_, ?_, ?_, ?_, ?_, ?_, ?_, ?_, ?_, ?_, ?_⟩ <;>
  · simp (disch := omega) only [field_low, field_high]
    simp [BitVec.extractLsb'_eq_self]

theorem field_cut (w : BitVec 128) (n a k : Nat) (h : a + k ≤ n) :
    ((w.setWidth n).setWidth 128).extractLsb' a k = w.extractLsb' a k := by
  ext i hi
  simp only [BitVec.getElem_extractLsb', BitVec.getLsbD_setWidth]
  by_cases h1 : a + i < 128
  · have h2 : a + i < n := by omega
    simp [h1, h2]
  · simp [BitVec.getLsbD_of_ge w (a + i) (by omega)]

theorem upper_cut64 (w : BitVec 128) : ((w.setWidth 64).setWidth 128).extractLsb' 64 64 = 0#64 := by
  ext i hi
  simp only [BitVec.getElem_extractLsb', BitVec.getLsbD_setWidth]
  have : ¬ 64 + i < 64 := by omega
  simp [this]

theorem upper_cut96 (w : BitVec 128) :
    ((w.setWidth 96).setWidth 128).extractLsb' 64 64 = ((w.extractLsb' 64 64).setWidth 32).setWidth 64 := by
  ext i hi
  simp only [BitVec.getElem_extractLsb', BitVec.getLsbD_setWidth, BitVec.getElem_setWidth, BitVec.getLsbD_extractLsb']
  have h2 : 64 + i < 128 := by omega
  by_cases h : i < 32
  · have : 64 + i < 96 := by omega
    simp [this, h, hi, h2]
  · have : ¬ 64 + i < 96 := by omega
    simp [this, h]

/-- The bits beyond LEN of the fields of an encoding are zero (R17). -/
def Fits (r : Raw) : Prop :=
  (r.len = 1#2 ∧ r.up = 0#64) ∨ (r.len = 2#2 ∧ (r.up.setWidth 32).setWidth 64 = r.up) ∨ r.len = 3#2

theorem ofWord_cut (r : Raw) (h : Fits r) : Raw.ofWord (cutWord r.toWord) = r := by
  have h0 := ofWord_toWord r
  have hl : r.toWord.extractLsb' 0 2 = r.len := congrArg Raw.len h0
  have hu : r.toWord.extractLsb' 64 64 = r.up := congrArg Raw.up h0
  rcases h with ⟨h1, h2⟩ | ⟨h1, h2⟩ | h1
  · have : cutWord r.toWord = (r.toWord.setWidth 64).setWidth 128 := by simp [cutWord, hl, h1]
    rw [this]
    conv => rhs; rw [← h0]
    simp (disch := omega) only [Raw.ofWord, field_cut, upper_cut64, hu, h2]
  · have : cutWord r.toWord = (r.toWord.setWidth 96).setWidth 128 := by simp [cutWord, hl, h1]
    rw [this]
    conv => rhs; rw [← h0]
    simp (disch := omega) only [Raw.ofWord, field_cut, upper_cut96, hu, h2]
  · have : cutWord r.toWord = r.toWord := by simp [cutWord, hl, h1]
    rw [this, h0]

/-! ### Bits [63:39] -/

@[simp] theorem hiR_b (b c : Reg) : (hiR b c).extractLsb' 0 6 = b := by
  simp (disch := omega) only [hiR, field_low]
  simp [BitVec.extractLsb'_eq_self]

@[simp] theorem hiR_c (b c : Reg) : (hiR b c).extractLsb' 6 6 = c := by
  simp (disch := omega) only [hiR, field_low, field_high]
  simp [BitVec.extractLsb'_eq_self]

@[simp] theorem hiR_k (b c : Reg) : (hiR b c).getLsbD 24 = false := by
  simp only [hiR, BitVec.getLsbD_append]
  simp

theorem and3 (x : BitVec 13) (c b : BitVec 6) (m : BitVec 13) (n k : BitVec 6) :
    (x ++ c ++ b) &&& (m ++ n ++ k) = (x &&& m) ++ (c &&& n) ++ (b &&& k) := by
  rw [BitVec.and_append, BitVec.and_append]

@[simp] theorem hiR_bc (b c : Reg) : hiR b c &&& 33550336#25 = 0#25 := by
  rw [show 33550336#25 = (0x1FFF#13 ++ 0#6 ++ 0#6 : BitVec 25) by decide, hiR, and3]
  simp

@[simp] theorem hiR_onlyB (b : Reg) : hiR b 0#6 &&& 33554368#25 = 0#25 := by
  rw [show 33554368#25 = (0x1FFF#13 ++ 0x3F#6 ++ 0#6 : BitVec 25) by decide, hiR, and3]
  simp

@[simp] theorem hiR_onlyC (c : Reg) : hiR 0#6 c &&& 33550399#25 = 0#25 := by
  rw [show 33550399#25 = (0x1FFF#13 ++ 0#6 ++ 0x3F#6 : BitVec 25) by decide, hiR, and3]
  simp

/-! ### The round trip -/

theorem decodeRaw_ok (r : Raw) (f : Format) (w : Row) (i : Instr) (h1 : r.len ≠ 0#2) (h2 : majFormat r.maj.toNat = some f)
    (h3 : lenFits f r.len = true) (h4 : rowOf r = some w) (h5 : reservedValue f r w = false) (h6 : reservedBits r w = false)
    (h7 : w.combo = false) (h8 : w.instr = i) : decodeRaw r = .ok i := by
  simp [decodeRaw, h1, h2, h3, h4, h5, h6, h7, h8]

/-- The words of a well-formed instruction decode to it. -/
def F.Statement (i : Instr) : Prop :=
  i.wellFormed = true → (∀ w, encode i = some w → decodeWord w = .ok i) ∧ (∀ w, encodeSorter i = some w → decodeSorter w = some i)

theorem F.core {i : Instr} {r : Raw} (hr : toRaw i = some r) (hs : encodeSorter i = none) (hl : Fits r) (hd : decodeRaw r = .ok i) :
    (∀ w, encode i = some w → decodeWord w = .ok i) ∧ (∀ w, encodeSorter i = some w → decodeSorter w = some i) := by
  constructor
  · intro w hw
    rw [encode, hr] at hw
    obtain rfl := Option.some.inj hw
    rw [decodeWord, ofWord_cut r hl, hd]
  · intro w hw
    rw [hs] at hw
    exact nomatch hw

theorem F.wordless (i : Instr) (hr : toRaw i = .none) (hs : encodeSorter i = .none) : F.Statement i := by
  intro _
  refine ⟨fun w hw => ?_, fun w hw => ?_⟩
  · rw [encode, hr] at hw; exact nomatch hw
  · rw [hs] at hw; exact nomatch hw

@[simp] theorem hiV_b (b c : Reg) : (hiV (.reg b) c).extractLsb' 0 6 = b := hiR_b b c

@[simp] theorem hiV_c (b c : Reg) : (hiV (.reg b) c).extractLsb' 6 6 = c := hiR_c b c

@[simp] theorem hiV_k (b c : Reg) : (hiV (.reg b) c).getLsbD 24 = false := hiR_k b c

@[simp] theorem hiV_onlyB (b : Reg) : hiV (.reg b) 0#6 &&& 33554368#25 = 0#25 := hiR_onlyB b

@[simp] theorem hiV_bc (b c : Reg) : hiV (.reg b) c &&& 33550336#25 = 0#25 := hiR_bc b c

@[simp] theorem frag_tile (t : BitVec 6) (row : BitVec 4) (c : Reg) : (hiV (.frag t row) c).extractLsb' 18 6 = t := by
  simp (disch := omega) only [hiV, field_low, field_high]
  simp [BitVec.extractLsb'_eq_self]

@[simp] theorem frag_row (t : BitVec 6) (row : BitVec 4) (c : Reg) : (hiV (.frag t row) c).extractLsb' 14 4 = row := by
  simp (disch := omega) only [hiV, field_low, field_high]
  simp [BitVec.extractLsb'_eq_self]

@[simp] theorem frag_c (t : BitVec 6) (row : BitVec 4) (c : Reg) : (hiV (.frag t row) c).extractLsb' 6 6 = c := by
  simp (disch := omega) only [hiV, field_low, field_high]
  simp [BitVec.extractLsb'_eq_self]

@[simp] theorem frag_k (t : BitVec 6) (row : BitVec 4) (c : Reg) : (hiV (.frag t row) c).getLsbD 24 = true := by
  simp only [hiV, BitVec.getLsbD_append]
  simp

theorem and6 (x : BitVec 1) (t : BitVec 6) (r : BitVec 4) (z : BitVec 2) (c b : BitVec 6) (x' : BitVec 1) (t' : BitVec 6)
    (r' : BitVec 4) (z' : BitVec 2) (c' b' : BitVec 6) :
    (x ++ t ++ r ++ z ++ c ++ b) &&& (x' ++ t' ++ r' ++ z' ++ c' ++ b') =
      (x &&& x') ++ (t &&& t') ++ (r &&& r') ++ (z &&& z') ++ (c &&& c') ++ (b &&& b') := by
  simp only [BitVec.and_append]

@[simp] theorem frag_only (t : BitVec 6) (row : BitVec 4) : hiV (.frag t row) 0#6 &&& 16383#25 = 0#25 := by
  rw [show 16383#25 = (0#1 ++ 0#6 ++ 0#4 ++ 3#2 ++ 0x3F#6 ++ 0x3F#6 : BitVec 25) by decide, hiV, and6]
  simp

@[simp] theorem frag_withC (t : BitVec 6) (row : BitVec 4) (c : Reg) : hiV (.frag t row) c &&& 12351#25 = 0#25 := by
  rw [show 12351#25 = (0#1 ++ 0#6 ++ 0#4 ++ 3#2 ++ 0#6 ++ 0x3F#6 : BitVec 25) by decide, hiV, and6]
  simp

@[simp] theorem hiStr_k (k : BitVec 2) (o c : Bool) : (hiStr k o c).extractLsb' 23 2 = k := by
  simp (disch := omega) only [hiStr, field_low, field_high]
  simp [BitVec.extractLsb'_eq_self]

@[simp] theorem hiStr_out (k : BitVec 2) (o c : Bool) : (hiStr k o c).getLsbD 22 = o := by
  simp only [hiStr, BitVec.getLsbD_append]
  simp

@[simp] theorem hiStr_core (k : BitVec 2) (o c : Bool) : (hiStr k o c).getLsbD 21 = c := by
  simp only [hiStr, BitVec.getLsbD_append]
  simp

@[simp] theorem hiR_k' (b c : Reg) : (hiR b c)[24] = false := hiR_k b c

@[simp] theorem hiV_k' (b c : Reg) : (hiV (.reg b) c)[24] = false := hiR_k b c

@[simp] theorem frag_k' (t : BitVec 6) (row : BitVec 4) (c : Reg) : (hiV (.frag t row) c)[24] = true := frag_k t row c

@[simp] theorem hiStr_out' (k : BitVec 2) (o c : Bool) : (hiStr k o c)[22] = o := hiStr_out k o c

@[simp] theorem hiStr_core' (k : BitVec 2) (o c : Bool) : (hiStr k o c)[21] = c := hiStr_core k o c

theorem and4 (k : BitVec 2) (o c : BitVec 1) (z : BitVec 21) (k' : BitVec 2) (o' c' : BitVec 1) (z' : BitVec 21) :
    (k ++ o ++ c ++ z) &&& (k' ++ o' ++ c' ++ z') = (k &&& k') ++ (o &&& o') ++ (c &&& c') ++ (z &&& z') := by
  simp only [BitVec.and_append]

@[simp] theorem hiStr_mask (k : BitVec 2) (o c : Bool) : hiStr k o c &&& 2097151#25 = 0#25 := by
  rw [show 2097151#25 = (0#2 ++ 0#1 ++ 0#1 ++ 0x1FFFFF#21 : BitVec 25) by decide, hiStr, and4]
  simp

@[simp] theorem hiStr_maskK (k : BitVec 2) : hiStr k false false &&& 8388607#25 = 0#25 := by
  rw [show 8388607#25 = (0#2 ++ 1#1 ++ 1#1 ++ 0x1FFFFF#21 : BitVec 25) by decide, hiStr, and4]
  simp

@[simp] theorem hiR_none : hiR 0#6 0#6 &&& 33554431#25 = 0#25 := by decide

/-- A field that is zero, under a mask of its bits. -/
theorem zero_mask {n : Nat} (x m : BitVec n) (lo k : Nat) (h : x.extractLsb' lo k = 0#k)
    (hm : ∀ i, i < n → m.getLsbD i = true → lo ≤ i ∧ i < lo + k) : x &&& m = 0#n := by
  ext i hi
  simp only [BitVec.getElem_and, BitVec.getElem_zero]
  cases hmi : m[i] with
  | false => simp
  | true =>
    obtain ⟨h1, h2⟩ := hm i hi (by rw [BitVec.getLsbD_eq_getElem hi]; exact hmi)
    have h3 := congrArg (fun y => y.getLsbD (i - lo)) h
    simp only [BitVec.getLsbD_extractLsb', BitVec.getLsbD_zero] at h3
    rw [show lo + (i - lo) = i by omega, BitVec.getLsbD_eq_getElem hi] at h3
    have h4 : i - lo < k := by omega
    simpa [h4] using h3

theorem ext24 (x : BitVec 64) (h : x.extractLsb' 0 24 = 0#24) : x &&& 16777215#64 = 0#64 :=
  zero_mask x _ 0 24 h (by decide)

/-- The bits of EXT that a COPY does not use are zero (R160). -/
theorem copy_mask (x : BitVec 64) (h0 : x.extractLsb' 0 17 = 0#17) (h1 : x.getLsbD 38 = true ∨ x.extractLsb' 33 5 = 0#5)
    (h2 : x.getLsbD 32 = true ∨ x.extractLsb' 17 15 = 0#15) : x &&& ~~~copyUpMask x = 0#64 := by
  have m0 : x &&& 0x1FFFF#64 = 0#64 := zero_mask x _ 0 17 h0 (by decide)
  have m1 : x.getLsbD 38 = true ∨ x &&& 0x3E00000000#64 = 0#64 := h1.imp_right fun h => zero_mask x _ 33 5 h (by decide)
  have m2 : x.getLsbD 32 = true ∨ x &&& 0xFFFE0000#64 = 0#64 := h2.imp_right fun h => zero_mask x _ 17 15 h (by decide)
  unfold copyUpMask
  cases h38 : x.getLsbD 38 <;> cases h32 : x.getLsbD 32 <;> simp only [h38, h32, if_true, if_false, Bool.false_eq_true, false_or] at m1 m2 ⊢
  · rw [show ~~~(0xFFFFFFC100000000#64 ||| 0#64 ||| 0#64) = 0x1FFFF#64 ||| 0x3E00000000#64 ||| 0xFFFE0000#64 by decide,
      BitVec.and_or_distrib_left, BitVec.and_or_distrib_left, m0, m1, m2]; decide
  · rw [show ~~~(0xFFFFFFC100000000#64 ||| 0#64 ||| 0xFFFE0000#64) = 0x1FFFF#64 ||| 0x3E00000000#64 by decide,
      BitVec.and_or_distrib_left, m0, m1]; decide
  · rw [show ~~~(0xFFFFFFC100000000#64 ||| 0x3E00000000#64 ||| 0#64) = 0x1FFFF#64 ||| 0xFFFE0000#64 by decide,
      BitVec.and_or_distrib_left, m0, m2]; decide
  · rw [show ~~~(0xFFFFFFC100000000#64 ||| 0x3E00000000#64 ||| 0xFFFE0000#64) = 0x1FFFF#64 by decide, m0]

theorem copyXf_form (x : BitVec 64) : copyForm x = copyXf x := rfl

theorem row45_vcvn (r : Raw) (h : vcvOk r.fn = true) :
    row45 r = some { d := .vector, a := .vector, b := .vector, rm := true, frag := true, instr := .vcvn r.d r.a r.vsrc r.fn r.rm } := by
  simp [vcvOk] at h
  unfold row45
  split
  · omega
  · omega
  · rw [if_pos]
    simpa [vcvFormat] using h

theorem row45_vcvw (r : Raw) (f : BitVec 6) (hf : r.fn = f + 32#6) (h : vcvOk f = true) :
    row45 r = some { d := .vector, b := .vector, instr := .vcvw r.d r.b f } := by
  simp [vcvOk] at h
  have h1 : r.fn.toNat = f.toNat + 32 := by rw [hf, BitVec.toNat_add]; simp; omega
  unfold row45
  split
  · omega
  · omega
  · rw [if_neg, if_pos]
    · rw [hf, BitVec.add_sub_cancel]
    · rw [h1]; simp only [vcvFormat, decide_eq_true_eq, Nat.add_sub_cancel]; omega
    · rw [h1]; simp only [vcvFormat, decide_eq_true_eq]; omega

@[simp] theorem disp_b (d : BitVec 19) (b : Reg) : (d ++ b).extractLsb' 0 6 = b := by
  simp (disch := omega) only [field_low]
  simp [BitVec.extractLsb'_eq_self]

@[simp] theorem disp_d (d : BitVec 19) (b : Reg) : (d ++ b).extractLsb' 6 19 = d := by
  simp (disch := omega) only [field_high]
  simp [BitVec.extractLsb'_eq_self]

@[simp] theorem disp_mask (d : BitVec 19) : (d ++ 0#6) &&& 63#25 = 0#25 := by
  rw [show 63#25 = (0#19 ++ 0x3F#6 : BitVec 25) by decide, BitVec.and_append]
  simp

theorem wide_mask {k : Nat} (x : BitVec k) (n : Nat) (m : BitVec n) (h : ∀ i, i < k → m.getLsbD i = false) :
    x.setWidth n &&& m = 0#n := by
  ext i hi
  simp only [BitVec.getElem_and, BitVec.getElem_setWidth, BitVec.getElem_zero]
  by_cases hk : i < k
  · have := h i hk
    rw [BitVec.getLsbD_eq_getElem hi] at this
    simp [this]
  · simp [BitVec.getLsbD_of_ge x i (by omega)]

@[simp] theorem wide32 (x : BitVec 32) : x.setWidth 64 &&& 18446744069414584320#64 = 0#64 := by
  apply wide_mask
  intro i hi
  rw [show 18446744069414584320#64 = (0xFFFFFFFF#32 ++ 0#32 : BitVec 64) by decide, BitVec.getLsbD_append, if_pos hi]
  simp

theorem reservedBits_false (r : Raw) (w : Row) (h1 : w.d = .none → r.d = 0#6) (h2 : w.a = .none → r.a = 0#6)
    (h3 : w.esz = false → r.esz = 0#2) (h4 : w.ord = false → r.ord = 0#2) (h5 : w.scope = false → r.scope = 0#3)
    (h6 : w.rm = false → r.rm = 0#3) (h7 : w.nul = false → r.nul = 0#2) (h8 : r.hi &&& ~~~hiUsed r w = 0#25)
    (h9 : r.up &&& ~~~w.up = 0#64) : reservedBits r w = false := by
  simp only [reservedBits, h8, h9, decide_eq_false_iff_not]
  simp_all

theorem upper_li (imm : BitVec 32) : imm.setWidth 64 &&& ~~~0xffffffff#64 = 0#64 := by
  rw [show ~~~0xffffffff#64 = 18446744069414584320#64 by decide]
  exact wide32 imm

theorem upper_crel (ext : BitVec 64) (h : ext.extractLsb' 0 24 = 0#24) : ext &&& ~~~0xffffffffff000000#64 = 0#64 := by
  rw [show ~~~0xffffffffff000000#64 = 16777215#64 by decide]
  exact ext24 ext h

/-! ### Sorter words -/

@[simp] theorem sorter_op (op : BitVec 6) (kd ka : BitVec 4) (low : BitVec 18) : (sorterWord op kd ka low).extractLsb' 26 6 = op := by
  simp (disch := omega) only [sorterWord, field_high]
  simp [BitVec.extractLsb'_eq_self]

@[simp] theorem sorter_kd (op : BitVec 6) (kd ka : BitVec 4) (low : BitVec 18) : (sorterWord op kd ka low).extractLsb' 22 4 = kd := by
  simp (disch := omega) only [sorterWord, field_low, field_high]
  simp [BitVec.extractLsb'_eq_self]

@[simp] theorem sorter_ka (op : BitVec 6) (kd ka : BitVec 4) (low : BitVec 18) : (sorterWord op kd ka low).extractLsb' 18 4 = ka := by
  simp (disch := omega) only [sorterWord, field_low, field_high]
  simp [BitVec.extractLsb'_eq_self]

theorem sorter_low (op : BitVec 6) (kd ka : BitVec 4) (low : BitVec 18) (a k : Nat) (h : a + k ≤ 18) :
    (sorterWord op kd ka low).extractLsb' a k = low.extractLsb' a k := by
  simp (disch := omega) only [sorterWord, field_low]

theorem sorter_cut (op : BitVec 6) (kd ka : BitVec 4) (low : BitVec 18) (k : Nat) (h : k ≤ 18) :
    (sorterWord op kd ka low).setWidth k = low.setWidth k := by
  ext i hi
  simp only [sorterWord, BitVec.getElem_setWidth, BitVec.getLsbD_append]
  have : i < 18 := by omega
  simp [this]

/-- A mask of the parts of a sorter word. -/
theorem sorter_mask (op : BitVec 6) (kd ka : BitVec 4) (low : BitVec 18) (m : BitVec 32) (m1 m2 : BitVec 4) (m3 : BitVec 18)
    (h : m = 0#6 ++ m1 ++ m2 ++ m3) (h1 : kd &&& m1 = 0#4) (h2 : ka &&& m2 = 0#4) (h3 : low &&& m3 = 0#18) :
    sorterWord op kd ka low &&& m = 0#32 := by
  subst h
  rw [sorterWord, BitVec.and_append, BitVec.and_append, BitVec.and_append, h1, h2, h3]
  simp

theorem F.sorterWord {i : Instr} {w : BitVec 32} (hr : toRaw i = .none) (hs : encodeSorter i = some w) (hd : decodeSorter w = some i) :
    F.Statement i := by
  intro _
  refine ⟨fun w hw => ?_, fun w' hw => ?_⟩
  · rw [encode, hr] at hw; exact nomatch hw
  · rw [hs] at hw
    obtain rfl := Option.some.inj hw
    exact hd

theorem F.sorterWordIf {i : Instr} {w : BitVec 32} (hr : toRaw i = .none) (hs : encodeSorter i = some w)
    (hd : i.wellFormed = true → decodeSorter w = some i) : F.Statement i :=
  fun h => F.sorterWord hr hs (hd h) h

theorem F.add (d : Reg) (a : Reg) (b : Reg) : F.Statement (.add d a b) := by
  intro h
  replace h : (scalarOk d && scalarOk a && scalarOk b) = true := h
  simp [scalarOk] at h
  refine F.core rfl rfl (.inl ⟨rfl, rfl⟩) (decodeRaw_ok _ _ _ _ (by simp) rfl rfl rfl ?_ ?_ ?_ ?_)
  · simp [reservedValue, Kind.valid, Raw.b, Raw.c, Raw.sk, h]
  · simp (disch := decide) [reservedBits, hiUsed, Raw.sk, wide_mask]
  · first | rfl | (simp [Raw.sk] <;> omega) | simp [Raw.sk, h]
  · simp [Raw.b, Raw.c, Raw.vsrc, Raw.sk, Raw.disp, Raw.strK, Raw.strOut, Raw.strCore]

theorem F.adds (d : Reg) (a : Reg) (b : Reg) : F.Statement (.adds d a b) := by
  intro h
  replace h : (scalarOk d && scalarOk a && scalarOk b) = true := h
  simp [scalarOk] at h
  refine F.core rfl rfl (.inl ⟨rfl, rfl⟩) (decodeRaw_ok _ _ _ _ (by simp) rfl rfl rfl ?_ ?_ ?_ ?_)
  · simp [reservedValue, Kind.valid, Raw.b, Raw.c, Raw.sk, h]
  · simp (disch := decide) [reservedBits, hiUsed, Raw.sk, wide_mask]
  · first | rfl | (simp [Raw.sk] <;> omega) | simp [Raw.sk, h]
  · simp [Raw.b, Raw.c, Raw.vsrc, Raw.sk, Raw.disp, Raw.strK, Raw.strOut, Raw.strCore]

theorem F.addus (d : Reg) (a : Reg) (b : Reg) : F.Statement (.addus d a b) := by
  intro h
  replace h : (scalarOk d && scalarOk a && scalarOk b) = true := h
  simp [scalarOk] at h
  refine F.core rfl rfl (.inl ⟨rfl, rfl⟩) (decodeRaw_ok _ _ _ _ (by simp) rfl rfl rfl ?_ ?_ ?_ ?_)
  · simp [reservedValue, Kind.valid, Raw.b, Raw.c, Raw.sk, h]
  · simp (disch := decide) [reservedBits, hiUsed, Raw.sk, wide_mask]
  · first | rfl | (simp [Raw.sk] <;> omega) | simp [Raw.sk, h]
  · simp [Raw.b, Raw.c, Raw.vsrc, Raw.sk, Raw.disp, Raw.strK, Raw.strOut, Raw.strCore]

theorem F.sub (d : Reg) (a : Reg) (b : Reg) : F.Statement (.sub d a b) := by
  intro h
  replace h : (scalarOk d && scalarOk a && scalarOk b) = true := h
  simp [scalarOk] at h
  refine F.core rfl rfl (.inl ⟨rfl, rfl⟩) (decodeRaw_ok _ _ _ _ (by simp) rfl rfl rfl ?_ ?_ ?_ ?_)
  · simp [reservedValue, Kind.valid, Raw.b, Raw.c, Raw.sk, h]
  · simp (disch := decide) [reservedBits, hiUsed, Raw.sk, wide_mask]
  · first | rfl | (simp [Raw.sk] <;> omega) | simp [Raw.sk, h]
  · simp [Raw.b, Raw.c, Raw.vsrc, Raw.sk, Raw.disp, Raw.strK, Raw.strOut, Raw.strCore]

theorem F.subs (d : Reg) (a : Reg) (b : Reg) : F.Statement (.subs d a b) := by
  intro h
  replace h : (scalarOk d && scalarOk a && scalarOk b) = true := h
  simp [scalarOk] at h
  refine F.core rfl rfl (.inl ⟨rfl, rfl⟩) (decodeRaw_ok _ _ _ _ (by simp) rfl rfl rfl ?_ ?_ ?_ ?_)
  · simp [reservedValue, Kind.valid, Raw.b, Raw.c, Raw.sk, h]
  · simp (disch := decide) [reservedBits, hiUsed, Raw.sk, wide_mask]
  · first | rfl | (simp [Raw.sk] <;> omega) | simp [Raw.sk, h]
  · simp [Raw.b, Raw.c, Raw.vsrc, Raw.sk, Raw.disp, Raw.strK, Raw.strOut, Raw.strCore]

theorem F.subus (d : Reg) (a : Reg) (b : Reg) : F.Statement (.subus d a b) := by
  intro h
  replace h : (scalarOk d && scalarOk a && scalarOk b) = true := h
  simp [scalarOk] at h
  refine F.core rfl rfl (.inl ⟨rfl, rfl⟩) (decodeRaw_ok _ _ _ _ (by simp) rfl rfl rfl ?_ ?_ ?_ ?_)
  · simp [reservedValue, Kind.valid, Raw.b, Raw.c, Raw.sk, h]
  · simp (disch := decide) [reservedBits, hiUsed, Raw.sk, wide_mask]
  · first | rfl | (simp [Raw.sk] <;> omega) | simp [Raw.sk, h]
  · simp [Raw.b, Raw.c, Raw.vsrc, Raw.sk, Raw.disp, Raw.strK, Raw.strOut, Raw.strCore]

theorem F.and (d : Reg) (a : Reg) (b : Reg) : F.Statement (.and d a b) := by
  intro h
  replace h : (scalarOk d && scalarOk a && scalarOk b) = true := h
  simp [scalarOk] at h
  refine F.core rfl rfl (.inl ⟨rfl, rfl⟩) (decodeRaw_ok _ _ _ _ (by simp) rfl rfl rfl ?_ ?_ ?_ ?_)
  · simp [reservedValue, Kind.valid, Raw.b, Raw.c, Raw.sk, h]
  · simp (disch := decide) [reservedBits, hiUsed, Raw.sk, wide_mask]
  · first | rfl | (simp [Raw.sk] <;> omega) | simp [Raw.sk, h]
  · simp [Raw.b, Raw.c, Raw.vsrc, Raw.sk, Raw.disp, Raw.strK, Raw.strOut, Raw.strCore]

theorem F.andn (d : Reg) (a : Reg) (b : Reg) : F.Statement (.andn d a b) := by
  intro h
  replace h : (scalarOk d && scalarOk a && scalarOk b) = true := h
  simp [scalarOk] at h
  refine F.core rfl rfl (.inl ⟨rfl, rfl⟩) (decodeRaw_ok _ _ _ _ (by simp) rfl rfl rfl ?_ ?_ ?_ ?_)
  · simp [reservedValue, Kind.valid, Raw.b, Raw.c, Raw.sk, h]
  · simp (disch := decide) [reservedBits, hiUsed, Raw.sk, wide_mask]
  · first | rfl | (simp [Raw.sk] <;> omega) | simp [Raw.sk, h]
  · simp [Raw.b, Raw.c, Raw.vsrc, Raw.sk, Raw.disp, Raw.strK, Raw.strOut, Raw.strCore]

theorem F.or (d : Reg) (a : Reg) (b : Reg) : F.Statement (.or d a b) := by
  intro h
  replace h : (scalarOk d && scalarOk a && scalarOk b) = true := h
  simp [scalarOk] at h
  refine F.core rfl rfl (.inl ⟨rfl, rfl⟩) (decodeRaw_ok _ _ _ _ (by simp) rfl rfl rfl ?_ ?_ ?_ ?_)
  · simp [reservedValue, Kind.valid, Raw.b, Raw.c, Raw.sk, h]
  · simp (disch := decide) [reservedBits, hiUsed, Raw.sk, wide_mask]
  · first | rfl | (simp [Raw.sk] <;> omega) | simp [Raw.sk, h]
  · simp [Raw.b, Raw.c, Raw.vsrc, Raw.sk, Raw.disp, Raw.strK, Raw.strOut, Raw.strCore]

theorem F.xor (d : Reg) (a : Reg) (b : Reg) : F.Statement (.xor d a b) := by
  intro h
  replace h : (scalarOk d && scalarOk a && scalarOk b) = true := h
  simp [scalarOk] at h
  refine F.core rfl rfl (.inl ⟨rfl, rfl⟩) (decodeRaw_ok _ _ _ _ (by simp) rfl rfl rfl ?_ ?_ ?_ ?_)
  · simp [reservedValue, Kind.valid, Raw.b, Raw.c, Raw.sk, h]
  · simp (disch := decide) [reservedBits, hiUsed, Raw.sk, wide_mask]
  · first | rfl | (simp [Raw.sk] <;> omega) | simp [Raw.sk, h]
  · simp [Raw.b, Raw.c, Raw.vsrc, Raw.sk, Raw.disp, Raw.strK, Raw.strOut, Raw.strCore]

theorem F.shl (d : Reg) (a : Reg) (b : Reg) : F.Statement (.shl d a b) := by
  intro h
  replace h : (scalarOk d && scalarOk a && scalarOk b) = true := h
  simp [scalarOk] at h
  refine F.core rfl rfl (.inl ⟨rfl, rfl⟩) (decodeRaw_ok _ _ _ _ (by simp) rfl rfl rfl ?_ ?_ ?_ ?_)
  · simp [reservedValue, Kind.valid, Raw.b, Raw.c, Raw.sk, h]
  · simp (disch := decide) [reservedBits, hiUsed, Raw.sk, wide_mask]
  · first | rfl | (simp [Raw.sk] <;> omega) | simp [Raw.sk, h]
  · simp [Raw.b, Raw.c, Raw.vsrc, Raw.sk, Raw.disp, Raw.strK, Raw.strOut, Raw.strCore]

theorem F.shr (d : Reg) (a : Reg) (b : Reg) : F.Statement (.shr d a b) := by
  intro h
  replace h : (scalarOk d && scalarOk a && scalarOk b) = true := h
  simp [scalarOk] at h
  refine F.core rfl rfl (.inl ⟨rfl, rfl⟩) (decodeRaw_ok _ _ _ _ (by simp) rfl rfl rfl ?_ ?_ ?_ ?_)
  · simp [reservedValue, Kind.valid, Raw.b, Raw.c, Raw.sk, h]
  · simp (disch := decide) [reservedBits, hiUsed, Raw.sk, wide_mask]
  · first | rfl | (simp [Raw.sk] <;> omega) | simp [Raw.sk, h]
  · simp [Raw.b, Raw.c, Raw.vsrc, Raw.sk, Raw.disp, Raw.strK, Raw.strOut, Raw.strCore]

theorem F.sha (d : Reg) (a : Reg) (b : Reg) : F.Statement (.sha d a b) := by
  intro h
  replace h : (scalarOk d && scalarOk a && scalarOk b) = true := h
  simp [scalarOk] at h
  refine F.core rfl rfl (.inl ⟨rfl, rfl⟩) (decodeRaw_ok _ _ _ _ (by simp) rfl rfl rfl ?_ ?_ ?_ ?_)
  · simp [reservedValue, Kind.valid, Raw.b, Raw.c, Raw.sk, h]
  · simp (disch := decide) [reservedBits, hiUsed, Raw.sk, wide_mask]
  · first | rfl | (simp [Raw.sk] <;> omega) | simp [Raw.sk, h]
  · simp [Raw.b, Raw.c, Raw.vsrc, Raw.sk, Raw.disp, Raw.strK, Raw.strOut, Raw.strCore]

theorem F.cmpeq (d : Reg) (a : Reg) (b : Reg) : F.Statement (.cmpeq d a b) := by
  intro h
  replace h : (scalarOk d && scalarOk a && scalarOk b) = true := h
  simp [scalarOk] at h
  refine F.core rfl rfl (.inl ⟨rfl, rfl⟩) (decodeRaw_ok _ _ _ _ (by simp) rfl rfl rfl ?_ ?_ ?_ ?_)
  · simp [reservedValue, Kind.valid, Raw.b, Raw.c, Raw.sk, h]
  · simp (disch := decide) [reservedBits, hiUsed, Raw.sk, wide_mask]
  · first | rfl | (simp [Raw.sk] <;> omega) | simp [Raw.sk, h]
  · simp [Raw.b, Raw.c, Raw.vsrc, Raw.sk, Raw.disp, Raw.strK, Raw.strOut, Raw.strCore]

theorem F.cmpne (d : Reg) (a : Reg) (b : Reg) : F.Statement (.cmpne d a b) := by
  intro h
  replace h : (scalarOk d && scalarOk a && scalarOk b) = true := h
  simp [scalarOk] at h
  refine F.core rfl rfl (.inl ⟨rfl, rfl⟩) (decodeRaw_ok _ _ _ _ (by simp) rfl rfl rfl ?_ ?_ ?_ ?_)
  · simp [reservedValue, Kind.valid, Raw.b, Raw.c, Raw.sk, h]
  · simp (disch := decide) [reservedBits, hiUsed, Raw.sk, wide_mask]
  · first | rfl | (simp [Raw.sk] <;> omega) | simp [Raw.sk, h]
  · simp [Raw.b, Raw.c, Raw.vsrc, Raw.sk, Raw.disp, Raw.strK, Raw.strOut, Raw.strCore]

theorem F.cmplt (d : Reg) (a : Reg) (b : Reg) : F.Statement (.cmplt d a b) := by
  intro h
  replace h : (scalarOk d && scalarOk a && scalarOk b) = true := h
  simp [scalarOk] at h
  refine F.core rfl rfl (.inl ⟨rfl, rfl⟩) (decodeRaw_ok _ _ _ _ (by simp) rfl rfl rfl ?_ ?_ ?_ ?_)
  · simp [reservedValue, Kind.valid, Raw.b, Raw.c, Raw.sk, h]
  · simp (disch := decide) [reservedBits, hiUsed, Raw.sk, wide_mask]
  · first | rfl | (simp [Raw.sk] <;> omega) | simp [Raw.sk, h]
  · simp [Raw.b, Raw.c, Raw.vsrc, Raw.sk, Raw.disp, Raw.strK, Raw.strOut, Raw.strCore]

theorem F.cmpge (d : Reg) (a : Reg) (b : Reg) : F.Statement (.cmpge d a b) := by
  intro h
  replace h : (scalarOk d && scalarOk a && scalarOk b) = true := h
  simp [scalarOk] at h
  refine F.core rfl rfl (.inl ⟨rfl, rfl⟩) (decodeRaw_ok _ _ _ _ (by simp) rfl rfl rfl ?_ ?_ ?_ ?_)
  · simp [reservedValue, Kind.valid, Raw.b, Raw.c, Raw.sk, h]
  · simp (disch := decide) [reservedBits, hiUsed, Raw.sk, wide_mask]
  · first | rfl | (simp [Raw.sk] <;> omega) | simp [Raw.sk, h]
  · simp [Raw.b, Raw.c, Raw.vsrc, Raw.sk, Raw.disp, Raw.strK, Raw.strOut, Raw.strCore]

theorem F.cmpltu (d : Reg) (a : Reg) (b : Reg) : F.Statement (.cmpltu d a b) := by
  intro h
  replace h : (scalarOk d && scalarOk a && scalarOk b) = true := h
  simp [scalarOk] at h
  refine F.core rfl rfl (.inl ⟨rfl, rfl⟩) (decodeRaw_ok _ _ _ _ (by simp) rfl rfl rfl ?_ ?_ ?_ ?_)
  · simp [reservedValue, Kind.valid, Raw.b, Raw.c, Raw.sk, h]
  · simp (disch := decide) [reservedBits, hiUsed, Raw.sk, wide_mask]
  · first | rfl | (simp [Raw.sk] <;> omega) | simp [Raw.sk, h]
  · simp [Raw.b, Raw.c, Raw.vsrc, Raw.sk, Raw.disp, Raw.strK, Raw.strOut, Raw.strCore]

theorem F.cmpgeu (d : Reg) (a : Reg) (b : Reg) : F.Statement (.cmpgeu d a b) := by
  intro h
  replace h : (scalarOk d && scalarOk a && scalarOk b) = true := h
  simp [scalarOk] at h
  refine F.core rfl rfl (.inl ⟨rfl, rfl⟩) (decodeRaw_ok _ _ _ _ (by simp) rfl rfl rfl ?_ ?_ ?_ ?_)
  · simp [reservedValue, Kind.valid, Raw.b, Raw.c, Raw.sk, h]
  · simp (disch := decide) [reservedBits, hiUsed, Raw.sk, wide_mask]
  · first | rfl | (simp [Raw.sk] <;> omega) | simp [Raw.sk, h]
  · simp [Raw.b, Raw.c, Raw.vsrc, Raw.sk, Raw.disp, Raw.strK, Raw.strOut, Raw.strCore]

theorem F.addi (d : Reg) (a : Reg) (imm : BitVec 25) : F.Statement (.addi d a imm) := by
  intro h
  replace h : (scalarOk d && scalarOk a) = true := h
  simp [scalarOk] at h
  refine F.core rfl rfl (.inl ⟨rfl, rfl⟩) (decodeRaw_ok _ _ _ _ (by simp) rfl rfl rfl ?_ ?_ ?_ ?_)
  · simp [reservedValue, Kind.valid, Raw.b, Raw.c, Raw.sk, h]
  · simp (disch := decide) [reservedBits, hiUsed, Raw.sk, wide_mask]
  · first | rfl | (simp [Raw.sk] <;> omega) | simp [Raw.sk, h]
  · simp [Raw.b, Raw.c, Raw.vsrc, Raw.sk, Raw.disp, Raw.strK, Raw.strOut, Raw.strCore]

theorem F.andi (d : Reg) (a : Reg) (imm : BitVec 25) : F.Statement (.andi d a imm) := by
  intro h
  replace h : (scalarOk d && scalarOk a) = true := h
  simp [scalarOk] at h
  refine F.core rfl rfl (.inl ⟨rfl, rfl⟩) (decodeRaw_ok _ _ _ _ (by simp) rfl rfl rfl ?_ ?_ ?_ ?_)
  · simp [reservedValue, Kind.valid, Raw.b, Raw.c, Raw.sk, h]
  · simp (disch := decide) [reservedBits, hiUsed, Raw.sk, wide_mask]
  · first | rfl | (simp [Raw.sk] <;> omega) | simp [Raw.sk, h]
  · simp [Raw.b, Raw.c, Raw.vsrc, Raw.sk, Raw.disp, Raw.strK, Raw.strOut, Raw.strCore]

theorem F.ori (d : Reg) (a : Reg) (imm : BitVec 25) : F.Statement (.ori d a imm) := by
  intro h
  replace h : (scalarOk d && scalarOk a) = true := h
  simp [scalarOk] at h
  refine F.core rfl rfl (.inl ⟨rfl, rfl⟩) (decodeRaw_ok _ _ _ _ (by simp) rfl rfl rfl ?_ ?_ ?_ ?_)
  · simp [reservedValue, Kind.valid, Raw.b, Raw.c, Raw.sk, h]
  · simp (disch := decide) [reservedBits, hiUsed, Raw.sk, wide_mask]
  · first | rfl | (simp [Raw.sk] <;> omega) | simp [Raw.sk, h]
  · simp [Raw.b, Raw.c, Raw.vsrc, Raw.sk, Raw.disp, Raw.strK, Raw.strOut, Raw.strCore]

theorem F.xori (d : Reg) (a : Reg) (imm : BitVec 25) : F.Statement (.xori d a imm) := by
  intro h
  replace h : (scalarOk d && scalarOk a) = true := h
  simp [scalarOk] at h
  refine F.core rfl rfl (.inl ⟨rfl, rfl⟩) (decodeRaw_ok _ _ _ _ (by simp) rfl rfl rfl ?_ ?_ ?_ ?_)
  · simp [reservedValue, Kind.valid, Raw.b, Raw.c, Raw.sk, h]
  · simp (disch := decide) [reservedBits, hiUsed, Raw.sk, wide_mask]
  · first | rfl | (simp [Raw.sk] <;> omega) | simp [Raw.sk, h]
  · simp [Raw.b, Raw.c, Raw.vsrc, Raw.sk, Raw.disp, Raw.strK, Raw.strOut, Raw.strCore]

theorem F.shil (d : Reg) (a : Reg) (imm : BitVec 6) : F.Statement (.shil d a imm) := by
  intro h
  replace h : (scalarOk d && scalarOk a) = true := h
  simp [scalarOk] at h
  refine F.core rfl rfl (.inl ⟨rfl, rfl⟩) (decodeRaw_ok _ _ _ _ (by simp) rfl rfl rfl ?_ ?_ ?_ ?_)
  · simp [reservedValue, Kind.valid, Raw.b, Raw.c, Raw.sk, h]
  · simp (disch := decide) [reservedBits, hiUsed, Raw.sk, wide_mask]
  · first | rfl | (simp [Raw.sk] <;> omega) | simp [Raw.sk, h]
  · simp [Raw.b, Raw.c, Raw.vsrc, Raw.sk, Raw.disp, Raw.strK, Raw.strOut, Raw.strCore]

theorem F.shir (d : Reg) (a : Reg) (imm : BitVec 6) : F.Statement (.shir d a imm) := by
  intro h
  replace h : (scalarOk d && scalarOk a) = true := h
  simp [scalarOk] at h
  refine F.core rfl rfl (.inl ⟨rfl, rfl⟩) (decodeRaw_ok _ _ _ _ (by simp) rfl rfl rfl ?_ ?_ ?_ ?_)
  · simp [reservedValue, Kind.valid, Raw.b, Raw.c, Raw.sk, h]
  · simp (disch := decide) [reservedBits, hiUsed, Raw.sk, wide_mask]
  · first | rfl | (simp [Raw.sk] <;> omega) | simp [Raw.sk, h]
  · simp [Raw.b, Raw.c, Raw.vsrc, Raw.sk, Raw.disp, Raw.strK, Raw.strOut, Raw.strCore]

theorem F.shia (d : Reg) (a : Reg) (imm : BitVec 6) : F.Statement (.shia d a imm) := by
  intro h
  replace h : (scalarOk d && scalarOk a) = true := h
  simp [scalarOk] at h
  refine F.core rfl rfl (.inl ⟨rfl, rfl⟩) (decodeRaw_ok _ _ _ _ (by simp) rfl rfl rfl ?_ ?_ ?_ ?_)
  · simp [reservedValue, Kind.valid, Raw.b, Raw.c, Raw.sk, h]
  · simp (disch := decide) [reservedBits, hiUsed, Raw.sk, wide_mask]
  · first | rfl | (simp [Raw.sk] <;> omega) | simp [Raw.sk, h]
  · simp [Raw.b, Raw.c, Raw.vsrc, Raw.sk, Raw.disp, Raw.strK, Raw.strOut, Raw.strCore]

theorem F.cmpieq (d : Reg) (a : Reg) (imm : BitVec 25) : F.Statement (.cmpieq d a imm) := by
  intro h
  replace h : (scalarOk d && scalarOk a) = true := h
  simp [scalarOk] at h
  refine F.core rfl rfl (.inl ⟨rfl, rfl⟩) (decodeRaw_ok _ _ _ _ (by simp) rfl rfl rfl ?_ ?_ ?_ ?_)
  · simp [reservedValue, Kind.valid, Raw.b, Raw.c, Raw.sk, h]
  · simp (disch := decide) [reservedBits, hiUsed, Raw.sk, wide_mask]
  · first | rfl | (simp [Raw.sk] <;> omega) | simp [Raw.sk, h]
  · simp [Raw.b, Raw.c, Raw.vsrc, Raw.sk, Raw.disp, Raw.strK, Raw.strOut, Raw.strCore]

theorem F.cmpine (d : Reg) (a : Reg) (imm : BitVec 25) : F.Statement (.cmpine d a imm) := by
  intro h
  replace h : (scalarOk d && scalarOk a) = true := h
  simp [scalarOk] at h
  refine F.core rfl rfl (.inl ⟨rfl, rfl⟩) (decodeRaw_ok _ _ _ _ (by simp) rfl rfl rfl ?_ ?_ ?_ ?_)
  · simp [reservedValue, Kind.valid, Raw.b, Raw.c, Raw.sk, h]
  · simp (disch := decide) [reservedBits, hiUsed, Raw.sk, wide_mask]
  · first | rfl | (simp [Raw.sk] <;> omega) | simp [Raw.sk, h]
  · simp [Raw.b, Raw.c, Raw.vsrc, Raw.sk, Raw.disp, Raw.strK, Raw.strOut, Raw.strCore]

theorem F.cmpilt (d : Reg) (a : Reg) (imm : BitVec 25) : F.Statement (.cmpilt d a imm) := by
  intro h
  replace h : (scalarOk d && scalarOk a) = true := h
  simp [scalarOk] at h
  refine F.core rfl rfl (.inl ⟨rfl, rfl⟩) (decodeRaw_ok _ _ _ _ (by simp) rfl rfl rfl ?_ ?_ ?_ ?_)
  · simp [reservedValue, Kind.valid, Raw.b, Raw.c, Raw.sk, h]
  · simp (disch := decide) [reservedBits, hiUsed, Raw.sk, wide_mask]
  · first | rfl | (simp [Raw.sk] <;> omega) | simp [Raw.sk, h]
  · simp [Raw.b, Raw.c, Raw.vsrc, Raw.sk, Raw.disp, Raw.strK, Raw.strOut, Raw.strCore]

theorem F.cmpige (d : Reg) (a : Reg) (imm : BitVec 25) : F.Statement (.cmpige d a imm) := by
  intro h
  replace h : (scalarOk d && scalarOk a) = true := h
  simp [scalarOk] at h
  refine F.core rfl rfl (.inl ⟨rfl, rfl⟩) (decodeRaw_ok _ _ _ _ (by simp) rfl rfl rfl ?_ ?_ ?_ ?_)
  · simp [reservedValue, Kind.valid, Raw.b, Raw.c, Raw.sk, h]
  · simp (disch := decide) [reservedBits, hiUsed, Raw.sk, wide_mask]
  · first | rfl | (simp [Raw.sk] <;> omega) | simp [Raw.sk, h]
  · simp [Raw.b, Raw.c, Raw.vsrc, Raw.sk, Raw.disp, Raw.strK, Raw.strOut, Raw.strCore]

theorem F.cmpiltu (d : Reg) (a : Reg) (imm : BitVec 25) : F.Statement (.cmpiltu d a imm) := by
  intro h
  replace h : (scalarOk d && scalarOk a) = true := h
  simp [scalarOk] at h
  refine F.core rfl rfl (.inl ⟨rfl, rfl⟩) (decodeRaw_ok _ _ _ _ (by simp) rfl rfl rfl ?_ ?_ ?_ ?_)
  · simp [reservedValue, Kind.valid, Raw.b, Raw.c, Raw.sk, h]
  · simp (disch := decide) [reservedBits, hiUsed, Raw.sk, wide_mask]
  · first | rfl | (simp [Raw.sk] <;> omega) | simp [Raw.sk, h]
  · simp [Raw.b, Raw.c, Raw.vsrc, Raw.sk, Raw.disp, Raw.strK, Raw.strOut, Raw.strCore]

theorem F.cmpigeu (d : Reg) (a : Reg) (imm : BitVec 25) : F.Statement (.cmpigeu d a imm) := by
  intro h
  replace h : (scalarOk d && scalarOk a) = true := h
  simp [scalarOk] at h
  refine F.core rfl rfl (.inl ⟨rfl, rfl⟩) (decodeRaw_ok _ _ _ _ (by simp) rfl rfl rfl ?_ ?_ ?_ ?_)
  · simp [reservedValue, Kind.valid, Raw.b, Raw.c, Raw.sk, h]
  · simp (disch := decide) [reservedBits, hiUsed, Raw.sk, wide_mask]
  · first | rfl | (simp [Raw.sk] <;> omega) | simp [Raw.sk, h]
  · simp [Raw.b, Raw.c, Raw.vsrc, Raw.sk, Raw.disp, Raw.strK, Raw.strOut, Raw.strCore]

theorem F.li (d : Reg) (imm : BitVec 32) : F.Statement (.li d imm) := by
  intro h
  replace h : (scalarOk d) = true := h
  simp [scalarOk] at h
  refine F.core rfl rfl (.inr (.inl ⟨rfl, by simp [BitVec.setWidth_setWidth_of_le]⟩)) (decodeRaw_ok _ _ _ _ (by simp) rfl rfl rfl ?_ ?_ ?_ ?_)
  · simp [reservedValue, Kind.valid, Raw.b, Raw.c, Raw.sk, h]
  · exact reservedBits_false _ _ (by simp) (by simp) (by simp) (by simp) (by simp) (by simp) (by simp) (by simp [hiUsed, Raw.sk]) (upper_li imm)
  · first | rfl | (simp [Raw.sk] <;> omega) | simp [Raw.sk, h]
  · simp [Raw.b, Raw.c, Raw.vsrc, Raw.sk, Raw.disp, Raw.strK, Raw.strOut, Raw.strCore]

theorem F.liu (d : Reg) (imm : BitVec 32) : F.Statement (.liu d imm) := by
  intro h
  replace h : (scalarOk d) = true := h
  simp [scalarOk] at h
  refine F.core rfl rfl (.inr (.inl ⟨rfl, by simp [BitVec.setWidth_setWidth_of_le]⟩)) (decodeRaw_ok _ _ _ _ (by simp) rfl rfl rfl ?_ ?_ ?_ ?_)
  · simp [reservedValue, Kind.valid, Raw.b, Raw.c, Raw.sk, h]
  · exact reservedBits_false _ _ (by simp) (by simp) (by simp) (by simp) (by simp) (by simp) (by simp) (by simp [hiUsed, Raw.sk]) (upper_li imm)
  · first | rfl | (simp [Raw.sk] <;> omega) | simp [Raw.sk, h]
  · simp [Raw.b, Raw.c, Raw.vsrc, Raw.sk, Raw.disp, Raw.strK, Raw.strOut, Raw.strCore]

theorem F.liw (d : Reg) (ext : BitVec 64) : F.Statement (.liw d ext) := by
  intro h
  replace h : (scalarOk d) = true := h
  simp [scalarOk] at h
  refine F.core rfl rfl (.inr (.inr rfl)) (decodeRaw_ok _ _ _ _ (by simp) rfl rfl rfl ?_ ?_ ?_ ?_)
  · simp [reservedValue, Kind.valid, Raw.b, Raw.c, Raw.sk, h]
  · simp (disch := decide) [reservedBits, hiUsed, Raw.sk, wide_mask]
  · first | rfl | (simp [Raw.sk] <;> omega) | simp [Raw.sk, h]
  · simp [Raw.b, Raw.c, Raw.vsrc, Raw.sk, Raw.disp, Raw.strK, Raw.strOut, Raw.strCore]

theorem F.mul (d : Reg) (a : Reg) (b : Reg) : F.Statement (.mul d a b) := by
  intro h
  replace h : (scalarOk d && scalarOk a && scalarOk b) = true := h
  simp [scalarOk] at h
  refine F.core rfl rfl (.inl ⟨rfl, rfl⟩) (decodeRaw_ok _ _ _ _ (by simp) rfl rfl rfl ?_ ?_ ?_ ?_)
  · simp [reservedValue, Kind.valid, Raw.b, Raw.c, Raw.sk, h]
  · simp (disch := decide) [reservedBits, hiUsed, Raw.sk, wide_mask]
  · first | rfl | (simp [Raw.sk] <;> omega) | simp [Raw.sk, h]
  · simp [Raw.b, Raw.c, Raw.vsrc, Raw.sk, Raw.disp, Raw.strK, Raw.strOut, Raw.strCore]

theorem F.mulh (d : Reg) (a : Reg) (b : Reg) : F.Statement (.mulh d a b) := by
  intro h
  replace h : (scalarOk d && scalarOk a && scalarOk b) = true := h
  simp [scalarOk] at h
  refine F.core rfl rfl (.inl ⟨rfl, rfl⟩) (decodeRaw_ok _ _ _ _ (by simp) rfl rfl rfl ?_ ?_ ?_ ?_)
  · simp [reservedValue, Kind.valid, Raw.b, Raw.c, Raw.sk, h]
  · simp (disch := decide) [reservedBits, hiUsed, Raw.sk, wide_mask]
  · first | rfl | (simp [Raw.sk] <;> omega) | simp [Raw.sk, h]
  · simp [Raw.b, Raw.c, Raw.vsrc, Raw.sk, Raw.disp, Raw.strK, Raw.strOut, Raw.strCore]

theorem F.mulhu (d : Reg) (a : Reg) (b : Reg) : F.Statement (.mulhu d a b) := by
  intro h
  replace h : (scalarOk d && scalarOk a && scalarOk b) = true := h
  simp [scalarOk] at h
  refine F.core rfl rfl (.inl ⟨rfl, rfl⟩) (decodeRaw_ok _ _ _ _ (by simp) rfl rfl rfl ?_ ?_ ?_ ?_)
  · simp [reservedValue, Kind.valid, Raw.b, Raw.c, Raw.sk, h]
  · simp (disch := decide) [reservedBits, hiUsed, Raw.sk, wide_mask]
  · first | rfl | (simp [Raw.sk] <;> omega) | simp [Raw.sk, h]
  · simp [Raw.b, Raw.c, Raw.vsrc, Raw.sk, Raw.disp, Raw.strK, Raw.strOut, Raw.strCore]

theorem F.mula (d : Reg) (a : Reg) (b : Reg) (c : Reg) : F.Statement (.mula d a b c) := by
  intro h
  replace h : (scalarOk d && scalarOk a && scalarOk b && scalarOk c) = true := h
  simp [scalarOk] at h
  refine F.core rfl rfl (.inl ⟨rfl, rfl⟩) (decodeRaw_ok _ _ _ _ (by simp) rfl rfl rfl ?_ ?_ ?_ ?_)
  · simp [reservedValue, Kind.valid, Raw.b, Raw.c, Raw.sk, h]
  · simp (disch := decide) [reservedBits, hiUsed, Raw.sk, wide_mask]
  · first | rfl | (simp [Raw.sk] <;> omega) | simp [Raw.sk, h]
  · simp [Raw.b, Raw.c, Raw.vsrc, Raw.sk, Raw.disp, Raw.strK, Raw.strOut, Raw.strCore]

theorem F.div (d : Reg) (a : Reg) (b : Reg) : F.Statement (.div d a b) := by
  intro h
  replace h : (scalarOk d && scalarOk a && scalarOk b) = true := h
  simp [scalarOk] at h
  refine F.core rfl rfl (.inl ⟨rfl, rfl⟩) (decodeRaw_ok _ _ _ _ (by simp) rfl rfl rfl ?_ ?_ ?_ ?_)
  · simp [reservedValue, Kind.valid, Raw.b, Raw.c, Raw.sk, h]
  · simp (disch := decide) [reservedBits, hiUsed, Raw.sk, wide_mask]
  · first | rfl | (simp [Raw.sk] <;> omega) | simp [Raw.sk, h]
  · simp [Raw.b, Raw.c, Raw.vsrc, Raw.sk, Raw.disp, Raw.strK, Raw.strOut, Raw.strCore]

theorem F.divu (d : Reg) (a : Reg) (b : Reg) : F.Statement (.divu d a b) := by
  intro h
  replace h : (scalarOk d && scalarOk a && scalarOk b) = true := h
  simp [scalarOk] at h
  refine F.core rfl rfl (.inl ⟨rfl, rfl⟩) (decodeRaw_ok _ _ _ _ (by simp) rfl rfl rfl ?_ ?_ ?_ ?_)
  · simp [reservedValue, Kind.valid, Raw.b, Raw.c, Raw.sk, h]
  · simp (disch := decide) [reservedBits, hiUsed, Raw.sk, wide_mask]
  · first | rfl | (simp [Raw.sk] <;> omega) | simp [Raw.sk, h]
  · simp [Raw.b, Raw.c, Raw.vsrc, Raw.sk, Raw.disp, Raw.strK, Raw.strOut, Raw.strCore]

theorem F.divrem (d : Reg) (a : Reg) (b : Reg) : F.Statement (.divrem d a b) := by
  intro h
  replace h : (scalarOk d && scalarOk a && scalarOk b) = true := h
  simp [scalarOk] at h
  refine F.core rfl rfl (.inl ⟨rfl, rfl⟩) (decodeRaw_ok _ _ _ _ (by simp) rfl rfl rfl ?_ ?_ ?_ ?_)
  · simp [reservedValue, Kind.valid, Raw.b, Raw.c, Raw.sk, h]
  · simp (disch := decide) [reservedBits, hiUsed, Raw.sk, wide_mask]
  · first | rfl | (simp [Raw.sk] <;> omega) | simp [Raw.sk, h]
  · simp [Raw.b, Raw.c, Raw.vsrc, Raw.sk, Raw.disp, Raw.strK, Raw.strOut, Raw.strCore]

theorem F.divremu (d : Reg) (a : Reg) (b : Reg) : F.Statement (.divremu d a b) := by
  intro h
  replace h : (scalarOk d && scalarOk a && scalarOk b) = true := h
  simp [scalarOk] at h
  refine F.core rfl rfl (.inl ⟨rfl, rfl⟩) (decodeRaw_ok _ _ _ _ (by simp) rfl rfl rfl ?_ ?_ ?_ ?_)
  · simp [reservedValue, Kind.valid, Raw.b, Raw.c, Raw.sk, h]
  · simp (disch := decide) [reservedBits, hiUsed, Raw.sk, wide_mask]
  · first | rfl | (simp [Raw.sk] <;> omega) | simp [Raw.sk, h]
  · simp [Raw.b, Raw.c, Raw.vsrc, Raw.sk, Raw.disp, Raw.strK, Raw.strOut, Raw.strCore]

theorem F.bitcnt (d : Reg) (a : Reg) : F.Statement (.bitcnt d a) := by
  intro h
  replace h : (scalarOk d && scalarOk a) = true := h
  simp [scalarOk] at h
  refine F.core rfl rfl (.inl ⟨rfl, rfl⟩) (decodeRaw_ok _ _ _ _ (by simp) rfl rfl rfl ?_ ?_ ?_ ?_)
  · simp [reservedValue, Kind.valid, Raw.b, Raw.c, Raw.sk, h]
  · simp (disch := decide) [reservedBits, hiUsed, Raw.sk, wide_mask]
  · first | rfl | (simp [Raw.sk] <;> omega) | simp [Raw.sk, h]
  · simp [Raw.b, Raw.c, Raw.vsrc, Raw.sk, Raw.disp, Raw.strK, Raw.strOut, Raw.strCore]

theorem F.bitclz (d : Reg) (a : Reg) : F.Statement (.bitclz d a) := by
  intro h
  replace h : (scalarOk d && scalarOk a) = true := h
  simp [scalarOk] at h
  refine F.core rfl rfl (.inl ⟨rfl, rfl⟩) (decodeRaw_ok _ _ _ _ (by simp) rfl rfl rfl ?_ ?_ ?_ ?_)
  · simp [reservedValue, Kind.valid, Raw.b, Raw.c, Raw.sk, h]
  · simp (disch := decide) [reservedBits, hiUsed, Raw.sk, wide_mask]
  · first | rfl | (simp [Raw.sk] <;> omega) | simp [Raw.sk, h]
  · simp [Raw.b, Raw.c, Raw.vsrc, Raw.sk, Raw.disp, Raw.strK, Raw.strOut, Raw.strCore]

theorem F.bitctz (d : Reg) (a : Reg) : F.Statement (.bitctz d a) := by
  intro h
  replace h : (scalarOk d && scalarOk a) = true := h
  simp [scalarOk] at h
  refine F.core rfl rfl (.inl ⟨rfl, rfl⟩) (decodeRaw_ok _ _ _ _ (by simp) rfl rfl rfl ?_ ?_ ?_ ?_)
  · simp [reservedValue, Kind.valid, Raw.b, Raw.c, Raw.sk, h]
  · simp (disch := decide) [reservedBits, hiUsed, Raw.sk, wide_mask]
  · first | rfl | (simp [Raw.sk] <;> omega) | simp [Raw.sk, h]
  · simp [Raw.b, Raw.c, Raw.vsrc, Raw.sk, Raw.disp, Raw.strK, Raw.strOut, Raw.strCore]

theorem F.sel (d : Reg) (a : Reg) (b : Reg) (c : Reg) : F.Statement (.sel d a b c) := by
  intro h
  replace h : (scalarOk d && scalarOk a && scalarOk b && scalarOk c) = true := h
  simp [scalarOk] at h
  refine F.core rfl rfl (.inl ⟨rfl, rfl⟩) (decodeRaw_ok _ _ _ _ (by simp) rfl rfl rfl ?_ ?_ ?_ ?_)
  · simp [reservedValue, Kind.valid, Raw.b, Raw.c, Raw.sk, h]
  · simp (disch := decide) [reservedBits, hiUsed, Raw.sk, wide_mask]
  · first | rfl | (simp [Raw.sk] <;> omega) | simp [Raw.sk, h]
  · simp [Raw.b, Raw.c, Raw.vsrc, Raw.sk, Raw.disp, Raw.strK, Raw.strOut, Raw.strCore]

theorem F.beq (a : Reg) (b : Reg) (nul : BitVec 2) (disp : BitVec 19) : F.Statement (.beq a b nul disp) := by
  intro h
  replace h : (scalarOk a && scalarOk b && nulOk nul) = true := h
  simp [nulOk, scalarOk] at h
  refine F.core rfl rfl (.inl ⟨rfl, rfl⟩) (decodeRaw_ok _ _ _ _ (by simp) rfl rfl rfl ?_ ?_ ?_ ?_)
  · simp [reservedValue, Kind.valid, Raw.b, Raw.c, Raw.sk, h]
  · simp (disch := decide) [reservedBits, hiUsed, Raw.sk, wide_mask]
  · first | rfl | (simp [Raw.sk] <;> omega) | simp [Raw.sk, h]
  · simp [Raw.b, Raw.c, Raw.vsrc, Raw.sk, Raw.disp, Raw.strK, Raw.strOut, Raw.strCore]

theorem F.bne (a : Reg) (b : Reg) (nul : BitVec 2) (disp : BitVec 19) : F.Statement (.bne a b nul disp) := by
  intro h
  replace h : (scalarOk a && scalarOk b && nulOk nul) = true := h
  simp [nulOk, scalarOk] at h
  refine F.core rfl rfl (.inl ⟨rfl, rfl⟩) (decodeRaw_ok _ _ _ _ (by simp) rfl rfl rfl ?_ ?_ ?_ ?_)
  · simp [reservedValue, Kind.valid, Raw.b, Raw.c, Raw.sk, h]
  · simp (disch := decide) [reservedBits, hiUsed, Raw.sk, wide_mask]
  · first | rfl | (simp [Raw.sk] <;> omega) | simp [Raw.sk, h]
  · simp [Raw.b, Raw.c, Raw.vsrc, Raw.sk, Raw.disp, Raw.strK, Raw.strOut, Raw.strCore]

theorem F.blt (a : Reg) (b : Reg) (nul : BitVec 2) (disp : BitVec 19) : F.Statement (.blt a b nul disp) := by
  intro h
  replace h : (scalarOk a && scalarOk b && nulOk nul) = true := h
  simp [nulOk, scalarOk] at h
  refine F.core rfl rfl (.inl ⟨rfl, rfl⟩) (decodeRaw_ok _ _ _ _ (by simp) rfl rfl rfl ?_ ?_ ?_ ?_)
  · simp [reservedValue, Kind.valid, Raw.b, Raw.c, Raw.sk, h]
  · simp (disch := decide) [reservedBits, hiUsed, Raw.sk, wide_mask]
  · first | rfl | (simp [Raw.sk] <;> omega) | simp [Raw.sk, h]
  · simp [Raw.b, Raw.c, Raw.vsrc, Raw.sk, Raw.disp, Raw.strK, Raw.strOut, Raw.strCore]

theorem F.bge (a : Reg) (b : Reg) (nul : BitVec 2) (disp : BitVec 19) : F.Statement (.bge a b nul disp) := by
  intro h
  replace h : (scalarOk a && scalarOk b && nulOk nul) = true := h
  simp [nulOk, scalarOk] at h
  refine F.core rfl rfl (.inl ⟨rfl, rfl⟩) (decodeRaw_ok _ _ _ _ (by simp) rfl rfl rfl ?_ ?_ ?_ ?_)
  · simp [reservedValue, Kind.valid, Raw.b, Raw.c, Raw.sk, h]
  · simp (disch := decide) [reservedBits, hiUsed, Raw.sk, wide_mask]
  · first | rfl | (simp [Raw.sk] <;> omega) | simp [Raw.sk, h]
  · simp [Raw.b, Raw.c, Raw.vsrc, Raw.sk, Raw.disp, Raw.strK, Raw.strOut, Raw.strCore]

theorem F.bltu (a : Reg) (b : Reg) (nul : BitVec 2) (disp : BitVec 19) : F.Statement (.bltu a b nul disp) := by
  intro h
  replace h : (scalarOk a && scalarOk b && nulOk nul) = true := h
  simp [nulOk, scalarOk] at h
  refine F.core rfl rfl (.inl ⟨rfl, rfl⟩) (decodeRaw_ok _ _ _ _ (by simp) rfl rfl rfl ?_ ?_ ?_ ?_)
  · simp [reservedValue, Kind.valid, Raw.b, Raw.c, Raw.sk, h]
  · simp (disch := decide) [reservedBits, hiUsed, Raw.sk, wide_mask]
  · first | rfl | (simp [Raw.sk] <;> omega) | simp [Raw.sk, h]
  · simp [Raw.b, Raw.c, Raw.vsrc, Raw.sk, Raw.disp, Raw.strK, Raw.strOut, Raw.strCore]

theorem F.bgeu (a : Reg) (b : Reg) (nul : BitVec 2) (disp : BitVec 19) : F.Statement (.bgeu a b nul disp) := by
  intro h
  replace h : (scalarOk a && scalarOk b && nulOk nul) = true := h
  simp [nulOk, scalarOk] at h
  refine F.core rfl rfl (.inl ⟨rfl, rfl⟩) (decodeRaw_ok _ _ _ _ (by simp) rfl rfl rfl ?_ ?_ ?_ ?_)
  · simp [reservedValue, Kind.valid, Raw.b, Raw.c, Raw.sk, h]
  · simp (disch := decide) [reservedBits, hiUsed, Raw.sk, wide_mask]
  · first | rfl | (simp [Raw.sk] <;> omega) | simp [Raw.sk, h]
  · simp [Raw.b, Raw.c, Raw.vsrc, Raw.sk, Raw.disp, Raw.strK, Raw.strOut, Raw.strCore]

theorem F.bz (a : Reg) (nul : BitVec 2) (disp : BitVec 19) : F.Statement (.bz a nul disp) := by
  intro h
  replace h : (scalarOk a && nulOk nul) = true := h
  simp [nulOk, scalarOk] at h
  refine F.core rfl rfl (.inl ⟨rfl, rfl⟩) (decodeRaw_ok _ _ _ _ (by simp) rfl rfl rfl ?_ ?_ ?_ ?_)
  · simp [reservedValue, Kind.valid, Raw.b, Raw.c, Raw.sk, h]
  · simp (disch := decide) [reservedBits, hiUsed, Raw.sk, wide_mask]
  · first | rfl | (simp [Raw.sk] <;> omega) | simp [Raw.sk, h]
  · simp [Raw.b, Raw.c, Raw.vsrc, Raw.sk, Raw.disp, Raw.strK, Raw.strOut, Raw.strCore]

theorem F.bzn (a : Reg) (nul : BitVec 2) (disp : BitVec 19) : F.Statement (.bzn a nul disp) := by
  intro h
  replace h : (scalarOk a && nulOk nul) = true := h
  simp [nulOk, scalarOk] at h
  refine F.core rfl rfl (.inl ⟨rfl, rfl⟩) (decodeRaw_ok _ _ _ _ (by simp) rfl rfl rfl ?_ ?_ ?_ ?_)
  · simp [reservedValue, Kind.valid, Raw.b, Raw.c, Raw.sk, h]
  · simp (disch := decide) [reservedBits, hiUsed, Raw.sk, wide_mask]
  · first | rfl | (simp [Raw.sk] <;> omega) | simp [Raw.sk, h]
  · simp [Raw.b, Raw.c, Raw.vsrc, Raw.sk, Raw.disp, Raw.strK, Raw.strOut, Raw.strCore]

theorem F.j (nul : BitVec 2) (imm : BitVec 25) : F.Statement (.j nul imm) := by
  intro h
  replace h : (nulOk nul) = true := h
  simp [nulOk] at h
  refine F.core rfl rfl (.inl ⟨rfl, rfl⟩) (decodeRaw_ok _ _ _ _ (by simp) rfl rfl rfl ?_ ?_ ?_ ?_)
  · simp [reservedValue, Kind.valid, Raw.b, Raw.c, Raw.sk, h]
  · simp (disch := decide) [reservedBits, hiUsed, Raw.sk, wide_mask]
  · first | rfl | (simp [Raw.sk] <;> omega) | simp [Raw.sk, h]
  · simp [Raw.b, Raw.c, Raw.vsrc, Raw.sk, Raw.disp, Raw.strK, Raw.strOut, Raw.strCore]

theorem F.jl (d : Reg) (nul : BitVec 2) (imm : BitVec 25) : F.Statement (.jl d nul imm) := by
  intro h
  replace h : (scalarOk d && nulOk nul) = true := h
  simp [nulOk, scalarOk] at h
  refine F.core rfl rfl (.inl ⟨rfl, rfl⟩) (decodeRaw_ok _ _ _ _ (by simp) rfl rfl rfl ?_ ?_ ?_ ?_)
  · simp [reservedValue, Kind.valid, Raw.b, Raw.c, Raw.sk, h]
  · simp (disch := decide) [reservedBits, hiUsed, Raw.sk, wide_mask]
  · first | rfl | (simp [Raw.sk] <;> omega) | simp [Raw.sk, h]
  · simp [Raw.b, Raw.c, Raw.vsrc, Raw.sk, Raw.disp, Raw.strK, Raw.strOut, Raw.strCore]

theorem F.jr (d : Reg) (a : Reg) (nul : BitVec 2) : F.Statement (.jr d a nul) := by
  intro h
  replace h : (scalarOk d && scalarOk a && nulOk nul) = true := h
  simp [nulOk, scalarOk] at h
  refine F.core rfl rfl (.inl ⟨rfl, rfl⟩) (decodeRaw_ok _ _ _ _ (by simp) rfl rfl rfl ?_ ?_ ?_ ?_)
  · simp [reservedValue, Kind.valid, Raw.b, Raw.c, Raw.sk, h]
  · simp (disch := decide) [reservedBits, hiUsed, Raw.sk, wide_mask]
  · first | rfl | (simp [Raw.sk] <;> omega) | simp [Raw.sk, h]
  · simp [Raw.b, Raw.c, Raw.vsrc, Raw.sk, Raw.disp, Raw.strK, Raw.strOut, Raw.strCore]

theorem F.csrd (d : Reg) (imm : BitVec 12) : F.Statement (.csrd d imm) := by
  intro h
  replace h : (scalarOk d) = true := h
  simp [scalarOk] at h
  refine F.core rfl rfl (.inl ⟨rfl, rfl⟩) (decodeRaw_ok _ _ _ _ (by simp) rfl rfl rfl ?_ ?_ ?_ ?_)
  · simp [reservedValue, Kind.valid, Raw.b, Raw.c, Raw.sk, h]
  · simp (disch := decide) [reservedBits, hiUsed, Raw.sk, wide_mask]
  · first | rfl | (simp [Raw.sk] <;> omega) | simp [Raw.sk, h]
  · simp [Raw.b, Raw.c, Raw.vsrc, Raw.sk, Raw.disp, Raw.strK, Raw.strOut, Raw.strCore]

theorem F.cswr (a : Reg) (imm : BitVec 12) : F.Statement (.cswr a imm) := by
  intro h
  replace h : (scalarOk a) = true := h
  simp [scalarOk] at h
  refine F.core rfl rfl (.inl ⟨rfl, rfl⟩) (decodeRaw_ok _ _ _ _ (by simp) rfl rfl rfl ?_ ?_ ?_ ?_)
  · simp [reservedValue, Kind.valid, Raw.b, Raw.c, Raw.sk, h]
  · simp (disch := decide) [reservedBits, hiUsed, Raw.sk, wide_mask]
  · first | rfl | (simp [Raw.sk] <;> omega) | simp [Raw.sk, h]
  · simp [Raw.b, Raw.c, Raw.vsrc, Raw.sk, Raw.disp, Raw.strK, Raw.strOut, Raw.strCore]

theorem F.csset (d : Reg) (a : Reg) (imm : BitVec 12) : F.Statement (.csset d a imm) := by
  intro h
  replace h : (scalarOk d && scalarOk a) = true := h
  simp [scalarOk] at h
  refine F.core rfl rfl (.inl ⟨rfl, rfl⟩) (decodeRaw_ok _ _ _ _ (by simp) rfl rfl rfl ?_ ?_ ?_ ?_)
  · simp [reservedValue, Kind.valid, Raw.b, Raw.c, Raw.sk, h]
  · simp (disch := decide) [reservedBits, hiUsed, Raw.sk, wide_mask]
  · first | rfl | (simp [Raw.sk] <;> omega) | simp [Raw.sk, h]
  · simp [Raw.b, Raw.c, Raw.vsrc, Raw.sk, Raw.disp, Raw.strK, Raw.strOut, Raw.strCore]

theorem F.csclr (d : Reg) (a : Reg) (imm : BitVec 12) : F.Statement (.csclr d a imm) := by
  intro h
  replace h : (scalarOk d && scalarOk a) = true := h
  simp [scalarOk] at h
  refine F.core rfl rfl (.inl ⟨rfl, rfl⟩) (decodeRaw_ok _ _ _ _ (by simp) rfl rfl rfl ?_ ?_ ?_ ?_)
  · simp [reservedValue, Kind.valid, Raw.b, Raw.c, Raw.sk, h]
  · simp (disch := decide) [reservedBits, hiUsed, Raw.sk, wide_mask]
  · first | rfl | (simp [Raw.sk] <;> omega) | simp [Raw.sk, h]
  · simp [Raw.b, Raw.c, Raw.vsrc, Raw.sk, Raw.disp, Raw.strK, Raw.strOut, Raw.strCore]

theorem F.ld (d : Reg) (a : Reg) (esz : BitVec 2) (ord : BitVec 2) (scope : BitVec 3) (imm : BitVec 25) : F.Statement (.ld d a esz ord scope imm) := by
  intro h
  replace h : (scalarOk d && scalarOk a && scopeOk scope && decide (ord.toNat < 2)) = true := h
  simp [scalarOk, scopeOk] at h
  refine F.core rfl rfl (.inl ⟨rfl, rfl⟩) (decodeRaw_ok _ _ _ _ (by simp) rfl rfl rfl ?_ ?_ ?_ ?_)
  · simp [reservedValue, Kind.valid, Raw.b, Raw.c, Raw.sk, h]
  · simp (disch := decide) [reservedBits, hiUsed, Raw.sk, wide_mask]
  · first | rfl | (simp [Raw.sk] <;> omega) | simp [Raw.sk, h]
  · simp [Raw.b, Raw.c, Raw.vsrc, Raw.sk, Raw.disp, Raw.strK, Raw.strOut, Raw.strCore]

theorem F.lds (d : Reg) (a : Reg) (esz : BitVec 2) (ord : BitVec 2) (scope : BitVec 3) (imm : BitVec 25) : F.Statement (.lds d a esz ord scope imm) := by
  intro h
  replace h : (scalarOk d && scalarOk a && scopeOk scope && decide (ord.toNat < 2) && decide (esz ≠ 3#2)) = true := h
  simp [scalarOk, scopeOk] at h
  refine F.core rfl rfl (.inl ⟨rfl, rfl⟩) (decodeRaw_ok _ _ _ _ (by simp) rfl rfl rfl ?_ ?_ ?_ ?_)
  · simp [reservedValue, Kind.valid, Raw.b, Raw.c, Raw.sk, h]
  · simp (disch := decide) [reservedBits, hiUsed, Raw.sk, wide_mask]
  · first | rfl | (simp [Raw.sk] <;> omega) | simp [Raw.sk, h]
  · simp [Raw.b, Raw.c, Raw.vsrc, Raw.sk, Raw.disp, Raw.strK, Raw.strOut, Raw.strCore]

theorem F.st (d : Reg) (a : Reg) (esz : BitVec 2) (ord : BitVec 2) (scope : BitVec 3) (imm : BitVec 25) : F.Statement (.st d a esz ord scope imm) := by
  intro h
  replace h : (scalarOk d && scalarOk a && scopeOk scope && decide (ord.toNat % 2 = 0)) = true := h
  simp [scalarOk, scopeOk] at h
  refine F.core rfl rfl (.inl ⟨rfl, rfl⟩) (decodeRaw_ok _ _ _ _ (by simp) rfl rfl rfl ?_ ?_ ?_ ?_)
  · simp [reservedValue, Kind.valid, Raw.b, Raw.c, Raw.sk, h]
  · simp (disch := decide) [reservedBits, hiUsed, Raw.sk, wide_mask]
  · first | rfl | (simp [Raw.sk] <;> omega) | simp [Raw.sk, h]
  · simp [Raw.b, Raw.c, Raw.vsrc, Raw.sk, Raw.disp, Raw.strK, Raw.strOut, Raw.strCore]

theorem F.ld64 (d : Reg) (a : Reg) (ord : BitVec 2) (scope : BitVec 3) (imm : BitVec 25) : F.Statement (.ld64 d a ord scope imm) := by
  intro h
  replace h : (vectorOk d && scalarOk a && scopeOk scope && decide (ord.toNat < 2)) = true := h
  simp [scalarOk, scopeOk, vectorOk] at h
  refine F.core rfl rfl (.inl ⟨rfl, rfl⟩) (decodeRaw_ok _ _ _ _ (by simp) rfl rfl rfl ?_ ?_ ?_ ?_)
  · simp [reservedValue, Kind.valid, Raw.b, Raw.c, Raw.sk, h]
  · simp (disch := decide) [reservedBits, hiUsed, Raw.sk, wide_mask]
  · first | rfl | (simp [Raw.sk] <;> omega) | simp [Raw.sk, h]
  · simp [Raw.b, Raw.c, Raw.vsrc, Raw.sk, Raw.disp, Raw.strK, Raw.strOut, Raw.strCore]

theorem F.st64 (d : Reg) (a : Reg) (ord : BitVec 2) (scope : BitVec 3) (imm : BitVec 25) : F.Statement (.st64 d a ord scope imm) := by
  intro h
  replace h : (vectorOk d && scalarOk a && scopeOk scope && decide (ord.toNat % 2 = 0)) = true := h
  simp [scalarOk, scopeOk, vectorOk] at h
  refine F.core rfl rfl (.inl ⟨rfl, rfl⟩) (decodeRaw_ok _ _ _ _ (by simp) rfl rfl rfl ?_ ?_ ?_ ?_)
  · simp [reservedValue, Kind.valid, Raw.b, Raw.c, Raw.sk, h]
  · simp (disch := decide) [reservedBits, hiUsed, Raw.sk, wide_mask]
  · first | rfl | (simp [Raw.sk] <;> omega) | simp [Raw.sk, h]
  · simp [Raw.b, Raw.c, Raw.vsrc, Raw.sk, Raw.disp, Raw.strK, Raw.strOut, Raw.strCore]

theorem F.amoswap (d : Reg) (a : Reg) (b : Reg) (esz : BitVec 2) (ord : BitVec 2) (scope : BitVec 3) : F.Statement (.amoswap d a b esz ord scope) := by
  intro h
  replace h : (scalarOk d && scalarOk a && scalarOk b && scopeOk scope && decide (2 ≤ esz.toNat)) = true := h
  simp [scalarOk, scopeOk] at h
  refine F.core rfl rfl (.inl ⟨rfl, rfl⟩) (decodeRaw_ok _ _ _ _ (by simp) rfl rfl rfl ?_ ?_ ?_ ?_)
  · simp [reservedValue, Kind.valid, Raw.b, Raw.c, Raw.sk, h]
  · simp (disch := decide) [reservedBits, hiUsed, Raw.sk, wide_mask]
  · first | rfl | (simp [Raw.sk] <;> omega) | simp [Raw.sk, h]
  · simp [Raw.b, Raw.c, Raw.vsrc, Raw.sk, Raw.disp, Raw.strK, Raw.strOut, Raw.strCore]

theorem F.amoadd (d : Reg) (a : Reg) (b : Reg) (esz : BitVec 2) (ord : BitVec 2) (scope : BitVec 3) : F.Statement (.amoadd d a b esz ord scope) := by
  intro h
  replace h : (scalarOk d && scalarOk a && scalarOk b && scopeOk scope && decide (2 ≤ esz.toNat)) = true := h
  simp [scalarOk, scopeOk] at h
  refine F.core rfl rfl (.inl ⟨rfl, rfl⟩) (decodeRaw_ok _ _ _ _ (by simp) rfl rfl rfl ?_ ?_ ?_ ?_)
  · simp [reservedValue, Kind.valid, Raw.b, Raw.c, Raw.sk, h]
  · simp (disch := decide) [reservedBits, hiUsed, Raw.sk, wide_mask]
  · first | rfl | (simp [Raw.sk] <;> omega) | simp [Raw.sk, h]
  · simp [Raw.b, Raw.c, Raw.vsrc, Raw.sk, Raw.disp, Raw.strK, Raw.strOut, Raw.strCore]

theorem F.amoand (d : Reg) (a : Reg) (b : Reg) (esz : BitVec 2) (ord : BitVec 2) (scope : BitVec 3) : F.Statement (.amoand d a b esz ord scope) := by
  intro h
  replace h : (scalarOk d && scalarOk a && scalarOk b && scopeOk scope && decide (2 ≤ esz.toNat)) = true := h
  simp [scalarOk, scopeOk] at h
  refine F.core rfl rfl (.inl ⟨rfl, rfl⟩) (decodeRaw_ok _ _ _ _ (by simp) rfl rfl rfl ?_ ?_ ?_ ?_)
  · simp [reservedValue, Kind.valid, Raw.b, Raw.c, Raw.sk, h]
  · simp (disch := decide) [reservedBits, hiUsed, Raw.sk, wide_mask]
  · first | rfl | (simp [Raw.sk] <;> omega) | simp [Raw.sk, h]
  · simp [Raw.b, Raw.c, Raw.vsrc, Raw.sk, Raw.disp, Raw.strK, Raw.strOut, Raw.strCore]

theorem F.amoor (d : Reg) (a : Reg) (b : Reg) (esz : BitVec 2) (ord : BitVec 2) (scope : BitVec 3) : F.Statement (.amoor d a b esz ord scope) := by
  intro h
  replace h : (scalarOk d && scalarOk a && scalarOk b && scopeOk scope && decide (2 ≤ esz.toNat)) = true := h
  simp [scalarOk, scopeOk] at h
  refine F.core rfl rfl (.inl ⟨rfl, rfl⟩) (decodeRaw_ok _ _ _ _ (by simp) rfl rfl rfl ?_ ?_ ?_ ?_)
  · simp [reservedValue, Kind.valid, Raw.b, Raw.c, Raw.sk, h]
  · simp (disch := decide) [reservedBits, hiUsed, Raw.sk, wide_mask]
  · first | rfl | (simp [Raw.sk] <;> omega) | simp [Raw.sk, h]
  · simp [Raw.b, Raw.c, Raw.vsrc, Raw.sk, Raw.disp, Raw.strK, Raw.strOut, Raw.strCore]

theorem F.amoxor (d : Reg) (a : Reg) (b : Reg) (esz : BitVec 2) (ord : BitVec 2) (scope : BitVec 3) : F.Statement (.amoxor d a b esz ord scope) := by
  intro h
  replace h : (scalarOk d && scalarOk a && scalarOk b && scopeOk scope && decide (2 ≤ esz.toNat)) = true := h
  simp [scalarOk, scopeOk] at h
  refine F.core rfl rfl (.inl ⟨rfl, rfl⟩) (decodeRaw_ok _ _ _ _ (by simp) rfl rfl rfl ?_ ?_ ?_ ?_)
  · simp [reservedValue, Kind.valid, Raw.b, Raw.c, Raw.sk, h]
  · simp (disch := decide) [reservedBits, hiUsed, Raw.sk, wide_mask]
  · first | rfl | (simp [Raw.sk] <;> omega) | simp [Raw.sk, h]
  · simp [Raw.b, Raw.c, Raw.vsrc, Raw.sk, Raw.disp, Raw.strK, Raw.strOut, Raw.strCore]

theorem F.amomin (d : Reg) (a : Reg) (b : Reg) (esz : BitVec 2) (ord : BitVec 2) (scope : BitVec 3) : F.Statement (.amomin d a b esz ord scope) := by
  intro h
  replace h : (scalarOk d && scalarOk a && scalarOk b && scopeOk scope && decide (2 ≤ esz.toNat)) = true := h
  simp [scalarOk, scopeOk] at h
  refine F.core rfl rfl (.inl ⟨rfl, rfl⟩) (decodeRaw_ok _ _ _ _ (by simp) rfl rfl rfl ?_ ?_ ?_ ?_)
  · simp [reservedValue, Kind.valid, Raw.b, Raw.c, Raw.sk, h]
  · simp (disch := decide) [reservedBits, hiUsed, Raw.sk, wide_mask]
  · first | rfl | (simp [Raw.sk] <;> omega) | simp [Raw.sk, h]
  · simp [Raw.b, Raw.c, Raw.vsrc, Raw.sk, Raw.disp, Raw.strK, Raw.strOut, Raw.strCore]

theorem F.amomax (d : Reg) (a : Reg) (b : Reg) (esz : BitVec 2) (ord : BitVec 2) (scope : BitVec 3) : F.Statement (.amomax d a b esz ord scope) := by
  intro h
  replace h : (scalarOk d && scalarOk a && scalarOk b && scopeOk scope && decide (2 ≤ esz.toNat)) = true := h
  simp [scalarOk, scopeOk] at h
  refine F.core rfl rfl (.inl ⟨rfl, rfl⟩) (decodeRaw_ok _ _ _ _ (by simp) rfl rfl rfl ?_ ?_ ?_ ?_)
  · simp [reservedValue, Kind.valid, Raw.b, Raw.c, Raw.sk, h]
  · simp (disch := decide) [reservedBits, hiUsed, Raw.sk, wide_mask]
  · first | rfl | (simp [Raw.sk] <;> omega) | simp [Raw.sk, h]
  · simp [Raw.b, Raw.c, Raw.vsrc, Raw.sk, Raw.disp, Raw.strK, Raw.strOut, Raw.strCore]

theorem F.amominu (d : Reg) (a : Reg) (b : Reg) (esz : BitVec 2) (ord : BitVec 2) (scope : BitVec 3) : F.Statement (.amominu d a b esz ord scope) := by
  intro h
  replace h : (scalarOk d && scalarOk a && scalarOk b && scopeOk scope && decide (2 ≤ esz.toNat)) = true := h
  simp [scalarOk, scopeOk] at h
  refine F.core rfl rfl (.inl ⟨rfl, rfl⟩) (decodeRaw_ok _ _ _ _ (by simp) rfl rfl rfl ?_ ?_ ?_ ?_)
  · simp [reservedValue, Kind.valid, Raw.b, Raw.c, Raw.sk, h]
  · simp (disch := decide) [reservedBits, hiUsed, Raw.sk, wide_mask]
  · first | rfl | (simp [Raw.sk] <;> omega) | simp [Raw.sk, h]
  · simp [Raw.b, Raw.c, Raw.vsrc, Raw.sk, Raw.disp, Raw.strK, Raw.strOut, Raw.strCore]

theorem F.amomaxu (d : Reg) (a : Reg) (b : Reg) (esz : BitVec 2) (ord : BitVec 2) (scope : BitVec 3) : F.Statement (.amomaxu d a b esz ord scope) := by
  intro h
  replace h : (scalarOk d && scalarOk a && scalarOk b && scopeOk scope && decide (2 ≤ esz.toNat)) = true := h
  simp [scalarOk, scopeOk] at h
  refine F.core rfl rfl (.inl ⟨rfl, rfl⟩) (decodeRaw_ok _ _ _ _ (by simp) rfl rfl rfl ?_ ?_ ?_ ?_)
  · simp [reservedValue, Kind.valid, Raw.b, Raw.c, Raw.sk, h]
  · simp (disch := decide) [reservedBits, hiUsed, Raw.sk, wide_mask]
  · first | rfl | (simp [Raw.sk] <;> omega) | simp [Raw.sk, h]
  · simp [Raw.b, Raw.c, Raw.vsrc, Raw.sk, Raw.disp, Raw.strK, Raw.strOut, Raw.strCore]

theorem F.amocas (d : Reg) (a : Reg) (b : Reg) (c : Reg) (esz : BitVec 2) (ord : BitVec 2) (scope : BitVec 3) : F.Statement (.amocas d a b c esz ord scope) := by
  intro h
  replace h : (scalarOk d && scalarOk a && scalarOk b && scalarOk c && scopeOk scope && decide (2 ≤ esz.toNat)) = true := h
  simp [scalarOk, scopeOk] at h
  refine F.core rfl rfl (.inl ⟨rfl, rfl⟩) (decodeRaw_ok _ _ _ _ (by simp) rfl rfl rfl ?_ ?_ ?_ ?_)
  · simp [reservedValue, Kind.valid, Raw.b, Raw.c, Raw.sk, h]
  · simp (disch := decide) [reservedBits, hiUsed, Raw.sk, wide_mask]
  · first | rfl | (simp [Raw.sk] <;> omega) | simp [Raw.sk, h]
  · simp [Raw.b, Raw.c, Raw.vsrc, Raw.sk, Raw.disp, Raw.strK, Raw.strOut, Raw.strCore]

theorem F.fence (ord : BitVec 2) (scope : BitVec 3) : F.Statement (.fence ord scope) := by
  intro h
  replace h : (scopeOk scope && decide (ord ≠ 0#2)) = true := h
  simp [scopeOk] at h
  refine F.core rfl rfl (.inl ⟨rfl, rfl⟩) (decodeRaw_ok _ _ _ _ (by simp) rfl rfl rfl ?_ ?_ ?_ ?_)
  · simp [reservedValue, Kind.valid, Raw.b, Raw.c, Raw.sk, h]
  · simp (disch := decide) [reservedBits, hiUsed, Raw.sk, wide_mask]
  · first | rfl | (simp [Raw.sk] <;> omega) | simp [Raw.sk, h]
  · simp [Raw.b, Raw.c, Raw.vsrc, Raw.sk, Raw.disp, Raw.strK, Raw.strOut, Raw.strCore]

theorem F.qlen (d : Reg) (a : Reg) : F.Statement (.qlen d a) := by
  intro h
  replace h : (scalarOk d && queueOk a) = true := h
  simp [queueOk, scalarOk] at h
  refine F.core rfl rfl (.inl ⟨rfl, rfl⟩) (decodeRaw_ok _ _ _ _ (by simp) rfl rfl rfl ?_ ?_ ?_ ?_)
  · simp [reservedValue, Kind.valid, Raw.b, Raw.c, Raw.sk, h]
  · simp (disch := decide) [reservedBits, hiUsed, Raw.sk, wide_mask]
  · first | rfl | (simp [Raw.sk] <;> omega) | simp [Raw.sk, h]
  · simp [Raw.b, Raw.c, Raw.vsrc, Raw.sk, Raw.disp, Raw.strK, Raw.strOut, Raw.strCore]

theorem F.qroom (d : Reg) (a : Reg) : F.Statement (.qroom d a) := by
  intro h
  replace h : (scalarOk d && queueOk a) = true := h
  simp [queueOk, scalarOk] at h
  refine F.core rfl rfl (.inl ⟨rfl, rfl⟩) (decodeRaw_ok _ _ _ _ (by simp) rfl rfl rfl ?_ ?_ ?_ ?_)
  · simp [reservedValue, Kind.valid, Raw.b, Raw.c, Raw.sk, h]
  · simp (disch := decide) [reservedBits, hiUsed, Raw.sk, wide_mask]
  · first | rfl | (simp [Raw.sk] <;> omega) | simp [Raw.sk, h]
  · simp [Raw.b, Raw.c, Raw.vsrc, Raw.sk, Raw.disp, Raw.strK, Raw.strOut, Raw.strCore]

theorem F.qpeek (d : Reg) (a : Reg) : F.Statement (.qpeek d a) := by
  intro h
  replace h : (scalarOk d && queueOk a) = true := h
  simp [queueOk, scalarOk] at h
  refine F.core rfl rfl (.inl ⟨rfl, rfl⟩) (decodeRaw_ok _ _ _ _ (by simp) rfl rfl rfl ?_ ?_ ?_ ?_)
  · simp [reservedValue, Kind.valid, Raw.b, Raw.c, Raw.sk, h]
  · simp (disch := decide) [reservedBits, hiUsed, Raw.sk, wide_mask]
  · first | rfl | (simp [Raw.sk] <;> omega) | simp [Raw.sk, h]
  · simp [Raw.b, Raw.c, Raw.vsrc, Raw.sk, Raw.disp, Raw.strK, Raw.strOut, Raw.strCore]

theorem F.strgo (a : Reg) (k : BitVec 2) (out : Bool) (core : Bool) (ext : BitVec 64) : F.Statement (.strgo a k out core ext) := by
  intro h
  replace h : (scalarOk a) = true := h
  simp [scalarOk] at h
  refine F.core rfl rfl (.inr (.inr rfl)) (decodeRaw_ok _ _ _ _ (by simp) rfl rfl rfl ?_ ?_ ?_ ?_)
  · simp [reservedValue, Kind.valid, Raw.b, Raw.c, Raw.sk, h]
  · simp (disch := decide) [reservedBits, hiUsed, Raw.sk, wide_mask]
  · first | rfl | (simp [Raw.sk] <;> omega) | simp [Raw.sk, h]
  · simp [Raw.b, Raw.c, Raw.vsrc, Raw.sk, Raw.disp, Raw.strK, Raw.strOut, Raw.strCore]

theorem F.strstop (k : BitVec 2) : F.Statement (.strstop k) := by
  intro _
  refine F.core rfl rfl (.inr (.inr rfl)) (decodeRaw_ok _ _ _ _ (by simp) rfl rfl rfl ?_ ?_ ?_ ?_)
  · simp [reservedValue, Kind.valid, Raw.b, Raw.c, Raw.sk]
  · simp (disch := decide) [reservedBits, hiUsed, Raw.sk, wide_mask]
  · first | rfl | (simp [Raw.sk] <;> omega) | simp [Raw.sk, h]
  · simp [Raw.b, Raw.c, Raw.vsrc, Raw.sk, Raw.disp, Raw.strK, Raw.strOut, Raw.strCore]

theorem F.strwait (k : BitVec 2) : F.Statement (.strwait k) := by
  intro _
  refine F.core rfl rfl (.inr (.inr rfl)) (decodeRaw_ok _ _ _ _ (by simp) rfl rfl rfl ?_ ?_ ?_ ?_)
  · simp [reservedValue, Kind.valid, Raw.b, Raw.c, Raw.sk]
  · simp (disch := decide) [reservedBits, hiUsed, Raw.sk, wide_mask]
  · first | rfl | (simp [Raw.sk] <;> omega) | simp [Raw.sk, h]
  · simp [Raw.b, Raw.c, Raw.vsrc, Raw.sk, Raw.disp, Raw.strK, Raw.strOut, Raw.strCore]

theorem F.strcnt (d : Reg) (k : BitVec 2) : F.Statement (.strcnt d k) := by
  intro h
  replace h : (scalarOk d) = true := h
  simp [scalarOk] at h
  refine F.core rfl rfl (.inr (.inr rfl)) (decodeRaw_ok _ _ _ _ (by simp) rfl rfl rfl ?_ ?_ ?_ ?_)
  · simp [reservedValue, Kind.valid, Raw.b, Raw.c, Raw.sk, h]
  · simp (disch := decide) [reservedBits, hiUsed, Raw.sk, wide_mask]
  · first | rfl | (simp [Raw.sk] <;> omega) | simp [Raw.sk, h]
  · simp [Raw.b, Raw.c, Raw.vsrc, Raw.sk, Raw.disp, Raw.strK, Raw.strOut, Raw.strCore]

theorem F.semw (imm : BitVec 13) : F.Statement (.semw imm) := by
  intro _
  refine F.core rfl rfl (.inl ⟨rfl, rfl⟩) (decodeRaw_ok _ _ _ _ (by simp) rfl rfl rfl ?_ ?_ ?_ ?_)
  · simp [reservedValue, Kind.valid, Raw.b, Raw.c, Raw.sk]
  · simp (disch := decide) [reservedBits, hiUsed, Raw.sk, wide_mask]
  · first | rfl | (simp [Raw.sk] <;> omega) | simp [Raw.sk, h]
  · simp [Raw.b, Raw.c, Raw.vsrc, Raw.sk, Raw.disp, Raw.strK, Raw.strOut, Raw.strCore]

theorem F.semp (imm : BitVec 13) : F.Statement (.semp imm) := by
  intro _
  refine F.core rfl rfl (.inl ⟨rfl, rfl⟩) (decodeRaw_ok _ _ _ _ (by simp) rfl rfl rfl ?_ ?_ ?_ ?_)
  · simp [reservedValue, Kind.valid, Raw.b, Raw.c, Raw.sk]
  · simp (disch := decide) [reservedBits, hiUsed, Raw.sk, wide_mask]
  · first | rfl | (simp [Raw.sk] <;> omega) | simp [Raw.sk, h]
  · simp [Raw.b, Raw.c, Raw.vsrc, Raw.sk, Raw.disp, Raw.strK, Raw.strOut, Raw.strCore]

theorem F.semtry (d : Reg) (imm : BitVec 13) : F.Statement (.semtry d imm) := by
  intro h
  replace h : (scalarOk d) = true := h
  simp [scalarOk] at h
  refine F.core rfl rfl (.inl ⟨rfl, rfl⟩) (decodeRaw_ok _ _ _ _ (by simp) rfl rfl rfl ?_ ?_ ?_ ?_)
  · simp [reservedValue, Kind.valid, Raw.b, Raw.c, Raw.sk, h]
  · simp (disch := decide) [reservedBits, hiUsed, Raw.sk, wide_mask]
  · first | rfl | (simp [Raw.sk] <;> omega) | simp [Raw.sk, h]
  · simp [Raw.b, Raw.c, Raw.vsrc, Raw.sk, Raw.disp, Raw.strK, Raw.strOut, Raw.strCore]

theorem F.semrd (d : Reg) (imm : BitVec 5) : F.Statement (.semrd d imm) := by
  intro h
  replace h : (scalarOk d) = true := h
  simp [scalarOk] at h
  refine F.core rfl rfl (.inl ⟨rfl, rfl⟩) (decodeRaw_ok _ _ _ _ (by simp) rfl rfl rfl ?_ ?_ ?_ ?_)
  · simp [reservedValue, Kind.valid, Raw.b, Raw.c, Raw.sk, h]
  · simp (disch := decide) [reservedBits, hiUsed, Raw.sk, wide_mask]
  · first | rfl | (simp [Raw.sk] <;> omega) | simp [Raw.sk, h]
  · simp [Raw.b, Raw.c, Raw.vsrc, Raw.sk, Raw.disp, Raw.strK, Raw.strOut, Raw.strCore]

theorem F.barset (d : Reg) (a : Reg) (imm : BitVec 25) : F.Statement (.barset d a imm) := by
  intro h
  replace h : (scalarOk d && scalarOk a) = true := h
  simp [scalarOk] at h
  refine F.core rfl rfl (.inl ⟨rfl, rfl⟩) (decodeRaw_ok _ _ _ _ (by simp) rfl rfl rfl ?_ ?_ ?_ ?_)
  · simp [reservedValue, Kind.valid, Raw.b, Raw.c, Raw.sk, h]
  · simp (disch := decide) [reservedBits, hiUsed, Raw.sk, wide_mask]
  · first | rfl | (simp [Raw.sk] <;> omega) | simp [Raw.sk, h]
  · simp [Raw.b, Raw.c, Raw.vsrc, Raw.sk, Raw.disp, Raw.strK, Raw.strOut, Raw.strCore]

theorem F.bararr (d : Reg) (a : Reg) (imm : BitVec 25) : F.Statement (.bararr d a imm) := by
  intro h
  replace h : (scalarOk d && scalarOk a) = true := h
  simp [scalarOk] at h
  refine F.core rfl rfl (.inl ⟨rfl, rfl⟩) (decodeRaw_ok _ _ _ _ (by simp) rfl rfl rfl ?_ ?_ ?_ ?_)
  · simp [reservedValue, Kind.valid, Raw.b, Raw.c, Raw.sk, h]
  · simp (disch := decide) [reservedBits, hiUsed, Raw.sk, wide_mask]
  · first | rfl | (simp [Raw.sk] <;> omega) | simp [Raw.sk, h]
  · simp [Raw.b, Raw.c, Raw.vsrc, Raw.sk, Raw.disp, Raw.strK, Raw.strOut, Raw.strCore]

theorem F.barwait (d : Reg) (a : Reg) (imm : BitVec 25) : F.Statement (.barwait d a imm) := by
  intro h
  replace h : (scalarOk d && scalarOk a) = true := h
  simp [scalarOk] at h
  refine F.core rfl rfl (.inl ⟨rfl, rfl⟩) (decodeRaw_ok _ _ _ _ (by simp) rfl rfl rfl ?_ ?_ ?_ ?_)
  · simp [reservedValue, Kind.valid, Raw.b, Raw.c, Raw.sk, h]
  · simp (disch := decide) [reservedBits, hiUsed, Raw.sk, wide_mask]
  · first | rfl | (simp [Raw.sk] <;> omega) | simp [Raw.sk, h]
  · simp [Raw.b, Raw.c, Raw.vsrc, Raw.sk, Raw.disp, Raw.strK, Raw.strOut, Raw.strCore]

theorem F.bartest (d : Reg) (a : Reg) (imm : BitVec 25) : F.Statement (.bartest d a imm) := by
  intro h
  replace h : (scalarOk d && scalarOk a) = true := h
  simp [scalarOk] at h
  refine F.core rfl rfl (.inl ⟨rfl, rfl⟩) (decodeRaw_ok _ _ _ _ (by simp) rfl rfl rfl ?_ ?_ ?_ ?_)
  · simp [reservedValue, Kind.valid, Raw.b, Raw.c, Raw.sk, h]
  · simp (disch := decide) [reservedBits, hiUsed, Raw.sk, wide_mask]
  · first | rfl | (simp [Raw.sk] <;> omega) | simp [Raw.sk, h]
  · simp [Raw.b, Raw.c, Raw.vsrc, Raw.sk, Raw.disp, Raw.strK, Raw.strOut, Raw.strCore]

theorem F.barexp (d : Reg) (a : Reg) (imm : BitVec 25) : F.Statement (.barexp d a imm) := by
  intro h
  replace h : (scalarOk d && scalarOk a) = true := h
  simp [scalarOk] at h
  refine F.core rfl rfl (.inl ⟨rfl, rfl⟩) (decodeRaw_ok _ _ _ _ (by simp) rfl rfl rfl ?_ ?_ ?_ ?_)
  · simp [reservedValue, Kind.valid, Raw.b, Raw.c, Raw.sk, h]
  · simp (disch := decide) [reservedBits, hiUsed, Raw.sk, wide_mask]
  · first | rfl | (simp [Raw.sk] <;> omega) | simp [Raw.sk, h]
  · simp [Raw.b, Raw.c, Raw.vsrc, Raw.sk, Raw.disp, Raw.strK, Raw.strOut, Raw.strCore]

theorem F.copy (d : Reg) (a : Reg) (b : Reg) (c : Reg) (rm : BitVec 3) (ext : BitVec 64) : F.Statement (.copy d a b c rm ext) := by
  intro h
  replace h : (scalarOk d && scalarOk a && scalarOk b && (if copyForm ext = 6 ∨ copyForm ext = 7 then scalarOk c else zeroOk c) && (if copyForm ext = 2 then rmOk rm else zeroOk rm) && copyExtOk ext) = true := h
  simp [scalarOk, zeroOk, rmOk, copyExtOk, copyXf_form] at h
  refine F.core rfl rfl (.inr (.inr rfl)) (decodeRaw_ok _ _ _ _ (by simp) rfl rfl rfl ?_ ?_ ?_ ?_)
  · simp only [reservedValue, Kind.valid, Raw.b, Raw.c, hiR_b, hiR_c]; by_cases h1 : copyXf ext = 6 ∨ copyXf ext = 7 <;> by_cases h2 : copyXf ext = 2 <;> simp_all
  · simp only [reservedBits, hiUsed, copy_mask ext h.2.1.1 h.2.1.2 h.2.2]; by_cases h1 : copyXf ext = 6 ∨ copyXf ext = 7 <;> by_cases h2 : copyXf ext = 2 <;> simp_all
  · first | rfl | (simp [Raw.sk] <;> omega) | simp [Raw.sk, h]
  · simp [Raw.b, Raw.c, Raw.vsrc, Raw.sk, Raw.disp, Raw.strK, Raw.strOut, Raw.strCore]

theorem F.cwait (imm : BitVec 4) : F.Statement (.cwait imm) := by
  intro _
  refine F.core rfl rfl (.inl ⟨rfl, rfl⟩) (decodeRaw_ok _ _ _ _ (by simp) rfl rfl rfl ?_ ?_ ?_ ?_)
  · simp [reservedValue, Kind.valid, Raw.b, Raw.c, Raw.sk]
  · simp (disch := decide) [reservedBits, hiUsed, Raw.sk, wide_mask]
  · first | rfl | (simp [Raw.sk] <;> omega) | simp [Raw.sk, h]
  · simp [Raw.b, Raw.c, Raw.vsrc, Raw.sk, Raw.disp, Raw.strK, Raw.strOut, Raw.strCore]

theorem F.ctest (d : Reg) (imm : BitVec 4) : F.Statement (.ctest d imm) := by
  intro h
  replace h : (scalarOk d) = true := h
  simp [scalarOk] at h
  refine F.core rfl rfl (.inl ⟨rfl, rfl⟩) (decodeRaw_ok _ _ _ _ (by simp) rfl rfl rfl ?_ ?_ ?_ ?_)
  · simp [reservedValue, Kind.valid, Raw.b, Raw.c, Raw.sk, h]
  · simp (disch := decide) [reservedBits, hiUsed, Raw.sk, wide_mask]
  · first | rfl | (simp [Raw.sk] <;> omega) | simp [Raw.sk, h]
  · simp [Raw.b, Raw.c, Raw.vsrc, Raw.sk, Raw.disp, Raw.strK, Raw.strOut, Raw.strCore]

theorem F.ccnt (d : Reg) : F.Statement (.ccnt d) := by
  intro h
  replace h : (scalarOk d) = true := h
  simp [scalarOk] at h
  refine F.core rfl rfl (.inl ⟨rfl, rfl⟩) (decodeRaw_ok _ _ _ _ (by simp) rfl rfl rfl ?_ ?_ ?_ ?_)
  · simp [reservedValue, Kind.valid, Raw.b, Raw.c, Raw.sk, h]
  · simp (disch := decide) [reservedBits, hiUsed, Raw.sk, wide_mask]
  · first | rfl | (simp [Raw.sk] <;> omega) | simp [Raw.sk, h]
  · simp [Raw.b, Raw.c, Raw.vsrc, Raw.sk, Raw.disp, Raw.strK, Raw.strOut, Raw.strCore]

theorem F.tidld (a : Reg) (imm : BitVec 25) : F.Statement (.tidld a imm) := by
  intro h
  replace h : (scalarOk a) = true := h
  simp [scalarOk] at h
  refine F.core rfl rfl (.inl ⟨rfl, rfl⟩) (decodeRaw_ok _ _ _ _ (by simp) rfl rfl rfl ?_ ?_ ?_ ?_)
  · simp [reservedValue, Kind.valid, Raw.b, Raw.c, Raw.sk, h]
  · simp (disch := decide) [reservedBits, hiUsed, Raw.sk, wide_mask]
  · first | rfl | (simp [Raw.sk] <;> omega) | simp [Raw.sk, h]
  · simp [Raw.b, Raw.c, Raw.vsrc, Raw.sk, Raw.disp, Raw.strK, Raw.strOut, Raw.strCore]

theorem F.tidst (a : Reg) (imm : BitVec 25) : F.Statement (.tidst a imm) := by
  intro h
  replace h : (scalarOk a) = true := h
  simp [scalarOk] at h
  refine F.core rfl rfl (.inl ⟨rfl, rfl⟩) (decodeRaw_ok _ _ _ _ (by simp) rfl rfl rfl ?_ ?_ ?_ ?_)
  · simp [reservedValue, Kind.valid, Raw.b, Raw.c, Raw.sk, h]
  · simp (disch := decide) [reservedBits, hiUsed, Raw.sk, wide_mask]
  · first | rfl | (simp [Raw.sk] <;> omega) | simp [Raw.sk, h]
  · simp [Raw.b, Raw.c, Raw.vsrc, Raw.sk, Raw.disp, Raw.strK, Raw.strOut, Raw.strCore]

theorem F.tidbase (a : Reg) (imm : BitVec 6) : F.Statement (.tidbase a imm) := by
  intro h
  replace h : (scalarOk a) = true := h
  simp [scalarOk] at h
  refine F.core rfl rfl (.inl ⟨rfl, rfl⟩) (decodeRaw_ok _ _ _ _ (by simp) rfl rfl rfl ?_ ?_ ?_ ?_)
  · simp [reservedValue, Kind.valid, Raw.b, Raw.c, Raw.sk, h]
  · simp (disch := decide) [reservedBits, hiUsed, Raw.sk, wide_mask]
  · first | rfl | (simp [Raw.sk] <;> omega) | simp [Raw.sk, h]
  · simp [Raw.b, Raw.c, Raw.vsrc, Raw.sk, Raw.disp, Raw.strK, Raw.strOut, Raw.strCore]

theorem F.osclaim (imm : BitVec 5) : F.Statement (.osclaim imm) := by
  intro _
  refine F.core rfl rfl (.inl ⟨rfl, rfl⟩) (decodeRaw_ok _ _ _ _ (by simp) rfl rfl rfl ?_ ?_ ?_ ?_)
  · simp [reservedValue, Kind.valid, Raw.b, Raw.c, Raw.sk]
  · simp (disch := decide) [reservedBits, hiUsed, Raw.sk, wide_mask]
  · first | rfl | (simp [Raw.sk] <;> omega) | simp [Raw.sk, h]
  · simp [Raw.b, Raw.c, Raw.vsrc, Raw.sk, Raw.disp, Raw.strK, Raw.strOut, Raw.strCore]

theorem F.ostry (d : Reg) (imm : BitVec 5) : F.Statement (.ostry d imm) := by
  intro h
  replace h : (scalarOk d) = true := h
  simp [scalarOk] at h
  refine F.core rfl rfl (.inl ⟨rfl, rfl⟩) (decodeRaw_ok _ _ _ _ (by simp) rfl rfl rfl ?_ ?_ ?_ ?_)
  · simp [reservedValue, Kind.valid, Raw.b, Raw.c, Raw.sk, h]
  · simp (disch := decide) [reservedBits, hiUsed, Raw.sk, wide_mask]
  · first | rfl | (simp [Raw.sk] <;> omega) | simp [Raw.sk, h]
  · simp [Raw.b, Raw.c, Raw.vsrc, Raw.sk, Raw.disp, Raw.strK, Raw.strOut, Raw.strCore]

theorem F.osrel (imm : BitVec 5) : F.Statement (.osrel imm) := by
  intro _
  refine F.core rfl rfl (.inl ⟨rfl, rfl⟩) (decodeRaw_ok _ _ _ _ (by simp) rfl rfl rfl ?_ ?_ ?_ ?_)
  · simp [reservedValue, Kind.valid, Raw.b, Raw.c, Raw.sk]
  · simp (disch := decide) [reservedBits, hiUsed, Raw.sk, wide_mask]
  · first | rfl | (simp [Raw.sk] <;> omega) | simp [Raw.sk, h]
  · simp [Raw.b, Raw.c, Raw.vsrc, Raw.sk, Raw.disp, Raw.strK, Raw.strOut, Raw.strCore]

theorem F.osst (d : Reg) : F.Statement (.osst d) := by
  intro h
  replace h : (scalarOk d) = true := h
  simp [scalarOk] at h
  refine F.core rfl rfl (.inl ⟨rfl, rfl⟩) (decodeRaw_ok _ _ _ _ (by simp) rfl rfl rfl ?_ ?_ ?_ ?_)
  · simp [reservedValue, Kind.valid, Raw.b, Raw.c, Raw.sk, h]
  · simp (disch := decide) [reservedBits, hiUsed, Raw.sk, wide_mask]
  · first | rfl | (simp [Raw.sk] <;> omega) | simp [Raw.sk, h]
  · simp [Raw.b, Raw.c, Raw.vsrc, Raw.sk, Raw.disp, Raw.strK, Raw.strOut, Raw.strCore]

theorem F.vadd (d : Reg) (a : Reg) (b : VSrc) (rm : BitVec 3) : F.Statement (.vadd d a b rm) := by
  intro h
  replace h : (vectorOk d && vectorOk a && vsrcOk b && rmOk rm && decide (rm ≠ 6#3)) = true := h
  cases b
  all_goals
    simp [rmOk, vectorOk, vsrcOk] at h
    refine F.core rfl rfl (.inl ⟨rfl, rfl⟩) (decodeRaw_ok _ _ _ _ (by simp) rfl rfl rfl ?_ ?_ ?_ ?_)
    · simp [reservedValue, Kind.valid, Raw.b, Raw.c, Raw.sk, h]
    · simp (disch := decide) [reservedBits, hiUsed, Raw.sk, wide_mask]
    · first | rfl | (simp [Raw.sk] <;> omega) | simp [Raw.sk, h]
    · simp [Raw.b, Raw.c, Raw.vsrc, Raw.sk, Raw.disp, Raw.strK, Raw.strOut, Raw.strCore]

theorem F.vsub (d : Reg) (a : Reg) (b : VSrc) (rm : BitVec 3) : F.Statement (.vsub d a b rm) := by
  intro h
  replace h : (vectorOk d && vectorOk a && vsrcOk b && rmOk rm && decide (rm ≠ 6#3)) = true := h
  cases b
  all_goals
    simp [rmOk, vectorOk, vsrcOk] at h
    refine F.core rfl rfl (.inl ⟨rfl, rfl⟩) (decodeRaw_ok _ _ _ _ (by simp) rfl rfl rfl ?_ ?_ ?_ ?_)
    · simp [reservedValue, Kind.valid, Raw.b, Raw.c, Raw.sk, h]
    · simp (disch := decide) [reservedBits, hiUsed, Raw.sk, wide_mask]
    · first | rfl | (simp [Raw.sk] <;> omega) | simp [Raw.sk, h]
    · simp [Raw.b, Raw.c, Raw.vsrc, Raw.sk, Raw.disp, Raw.strK, Raw.strOut, Raw.strCore]

theorem F.vmul (d : Reg) (a : Reg) (b : VSrc) (rm : BitVec 3) : F.Statement (.vmul d a b rm) := by
  intro h
  replace h : (vectorOk d && vectorOk a && vsrcOk b && rmOk rm && decide (rm ≠ 6#3)) = true := h
  cases b
  all_goals
    simp [rmOk, vectorOk, vsrcOk] at h
    refine F.core rfl rfl (.inl ⟨rfl, rfl⟩) (decodeRaw_ok _ _ _ _ (by simp) rfl rfl rfl ?_ ?_ ?_ ?_)
    · simp [reservedValue, Kind.valid, Raw.b, Raw.c, Raw.sk, h]
    · simp (disch := decide) [reservedBits, hiUsed, Raw.sk, wide_mask]
    · first | rfl | (simp [Raw.sk] <;> omega) | simp [Raw.sk, h]
    · simp [Raw.b, Raw.c, Raw.vsrc, Raw.sk, Raw.disp, Raw.strK, Raw.strOut, Raw.strCore]

theorem F.vfma (d : Reg) (a : Reg) (b : VSrc) (c : Reg) (rm : BitVec 3) : F.Statement (.vfma d a b c rm) := by
  intro h
  replace h : (vectorOk d && vectorOk a && vsrcOk b && vectorOk c && rmOk rm && decide (rm ≠ 6#3)) = true := h
  cases b
  all_goals
    simp [rmOk, vectorOk, vsrcOk] at h
    refine F.core rfl rfl (.inl ⟨rfl, rfl⟩) (decodeRaw_ok _ _ _ _ (by simp) rfl rfl rfl ?_ ?_ ?_ ?_)
    · simp [reservedValue, Kind.valid, Raw.b, Raw.c, Raw.sk, h]
    · simp (disch := decide) [reservedBits, hiUsed, Raw.sk, wide_mask]
    · first | rfl | (simp [Raw.sk] <;> omega) | simp [Raw.sk, h]
    · simp [Raw.b, Raw.c, Raw.vsrc, Raw.sk, Raw.disp, Raw.strK, Raw.strOut, Raw.strCore]

theorem F.vmin (d : Reg) (a : Reg) (b : VSrc) : F.Statement (.vmin d a b) := by
  intro h
  replace h : (vectorOk d && vectorOk a && vsrcOk b) = true := h
  cases b
  all_goals
    simp [vectorOk, vsrcOk] at h
    refine F.core rfl rfl (.inl ⟨rfl, rfl⟩) (decodeRaw_ok _ _ _ _ (by simp) rfl rfl rfl ?_ ?_ ?_ ?_)
    · simp [reservedValue, Kind.valid, Raw.b, Raw.c, Raw.sk, h]
    · simp (disch := decide) [reservedBits, hiUsed, Raw.sk, wide_mask]
    · first | rfl | (simp [Raw.sk] <;> omega) | simp [Raw.sk, h]
    · simp [Raw.b, Raw.c, Raw.vsrc, Raw.sk, Raw.disp, Raw.strK, Raw.strOut, Raw.strCore]

theorem F.vmax (d : Reg) (a : Reg) (b : VSrc) : F.Statement (.vmax d a b) := by
  intro h
  replace h : (vectorOk d && vectorOk a && vsrcOk b) = true := h
  cases b
  all_goals
    simp [vectorOk, vsrcOk] at h
    refine F.core rfl rfl (.inl ⟨rfl, rfl⟩) (decodeRaw_ok _ _ _ _ (by simp) rfl rfl rfl ?_ ?_ ?_ ?_)
    · simp [reservedValue, Kind.valid, Raw.b, Raw.c, Raw.sk, h]
    · simp (disch := decide) [reservedBits, hiUsed, Raw.sk, wide_mask]
    · first | rfl | (simp [Raw.sk] <;> omega) | simp [Raw.sk, h]
    · simp [Raw.b, Raw.c, Raw.vsrc, Raw.sk, Raw.disp, Raw.strK, Raw.strOut, Raw.strCore]

theorem F.vabs (d : Reg) (b : VSrc) : F.Statement (.vabs d b) := by
  intro h
  replace h : (vectorOk d && vsrcOk b) = true := h
  cases b
  all_goals
    simp [vectorOk, vsrcOk] at h
    refine F.core rfl rfl (.inl ⟨rfl, rfl⟩) (decodeRaw_ok _ _ _ _ (by simp) rfl rfl rfl ?_ ?_ ?_ ?_)
    · simp [reservedValue, Kind.valid, Raw.b, Raw.c, Raw.sk, h]
    · simp (disch := decide) [reservedBits, hiUsed, Raw.sk, wide_mask]
    · first | rfl | (simp [Raw.sk] <;> omega) | simp [Raw.sk, h]
    · simp [Raw.b, Raw.c, Raw.vsrc, Raw.sk, Raw.disp, Raw.strK, Raw.strOut, Raw.strCore]

theorem F.vneg (d : Reg) (b : VSrc) : F.Statement (.vneg d b) := by
  intro h
  replace h : (vectorOk d && vsrcOk b) = true := h
  cases b
  all_goals
    simp [vectorOk, vsrcOk] at h
    refine F.core rfl rfl (.inl ⟨rfl, rfl⟩) (decodeRaw_ok _ _ _ _ (by simp) rfl rfl rfl ?_ ?_ ?_ ?_)
    · simp [reservedValue, Kind.valid, Raw.b, Raw.c, Raw.sk, h]
    · simp (disch := decide) [reservedBits, hiUsed, Raw.sk, wide_mask]
    · first | rfl | (simp [Raw.sk] <;> omega) | simp [Raw.sk, h]
    · simp [Raw.b, Raw.c, Raw.vsrc, Raw.sk, Raw.disp, Raw.strK, Raw.strOut, Raw.strCore]

theorem F.vexp2 (d : Reg) (b : VSrc) : F.Statement (.vexp2 d b) := by
  intro h
  replace h : (vectorOk d && vsrcOk b) = true := h
  cases b
  all_goals
    simp [vectorOk, vsrcOk] at h
    refine F.core rfl rfl (.inl ⟨rfl, rfl⟩) (decodeRaw_ok _ _ _ _ (by simp) rfl rfl rfl ?_ ?_ ?_ ?_)
    · simp [reservedValue, Kind.valid, Raw.b, Raw.c, Raw.sk, h]
    · simp (disch := decide) [reservedBits, hiUsed, Raw.sk, wide_mask]
    · first | rfl | (simp [Raw.sk] <;> omega) | simp [Raw.sk, h]
    · simp [Raw.b, Raw.c, Raw.vsrc, Raw.sk, Raw.disp, Raw.strK, Raw.strOut, Raw.strCore]

theorem F.vrcp (d : Reg) (b : VSrc) : F.Statement (.vrcp d b) := by
  intro h
  replace h : (vectorOk d && vsrcOk b) = true := h
  cases b
  all_goals
    simp [vectorOk, vsrcOk] at h
    refine F.core rfl rfl (.inl ⟨rfl, rfl⟩) (decodeRaw_ok _ _ _ _ (by simp) rfl rfl rfl ?_ ?_ ?_ ?_)
    · simp [reservedValue, Kind.valid, Raw.b, Raw.c, Raw.sk, h]
    · simp (disch := decide) [reservedBits, hiUsed, Raw.sk, wide_mask]
    · first | rfl | (simp [Raw.sk] <;> omega) | simp [Raw.sk, h]
    · simp [Raw.b, Raw.c, Raw.vsrc, Raw.sk, Raw.disp, Raw.strK, Raw.strOut, Raw.strCore]

theorem F.vrsq (d : Reg) (b : VSrc) : F.Statement (.vrsq d b) := by
  intro h
  replace h : (vectorOk d && vsrcOk b) = true := h
  cases b
  all_goals
    simp [vectorOk, vsrcOk] at h
    refine F.core rfl rfl (.inl ⟨rfl, rfl⟩) (decodeRaw_ok _ _ _ _ (by simp) rfl rfl rfl ?_ ?_ ?_ ?_)
    · simp [reservedValue, Kind.valid, Raw.b, Raw.c, Raw.sk, h]
    · simp (disch := decide) [reservedBits, hiUsed, Raw.sk, wide_mask]
    · first | rfl | (simp [Raw.sk] <;> omega) | simp [Raw.sk, h]
    · simp [Raw.b, Raw.c, Raw.vsrc, Raw.sk, Raw.disp, Raw.strK, Raw.strOut, Raw.strCore]

theorem F.viadd (d : Reg) (a : Reg) (b : VSrc) (esz : BitVec 2) : F.Statement (.viadd d a b esz) := by
  intro h
  replace h : (vectorOk d && vectorOk a && vsrcOk b && fragEszOk b esz) = true := h
  cases b
  all_goals
    simp [fragEszOk, vectorOk, vsrcOk] at h
    refine F.core rfl rfl (.inl ⟨rfl, rfl⟩) (decodeRaw_ok _ _ _ _ (by simp) rfl rfl rfl ?_ ?_ ?_ ?_)
    · simp [reservedValue, Kind.valid, Raw.b, Raw.c, Raw.sk, h]
    · simp (disch := decide) [reservedBits, hiUsed, Raw.sk, wide_mask]
    · first | rfl | (simp [Raw.sk] <;> omega) | simp [Raw.sk, h]
    · simp [Raw.b, Raw.c, Raw.vsrc, Raw.sk, Raw.disp, Raw.strK, Raw.strOut, Raw.strCore]

theorem F.viadds (d : Reg) (a : Reg) (b : VSrc) (esz : BitVec 2) : F.Statement (.viadds d a b esz) := by
  intro h
  replace h : (vectorOk d && vectorOk a && vsrcOk b && fragEszOk b esz) = true := h
  cases b
  all_goals
    simp [fragEszOk, vectorOk, vsrcOk] at h
    refine F.core rfl rfl (.inl ⟨rfl, rfl⟩) (decodeRaw_ok _ _ _ _ (by simp) rfl rfl rfl ?_ ?_ ?_ ?_)
    · simp [reservedValue, Kind.valid, Raw.b, Raw.c, Raw.sk, h]
    · simp (disch := decide) [reservedBits, hiUsed, Raw.sk, wide_mask]
    · first | rfl | (simp [Raw.sk] <;> omega) | simp [Raw.sk, h]
    · simp [Raw.b, Raw.c, Raw.vsrc, Raw.sk, Raw.disp, Raw.strK, Raw.strOut, Raw.strCore]

theorem F.viaddus (d : Reg) (a : Reg) (b : VSrc) (esz : BitVec 2) : F.Statement (.viaddus d a b esz) := by
  intro h
  replace h : (vectorOk d && vectorOk a && vsrcOk b && fragEszOk b esz) = true := h
  cases b
  all_goals
    simp [fragEszOk, vectorOk, vsrcOk] at h
    refine F.core rfl rfl (.inl ⟨rfl, rfl⟩) (decodeRaw_ok _ _ _ _ (by simp) rfl rfl rfl ?_ ?_ ?_ ?_)
    · simp [reservedValue, Kind.valid, Raw.b, Raw.c, Raw.sk, h]
    · simp (disch := decide) [reservedBits, hiUsed, Raw.sk, wide_mask]
    · first | rfl | (simp [Raw.sk] <;> omega) | simp [Raw.sk, h]
    · simp [Raw.b, Raw.c, Raw.vsrc, Raw.sk, Raw.disp, Raw.strK, Raw.strOut, Raw.strCore]

theorem F.visub (d : Reg) (a : Reg) (b : VSrc) (esz : BitVec 2) : F.Statement (.visub d a b esz) := by
  intro h
  replace h : (vectorOk d && vectorOk a && vsrcOk b && fragEszOk b esz) = true := h
  cases b
  all_goals
    simp [fragEszOk, vectorOk, vsrcOk] at h
    refine F.core rfl rfl (.inl ⟨rfl, rfl⟩) (decodeRaw_ok _ _ _ _ (by simp) rfl rfl rfl ?_ ?_ ?_ ?_)
    · simp [reservedValue, Kind.valid, Raw.b, Raw.c, Raw.sk, h]
    · simp (disch := decide) [reservedBits, hiUsed, Raw.sk, wide_mask]
    · first | rfl | (simp [Raw.sk] <;> omega) | simp [Raw.sk, h]
    · simp [Raw.b, Raw.c, Raw.vsrc, Raw.sk, Raw.disp, Raw.strK, Raw.strOut, Raw.strCore]

theorem F.visubs (d : Reg) (a : Reg) (b : VSrc) (esz : BitVec 2) : F.Statement (.visubs d a b esz) := by
  intro h
  replace h : (vectorOk d && vectorOk a && vsrcOk b && fragEszOk b esz) = true := h
  cases b
  all_goals
    simp [fragEszOk, vectorOk, vsrcOk] at h
    refine F.core rfl rfl (.inl ⟨rfl, rfl⟩) (decodeRaw_ok _ _ _ _ (by simp) rfl rfl rfl ?_ ?_ ?_ ?_)
    · simp [reservedValue, Kind.valid, Raw.b, Raw.c, Raw.sk, h]
    · simp (disch := decide) [reservedBits, hiUsed, Raw.sk, wide_mask]
    · first | rfl | (simp [Raw.sk] <;> omega) | simp [Raw.sk, h]
    · simp [Raw.b, Raw.c, Raw.vsrc, Raw.sk, Raw.disp, Raw.strK, Raw.strOut, Raw.strCore]

theorem F.visubus (d : Reg) (a : Reg) (b : VSrc) (esz : BitVec 2) : F.Statement (.visubus d a b esz) := by
  intro h
  replace h : (vectorOk d && vectorOk a && vsrcOk b && fragEszOk b esz) = true := h
  cases b
  all_goals
    simp [fragEszOk, vectorOk, vsrcOk] at h
    refine F.core rfl rfl (.inl ⟨rfl, rfl⟩) (decodeRaw_ok _ _ _ _ (by simp) rfl rfl rfl ?_ ?_ ?_ ?_)
    · simp [reservedValue, Kind.valid, Raw.b, Raw.c, Raw.sk, h]
    · simp (disch := decide) [reservedBits, hiUsed, Raw.sk, wide_mask]
    · first | rfl | (simp [Raw.sk] <;> omega) | simp [Raw.sk, h]
    · simp [Raw.b, Raw.c, Raw.vsrc, Raw.sk, Raw.disp, Raw.strK, Raw.strOut, Raw.strCore]

theorem F.vimul (d : Reg) (a : Reg) (b : VSrc) (esz : BitVec 2) : F.Statement (.vimul d a b esz) := by
  intro h
  replace h : (vectorOk d && vectorOk a && vsrcOk b && fragEszOk b esz) = true := h
  cases b
  all_goals
    simp [fragEszOk, vectorOk, vsrcOk] at h
    refine F.core rfl rfl (.inl ⟨rfl, rfl⟩) (decodeRaw_ok _ _ _ _ (by simp) rfl rfl rfl ?_ ?_ ?_ ?_)
    · simp [reservedValue, Kind.valid, Raw.b, Raw.c, Raw.sk, h]
    · simp (disch := decide) [reservedBits, hiUsed, Raw.sk, wide_mask]
    · first | rfl | (simp [Raw.sk] <;> omega) | simp [Raw.sk, h]
    · simp [Raw.b, Raw.c, Raw.vsrc, Raw.sk, Raw.disp, Raw.strK, Raw.strOut, Raw.strCore]

theorem F.vimulh (d : Reg) (a : Reg) (b : VSrc) (esz : BitVec 2) : F.Statement (.vimulh d a b esz) := by
  intro h
  replace h : (vectorOk d && vectorOk a && vsrcOk b && fragEszOk b esz) = true := h
  cases b
  all_goals
    simp [fragEszOk, vectorOk, vsrcOk] at h
    refine F.core rfl rfl (.inl ⟨rfl, rfl⟩) (decodeRaw_ok _ _ _ _ (by simp) rfl rfl rfl ?_ ?_ ?_ ?_)
    · simp [reservedValue, Kind.valid, Raw.b, Raw.c, Raw.sk, h]
    · simp (disch := decide) [reservedBits, hiUsed, Raw.sk, wide_mask]
    · first | rfl | (simp [Raw.sk] <;> omega) | simp [Raw.sk, h]
    · simp [Raw.b, Raw.c, Raw.vsrc, Raw.sk, Raw.disp, Raw.strK, Raw.strOut, Raw.strCore]

theorem F.vimulhu (d : Reg) (a : Reg) (b : VSrc) (esz : BitVec 2) : F.Statement (.vimulhu d a b esz) := by
  intro h
  replace h : (vectorOk d && vectorOk a && vsrcOk b && fragEszOk b esz) = true := h
  cases b
  all_goals
    simp [fragEszOk, vectorOk, vsrcOk] at h
    refine F.core rfl rfl (.inl ⟨rfl, rfl⟩) (decodeRaw_ok _ _ _ _ (by simp) rfl rfl rfl ?_ ?_ ?_ ?_)
    · simp [reservedValue, Kind.valid, Raw.b, Raw.c, Raw.sk, h]
    · simp (disch := decide) [reservedBits, hiUsed, Raw.sk, wide_mask]
    · first | rfl | (simp [Raw.sk] <;> omega) | simp [Raw.sk, h]
    · simp [Raw.b, Raw.c, Raw.vsrc, Raw.sk, Raw.disp, Raw.strK, Raw.strOut, Raw.strCore]

theorem F.vimin (d : Reg) (a : Reg) (b : VSrc) (esz : BitVec 2) : F.Statement (.vimin d a b esz) := by
  intro h
  replace h : (vectorOk d && vectorOk a && vsrcOk b && fragEszOk b esz) = true := h
  cases b
  all_goals
    simp [fragEszOk, vectorOk, vsrcOk] at h
    refine F.core rfl rfl (.inl ⟨rfl, rfl⟩) (decodeRaw_ok _ _ _ _ (by simp) rfl rfl rfl ?_ ?_ ?_ ?_)
    · simp [reservedValue, Kind.valid, Raw.b, Raw.c, Raw.sk, h]
    · simp (disch := decide) [reservedBits, hiUsed, Raw.sk, wide_mask]
    · first | rfl | (simp [Raw.sk] <;> omega) | simp [Raw.sk, h]
    · simp [Raw.b, Raw.c, Raw.vsrc, Raw.sk, Raw.disp, Raw.strK, Raw.strOut, Raw.strCore]

theorem F.vimax (d : Reg) (a : Reg) (b : VSrc) (esz : BitVec 2) : F.Statement (.vimax d a b esz) := by
  intro h
  replace h : (vectorOk d && vectorOk a && vsrcOk b && fragEszOk b esz) = true := h
  cases b
  all_goals
    simp [fragEszOk, vectorOk, vsrcOk] at h
    refine F.core rfl rfl (.inl ⟨rfl, rfl⟩) (decodeRaw_ok _ _ _ _ (by simp) rfl rfl rfl ?_ ?_ ?_ ?_)
    · simp [reservedValue, Kind.valid, Raw.b, Raw.c, Raw.sk, h]
    · simp (disch := decide) [reservedBits, hiUsed, Raw.sk, wide_mask]
    · first | rfl | (simp [Raw.sk] <;> omega) | simp [Raw.sk, h]
    · simp [Raw.b, Raw.c, Raw.vsrc, Raw.sk, Raw.disp, Raw.strK, Raw.strOut, Raw.strCore]

theorem F.viminu (d : Reg) (a : Reg) (b : VSrc) (esz : BitVec 2) : F.Statement (.viminu d a b esz) := by
  intro h
  replace h : (vectorOk d && vectorOk a && vsrcOk b && fragEszOk b esz) = true := h
  cases b
  all_goals
    simp [fragEszOk, vectorOk, vsrcOk] at h
    refine F.core rfl rfl (.inl ⟨rfl, rfl⟩) (decodeRaw_ok _ _ _ _ (by simp) rfl rfl rfl ?_ ?_ ?_ ?_)
    · simp [reservedValue, Kind.valid, Raw.b, Raw.c, Raw.sk, h]
    · simp (disch := decide) [reservedBits, hiUsed, Raw.sk, wide_mask]
    · first | rfl | (simp [Raw.sk] <;> omega) | simp [Raw.sk, h]
    · simp [Raw.b, Raw.c, Raw.vsrc, Raw.sk, Raw.disp, Raw.strK, Raw.strOut, Raw.strCore]

theorem F.vimaxu (d : Reg) (a : Reg) (b : VSrc) (esz : BitVec 2) : F.Statement (.vimaxu d a b esz) := by
  intro h
  replace h : (vectorOk d && vectorOk a && vsrcOk b && fragEszOk b esz) = true := h
  cases b
  all_goals
    simp [fragEszOk, vectorOk, vsrcOk] at h
    refine F.core rfl rfl (.inl ⟨rfl, rfl⟩) (decodeRaw_ok _ _ _ _ (by simp) rfl rfl rfl ?_ ?_ ?_ ?_)
    · simp [reservedValue, Kind.valid, Raw.b, Raw.c, Raw.sk, h]
    · simp (disch := decide) [reservedBits, hiUsed, Raw.sk, wide_mask]
    · first | rfl | (simp [Raw.sk] <;> omega) | simp [Raw.sk, h]
    · simp [Raw.b, Raw.c, Raw.vsrc, Raw.sk, Raw.disp, Raw.strK, Raw.strOut, Raw.strCore]

theorem F.viand (d : Reg) (a : Reg) (b : VSrc) (esz : BitVec 2) : F.Statement (.viand d a b esz) := by
  intro h
  replace h : (vectorOk d && vectorOk a && vsrcOk b && fragEszOk b esz) = true := h
  cases b
  all_goals
    simp [fragEszOk, vectorOk, vsrcOk] at h
    refine F.core rfl rfl (.inl ⟨rfl, rfl⟩) (decodeRaw_ok _ _ _ _ (by simp) rfl rfl rfl ?_ ?_ ?_ ?_)
    · simp [reservedValue, Kind.valid, Raw.b, Raw.c, Raw.sk, h]
    · simp (disch := decide) [reservedBits, hiUsed, Raw.sk, wide_mask]
    · first | rfl | (simp [Raw.sk] <;> omega) | simp [Raw.sk, h]
    · simp [Raw.b, Raw.c, Raw.vsrc, Raw.sk, Raw.disp, Raw.strK, Raw.strOut, Raw.strCore]

theorem F.vior (d : Reg) (a : Reg) (b : VSrc) (esz : BitVec 2) : F.Statement (.vior d a b esz) := by
  intro h
  replace h : (vectorOk d && vectorOk a && vsrcOk b && fragEszOk b esz) = true := h
  cases b
  all_goals
    simp [fragEszOk, vectorOk, vsrcOk] at h
    refine F.core rfl rfl (.inl ⟨rfl, rfl⟩) (decodeRaw_ok _ _ _ _ (by simp) rfl rfl rfl ?_ ?_ ?_ ?_)
    · simp [reservedValue, Kind.valid, Raw.b, Raw.c, Raw.sk, h]
    · simp (disch := decide) [reservedBits, hiUsed, Raw.sk, wide_mask]
    · first | rfl | (simp [Raw.sk] <;> omega) | simp [Raw.sk, h]
    · simp [Raw.b, Raw.c, Raw.vsrc, Raw.sk, Raw.disp, Raw.strK, Raw.strOut, Raw.strCore]

theorem F.vixor (d : Reg) (a : Reg) (b : VSrc) (esz : BitVec 2) : F.Statement (.vixor d a b esz) := by
  intro h
  replace h : (vectorOk d && vectorOk a && vsrcOk b && fragEszOk b esz) = true := h
  cases b
  all_goals
    simp [fragEszOk, vectorOk, vsrcOk] at h
    refine F.core rfl rfl (.inl ⟨rfl, rfl⟩) (decodeRaw_ok _ _ _ _ (by simp) rfl rfl rfl ?_ ?_ ?_ ?_)
    · simp [reservedValue, Kind.valid, Raw.b, Raw.c, Raw.sk, h]
    · simp (disch := decide) [reservedBits, hiUsed, Raw.sk, wide_mask]
    · first | rfl | (simp [Raw.sk] <;> omega) | simp [Raw.sk, h]
    · simp [Raw.b, Raw.c, Raw.vsrc, Raw.sk, Raw.disp, Raw.strK, Raw.strOut, Raw.strCore]

theorem F.viandn (d : Reg) (a : Reg) (b : VSrc) (esz : BitVec 2) : F.Statement (.viandn d a b esz) := by
  intro h
  replace h : (vectorOk d && vectorOk a && vsrcOk b && fragEszOk b esz) = true := h
  cases b
  all_goals
    simp [fragEszOk, vectorOk, vsrcOk] at h
    refine F.core rfl rfl (.inl ⟨rfl, rfl⟩) (decodeRaw_ok _ _ _ _ (by simp) rfl rfl rfl ?_ ?_ ?_ ?_)
    · simp [reservedValue, Kind.valid, Raw.b, Raw.c, Raw.sk, h]
    · simp (disch := decide) [reservedBits, hiUsed, Raw.sk, wide_mask]
    · first | rfl | (simp [Raw.sk] <;> omega) | simp [Raw.sk, h]
    · simp [Raw.b, Raw.c, Raw.vsrc, Raw.sk, Raw.disp, Raw.strK, Raw.strOut, Raw.strCore]

theorem F.vcmpfeq (d : Reg) (a : Reg) (b : VSrc) : F.Statement (.vcmpfeq d a b) := by
  intro h
  replace h : (vectorOk d && vectorOk a && vsrcOk b) = true := h
  cases b
  all_goals
    simp [vectorOk, vsrcOk] at h
    refine F.core rfl rfl (.inl ⟨rfl, rfl⟩) (decodeRaw_ok _ _ _ _ (by simp) rfl rfl rfl ?_ ?_ ?_ ?_)
    · simp [reservedValue, Kind.valid, Raw.b, Raw.c, Raw.sk, h]
    · simp (disch := decide) [reservedBits, hiUsed, Raw.sk, wide_mask]
    · first | rfl | (simp [Raw.sk] <;> omega) | simp [Raw.sk, h]
    · simp [Raw.b, Raw.c, Raw.vsrc, Raw.sk, Raw.disp, Raw.strK, Raw.strOut, Raw.strCore]

theorem F.vcmpflt (d : Reg) (a : Reg) (b : VSrc) : F.Statement (.vcmpflt d a b) := by
  intro h
  replace h : (vectorOk d && vectorOk a && vsrcOk b) = true := h
  cases b
  all_goals
    simp [vectorOk, vsrcOk] at h
    refine F.core rfl rfl (.inl ⟨rfl, rfl⟩) (decodeRaw_ok _ _ _ _ (by simp) rfl rfl rfl ?_ ?_ ?_ ?_)
    · simp [reservedValue, Kind.valid, Raw.b, Raw.c, Raw.sk, h]
    · simp (disch := decide) [reservedBits, hiUsed, Raw.sk, wide_mask]
    · first | rfl | (simp [Raw.sk] <;> omega) | simp [Raw.sk, h]
    · simp [Raw.b, Raw.c, Raw.vsrc, Raw.sk, Raw.disp, Raw.strK, Raw.strOut, Raw.strCore]

theorem F.vcmpfle (d : Reg) (a : Reg) (b : VSrc) : F.Statement (.vcmpfle d a b) := by
  intro h
  replace h : (vectorOk d && vectorOk a && vsrcOk b) = true := h
  cases b
  all_goals
    simp [vectorOk, vsrcOk] at h
    refine F.core rfl rfl (.inl ⟨rfl, rfl⟩) (decodeRaw_ok _ _ _ _ (by simp) rfl rfl rfl ?_ ?_ ?_ ?_)
    · simp [reservedValue, Kind.valid, Raw.b, Raw.c, Raw.sk, h]
    · simp (disch := decide) [reservedBits, hiUsed, Raw.sk, wide_mask]
    · first | rfl | (simp [Raw.sk] <;> omega) | simp [Raw.sk, h]
    · simp [Raw.b, Raw.c, Raw.vsrc, Raw.sk, Raw.disp, Raw.strK, Raw.strOut, Raw.strCore]

theorem F.vcmpfun (d : Reg) (a : Reg) (b : VSrc) : F.Statement (.vcmpfun d a b) := by
  intro h
  replace h : (vectorOk d && vectorOk a && vsrcOk b) = true := h
  cases b
  all_goals
    simp [vectorOk, vsrcOk] at h
    refine F.core rfl rfl (.inl ⟨rfl, rfl⟩) (decodeRaw_ok _ _ _ _ (by simp) rfl rfl rfl ?_ ?_ ?_ ?_)
    · simp [reservedValue, Kind.valid, Raw.b, Raw.c, Raw.sk, h]
    · simp (disch := decide) [reservedBits, hiUsed, Raw.sk, wide_mask]
    · first | rfl | (simp [Raw.sk] <;> omega) | simp [Raw.sk, h]
    · simp [Raw.b, Raw.c, Raw.vsrc, Raw.sk, Raw.disp, Raw.strK, Raw.strOut, Raw.strCore]

theorem F.vcmpieq (d : Reg) (a : Reg) (b : VSrc) (esz : BitVec 2) : F.Statement (.vcmpieq d a b esz) := by
  intro h
  replace h : (vectorOk d && vectorOk a && vsrcOk b && fragEszOk b esz) = true := h
  cases b
  all_goals
    simp [fragEszOk, vectorOk, vsrcOk] at h
    refine F.core rfl rfl (.inl ⟨rfl, rfl⟩) (decodeRaw_ok _ _ _ _ (by simp) rfl rfl rfl ?_ ?_ ?_ ?_)
    · simp [reservedValue, Kind.valid, Raw.b, Raw.c, Raw.sk, h]
    · simp (disch := decide) [reservedBits, hiUsed, Raw.sk, wide_mask]
    · first | rfl | (simp [Raw.sk] <;> omega) | simp [Raw.sk, h]
    · simp [Raw.b, Raw.c, Raw.vsrc, Raw.sk, Raw.disp, Raw.strK, Raw.strOut, Raw.strCore]

theorem F.vcmpilt (d : Reg) (a : Reg) (b : VSrc) (esz : BitVec 2) : F.Statement (.vcmpilt d a b esz) := by
  intro h
  replace h : (vectorOk d && vectorOk a && vsrcOk b && fragEszOk b esz) = true := h
  cases b
  all_goals
    simp [fragEszOk, vectorOk, vsrcOk] at h
    refine F.core rfl rfl (.inl ⟨rfl, rfl⟩) (decodeRaw_ok _ _ _ _ (by simp) rfl rfl rfl ?_ ?_ ?_ ?_)
    · simp [reservedValue, Kind.valid, Raw.b, Raw.c, Raw.sk, h]
    · simp (disch := decide) [reservedBits, hiUsed, Raw.sk, wide_mask]
    · first | rfl | (simp [Raw.sk] <;> omega) | simp [Raw.sk, h]
    · simp [Raw.b, Raw.c, Raw.vsrc, Raw.sk, Raw.disp, Raw.strK, Raw.strOut, Raw.strCore]

theorem F.vcmpiltu (d : Reg) (a : Reg) (b : VSrc) (esz : BitVec 2) : F.Statement (.vcmpiltu d a b esz) := by
  intro h
  replace h : (vectorOk d && vectorOk a && vsrcOk b && fragEszOk b esz) = true := h
  cases b
  all_goals
    simp [fragEszOk, vectorOk, vsrcOk] at h
    refine F.core rfl rfl (.inl ⟨rfl, rfl⟩) (decodeRaw_ok _ _ _ _ (by simp) rfl rfl rfl ?_ ?_ ?_ ?_)
    · simp [reservedValue, Kind.valid, Raw.b, Raw.c, Raw.sk, h]
    · simp (disch := decide) [reservedBits, hiUsed, Raw.sk, wide_mask]
    · first | rfl | (simp [Raw.sk] <;> omega) | simp [Raw.sk, h]
    · simp [Raw.b, Raw.c, Raw.vsrc, Raw.sk, Raw.disp, Raw.strK, Raw.strOut, Raw.strCore]

theorem F.vcmpsel (d : Reg) (a : Reg) (b : VSrc) (c : Reg) (esz : BitVec 2) : F.Statement (.vcmpsel d a b c esz) := by
  intro h
  replace h : (vectorOk d && vectorOk a && vsrcOk b && vectorOk c && fragEszOk b esz) = true := h
  cases b
  all_goals
    simp [fragEszOk, vectorOk, vsrcOk] at h
    refine F.core rfl rfl (.inl ⟨rfl, rfl⟩) (decodeRaw_ok _ _ _ _ (by simp) rfl rfl rfl ?_ ?_ ?_ ?_)
    · simp [reservedValue, Kind.valid, Raw.b, Raw.c, Raw.sk, h]
    · simp (disch := decide) [reservedBits, hiUsed, Raw.sk, wide_mask]
    · first | rfl | (simp [Raw.sk] <;> omega) | simp [Raw.sk, h]
    · simp [Raw.b, Raw.c, Raw.vsrc, Raw.sk, Raw.disp, Raw.strK, Raw.strOut, Raw.strCore]

theorem F.vshl (d : Reg) (a : Reg) (b : Reg) (esz : BitVec 2) : F.Statement (.vshl d a b esz) := by
  intro h
  replace h : (vectorOk d && vectorOk a && vectorOk b) = true := h
  simp [vectorOk] at h
  refine F.core rfl rfl (.inl ⟨rfl, rfl⟩) (decodeRaw_ok _ _ _ _ (by simp) rfl rfl rfl ?_ ?_ ?_ ?_)
  · simp [reservedValue, Kind.valid, Raw.b, Raw.c, Raw.sk, h]
  · simp (disch := decide) [reservedBits, hiUsed, Raw.sk, wide_mask]
  · first | rfl | (simp [Raw.sk] <;> omega) | simp [Raw.sk, h]
  · simp [Raw.b, Raw.c, Raw.vsrc, Raw.sk, Raw.disp, Raw.strK, Raw.strOut, Raw.strCore]

theorem F.vshr (d : Reg) (a : Reg) (b : Reg) (esz : BitVec 2) : F.Statement (.vshr d a b esz) := by
  intro h
  replace h : (vectorOk d && vectorOk a && vectorOk b) = true := h
  simp [vectorOk] at h
  refine F.core rfl rfl (.inl ⟨rfl, rfl⟩) (decodeRaw_ok _ _ _ _ (by simp) rfl rfl rfl ?_ ?_ ?_ ?_)
  · simp [reservedValue, Kind.valid, Raw.b, Raw.c, Raw.sk, h]
  · simp (disch := decide) [reservedBits, hiUsed, Raw.sk, wide_mask]
  · first | rfl | (simp [Raw.sk] <;> omega) | simp [Raw.sk, h]
  · simp [Raw.b, Raw.c, Raw.vsrc, Raw.sk, Raw.disp, Raw.strK, Raw.strOut, Raw.strCore]

theorem F.vsha (d : Reg) (a : Reg) (b : Reg) (esz : BitVec 2) : F.Statement (.vsha d a b esz) := by
  intro h
  replace h : (vectorOk d && vectorOk a && vectorOk b) = true := h
  simp [vectorOk] at h
  refine F.core rfl rfl (.inl ⟨rfl, rfl⟩) (decodeRaw_ok _ _ _ _ (by simp) rfl rfl rfl ?_ ?_ ?_ ?_)
  · simp [reservedValue, Kind.valid, Raw.b, Raw.c, Raw.sk, h]
  · simp (disch := decide) [reservedBits, hiUsed, Raw.sk, wide_mask]
  · first | rfl | (simp [Raw.sk] <;> omega) | simp [Raw.sk, h]
  · simp [Raw.b, Raw.c, Raw.vsrc, Raw.sk, Raw.disp, Raw.strK, Raw.strOut, Raw.strCore]

theorem F.vshls (d : Reg) (a : Reg) (c : Reg) (esz : BitVec 2) : F.Statement (.vshls d a c esz) := by
  intro h
  replace h : (vectorOk d && vectorOk a && scalarOk c) = true := h
  simp [scalarOk, vectorOk] at h
  refine F.core rfl rfl (.inl ⟨rfl, rfl⟩) (decodeRaw_ok _ _ _ _ (by simp) rfl rfl rfl ?_ ?_ ?_ ?_)
  · simp [reservedValue, Kind.valid, Raw.b, Raw.c, Raw.sk, h]
  · simp (disch := decide) [reservedBits, hiUsed, Raw.sk, wide_mask]
  · first | rfl | (simp [Raw.sk] <;> omega) | simp [Raw.sk, h]
  · simp [Raw.b, Raw.c, Raw.vsrc, Raw.sk, Raw.disp, Raw.strK, Raw.strOut, Raw.strCore]

theorem F.vshrs (d : Reg) (a : Reg) (c : Reg) (esz : BitVec 2) : F.Statement (.vshrs d a c esz) := by
  intro h
  replace h : (vectorOk d && vectorOk a && scalarOk c) = true := h
  simp [scalarOk, vectorOk] at h
  refine F.core rfl rfl (.inl ⟨rfl, rfl⟩) (decodeRaw_ok _ _ _ _ (by simp) rfl rfl rfl ?_ ?_ ?_ ?_)
  · simp [reservedValue, Kind.valid, Raw.b, Raw.c, Raw.sk, h]
  · simp (disch := decide) [reservedBits, hiUsed, Raw.sk, wide_mask]
  · first | rfl | (simp [Raw.sk] <;> omega) | simp [Raw.sk, h]
  · simp [Raw.b, Raw.c, Raw.vsrc, Raw.sk, Raw.disp, Raw.strK, Raw.strOut, Raw.strCore]

theorem F.vshas (d : Reg) (a : Reg) (c : Reg) (esz : BitVec 2) : F.Statement (.vshas d a c esz) := by
  intro h
  replace h : (vectorOk d && vectorOk a && scalarOk c) = true := h
  simp [scalarOk, vectorOk] at h
  refine F.core rfl rfl (.inl ⟨rfl, rfl⟩) (decodeRaw_ok _ _ _ _ (by simp) rfl rfl rfl ?_ ?_ ?_ ?_)
  · simp [reservedValue, Kind.valid, Raw.b, Raw.c, Raw.sk, h]
  · simp (disch := decide) [reservedBits, hiUsed, Raw.sk, wide_mask]
  · first | rfl | (simp [Raw.sk] <;> omega) | simp [Raw.sk, h]
  · simp [Raw.b, Raw.c, Raw.vsrc, Raw.sk, Raw.disp, Raw.strK, Raw.strOut, Raw.strCore]

theorem F.vredsum (d : Reg) (b : VSrc) (rm : BitVec 3) : F.Statement (.vredsum d b rm) := by
  intro h
  replace h : (vectorOk d && vsrcOk b && rmOk rm && decide (rm ≠ 6#3)) = true := h
  cases b
  all_goals
    simp [rmOk, vectorOk, vsrcOk] at h
    refine F.core rfl rfl (.inl ⟨rfl, rfl⟩) (decodeRaw_ok _ _ _ _ (by simp) rfl rfl rfl ?_ ?_ ?_ ?_)
    · simp [reservedValue, Kind.valid, Raw.b, Raw.c, Raw.sk, h]
    · simp (disch := decide) [reservedBits, hiUsed, Raw.sk, wide_mask]
    · first | rfl | (simp [Raw.sk] <;> omega) | simp [Raw.sk, h]
    · simp [Raw.b, Raw.c, Raw.vsrc, Raw.sk, Raw.disp, Raw.strK, Raw.strOut, Raw.strCore]

theorem F.vredmax (d : Reg) (b : VSrc) : F.Statement (.vredmax d b) := by
  intro h
  replace h : (vectorOk d && vsrcOk b) = true := h
  cases b
  all_goals
    simp [vectorOk, vsrcOk] at h
    refine F.core rfl rfl (.inl ⟨rfl, rfl⟩) (decodeRaw_ok _ _ _ _ (by simp) rfl rfl rfl ?_ ?_ ?_ ?_)
    · simp [reservedValue, Kind.valid, Raw.b, Raw.c, Raw.sk, h]
    · simp (disch := decide) [reservedBits, hiUsed, Raw.sk, wide_mask]
    · first | rfl | (simp [Raw.sk] <;> omega) | simp [Raw.sk, h]
    · simp [Raw.b, Raw.c, Raw.vsrc, Raw.sk, Raw.disp, Raw.strK, Raw.strOut, Raw.strCore]

theorem F.vredmin (d : Reg) (b : VSrc) : F.Statement (.vredmin d b) := by
  intro h
  replace h : (vectorOk d && vsrcOk b) = true := h
  cases b
  all_goals
    simp [vectorOk, vsrcOk] at h
    refine F.core rfl rfl (.inl ⟨rfl, rfl⟩) (decodeRaw_ok _ _ _ _ (by simp) rfl rfl rfl ?_ ?_ ?_ ?_)
    · simp [reservedValue, Kind.valid, Raw.b, Raw.c, Raw.sk, h]
    · simp (disch := decide) [reservedBits, hiUsed, Raw.sk, wide_mask]
    · first | rfl | (simp [Raw.sk] <;> omega) | simp [Raw.sk, h]
    · simp [Raw.b, Raw.c, Raw.vsrc, Raw.sk, Raw.disp, Raw.strK, Raw.strOut, Raw.strCore]

theorem F.vredisum (d : Reg) (b : VSrc) (esz : BitVec 2) : F.Statement (.vredisum d b esz) := by
  intro h
  replace h : (vectorOk d && vsrcOk b && fragEszOk b esz) = true := h
  cases b
  all_goals
    simp [fragEszOk, vectorOk, vsrcOk] at h
    refine F.core rfl rfl (.inl ⟨rfl, rfl⟩) (decodeRaw_ok _ _ _ _ (by simp) rfl rfl rfl ?_ ?_ ?_ ?_)
    · simp [reservedValue, Kind.valid, Raw.b, Raw.c, Raw.sk, h]
    · simp (disch := decide) [reservedBits, hiUsed, Raw.sk, wide_mask]
    · first | rfl | (simp [Raw.sk] <;> omega) | simp [Raw.sk, h]
    · simp [Raw.b, Raw.c, Raw.vsrc, Raw.sk, Raw.disp, Raw.strK, Raw.strOut, Raw.strCore]

theorem F.vredimax (d : Reg) (b : VSrc) (esz : BitVec 2) : F.Statement (.vredimax d b esz) := by
  intro h
  replace h : (vectorOk d && vsrcOk b && fragEszOk b esz) = true := h
  cases b
  all_goals
    simp [fragEszOk, vectorOk, vsrcOk] at h
    refine F.core rfl rfl (.inl ⟨rfl, rfl⟩) (decodeRaw_ok _ _ _ _ (by simp) rfl rfl rfl ?_ ?_ ?_ ?_)
    · simp [reservedValue, Kind.valid, Raw.b, Raw.c, Raw.sk, h]
    · simp (disch := decide) [reservedBits, hiUsed, Raw.sk, wide_mask]
    · first | rfl | (simp [Raw.sk] <;> omega) | simp [Raw.sk, h]
    · simp [Raw.b, Raw.c, Raw.vsrc, Raw.sk, Raw.disp, Raw.strK, Raw.strOut, Raw.strCore]

theorem F.vredimin (d : Reg) (b : VSrc) (esz : BitVec 2) : F.Statement (.vredimin d b esz) := by
  intro h
  replace h : (vectorOk d && vsrcOk b && fragEszOk b esz) = true := h
  cases b
  all_goals
    simp [fragEszOk, vectorOk, vsrcOk] at h
    refine F.core rfl rfl (.inl ⟨rfl, rfl⟩) (decodeRaw_ok _ _ _ _ (by simp) rfl rfl rfl ?_ ?_ ?_ ?_)
    · simp [reservedValue, Kind.valid, Raw.b, Raw.c, Raw.sk, h]
    · simp (disch := decide) [reservedBits, hiUsed, Raw.sk, wide_mask]
    · first | rfl | (simp [Raw.sk] <;> omega) | simp [Raw.sk, h]
    · simp [Raw.b, Raw.c, Raw.vsrc, Raw.sk, Raw.disp, Raw.strK, Raw.strOut, Raw.strCore]

theorem F.vredor (d : Reg) (b : VSrc) (esz : BitVec 2) : F.Statement (.vredor d b esz) := by
  intro h
  replace h : (vectorOk d && vsrcOk b && fragEszOk b esz) = true := h
  cases b
  all_goals
    simp [fragEszOk, vectorOk, vsrcOk] at h
    refine F.core rfl rfl (.inl ⟨rfl, rfl⟩) (decodeRaw_ok _ _ _ _ (by simp) rfl rfl rfl ?_ ?_ ?_ ?_)
    · simp [reservedValue, Kind.valid, Raw.b, Raw.c, Raw.sk, h]
    · simp (disch := decide) [reservedBits, hiUsed, Raw.sk, wide_mask]
    · first | rfl | (simp [Raw.sk] <;> omega) | simp [Raw.sk, h]
    · simp [Raw.b, Raw.c, Raw.vsrc, Raw.sk, Raw.disp, Raw.strK, Raw.strOut, Raw.strCore]

theorem F.vredcnt (d : Reg) (b : VSrc) (esz : BitVec 2) : F.Statement (.vredcnt d b esz) := by
  intro h
  replace h : (scalarOk d && vsrcOk b && fragEszOk b esz) = true := h
  cases b
  all_goals
    simp [fragEszOk, scalarOk, vectorOk, vsrcOk] at h
    refine F.core rfl rfl (.inl ⟨rfl, rfl⟩) (decodeRaw_ok _ _ _ _ (by simp) rfl rfl rfl ?_ ?_ ?_ ?_)
    · simp [reservedValue, Kind.valid, Raw.b, Raw.c, Raw.sk, h]
    · simp (disch := decide) [reservedBits, hiUsed, Raw.sk, wide_mask]
    · first | rfl | (simp [Raw.sk] <;> omega) | simp [Raw.sk, h]
    · simp [Raw.b, Raw.c, Raw.vsrc, Raw.sk, Raw.disp, Raw.strK, Raw.strOut, Raw.strCore]

theorem F.vmov (d : Reg) (b : VSrc) : F.Statement (.vmov d b) := by
  intro h
  replace h : (vectorOk d && vsrcOk b) = true := h
  cases b
  all_goals
    simp [vectorOk, vsrcOk] at h
    refine F.core rfl rfl (.inl ⟨rfl, rfl⟩) (decodeRaw_ok _ _ _ _ (by simp) rfl rfl rfl ?_ ?_ ?_ ?_)
    · simp [reservedValue, Kind.valid, Raw.b, Raw.c, Raw.sk, h]
    · simp (disch := decide) [reservedBits, hiUsed, Raw.sk, wide_mask]
    · first | rfl | (simp [Raw.sk] <;> omega) | simp [Raw.sk, h]
    · simp [Raw.b, Raw.c, Raw.vsrc, Raw.sk, Raw.disp, Raw.strK, Raw.strOut, Raw.strCore]

theorem F.vmovs (d : Reg) (a : Reg) (esz : BitVec 2) : F.Statement (.vmovs d a esz) := by
  intro h
  replace h : (vectorOk d && scalarOk a) = true := h
  simp [scalarOk, vectorOk] at h
  refine F.core rfl rfl (.inl ⟨rfl, rfl⟩) (decodeRaw_ok _ _ _ _ (by simp) rfl rfl rfl ?_ ?_ ?_ ?_)
  · simp [reservedValue, Kind.valid, Raw.b, Raw.c, Raw.sk, h]
  · simp (disch := decide) [reservedBits, hiUsed, Raw.sk, wide_mask]
  · first | rfl | (simp [Raw.sk] <;> omega) | simp [Raw.sk, h]
  · simp [Raw.b, Raw.c, Raw.vsrc, Raw.sk, Raw.disp, Raw.strK, Raw.strOut, Raw.strCore]

theorem F.vmovx (d : Reg) (a : Reg) (c : Reg) (esz : BitVec 2) : F.Statement (.vmovx d a c esz) := by
  intro h
  replace h : (scalarOk d && vectorOk a && scalarOk c) = true := h
  simp [scalarOk, vectorOk] at h
  refine F.core rfl rfl (.inl ⟨rfl, rfl⟩) (decodeRaw_ok _ _ _ _ (by simp) rfl rfl rfl ?_ ?_ ?_ ?_)
  · simp [reservedValue, Kind.valid, Raw.b, Raw.c, Raw.sk, h]
  · simp (disch := decide) [reservedBits, hiUsed, Raw.sk, wide_mask]
  · first | rfl | (simp [Raw.sk] <;> omega) | simp [Raw.sk, h]
  · simp [Raw.b, Raw.c, Raw.vsrc, Raw.sk, Raw.disp, Raw.strK, Raw.strOut, Raw.strCore]

theorem F.vmovi (d : Reg) (a : Reg) (b : Reg) (c : Reg) (esz : BitVec 2) : F.Statement (.vmovi d a b c esz) := by
  intro h
  replace h : (vectorOk d && vectorOk a && scalarOk b && scalarOk c) = true := h
  simp [scalarOk, vectorOk] at h
  refine F.core rfl rfl (.inl ⟨rfl, rfl⟩) (decodeRaw_ok _ _ _ _ (by simp) rfl rfl rfl ?_ ?_ ?_ ?_)
  · simp [reservedValue, Kind.valid, Raw.b, Raw.c, Raw.sk, h]
  · simp (disch := decide) [reservedBits, hiUsed, Raw.sk, wide_mask]
  · first | rfl | (simp [Raw.sk] <;> omega) | simp [Raw.sk, h]
  · simp [Raw.b, Raw.c, Raw.vsrc, Raw.sk, Raw.disp, Raw.strK, Raw.strOut, Raw.strCore]

theorem F.vmovp (d : Reg) (a : Reg) (b : Reg) (esz : BitVec 2) : F.Statement (.vmovp d a b esz) := by
  intro h
  replace h : (vectorOk d && vectorOk a && vectorOk b) = true := h
  simp [vectorOk] at h
  refine F.core rfl rfl (.inl ⟨rfl, rfl⟩) (decodeRaw_ok _ _ _ _ (by simp) rfl rfl rfl ?_ ?_ ?_ ?_)
  · simp [reservedValue, Kind.valid, Raw.b, Raw.c, Raw.sk, h]
  · simp (disch := decide) [reservedBits, hiUsed, Raw.sk, wide_mask]
  · first | rfl | (simp [Raw.sk] <;> omega) | simp [Raw.sk, h]
  · simp [Raw.b, Raw.c, Raw.vsrc, Raw.sk, Raw.disp, Raw.strK, Raw.strOut, Raw.strCore]

theorem F.vmovsr (d : Reg) (b : VSrc) (c : Reg) : F.Statement (.vmovsr d b c) := by
  intro h
  replace h : (vectorOk d && vsrcOk b && scalarOk c) = true := h
  cases b
  all_goals
    simp [scalarOk, vectorOk, vsrcOk] at h
    refine F.core rfl rfl (.inl ⟨rfl, rfl⟩) (decodeRaw_ok _ _ _ _ (by simp) rfl rfl rfl ?_ ?_ ?_ ?_)
    · simp [reservedValue, Kind.valid, Raw.b, Raw.c, Raw.sk, h]
    · simp (disch := decide) [reservedBits, hiUsed, Raw.sk, wide_mask]
    · first | rfl | (simp [Raw.sk] <;> omega) | simp [Raw.sk, h]
    · simp [Raw.b, Raw.c, Raw.vsrc, Raw.sk, Raw.disp, Raw.strK, Raw.strOut, Raw.strCore]

theorem F.vcvif (d : Reg) (b : VSrc) (rm : BitVec 3) : F.Statement (.vcvif d b rm) := by
  intro h
  replace h : (vectorOk d && vsrcOk b && rmOk rm) = true := h
  cases b
  all_goals
    simp [rmOk, vectorOk, vsrcOk] at h
    refine F.core rfl rfl (.inl ⟨rfl, rfl⟩) (decodeRaw_ok _ _ _ _ (by simp) rfl rfl rfl ?_ ?_ ?_ ?_)
    · simp [reservedValue, Kind.valid, Raw.b, Raw.c, Raw.sk, h]
    · simp (disch := decide) [reservedBits, hiUsed, Raw.sk, wide_mask]
    · first | rfl | (simp [Raw.sk] <;> omega) | simp [Raw.sk, h]
    · simp [Raw.b, Raw.c, Raw.vsrc, Raw.sk, Raw.disp, Raw.strK, Raw.strOut, Raw.strCore]

theorem F.vcvn (d : Reg) (a : Reg) (b : VSrc) (f : BitVec 6) (rm : BitVec 3) : F.Statement (.vcvn d a b f rm) := by
  intro h
  replace h : (vectorOk d && vectorOk a && vsrcOk b && rmOk rm && vcvOk f) = true := h
  cases b
  all_goals
    simp [rmOk, vectorOk, vsrcOk] at h
    refine F.core rfl rfl (.inl ⟨rfl, rfl⟩) (decodeRaw_ok _ _ _ _ (by simp) rfl rfl (row45_vcvn _ h.2) ?_ ?_ ?_ ?_)
    · simp [reservedValue, Kind.valid, Raw.b, Raw.c, Raw.sk, h]
    · simp (disch := decide) [reservedBits, hiUsed, Raw.sk, wide_mask]
    · first | rfl | (simp [Raw.sk] <;> omega) | simp [Raw.sk, h]
    · simp [Raw.b, Raw.c, Raw.vsrc, Raw.sk, Raw.disp, Raw.strK, Raw.strOut, Raw.strCore]

theorem F.vcvfi (d : Reg) (b : VSrc) (rm : BitVec 3) : F.Statement (.vcvfi d b rm) := by
  intro h
  replace h : (vectorOk d && vsrcOk b && rmOk rm) = true := h
  cases b
  all_goals
    simp [rmOk, vectorOk, vsrcOk] at h
    refine F.core rfl rfl (.inl ⟨rfl, rfl⟩) (decodeRaw_ok _ _ _ _ (by simp) rfl rfl rfl ?_ ?_ ?_ ?_)
    · simp [reservedValue, Kind.valid, Raw.b, Raw.c, Raw.sk, h]
    · simp (disch := decide) [reservedBits, hiUsed, Raw.sk, wide_mask]
    · first | rfl | (simp [Raw.sk] <;> omega) | simp [Raw.sk, h]
    · simp [Raw.b, Raw.c, Raw.vsrc, Raw.sk, Raw.disp, Raw.strK, Raw.strOut, Raw.strCore]

theorem F.vcvw (d : Reg) (b : Reg) (f : BitVec 6) : F.Statement (.vcvw d b f) := by
  intro h
  replace h : (vectorOk d && vectorOk b && vcvOk f) = true := h
  simp [vectorOk] at h
  refine F.core rfl rfl (.inl ⟨rfl, rfl⟩) (decodeRaw_ok _ _ _ _ (by simp) rfl rfl (row45_vcvw _ f rfl h.2) ?_ ?_ ?_ ?_)
  · simp [reservedValue, Kind.valid, Raw.b, Raw.c, Raw.sk, h]
  · simp (disch := decide) [reservedBits, hiUsed, Raw.sk, wide_mask]
  · first | rfl | (simp [Raw.sk] <;> omega) | simp [Raw.sk, h]
  · simp [Raw.b, Raw.c, Raw.vsrc, Raw.sk, Raw.disp, Raw.strK, Raw.strOut, Raw.strCore]

theorem F.vqpq8 (d : Reg) (a : Reg) (b : VSrc) (c : Reg) (rm : BitVec 3) : F.Statement (.vqpq8 d a b c rm) := by
  intro h
  replace h : (vectorOk d && vectorOk a && vsrcOk b && scalarOk c && rmOk rm) = true := h
  cases b
  all_goals
    simp [rmOk, scalarOk, vectorOk, vsrcOk] at h
    refine F.core rfl rfl (.inl ⟨rfl, rfl⟩) (decodeRaw_ok _ _ _ _ (by simp) rfl rfl rfl ?_ ?_ ?_ ?_)
    · simp [reservedValue, Kind.valid, Raw.b, Raw.c, Raw.sk, h]
    · simp (disch := decide) [reservedBits, hiUsed, Raw.sk, wide_mask]
    · first | rfl | (simp [Raw.sk] <;> omega) | simp [Raw.sk, h]
    · simp [Raw.b, Raw.c, Raw.vsrc, Raw.sk, Raw.disp, Raw.strK, Raw.strOut, Raw.strCore]

theorem F.vqpq4 (d : Reg) (a : Reg) (b : VSrc) (c : Reg) (rm : BitVec 3) : F.Statement (.vqpq4 d a b c rm) := by
  intro h
  replace h : (vectorOk d && vectorOk a && vsrcOk b && scalarOk c && rmOk rm) = true := h
  cases b
  all_goals
    simp [rmOk, scalarOk, vectorOk, vsrcOk] at h
    refine F.core rfl rfl (.inl ⟨rfl, rfl⟩) (decodeRaw_ok _ _ _ _ (by simp) rfl rfl rfl ?_ ?_ ?_ ?_)
    · simp [reservedValue, Kind.valid, Raw.b, Raw.c, Raw.sk, h]
    · simp (disch := decide) [reservedBits, hiUsed, Raw.sk, wide_mask]
    · first | rfl | (simp [Raw.sk] <;> omega) | simp [Raw.sk, h]
    · simp [Raw.b, Raw.c, Raw.vsrc, Raw.sk, Raw.disp, Raw.strK, Raw.strOut, Raw.strCore]

theorem F.vqpf8ab (d : Reg) (a : Reg) (b : VSrc) (c : Reg) (rm : BitVec 3) : F.Statement (.vqpf8ab d a b c rm) := by
  intro h
  replace h : (vectorOk d && vectorOk a && vsrcOk b && scalarOk c && rmOk rm) = true := h
  cases b
  all_goals
    simp [rmOk, scalarOk, vectorOk, vsrcOk] at h
    refine F.core rfl rfl (.inl ⟨rfl, rfl⟩) (decodeRaw_ok _ _ _ _ (by simp) rfl rfl rfl ?_ ?_ ?_ ?_)
    · simp [reservedValue, Kind.valid, Raw.b, Raw.c, Raw.sk, h]
    · simp (disch := decide) [reservedBits, hiUsed, Raw.sk, wide_mask]
    · first | rfl | (simp [Raw.sk] <;> omega) | simp [Raw.sk, h]
    · simp [Raw.b, Raw.c, Raw.vsrc, Raw.sk, Raw.disp, Raw.strK, Raw.strOut, Raw.strCore]

theorem F.vqpf4ab (d : Reg) (a : Reg) (b : VSrc) (c : Reg) (rm : BitVec 3) : F.Statement (.vqpf4ab d a b c rm) := by
  intro h
  replace h : (vectorOk d && vectorOk a && vsrcOk b && scalarOk c && rmOk rm) = true := h
  cases b
  all_goals
    simp [rmOk, scalarOk, vectorOk, vsrcOk] at h
    refine F.core rfl rfl (.inl ⟨rfl, rfl⟩) (decodeRaw_ok _ _ _ _ (by simp) rfl rfl rfl ?_ ?_ ?_ ?_)
    · simp [reservedValue, Kind.valid, Raw.b, Raw.c, Raw.sk, h]
    · simp (disch := decide) [reservedBits, hiUsed, Raw.sk, wide_mask]
    · first | rfl | (simp [Raw.sk] <;> omega) | simp [Raw.sk, h]
    · simp [Raw.b, Raw.c, Raw.vsrc, Raw.sk, Raw.disp, Raw.strK, Raw.strOut, Raw.strCore]

theorem F.vqpdq8 (d : Reg) (b : Reg) (c : Reg) : F.Statement (.vqpdq8 d b c) := by
  intro h
  replace h : (vectorOk d && vectorOk b && scalarOk c) = true := h
  simp [scalarOk, vectorOk] at h
  refine F.core rfl rfl (.inl ⟨rfl, rfl⟩) (decodeRaw_ok _ _ _ _ (by simp) rfl rfl rfl ?_ ?_ ?_ ?_)
  · simp [reservedValue, Kind.valid, Raw.b, Raw.c, Raw.sk, h]
  · simp (disch := decide) [reservedBits, hiUsed, Raw.sk, wide_mask]
  · first | rfl | (simp [Raw.sk] <;> omega) | simp [Raw.sk, h]
  · simp [Raw.b, Raw.c, Raw.vsrc, Raw.sk, Raw.disp, Raw.strK, Raw.strOut, Raw.strCore]

theorem F.vqpdq4 (d : Reg) (b : Reg) (c : Reg) : F.Statement (.vqpdq4 d b c) := by
  intro h
  replace h : (vectorOk d && vectorOk b && scalarOk c) = true := h
  simp [scalarOk, vectorOk] at h
  refine F.core rfl rfl (.inl ⟨rfl, rfl⟩) (decodeRaw_ok _ _ _ _ (by simp) rfl rfl rfl ?_ ?_ ?_ ?_)
  · simp [reservedValue, Kind.valid, Raw.b, Raw.c, Raw.sk, h]
  · simp (disch := decide) [reservedBits, hiUsed, Raw.sk, wide_mask]
  · first | rfl | (simp [Raw.sk] <;> omega) | simp [Raw.sk, h]
  · simp [Raw.b, Raw.c, Raw.vsrc, Raw.sk, Raw.disp, Raw.strK, Raw.strOut, Raw.strCore]

theorem F.vstrleft (d : Reg) (imm : BitVec 2) : F.Statement (.vstrleft d imm) := by
  intro h
  replace h : (scalarOk d) = true := h
  simp [scalarOk] at h
  refine F.core rfl rfl (.inl ⟨rfl, rfl⟩) (decodeRaw_ok _ _ _ _ (by simp) rfl rfl rfl ?_ ?_ ?_ ?_)
  · simp [reservedValue, Kind.valid, Raw.b, Raw.c, Raw.sk, h]
  · simp (disch := decide) [reservedBits, hiUsed, Raw.sk, wide_mask]
  · first | rfl | (simp [Raw.sk] <;> omega) | simp [Raw.sk, h]
  · simp [Raw.b, Raw.c, Raw.vsrc, Raw.sk, Raw.disp, Raw.strK, Raw.strOut, Raw.strCore]

theorem F.vstrrow (d : Reg) (imm : BitVec 2) : F.Statement (.vstrrow d imm) := by
  intro h
  replace h : (scalarOk d) = true := h
  simp [scalarOk] at h
  refine F.core rfl rfl (.inl ⟨rfl, rfl⟩) (decodeRaw_ok _ _ _ _ (by simp) rfl rfl rfl ?_ ?_ ?_ ?_)
  · simp [reservedValue, Kind.valid, Raw.b, Raw.c, Raw.sk, h]
  · simp (disch := decide) [reservedBits, hiUsed, Raw.sk, wide_mask]
  · first | rfl | (simp [Raw.sk] <;> omega) | simp [Raw.sk, h]
  · simp [Raw.b, Raw.c, Raw.vsrc, Raw.sk, Raw.disp, Raw.strK, Raw.strOut, Raw.strCore]

theorem F.vstrdrain (imm : BitVec 2) : F.Statement (.vstrdrain imm) := by
  intro _
  refine F.core rfl rfl (.inl ⟨rfl, rfl⟩) (decodeRaw_ok _ _ _ _ (by simp) rfl rfl rfl ?_ ?_ ?_ ?_)
  · simp [reservedValue, Kind.valid, Raw.b, Raw.c, Raw.sk]
  · simp (disch := decide) [reservedBits, hiUsed, Raw.sk, wide_mask]
  · first | rfl | (simp [Raw.sk] <;> omega) | simp [Raw.sk, h]
  · simp [Raw.b, Raw.c, Raw.vsrc, Raw.sk, Raw.disp, Raw.strK, Raw.strOut, Raw.strCore]

theorem F.rst (d : Reg) (a : Reg) (esz : BitVec 2) (imm : BitVec 25) : F.Statement (.rst d a esz imm) := by
  intro h
  replace h : (scalarOk d && scalarOk a) = true := h
  simp [scalarOk] at h
  refine F.core rfl rfl (.inl ⟨rfl, rfl⟩) (decodeRaw_ok _ _ _ _ (by simp) rfl rfl rfl ?_ ?_ ?_ ?_)
  · simp [reservedValue, Kind.valid, Raw.b, Raw.c, Raw.sk, h]
  · simp (disch := decide) [reservedBits, hiUsed, Raw.sk, wide_mask]
  · first | rfl | (simp [Raw.sk] <;> omega) | simp [Raw.sk, h]
  · simp [Raw.b, Raw.c, Raw.vsrc, Raw.sk, Raw.disp, Raw.strK, Raw.strOut, Raw.strCore]

theorem F.rstcp (d : Reg) (a : Reg) (imm : BitVec 6) : F.Statement (.rstcp d a imm) := by
  intro h
  replace h : (scalarOk d && scalarOk a) = true := h
  simp [scalarOk] at h
  refine F.core rfl rfl (.inl ⟨rfl, rfl⟩) (decodeRaw_ok _ _ _ _ (by simp) rfl rfl rfl ?_ ?_ ?_ ?_)
  · simp [reservedValue, Kind.valid, Raw.b, Raw.c, Raw.sk, h]
  · simp (disch := decide) [reservedBits, hiUsed, Raw.sk, wide_mask]
  · first | rfl | (simp [Raw.sk] <;> omega) | simp [Raw.sk, h]
  · simp [Raw.b, Raw.c, Raw.vsrc, Raw.sk, Raw.disp, Raw.strK, Raw.strOut, Raw.strCore]

theorem F.rstpm (a : Reg) : F.Statement (.rstpm a) := by
  intro h
  replace h : (scalarOk a) = true := h
  simp [scalarOk] at h
  refine F.core rfl rfl (.inl ⟨rfl, rfl⟩) (decodeRaw_ok _ _ _ _ (by simp) rfl rfl rfl ?_ ?_ ?_ ?_)
  · simp [reservedValue, Kind.valid, Raw.b, Raw.c, Raw.sk, h]
  · simp (disch := decide) [reservedBits, hiUsed, Raw.sk, wide_mask]
  · first | rfl | (simp [Raw.sk] <;> omega) | simp [Raw.sk, h]
  · simp [Raw.b, Raw.c, Raw.vsrc, Raw.sk, Raw.disp, Raw.strK, Raw.strOut, Raw.strCore]

theorem F.rstpmrd (d : Reg) : F.Statement (.rstpmrd d) := by
  intro h
  replace h : (scalarOk d) = true := h
  simp [scalarOk] at h
  refine F.core rfl rfl (.inl ⟨rfl, rfl⟩) (decodeRaw_ok _ _ _ _ (by simp) rfl rfl rfl ?_ ?_ ?_ ?_)
  · simp [reservedValue, Kind.valid, Raw.b, Raw.c, Raw.sk, h]
  · simp (disch := decide) [reservedBits, hiUsed, Raw.sk, wide_mask]
  · first | rfl | (simp [Raw.sk] <;> omega) | simp [Raw.sk, h]
  · simp [Raw.b, Raw.c, Raw.vsrc, Raw.sk, Raw.disp, Raw.strK, Raw.strOut, Raw.strCore]

theorem F.rld (d : Reg) (a : Reg) (esz : BitVec 2) (imm : BitVec 25) : F.Statement (.rld d a esz imm) := by
  intro h
  replace h : (scalarOk d && scalarOk a) = true := h
  simp [scalarOk] at h
  refine F.core rfl rfl (.inl ⟨rfl, rfl⟩) (decodeRaw_ok _ _ _ _ (by simp) rfl rfl rfl ?_ ?_ ?_ ?_)
  · simp [reservedValue, Kind.valid, Raw.b, Raw.c, Raw.sk, h]
  · simp (disch := decide) [reservedBits, hiUsed, Raw.sk, wide_mask]
  · first | rfl | (simp [Raw.sk] <;> omega) | simp [Raw.sk, h]
  · simp [Raw.b, Raw.c, Raw.vsrc, Raw.sk, Raw.disp, Raw.strK, Raw.strOut, Raw.strCore]

theorem F.rlds (d : Reg) (a : Reg) (esz : BitVec 2) (imm : BitVec 25) : F.Statement (.rlds d a esz imm) := by
  intro h
  replace h : (scalarOk d && scalarOk a && decide (esz ≠ 3#2)) = true := h
  simp [scalarOk] at h
  refine F.core rfl rfl (.inl ⟨rfl, rfl⟩) (decodeRaw_ok _ _ _ _ (by simp) rfl rfl rfl ?_ ?_ ?_ ?_)
  · simp [reservedValue, Kind.valid, Raw.b, Raw.c, Raw.sk, h]
  · simp (disch := decide) [reservedBits, hiUsed, Raw.sk, wide_mask]
  · first | rfl | (simp [Raw.sk] <;> omega) | simp [Raw.sk, h]
  · simp [Raw.b, Raw.c, Raw.vsrc, Raw.sk, Raw.disp, Raw.strK, Raw.strOut, Raw.strCore]

theorem F.rldadd (d : Reg) (a : Reg) (esz : BitVec 2) (imm : BitVec 25) : F.Statement (.rldadd d a esz imm) := by
  intro h
  replace h : (scalarOk d && scalarOk a && decide (2 ≤ esz.toNat)) = true := h
  simp [scalarOk] at h
  refine F.core rfl rfl (.inl ⟨rfl, rfl⟩) (decodeRaw_ok _ _ _ _ (by simp) rfl rfl rfl ?_ ?_ ?_ ?_)
  · simp [reservedValue, Kind.valid, Raw.b, Raw.c, Raw.sk, h]
  · simp (disch := decide) [reservedBits, hiUsed, Raw.sk, wide_mask]
  · first | rfl | (simp [Raw.sk] <;> omega) | simp [Raw.sk, h]
  · simp [Raw.b, Raw.c, Raw.vsrc, Raw.sk, Raw.disp, Raw.strK, Raw.strOut, Raw.strCore]

theorem F.mcst (d : Reg) (a : Reg) (b : Reg) (c : Reg) : F.Statement (.mcst d a b c) := by
  intro h
  replace h : (scalarOk d && scalarOk a && scalarOk b && scalarOk c) = true := h
  simp [scalarOk] at h
  refine F.core rfl rfl (.inl ⟨rfl, rfl⟩) (decodeRaw_ok _ _ _ _ (by simp) rfl rfl rfl ?_ ?_ ?_ ?_)
  · simp [reservedValue, Kind.valid, Raw.b, Raw.c, Raw.sk, h]
  · simp (disch := decide) [reservedBits, hiUsed, Raw.sk, wide_mask]
  · first | rfl | (simp [Raw.sk] <;> omega) | simp [Raw.sk, h]
  · simp [Raw.b, Raw.c, Raw.vsrc, Raw.sk, Raw.disp, Raw.strK, Raw.strOut, Raw.strCore]

theorem F.crel (d : Reg) (a : Reg) (b : Reg) (esz : BitVec 2) (ext : BitVec 64) : F.Statement (.crel d a b esz ext) := by
  intro h
  replace h : (scalarOk d && scalarOk a && scalarOk b && decide (2 ≤ esz.toNat) && zeroOk (ext.extractLsb' 0 24)) = true := h
  simp [scalarOk, zeroOk] at h
  refine F.core rfl rfl (.inr (.inr rfl)) (decodeRaw_ok _ _ _ _ (by simp) rfl rfl rfl ?_ ?_ ?_ ?_)
  · simp [reservedValue, Kind.valid, Raw.b, Raw.c, Raw.sk, h]
  · exact reservedBits_false _ _ (by simp) (by simp) (by simp) (by simp) (by simp) (by simp) (by simp) (by simp [hiUsed, Raw.sk]) (upper_crel ext h.2)
  · first | rfl | (simp [Raw.sk] <;> omega) | simp [Raw.sk, h]
  · simp [Raw.b, Raw.c, Raw.vsrc, Raw.sk, Raw.disp, Raw.strK, Raw.strOut, Raw.strCore]

theorem F.crelm (d : Reg) (a : Reg) (b : Reg) (c : Reg) (esz : BitVec 2) (ext : BitVec 64) : F.Statement (.crelm d a b c esz ext) := by
  intro h
  replace h : (scalarOk d && scalarOk a && scalarOk b && scalarOk c && decide (2 ≤ esz.toNat) && zeroOk (ext.extractLsb' 0 24)) = true := h
  simp [scalarOk, zeroOk] at h
  refine F.core rfl rfl (.inr (.inr rfl)) (decodeRaw_ok _ _ _ _ (by simp) rfl rfl rfl ?_ ?_ ?_ ?_)
  · simp [reservedValue, Kind.valid, Raw.b, Raw.c, Raw.sk, h]
  · exact reservedBits_false _ _ (by simp) (by simp) (by simp) (by simp) (by simp) (by simp) (by simp) (by simp [hiUsed, Raw.sk]) (upper_crel ext h.2)
  · first | rfl | (simp [Raw.sk] <;> omega) | simp [Raw.sk, h]
  · simp [Raw.b, Raw.c, Raw.vsrc, Raw.sk, Raw.disp, Raw.strK, Raw.strOut, Raw.strCore]

theorem F.rcptw (d : Reg) (imm : BitVec 4) : F.Statement (.rcptw d imm) := by
  intro h
  replace h : (scalarOk d) = true := h
  simp [scalarOk] at h
  refine F.core rfl rfl (.inl ⟨rfl, rfl⟩) (decodeRaw_ok _ _ _ _ (by simp) rfl rfl rfl ?_ ?_ ?_ ?_)
  · simp [reservedValue, Kind.valid, Raw.b, Raw.c, Raw.sk, h]
  · simp (disch := decide) [reservedBits, hiUsed, Raw.sk, wide_mask]
  · first | rfl | (simp [Raw.sk] <;> omega) | simp [Raw.sk, h]
  · simp [Raw.b, Raw.c, Raw.vsrc, Raw.sk, Raw.disp, Raw.strK, Raw.strOut, Raw.strCore]

theorem F.rcpttest (d : Reg) (imm : BitVec 4) : F.Statement (.rcpttest d imm) := by
  intro h
  replace h : (scalarOk d) = true := h
  simp [scalarOk] at h
  refine F.core rfl rfl (.inl ⟨rfl, rfl⟩) (decodeRaw_ok _ _ _ _ (by simp) rfl rfl rfl ?_ ?_ ?_ ?_)
  · simp [reservedValue, Kind.valid, Raw.b, Raw.c, Raw.sk, h]
  · simp (disch := decide) [reservedBits, hiUsed, Raw.sk, wide_mask]
  · first | rfl | (simp [Raw.sk] <;> omega) | simp [Raw.sk, h]
  · simp [Raw.b, Raw.c, Raw.vsrc, Raw.sk, Raw.disp, Raw.strK, Raw.strOut, Raw.strCore]

theorem F.mixreg (d : Reg) (a : Reg) : F.Statement (.mixreg d a) := by
  intro h
  replace h : (scalarOk d && scalarOk a) = true := h
  simp [scalarOk] at h
  refine F.core rfl rfl (.inl ⟨rfl, rfl⟩) (decodeRaw_ok _ _ _ _ (by simp) rfl rfl rfl ?_ ?_ ?_ ?_)
  · simp [reservedValue, Kind.valid, Raw.b, Raw.c, Raw.sk, h]
  · simp (disch := decide) [reservedBits, hiUsed, Raw.sk, wide_mask]
  · first | rfl | (simp [Raw.sk] <;> omega) | simp [Raw.sk, h]
  · simp [Raw.b, Raw.c, Raw.vsrc, Raw.sk, Raw.disp, Raw.strK, Raw.strOut, Raw.strCore]

theorem F.mixadd (d : Reg) (a : Reg) (b : Reg) : F.Statement (.mixadd d a b) := by
  intro h
  replace h : (scalarOk d && scalarOk a && scalarOk b) = true := h
  simp [scalarOk] at h
  refine F.core rfl rfl (.inl ⟨rfl, rfl⟩) (decodeRaw_ok _ _ _ _ (by simp) rfl rfl rfl ?_ ?_ ?_ ?_)
  · simp [reservedValue, Kind.valid, Raw.b, Raw.c, Raw.sk, h]
  · simp (disch := decide) [reservedBits, hiUsed, Raw.sk, wide_mask]
  · first | rfl | (simp [Raw.sk] <;> omega) | simp [Raw.sk, h]
  · simp [Raw.b, Raw.c, Raw.vsrc, Raw.sk, Raw.disp, Raw.strK, Raw.strOut, Raw.strCore]

theorem F.mixrd (d : Reg) (a : Reg) (b : Reg) (esz : BitVec 2) : F.Statement (.mixrd d a b esz) := by
  intro h
  replace h : (scalarOk d && scalarOk a && scalarOk b) = true := h
  simp [scalarOk] at h
  refine F.core rfl rfl (.inl ⟨rfl, rfl⟩) (decodeRaw_ok _ _ _ _ (by simp) rfl rfl rfl ?_ ?_ ?_ ?_)
  · simp [reservedValue, Kind.valid, Raw.b, Raw.c, Raw.sk, h]
  · simp (disch := decide) [reservedBits, hiUsed, Raw.sk, wide_mask]
  · first | rfl | (simp [Raw.sk] <;> omega) | simp [Raw.sk, h]
  · simp [Raw.b, Raw.c, Raw.vsrc, Raw.sk, Raw.disp, Raw.strK, Raw.strOut, Raw.strCore]

theorem F.mixst (d : Reg) (a : Reg) (b : Reg) : F.Statement (.mixst d a b) := by
  intro h
  replace h : (scalarOk d && scalarOk a && scalarOk b) = true := h
  simp [scalarOk] at h
  refine F.core rfl rfl (.inl ⟨rfl, rfl⟩) (decodeRaw_ok _ _ _ _ (by simp) rfl rfl rfl ?_ ?_ ?_ ?_)
  · simp [reservedValue, Kind.valid, Raw.b, Raw.c, Raw.sk, h]
  · simp (disch := decide) [reservedBits, hiUsed, Raw.sk, wide_mask]
  · first | rfl | (simp [Raw.sk] <;> omega) | simp [Raw.sk, h]
  · simp [Raw.b, Raw.c, Raw.vsrc, Raw.sk, Raw.disp, Raw.strK, Raw.strOut, Raw.strCore]

theorem F.mixstep (d : Reg) (a : Reg) (b : Reg) : F.Statement (.mixstep d a b) := by
  intro h
  replace h : (scalarOk d && scalarOk a && scalarOk b) = true := h
  simp [scalarOk] at h
  refine F.core rfl rfl (.inl ⟨rfl, rfl⟩) (decodeRaw_ok _ _ _ _ (by simp) rfl rfl rfl ?_ ?_ ?_ ?_)
  · simp [reservedValue, Kind.valid, Raw.b, Raw.c, Raw.sk, h]
  · simp (disch := decide) [reservedBits, hiUsed, Raw.sk, wide_mask]
  · first | rfl | (simp [Raw.sk] <;> omega) | simp [Raw.sk, h]
  · simp [Raw.b, Raw.c, Raw.vsrc, Raw.sk, Raw.disp, Raw.strK, Raw.strOut, Raw.strCore]

theorem F.mixwait (d : Reg) (a : Reg) : F.Statement (.mixwait d a) := by
  intro h
  replace h : (scalarOk d && scalarOk a) = true := h
  simp [scalarOk] at h
  refine F.core rfl rfl (.inl ⟨rfl, rfl⟩) (decodeRaw_ok _ _ _ _ (by simp) rfl rfl rfl ?_ ?_ ?_ ?_)
  · simp [reservedValue, Kind.valid, Raw.b, Raw.c, Raw.sk, h]
  · simp (disch := decide) [reservedBits, hiUsed, Raw.sk, wide_mask]
  · first | rfl | (simp [Raw.sk] <;> omega) | simp [Raw.sk, h]
  · simp [Raw.b, Raw.c, Raw.vsrc, Raw.sk, Raw.disp, Raw.strK, Raw.strOut, Raw.strCore]

theorem F.dereg (d : Reg) (a : Reg) (b : Reg) (c : Reg) : F.Statement (.dereg d a b c) := by
  intro h
  replace h : (scalarOk d && scalarOk a && scalarOk b && scalarOk c) = true := h
  simp [scalarOk] at h
  refine F.core rfl rfl (.inl ⟨rfl, rfl⟩) (decodeRaw_ok _ _ _ _ (by simp) rfl rfl rfl ?_ ?_ ?_ ?_)
  · simp [reservedValue, Kind.valid, Raw.b, Raw.c, Raw.sk, h]
  · simp (disch := decide) [reservedBits, hiUsed, Raw.sk, wide_mask]
  · first | rfl | (simp [Raw.sk] <;> omega) | simp [Raw.sk, h]
  · simp [Raw.b, Raw.c, Raw.vsrc, Raw.sk, Raw.disp, Raw.strK, Raw.strOut, Raw.strCore]

theorem F.ohand (d : Reg) (a : Reg) (imm : BitVec 25) : F.Statement (.ohand d a imm) := by
  intro h
  replace h : (scalarOk d && scalarOk a) = true := h
  simp [scalarOk] at h
  refine F.core rfl rfl (.inl ⟨rfl, rfl⟩) (decodeRaw_ok _ _ _ _ (by simp) rfl rfl rfl ?_ ?_ ?_ ?_)
  · simp [reservedValue, Kind.valid, Raw.b, Raw.c, Raw.sk, h]
  · simp (disch := decide) [reservedBits, hiUsed, Raw.sk, wide_mask]
  · first | rfl | (simp [Raw.sk] <;> omega) | simp [Raw.sk, h]
  · simp [Raw.b, Raw.c, Raw.vsrc, Raw.sk, Raw.disp, Raw.strK, Raw.strOut, Raw.strCore]

theorem F.otake (d : Reg) (a : Reg) (imm : BitVec 25) : F.Statement (.otake d a imm) := by
  intro h
  replace h : (scalarOk d && scalarOk a) = true := h
  simp [scalarOk] at h
  refine F.core rfl rfl (.inl ⟨rfl, rfl⟩) (decodeRaw_ok _ _ _ _ (by simp) rfl rfl rfl ?_ ?_ ?_ ?_)
  · simp [reservedValue, Kind.valid, Raw.b, Raw.c, Raw.sk, h]
  · simp (disch := decide) [reservedBits, hiUsed, Raw.sk, wide_mask]
  · first | rfl | (simp [Raw.sk] <;> omega) | simp [Raw.sk, h]
  · simp [Raw.b, Raw.c, Raw.vsrc, Raw.sk, Raw.disp, Raw.strK, Raw.strOut, Raw.strCore]

theorem F.odrop (a : Reg) (imm : BitVec 25) : F.Statement (.odrop a imm) := by
  intro h
  replace h : (scalarOk a) = true := h
  simp [scalarOk] at h
  refine F.core rfl rfl (.inl ⟨rfl, rfl⟩) (decodeRaw_ok _ _ _ _ (by simp) rfl rfl rfl ?_ ?_ ?_ ?_)
  · simp [reservedValue, Kind.valid, Raw.b, Raw.c, Raw.sk, h]
  · simp (disch := decide) [reservedBits, hiUsed, Raw.sk, wide_mask]
  · first | rfl | (simp [Raw.sk] <;> omega) | simp [Raw.sk, h]
  · simp [Raw.b, Raw.c, Raw.vsrc, Raw.sk, Raw.disp, Raw.strK, Raw.strOut, Raw.strCore]

theorem F.otest (d : Reg) (a : Reg) (imm : BitVec 25) : F.Statement (.otest d a imm) := by
  intro h
  replace h : (scalarOk d && scalarOk a) = true := h
  simp [scalarOk] at h
  refine F.core rfl rfl (.inl ⟨rfl, rfl⟩) (decodeRaw_ok _ _ _ _ (by simp) rfl rfl rfl ?_ ?_ ?_ ?_)
  · simp [reservedValue, Kind.valid, Raw.b, Raw.c, Raw.sk, h]
  · simp (disch := decide) [reservedBits, hiUsed, Raw.sk, wide_mask]
  · first | rfl | (simp [Raw.sk] <;> omega) | simp [Raw.sk, h]
  · simp [Raw.b, Raw.c, Raw.vsrc, Raw.sk, Raw.disp, Raw.strK, Raw.strOut, Raw.strCore]

theorem F.msend (a : Reg) (b : Reg) (c : Reg) : F.Statement (.msend a b c) := by
  intro h
  replace h : (scalarOk a && scalarOk b && scalarOk c) = true := h
  simp [scalarOk] at h
  refine F.core rfl rfl (.inl ⟨rfl, rfl⟩) (decodeRaw_ok _ _ _ _ (by simp) rfl rfl rfl ?_ ?_ ?_ ?_)
  · simp [reservedValue, Kind.valid, Raw.b, Raw.c, Raw.sk, h]
  · simp (disch := decide) [reservedBits, hiUsed, Raw.sk, wide_mask]
  · first | rfl | (simp [Raw.sk] <;> omega) | simp [Raw.sk, h]
  · simp [Raw.b, Raw.c, Raw.vsrc, Raw.sk, Raw.disp, Raw.strK, Raw.strOut, Raw.strCore]

theorem F.mpop (d : Reg) : F.Statement (.mpop d) := by
  intro h
  replace h : (scalarOk d) = true := h
  simp [scalarOk] at h
  refine F.core rfl rfl (.inl ⟨rfl, rfl⟩) (decodeRaw_ok _ _ _ _ (by simp) rfl rfl rfl ?_ ?_ ?_ ?_)
  · simp [reservedValue, Kind.valid, Raw.b, Raw.c, Raw.sk, h]
  · simp (disch := decide) [reservedBits, hiUsed, Raw.sk, wide_mask]
  · first | rfl | (simp [Raw.sk] <;> omega) | simp [Raw.sk, h]
  · simp [Raw.b, Raw.c, Raw.vsrc, Raw.sk, Raw.disp, Raw.strK, Raw.strOut, Raw.strCore]

theorem F.mlen (d : Reg) (a : Reg) : F.Statement (.mlen d a) := by
  intro h
  replace h : (scalarOk d && scalarOk a) = true := h
  simp [scalarOk] at h
  refine F.core rfl rfl (.inl ⟨rfl, rfl⟩) (decodeRaw_ok _ _ _ _ (by simp) rfl rfl rfl ?_ ?_ ?_ ?_)
  · simp [reservedValue, Kind.valid, Raw.b, Raw.c, Raw.sk, h]
  · simp (disch := decide) [reservedBits, hiUsed, Raw.sk, wide_mask]
  · first | rfl | (simp [Raw.sk] <;> omega) | simp [Raw.sk, h]
  · simp [Raw.b, Raw.c, Raw.vsrc, Raw.sk, Raw.disp, Raw.strK, Raw.strOut, Raw.strCore]

theorem F.mlaunch (d : Reg) (b : Reg) : F.Statement (.mlaunch d b) := by
  intro h
  replace h : (scalarOk d && scalarOk b) = true := h
  simp [scalarOk] at h
  refine F.core rfl rfl (.inl ⟨rfl, rfl⟩) (decodeRaw_ok _ _ _ _ (by simp) rfl rfl rfl ?_ ?_ ?_ ?_)
  · simp [reservedValue, Kind.valid, Raw.b, Raw.c, Raw.sk, h]
  · simp (disch := decide) [reservedBits, hiUsed, Raw.sk, wide_mask]
  · first | rfl | (simp [Raw.sk] <;> omega) | simp [Raw.sk, h]
  · simp [Raw.b, Raw.c, Raw.vsrc, Raw.sk, Raw.disp, Raw.strK, Raw.strOut, Raw.strCore]

theorem F.chmask (imm : BitVec 6) : F.Statement (.chmask imm) := by
  intro _
  refine F.core rfl rfl (.inl ⟨rfl, rfl⟩) (decodeRaw_ok _ _ _ _ (by simp) rfl rfl rfl ?_ ?_ ?_ ?_)
  · simp [reservedValue, Kind.valid, Raw.b, Raw.c, Raw.sk]
  · simp (disch := decide) [reservedBits, hiUsed, Raw.sk, wide_mask]
  · first | rfl | (simp [Raw.sk] <;> omega) | simp [Raw.sk, h]
  · simp [Raw.b, Raw.c, Raw.vsrc, Raw.sk, Raw.disp, Raw.strK, Raw.strOut, Raw.strCore]

theorem F.chunmask (imm : BitVec 6) : F.Statement (.chunmask imm) := by
  intro _
  refine F.core rfl rfl (.inl ⟨rfl, rfl⟩) (decodeRaw_ok _ _ _ _ (by simp) rfl rfl rfl ?_ ?_ ?_ ?_)
  · simp [reservedValue, Kind.valid, Raw.b, Raw.c, Raw.sk]
  · simp (disch := decide) [reservedBits, hiUsed, Raw.sk, wide_mask]
  · first | rfl | (simp [Raw.sk] <;> omega) | simp [Raw.sk, h]
  · simp [Raw.b, Raw.c, Raw.vsrc, Raw.sk, Raw.disp, Raw.strK, Raw.strOut, Raw.strCore]

theorem F.chrd (d : Reg) (imm : BitVec 6) : F.Statement (.chrd d imm) := by
  intro h
  replace h : (scalarOk d) = true := h
  simp [scalarOk] at h
  refine F.core rfl rfl (.inl ⟨rfl, rfl⟩) (decodeRaw_ok _ _ _ _ (by simp) rfl rfl rfl ?_ ?_ ?_ ?_)
  · simp [reservedValue, Kind.valid, Raw.b, Raw.c, Raw.sk, h]
  · simp (disch := decide) [reservedBits, hiUsed, Raw.sk, wide_mask]
  · first | rfl | (simp [Raw.sk] <;> omega) | simp [Raw.sk, h]
  · simp [Raw.b, Raw.c, Raw.vsrc, Raw.sk, Raw.disp, Raw.strK, Raw.strOut, Raw.strCore]

theorem F.chprio (a : Reg) (imm : BitVec 6) : F.Statement (.chprio a imm) := by
  intro h
  replace h : (scalarOk a) = true := h
  simp [scalarOk] at h
  refine F.core rfl rfl (.inl ⟨rfl, rfl⟩) (decodeRaw_ok _ _ _ _ (by simp) rfl rfl rfl ?_ ?_ ?_ ?_)
  · simp [reservedValue, Kind.valid, Raw.b, Raw.c, Raw.sk, h]
  · simp (disch := decide) [reservedBits, hiUsed, Raw.sk, wide_mask]
  · first | rfl | (simp [Raw.sk] <;> omega) | simp [Raw.sk, h]
  · simp [Raw.b, Raw.c, Raw.vsrc, Raw.sk, Raw.disp, Raw.strK, Raw.strOut, Raw.strCore]

theorem F.creg (imm : BitVec 25) : F.Statement (.creg imm) := by
  intro _
  refine F.core rfl rfl (.inl ⟨rfl, rfl⟩) (decodeRaw_ok _ _ _ _ (by simp) rfl rfl rfl ?_ ?_ ?_ ?_)
  · simp [reservedValue, Kind.valid, Raw.b, Raw.c, Raw.sk]
  · simp (disch := decide) [reservedBits, hiUsed, Raw.sk, wide_mask]
  · first | rfl | (simp [Raw.sk] <;> omega) | simp [Raw.sk, h]
  · simp [Raw.b, Raw.c, Raw.vsrc, Raw.sk, Raw.disp, Raw.strK, Raw.strOut, Raw.strCore]

theorem F.sysflush (a : Reg) : F.Statement (.sysflush a) := by
  intro h
  replace h : (scalarOk a) = true := h
  simp [scalarOk] at h
  refine F.core rfl rfl (.inl ⟨rfl, rfl⟩) (decodeRaw_ok _ _ _ _ (by simp) rfl rfl rfl ?_ ?_ ?_ ?_)
  · simp [reservedValue, Kind.valid, Raw.b, Raw.c, Raw.sk, h]
  · simp (disch := decide) [reservedBits, hiUsed, Raw.sk, wide_mask]
  · first | rfl | (simp [Raw.sk] <;> omega) | simp [Raw.sk, h]
  · simp [Raw.b, Raw.c, Raw.vsrc, Raw.sk, Raw.disp, Raw.strK, Raw.strOut, Raw.strCore]

theorem F.sigen (a : Reg) : F.Statement (.sigen a) := by
  intro h
  replace h : (scalarOk a) = true := h
  simp [scalarOk] at h
  refine F.core rfl rfl (.inl ⟨rfl, rfl⟩) (decodeRaw_ok _ _ _ _ (by simp) rfl rfl rfl ?_ ?_ ?_ ?_)
  · simp [reservedValue, Kind.valid, Raw.b, Raw.c, Raw.sk, h]
  · simp (disch := decide) [reservedBits, hiUsed, Raw.sk, wide_mask]
  · first | rfl | (simp [Raw.sk] <;> omega) | simp [Raw.sk, h]
  · simp [Raw.b, Raw.c, Raw.vsrc, Raw.sk, Raw.disp, Raw.strK, Raw.strOut, Raw.strCore]

theorem F.sigrd (d : Reg) : F.Statement (.sigrd d) := by
  intro h
  replace h : (scalarOk d) = true := h
  simp [scalarOk] at h
  refine F.core rfl rfl (.inl ⟨rfl, rfl⟩) (decodeRaw_ok _ _ _ _ (by simp) rfl rfl rfl ?_ ?_ ?_ ?_)
  · simp [reservedValue, Kind.valid, Raw.b, Raw.c, Raw.sk, h]
  · simp (disch := decide) [reservedBits, hiUsed, Raw.sk, wide_mask]
  · first | rfl | (simp [Raw.sk] <;> omega) | simp [Raw.sk, h]
  · simp [Raw.b, Raw.c, Raw.vsrc, Raw.sk, Raw.disp, Raw.strK, Raw.strOut, Raw.strCore]

theorem F.sorterAdd (kd : BitVec 4) (ka : BitVec 4) (kb : BitVec 4) : F.Statement (.sorterAdd kd ka kb) := by
  refine F.sorterWord rfl rfl ?_
  unfold decodeSorter
  simp (disch := decide) only [sorter_op, sorter_kd, sorter_ka, sorter_low, sorter_cut]
  show (if _ then _ else _) = _
  have hm : Sys2Proof.sorterWord 0#6 kd ka (kb ++ 0#14) &&& 16383#32 = 0#32 :=
    sorter_mask _ _ _ _ _ 0#4 0#4 16383#18 (by decide) (by simp) (by simp) (by rw [show 16383#18 = (0#4 ++ 16383#14 : BitVec 18) by decide, BitVec.and_append]; simp)
  rw [if_pos]
  · simp (disch := omega) only [field_low, field_high, field_top, cut_append, BitVec.extractLsb'_eq_self, BitVec.setWidth_eq, Nat.reduceSub]
  · exact decide_eq_true hm

theorem F.sorterSub (kd : BitVec 4) (ka : BitVec 4) (kb : BitVec 4) : F.Statement (.sorterSub kd ka kb) := by
  refine F.sorterWord rfl rfl ?_
  unfold decodeSorter
  simp (disch := decide) only [sorter_op, sorter_kd, sorter_ka, sorter_low, sorter_cut]
  show (if _ then _ else _) = _
  have hm : Sys2Proof.sorterWord 1#6 kd ka (kb ++ 0#14) &&& 16383#32 = 0#32 :=
    sorter_mask _ _ _ _ _ 0#4 0#4 16383#18 (by decide) (by simp) (by simp) (by rw [show 16383#18 = (0#4 ++ 16383#14 : BitVec 18) by decide, BitVec.and_append]; simp)
  rw [if_pos]
  · simp (disch := omega) only [field_low, field_high, field_top, cut_append, BitVec.extractLsb'_eq_self, BitVec.setWidth_eq, Nat.reduceSub]
  · exact decide_eq_true hm

theorem F.sorterAnd (kd : BitVec 4) (ka : BitVec 4) (kb : BitVec 4) : F.Statement (.sorterAnd kd ka kb) := by
  refine F.sorterWord rfl rfl ?_
  unfold decodeSorter
  simp (disch := decide) only [sorter_op, sorter_kd, sorter_ka, sorter_low, sorter_cut]
  show (if _ then _ else _) = _
  have hm : Sys2Proof.sorterWord 2#6 kd ka (kb ++ 0#14) &&& 16383#32 = 0#32 :=
    sorter_mask _ _ _ _ _ 0#4 0#4 16383#18 (by decide) (by simp) (by simp) (by rw [show 16383#18 = (0#4 ++ 16383#14 : BitVec 18) by decide, BitVec.and_append]; simp)
  rw [if_pos]
  · simp (disch := omega) only [field_low, field_high, field_top, cut_append, BitVec.extractLsb'_eq_self, BitVec.setWidth_eq, Nat.reduceSub]
  · exact decide_eq_true hm

theorem F.sorterOr (kd : BitVec 4) (ka : BitVec 4) (kb : BitVec 4) : F.Statement (.sorterOr kd ka kb) := by
  refine F.sorterWord rfl rfl ?_
  unfold decodeSorter
  simp (disch := decide) only [sorter_op, sorter_kd, sorter_ka, sorter_low, sorter_cut]
  show (if _ then _ else _) = _
  have hm : Sys2Proof.sorterWord 3#6 kd ka (kb ++ 0#14) &&& 16383#32 = 0#32 :=
    sorter_mask _ _ _ _ _ 0#4 0#4 16383#18 (by decide) (by simp) (by simp) (by rw [show 16383#18 = (0#4 ++ 16383#14 : BitVec 18) by decide, BitVec.and_append]; simp)
  rw [if_pos]
  · simp (disch := omega) only [field_low, field_high, field_top, cut_append, BitVec.extractLsb'_eq_self, BitVec.setWidth_eq, Nat.reduceSub]
  · exact decide_eq_true hm

theorem F.sorterXor (kd : BitVec 4) (ka : BitVec 4) (kb : BitVec 4) : F.Statement (.sorterXor kd ka kb) := by
  refine F.sorterWord rfl rfl ?_
  unfold decodeSorter
  simp (disch := decide) only [sorter_op, sorter_kd, sorter_ka, sorter_low, sorter_cut]
  show (if _ then _ else _) = _
  have hm : Sys2Proof.sorterWord 4#6 kd ka (kb ++ 0#14) &&& 16383#32 = 0#32 :=
    sorter_mask _ _ _ _ _ 0#4 0#4 16383#18 (by decide) (by simp) (by simp) (by rw [show 16383#18 = (0#4 ++ 16383#14 : BitVec 18) by decide, BitVec.and_append]; simp)
  rw [if_pos]
  · simp (disch := omega) only [field_low, field_high, field_top, cut_append, BitVec.extractLsb'_eq_self, BitVec.setWidth_eq, Nat.reduceSub]
  · exact decide_eq_true hm

theorem F.sorterShl (kd : BitVec 4) (ka : BitVec 4) (kb : BitVec 4) : F.Statement (.sorterShl kd ka kb) := by
  refine F.sorterWord rfl rfl ?_
  unfold decodeSorter
  simp (disch := decide) only [sorter_op, sorter_kd, sorter_ka, sorter_low, sorter_cut]
  show (if _ then _ else _) = _
  have hm : Sys2Proof.sorterWord 5#6 kd ka (kb ++ 0#14) &&& 16383#32 = 0#32 :=
    sorter_mask _ _ _ _ _ 0#4 0#4 16383#18 (by decide) (by simp) (by simp) (by rw [show 16383#18 = (0#4 ++ 16383#14 : BitVec 18) by decide, BitVec.and_append]; simp)
  rw [if_pos]
  · simp (disch := omega) only [field_low, field_high, field_top, cut_append, BitVec.extractLsb'_eq_self, BitVec.setWidth_eq, Nat.reduceSub]
  · exact decide_eq_true hm

theorem F.sorterShr (kd : BitVec 4) (ka : BitVec 4) (kb : BitVec 4) : F.Statement (.sorterShr kd ka kb) := by
  refine F.sorterWord rfl rfl ?_
  unfold decodeSorter
  simp (disch := decide) only [sorter_op, sorter_kd, sorter_ka, sorter_low, sorter_cut]
  show (if _ then _ else _) = _
  have hm : Sys2Proof.sorterWord 6#6 kd ka (kb ++ 0#14) &&& 16383#32 = 0#32 :=
    sorter_mask _ _ _ _ _ 0#4 0#4 16383#18 (by decide) (by simp) (by simp) (by rw [show 16383#18 = (0#4 ++ 16383#14 : BitVec 18) by decide, BitVec.and_append]; simp)
  rw [if_pos]
  · simp (disch := omega) only [field_low, field_high, field_top, cut_append, BitVec.extractLsb'_eq_self, BitVec.setWidth_eq, Nat.reduceSub]
  · exact decide_eq_true hm

theorem F.setltu (kd : BitVec 4) (ka : BitVec 4) (kb : BitVec 4) : F.Statement (.setltu kd ka kb) := by
  refine F.sorterWord rfl rfl ?_
  unfold decodeSorter
  simp (disch := decide) only [sorter_op, sorter_kd, sorter_ka, sorter_low, sorter_cut]
  show (if _ then _ else _) = _
  have hm : Sys2Proof.sorterWord 7#6 kd ka (kb ++ 0#14) &&& 16383#32 = 0#32 :=
    sorter_mask _ _ _ _ _ 0#4 0#4 16383#18 (by decide) (by simp) (by simp) (by rw [show 16383#18 = (0#4 ++ 16383#14 : BitVec 18) by decide, BitVec.and_append]; simp)
  rw [if_pos]
  · simp (disch := omega) only [field_low, field_high, field_top, cut_append, BitVec.extractLsb'_eq_self, BitVec.setWidth_eq, Nat.reduceSub]
  · exact decide_eq_true hm

theorem F.seteq (kd : BitVec 4) (ka : BitVec 4) (kb : BitVec 4) : F.Statement (.seteq kd ka kb) := by
  refine F.sorterWord rfl rfl ?_
  unfold decodeSorter
  simp (disch := decide) only [sorter_op, sorter_kd, sorter_ka, sorter_low, sorter_cut]
  show (if _ then _ else _) = _
  have hm : Sys2Proof.sorterWord 8#6 kd ka (kb ++ 0#14) &&& 16383#32 = 0#32 :=
    sorter_mask _ _ _ _ _ 0#4 0#4 16383#18 (by decide) (by simp) (by simp) (by rw [show 16383#18 = (0#4 ++ 16383#14 : BitVec 18) by decide, BitVec.and_append]; simp)
  rw [if_pos]
  · simp (disch := omega) only [field_low, field_high, field_top, cut_append, BitVec.extractLsb'_eq_self, BitVec.setWidth_eq, Nat.reduceSub]
  · exact decide_eq_true hm

theorem F.addk (kd : BitVec 4) (ka : BitVec 4) (imm : BitVec 18) : F.Statement (.addk kd ka imm) := by
  refine F.sorterWord rfl rfl ?_
  unfold decodeSorter
  simp (disch := decide) only [sorter_op, sorter_kd, sorter_ka, sorter_low, sorter_cut]
  show (if _ then _ else _) = _
  have hm : Sys2Proof.sorterWord 9#6 kd ka (imm) &&& 0#32 = 0#32 :=
    sorter_mask _ _ _ _ _ 0#4 0#4 0#18 (by decide) (by simp) (by simp) (by simp)
  rw [if_pos]
  · simp (disch := omega) only [field_low, field_high, field_top, cut_append, BitVec.extractLsb'_eq_self, BitVec.setWidth_eq, Nat.reduceSub]
  · exact decide_eq_true BitVec.and_zero

theorem F.andk (kd : BitVec 4) (ka : BitVec 4) (imm : BitVec 18) : F.Statement (.andk kd ka imm) := by
  refine F.sorterWord rfl rfl ?_
  unfold decodeSorter
  simp (disch := decide) only [sorter_op, sorter_kd, sorter_ka, sorter_low, sorter_cut]
  show (if _ then _ else _) = _
  have hm : Sys2Proof.sorterWord 10#6 kd ka (imm) &&& 0#32 = 0#32 :=
    sorter_mask _ _ _ _ _ 0#4 0#4 0#18 (by decide) (by simp) (by simp) (by simp)
  rw [if_pos]
  · simp (disch := omega) only [field_low, field_high, field_top, cut_append, BitVec.extractLsb'_eq_self, BitVec.setWidth_eq, Nat.reduceSub]
  · exact decide_eq_true BitVec.and_zero

theorem F.shlk (kd : BitVec 4) (ka : BitVec 4) (n : BitVec 6) : F.Statement (.shlk kd ka n) := by
  refine F.sorterWord rfl rfl ?_
  unfold decodeSorter
  simp (disch := decide) only [sorter_op, sorter_kd, sorter_ka, sorter_low, sorter_cut]
  show (if _ then _ else _) = _
  have hm : Sys2Proof.sorterWord 11#6 kd ka (0#12 ++ n) &&& 262080#32 = 0#32 :=
    sorter_mask _ _ _ _ _ 0#4 0#4 262080#18 (by decide) (by simp) (by simp) (by rw [show 262080#18 = (4095#12 ++ 0#6 : BitVec 18) by decide, BitVec.and_append]; simp)
  rw [if_pos]
  · simp (disch := omega) only [field_low, field_high, field_top, cut_append, BitVec.extractLsb'_eq_self, BitVec.setWidth_eq, Nat.reduceSub]
  · exact decide_eq_true hm

theorem F.shrk (kd : BitVec 4) (ka : BitVec 4) (n : BitVec 6) : F.Statement (.shrk kd ka n) := by
  refine F.sorterWord rfl rfl ?_
  unfold decodeSorter
  simp (disch := decide) only [sorter_op, sorter_kd, sorter_ka, sorter_low, sorter_cut]
  show (if _ then _ else _) = _
  have hm : Sys2Proof.sorterWord 12#6 kd ka (0#12 ++ n) &&& 262080#32 = 0#32 :=
    sorter_mask _ _ _ _ _ 0#4 0#4 262080#18 (by decide) (by simp) (by simp) (by rw [show 262080#18 = (4095#12 ++ 0#6 : BitVec 18) by decide, BitVec.and_append]; simp)
  rw [if_pos]
  · simp (disch := omega) only [field_low, field_high, field_top, cut_append, BitVec.extractLsb'_eq_self, BitVec.setWidth_eq, Nat.reduceSub]
  · exact decide_eq_true hm

theorem F.movk (kd : BitVec 4) (imm : BitVec 18) : F.Statement (.movk kd imm) := by
  refine F.sorterWord rfl rfl ?_
  unfold decodeSorter
  simp (disch := decide) only [sorter_op, sorter_kd, sorter_ka, sorter_low, sorter_cut]
  show (if _ then _ else _) = _
  have hm : Sys2Proof.sorterWord 13#6 kd 0#4 (imm) &&& 3932160#32 = 0#32 :=
    sorter_mask _ _ _ _ _ 0#4 15#4 0#18 (by decide) (by simp) (by simp) (by simp)
  rw [if_pos]
  · simp (disch := omega) only [field_low, field_high, field_top, cut_append, BitVec.extractLsb'_eq_self, BitVec.setWidth_eq, Nat.reduceSub]
  · exact decide_eq_true hm

theorem F.sorterBeq (ka : BitVec 4) (kb : BitVec 4) (off : BitVec 8) : F.Statement (.sorterBeq ka kb off) := by
  refine F.sorterWord rfl rfl ?_
  unfold decodeSorter
  simp (disch := decide) only [sorter_op, sorter_kd, sorter_ka, sorter_low, sorter_cut]
  show (if _ then _ else _) = _
  have hm : Sys2Proof.sorterWord 14#6 0#4 ka (kb ++ 0#6 ++ off) &&& 62930688#32 = 0#32 :=
    sorter_mask _ _ _ _ _ 15#4 0#4 16128#18 (by decide) (by simp) (by simp) (by rw [show 16128#18 = (0#4 ++ 63#6 ++ 0#8 : BitVec 18) by decide, BitVec.and_append, BitVec.and_append]; simp)
  rw [if_pos]
  · simp (disch := omega) only [field_low, field_high, field_top, cut_append, BitVec.extractLsb'_eq_self, BitVec.setWidth_eq, Nat.reduceSub]
  · exact decide_eq_true hm

theorem F.sorterBne (ka : BitVec 4) (kb : BitVec 4) (off : BitVec 8) : F.Statement (.sorterBne ka kb off) := by
  refine F.sorterWord rfl rfl ?_
  unfold decodeSorter
  simp (disch := decide) only [sorter_op, sorter_kd, sorter_ka, sorter_low, sorter_cut]
  show (if _ then _ else _) = _
  have hm : Sys2Proof.sorterWord 15#6 0#4 ka (kb ++ 0#6 ++ off) &&& 62930688#32 = 0#32 :=
    sorter_mask _ _ _ _ _ 15#4 0#4 16128#18 (by decide) (by simp) (by simp) (by rw [show 16128#18 = (0#4 ++ 63#6 ++ 0#8 : BitVec 18) by decide, BitVec.and_append, BitVec.and_append]; simp)
  rw [if_pos]
  · simp (disch := omega) only [field_low, field_high, field_top, cut_append, BitVec.extractLsb'_eq_self, BitVec.setWidth_eq, Nat.reduceSub]
  · exact decide_eq_true hm

theorem F.sorterBltu (ka : BitVec 4) (kb : BitVec 4) (off : BitVec 8) : F.Statement (.sorterBltu ka kb off) := by
  refine F.sorterWord rfl rfl ?_
  unfold decodeSorter
  simp (disch := decide) only [sorter_op, sorter_kd, sorter_ka, sorter_low, sorter_cut]
  show (if _ then _ else _) = _
  have hm : Sys2Proof.sorterWord 16#6 0#4 ka (kb ++ 0#6 ++ off) &&& 62930688#32 = 0#32 :=
    sorter_mask _ _ _ _ _ 15#4 0#4 16128#18 (by decide) (by simp) (by simp) (by rw [show 16128#18 = (0#4 ++ 63#6 ++ 0#8 : BitVec 18) by decide, BitVec.and_append, BitVec.and_append]; simp)
  rw [if_pos]
  · simp (disch := omega) only [field_low, field_high, field_top, cut_append, BitVec.extractLsb'_eq_self, BitVec.setWidth_eq, Nat.reduceSub]
  · exact decide_eq_true hm

theorem F.jmp (off : BitVec 8) : F.Statement (.jmp off) := by
  refine F.sorterWord rfl rfl ?_
  unfold decodeSorter
  simp (disch := decide) only [sorter_op, sorter_kd, sorter_ka, sorter_low, sorter_cut]
  show (if _ then _ else _) = _
  have hm : Sys2Proof.sorterWord 17#6 0#4 0#4 (0#4 ++ 0#6 ++ off) &&& 67108608#32 = 0#32 :=
    sorter_mask _ _ _ _ _ 15#4 15#4 261888#18 (by decide) (by simp) (by simp) (by rw [show 261888#18 = (15#4 ++ 63#6 ++ 0#8 : BitVec 18) by decide, BitVec.and_append, BitVec.and_append]; simp)
  rw [if_pos]
  · simp (disch := omega) only [field_low, field_high, field_top, cut_append, BitVec.extractLsb'_eq_self, BitVec.setWidth_eq, Nat.reduceSub]
  · exact decide_eq_true hm

theorem F.hget (kd : BitVec 4) (f : BitVec 5) : F.Statement (.hget kd f) := by
  refine F.sorterWordIf rfl rfl fun h => ?_
  replace h : headerOk f = true := h
  simp [wideOk, headerOk] at h
  unfold decodeSorter
  simp (disch := decide) only [sorter_op, sorter_kd, sorter_ka, sorter_low, sorter_cut]
  show (if _ then _ else _) = _
  have hm : Sys2Proof.sorterWord 18#6 kd 0#4 (0#13 ++ f) &&& 4194272#32 = 0#32 :=
    sorter_mask _ _ _ _ _ 0#4 15#4 262112#18 (by decide) (by simp) (by simp) (by rw [show 262112#18 = (8191#13 ++ 0#5 : BitVec 18) by decide, BitVec.and_append]; simp)
  rw [if_pos]
  · simp (disch := omega) only [field_low, field_high, field_top, cut_append, BitVec.extractLsb'_eq_self, BitVec.setWidth_eq, Nat.reduceSub]
  · exact ⟨decide_eq_true hm, by simp only [cut_append, field_low _ _ 0 5 (Nat.le_refl 5), BitVec.extractLsb'_eq_self, BitVec.le_def]; simpa using h⟩

theorem F.hset (ka : BitVec 4) (f : BitVec 5) : F.Statement (.hset ka f) := by
  refine F.sorterWordIf rfl rfl fun h => ?_
  replace h : headerOk f = true := h
  simp [wideOk, headerOk] at h
  unfold decodeSorter
  simp (disch := decide) only [sorter_op, sorter_kd, sorter_ka, sorter_low, sorter_cut]
  show (if _ then _ else _) = _
  have hm : Sys2Proof.sorterWord 19#6 0#4 ka (0#13 ++ f) &&& 63176672#32 = 0#32 :=
    sorter_mask _ _ _ _ _ 15#4 0#4 262112#18 (by decide) (by simp) (by simp) (by rw [show 262112#18 = (8191#13 ++ 0#5 : BitVec 18) by decide, BitVec.and_append]; simp)
  rw [if_pos]
  · simp (disch := omega) only [field_low, field_high, field_top, cut_append, BitVec.extractLsb'_eq_self, BitVec.setWidth_eq, Nat.reduceSub]
  · exact ⟨decide_eq_true hm, by simp only [cut_append, field_low _ _ 0 5 (Nat.le_refl 5), BitVec.extractLsb'_eq_self, BitVec.le_def]; simpa using h⟩

theorem F.pldw (wd : BitVec 4) (f : BitVec 3) : F.Statement (.pldw wd f) := by
  refine F.sorterWordIf rfl rfl fun h => ?_
  replace h : wideOk wd = true := h
  simp [wideOk, headerOk] at h
  unfold decodeSorter
  simp (disch := decide) only [sorter_op, sorter_kd, sorter_ka, sorter_low, sorter_cut]
  show (if _ then _ else _) = _
  have hm : Sys2Proof.sorterWord 20#6 wd 0#4 (0#15 ++ f) &&& 4194296#32 = 0#32 :=
    sorter_mask _ _ _ _ _ 0#4 15#4 262136#18 (by decide) (by simp) (by simp) (by rw [show 262136#18 = (32767#15 ++ 0#3 : BitVec 18) by decide, BitVec.and_append]; simp)
  rw [if_pos]
  · simp (disch := omega) only [field_low, field_high, field_top, cut_append, BitVec.extractLsb'_eq_self, BitVec.setWidth_eq, Nat.reduceSub]
  · exact ⟨decide_eq_true hm, by simpa using h⟩

theorem F.pstw (wa : BitVec 4) (f : BitVec 3) : F.Statement (.pstw wa f) := by
  refine F.sorterWordIf rfl rfl fun h => ?_
  replace h : wideOk wa = true := h
  simp [wideOk, headerOk] at h
  unfold decodeSorter
  simp (disch := decide) only [sorter_op, sorter_kd, sorter_ka, sorter_low, sorter_cut]
  show (if _ then _ else _) = _
  have hm : Sys2Proof.sorterWord 21#6 0#4 wa (0#15 ++ f) &&& 63176696#32 = 0#32 :=
    sorter_mask _ _ _ _ _ 15#4 0#4 262136#18 (by decide) (by simp) (by simp) (by rw [show 262136#18 = (32767#15 ++ 0#3 : BitVec 18) by decide, BitVec.and_append]; simp)
  rw [if_pos]
  · simp (disch := omega) only [field_low, field_high, field_top, cut_append, BitVec.extractLsb'_eq_self, BitVec.setWidth_eq, Nat.reduceSub]
  · exact ⟨decide_eq_true hm, by simpa using h⟩

theorem F.wget (kd : BitVec 4) (wa : BitVec 4) (l : BitVec 2) : F.Statement (.wget kd wa l) := by
  refine F.sorterWordIf rfl rfl fun h => ?_
  replace h : wideOk wa = true := h
  simp [wideOk, headerOk] at h
  unfold decodeSorter
  simp (disch := decide) only [sorter_op, sorter_kd, sorter_ka, sorter_low, sorter_cut]
  show (if _ then _ else _) = _
  have hm : Sys2Proof.sorterWord 22#6 kd wa (0#16 ++ l) &&& 262140#32 = 0#32 :=
    sorter_mask _ _ _ _ _ 0#4 0#4 262140#18 (by decide) (by simp) (by simp) (by rw [show 262140#18 = (65535#16 ++ 0#2 : BitVec 18) by decide, BitVec.and_append]; simp)
  rw [if_pos]
  · simp (disch := omega) only [field_low, field_high, field_top, cut_append, BitVec.extractLsb'_eq_self, BitVec.setWidth_eq, Nat.reduceSub]
  · exact ⟨decide_eq_true hm, by simpa using h⟩

theorem F.wset (wd : BitVec 4) (ka : BitVec 4) (l : BitVec 2) : F.Statement (.wset wd ka l) := by
  refine F.sorterWordIf rfl rfl fun h => ?_
  replace h : wideOk wd = true := h
  simp [wideOk, headerOk] at h
  unfold decodeSorter
  simp (disch := decide) only [sorter_op, sorter_kd, sorter_ka, sorter_low, sorter_cut]
  show (if _ then _ else _) = _
  have hm : Sys2Proof.sorterWord 23#6 wd ka (0#16 ++ l) &&& 262140#32 = 0#32 :=
    sorter_mask _ _ _ _ _ 0#4 0#4 262140#18 (by decide) (by simp) (by simp) (by rw [show 262140#18 = (65535#16 ++ 0#2 : BitVec 18) by decide, BitVec.and_append]; simp)
  rw [if_pos]
  · simp (disch := omega) only [field_low, field_high, field_top, cut_append, BitVec.extractLsb'_eq_self, BitVec.setWidth_eq, Nat.reduceSub]
  · exact ⟨decide_eq_true hm, by simpa using h⟩

theorem F.fsel (ka : BitVec 4) : F.Statement (.fsel ka) := by
  refine F.sorterWord rfl rfl ?_
  unfold decodeSorter
  simp (disch := decide) only [sorter_op, sorter_kd, sorter_ka, sorter_low, sorter_cut]
  show (if _ then _ else _) = _
  have hm : Sys2Proof.sorterWord 24#6 0#4 ka (0#4 ++ 0#14) &&& 63176703#32 = 0#32 :=
    sorter_mask _ _ _ _ _ 15#4 0#4 262143#18 (by decide) (by simp) (by simp) (by rw [show 262143#18 = (15#4 ++ 16383#14 : BitVec 18) by decide, BitVec.and_append]; simp)
  exact if_pos (decide_eq_true hm)

theorem F.sld (kd : BitVec 4) (off : BitVec 3) : F.Statement (.sld kd off) := by
  refine F.sorterWord rfl rfl ?_
  unfold decodeSorter
  simp (disch := decide) only [sorter_op, sorter_kd, sorter_ka, sorter_low, sorter_cut]
  show (if _ then _ else _) = _
  have hm : Sys2Proof.sorterWord 25#6 kd 0#4 (0#12 ++ off ++ 0#3) &&& 4194247#32 = 0#32 :=
    sorter_mask _ _ _ _ _ 0#4 15#4 262087#18 (by decide) (by simp) (by simp) (by rw [show 262087#18 = (4095#12 ++ 0#3 ++ 7#3 : BitVec 18) by decide, BitVec.and_append, BitVec.and_append]; simp)
  rw [if_pos]
  · simp (disch := omega) only [field_low, field_high, field_top, cut_append, BitVec.extractLsb'_eq_self, BitVec.setWidth_eq, Nat.reduceSub]
  · exact decide_eq_true hm

theorem F.sst (ka : BitVec 4) (off : BitVec 3) : F.Statement (.sst ka off) := by
  refine F.sorterWord rfl rfl ?_
  unfold decodeSorter
  simp (disch := decide) only [sorter_op, sorter_kd, sorter_ka, sorter_low, sorter_cut]
  show (if _ then _ else _) = _
  have hm : Sys2Proof.sorterWord 26#6 0#4 ka (0#12 ++ off ++ 0#3) &&& 63176647#32 = 0#32 :=
    sorter_mask _ _ _ _ _ 15#4 0#4 262087#18 (by decide) (by simp) (by simp) (by rw [show 262087#18 = (4095#12 ++ 0#3 ++ 7#3 : BitVec 18) by decide, BitVec.and_append, BitVec.and_append]; simp)
  rw [if_pos]
  · simp (disch := omega) only [field_low, field_high, field_top, cut_append, BitVec.extractLsb'_eq_self, BitVec.setWidth_eq, Nat.reduceSub]
  · exact decide_eq_true hm

theorem F.sldw (wd : BitVec 4) (off : BitVec 1) : F.Statement (.sldw wd off) := by
  refine F.sorterWordIf rfl rfl fun h => ?_
  replace h : wideOk wd = true := h
  simp [wideOk, headerOk] at h
  unfold decodeSorter
  simp (disch := decide) only [sorter_op, sorter_kd, sorter_ka, sorter_low, sorter_cut]
  show (if _ then _ else _) = _
  have hm : Sys2Proof.sorterWord 27#6 wd 0#4 (0#12 ++ off ++ 0#5) &&& 4194271#32 = 0#32 :=
    sorter_mask _ _ _ _ _ 0#4 15#4 262111#18 (by decide) (by simp) (by simp) (by rw [show 262111#18 = (4095#12 ++ 0#1 ++ 31#5 : BitVec 18) by decide, BitVec.and_append, BitVec.and_append]; simp)
  rw [if_pos]
  · simp (disch := omega) only [field_low, field_high, field_top, cut_append, BitVec.extractLsb'_eq_self, BitVec.setWidth_eq, Nat.reduceSub]
  · exact ⟨decide_eq_true hm, by simpa using h⟩

theorem F.sstw (wa : BitVec 4) (off : BitVec 1) : F.Statement (.sstw wa off) := by
  refine F.sorterWordIf rfl rfl fun h => ?_
  replace h : wideOk wa = true := h
  simp [wideOk, headerOk] at h
  unfold decodeSorter
  simp (disch := decide) only [sorter_op, sorter_kd, sorter_ka, sorter_low, sorter_cut]
  show (if _ then _ else _) = _
  have hm : Sys2Proof.sorterWord 28#6 0#4 wa (0#12 ++ off ++ 0#5) &&& 63176671#32 = 0#32 :=
    sorter_mask _ _ _ _ _ 15#4 0#4 262111#18 (by decide) (by simp) (by simp) (by rw [show 262111#18 = (4095#12 ++ 0#1 ++ 31#5 : BitVec 18) by decide, BitVec.and_append, BitVec.and_append]; simp)
  rw [if_pos]
  · simp (disch := omega) only [field_low, field_high, field_top, cut_append, BitVec.extractLsb'_eq_self, BitVec.setWidth_eq, Nat.reduceSub]
  · exact ⟨decide_eq_true hm, by simpa using h⟩

theorem F.gld (kd : BitVec 4) (ka : BitVec 4) : F.Statement (.gld kd ka) := by
  refine F.sorterWord rfl rfl ?_
  unfold decodeSorter
  simp (disch := decide) only [sorter_op, sorter_kd, sorter_ka, sorter_low, sorter_cut]
  show (if _ then _ else _) = _
  have hm : Sys2Proof.sorterWord 29#6 kd ka (0#4 ++ 0#14) &&& 262143#32 = 0#32 :=
    sorter_mask _ _ _ _ _ 0#4 0#4 262143#18 (by decide) (by simp) (by simp) (by rw [show 262143#18 = (15#4 ++ 16383#14 : BitVec 18) by decide, BitVec.and_append]; simp)
  exact if_pos (decide_eq_true hm)

theorem F.gmem (kd : BitVec 4) (ka : BitVec 4) (kb : BitVec 4) : F.Statement (.gmem kd ka kb) := by
  refine F.sorterWord rfl rfl ?_
  unfold decodeSorter
  simp (disch := decide) only [sorter_op, sorter_kd, sorter_ka, sorter_low, sorter_cut]
  show (if _ then _ else _) = _
  have hm : Sys2Proof.sorterWord 30#6 kd ka (kb ++ 0#14) &&& 16383#32 = 0#32 :=
    sorter_mask _ _ _ _ _ 0#4 0#4 16383#18 (by decide) (by simp) (by simp) (by rw [show 16383#18 = (0#4 ++ 16383#14 : BitVec 18) by decide, BitVec.and_append]; simp)
  rw [if_pos]
  · simp (disch := omega) only [field_low, field_high, field_top, cut_append, BitVec.extractLsb'_eq_self, BitVec.setWidth_eq, Nat.reduceSub]
  · exact decide_eq_true hm

theorem F.emit (ka : BitVec 4) : F.Statement (.emit ka) := by
  refine F.sorterWord rfl rfl ?_
  unfold decodeSorter
  simp (disch := decide) only [sorter_op, sorter_kd, sorter_ka, sorter_low, sorter_cut]
  show (if _ then _ else _) = _
  have hm : Sys2Proof.sorterWord 31#6 0#4 ka (0#4 ++ 0#14) &&& 63176703#32 = 0#32 :=
    sorter_mask _ _ _ _ _ 15#4 0#4 262143#18 (by decide) (by simp) (by simp) (by rw [show 262143#18 = (15#4 ++ 16383#14 : BitVec 18) by decide, BitVec.and_append]; simp)
  exact if_pos (decide_eq_true hm)

theorem F.emitg (ka : BitVec 4) : F.Statement (.emitg ka) := by
  refine F.sorterWord rfl rfl ?_
  unfold decodeSorter
  simp (disch := decide) only [sorter_op, sorter_kd, sorter_ka, sorter_low, sorter_cut]
  show (if _ then _ else _) = _
  have hm : Sys2Proof.sorterWord 32#6 0#4 ka (0#4 ++ 0#14) &&& 63176703#32 = 0#32 :=
    sorter_mask _ _ _ _ _ 15#4 0#4 262143#18 (by decide) (by simp) (by simp) (by rw [show 262143#18 = (15#4 ++ 16383#14 : BitVec 18) by decide, BitVec.and_append]; simp)
  exact if_pos (decide_eq_true hm)

theorem F.nack (n : BitVec 8) : F.Statement (.nack n) := by
  refine F.sorterWord rfl rfl ?_
  unfold decodeSorter
  simp (disch := decide) only [sorter_op, sorter_kd, sorter_ka, sorter_low, sorter_cut]
  show (if _ then _ else _) = _
  have hm : Sys2Proof.sorterWord 35#6 0#4 0#4 (0#10 ++ n) &&& 67108608#32 = 0#32 :=
    sorter_mask _ _ _ _ _ 15#4 15#4 261888#18 (by decide) (by simp) (by simp) (by rw [show 261888#18 = (1023#10 ++ 0#8 : BitVec 18) by decide, BitVec.and_append]; simp)
  rw [if_pos]
  · simp (disch := omega) only [field_low, field_high, field_top, cut_append, BitVec.extractLsb'_eq_self, BitVec.setWidth_eq, Nat.reduceSub]
  · exact decide_eq_true hm

theorem F.sorterTrap (n : BitVec 8) : F.Statement (.sorterTrap n) := by
  refine F.sorterWord rfl rfl ?_
  unfold decodeSorter
  simp (disch := decide) only [sorter_op, sorter_kd, sorter_ka, sorter_low, sorter_cut]
  show (if _ then _ else _) = _
  have hm : Sys2Proof.sorterWord 36#6 0#4 0#4 (0#10 ++ n) &&& 67108608#32 = 0#32 :=
    sorter_mask _ _ _ _ _ 15#4 15#4 261888#18 (by decide) (by simp) (by simp) (by rw [show 261888#18 = (1023#10 ++ 0#8 : BitVec 18) by decide, BitVec.and_append]; simp)
  rw [if_pos]
  · simp (disch := omega) only [field_low, field_high, field_top, cut_append, BitVec.extractLsb'_eq_self, BitVec.setWidth_eq, Nat.reduceSub]
  · exact decide_eq_true hm

theorem F.nop : F.Statement (.nop) := by
  intro _
  refine F.core rfl rfl (.inl ⟨rfl, rfl⟩) (decodeRaw_ok _ _ _ _ (by simp) rfl rfl rfl ?_ ?_ ?_ ?_)
  · simp [reservedValue, Kind.valid, Raw.b, Raw.c, Raw.sk]
  · simp (disch := decide) [reservedBits, hiUsed, Raw.sk, wide_mask]
  · first | rfl | (simp [Raw.sk] <;> omega) | simp [Raw.sk, h]
  · simp [Raw.b, Raw.c, Raw.vsrc, Raw.sk, Raw.disp, Raw.strK, Raw.strOut, Raw.strCore]

theorem F.cseal : F.Statement (.cseal) := by
  intro _
  refine F.core rfl rfl (.inl ⟨rfl, rfl⟩) (decodeRaw_ok _ _ _ _ (by simp) rfl rfl rfl ?_ ?_ ?_ ?_)
  · simp [reservedValue, Kind.valid, Raw.b, Raw.c, Raw.sk]
  · simp (disch := decide) [reservedBits, hiUsed, Raw.sk, wide_mask]
  · first | rfl | (simp [Raw.sk] <;> omega) | simp [Raw.sk, h]
  · simp [Raw.b, Raw.c, Raw.vsrc, Raw.sk, Raw.disp, Raw.strK, Raw.strOut, Raw.strCore]

theorem F.auto : F.Statement (.auto) := F.wordless _ rfl rfl

theorem F.share : F.Statement (.share) := F.wordless _ rfl rfl

theorem F.nbrset : F.Statement (.nbrset) := F.wordless _ rfl rfl

theorem F.fend : F.Statement (.fend) := by
  intro _
  refine F.core rfl rfl (.inl ⟨rfl, rfl⟩) (decodeRaw_ok _ _ _ _ (by simp) rfl rfl rfl ?_ ?_ ?_ ?_)
  · simp [reservedValue, Kind.valid, Raw.b, Raw.c, Raw.sk]
  · simp (disch := decide) [reservedBits, hiUsed, Raw.sk, wide_mask]
  · first | rfl | (simp [Raw.sk] <;> omega) | simp [Raw.sk, h]
  · simp [Raw.b, Raw.c, Raw.vsrc, Raw.sk, Raw.disp, Raw.strK, Raw.strOut, Raw.strCore]

theorem F.cend : F.Statement (.cend) := by
  intro _
  refine F.core rfl rfl (.inl ⟨rfl, rfl⟩) (decodeRaw_ok _ _ _ _ (by simp) rfl rfl rfl ?_ ?_ ?_ ?_)
  · simp [reservedValue, Kind.valid, Raw.b, Raw.c, Raw.sk]
  · simp (disch := decide) [reservedBits, hiUsed, Raw.sk, wide_mask]
  · first | rfl | (simp [Raw.sk] <;> omega) | simp [Raw.sk, h]
  · simp [Raw.b, Raw.c, Raw.vsrc, Raw.sk, Raw.disp, Raw.strK, Raw.strOut, Raw.strCore]

theorem F.eret : F.Statement (.eret) := by
  intro _
  refine F.core rfl rfl (.inl ⟨rfl, rfl⟩) (decodeRaw_ok _ _ _ _ (by simp) rfl rfl rfl ?_ ?_ ?_ ?_)
  · simp [reservedValue, Kind.valid, Raw.b, Raw.c, Raw.sk]
  · simp (disch := decide) [reservedBits, hiUsed, Raw.sk, wide_mask]
  · first | rfl | (simp [Raw.sk] <;> omega) | simp [Raw.sk, h]
  · simp [Raw.b, Raw.c, Raw.vsrc, Raw.sk, Raw.disp, Raw.strK, Raw.strOut, Raw.strCore]

theorem F.syscall : F.Statement (.syscall) := by
  intro _
  refine F.core rfl rfl (.inl ⟨rfl, rfl⟩) (decodeRaw_ok _ _ _ _ (by simp) rfl rfl rfl ?_ ?_ ?_ ?_)
  · simp [reservedValue, Kind.valid, Raw.b, Raw.c, Raw.sk]
  · simp (disch := decide) [reservedBits, hiUsed, Raw.sk, wide_mask]
  · first | rfl | (simp [Raw.sk] <;> omega) | simp [Raw.sk, h]
  · simp [Raw.b, Raw.c, Raw.vsrc, Raw.sk, Raw.disp, Raw.strK, Raw.strOut, Raw.strCore]

theorem F.sysbrk : F.Statement (.sysbrk) := by
  intro _
  refine F.core rfl rfl (.inl ⟨rfl, rfl⟩) (decodeRaw_ok _ _ _ _ (by simp) rfl rfl rfl ?_ ?_ ?_ ?_)
  · simp [reservedValue, Kind.valid, Raw.b, Raw.c, Raw.sk]
  · simp (disch := decide) [reservedBits, hiUsed, Raw.sk, wide_mask]
  · first | rfl | (simp [Raw.sk] <;> omega) | simp [Raw.sk, h]
  · simp [Raw.b, Raw.c, Raw.vsrc, Raw.sk, Raw.disp, Raw.strK, Raw.strOut, Raw.strCore]

theorem F.sysabort : F.Statement (.sysabort) := by
  intro _
  refine F.core rfl rfl (.inl ⟨rfl, rfl⟩) (decodeRaw_ok _ _ _ _ (by simp) rfl rfl rfl ?_ ?_ ?_ ?_)
  · simp [reservedValue, Kind.valid, Raw.b, Raw.c, Raw.sk]
  · simp (disch := decide) [reservedBits, hiUsed, Raw.sk, wide_mask]
  · first | rfl | (simp [Raw.sk] <;> omega) | simp [Raw.sk, h]
  · simp [Raw.b, Raw.c, Raw.vsrc, Raw.sk, Raw.disp, Raw.strK, Raw.strOut, Raw.strCore]

theorem F.syspark : F.Statement (.syspark) := by
  intro _
  refine F.core rfl rfl (.inl ⟨rfl, rfl⟩) (decodeRaw_ok _ _ _ _ (by simp) rfl rfl rfl ?_ ?_ ?_ ?_)
  · simp [reservedValue, Kind.valid, Raw.b, Raw.c, Raw.sk]
  · simp (disch := decide) [reservedBits, hiUsed, Raw.sk, wide_mask]
  · first | rfl | (simp [Raw.sk] <;> omega) | simp [Raw.sk, h]
  · simp [Raw.b, Raw.c, Raw.vsrc, Raw.sk, Raw.disp, Raw.strK, Raw.strOut, Raw.strCore]

theorem F.fwd : F.Statement (.fwd) := by
  refine F.sorterWord rfl rfl ?_
  unfold decodeSorter
  simp (disch := decide) only [sorter_op, sorter_kd, sorter_ka, sorter_low, sorter_cut]
  show (if _ then _ else _) = _
  have hm : Sys2Proof.sorterWord 33#6 0#4 0#4 (0#4 ++ 0#14) &&& 67108863#32 = 0#32 :=
    sorter_mask _ _ _ _ _ 15#4 15#4 262143#18 (by decide) (by simp) (by simp) (by rw [show 262143#18 = (15#4 ++ 16383#14 : BitVec 18) by decide, BitVec.and_append]; simp)
  exact if_pos (decide_eq_true hm)

theorem F.drop : F.Statement (.drop) := by
  refine F.sorterWord rfl rfl ?_
  unfold decodeSorter
  simp (disch := decide) only [sorter_op, sorter_kd, sorter_ka, sorter_low, sorter_cut]
  show (if _ then _ else _) = _
  have hm : Sys2Proof.sorterWord 34#6 0#4 0#4 (0#4 ++ 0#14) &&& 67108863#32 = 0#32 :=
    sorter_mask _ _ _ _ _ 15#4 15#4 262143#18 (by decide) (by simp) (by simp) (by rw [show 262143#18 = (15#4 ++ 16383#14 : BitVec 18) by decide, BitVec.and_append]; simp)
  exact if_pos (decide_eq_true hm)

theorem F.annulledPass : F.Statement (.annulledPass) := F.wordless _ rfl rfl

theorem F.interrupt : F.Statement (.interrupt) := F.wordless _ rfl rfl

theorem F.deferredEvent : F.Statement (.deferredEvent) := F.wordless _ rfl rfl

theorem F.streamElement : F.Statement (.streamElement) := F.wordless _ rfl rfl

theorem F.semaphoreStore : F.Statement (.semaphoreStore) := F.wordless _ rfl rfl

theorem F.copySector : F.Statement (.copySector) := F.wordless _ rfl rfl

theorem F.copyCompletion : F.Statement (.copyCompletion) := F.wordless _ rfl rfl

theorem F.mac : F.Statement (.mac) := F.wordless _ rfl rfl

theorem F.matrixMul : F.Statement (.matrixMul) := F.wordless _ rfl rfl

theorem F.fill : F.Statement (.fill) := F.wordless _ rfl rfl

theorem F.mark : F.Statement (.mark) := F.wordless _ rfl rfl

theorem F.matrixGate : F.Statement (.matrixGate) := F.wordless _ rfl rfl

theorem F.matrixComplete : F.Statement (.matrixComplete) := F.wordless _ rfl rfl

theorem F.flush : F.Statement (.flush) := F.wordless _ rfl rfl

theorem F.resume : F.Statement (.resume) := F.wordless _ rfl rfl

theorem F.countedWrite : F.Statement (.countedWrite) := F.wordless _ rfl rfl

theorem F.release : F.Statement (.release) := F.wordless _ rfl rfl

theorem F.outcomeRecordExpiry : F.Statement (.outcomeRecordExpiry) := F.wordless _ rfl rfl

theorem F.roundExpiry : F.Statement (.roundExpiry) := F.wordless _ rfl rfl

theorem F.senderRoundExpiry : F.Statement (.senderRoundExpiry) := F.wordless _ rfl rfl

theorem F.shortfallNotice : F.Statement (.shortfallNotice) := F.wordless _ rfl rfl

theorem F.receipt : F.Statement (.receipt) := F.wordless _ rfl rfl

theorem F.nackPacket : F.Statement (.nackPacket) := F.wordless _ rfl rfl

theorem F.readRequest : F.Statement (.readRequest) := F.wordless _ rfl rfl

theorem F.readReply : F.Statement (.readReply) := F.wordless _ rfl rfl

theorem F.rldRoundExpiry : F.Statement (.rldRoundExpiry) := F.wordless _ rfl rfl

theorem F.linkControl : F.Statement (.linkControl) := F.wordless _ rfl rfl

theorem F.bufferInterval : F.Statement (.bufferInterval) := F.wordless _ rfl rfl

theorem F.flitBeat : F.Statement (.flitBeat) := F.wordless _ rfl rfl

theorem F.messageLeavesSendBuffer : F.Statement (.messageLeavesSendBuffer) := F.wordless _ rfl rfl

theorem F.sorterPacket : F.Statement (.sorterPacket) := F.wordless _ rfl rfl

theorem F.load : F.Statement (.load) := F.wordless _ rfl rfl

theorem F.attach : F.Statement (.attach) := F.wordless _ rfl rfl

theorem F.detach : F.Statement (.detach) := F.wordless _ rfl rfl

theorem F.rearm : F.Statement (.rearm) := F.wordless _ rfl rfl

theorem F.state : F.Statement (.state) := F.wordless _ rfl rfl

theorem F.mixInterval : F.Statement (.mixInterval) := F.wordless _ rfl rfl

theorem F.perform : F.Statement (.perform) := F.wordless _ rfl rfl

theorem F.drain : F.Statement (.drain) := F.wordless _ rfl rfl

theorem F.widen : F.Statement (.widen) := F.wordless _ rfl rfl

theorem F.firingBegin : F.Statement (.firingBegin) := F.wordless _ rfl rfl

theorem F.launchPacket : F.Statement (.launchPacket) := F.wordless _ rfl rfl

theorem F.launchCompletion : F.Statement (.launchCompletion) := F.wordless _ rfl rfl

theorem F.energyInterval : F.Statement (.energyInterval) := F.wordless _ rfl rfl

theorem F.watchdog : F.Statement (.watchdog) := F.wordless _ rfl rfl

theorem F.quantumEnd : F.Statement (.quantumEnd) := F.wordless _ rfl rfl

theorem F.boundary : F.Statement (.boundary) := F.wordless _ rfl rfl

theorem F.preemptionRequest : F.Statement (.preemptionRequest) := F.wordless _ rfl rfl

theorem F.switchOut : F.Statement (.switchOut) := F.wordless _ rfl rfl

theorem F.restore : F.Statement (.restore) := F.wordless _ rfl rfl

theorem F.contextRemoval : F.Statement (.contextRemoval) := F.wordless _ rfl rfl

theorem F.pageWalk : F.Statement (.pageWalk) := F.wordless _ rfl rfl

theorem F.scrubVisit : F.Statement (.scrubVisit) := F.wordless _ rfl rfl

theorem F.unitFence : F.Statement (.unitFence) := F.wordless _ rfl rfl

theorem F.powerWindow : F.Statement (.powerWindow) := F.wordless _ rfl rfl

theorem F.thermalLimit : F.Statement (.thermalLimit) := F.wordless _ rfl rfl

theorem F.moduleReset : F.Statement (.moduleReset) := F.wordless _ rfl rfl

theorem F.evhead : F.Statement (.evhead) := F.wordless _ rfl rfl

theorem F.tail : F.Statement (.tail) := F.wordless _ rfl rfl

theorem F.plimit : F.Statement (.plimit) := F.wordless _ rfl rfl

theorem F.registerWrite : F.Statement (.registerWrite) := F.wordless _ rfl rfl

theorem F.ctxset : F.Statement (.ctxset) := F.wordless _ rfl rfl

theorem F.ctxremove : F.Statement (.ctxremove) := F.wordless _ rfl rfl

theorem F.sorter : F.Statement (.sorter) := F.wordless _ rfl rfl

theorem F.fabcfg : F.Statement (.fabcfg) := F.wordless _ rfl rfl

theorem F.serviceFence : F.Statement (.serviceFence) := F.wordless _ rfl rfl

theorem F.declare : F.Statement (.declare) := F.wordless _ rfl rfl

theorem F.railcal : F.Statement (.railcal) := F.wordless _ rfl rfl

theorem F.railReturn : F.Statement (.railReturn) := F.wordless _ rfl rfl

theorem F.fwstage : F.Statement (.fwstage) := F.wordless _ rfl rfl

theorem F.mode : F.Statement (.mode) := F.wordless _ rfl rfl

theorem F.errcnt : F.Statement (.errcnt) := F.wordless _ rfl rfl

theorem F.walkans : F.Statement (.walkans) := F.wordless _ rfl rfl

theorem F.fwact : F.Statement (.fwact) := F.wordless _ rfl rfl

theorem F.resend : F.Statement (.resend) := F.wordless _ rfl rfl

theorem F.getVersion : F.Statement (.getVersion) := F.wordless _ rfl rfl

theorem F.getCapabilities : F.Statement (.getCapabilities) := F.wordless _ rfl rfl

theorem F.negotiateAlgorithms : F.Statement (.negotiateAlgorithms) := F.wordless _ rfl rfl

theorem F.getDigests : F.Statement (.getDigests) := F.wordless _ rfl rfl

theorem F.getCertificate : F.Statement (.getCertificate) := F.wordless _ rfl rfl

theorem F.challenge : F.Statement (.challenge) := F.wordless _ rfl rfl

theorem F.getMeasurements : F.Statement (.getMeasurements) := F.wordless _ rfl rfl

theorem F.keyExchange : F.Statement (.keyExchange) := F.wordless _ rfl rfl

theorem F.finish : F.Statement (.finish) := F.wordless _ rfl rfl

theorem F.hostMemoryAccess : F.Statement (.hostMemoryAccess) := F.wordless _ rfl rfl

theorem F.failureDeclaration : F.Statement (.failureDeclaration) := F.wordless _ rfl rfl

end Sys2Proof.Laws
end

