-- ==== Sys2Proof/Tests/Slice0.lean ====
section
/-! SUPPORT. The model's own tests: ill-formed instructions, words written out from the spec's encodings, single steps with results
taken from the spec, and for each statement states and operands that meet its hypotheses. -/

namespace Sys2Proof.Tests

open Sys2Proof Sys2Proof.Machine

set_option Elab.async false

/-! ### Ill-formed instructions are refused -/

/-- Codes 39 to 63 name no scalar operand (R26). -/
theorem test_illformed_scalar : Instr.wellFormed (.add 39 0 0) = false ∧ Instr.wellFormed (.add 38 0 63) = false ∧
    Instr.wellFormed (.add 38 31 0) = true := by decide

/-- Codes 32 to 63 name no vector register (R28). -/
theorem test_illformed_vector : Instr.wellFormed (.vmin 32 0 (.reg 0)) = false ∧ Instr.wellFormed (.vmin 0 0 (.reg 32)) = false ∧
    Instr.wellFormed (.vmin 31 31 (.frag 63 15)) = true := by decide

/-- Field A of a Q instruction names q0 to q6 (R140). -/
theorem test_illformed_queue : Instr.wellFormed (.qlen 1 31) = false ∧ Instr.wellFormed (.qlen 1 39) = false ∧
    Instr.wellFormed (.qlen 1 38) = true := by decide

/-- A fragment source needs words (R224). -/
theorem test_illformed_fragment_size : Instr.wellFormed (.viadd 1 2 (.frag 0 0) 1) = false ∧
    Instr.wellFormed (.viadd 1 2 (.frag 0 0) 2) = true := by decide

/-- SCOPE 5 to 7 are reserved; a load has ORD plain or ACQ, a store plain or REL (R21, R131). -/
theorem test_illformed_scope_and_order : Instr.wellFormed (.ld 1 2 3 0 5 0) = false ∧ Instr.wellFormed (.ld 1 2 3 2 0 0) = false ∧
    Instr.wellFormed (.st 1 2 3 1 0 0) = false ∧ Instr.wellFormed (.fence 0 2) = false ∧ Instr.wellFormed (.ld 1 2 3 1 4 0) = true := by decide

/-- RM 7 is reserved, and RM 6 in FP32 arithmetic (R21, R227); NUL 3 is reserved (R21). -/
theorem test_illformed_rounding_and_nul : Instr.wellFormed (.vcvn 1 2 (.reg 3) 1 7) = false ∧ Instr.wellFormed (.vadd 1 2 (.reg 3) 6) = false ∧
    Instr.wellFormed (.vcvn 1 2 (.reg 3) 1 6) = true ∧ Instr.wellFormed (.beq 1 2 3 0) = false ∧ Instr.wellFormed (.beq 1 2 2 0) = true := by decide

/-- Sizes: LDS of doublewords, an atomic of halfwords, RLDADD of bytes, CREL of halfwords (R131, R134, R258, R261). -/
theorem test_illformed_sizes : Instr.wellFormed (.lds 1 2 3 0 0 0) = false ∧ Instr.wellFormed (.amoadd 1 2 3 1 0 0) = false ∧
    Instr.wellFormed (.rldadd 1 2 0 0) = false ∧ Instr.wellFormed (.crel 1 2 3 1 0) = false ∧ Instr.wellFormed (.rlds 1 2 3 0) = false := by decide

/-- EXT of a COPY: a reserved bit; SEMN without SEMEN; BAROFF without BAREN; a c field without a form that uses it (R160). EXT of a
CREL: a reserved bit (R261). -/
theorem test_illformed_ext : Instr.wellFormed (.copy 1 2 3 0 0 1) = false ∧ Instr.wellFormed (.copy 1 2 3 0 0 0x200000000) = false ∧
    Instr.wellFormed (.copy 1 2 3 0 0 0x20000) = false ∧ Instr.wellFormed (.copy 1 2 3 4 0 0) = false ∧
    Instr.wellFormed (.copy 1 2 3 0 0 0) = true ∧ Instr.wellFormed (.crel 1 2 3 3 1) = false := by decide

/-- Formats that no conversion names (R235). -/
theorem test_illformed_format : Instr.wellFormed (.vcvn 1 2 (.reg 3) 0 0) = false ∧ Instr.wellFormed (.vcvn 1 2 (.reg 3) 8 0) = false ∧
    Instr.wellFormed (.vcvw 1 2 14) = false ∧ Instr.wellFormed (.vcvw 1 2 13) = true := by decide

/-- Sorter fields: w4, header field 14 (R280, R284). -/
theorem test_illformed_sorter : Instr.wellFormed (.sldw 4 0) = false ∧ Instr.wellFormed (.hget 1 14) = false ∧
    Instr.wellFormed (.hget 1 13) = true := by decide

/-! ### Words written out from the spec's encodings (R17 to R30, R276) -/

/-- NOP in 8, 12 and 16 bytes: LEN 1, 2, 3 and major 0 (R17, R31). -/
theorem test_decode_nop : decodeWord 0x1#128 = .ok .nop ∧ decodeWord 0x2#128 = .ok .nop ∧ decodeWord 0x3#128 = .ok .nop ∧
    decodeWord 0x0#128 = .bad .lenZero := by decide

/-- ADD x3, x1, x2: LEN 1, major 1, D 3, A 1, B 2 (R110). -/
theorem test_decode_add :
    decodeWord ((1 + 1 * 2 ^ 2 + 3 * 2 ^ 15 + 1 * 2 ^ 21 + 2 * 2 ^ 39 : Nat) : BitVec 128) = .ok (.add 3 1 2) := by decide

/-- SHIL x1, x2, 63 (major 0x0C) and CMPILT x1, x2, −1 (major 0x0D, FN 2) (R111, R112). -/
theorem test_decode_immediates :
    decodeWord ((1 + 0x0C * 2 ^ 2 + 1 * 2 ^ 15 + 2 * 2 ^ 21 + 63 * 2 ^ 39 : Nat) : BitVec 128) = .ok (.shil 1 2 63) ∧
    decodeWord ((1 + 0x0D * 2 ^ 2 + 2 * 2 ^ 9 + 1 * 2 ^ 15 + 2 * 2 ^ 21 + (2 ^ 25 - 1) * 2 ^ 39 : Nat) : BitVec 128) = .ok (.cmpilt 1 2 (-1)) ∧
    decodeWord ((1 + 0x0C * 2 ^ 2 + 1 * 2 ^ 15 + 2 * 2 ^ 21 + 64 * 2 ^ 39 : Nat) : BitVec 128) = .bad .reservedBits := by decide

/-- LI x1, −1: LEN 2, major 0x0E, 32 bits of immediate above bit 64 (R114). -/
theorem test_decode_li : decodeWord ((2 + 0x0E * 2 ^ 2 + 1 * 2 ^ 15 + (2 ^ 32 - 1) * 2 ^ 64 : Nat) : BitVec 128) = .ok (.li 1 0xFFFFFFFF) := by decide

/-- DIVREM x5, x6, q0 (major 0x11, FN 2) and SEL x1, x2, x3, x4 (major 0x13) (R116, R118). -/
theorem test_decode_divrem_and_sel :
    decodeWord ((1 + 0x11 * 2 ^ 2 + 2 * 2 ^ 9 + 5 * 2 ^ 15 + 6 * 2 ^ 21 + 32 * 2 ^ 39 : Nat) : BitVec 128) = .ok (.divrem 5 6 32) ∧
    decodeWord ((1 + 0x13 * 2 ^ 2 + 1 * 2 ^ 15 + 2 * 2 ^ 21 + 3 * 2 ^ 39 + 4 * 2 ^ 45 : Nat) : BitVec 128) = .ok (.sel 1 2 3 4) := by decide

/-- BEQ.NT x1, x0 with a displacement of 16 words, as the binary search journey writes it, and NUL 3, which is reserved (R124). -/
theorem test_decode_branch : decodeWord 0x0002000008200061#128 = .ok (.beq 1 0 1 16) ∧
    decodeWord 0x0002000018200061#128 = .bad .reservedValue := by decide

/-- JL x1 with a displacement of −2 words: major 0x1A, FN 1 (R125). -/
theorem test_decode_jump :
    decodeWord ((1 + 0x1A * 2 ^ 2 + 1 * 2 ^ 9 + 1 * 2 ^ 15 + (2 ^ 25 - 2) * 2 ^ 39 : Nat) : BitVec 128) = .ok (.jl 1 0 (-2)) := by decide

/-- CREG with a displacement of 32 words, CEND, ERET: words of the spec's journeys (R366, R368). -/
theorem test_decode_region : decodeWord 0x0000100000000169#128 = .ok (.creg 32) ∧ decodeWord 0x16D#128 = .ok .cend ∧
    decodeWord 0x185#128 = .ok .eret := by decide

/-- SYSCALL 5; its code stays in the word (R106). -/
theorem test_decode_syscall : decodeWord 0x0000028000000189#128 = .ok .syscall := by decide

/-- SEMW of semaphore 3 by 2 (R147). -/
theorem test_decode_semw : decodeWord 0x00002180000000A9#128 = .ok (.semw 0x43) := by decide

/-- COPY of the quantised tile journey (R160). -/
theorem test_decode_copy : decodeWord 0x202051C80000000000000580214380E3#128 = .ok (.copy 7 10 11 0 1 0x202051C800000000#64) := by decide

/-- VCVNBF16.RNE v5, v5, ac3.0 (R235). -/
theorem test_decode_vcvn : decodeWord 0x8600000020A28515#128 = .ok (.vcvn 5 5 (.frag 3 0) 2 1) := by decide

/-- CREL.D x4, x5, x6 and RCPTW x9, 0 of the counted release journey (R261, R262). -/
theorem test_decode_release : decodeWord 0x0A000000400000000000036000A2014F#128 = .ok (.crel 4 5 6 3 0x0A00000040000000#64) ∧
    decodeWord 0x48151#128 = .ok (.rcptw 9 0) := by decide

/-- MIXSTEP x3, x10, x0; OHAND x7, x5, 0; MSEND x5, x6, x7; FEND; CHMASK 9 (R307, R331, R352, R354, R356). -/
theorem test_decode_other_families : decodeWord 0x1418961#128 = .ok (.mixstep 3 10 0) ∧ decodeWord 0xA38165#128 = .ok (.ohand 7 5 0) ∧
    decodeWord 0x0000E30000A000C1#128 = .ok (.msend 5 6 7) ∧ decodeWord 0xC5#128 = .ok .fend ∧
    decodeWord 0x00000480000000C9#128 = .ok (.chmask 9) := by decide

/-- Majors and functions that the opcode map leaves unassigned, and a reserved field C (R30, R32, R33). -/
theorem test_decode_refuses : decodeWord ((1 + 0x14 * 2 ^ 2 : Nat) : BitVec 128) = .bad .majorUnassigned ∧
    decodeWord ((1 + 0x12 * 2 ^ 2 + 3 * 2 ^ 9 : Nat) : BitVec 128) = .bad .functionUnassigned ∧
    decodeWord ((1 + 1 * 2 ^ 2 + 1 * 2 ^ 45 : Nat) : BitVec 128) = .bad .reservedBits ∧
    decodeWord ((1 + 1 * 2 ^ 2 + 39 * 2 ^ 15 : Nat) : BitVec 128) = .bad .reservedValue := by decide

/-- Sorter words of the multicast journey, and a word of an unassigned opcode (R276). -/
theorem test_decode_sorter : decodeSorter 0x75080000#32 = some (.gld 4 2) ∧ decodeSorter 0x38100003#32 = some (.sorterBeq 4 0 3) ∧
    decodeSorter 0x80080000#32 = some (.emitg 2) ∧ decodeSorter 0x84000000#32 = some .fwd ∧ decodeSorter 0x88000000#32 = some .drop ∧ decodeSorter 0x8C00000C#32 = some (.nack 12) ∧
    decodeSorter 0xFC000000#32 = none := by decide

/-! ### Small states -/

/-- The descriptor of the context of the tests: CTXID 1, counters 16 to 31, no mailboxes. -/
def benchContext : Context :=
  { ctxid := 1, cbase := 16, climit := 16, mbbase := 0, mblimit := 0, fclog2 := 4, root := 0, trapvec := 0x4000#64, savebase := 0
    fcbase := 0, gtbase := 0, sigbase := 0 }

/-- Cell 0 holds context 1; core `r` of it is `k`, and it is its turn. -/
def bench (r : Role) (k : Core) (x : CellCtx := {}) : State :=
  { contexts := [benchContext], cells := [(0, { resident := some 1, ctx := x.setCore r k })], cur := { core := ⟨0, r⟩ } }

/-- A core whose registers x1 and x2 hold two values, with its head at 0x100. -/
def two (a b : Word) : Core := { x := [(1, a), (2, b)], c0 := 0x100, s1 := true, s2 := true }

/-- What an instruction leaves in register n, or none where it answers no next state. -/
def xAfter (i : Instr) (s : State) (n : Nat) : Option Word :=
  match exec i s with
  | .next t => some (t.me.xr n)
  | _ => none

/-- The bench with a leaf cached for one page of translated addresses, at 0x1000000000. -/
def benchPage (r : Role) (k : Core) (leaf : Word) : State :=
  { bench r k with tlb := [{ cluster := 0, ctx := 1, page := 0x1000000, leaf := leaf, level := 4 }] }

/-- A property of the next state; false where there is none. -/
def after (i : Instr) (s : State) (p : State → Bool) : Bool :=
  match exec i s with
  | .next t => p t
  | _ => false

/-- A core with one outstanding load of a word into x5. -/
def loading : State :=
  { bench .a { loads := [{ id := 0, addr := cellKey 0 0x10, size := 4, signed := true, dst := some (.x 5), ea := 0x10, acquire := false }]
               pending := [{ reg := .x 5, source := .load }] } with
    args := { core := ⟨0, .a⟩ }, mem := [(cellKey 0 0x10, 0x01), (cellKey 0 0x13, 0x80)] }

/-- A core with one store of memory in its buffer, and one with a fence. -/
def storing (target : StoreTarget) : State :=
  { bench .a { stores := [{ id := 0, target := target, sector := sectorOf (cellKey 0 0x1000), release := none, after := [], owned := none
                            quad := false }] } with args := { core := ⟨0, .a⟩ } }

/-- The place that an access finds, if its checks find one. -/
def placed (e : Except Out Place) : Option Place :=
  match e with
  | .ok p => some p
  | .error _ => none

/-- A descriptor of one row of 64 bytes in the own scratchpad: FMT 11 (U8), SPACE 1, RANK 1 (R155). -/
def rowDesc (base : Nat) : Vec := BitVec.ofNat 512 (base + (11 + 1 * 2 ^ 5 + 1 * 2 ^ 8) * 2 ^ 64 + 64 * 2 ^ 128)

/-- EXT of a COPY from identifier 1 to identifier 2, both SPAD, with transform `xf`, and the barrier at offset 16 where `bar` says so. -/
def rowExt (xf : Nat) (bar : Bool) : BitVec 64 :=
  BitVec.ofNat 64 (2 ^ 61 + 2 ^ 58 + 2 * 2 ^ 52 + 1 * 2 ^ 46 + xf * 2 ^ 43 + if bar then 2 ^ 32 + 2 ^ 17 else 0)

/-- A cell with the two identifiers. -/
def copying : State := bench .a (two 0 0) { tids := [(1, rowDesc 0x2000), (2, rowDesc 0x1000)] }

/-- A copy in flight with one sector to serve. -/
def inFlight (todo : List Nat) : Copy :=
  { id := 7, ctx := 1, cell := 0, dst := rowDesc 0x1000, src := rowDesc 0x2000, dorg := 0, sorg := 0, xf := 0, mode := 1, seed := 0, key := 0
    index := [], pages := [], todo := todo, snapshot := none, flags := 0x10, slack := 3, issue := 0, sem := some 3, bar := none, unit := false
    lid := 0, quantum := 0, after := [], tiles := [], writes := [] }

/-! ### Scalar instructions -/

/-- Addition wraps at 64 bits; the saturating forms stop at the ends of their range (R110). -/
theorem test_add_wraps_and_saturates : xAfter (.add 3 1 2) (bench .a (two 0xFFFFFFFFFFFFFFFF 2)) 3 = some 1 ∧
    xAfter (.adds 3 1 2) (bench .a (two 0x7FFFFFFFFFFFFFFF 1)) 3 = some 0x7FFFFFFFFFFFFFFF ∧
    xAfter (.addus 3 1 2) (bench .a (two 0xFFFFFFFFFFFFFFFF 2)) 3 = some 0xFFFFFFFFFFFFFFFF ∧
    xAfter (.subus 3 1 2) (bench .a (two 1 2)) 3 = some 0 ∧
    xAfter (.subs 3 1 2) (bench .a (two 0x8000000000000000 1)) 3 = some 0x8000000000000000 := by decide

/-- A register shift takes all 64 bits of its amount: 64 shifts everything out, and SHA then gives the sign (R111). -/
theorem test_shift_by_64 : xAfter (.shl 3 1 2) (bench .a (two 1 64)) 3 = some 0 ∧
    xAfter (.sha 3 1 2) (bench .a (two 0x8000000000000000 64)) 3 = some 0xFFFFFFFFFFFFFFFF ∧
    xAfter (.shia 3 1 63) (bench .a (two 0x8000000000000000 0)) 3 = some 0xFFFFFFFFFFFFFFFF := by decide

/-- Signed and unsigned comparison of −1 with 1 (R112). -/
theorem test_compare_signs : xAfter (.cmplt 3 1 2) (bench .a (two 0xFFFFFFFFFFFFFFFF 1)) 3 = some 1 ∧
    xAfter (.cmpltu 3 1 2) (bench .a (two 0xFFFFFFFFFFFFFFFF 1)) 3 = some 0 ∧
    xAfter (.cmpilt 3 1 0x1FFFFFF) (bench .a (two 0xFFFFFFFFFFFFFFFE 0)) 3 = some 1 := by decide

/-- The division corners of R116. -/
theorem test_division_corners : xAfter (.div 3 1 2) (bench .a (two 7 0)) 3 = some 0xFFFFFFFFFFFFFFFF ∧
    xAfter (.div 3 1 2) (bench .a (two 0x8000000000000000 0xFFFFFFFFFFFFFFFF)) 3 = some 0x8000000000000000 ∧
    xAfter (.divrem 3 1 2) (bench .a (two 0x8000000000000000 0xFFFFFFFFFFFFFFFF)) 3 = some 0 ∧
    xAfter (.divrem 3 1 2) (bench .a (two 0xFFFFFFFFFFFFFFF9 2)) 3 = some 0xFFFFFFFFFFFFFFFF ∧
    xAfter (.divremu 3 1 2) (bench .a (two 7 0)) 3 = some 7 := by decide

/-- The high half of −1 × −1, signed and unsigned (R115). -/
theorem test_multiply_high : xAfter (.mulh 3 1 2) (bench .a (two 0xFFFFFFFFFFFFFFFF 0xFFFFFFFFFFFFFFFF)) 3 = some 0 ∧
    xAfter (.mulhu 3 1 2) (bench .a (two 0xFFFFFFFFFFFFFFFF 0xFFFFFFFFFFFFFFFF)) 3 = some 0xFFFFFFFFFFFFFFFE := by decide

/-- Bit counts of zero and of 2^63 (R117). -/
theorem test_bit_counts : xAfter (.bitclz 3 1) (bench .a (two 0 0)) 3 = some 64 ∧ xAfter (.bitctz 3 1) (bench .a (two 0 0)) 3 = some 64 ∧
    xAfter (.bitctz 3 1) (bench .a (two 0x8000000000000000 0)) 3 = some 63 ∧
    xAfter (.bitcnt 3 1) (bench .a (two 0xF00000000000000F 0)) 3 = some 8 := by decide

/-- x0 discards what is written to it (R26). -/
theorem test_x0_reads_zero : xAfter (.add 0 1 2) (bench .a (two 3 4)) 0 = some 0 := by decide

/-- The A-core pops q2 twice in field order, and pushes q0 (R27, R137). -/
theorem test_queue_pops_in_order :
    after (.sub 32 34 34) (bench .a {} { queues := [(2, [⟨9, []⟩, ⟨4, []⟩, ⟨7, []⟩])] }) (fun t =>
      decide (t.queue 2 = [⟨7, []⟩]) && decide ((t.queue 0).map (·.value) = [5])) = true := by decide

/-- A taken branch puts its target behind the two delay slots; NUL 1 annuls them only where it is not taken (R122, R124). -/
theorem test_branch_delay_slots :
    after (.beq 1 2 1 16) (bench .a { two 5 5 with c1 := 0x108, c2 := 0x110, s1 := false, s2 := false }) (fun t =>
      decide (t.me.c0 = 0x108) && decide (t.me.c1 = 0x110) && decide (t.me.c2 = 0x140) && !t.me.n0 && !t.me.n1) = true ∧
    after (.bne 1 2 1 16) (bench .a { two 5 5 with c1 := 0x108, c2 := 0x110, s1 := false, s2 := false }) (fun t =>
      decide (t.me.c2 = 0) && t.me.s2 && t.me.n0 && t.me.n1 && !t.me.n2) = true := by decide

/-- JL writes the address after its second slot, which is the word of 12 bytes at 0x110 (R126). -/
theorem test_jump_link :
    after (.jl 1 0 (-2)) { bench .a { two 5 5 with c1 := 0x108, c2 := 0x110, s1 := false, s2 := false } with
      mem := [(cellKey 0 0x110, 2)] } (fun t => decide (t.me.xr 1 = 0x11C) && decide (t.me.c2 = 0xF8)) = true := by decide

/-- Ready operands: registers; two pops of one queue and a push; no operand at all; three sources. -/
theorem test_witness_scalar : Ready (bench .a (two 3 4)) [1, 2] (some 3) ∧ Ready (bench .a (two 3 4)) [1] (some 3) ∧
    Ready (bench .a (two 3 4)) [] (some 0) ∧ Ready (bench .a (two 3 4)) [1, 2, 31] (some 3) ∧
    Ready (bench .a {} { queues := [(2, [⟨9, []⟩, ⟨4, []⟩]), (0, List.replicate 7 ⟨0, []⟩)] }) [34, 34] (some 32) := by
  unfold Ready; decide

/-- R116's dividend and divisor at the ends of their ranges. -/
theorem test_witness_division : (1 : Word) ≠ 0 ∧ wrap (-1) ≠ 0 := by decide

/-- Wrong queue ends in each field, and right ones that wait (R26, R137). -/
theorem test_witness_queue_misuse : badSource Role.a 32 = true ∧ (badSource Role.a 34 = false ∧ badSource Role.a 38 = true) ∧
    (badSource Role.a 34 = false ∧ badSource Role.a 31 = false ∧ badDest Role.a 38 = true) ∧
    (badQueue Role.a [34, 1] (some 32) = none ∧ (bench .a {}).scalarReady [34, 1] (some 32) = false) := by decide

/-- A branch, JR and JL of ready operands, with C2 resolved and not, and slot words of each length. -/
theorem test_witness_jumps :
    Ready (bench .a (two 3 4)) [1, 2] none ∧ Ready (bench .a (two 3 4)) [1] none ∧ Ready (bench .a (two 3 4)) [1] (some 0) ∧
    (Ready (bench .a (two 3 4)) [1] (some 5) ∧ (bench .a (two 3 4)).me.s2 = true ∧ (bench .a (two 3 4)).fetch ⟨0, .a⟩ 0x800000 = .trap 1) ∧
    ((bench .a (two 3 4)).fetch ⟨0, .a⟩ 0x108 = .word 0 ∧ wordLen 0 = 0) ∧
    ({ bench .a (two 3 4) with mem := [(cellKey 0 0x108, 3)] }.fetch ⟨0, .a⟩ 0x108 = .word 3 ∧ wordLen 3 = 16) := by
  unfold Ready; decide

/-- Control registers: an unassigned number, a read-only one, one of trap mode outside it and in it, one on a supervisor core; and values of
QUANT at the ends of R338. -/
theorem test_witness_control_registers :
    (badQueue Role.a [1] (some 2) = none ∧ badQueue Role.a [] (some 2) = none ∧ badQueue Role.a [1] none = none) ∧
    ((0x004#12).toNat ∉ [0x001, 0x002, 0x003, 0x010, 0x011, 0x012, 0x013, 0x020, 0x021, 0x022, 0x040, 0x041, 0x042, 0x043, 0x044, 0x045, 0x046, 0x080]) ∧
    (bench .a {}).me.trapMode = false ∧ (bench .a { tstat := 1#64 }).me.trapMode = true ∧ (bench .s {}).cur.core.role = .s ∧
    quantOk 0x10001000#64 = true ∧ quantOk 0x10000FFF#64 = false ∧ quantOk 0x10100000#64 = true ∧ quantOk 0x10100001#64 = false ∧
    quantOk 0x1000#64 = false ∧ quantOk 0x0#64 = true ∧ quantOk 0x200000#64 = false := by decide

/-- CSSET of FCSR keeps only its bits and answers the old value; a write of a read-only register traps (R106, R107). -/
theorem test_csr_set : after (.csset 3 1 1) (bench .a { two 0xFFFFFFFFFFFFFFFF 0 with fcsr := 0x100 }) (fun t =>
      decide (t.me.fcsr = 0xF1F00) && decide (t.me.xr 3 = 0x100)) = true ∧
    after (.cswr 1 0x022) (bench .a (two 0 0)) (fun t => decide (t.me.tcause = 2) && t.me.trapMode && decide (t.me.c0 = 0x4000)) = true := by decide

/-- A value of QUANT that is not legal traps with cause 46; in trap mode, where QUANT is written, that is a fatal fault of the context (R338,
R371). -/
theorem test_quant_traps : after (.cswr 1 0x011) (bench .a { two 0x10000FFF 0 with tstat := 1#64 }) (fun t =>
      t.isDying 1 && t.me.halted && decide (t.me.quant = 0)) = true ∧
    after (.cswr 1 0x011) (bench .a { two 0x10001000 0 with tstat := 1#64 }) (fun t => decide (t.me.quant = 0x10001000)) = true := by decide

/-! ### Loads, stores, atomics and fences -/

/-- Accesses that each check of R130 stops, at the ends of their ranges, and one that each lets pass. -/
theorem test_witness_access_checks :
    (Ready (bench .a (two 3 4)) [1] (some 3) ∧ effAddr ((bench .a (two 3 4)).sval [] 1) 0 % 8 ≠ 0) ∧
    (Ready (bench .a (two 0x60000 4)) [1] (some 3) ∧ effAddr ((bench .a (two 0x60000 4)).sval [] 1) 0 % 8 = 0 ∧
      effAddr ((bench .a (two 0x60000 4)).sval [] 1) 0 = 0x60000) ∧
    (effAddr ((bench .a (two 0x60000 4)).sval [] 1) 0xAFFF8 = 0x10FFF8 ∧ controlLoadOk 0xFFF8 8 = false) ∧
    controlStoreOk .a 0x58 8 = false ∧
    (bench .a {}).granted 1023 1 0xFFFF8 8 .load true = false ∧
    (bench .a {}).transFor ⟨0, .a⟩ 1 0x1000000000 = .miss ∧
    { bench .a {} with failedWalks := [(⟨0, .a⟩, 1, 0x1000000)] }.transFor ⟨0, .a⟩ 1 0x1000000000 = .fail ∧
    ((benchPage .a {} 1).transFor ⟨0, .a⟩ 1 0x1000000FFF = .leaf 1 4 ∧ leafGrants 1 .load = false) ∧
    (leafGrants 0x200000000000007#64 .atomic = true ∧ pteSpc 0x200000000000007#64 = 2) ∧
    ((benchPage .a {} 7).keyOut (leafKey 7 4 0x1000000000) = false ∧
      ({ benchPage .a {} 7 with service := { fenced := [(3, 0)] } } : State).keyOut (leafKey 7 4 0x1000000000) = true) := by
  unfold Ready; decide

/-- An owned page that another core has written, one that another core holds, and a poisoned sector under an access. -/
theorem test_witness_ownership_and_poison :
    (benchPage .a (two 0x1000000000 4) 0x207).place .load 0x1000000000 8 (fun off => controlLoadOk off 8) = .ok (.page 0x207 4 0) ∧
    (Place.page 0x207 4 0).owned = some 0 ∧
    ((({ benchPage .a {} 0x207 with own := [(0, { holder := some (1, 0x400), written := true })] } : State).ownOf 0).holder ≠ some (1, 0)) ∧
    ({ benchPage .a {} 0x207 with own := [(0, { holder := some (1, 0x400) })] } : State).storeRace (.page 0x207 4 0) = true ∧
    (bench .a (two 0x5FFF8 4)).place .store 0x5FFF8 8 (fun off => controlStoreOk .a off 8) = .ok (.spad (cellKey 0 0x5FFF8)) ∧
    (quarterOf (cellKey 0 0x5FFC0) / 4 = sectorOf (cellKey 0 0x5FFF8) ∧
      ({ bench .a {} with poison := [quarterOf (cellKey 0 0x5FFC0)] } : State).quarterBad (.cell 0) (quarterOf (cellKey 0 0x5FFC0)) = true ∧
      bufferedQuad (bench .a {}).me.stores (bench .a {}).fresh (quarterOf (cellKey 0 0x5FFC0)) = false) ∧
    (bench .a {}).loadRace (.spad 0) = false ∧ (bench .a {}).storeRace (.spad 0) = false := by
  refine ⟨rfl, rfl, by decide, by decide, rfl, by decide, rfl, rfl⟩

/-- A store of one's own that fills the poisoned quarter hides the poison from one's own load (R100, R320). -/
theorem test_own_store_hides_poison :
    let q := quarterOf (cellKey 0 0x1000)
    let s : State := { bench .a (two 0x1000 4) with poison := [q] }
    let e : StoreEntry := { id := 0, target := .mem (cellsFrom (cellKey 0 0x1000) (List.replicate 16 0)), sector := sectorOf (cellKey 0 0x1000)
                            release := none, after := [], owned := none, quad := true }
    after (.ld 3 1 3 0 0 0) s (fun t => t.me.halted) = true ∧
    after (.ld 3 1 3 0 0 0) ({ s.updMe (fun k => { k with stores := [e] }) with fresh := 1 }) (fun t => decide (t.me.retired = 1)) = true := by
  decide

/-- A load of plain memory, one into a queue, one of the control page, and one of an owned page. -/
theorem test_witness_loads :
    (Ready (bench .a (two 0x1000 4)) [1] (some 3) ∧
      (bench .a (two 0x1000 4)).place .load 0x1000 1 (fun off => controlLoadOk off 1) = .ok (.spad (cellKey 0 0x1000)) ∧
      (bench .a (two 0x1000 4)).poisonHere (cellKey 0 0x1000) = false ∧ (bench .a (two 0x1000 4)).loadRace (.spad (cellKey 0 0x1000)) = false) ∧
    (Ready (bench .a (two 0x1000 4)) [1] (some 32) ∧ isQueue 32 = true ∧ (bench .a (two 0x1000 4)).me.mayPerform 0 (sectorOf (cellKey 0 0x1000)) = true) ∧
    ((bench .a (two 0x100040 4)).place .load 0x100040 8 (fun off => controlLoadOk off 8) = .ok (.control 0x40) ∧
      (bench .a (two 0x100040 4)).me.controlPending 0x40 = false ∧ (bench .a (two 0x100040 4)).me.mayPerform 0 (controlSector 0x40) = true ∧
      (storing (.control 0x40 0)).me.controlPending 0x40 = true) ∧
    (Place.page 0x207 4 0).owned ≠ none := by
  unfold Ready; refine ⟨⟨by decide, rfl, rfl, rfl⟩, ⟨by decide, by decide, by decide⟩, ⟨rfl, rfl, rfl, by decide⟩, by decide⟩

/-- An outstanding load that may take its value, and the same on a sector that has become poisoned. -/
theorem test_witness_perform : (loading.coreOf ⟨0, .a⟩).loads[0]? =
      some { id := 0, addr := cellKey 0 0x10, size := 4, signed := true, dst := some (.x 5), ea := 0x10, acquire := false } ∧
    (loading.coreOf ⟨0, .a⟩).mayPerform 0 (sectorOf (cellKey 0 0x10)) = true ∧ loading.consumes ⟨0, .a⟩ 0 (sectorOf (cellKey 0 0x10)) = false ∧
    ({ loading with poison := [quarterOf (cellKey 0 0x10)] } : State).consumes ⟨0, .a⟩ 0 (sectorOf (cellKey 0 0x10)) = true ∧
    ((loading.coreOf ⟨0, .a⟩).loads[0]?.map (·.rest)).getD [] ≠ [] := by decide

/-- PERFORM writes the little-endian word, sign-extended, and the register waits no more (R3, R131). -/
theorem test_perform_sign_extends : after .perform loading (fun t =>
    decide ((t.coreOf ⟨0, .a⟩).xr 5 = 0xFFFFFFFF80000001) && (t.coreOf ⟨0, .a⟩).pending.isEmpty && (t.coreOf ⟨0, .a⟩).loads.isEmpty) = true := by
  decide

/-- A store of memory, a store that another core's holding of the page would stop, a store to CTL of a legal and of an illegal value, and a
member's store to a semaphore. -/
theorem test_witness_stores :
    (Ready (bench .a (two 0x1000 4)) [1, 2] none ∧
      (bench .a (two 0x1000 4)).place .store 0x1000 8 (fun off => controlStoreOk .a off 8) = .ok (.spad (cellKey 0 0x1000)) ∧
      (bench .a (two 0x1000 4)).storeRace (.spad (cellKey 0 0x1000)) = false ∧ (bench .a {}).poisonHere (cellKey 0 0x1000) = false) ∧
    ((bench .a (two 0x101000 4)).place .store 0x101000 8 (fun off => controlStoreOk .a off 8) = .ok (.control 0x1000) ∧
      controlValueOk 0x1000 0xFF = true ∧ controlValueOk 0x1000 0x100 = false ∧ (bench .a {}).inGroup = false ∧
      (bench .a { member := { active := true } }).inGroup = true) ∧
    (∃ t, exec (.st 2 1 3 0 0 0) (bench .a (two 0x1000 4)) = .next t) := by
  unfold Ready; exact ⟨⟨by decide, rfl, rfl, rfl⟩, ⟨rfl, by decide, by decide, by decide, by decide⟩, ⟨_, rfl⟩⟩

/-- A store retires into the buffer: the byte in memory stays, and the core reads what it stored (R320, R321). -/
theorem test_store_forwards : after (.st 2 1 3 0 0 0) (bench .a (two 0x1000 0x1122334455667788)) (fun t =>
    decide (t.byteLast (cellKey 0 0x1000) = 0) && decide (t.me.stores.length = 1) &&
      decide (t.loadBytes ⟨0, .a⟩ 9 (span (cellKey 0 0x1000) 2) = [0x88, 0x77])) = true := by decide

/-- A store and a fence that may leave the buffer. -/
theorem test_witness_drain : (storing (.mem [(cellKey 0 0x1000, 5)])).mayDrain ⟨0, .a⟩ 0
      { id := 0, target := .mem [(cellKey 0 0x1000, 5)], sector := sectorOf (cellKey 0 0x1000), release := none, after := [], owned := none
        quad := false } = true ∧
    (storing .fence).mayDrain ⟨0, .a⟩ 0 { id := 0, target := .fence, sector := sectorOf (cellKey 0 0x1000), release := none, after := []
                                          owned := none, quad := false } = true ∧
    MemoryOk (storing .fence) ∧ MemoryOk (storing (.mem [(cellKey 0 0x1000, 5)])) := by unfold MemoryOk; decide

/-- DRAIN makes the byte visible in the own cell and in no other (R318, R321). -/
theorem test_drain_at_cell_scope : after .drain (storing (.mem [(cellKey 0 0x1000, 5)])) (fun t =>
    decide (t.byteFor (.cell 0) (cellKey 0 0x1000) = 5) && decide (t.byteFor (.cell 1) (cellKey 0 0x1000) = 0) &&
      (t.coreOf ⟨0, .a⟩).stores.isEmpty) = true := by decide

/-- A write one scope below its widest, and one further below. -/
theorem test_witness_widen :
    let w : Write := { id := 0, data := [(cellKey 0 0, 1)], cell := 0, owner := .core ⟨0, .a⟩, scope := 1, top := 2 }
    let s : State := { bench .a {} with writes := [w] }
    MemoryOk s ∧ s.writes[s.args.index]? = some w ∧ w.scope + 1 = w.top ∧
      MemoryOk { s with writes := [{ w with scope := 0 }] } ∧ 0 + 1 < w.top := by unfold MemoryOk; decide

/-- Atomics of a word and of a doubleword that act, with and without a release, a failing AMOCAS, and a collected one. -/
theorem test_witness_atomics : MemoryOk (bench .a (two 0x1000 4)) ∧ Ready (bench .a (two 0x1000 4)) [1, 2] (some 3) ∧ Ready (bench .a (two 0x1000 4)) [1, 2, 3] (some 3) ∧
    (bench .a (two 0x1000 4)).place .atomic 0x1000 4 (fun _ => false) = .ok (.spad (cellKey 0 0x1000)) ∧
    (bench .a (two 0x1000 4)).storeRace (.spad (cellKey 0 0x1000)) = false ∧ (bench .a {}).poisonedLast (sectorOf (cellKey 0 0x1000)) = false ∧
    (bench .a {}).poisonHere (cellKey 0 0x1000) = false ∧
    ({ bench .a {} with poison := [quarterOf (cellKey 0 0x1030)] } : State).poisonedLast (sectorOf (cellKey 0 0x1000)) = true ∧
    (bench .a {}).allSettled 4 = true ∧ (∀ e ∈ (bench .a {}).me.stores, e.target ≠ .fence ∧ e.sector ≠ 0) ∧
    (({ benchPage .a { member := { active := true } } 0x107 with args := {} } : State).inGroup = true ∧ pteD 0x107 = true) := by
  unfold Ready MemoryOk; refine ⟨by decide, by decide, by decide, rfl, rfl, rfl, rfl, by decide, by decide, by decide, by decide⟩

/-- An atomic behind a FENCE.REL that still waits (R136). -/
def behindFence : State :=
  bench .a { two 0x1000 4 with
    stores := [{ id := 0, target := .fence, sector := 2 ^ 61, release := some 2, after := [], owned := none, quad := false }] }

/-- It meets the hypotheses of an atomic that waits, and it waits. -/
theorem test_witness_atomic_waits : MemoryOk behindFence ∧ Ready behindFence [1, 2] (some 3) ∧
    behindFence.place .atomic 0x1000 4 (fun _ => false) = .ok (.spad (cellKey 0 0x1000)) ∧
    behindFence.storeRace (.spad (cellKey 0 0x1000)) = false ∧ behindFence.inGroup = false ∧
    (∃ e ∈ behindFence.me.stores, e.target = .fence) ∧
    exec (.amoadd 3 1 2 2 0 0) behindFence = .next behindFence := by
  unfold Ready MemoryOk; refine ⟨by decide, by decide, rfl, rfl, rfl, by decide, rfl⟩

/-- AMOADD of a word answers the old word sign-extended and wraps at 32 bits (R134). -/
theorem test_amoadd_word : after (.amoadd 3 1 2 2 0 0) { bench .a (two 0x1000 1) with
      mem := [(cellKey 0 0x1000, 0xFF), (cellKey 0 0x1001, 0xFF), (cellKey 0 0x1002, 0xFF), (cellKey 0 0x1003, 0xFF)] } (fun t =>
    decide (t.me.xr 3 = 0xFFFFFFFFFFFFFFFF) && decide (t.natLast (cellKey 0 0x1000) 5 = 0)) = true := by decide

/-- A fence with and without a load outstanding. -/
theorem test_witness_fences : (2#2).getLsbD 0 = false ∧ (3#2).getLsbD 0 = true ∧ loading.me.loads ≠ [] ∧ (bench .a {}).me.loads = [] ∧
    (1#2).getLsbD 1 = false ∧ (2#2).getLsbD 1 = true := by decide


/-- An LD64 that reads its parts one by one: its third 16 bytes are read before a store to them, the others after (R133). -/
def loading64 : State :=
  { bench .c { loads := [{ id := 0, addr := cellKey 0 0x40, size := 64, signed := false, dst := some (.v 2), ea := 0x40, acquire := false }]
               pending := [{ reg := .v 2, source := .load }] } with
    args := { core := ⟨0, .c⟩, flag := true, slot := 2 }, mem := [(cellKey 0 0x60, 7)] }

theorem test_witness_perform_part : (loading64.coreOf ⟨0, .c⟩).loads[0]?.map (fun l => decide (l.size = 64) && l.got.isEmpty &&
      (loading64.coreOf ⟨0, .c⟩).mayPerform l.id (sectorOf l.addr)) = some true ∧
    loading64.consumes ⟨0, .c⟩ 0 (sectorOf (cellKey 0 0x40)) = false := by decide

theorem test_load64_tears : after .perform loading64 (fun t =>
    after .perform { t with mem := [], args := { core := ⟨0, .c⟩ } } (fun u =>
      decide ((u.coreOf ⟨0, .c⟩).vr 2 = (7 : Vec) <<< 256) && (u.coreOf ⟨0, .c⟩).loads.isEmpty)) = true := by decide +kernel
/-! ### Queues, streams, semaphores, barriers -/

/-- Both ends of a queue and neither; a head that may be popped and none; registers ready. -/
theorem test_witness_queue_inspection : queuePopper 2 = .a ∧ queuePusher 0 = .a ∧ ¬ (queuePopper 6 = Role.a ∨ queuePusher 6 = Role.a) ∧
    Ready (bench .a {}) [] (some 3) ∧ ((bench .a {} { queues := [(2, [⟨9, []⟩])] }).queue 2).head? = some ⟨9, []⟩ ∧
    (bench .a {} { queues := [(2, [⟨9, []⟩])] }).poppable 2 1 = true ∧ (bench .a {}).poppable 2 1 = false := by
  unfold Ready; decide

/-- QPEEK leaves the head; QROOM of a full queue (R140). -/
theorem test_queue_inspection : xAfter (.qpeek 3 34) (bench .a {} { queues := [(2, [⟨9, []⟩])] }) 3 = some 9 ∧
    xAfter (.qroom 3 32) (bench .a {} { queues := [(0, List.replicate 8 ⟨0, []⟩)] }) 3 = some 0 := by decide

/-- STRGO: an idle stream and a busy one, a count of zero, a base off its alignment, and the last element inside and the first outside the
scratchpad. -/
theorem test_witness_streams_start : Ready (bench .a (two 0x5FF80 0)) [1] none ∧ ((bench .a {}).stream 0).mode = 0 ∧
    ((bench .a {} { streams := [(3, { mode := 1 })] }).stream 3).mode ≠ 0 ∧
    ((0x0000000100010002#64).extractLsb' 0 16).toNat = 2 ∧ ((0x0000000100010002#64).extractLsb' 32 16).toNat = 1 ∧
    ((0x0000000000010002#64).extractLsb' 32 16).toNat = 0 ∧ (0x5FF80 : Nat) % 64 = 0 ∧ (0x5FF81 : Nat) % 64 ≠ 0 ∧
    ¬ ((0x5FF80 : Int) + 64 * 1 < 0 ∨ 0x5FFC0 < (0x5FF80 : Int) + 64 * 1) ∧ (0x5FFC0 < (0x5FFC0 : Int) + 64 * 1) := by
  unfold Ready; decide

/-- STRGO of the last two elements of the scratchpad runs; one element further traps with the address of the element outside (R143). -/
theorem test_strgo_bounds : after (.strgo 1 0 false false 0x0000000100010002) (bench .a (two 0x5FF80 0)) (fun t => decide ((t.stream 0).mode = 1)) = true ∧
    after (.strgo 1 0 false false 0x0000000100010002) (bench .a (two 0x5FFC0 0)) (fun t =>
      decide (t.me.tcause = 33) && decide (t.me.tval = 0x60000)) = true := by decide

/-- Streams that are idle, running, done, written and unwritten; and operands of STRCNT. -/
theorem test_witness_streams_end : ((bench .a {}).stream 1).mode = 0 ∧ ((bench .a {} { streams := [(1, { mode := 2, out := true })] }).stream 1).mode = 2 ∧
    ((bench .a {} { streams := [(1, { mode := 2, out := true })] }).stream 1).port = [] ∧
    ¬ (({ mode := 1, out := true, port := [none] } : Stream).out = false ∨ ({ mode := 1, out := true, port := [none] } : Stream).port = []) ∧
    Ready (bench .a {}) [] (some 3) := by unfold Ready; decide

/-- A cell with an IN stream before its last element, and with an OUT stream that holds one element. -/
def streaming (x : Stream) : State := { bench .a {} { streams := [(1, x)] } with args := { cell := 0, slot := 1 }, mem := [(cellKey 0 0x40, 7)] }

/-- An element to read with room for it, an element to write, and nothing to do. -/
theorem test_witness_stream_elements :
    (let x : Stream := { mode := 1, base := 0, cnt0 := 2, cnt1 := 1, stride0 := 1, moved := 1, passed := 0, port := List.replicate 3 none }
     (tget ((streaming x).ctxOf 0).streams {} 1) = x ∧ x.moved < x.cnt0 * x.cnt1 ∧ x.port.length < 4 ∧
       (streaming x).settled ⟨0, .a⟩ x.after 0 = true ∧ (streaming x).torn 0 (sectorOf (cellKey 0 0x40)) = false) ∧
    (let x : Stream := { mode := 1, out := true, base := 0, cnt0 := 2, cnt1 := 1, stride0 := 1, port := [some 5] }
     MemoryOk (streaming x) ∧ x.port = some 5 :: [] ∧ cellKey 0 (x.elem x.moved).toNat % 64 = 0) ∧
    ({ streaming { mode := 1 } with
        writes := [{ id := 1, data := [], cell := 1, owner := .core ⟨1, .x⟩, scope := 0, top := 4, quad := some (sectorOf (cellKey 0 0x40)) }] } : State).torn 0
          (sectorOf (cellKey 0 0x40)) = true ∧
    (let x : Stream := { mode := 1, port := List.replicate 4 none }
     x.out = false ∧ 4 ≤ x.port.length) := by unfold MemoryOk; decide +kernel

/-- The element at the stream's second address is read into the port buffer (R144, R145). -/
theorem test_stream_reads : after .streamElement (streaming { mode := 1, base := 0, cnt0 := 2, cnt1 := 1, stride0 := 1, moved := 1 }) (fun t =>
    decide ((t.stream 1).port = [some 7]) && decide ((t.stream 1).moved = 2)) = true := by decide +kernel

/-- Semaphores: amounts of zero and more, first in line and behind, enough and too little, at 255 and past it. -/
theorem test_witness_semaphores : (bench .a {}).inGroup = false ∧ (0x043#13).toNat % 32 = 3 ∧ (0x043#13).toNat / 32 = 2 ∧ (0x003#13).toNat / 32 = 0 ∧
    ((bench .a {} { sems := [(3, 2)] }).myCtx.semLine 3 = [] ∧ 2 ≤ (bench .a {} { sems := [(3, 2)] }).myCtx.sem 3 ∧
      (bench .a {} { sems := [(3, 2)] }).postsReady 0 3 = true) ∧
    ¬ ((bench .a {}).myCtx.semLine 3 = [] ∧ 2 ≤ (bench .a {}).myCtx.sem 3) ∧ 255 < 254 + 2 ∧ 253 + 2 ≤ 255 ∧ Ready (bench .a {}) [] (some 3) ∧
    (bench .a { member := { active := true } }).inGroup = true ∧ (bench .a { member := { active := true, granted := some (.semWait 3 2) } }).me.member.granted = some (.semWait 3 2) ∧
    (bench .a {} { sems := [(3, 2)], posts := [(3, [(.x, [0])])], coreX := (storing .fence).me }).postsReady 0 3 = false ∧
    Collected.semWait 3 2 ∉ (bench .a { member := { active := true } }).me.member.ops ∧
    Collected.semWait 3 2 ∈ (bench .a { member := { active := true, ops := [.semWait 3 2] } }).me.member.ops := by
  unfold Ready; decide

/-- SEMW takes its amount; SEMP past 255 traps with cause 34 and the amount (R147). -/
theorem test_semaphores : after (.semw 0x043) (bench .a {} { sems := [(3, 5)] }) (fun t => decide (t.myCtx.sem 3 = 3) && decide (t.me.retired = 1)) = true ∧
    after (.semp 0x043) (bench .a {} { sems := [(3, 254)] }) (fun t => decide (t.me.tcause = 34) && decide (t.me.tval = 2) && decide (t.myCtx.sem 3 = 254)) = true := by
  decide

/-- A store to a semaphore that may leave the buffer. -/
theorem test_witness_semaphore_store : (storing (.control 0x1018 0x105)).controlEntry ⟨0, .a⟩ 0 = some (0x1018, 0x105) ∧ (Role.a ≠ .s) ∧
    after .semaphoreStore (storing (.control 0x1018 0x105)) (fun t => decide (t.myCtx.sem 3 = 5)) = true := by decide

/-- The last arrival completes a barrier: GEN moves on and PENDING is reloaded (R152). -/
theorem test_barrier_completes : barGen (barArrive (barMake 3 1 0 0 4)) = 4 ∧ barPending (barArrive (barMake 3 1 0 0 4)) = 4 ∧
    barPending (barArrive (barMake 3 2 0 0 4)) = 1 ∧ barInbound (barExpect (barMake 3 2 0 0 4) 0xFFFFFFFF) = 0xFFFFFFFF := by decide

/-- Barrier addresses at the ends of the scratchpad, counts of zero and not, an object with an outbound count, GEN as given and not. -/
theorem test_witness_barriers : MemoryOk (bench .a (two 0x5FFF0 4)) ∧ (bench .a (two 0x5FFF0 4)).inGroup = false ∧ Ready (bench .a (two 0x5FFF0 4)) [1, 2] none ∧
    Ready (bench .a (two 0x5FFF0 4)) [1] (some 3) ∧ effAddr ((bench .a (two 0x5FFF0 4)).sval [] 1) 0 % 16 = 0 ∧
    effAddr ((bench .a (two 0x5FFF0 4)).sval [] 1) 0 < 0x60000 ∧ 0x60000 ≤ effAddr ((bench .a (two 0x5FFF0 4)).sval [] 1) 0x10 ∧
    (bench .a (two 0x5FFF0 4)).sectorQuiet (cellKey 0 0x5FFF0) = true ∧ (bench .a {}).allSettled 0 = true ∧
    ((4#64).setWidth 24 ≠ 0#24) ∧ ((0x1000000#64).setWidth 24 = 0#24) ∧ barOutbound (barMake 0 1 0 1 1) ≠ 0 ∧
    barOutbound ((bench .a {}).barAt (cellKey 0 0)) = 0 ∧ barGen ((bench .a {}).barAt (cellKey 0 0)) = (0#64).setWidth 4 ∧
    barGen ((bench .a {}).barAt (cellKey 0 0)) ≠ (1#64).setWidth 4 ∧ barPending (barMake 0 0 0 0 1) = 0 ∧
    (bench .a { member := { active := true } }).inGroup = true ∧ Collected.barWait (cellKey 0 0) 4 ∉ (bench .a {}).me.member.ops := by
  unfold Ready MemoryOk; decide

/-- BARSET of 2 and a protocol error: BARSET of 0 (R153). -/
theorem test_barset : after (.barset 2 1 0) (bench .a (two 0x5FFF0 2)) (fun t =>
      decide (t.barAt (cellKey 0 0x5FFF0) = barMake 0 2 0 0 2) && decide (t.me.retired = 1)) = true ∧
    after (.barset 2 1 0) (bench .a (two 0x5FFF0 0)) (fun t => decide (t.me.tcause = 39) && decide (t.me.tval = 0x5FFF0)) = true := by decide

/-! ### The vector unit -/

/-- An X-core whose v1 and v2 hold two vectors. -/
def lanes (a b : Vec) (x : CellCtx := {}) : State := bench .x { v := [(1, a), (2, b)], c0 := 0x100 } x

/-- A vector instruction without ports; one that pops a port up to its last element; one that pushes; and both with the register's own
contents. -/
theorem test_witness_vector_retirement : (∀ n ∈ [1, 2], (lanes 1 2).isPort n = false) ∧ (lanes 1 2).isPort 3 = false ∧
    (lanes 1 2 { streams := [(1, { mode := 1, cnt0 := 1, cnt1 := 1, port := [some 5] })] }).isPort 1 = true ∧
    ((lanes 1 2 { streams := [(1, { mode := 1, cnt0 := 1, cnt1 := 1, port := [some 5] })] }).stream 1).total ≤ 0 + countNat [1] 1 ∧
    0 < countNat [1] 1 ∧ (lanes 1 2 { streams := [(3, { mode := 1, out := true, cnt0 := 1, cnt1 := 1 })] }).isPort 3 = true ∧ 3 ∉ [1, 2] := by
  decide +kernel

/-- A wrong use of a port, a wait for a port and for nothing, a poisoned fragment and a poisoned element. -/
theorem test_witness_vector_checks :
    (lanes 1 2 { streams := [(1, { mode := 1, out := true, cnt0 := 1, cnt1 := 1 })] }).portTrap [1, 2] (some 3) = some 1 ∧
    (lanes 1 2).portTrap [1, 2] (some 3) = none ∧ (lanes 1 2).vectorReady [1, 2] (some 3) = true ∧ (lanes 1 2).vsrcReady (.reg 2) = true ∧
    (lanes 1 2 { streams := [(1, { mode := 1, cnt0 := 1, cnt1 := 1 })] }).vectorReady [1, 2] (some 3) = false ∧
    (∃ x ∈ fragKeys 0 63 15, ({ lanes 1 2 with poison := [quarterOf (cellKey 0 0xAFFC0)] } : State).poisonedFor (.cell 0) (sectorOf x) = true) ∧
    (lanes 1 2).vsrcReady (.frag 63 15) = true ∧ (lanes 1 2 { matrix := { lastw := [(63, 1)] } }).vsrcReady (.frag 63 15) = false ∧ (lanes 1 2).vsrcPoison (.reg 2) = none ∧
    ((lanes 1 2 { streams := [(1, { mode := 1, cnt0 := 1, cnt1 := 1, port := [none] })] }).poisonedPort [] [1, 2]).isSome = true := by
  refine ⟨by decide +kernel, by decide +kernel, by decide +kernel, by decide +kernel, by decide +kernel,
    ⟨cellKey 0 0xAFFC0, by decide +kernel, by decide +kernel⟩, by decide +kernel, by decide +kernel, by decide +kernel, by decide +kernel⟩

/-- Vector operands that stop nothing, of each shape of the statements, with registers and with a fragment; legal modes and the reserved one. -/
theorem test_witness_vector_ready : VReady (lanes 1 2) [] none (1 :: vsrcRegs (.reg 2)) (some (.reg 2)) (some 3) ∧
    VReady (lanes 1 2) [] none (1 :: vsrcRegs (.frag 63 15)) (some (.frag 63 15)) (some 3) ∧
    VReady (lanes 1 2) [] none (1 :: vsrcRegs (.reg 2) ++ [4]) (some (.reg 2)) (some 3) ∧
    VReady (lanes 1 2) [] none (vsrcRegs (.reg 2)) (some (.reg 2)) (some 3) ∧ VReady (lanes 1 2) [] none [1, 2] (some (.reg 2)) (some 3) ∧
    VReady (lanes 1 2) [5] none [1] none (some 3) ∧ VReady (lanes 1 2) [] (some 3) (vsrcRegs (.reg 2)) (some (.reg 2)) none ∧
    VReady (lanes 1 2) [5] none [] none (some 3) ∧ VReady (lanes 1 2) [5] (some 3) [1] none none ∧ VReady (lanes 1 2) [4, 5] none [1] none (some 3) ∧
    VReady (lanes 1 2) [5] none (vsrcRegs (.reg 2)) (some (.reg 2)) (some 3) ∧ VReady (lanes 1 2) [5] none (1 :: vsrcRegs (.reg 2)) (some (.reg 2)) (some 3) ∧
    (lanes 1 2).me.mode 1 false = some .rne ∧ ({ fcsr := 0x70000 } : Core).mode 0 false = none ∧ ((lanes 1 2).me.mode 6 true).isSome = true ∧
    (fmtOf 1).isSome = true ∧ (fmtOf 13).isSome = true := by
  refine ⟨rfl, rfl, rfl, rfl, rfl, rfl, rfl, rfl, rfl, rfl, rfl, rfl, ?_, ?_, ?_, ?_, ?_⟩ <;> decide +kernel

/-- FP32 values of each kind that the arithmetic rules distinguish. -/
theorem test_witness_fp32 : (fp 0x7FC00000).isNan = true ∧ (fp 0x7F800001).isSnan = true ∧ fp 0xFF800000 = .inf true ∧ fp 0x7F800000 = .inf false ∧
    fp 0x80000000 = .num true 0 (-149) ∧ fp 0x00000001 = .num false 1 (-149) ∧ (fp 0x3F800000).isNan = false := by decide +kernel

/-- Lists of lanes with a NaN, with both infinities, with one, of finite sum not zero, of −0 alone, and of opposite values. -/
theorem test_witness_sums : (0x7FC00000#32 ∈ [0x7FC00000#32] ∧ (fp 0x7FC00000#32).isNan = true) ∧ 0x7F800000#32 ∈ [0x7F800000#32, 0xFF800000#32] ∧
    ((fp 0x3F800000#32).isInf = false ∧ (fp 0x3F800000#32).isNan = false) ∧
    (([1#32, 1#32].map fun l => (fp l).units (-149)).foldr (· + ·) 0) ≠ 0 ∧
    (([1#32, 0x80000001#32].map fun l => (fp l).units (-149)).foldr (· + ·) 0) = 0 := by decide +kernel

/-- The fused product rounds once: (1 + 2^-23)² − (1 + 2^-22) = 2^-46 (R228). -/
theorem test_fma_rounds_once : (fpFma (fp 0x3F800001) (fp 0x3F800001) (fp 0xBF800002) .rne) = { bits := 0x28800000, flags := 0 } := by decide +kernel

/-- 1/3 is below its exact value, the root of 1/4 is exact; VMIN puts −0 below +0; 2^1 is exact (R228, R229). -/
theorem test_approximations : fpRcp 0x40400000 = { bits := 0x3EAAAAAA, flags := flagNX } ∧ fpRsq 0x40800000 = { bits := 0x3F000000, flags := 0 } ∧
    (fpMinMax 0 0x80000000 false).bits = 0x80000000 ∧ fpExp2 0x3F800000 = { bits := 0x40000000, flags := 0 } := by decide +kernel

/-- Sums and products with results known from IEEE 754: 1 + 2^-24 rounds to even, ∞ − ∞ raises NV, −0 + −0 = −0, 0 under RDN (R183, R194). -/
theorem test_fp32_arithmetic : (fpAdd (fp 0x3F800000) (fp 0x33800000) .rne).bits = 0x3F800000 ∧ (fpAdd (fp 0x3F800000) (fp 0x33800000) .rup).bits = 0x3F800001 ∧
    fpAdd (fp 0x7F800000) (fp 0xFF800000) .rne = { bits := canonNan, flags := flagNV } ∧ (fpAdd (fp 0x80000000) (fp 0x80000000) .rne).bits = 0x80000000 ∧
    (fpAdd (fp 0x3F800000) (fp 0xBF800000) .rdn).bits = 0x80000000 ∧ (fpMul (fp 0x40400000) (fp 0xC0000000) .rne).bits = 0xC0C00000 := by decide +kernel

/-- VIADDS of bytes saturates in each lane, VCMPILTU writes a lane of ones (R230, R231). -/
theorem test_integer_lanes : after (.viadds 3 1 (.reg 2) 0) (lanes 0x7F80 0x01FF) (fun t => decide (t.me.vr 3 = 0x7F80)) = true ∧
    after (.vcmpiltu 3 1 (.reg 2) 2) (lanes 5 6) (fun t => decide (t.me.vr 3 = 0xFFFFFFFF)) = true := by decide +kernel

/-- VREDISUM puts the sum of the words into every lane (R233). -/
theorem test_reduction : after (.vredisum 3 (.reg 1) 2) (lanes ((1 : Vec) ||| (2 : Vec) <<< 480) 0) (fun t =>
    (List.range 16).all fun j => decide (lane 32 (t.me.vr 3) j = 3)) = true := by decide +kernel

/-- VCVN to BF16 shifts sixteen codes in at the top: 1.0 in every lane (R235). -/
theorem test_narrowing : after (.vcvn 3 1 (.reg 2) 2 1) (lanes 0 (BitVec.ofNat 512 ((List.range 16).foldl (fun n j => n + 0x3F800000 * 2 ^ (32 * j)) 0)))
    (fun t => (List.range 16).all fun j => decide (lane 16 (t.me.vr 3) (16 + j) = 0x3F80)) = true := by decide +kernel

/-- Streams bound to this core and to the other, idle, at the start of a row and inside one, drained and not. -/
theorem test_witness_stream_tests : Ready (lanes 1 2) [] (some 3) ∧
    (((lanes 1 2 { streams := [(1, { mode := 1, cnt0 := 2, cnt1 := 2, passed := 2 })] }).stream 1).mode ≠ 0 ∧
      (lanes 1 2).cur.core.role = (if false then Role.c else Role.x)) ∧ (2 : Nat) < 2 * 2 ∧ 2 % 2 = 0 ∧
    ¬ (((lanes 1 2).stream 1).mode ≠ 0 ∧ (lanes 1 2).cur.core.role = Role.x) ∧
    ((lanes 1 2 { streams := [(1, { mode := 1, out := true, port := [some 1] })] }).stream 1).port ≠ [] := by
  unfold Ready; decide +kernel

/-! ### 64-byte accesses and the matrix unit -/

/-- LD64 and ST64 of the last 64 bytes of the scratchpad, of an owned page, of a control-page register of 64 bytes, into a port, and a
misaligned one. -/
theorem test_witness_vector_accesses :
    VReady (bench .x (two 0x5FFC0 0)) [1] none [] none (some 3) ∧ VReady (bench .x (two 0x5FFC0 0)) [1] none [3] none none ∧
    (bench .x (two 0x5FFC0 0)).place .load 0x5FFC0 64 (fun off => controlLoadOk off 64) = .ok (.spad (cellKey 0 0x5FFC0)) ∧
    (bench .x {}).poisonHere (cellKey 0 0x5FFC0) = false ∧ (bench .x {}).me.mayPerform 0 (controlSector 0x4000) = true ∧ (bench .x {}).loadRace (.spad (cellKey 0 0x5FFC0)) = false ∧
    (bench .x {}).storeRace (.spad (cellKey 0 0x5FFC0)) = false ∧ (bench .x {}).me.mayPerform 0 (sectorOf (cellKey 0 0x5FFC0)) = true ∧
    (bench .x (two 0x104000 0)).place .load 0x104000 64 (fun off => controlLoadOk off 64) = .ok (.control 0x4000) ∧
    (bench .x {}).me.controlPending 0x4000 = false ∧ (Place.page 0x207 4 0).owned ≠ none ∧
    (bench .x {} { streams := [(3, { mode := 1, out := true, cnt0 := 1, cnt1 := 1 })] }).isPort 3 = true ∧
    ({ benchPage .x {} 0x207 with own := [(0, { holder := some (1, 0x800) })] } : State).storeRace (.page 0x207 4 0) = true ∧ (0x5FFC1 : Nat) % 64 ≠ 0 := by
  refine ⟨rfl, rfl, rfl, rfl, rfl, rfl, rfl, rfl, rfl, rfl, ?_, rfl, ?_, ?_⟩ <;> decide +kernel

/-- LD64 and ST64 at every check: a misaligned address, a hole, the control page outside the inboxes, a refusing window, a page that misses, one
that failed, leaves without the right, an owned page of another core, and poison in one quarter. -/
theorem test_witness_vector_access_checks :
    (bench .x {}).cur.core.role ≠ .s ∧ (lanes 1 2 { streams := [(1, { mode := 1, cnt0 := 1, cnt1 := 1 })] }).vblocked [2] none [1] none none =
      some (.next (lanes 1 2 { streams := [(1, { mode := 1, cnt0 := 1, cnt1 := 1 })] })) ∧
    VReady (bench .x (two 0x60000 0)) [1] none [] none (some 3) ∧ VReady (bench .x (two 0x60000 0)) [1] none [3] none none ∧
    (bench .x {}).granted 1023 1 0xFFFC0 64 .load true = false ∧ (bench .x {}).transFor ⟨0, .x⟩ 1 0x1000000000 = .miss ∧
    { bench .x {} with failedWalks := [(⟨0, .x⟩, 1, 0x1000000)] }.transFor ⟨0, .x⟩ 1 0x1000000000 = .fail ∧
    (benchPage .x {} 0x207).transFor ⟨0, .x⟩ 1 0x1000000000 = .leaf 0x207 4 ∧ leafGrants 0x207 .load = true ∧ leafGrants 1 .load = false ∧
    pteO 0x207 = true ∧ (benchPage .x {} 0x207).keyOut (leafKey 0x207 4 0x1000000000) = false ∧
    ((benchPage .x {} 0x207).ownOf (leafPage 0x207)).holder ≠ some (1, 0x400) ∧
    ({ benchPage .x {} 0x207 with own := [(leafPage 0x207, { written := true })] } : State).ownOf (leafPage 0x207) = { written := true } ∧
    ({ benchPage .x {} 7 with poison := [quarterOf (leafKey 7 4 0x1000000000) + 3] } : State).poisonHere (leafKey 7 4 0x1000000000) = true := by
  refine ⟨by decide, ?_, rfl, rfl, ?_⟩
  · rfl
  · decide +kernel

/-- A C-core that stores a command word to MCMD. -/
def commanding (w : Vec) (x : CellCtx := {}) : State := bench .c { two 0x100000 0 with v := [(3, w)] } x

/-- A MARK, a command with a reserved bit, one against R209, with slots held and not, and a full queue. -/
theorem test_witness_matrix_enqueue :
    VReady (commanding 4) [1] none [3] none none ∧
    placed ((commanding 4).place .store (effAddr ((commanding 4).sval [] 1) 0) 64 fun off => decide (off = 0) && decide (Role.c = .c)) = some (.control 0) ∧
    cmdKind 4 = 4 ∧ cmdReason 4 = 0 ∧ (4 : Vec).toNat / 2 ^ 61 % 8 = 0 ∧ (4 : Vec).toNat / 2 ^ 112 = 0 ∧ cmdReason 0 ≠ 0 ∧
    ((4 : Vec) ||| (1 : Vec) <<< 112).toNat / 2 ^ 112 ≠ 0 ∧ (commanding 4).myCtx.matrix.queue.length < 16 ∧ (commanding 4).allSettled 4 = true ∧
    (0x3 : BitVec 32).getLsbD 1 = true ∧ (0x3 : BitVec 32).getLsbD 2 = false ∧
    16 ≤ (commanding 4 { matrix := { queue := List.replicate 16 { word := 4, number := 0, after := [], lid := 0 } } }).myCtx.matrix.queue.length := by
  unfold VReady; decide +kernel

/-- A MARK joins the queue and is counted in MENQ (R212). -/
theorem test_mark_enqueues : after (.st64 3 1 0 0 0) (commanding 4) (fun t =>
    decide (t.myCtx.matrix.enq = 1) && decide (t.myCtx.matrix.queue.length = 1) && t.me.stores.isEmpty) = true := by decide +kernel

/-- A cell whose matrix sequencer holds a command. -/
def sequencing (m : Matrix) : State := bench .c {} { matrix := m }

/-- Head commands at each stage: before the gate with a semaphore and without, past it, with a result, with a poisoned one; slots clean and
poisoned. -/
theorem test_witness_matrix_stages :
    (let c : MatrixCmd := { word := 4, number := 1, after := [], lid := 0 }
     MemoryOk (sequencing { queue := [c], passed := true }) ∧ (sequencing { queue := [c], passed := true }).settled ⟨0, .c⟩ c.after 0 = true ∧
       ¬ (cmdGen c.word = true ∧ cmdGcnt c.word ≠ 0)) ∧
    (sequencing {}).slotPoisoned 0 0 10 16 = false ∧ (∀ k ∈ tileSectors 0 63, (sequencing {}).engineBad 0 (span (tileKey 0 63) 1024) k = false) ∧
    ((sequencing {}).ctxOf 0).mayTake 3 1 .sequencer = false ∧ ((bench .c {} { sems := [(3, 1)] }).ctxOf 0).mayTake 3 1 .sequencer = true ∧
    (bench .c {} { sems := [(3, 1)] }).postsReady 0 3 = true ∧ (List.replicate 256 (0 : BitVec 32)).length = 256 ∧
    ([10, 11, 12, 13].map fun f => (fmtOf f).isSome) = [true, true, true, true] ∧ ([1] : List Nat).length = ([2] : List Nat).length := by
  unfold MemoryOk; decide +kernel

/-- A store to MCTL with FLUSH, with both bits, and with RESUME. -/
theorem test_witness_matrix_control : (storing (.control 0x58 2)).controlEntry ⟨0, .a⟩ 0 = some (0x58, 2) ∧ (2#64).getLsbD 1 = true ∧ (2#64).getLsbD 0 = false ∧
    (3#64).getLsbD 0 = true ∧ (1#64).getLsbD 1 = false ∧ Role.c ≠ .s := by decide

/-! ### Traps, interrupts, regions and the checker -/

/-- Outside trap mode in a firing and outside one, in trap mode; a region open and none. -/
theorem test_witness_traps : (bench .a {}).me.trapMode = false ∧ (bench .a { running := true }).me.running = true ∧
    (bench .a {}).me.running = false ∧ (bench .s {}).me.trapMode = false ∧ (bench .a { tstat := 1#64 }).me.trapMode = true ∧ (bench .a { cregh := 0x2001#64 }).me.cregh.getLsbD 0 = true ∧
    (bench .a {}).me.cregh.getLsbD 0 = false ∧ (bench .a {}).cur.core.role ≠ .s ∧ ((bench .a {}).niOf 1 0).late = [] := by decide

/-- A trap saves the chain and its bits and starts at TRAPVEC; ERET brings them back (R128, R366, R371). -/
theorem test_trap_and_return :
    (let k : Core := { two 1 2 with c1 := 0x108, c2 := 0x300, n1 := true, s1 := false, s2 := false, running := true, firing := some ⟨3, [], 0, 0, 0⟩ }
     after .sysbrk (bench .a k) (fun t => decide (t.me.tepc = 0x100) && decide (t.me.tepc2 = 0x300) && decide (t.me.tepcn = 2) &&
       decide (t.me.tstat = 9) && decide (t.me.c0 = 0x4000) && t.me.s1 && t.me.s2 && decide (t.me.tcause = 3))) = true ∧
    after .eret (bench .a { tstat := 9#64, tepc := 0x100, tepc1 := 0x108, tepc2 := 0x300, tepcn := 2#64 }) (fun t =>
      decide (t.me.c0 = 0x100) && decide (t.me.c1 = 0x108) && decide (t.me.c2 = 0x300) && t.me.n1 && !t.me.n0 && !t.me.s1 && !t.me.trapMode) = true := by
  decide

/-- System instructions: their operands, a pre-emption handler and another, CTXID its own and another. -/
theorem test_witness_system : Ready (bench .s {}) [1] none ∧ Ready (bench .a { two 1 0 with tstat := 1#64 }) [1] none ∧
    ((bench .a { two 1 0 with tstat := 1#64 }).sval [] 1).toNat % 2 ^ 16 = (bench .a {}).myCtxId ∧
    ((bench .a { two 2 0 with tstat := 1#64 }).sval [] 1).toNat % 2 ^ 16 ≠ (bench .a {}).myCtxId ∧
    (bench .a { tcause := 0x8000000000000003#64 }).me.tcause = 0x8000000000000003#64 ∧ (bench .a {}).me.tcause ≠ 0x8000000000000003#64 ∧
    badQueue Role.a [1] none = none := by unfold Ready; decide

/-- Events before the head: a pre-emption, a watchdog, deferred events of each kind, none. -/
theorem test_witness_events : (bench .a { preempt := true }).me.preempt = true ∧ (bench .a { watchdog := some 1024 }).me.watchdog = some 1024 ∧
    (bench .a { events := [⟨34, 1⟩, ⟨29, 2⟩] }).me.events = ⟨34, 1⟩ :: [⟨29, 2⟩] ∧ (34 ≠ 28 ∧ 34 ≠ 29) ∧ (bench .a { events := [⟨29, 2⟩] }).me.events = ⟨29, 2⟩ :: [] ∧
    (bench .a {}).me.events = [] := by decide

/-- A deferred event is taken as a trap with bit 1 of TSTAT (R369). -/
theorem test_deferred_event : after .deferredEvent (bench .a { events := [⟨34, 7⟩] }) (fun t =>
    decide (t.me.tcause = 34) && decide (t.me.tval = 7) && decide (t.me.tstat = 3) && t.me.events.isEmpty) = true := by decide

/-- Annulled heads: one whose word cannot be fetched, one of length zero, one of 16 bytes. -/
theorem test_witness_annulled : (bench .a { c0 := 0x800000 }).fetch ⟨0, .a⟩ 0x800000 = .trap 1 ∧
    ((bench .a (two 0 0)).fetch ⟨0, .a⟩ 0x100 = .word 0 ∧ (bench .a (two 0 0)).me.s1 = true ∧ wordLen 0 = 0) ∧
    (({ bench .a (two 0 0) with mem := [(cellKey 0 0x100, 3)] } : State).fetch ⟨0, .a⟩ 0x100 = .word 3 ∧ ¬ (true = true ∧ wordLen 3 = 0)) := by decide

/-- Regions and the checker: loads pending and none, a deferred event, EN set and clear. -/
theorem test_witness_regions : (bench .a {}).loadsPending = false ∧ ({ bench .a {} with nis := [(1024, { tags := [(0, { packet := placePacket 0, dst := none, signed := false, fa := 0, round := 1, deadline := 0, id := 0 })] })] } : State).loadsPending = true ∧
    (bench .a { events := [⟨34, 1⟩] }).me.events ≠ [] ∧ Ready (bench .a (two 1 0)) [1] none ∧ ((bench .a (two 1 0)).sval [] 1).getLsbD 0 = true ∧
    ((bench .a (two 2 0)).sval [] 1).getLsbD 0 = false ∧ (bench .a { sigEn := false }).me.sigEn = false ∧ Ready (bench .a {}) [] (some 3) := by
  unfold Ready; decide

/-- CREG opens a region with its handler 32 words on (R378). -/
theorem test_creg : after (.creg 32) (bench .a (two 0 0)) (fun t => decide (t.me.cregh = 0x181)) = true := by decide


/-- One lane of a FILL of tile 0 that becomes visible before the command completes (R226). -/
theorem test_lane_shows_early :
    (let s : State := { sequencing { queue := [{ word := 3, number := 1, after := [], lid := 0 }], passed := true
                                     result := some { tile := List.replicate 256 0x3F800000, flags := 0, writes := true, poisoned := false } } with
                        args := { flag := true, index := 3 } }
     MemoryOk s ∧ ((s.ctxOf 0).matrix.result.map fun r => r.tile[3]?) = some (some 0x3F800000) ∧
     after .matrixComplete s (fun t => decide (t.natLast (tileKey 0 0 + 12) 4 = 0x3F800000) && decide (t.natLast (tileKey 0 0 + 8) 4 = 0) &&
       decide ((t.ctxOf 0).matrix.queue.length = 1)) = true) := by
  unfold MemoryOk; decide +kernel
/-! ### Copies, identifiers, slots and ownership -/

/-- Every check of a COPY passed, for a plain copy with a barrier and for a conversion; slots held and not named; room for the transform
unit and none. -/
theorem test_witness_copy :
    ([(0, true), (2, false)].all fun c =>
      let f := copyFields (rowExt c.1 c.2)
      let dd := copying.tidOf f.dtid
      let sd := copying.tidOf f.stid
      let ws := writeSegs dd sd 0 f.xf []
      let rs := readSegs dd sd 0 f.xf []
      decide (f.xf = c.1) && (copying.me.mode 1 true).isSome && copying.copyRoom 0 && copying.scalarReady [1, 2] (some 3) &&
        decide (badQueue Role.a [1, 2] (some 3) = none) && !copying.me.controlPending (0x9000 + 64 * f.dtid) && !copying.me.controlPending (0x9000 + 64 * f.stid) &&
        (match f.bar with | some n => decide (n ≤ 0x5FFF0) && copying.sectorQuiet (cellKey 0 n) && decide (n = 16) | none => decide (c.2 = false)) &&
        decide (descReason dd f.dspace 0 f.xf = 0) && decide (descReason sd f.sspace 0 f.xf = 0) && decide (pairReason dd sd f.xf false = 0) &&
        (match copying.indexList dd sd f.dtid f.stid f.xf 0 with | .ok l => l.isEmpty | .error _ => false) &&
        (copying.endStop f.sspace false rs).isNone && (copying.endStop f.dspace true ws).isNone && copying.unitRoom 0 &&
        decide (f.dspace ≠ 3) && decide (f.sspace ≠ 3) &&
        (overlapAt (keySegs 0 [] f.dspace ws) (keySegs 0 [] f.sspace rs)).isNone) = true ∧
    (bench .a {} { held := 0x80000000 }).myCtx.held.getLsbD 31 = true := by decide +kernel

/-- A reserved mode with and without a rounding that needs it, a full engine, a queue code; descriptors against R164 at either end; a barrier at
the end of the scratchpad and beyond; lists of every kind; a slot not held; an address outside at either end; ends that overlap. -/
theorem test_witness_copy_checks :
    (({ two 0 0 with fcsr := 0x70000 } : Core).mode 0 true = none ∧ isNarrowing 11 11 = true ∧ isNarrowing 0 1 = false) ∧
    ({ copying with copies := List.replicate 16 (inFlight []) } : State).copyRoom 0 = false ∧ badQueue Role.a [33, 2] (some 3) = some 33 ∧
    (descReason 0 1 0 0 ≠ 0 ∧ descReason (rowDesc 0x1000) 1 0 0 = 0 ∧ pairReason (rowDesc 0x1000) (rowDesc 0x2000) 0 false = 0 ∧
      pairReason (rowDesc 0x1000) (rowDesc 0x2000) 1 false ≠ 0) ∧
    ((copyFields (rowExt 0 true)).bar = some 16 ∧ (0x5FFF0 < 0x60000) ∧ ¬ (0x5FFF0 < 0x5FFF0)) ∧
    ((257 : Nat) > 256 ∧ (6 : Nat) % 4 ≠ 0 ∧ (0x60000 : Nat) < 0x5FFFC + 4 * 2) ∧
    ((match copying.indexList (rowDesc 0x1000) (rowDesc 0x2000) 2 1 6 0 with | .ok l => l.isEmpty | .error _ => false) = true ∧
      dDim (rowDesc 0x1000) 1 = 0) ∧
    (3 ∈ slotsOf [(0x6000, 64)] ∧ (bench .a {}).myCtx.held.getLsbD 3 = false) ∧
    ((bench .a {}).endCheck 1 false [(0x5FFF0, 64)]).isSome = true ∧ ((bench .a {}).endCheck 1 true [(0x1000, 64)]).isNone = true ∧
    (copying.endCheck 0 false [(0x1000000000, 64)]) = some (.miss, 0x1000000000) ∧
    overlapAt [(0x1000, cellKey 0 0x1000, 64)] [(0x1020, cellKey 0 0x1020, 64)] = some 0x1020 := by decide +kernel

/-- A copy whose element is read, whose rows lie in a sector, and whose bytes overlap itself or not; cells with poison and without. -/
theorem test_witness_copy_elements :
    (let c := inFlight [sectorOf (cellKey 0 0x1000)]
     let rd : Reader := fun a => some (BitVec.ofNat 8 a)
     c.xf = 0 ∧ fmtWidth (dFmt c.dst) = 8 ∧ dExtent c.dst 0 = 64 ∧ (c.srcCode rd (copyRow c.src c.sorg 0).addr 5).isSome = true ∧
       (fmtOf (dFmt c.dst)).isSome = true ∧ (modeOfCode c.mode).isSome = true ∧ (rowPairs c.dst c.src c.xf c.index) = [(0, 0)] ∧
       sectorOf (spaceKey 0 c.pages (dSpace c.dst) ((copyRow c.dst c.dorg 0).addr + 63)) = sectorOf (cellKey 0 0x1000) ∧
       overlapAt (keySegs 0 c.pages 1 (writeSegs c.dst c.src 0 0 [])) (keySegs 0 c.pages 1 (readSegs c.dst c.src 0 0 [])) = none ∧
       overlapAt (keySegs 0 c.pages 1 (writeSegs c.dst c.dst 0 0 [])) (keySegs 0 c.pages 1 (readSegs c.dst c.dst 0 0 [])) ≠ none) ∧
    lastBytes (sectorOf 64) [(64, some 1), (64, none), (65, some 2)] = [(64, none), (65, some 2)] := by decide +kernel

/-- A plain copy that starts answers 0, joins the open batch, and has one sector to serve (R163, R172). -/
theorem test_copy_starts : after (.copy 3 1 2 0 0 (rowExt 0 false)) copying (fun t =>
    decide (t.copies.length = 1) && decide (t.myCtx.unsealed.length = 1) && decide (t.me.xr 3 = 0) &&
      (t.copies.all fun c => decide (c.todo = [sectorOf (cellKey 0 0x1000)]))) = true := by decide +kernel

/-- A copy that is served next, one whose counted writes leave, and one that is complete. -/
theorem test_witness_copies_served :
    ({ copying with copies := [inFlight [sectorOf (cellKey 0 0x1000)]] } : State).nextCopy 0 = some (inFlight [sectorOf (cellKey 0 0x1000)]) ∧
    (inFlight []).todo = [] ∧ (inFlight []).writes = [] ∧ ({ copying with copies := [inFlight []] } : State).copies[0]? = some (inFlight []) ∧
    ({ copying with copies := [inFlight []] } : State).writesAt [7] (if dSpace (inFlight []).dst = 5 then 4 else 2) = true := by decide +kernel

/-- Serving the sector moves its bytes; completing merges the flags and posts the semaphore (R172, R173). -/
theorem test_copy_moves_and_completes :
    after .copySector { copying with copies := [inFlight [sectorOf (cellKey 0 0x1000)]], mem := [(cellKey 0 0x203F, 9)] } (fun t =>
      decide (t.byteLast (cellKey 0 0x103F) = 9) && (t.copies.all fun c => c.todo.isEmpty)) = true ∧
    after .copyCompletion { copying with copies := [inFlight []] } (fun t =>
      t.copies.isEmpty && decide ((t.coreOf ⟨0, .a⟩).fcsr = 0x1000) && decide (t.myCtx.sem 3 = 1)) = true := by decide +kernel

/-- Batches at their limit and below, CWAIT of as many as are unfinished and of fewer. -/
theorem test_witness_batches : copying.unfinished 0 < 16 ∧ copying.unfinished 0 ≤ (0#4).toNat ∧ Ready copying [] (some 3) ∧
    (let s : State := { copying with copies := [inFlight []], cells := [(0, { resident := some 1, ctx := { sealed := [⟨[7], 0⟩] } })] }
     (0#4).toNat < s.unfinished 0) ∧
    ¬ 16 ≤ copying.unfinished 0 ∧ ({ copying with copies := [inFlight []], cells := [(0, { resident := some 1, ctx := { sealed := List.replicate 16 ⟨[7], 0⟩ } })] } : State).unfinished 0 = 16 := by unfold Ready; decide +kernel

/-- Addresses of TIDLD and TIDST at the ends of the scratchpad, with no store to the image on its way and no load outstanding. -/
theorem test_witness_identifiers : Ready (bench .a (two 0x5FFC0 0)) [1] none ∧ (0x5FFC0 : Nat) % 64 = 0 ∧ (0x5FFC0 : Nat) < 0x60000 ∧
    (bench .a (two 0x5FFC0 0)).me.controlPending (0x9000 + 64 * 63) = false ∧
    (bench .a (two 0x5FFC0 0)).me.mayPerform 0 (sectorOf (cellKey 0 0x5FFC0)) = true ∧ (0x60000 : Nat) ≤ 0x60000 ∧ (0x5FFC1 : Nat) % 64 ≠ 0 ∧
    (bench .a {}).poisonHere (cellKey 0 0x5FFC0) = false ∧
    ({ bench .a {} with poison := [quarterOf (cellKey 0 0x5FFC0)] } : State).poisonHere (cellKey 0 0x5FFC0) = true := by
  unfold Ready; decide

/-- TIDBASE replaces bits [47:0] only (R179). -/
theorem test_tidbase : after (.tidbase 1 2) (bench .a (two 0xFFFF000000004000 0) { tids := [(2, rowDesc 0x1000)] }) (fun t =>
    decide (tget t.myCtx.tids 0 2 = rowDesc 0x4000)) = true := by decide +kernel

/-- Slots free, held, named by a command, with a line that this core heads or not. -/
theorem test_witness_slots : (bench .a {}).cur.core.role ≠ .s ∧ (bench .a {}).myCtx.held.getLsbD 31 = false ∧ tget (bench .a {}).myCtx.slotLines [] 31 = [] ∧
    (tget (bench .a {} { slotLines := [(31, [.a, .x])] }).myCtx.slotLines [] 31).head? = some Role.a ∧
    ¬ (tget (bench .a {} { slotLines := [(31, [.x])] }).myCtx.slotLines [] 31 = []) ∧
    (bench .a {} { held := 0x80000000 }).myCtx.held.getLsbD 31 = true ∧ ({} : Matrix).names 31 = false ∧ Ready (bench .a {}) [] (some 3) := by
  unfold Ready; decide

/-- OSREL of a free slot traps with cause 31 and its number (R180). -/
theorem test_osrel_free : after (.osrel 31) (bench .a {}) (fun t => decide (t.me.tcause = 31) && decide (t.me.tval = 31)) = true := by decide

/-- An owned page held by this core, by another, pending for this core and for another that it handed it to, free; a target that may have
it and one that may not. -/
theorem test_witness_ownership : (bench .a {}).inGroup = false ∧ (benchPage .a (two 0x1000000000 0) 0x207).transFor ⟨0, .a⟩ 1 0x1000000000 = .leaf 0x207 4 ∧
    leafGrants 0x207 .store = true ∧ leafGrants 0x207 .load = true ∧ leafGrants 0x203 .store = false ∧
    (benchPage .a {} 0x207).reaches 0x207 4 0x1000000000 .store = true ∧ (benchPage .a {} 0x207).reaches 0x207 4 0x1000000000 .load = true ∧
    (benchPage .a {} 0x203).reaches 0x203 4 0x1000000000 .store = false ∧ pteO 0x207 = true ∧ pteO 0x7 = false ∧
    (bench .a {}).coreId ⟨0, .a⟩ = 0 ∧ (bench .a {}).handTarget 0x401 = true ∧ (bench .a {}).handTarget 0xC00 = false ∧ (bench .a {}).handReady 0 = true ∧
    Ready (bench .a (two 0x1000000000 0)) [1, 2] none ∧ Ready (bench .a (two 0x1000000000 0)) [1] (some 3) ∧ Ready (bench .a (two 0xFFFFFFFFF 0)) [1] none ∧
    (({ holder := some (1, 0x400), pending := none } : OwnRec).holder ≠ some (1, 0)) ∧
    (({ pending := some (1, 0x400), handedBy := some (1, 0) } : OwnRec).handedBy = some (1, 0)) := by unfold Ready; decide

/-- The holder hands a page on; the heir takes it and reads 1 (R331). -/
theorem test_ownership_moves :
    after (.ohand 2 1 0) { benchPage .a (two 0x1000000000 0x400) 0x207 with own := [(0, { holder := some (1, 0) })] } (fun t =>
      decide (t.ownOf 0 = { pending := some (1, 0x400), handedBy := some (1, 0) })) = true ∧
    after (.otake 3 1 0) { benchPage .a (two 0x1000000000 0) 0x207 with own := [(0, { pending := some (1, 0) })] } (fun t =>
      decide ((t.ownOf 0).holder = some (1, 0)) && decide (t.me.xr 3 = 1)) = true := by decide

/-- The same in a deterministic group. -/
theorem test_witness_ownership_in_group :
    (benchPage .a { two 0x1000000000 0x400 with member := { active := true } } 0x207).inGroup = true ∧
    (benchPage .a { two 0x1000000000 0x400 with member := { active := true } } 0x207).transFor ⟨0, .a⟩ 1 0x1000000000 = .leaf 0x207 4 ∧
    (({ benchPage .a { member := { active := true } } 0x207 with own := [(0, { holder := some (1, 0) })] } : State).ownOf 0).holder = some (1, 0) ∧
    (benchPage .a {} 0x207).reaches 0x207 4 0x1000000000 .store = true ∧ (bench .a {}).handReady 0 = true := by decide


/-- A byte that a copy has read early is the one it writes (R175). -/
theorem test_copy_reads_early :
    (({ copying with copies := [inFlight [sectorOf (cellKey 0 0x1000)]] } : State).nextCopy 0).isSome = true ∧
    after .copySector { copying with copies := [inFlight [sectorOf (cellKey 0 0x1000)]], mem := [(cellKey 0 0x203F, 9)]
                                     args := { flag := true, cells := [cellKey 0 0x203F] } } (fun t =>
      after .copySector { t with mem := [], args := {} } (fun u =>
        decide (u.byteLast (cellKey 0 0x103F) = 9) && (u.copies.all fun c => c.todo.isEmpty && c.early.isEmpty))) = true := by decide +kernel
/-! ### Fabric instructions -/

/-- A postmark of counter 16 and sequence number 65535. -/
def stamped (a b : Word) : State := bench .a { two a b with x := [(1, a), (2, b), (3, 64), (5, 5)] } { pmk := 0x000000100000FFFF#64, tids := [(2, rowDesc 0x1000)] }

/-- Fabric addresses at the ends of the ranges of kinds 0, 1 and 2; records full and not; lengths at their limits; a postmark that is not legal. -/
theorem test_witness_counted_writes : Ready (stamped 0x3000001000000000 7) [1, 2] none ∧ Ready (stamped 0 0) [1, 5, 2, 3] none ∧ Ready (stamped 0 0) [1] none ∧
    Ready (stamped 0 0) [] (some 3) ∧ ((0x1000000000 : Nat) ≤ 0x3000001000000000 % 2 ^ 48) ∧ ¬ ((0x1000000000 : Nat) ≤ 0x3000000FFFFFFFFF % 2 ^ 48) ∧
    ((0x100000000 : Nat) ≤ 0x100000000 ∧ (0x13FFFFFFF : Nat) < 0x140000000 ∧ ¬ (0x140000000 : Nat) < 0x140000000) ∧
    ((stamped 0 0).niOf 1 0).recs.length < 4096 ∧ (stamped 0 0).recordsIn 0 + 1 ≤ 4096 ∧ ¬ 4096 + 1 ≤ 4096 ∧
    (stamped 0 0).groupProxy 1 5 = false ∧ (stamped 0 0).cellOut 0 = false ∧ (stamped 0 0).niEvents 1 0 < 16 ∧
    (stamped 0 0).me.mayPerform 0 (sectorOf (cellKey 0 64)) = true ∧ (stamped 0 0).me.stores = [] ∧
    (bench .a { events := List.replicate 16 ⟨29, 0⟩ }).niEvents 1 0 = 16 ∧ (0x1001 : Nat) % 8 ≠ 0 ∧ (1 ≤ 256 ∧ 256 ≤ 256 ∧ 256 < 257) ∧ (1023 < 1024 ∧ 1024 ≤ 1024) ∧
    (0x5FF00 + 256 ≤ 0x60000 ∧ 0x60000 < 0x5FF01 + 256) ∧ (stamped 0 0).residentIn 0 = some 1 ∧ (stamped 0 0).poisonedFor (.cell 0) (sectorOf (cellKey 0 64)) = false ∧
    ({ stamped 0 0 with poison := [quarterOf (cellKey 0 64)] } : State).poisonedFor (.cell 0) (sectorOf (cellKey 0 64)) = true ∧
    ((stamped 0 0).me.controlPending (0x9000 + 64 * 2) = false ∧ dSpace ((stamped 0 0).tidOf 2) ≤ 1 ∧ descReason ((stamped 0 0).tidOf 2) 1 0 8 = 0 ∧
      rowCount ((stamped 0 0).tidOf 2) * rowBytes ((stamped 0 0).tidOf 2) = 64 ∧ (stamped 0 0).copyRoom 0 = true ∧
      ((stamped 0 0).endStop 1 false (rowSegs ((List.range (rowCount ((stamped 0 0).tidOf 2))).map (copyRow ((stamped 0 0).tidOf 2) 0)) false)).isNone = true) ∧
    (0x000000100000FFFF#64 &&& 0xFFFFE000FFFF0000#64 = 0) ∧ (0x10000#64 &&& 0xFFFFE000FFFF0000#64 ≠ 0) := by unfold Ready; decide +kernel

/-- RST sends one counted write of its bytes with the postmark's number, which wraps (R256, R257). -/
theorem test_rst : after (.rst 2 1 3 0) (stamped 0x3000001000000000 0x1122334455667788) (fun t =>
    decide (t.myCtx.pmk = 0x0000001000000000#64) && decide (t.net.length = 1) &&
      (t.net.all fun i => decide (i.packet.payload = [0x88, 0x77, 0x66, 0x55, 0x44, 0x33, 0x22, 0x11]) && decide (i.packet.dchip = 0x300) &&
        decide (i.packet.seq = 0xFFFF) && decide (i.packet.ctr = 16))) = true := by decide +kernel

/-- A group of one member, which is a proxy (R272). -/
theorem test_witness_group_proxy :
    ({ benchPage .a {} 7 with
        contexts := [{ benchContext with gtbase := 0x1000000000 }], mem := [(0, 1), (1, 1), (0x11, 3)]
        service := { proxies := [(0x300, 0x010)] } } : State).groupProxy 1 0 = true := by decide +kernel

/-- A remote load of each sort; a queue as destination; a chip behind the scale-out table and not; tags all in use and one free. -/
theorem test_witness_remote_loads : badQueue Role.a [1] (some 3) = none ∧ badQueue Role.a [1] (some 32) = none ∧
    (stamped 0x3000001000000000 0).scalarReady [1] (some 3) = true ∧ (stamped 0x3000001000000000 0).scalarReady [1] none = true ∧ isQueue 32 = true ∧
    tfind (stamped 0 0).service.proxies 0x300 = none ∧ (tfind [(0x300, 0x010)] 0x300).isSome = true ∧ tfind ((stamped 0 0).niOf 1 0).tags 0 = none ∧
    ((65528 : Nat) % 8 = 0 ∧ (65528 : Nat) < 65536 ∧ ¬ (65536 : Nat) < 65536) := by decide

/-- RLD takes tag 0 and leaves its register waiting for it (R258, R259). -/
theorem test_rld : after (.rld 3 1 3 0) (stamped 0x3000001000000000 0) (fun t =>
    decide (t.me.pending = [⟨.x 3, .tag 0⟩]) && decide (t.net.length = 1) && (tfind (t.niOf 1 0).tags 0).isSome) = true := by decide +kernel

/-- Releases: COUNT at its limits, slots free and pending, and every state of a slot that RCPTW finds. -/
theorem test_witness_releases : Ready (stamped 0x3000001000000000 0) [1, 2] (some 3) ∧ Ready (stamped 0x3000001000000000 0) [1, 2, 5] (some 3) ∧
    Ready (stamped 0 0) [] (some 3) ∧ ((1 : Nat) ≤ 1 ∧ (1024 : Nat) ≤ 1024 ∧ ¬ (1 : Nat) ≤ 0 ∧ ¬ (1025 : Nat) ≤ 1024) ∧
    (tget ((stamped 0 0).niOf 1 0).rel {} 0).state = .free ∧ ((0x0A00000040000000#64).extractLsb' 24 11).toNat = 64 ∧ (stamped 0 0).inGroup = false ∧
    (let s : State := { stamped 0 0 with nis := [(1024, { rel := [(0, { state := .pending }), (1, { state := .complete }), (2, { state := .refused 4 9 }), (3, { state := .failed })] })] }
     (tget (s.niOf 1 0).rel {} 0).state = .pending ∧ (tget (s.niOf 1 0).rel {} 1).state = .complete ∧ (tget (s.niOf 1 0).rel {} 2).state = .refused 4 9 ∧
       (tget (s.niOf 1 0).rel {} 3).state = .failed) ∧
    (bench .a { member := { active := true } }).inGroup = true ∧ (bench .a { member := { active := true } }).inView 1 = false := by unfold Ready; decide +kernel

/-- RCPTW of a refused slot traps with cause 27 and RADDR, and frees it (R262). -/
theorem test_rcptw_refused : after (.rcptw 3 2) { stamped 0 0 with nis := [(1024, { rel := [(2, { state := .refused 4 9 })] })] } (fun t =>
    decide (t.me.tcause = 27) && decide (t.me.tval = 9) && decide ((tget (t.niOf 1 0).rel {} 2).state = .free)) = true := by decide +kernel

/-! ### Mixing -/

/-- A block of two elements 100 and -3 and mass 2 to the 48, so that its values are its elements; entry 0 is valid. -/
def mixed : Block :=
  { ctx := 1, cell := 0, num := 4095, e := 0, n := 2, nslot := 1, xpages := [0x20000], xoff := 0, spages := [0x30000], soff := 0
    m := 2 ^ 48, nbr := [(0, 0x8000000000000300#64)] }

/-- The number of the block in x1, another operand in x2, words at offset 16, and the block `k`. -/
def mixing (a b : Word) (k : Block := mixed) : State :=
  { bench .a (two a b) with
    contexts := [{ benchContext with mblimit := 4096 }], blocks := [(4095, k)]
    mem := [(0x20000, 100), (0x20008, 0xFD)] ++ ((List.range 7).map fun i => (0x20009 + i, 0xFF)) ++
      [(cellKey 0 0x12, 0xC0), (cellKey 0 0x13, 0x3F), (cellKey 0 0x16, 0x80), (cellKey 0 0x17, 0xBF)] }

/-- An exchange of the block that is outstanding. -/
def exchanging : Exchange := { half := [50, -2], mass := 2 ^ 47, entry := 0, chip := 0x300, slot := 3 }

/-- The ends of the range of a block's number, another context's block, the operands of MIXST, offsets at their limits, numbers that
fit and one that does not, a poisoned and a clean range, an exchange outstanding and not, entries valid and not. -/
theorem test_witness_mixing :
    Ready (mixing 4095 0) [1, 2] (some 3) ∧ Ready (mixing 4095 0) [1] (some 3) ∧ (tfind (mixing 4095 0).blocks 4095).isSome = true ∧
    mixed.ctx = (mixing 4095 0).myCtxId ∧ tfind (mixing 4094 0).blocks 4094 = none ∧ mixed.out = none ∧ mixed.n = 2 ∧
    ((mixing 4095 16).rangeQuiet 16 8 = true ∧ (mixing 4095 16).elems mixed = [100, -3] ∧ fitsElem 100 = true ∧ fitsElem (2 ^ 63) = false ∧
      (fp 0x3FC00000).isNan = false ∧ (fp 0x3FC00000).isInf = false ∧ (fp 0x7F800000).isInf = true ∧ (fp 0x7FC00000).isNan = true) ∧
    (0x5FFF8 % 4 = 0 ∧ 0x5FFF8 + 4 * 2 ≤ 0x60000 ∧ ¬ 0x5FFFC + 4 * 2 ≤ 0x60000) ∧ (0x5FFFC % 2 = 0 ∧ 0x5FFFC + 2 * 2 ≤ 0x60000) ∧
    ({ mixing 4095 16 with writes := [] } : State).writes = [] ∧ (∀ x ∈ span (cellKey 0 16) 8, (mixing 4095 16).poisonHere x = false) ∧ (mixing 4095 16).me.loads = [] ∧
    (let s : State := { mixing 4095 16 with poison := [quarterOf (cellKey 0 16)] }
     s.poisonHere (cellKey 0 16) = true ∧ sectorOf (cellKey 0 0) = sectorOf (cellKey 0 16) ∧ cellKey 0 0 ∉ span (cellKey 0 16) 8) ∧
    ((bench .a { loads := [{ id := 0, addr := 0, size := 8, signed := false, dst := none, ea := 0, acquire := true }] }).me.loads.map (·.acquire)) = [true] ∧
    (mixing 4095 16).mixRoom mixed = true ∧ (mixed.entry 0).getLsbD 63 = true ∧ (mixed.entry 15).getLsbD 63 = false ∧
    (∀ n, n < 16 → ¬ (({ mixed with nbr := [] } : Block).entry ((mixed.next + n) % 16)).getLsbD 63 = true) ∧
    rneInt false 3 (-1) = (2, true) ∧ rneInt true 5 0 = (-5, false) := by unfold Ready; decide +kernel

/-- MIXADD rounds each increment to nearest even and counts the inexact ones (R303). -/
theorem test_mixadd : after (.mixadd 3 1 2) (mixing 4095 16) (fun t =>
    decide (t.elems mixed = [102, -4]) && decide (t.me.xr 3 = 1)) = true := by decide +kernel

/-- MIXRD writes 100.0 and -3.0 (R304). -/
theorem test_mixrd : after (.mixrd 3 1 2 2) (mixing 4095 0x40) (fun t =>
    decide (t.natFor (.cell 0) (span (cellKey 0 0x40) 8) = 0xC040000042C80000) && decide (t.me.xr 3 = 2)) = true := by decide +kernel

/-- MIXST 0 reads the mass; 7 has no meaning (R305). -/
theorem test_mixst : xAfter (.mixst 3 1 2) (mixing 4095 0) 3 = some 0x1000000000000#64 ∧
    after (.mixst 3 1 2) (mixing 4095 7) (fun t => decide (t.me.tcause = 44) && decide (t.me.tval = 3)) = true := by decide +kernel

/-- MIXSTEP 1 names entry 0: it halves the block, rounding down, and sends two counted writes and a release (R306, R309). -/
theorem test_mixstep : after (.mixstep 3 1 2) (mixing 4095 1) (fun t =>
    decide (t.elems mixed = [50, -1]) && decide (t.me.xr 3 = 0) && decide (t.net.length = 3) &&
      (match tfind t.blocks 4095 with | some k => decide (k.m = 2 ^ 47) && k.out.isSome | none => false)) = true := by decide +kernel

/-- MIXWAIT answers LAST once no exchange is outstanding (R307). -/
theorem test_mixwait : xAfter (.mixwait 3 1) (mixing 4095 0 { mixed with last := 4 }) 3 = some 4 ∧
    xAfter (.mixwait 3 1) (mixing 4095 0 { mixed with out := some exchanging }) 3 = some 0 := by decide +kernel

/-- A free slot for an exchange, one outstanding, staged halves that fit the block and that do not. -/
theorem test_witness_exchanges :
    ((mixing 0 0).niOf mixed.ctx mixed.cell).freeSlot = some 0 ∧ ({ mixed with out := some exchanging } : Block).out = some exchanging ∧
    (tfind (mixing 0 0 { mixed with out := some exchanging }).blocks 4095 = some { mixed with out := some exchanging }) ∧
    (mixing 0 0).pagedNat mixed.spages mixed.soff 16 4 ≠ mixed.n ∧
    (let s : State := { mixing 0 0 with mem := [(0x30005, 0x80), (0x30010, 2), (0x30040, 1)] }
     s.pagedNat mixed.spages mixed.soff 16 4 = mixed.n ∧ (BitVec.ofNat 8 (s.pagedNat mixed.spages mixed.soff 8 1)).toInt = mixed.e ∧
       s.pagedNat mixed.spages mixed.soff 0 8 = 2 ^ 47 ∧
       (∀ x ∈ List.zipWith (· + ·) (List.zipWith (· + ·) (s.elems mixed) [1, 0]) mixed.half, fitsElem x = true) ∧
       (match s.absorb 4095 mixed 0 with
        | .ok t => decide (t.elems mixed = [1, 0]) && (match tfind t.blocks 4095 with | some k => decide (k.m = 2 ^ 48 + 2 ^ 47) | none => false)
        | .error _ => false) = true) := by decide +kernel

/-- An accepted exchange drops the half; a failed one adds it back and counts a failure (R311). -/
theorem test_exchange_ends :
    (match tfind ((mixing 0 0 { mixed with out := some exchanging }).endExchange 4095 0).blocks 4095 with
     | some k => decide (k.m = 2 ^ 48) && decide (k.exch = 1) && k.out.isNone | none => false) = true ∧
    (match tfind ((mixing 0 0 { mixed with out := some exchanging }).endExchange 4095 4).blocks 4095 with
     | some k => decide (k.m = 2 ^ 48 + 2 ^ 47) && decide (k.fails = 1) && decide (k.last = 4) | none => false) = true ∧
    ((mixing 0 0 { mixed with out := some exchanging }).endExchange 4095 4).elems mixed = [150, -5] := by decide +kernel

/-- A registration record at offset 0: block 4095, two elements at 0x1000000000 with mass 5, staging at 0x1000000040. -/
def registering (mem : Memory) : State :=
  { benchPage .a (two 0 0) 0x7 with
    contexts := [{ benchContext with mblimit := 4096 }]
    mem := mem ++ [(cellKey 0 0, 0xFF), (cellKey 0 1, 0x0F), (cellKey 0 5, 1), (cellKey 0 8, 2), (cellKey 0 0x14, 0x10), (cellKey 0 0x18, 0x40),
      (cellKey 0 0x1C, 0x10), (cellKey 0 0x28, 5)] }

/-- Every check of MIXREG passed; a record that is not; a store still on its way; a number that is registered. -/
theorem test_witness_registry :
    (let s := registering []
     let r := mixRecord (s.natFor (.cell 0) (span (cellKey 0 0) 64))
     let xs := pageStarts r.xbase (8 * r.n)
     let ss := pageStarts r.sbase (r.nslot * slotBytes r.n)
     Ready s [1] (some 3) ∧ s.allSettled 2 = true ∧ s.poisonedFor (.cell 0) (sectorOf (cellKey 0 0)) = false ∧ s.blocks.length < 4096 ∧ r.blk = 4095 ∧ r.ncnt = 0 ∧ r.ok 4096 = true ∧ r.ok 4095 = false ∧
       s.mixPageStop .load xs = none ∧ s.mixPageStop .store ss = none ∧ s.mixPagesOk xs (r.xbase + 8 * r.n - 1) = true ∧ s.mixPagesOk ss (r.sbase + r.nslot * slotBytes r.n - 1) = true ∧
       s.mixPoison (s.keptPages xs) r.xbase r.n = none ∧ tfind s.blocks 4095 = none) ∧
    (0x5FFC0 % 64 = 0 ∧ 0x5FFC0 + 64 ≤ 0x60000) ∧
    ({ bench .a { stores := [{ id := 0, target := .mem [(0, 1)], sector := 0, release := none, after := [], owned := none, quad := false }] } with fresh := 1 } : State).allSettled 2 = false ∧
    tfind (mixing 0 0).blocks 4095 ≠ none ∧
    (let s := registering []
     let u : State := { s with poison := [quarterOf (cellKey 0 0)] }
     let f : State := { registering [] with tlb := [], failedWalks := [(⟨0, .a⟩, 1, 0x1000000)] }
     u.poisonedFor (.cell 0) (sectorOf (cellKey 0 0)) = true ∧ pageStarts 0x1000000000 16 = [] ++ 0x1000000000 :: [] ∧
       f.transFor ⟨0, .a⟩ 1 0x1000000000 = .fail ∧ inTranslated 0x1000000000 = true ∧ s.transFor ⟨0, .a⟩ 1 0x1000000000 = .leaf 7 4 ∧
       s.reaches 7 4 0x1000000000 .load = true ∧ s.reaches 5 4 0x1000000000 .load = false ∧ (3#64).getLsbD 2 = false) := by unfold Ready; decide +kernel

/-- MIXREG registers the block that the record describes (R297, R301). -/
theorem test_mixreg : after (.mixreg 3 1) (registering []) (fun t =>
    match tfind t.blocks 4095 with
    | some k => decide (k.m = 5) && decide (k.n = 2) && decide (t.me.xr 3 = 0) && decide (t.elems k = [0, 0])
    | none => false) = true := by decide +kernel

/-- The state of the control instructions of a block, with their word: b names x2 and d names x3. -/
def controlled (b c : Word) (k : Block := mixed) : State :=
  let s := mixing 4095 b k
  { s with cells := [(0, { resident := some 1, ctx := ({} : CellCtx).setCore .a { two 4095 b with x := [(1, 4095), (2, b), (4, c)] } })]
           cur := { core := ⟨0, .a⟩, word := BitVec.ofNat 128 (3 * 2 ^ 15 + 1 * 2 ^ 21 + 2 * 2 ^ 39 + 4 * 2 ^ 45) } }

/-- Operations 0 to 3 and 4, an operand with bits outside the operation's, and the registers that the word names. -/
theorem test_witness_block_control :
    ((controlled 0xF0 0).sval [1] 2 = 0xF0) ∧ Ready (controlled 0 0) [1, 2, 4] (some 3) ∧
    ((Raw.ofWord (controlled 0 0).cur.word).d = 3 ∧ (Raw.ofWord (controlled 0 0).cur.word).a = 1 ∧ (Raw.ofWord (controlled 0 0).cur.word).b = 2 ∧
      (Raw.ofWord (controlled 0 0).cur.word).c = 4) ∧
    ((0xF3#64).toNat % 16 = 3 ∧ 0xF3#64 &&& ~~~ 0xFF#64 = 0 ∧ 0x101#64 &&& ~~~ 0x10F#64 = 0 ∧ 0xFF02#64 &&& ~~~ 0xFF0F#64 = 0 ∧
      0x10#64 &&& ~~~ 0xF#64 ≠ 0 ∧ 4 ≤ (4#64).toNat % 16 ∧ (0x10000#64).toNat ≥ 65536) ∧
    ¬ ({ mixing 0 0 with now := 1024 } : State).now < 1024 ∧ ({ mixing 0 0 with now := 1023 } : State).now < 1024 := by
  unfold Ready; decide +kernel

/-- DEREG answers the mass and drops the block (R313). -/
theorem test_dereg : after (.dereg 3 1 2 4) (controlled 0 0) (fun t =>
    decide (t.me.xr 3 = 0x1000000000000#64) && t.blocks.isEmpty) = true := by decide +kernel

/-- AUTO and SHARE replace the switch and the share and answer the old ones (R313). -/
theorem test_auto_share : after .auto (controlled 0x101 0) (fun t =>
      decide (t.me.xr 3 = 0) && (match tfind t.blocks 4095 with | some k => k.auto | none => false)) = true ∧
    after .share (controlled 0x1202 0) (fun t => decide (t.me.xr 3 = BitVec.ofNat 64 ((controlled 0 0).share 1 0)) && decide (t.share 1 0 = 0x12)) = true := by
  decide +kernel

/-- NBRSET replaces entry 15 and clears its sequence number (R298, R313). -/
theorem test_nbrset : after .nbrset (controlled 0xF3 0x8000000000000301) (fun t =>
    match tfind t.blocks 4095 with
    | some k => decide (k.entry 15 = 0x8000000000000301#64) && decide (t.me.xr 3 = 0)
    | none => false) = true := by decide +kernel

/-- An interval starts an exchange of a block with AUTO on, once 1024 cycles are over (R308). -/
theorem test_mix_interval : after .mixInterval
    { mixing 0 0 { mixed with auto := true } with now := 1024, args := { ctx := 1 }, shares := [(mixKey 1 0, 255)] } (fun t =>
      (match tfind t.blocks 4095 with | some k => k.out.isSome | none => false) && decide (tget t.mixTime 0 (mixKey 1 0) = 1024)) = true := by
  decide +kernel

/-! ### Messages, firings and launches -/

/-- CTL of an enabled channel of the a core with CONSUME 1, PRODUCE 1, priority 5 and its handler at 0x4000. -/
def openCtl : Word := 0x9411000000004000#64

/-- A firing of launch 9 that consumed slot 7 and has one entry reserved. -/
def fired : Firing := { channel := 0, slots := [7], popped := 0, produce := 1, lid := 9 }

/-- A firing, its launch, channel 63 open. -/
def sending (a b : Word) (f : Firing := fired) : State :=
  { bench .a { two a b with firing := some f } { pigeons := [(63, { ctl := openCtl })] } with
    launches := [(9, { ctx := 1, cls := 2, persistent := false, first := 0, ncell := 1, wdog := 1, energy := 10, crec := 0, user := 0, parent := none })]
    mem := [(cellKey 0 0x5FFD0, 0x5A)] }

/-- In a firing, outside one and in trap mode; addresses of this chip and of another; offsets at the ends of their range; a cell without
the context; a channel that is not open; no entry reserved; a poisoned payload; no more messages to pop; a line of a channel. -/
theorem test_witness_messages :
    (sending 0x0003000000000FFF 0).me.trapMode = false ∧ (sending 0 0).me.firing = some fired ∧ (bench .a {}).me.firing = none ∧
    ({ two 0 0 with tstat := 1 } : Core).trapMode = true ∧
    badQueue Role.a [1, 2, 0] none = none ∧ badQueue Role.a [] (some 3) = none ∧ badQueue Role.a [2] (some 3) = none ∧
    Ready (sending 0x000300000000003F 0x5FFD0) [1, 2, 0] none ∧ Ready (sending 63 64) [1] (some 3) ∧ Ready (sending 0 0) [] (some 3) ∧
    ((0x000300000000003F#64).toNat / 2 ^ 48 % 16 = 3 ∧ (0x000300000000003F#64).extractLsb' 52 12 = (sending 0 0).chip ∧
      (0x000300000000003F#64).toNat % 2 ^ 48 < 65536 ∧ (0x000300000000FFFF#64).toNat % 2 ^ 48 < 65536 ∧
      ¬ (0x0003000000010000#64).toNat % 2 ^ 48 < 65536) ∧
    (0x5FFD0 % 16 = 0 ∧ 0x5FFD0 + 48 ≤ 0x60000 ∧ 0x60000 < 0x5FFE0 + 48 ∧ (8 : Nat) % 16 ≠ 0) ∧
    ((sending 0 0).held (sending 0 0).myCtxId 0).isSome = true ∧ (sending 0 0).held (sending 0 0).myCtxId 1 = none ∧
    (openCtl.getLsbD 63 = true ∧ (0#64).getLsbD 63 = false) ∧ (0 < fired.produce ∧ ({ fired with produce := 0 } : Firing).produce = 0) ∧
    (∀ y ∈ span (cellKey 0 0x5FFD0) 48, (sending 0 0).poisonHere y = false ∧ (sending 0 0).me.mayPerform 0 (sectorOf y) = true) ∧
    ({ sending 0 0 with poison := [quarterOf (cellKey 0 0x5FFD0)] } : State).poisonHere (cellKey 0 0x5FFD0) = true ∧
    fired.slots[fired.popped]? = some 7 ∧ ({ fired with popped := 1 } : Firing).slots.length ≤ 1 ∧ (sending 0 0).myCtxId < 65536 ∧
    (64 ≤ (64 : Nat) ∧ (63 : Nat) < 64) ∧ (sending 0 0).myCtx.poste = [] := by unfold Ready; decide +kernel

/-- MSEND of the last 48 bytes of the scratchpad: the payload, TAG, the channel and the launch (R345, R352). -/
theorem test_msend : after (.msend 1 2 2) (sending 0x000300000000003F 0x5FFD0) (fun t =>
    t.me.sendBuffer.any (fun e => decide (e.msg.body.toNat % 2 ^ 32 = 0x5FFD0) && decide (e.msg.body.toNat / 2 ^ 70 % 64 = 63) &&
      decide (e.msg.body.toNat / 2 ^ 48 % 65536 = 9) && decide (e.msg.body.toNat / 2 ^ 128 = 0x5A)) &&
    (match tfind t.launches 9 with | some l => decide (l.inflight = 1) | none => false)) = true := by decide +kernel

/-- MPOP answers the slot's address in the control page (R341, R354); MLEN an empty line. -/
theorem test_mpop_mlen : xAfter (.mpop 3) (sending 0 0) 3 = some 0x1041C0#64 ∧ xAfter (.mlen 3 1) (sending 63 0) 3 = some 0 := by decide

/-- FEND ends the chain and the firing (R355). -/
theorem test_fend : after .fend (sending 0 0) (fun t => t.me.firing.isNone && decide (t.me.c0 = 0) && !t.me.s1 &&
    (match tfind t.launches 9 with | some l => decide (l.after.length = 1) | none => false)) = true := by decide +kernel

/-- A store to CTL on its way and none; a deterministic channel of a member and a plain one; priorities 7 and 8. -/
theorem test_witness_channels :
    (sending 0 0).me.controlPending (0x2000 + 64 * 63) = false ∧
    (bench .a { stores := [{ id := 0, target := .control (0x2000 + 64 * 63) 0, sector := 0, release := none, after := [], owned := none, quad := false }] }).me.controlPending (0x2000 + 64 * 63) = true ∧
    (bench .a { member := { active := true } }).inGroup = true ∧ (0xC000000000000000#64).getLsbD 62 = true ∧ openCtl.getLsbD 62 = false ∧
    Ready (bench .a (two 7 0)) [1] none ∧ ((7#64).toNat < 8 ∧ 8 ≤ (8#64).toNat) ∧ Ready (bench .a {}) [] (some 3) := by unfold Ready; decide

/-- CHMASK, CHPRIO and CHRD on channel 63 (R347, R356). -/
theorem test_channels :
    after (.chmask 63) (sending 0 0) (fun t => decide ((tget t.myCtx.pigeons {} 63).ctl = 0xB411000000004000#64)) = true ∧
    after (.chprio 1 63) (sending 7 0) (fun t => decide ((tget t.myCtx.pigeons {} 63).ctl = 0x9C11000000004000#64)) = true ∧
    xAfter (.chrd 3 63) (sending 0 0) 3 = some openCtl := by decide

/-- CHUNMASK clears bit 61 only (R356). -/
theorem test_chunmask : after (.chunmask 0) (bench .a {} { pigeons := [(0, { ctl := 0xFFFFFFFFFFFFFFFF#64 })] }) (fun t =>
    decide ((tget t.myCtx.pigeons {} 0).ctl = 0xDFFFFFFFFFFFFFFF#64)) = true := by decide

/-- A line of one message on each of two channels of the a core; priority 5 beats 4. -/
def lined : State :=
  bench .a {} { pigeons := [(3, { ctl := 0x9011000000004000#64 }), (63, { ctl := openCtl })], lines := [(3, [1]), (63, [0])], taken := [0, 1] }

/-- The selection has a result and can have none. -/
theorem test_witness_selection : lined.selected lined.cur.core = some 63 ∧ (bench .a {}).selected ⟨0, .a⟩ = none := by decide +kernel

/-- FIRING_BEGIN consumes the message and starts at the handler (R350, R351). -/
theorem test_firing_begin : after .firingBegin lined (fun t =>
    decide (t.me.c0 = 0x4000#48) && decide (t.me.xr 1 = 63) && decide (t.me.xr 2 = 1) && decide (tget t.myCtx.lines [] 63 = []) &&
      (match t.me.firing with | some f => decide (f.slots = [0]) && decide (f.produce = 1) | none => false)) = true := by decide +kernel

/-- A message of channel 3 in a send buffer, and the same among the initial messages. -/
def mailed (x : CellCtx) : State :=
  let m := messageOf 0x77 1 0 0 0 0 0 3 9 5
  { bench .a { sendBuffer := [⟨m, [], 0⟩] } x with initial := [m] }

/-- A message that leaves and one that waits behind an older one or an unsettled access; every slot taken, and one free. -/
theorem test_witness_messages_leave :
    ((mailed {}).coreOf ⟨0, .a⟩).sendBuffer[0]? = some ⟨messageOf 0x77 1 0 0 0 0 0 3 9 5, [], 0⟩ ∧ (mailed {}).initial[0]? = some (messageOf 0x77 1 0 0 0 0 0 3 9 5) ∧
    (messageOf 0x77 1 0 0 0 0 0 3 9 5).cell = 0 ∧ (messageOf 0x77 1 0 0 0 0 0 3 9 5).ch = 3 ∧ (messageOf 0x77 1 0 0 0 0 0 3 9 5).ctx = 1 ∧
    (mailed {}).residentIn 0 = some 1 ∧ ¬ (((tget (mailed {}).myCtx.pigeons {} 3).ctl).getLsbD 62 = true) ∧ (mailed {}).settled ⟨0, .a⟩ [] 2 = true ∧
    (mailed {}).myCtx.poste = [] ∧ (255 ∉ (mailed {}).myCtx.taken) ∧
    (mailed { poste := [(⟨0⟩, true)] }).myCtx.poste ≠ [] := by decide +kernel

/-- Every inbox slot taken. -/
theorem test_witness_inbox_full : ∀ j, j < 256 → j ∈ (mailed { taken := List.range 256 }).myCtx.taken := by
  intro j h
  have g : ∀ l, (mailed { taken := l }).myCtx.taken = l := fun _ => rfl
  rw [g]
  exact List.mem_range.mpr h

/-- The message leaves the send buffer, and one slot more is taken (R353); which one being free (log 23, DESIGN CHOICE), nothing is said of it. -/
theorem test_message_lands : after .messageLeavesSendBuffer { mailed {} with args := { core := ⟨0, .a⟩ } } (fun t =>
    t.me.sendBuffer.isEmpty && decide (t.myCtx.taken.length = 1)) = true := by decide +kernel

/-- A launch packet at offset 0 of the scratchpad for context 1: class 1, one cell. -/
def launching (b : Word) (ctx : Byte) : State :=
  { sending 0 b with mem := [(cellKey 0 0, ctx), (cellKey 0 2, 1), (cellKey 0 10, 1)] }

/-- MLAUNCH with its checks passed and with each one failed; the device's queue full and its numbers used up. -/
theorem test_witness_mlaunch :
    (launching 0 1).me.firing = some fired ∧ (tfind (launching 0 1).launches fired.lid).isSome = true ∧ Ready (launching 0 1) [2] (some 3) ∧
    (let keys := span (cellKey 0 0) 64
     let w : Vec := BitVec.ofNat 512 (bytesToNat ((launching 0 1).loadBytes ⟨0, .a⟩ (launching 0 1).fresh keys))
     vecBytes w 0 2 = (launching 0 1).myCtxId ∧ launchRsv w = false ∧ (∀ y ∈ keys, (launching 0 1).poisonHere y = false ∧ (launching 0 1).me.mayPerform 0 (sectorOf y) = true)) ∧
    (launching 0 1).recordDue 1 = false ∧
    (0x5FFC0 % 64 = 0 ∧ 0x5FFC0 + 64 ≤ 0x60000 ∧ (0x60000 : Nat) < 0x60000 + 64) ∧ (launching 0 1).deviceQueue.length < 256 ∧
    256 ≤ (List.replicate 256 ((1 : Nat), (0 : Vec))).length ∧ tfind (launching 0 1).launches 1 = none ∧
    (∀ l, 1 ≤ l → l < 1 → tfind (launching 0 1).launches l ≠ none) := by
  refine ⟨by decide, by decide, by unfold Ready; decide, by decide +kernel, by decide, by decide, by decide, by decide +kernel, by decide, ?_⟩
  intro l h1 h2; omega

/-- MLAUNCH queues the packet under the lowest free number (R362). -/
theorem test_mlaunch : after (.mlaunch 3 2) (launching 0 1) (fun t =>
    decide (t.me.xr 3 = 1) && decide (t.deviceQueue.length = 1) &&
      (match tfind t.launches 1 with | some l => decide (l.cls = 1) && decide (l.parent = some 9) && l.queued | none => false)) = true := by
  decide +kernel

/-- A packet in the device's queue while the host parses launches and while it does not, refused and accepted; a host queue to serve and none; a launch done and not; timers before, at and
after their limits. -/
theorem test_witness_launches :
    (match ({ sending 0 0 with contexts := [] } : State).parseLaunch 0 with | .error r => decide (r = 1) | .ok _ => false) = true ∧
    (match (sending 0 0).parseLaunch (BitVec.ofNat 512 (2 ^ 80 + 1)) with | .ok ms => ms.isEmpty | .error _ => false) = true ∧
    (({} : State).nextHostQueue = none ∧
      ({ hostQueues := [(7, { qcfg := 0x8000000000000004#64, tail := 1 })] } : State).nextHostQueue = some 7 ∧ ({} : State).freeLid = some 1) ∧
    (2 ∉ (sending 0 0).service.assisted ∧ 2 ∈ ({ assisted := [2] } : Service).assisted ∧ 0 < (sending 0 0).classOf 9) ∧
    (match tfind (sending 0 0).launches 9 with
     | some l => !({ sending 0 0 with copies := [{ inFlight [] with lid := 9 }] } : State).launchDone 9 l && ({ sending 0 0 with cells := [] } : State).launchDone 9 l
     | none => false) = true ∧
    ((1023 : Nat) < 1 * 1024 ∧ 1 * 1024 ≤ 1024 ∧ (1023 : Nat) < 0 + 1024 ∧ 0 + 1024 ≤ 1024) ∧ (9 + 0 < 10 ∧ 10 ≤ 9 + 1) := by
  refine ⟨by decide +kernel, by decide +kernel, ⟨by decide, by decide, by decide +kernel⟩, by decide, by decide +kernel, by decide, by decide⟩

/-- A packet with NCELL 0 is refused, and its number is free again (R359, R361). -/
theorem test_launch_refused : after .launchPacket { sending 0 0 with deviceQueue := [(9, 1)] } (fun t => (tfind t.launches 9).isNone) = true := by
  decide +kernel

/-- A budget that is used up costs a class (R363); the watchdog names the launch to its cores (R364). -/
theorem test_meter_watchdog :
    (match tfind ((sending 0 0).meter 9 10).launches 9 with | some l => decide (l.cls = 1) && decide (l.used = 10) && decide (l.metered = 0) | none => false) = true ∧
    after .watchdog { sending 0 0 with
        launches := (sending 0 0).launches.map fun e => (e.1, { e.2 with watch := [(0, 1024)] }), args := { lid := 9 } } (fun t =>
      decide ((t.coreOf ⟨0, .a⟩).watchdog = some 9)) = true := by decide +kernel

/-! ### Packets at their target and at their sender -/

/-- The network holds one packet, which stays on this chip; cell 0 lets context 1 of every chip store and do atomics at its offsets 0 to 0x3FF. -/
def carrying (p : Packet) : State :=
  { bench .a {} { windows := [(0, 0xF800000000000000#64 ||| BitVec.ofNat 64 (16 * 2 ^ 32))] } with
    net := [{ packet := p, outbound := false, offered := false }] }

/-- A counted write of one byte 0x5A at offset 0x40 of cell 0, from chip 0x300, of context `ctx`, counter `ctr`, sequence number `seq`. -/
def writing (ctr seq : Nat) (ctx : Nat := 1) : Packet :=
  { (packetOf 0 0 0x300 5 ctx 0x0001000100000040#64).withPayload [0x5A] with
    ctr := BitVec.ofNat 13 ctr, seq := BitVec.ofNat 16 seq, bytes := 1 }

/-- A counted write that is whole and one that is not; contexts and counters that exist and do not; every place a sequence number can have;
an address that the store accepts and one outside every window. -/
theorem test_witness_counted_write :
    ((carrying (writing 15 0)).arrived 0 = some (writing 15 0)) ∧ (writing 15 0).pcrc = crc32c (writing 15 0).payload ∧
    ({ writing 15 0 with pcrc := 0 } : Packet).pcrc ≠ crc32c [0x5A] ∧ (carrying (writing 15 0 2)).context 2 = none ∧
    (carrying (writing 15 0)).context 1 = some benchContext ∧ (benchContext.climit ≤ (16#13 : BitVec 13).toNat ∧ (15#13 : BitVec 13).toNat < benchContext.climit) ∧
    ((((65535#16 : BitVec 16) - 0).toNat ≥ 32768) ∧ ((1024#16 : BitVec 16) - 0).toNat = 1024 ∧ ((1023#16 : BitVec 16) - 0).toNat < 1024 ∧
      ((32767#16 : BitVec 16) - 0).toNat < 32768) ∧
    (tget ({} : Counter).pos .awaited 1023 = .awaited) ∧ ((tget ({ pos := [(1023, .arrived)] } : Counter).pos .awaited 1023) ≠ .awaited) ∧
    ({} : Counter).pending = [] ∧
    (match (carrying (writing 15 0)).storePayload (writing 15 0) with | .ok _ => true | .error _ => false) = true ∧
    (match (carrying (writing 15 0)).storePayload { writing 15 0 with addr := 0x0001000100000400#64 } with | .ok _ => false | .error r => decide (r = .refuse 1)) = true := by
  decide +kernel

/-- An address whose translation needs a walk; a write behind one that waits for a walk; a record to a chip, to a group of which the chip is
a member, and to neither. -/
theorem test_witness_walks_and_records :
    (match (carrying (writing 15 0)).storePayload { writing 15 0 with addr := 0x0000001000000040#64 } with
      | .ok _ => false | .error r => decide (r = .walk 0x1000000040)) = true ∧
    (match (carrying (writing 15 0)).fabKeys 1 0x300 0x0000001000000040#64 4 .load with
      | .ok _ => false | .error r => decide (r = .walk 0x1000000040)) = true ∧
    (let it : NetItem := { packet := writing 15 0, outbound := false, offered := false, waits := true }
     it.waits = true ∧ it.outbound = false ∧ it.packet.kind = 0 ∧ it ∈ ([it] : List NetItem).take 1) ∧
    (let r : SendRec := { packet := writing 15 0, source := .data, sent := [] }
     r.sentTo 0 = true ∧ r.sentTo 0x300 = false ∧ ((0x300#12, 1#3) ∉ r.sent)) ∧
    (let g : State := { benchPage .a {} 7 with
        contexts := [{ benchContext with gtbase := 0x1000000000 }], mem := [(0, 1), (1, 1), (0x11, 3)] }
     g.groupOf 1 0 = .members [0x300]) := by decide +kernel

/-- A counted write is stored and its position arrives, at the last position of the horizon (R241, R242). -/
theorem test_counted_write : after .countedWrite (carrying (writing 15 1023)) (fun t =>
    decide ((t.counter 31).count = 1) && decide (tget (t.counter 31).pos .awaited 1023 = .arrived) && decide (t.mem = [(cellKey 0 0x40, 0x5A)]) &&
      t.net.isEmpty) = true := by decide +kernel

/-- A release of `count` writes from sequence number `seq` on, counter 15, with an 8-byte flag 7 at offset 0x80 of cell 0. -/
def releasing (seq count : Nat) : Packet :=
  { packetOf 4 0 0x300 5 1 0x0001000100000080#64 with
    ctr := 15, seq := BitVec.ofNat 16 seq, bytes := BitVec.ofNat 11 count, fsz := 3, fval := 7, rslot := 2 }

/-- Counter 31 of the chip in a given state. -/
def counting (p : Packet) (t : Counter) : State := { carrying p with counters := [(31, t)] }

/-- Windows behind the horizon, beyond it and at its end, released, the same again, overlapping; releases that wait, are complete, have a
refused position; outcome records at their limit; flags that are stored and refused. -/
theorem test_witness_releases_complete :
    (carrying (releasing 0 1)).arrived 4 = some (releasing 0 1) ∧ ((releasing 0 1).ctr.toNat < benchContext.climit) ∧
    (32768 ≤ (((0xFFFF#16 : BitVec 16) - 0).toNat) ∧ ((0xFFFF#16 : BitVec 16) - 0).toNat + 1 ≤ 65536) ∧
    (1024 < 1 + (1024 : Nat) ∧ 0 + 1024 ≤ 1024) ∧
    (tget ({ pos := [(0, .released)] } : Counter).pos .awaited 0 = .released) ∧
    ({ pending := [{ packet := releasing 0 2, round := 1, deadline := 0 }] } : Counter).pending.length = 1 ∧ (1 < 0 + 2 ∧ 0 < 1 + 1) ∧
    (∃ j, j < (releasing 0 1).bytes.toNat ∧ tget ({} : Counter).pos .awaited (((releasing 0 1).seq - 0).toNat + j) = .awaited) ∧
    ¬ (∃ j, j < (releasing 0 1).bytes.toNat ∧ tget ({ pos := [(0, .arrived)] } : Counter).pos .awaited (((releasing 0 1).seq - 0).toNat + j) = .awaited) ∧
    (tget ({ pos := [(1, .refused 3 9), (0, .arrived)] } : Counter).pos .awaited 1 = .refused 3 9) ∧
    64 ≤ (List.replicate 64 ({ start := 0, count := 1, status := 0, reason := 0, raddr := 0, time := 0 } : OutcomeRec)).length ∧ faKind (releasing 0 1).addr ≠ 4 ∧
    (match (carrying (releasing 0 1)).storeFlag (releasing 0 1) with | .ok _ => true | .error _ => false) = true ∧
    (match (carrying (releasing 0 1)).storeFlag { releasing 0 1 with addr := 0x0001000100000400#64 } with | .ok _ => false | .error r => decide (r = .refuse 1)) = true ∧
    ((640063 : Nat) < 0 + 32 * 20002 ∧ 0 + 32 * 20002 ≤ 640064) := by decide +kernel

/-- A release whose position has arrived writes its flag, answers status 0 and moves the horizon by one (R243, R244, R246). -/
theorem test_release : after .release (counting (releasing 0 1) { pos := [(0, .arrived)], count := 1 }) (fun t =>
    decide ((t.counter 31).base = 1) && decide (t.natLast (cellKey 0 0x80) 8 = 7) && decide ((t.counter 31).outcomes.length = 1) &&
      t.net.all (fun i => decide (i.packet.kind = 5) && decide (i.packet.dchip = 0x300) && decide (i.packet.status = 0) && i.outbound)) = true := by decide +kernel

/-- A refused position: status 1 with its reason and address, and no flag (R244). -/
theorem test_release_refused : after .release (counting (releasing 0 1) { pos := [(0, .refused 3 9)] }) (fun t =>
    t.mem.isEmpty && t.net.all (fun i => decide (i.packet.status = 1) && decide (i.packet.reason = 3) && decide (i.packet.addr = 9))) = true := by decide +kernel

/-- An outcome record expires after 32 T (R246). -/
theorem test_outcome_expiry :
    after .outcomeRecordExpiry { counting (releasing 0 1) { outcomes := [{ start := 0, count := 1, status := 0, reason := 0, raddr := 0, time := 0 }] } with
      timeout := 2000, now := 64000, args := { ctr := 31 } } (fun t => (t.counter 31).outcomes.isEmpty) = true := by decide +kernel

/-- A pending release of counter 31 in round `r`. -/
def rounds (r : Nat) : State :=
  { counting (releasing 0 1) { pending := [{ packet := releasing 0 1, round := r, deadline := 100 }] } with now := 100, timeout := 2000, args := { ctr := 31 } }

/-- A slot of the interface of context 1 in cell 5, which awaits the answer to the release of slot 2. -/
def answering (p : Packet) (r : RelSlot) : State :=
  { carrying p with nis := [(1 * 1024 + 5, { rel := [(2, r)] })], now := 100, timeout := 2000, args := { ctx := 1, cell := 5, slot := 2 } }

/-- What the release of slot 2 awaits. -/
def awaiting (round : Nat) : RelSlot :=
  { state := .pending, ctr := 15, start := 0, count := 1, packet := some (releasing 0 1), round := round, deadline := 100 }

/-- The receipt, NACKs and the notice that answer it. -/
def answers (type : Nat) : Packet :=
  { packetOf type 0 0x300 5 1 9 with ctr := 15, seq := 0, bytes := 1, rslot := 2, status := 1, reason := 3, answers := 2, round := 1 }

/-- Rounds 4 and 5 expired and not, at the target and at the sender; answers that are awaited and that are not; 16 deferred events and
fewer. -/
theorem test_witness_rounds :
    (((rounds 4).counter 31).pending[(rounds 4).args.index]? = some { packet := releasing 0 1, round := 4, deadline := 100 }) ∧
    ((rounds 4).now < 101 ∧ 100 ≤ (rounds 4).now) ∧ (4 < 5 ∧ 5 ≤ 5) ∧ ((rounds 5).counter 31).outcomes.length < 64 ∧ (releasing 0 1).bytes.toNat ≤ 1024 ∧
    (releasing 0 1024).bytes.toNat ≤ 1024 ∧
    (tget ((answering (answers 5) (awaiting 4)).niOf 1 5).rel {} 2 = awaiting 4) ∧ (awaiting 4).packet = some (releasing 0 1) ∧
    (awaiting 4).state = .pending ∧ (awaiting 4).round ≠ 0 ∧ (awaiting 0).round = 0 ∧ ({ awaiting 4 with state := .failed } : RelSlot).state ≠ .pending ∧
    ((answering (answers 5) (awaiting 1)).arrived 5 = some (answers 5)) ∧ ((answering (answers 3) (awaiting 1)).arrived 3 = some (answers 3)) ∧
    ((answering (answers 6) (awaiting 1)).arrived 6 = some (answers 6)) ∧ 1 ∉ (answering (answers 6) (awaiting 1)).service.assisted ∧
    ((awaiting 1).ctr = (answers 5).ctr.toNat ∧ (awaiting 1).start = (answers 5).seq ∧ (awaiting 1).mixing = none) ∧ ((answers 3).answers = 2) ∧
    (({ answers 3 with answers := 0 } : Packet).answers = 0) ∧ (answering (answers 3) (awaiting 1)).niEvents 1 0 = 0 ∧
    (bench .a { events := List.replicate 16 { cause := 27, tval := 0 } }).niEvents 1 0 = 16 := by decide +kernel

/-- A round at the target sends one notice and doubles the time; round 5 ends with status 2 (R248, R249). -/
theorem test_round_expiry :
    after .roundExpiry (rounds 2) (fun t => decide (t.net.length = 2) && (t.counter 31).pending.all fun r => decide (r.round = 3) && decide (r.deadline = 100 + 2000 * 4)) = true ∧
    after .roundExpiry (rounds 5) (fun t => (t.counter 31).pending.isEmpty && t.net.any fun i => decide (i.packet.kind = 5) && decide (i.packet.status = 2)) = true := by
  decide +kernel

/-- At the sender a round sends the release again, and round 5 is the last (R249). -/
theorem test_sender_round :
    after .senderRoundExpiry (answering (answers 5) (awaiting 4)) (fun t => decide ((tget (t.niOf 1 5).rel {} 2).round = 5) && decide (t.net.length = 2)) = true ∧
    after .senderRoundExpiry (answering (answers 5) (awaiting 5)) (fun t => decide ((tget (t.niOf 1 5).rel {} 2).state = .failed)) = true := by decide +kernel

/-- A receipt of status 1 and a NACK refuse the slot; a notice of its round is noted (R245, R249, R262, R265). -/
theorem test_answers :
    after .receipt (answering (answers 5) (awaiting 1)) (fun t => decide ((tget (t.niOf 1 5).rel {} 2).state = .refused 3 9)) = true ∧
    after .nackPacket (answering (answers 3) (awaiting 1)) (fun t => decide ((tget (t.niOf 1 5).rel {} 2).state = .refused 3 9)) = true ∧
    after .shortfallNotice (answering { answers 6 with payload := List.replicate 32 0, status := 0 } (awaiting 1)) (fun t =>
      decide ((tget (t.niOf 1 5).rel {} 2).noticed = [(answers 6).round.toNat])) = true := by decide +kernel

/-- A read request of four bytes at offset 0x40 of cell 0, and a fetch-and-add of 5 there. -/
def asking (add : Bool) (addr : Word := 0x0001000100000040#64) : Packet :=
  { packetOf 1 0 0x300 5 1 addr with size := 2, fetchAdd := add, data := 5, ltag := 4, atag := 77 }

/-- A tag of the A-core of cell 5, which waits for x3. -/
def tagged (round : Nat) : LoadTag := { packet := asking false, dst := some (.x 3), signed := true, fa := 0x40, round := round, deadline := 100, id := 0 }

/-- The interface of cell 5 with that tag, and the network with `p`. -/
def waiting (p : Packet) (round : Nat) : State :=
  { carrying p with
    cells := [(5, { resident := some 1, ctx := { coreA := { pending := [⟨.x 3, .tag 4⟩] } } })]
    nis := [(1 * 1024 + 5, { tags := [(4, tagged round)] })], now := 100, timeout := 2000, args := { ctx := 1, cell := 5, slot := 4 } }

/-- The reply to it. -/
def replying (status : BitVec 2) : Packet :=
  { packetOf 2 0 0x300 5 1 0x0001000100000040#64 with size := 2, data := 0x80000000, ltag := 4, atag := 77, status := status }

/-- Requests of every sort; kept replies; replies that answer and do not; rounds 4 and 5. -/
theorem test_witness_remote :
    (carrying (asking false)).arrived 1 = some (asking false) ∧ (asking false).fetchAdd = false ∧ faKind (asking false).addr ≠ 2 ∧
    faKind (0x0002000000000078#64) = 2 ∧ (faAddr 0x0002000000000078#64 / 8 < benchContext.climit ∧ benchContext.climit ≤ faAddr 0x0002000000000080#64 / 8) ∧
    (match (carrying (asking false)).fabKeys 1 0x300 (asking false).addr 4 .load with | .ok (ks, e) => decide (ks = span (cellKey 0 0x40) 4) && e.isNone | .error _ => false) = true ∧
    (match (carrying (asking true)).fabKeys 1 0x300 (asking true).addr 4 .atomic with | .ok (ks, _) => decide (ks.head? = some (cellKey 0 0x40)) | .error _ => false) = true ∧
    (match (carrying (asking true)).fabKeys 1 0x300 0x00010001000003FD#64 4 .atomic with | .ok _ => false | .error r => decide (r = .refuse 1)) = true ∧
    (carrying (asking true)).kept = [] ∧
    (([{ schip := 0x300, scell := 5, atag := 77, poison := false, data := 9 }] : List KeptReply).find? fun k =>
      decide (k.schip = (asking true).schip.toNat) && decide (k.scell = (asking true).scell.toNat) && decide (k.atag = (asking true).atag)).isSome = true ∧
    MemoryOk (carrying (asking true)) ∧ (carrying (asking true)).poisonedLast (sectorOf (cellKey 0 0x40)) = false ∧
    (waiting (replying 0) 4).arrived 2 = some (replying 0) ∧ tfind ((waiting (replying 0) 4).niOf 1 5).tags 4 = some (tagged 4) ∧
    ((waiting (replying 0) 4).niOf 1 5).late = [] ∧ (tagged 4).cancelled = false ∧ (waiting (replying 0) 4).saving 1 5 = false ∧
    tfind ((carrying (replying 0)).niOf 1 5).tags 4 = none ∧ (replying 1).status ≠ 0 ∧ (waiting (replying 1) 4).niEvents 1 5 < 16 ∧
    (99 < (tagged 4).deadline ∧ (tagged 4).deadline ≤ 100) := by unfold MemoryOk; decide +kernel

/-- A read answers the bytes; a fetch-and-add the old value, once (R258, R259). -/
theorem test_read_request :
    after .readRequest { carrying (asking false) with mem := [(cellKey 0 0x43, 0x80)] } (fun t => t.net.all fun i =>
      decide (i.packet.kind = 2) && decide (i.packet.data = 0x80000000) && decide (i.packet.ltag = 4)) = true ∧
    after .readRequest { carrying (asking true) with mem := [(cellKey 0 0x40, 0xFF)] } (fun t =>
      decide (t.natLast (cellKey 0 0x40) 4 = 0x104) && t.net.all fun i => decide (i.packet.data = 0xFF)) = true := by decide +kernel

/-- A reply writes the register, sign-extended, and frees the tag; a poisoned one is an event (R258, R264). -/
theorem test_read_reply :
    after .readReply (waiting (replying 0) 1) (fun t => decide ((t.coreOf ⟨5, .a⟩).xr 3 = 0xFFFFFFFF80000000#64) && (tfind (t.niOf 1 5).tags 4).isNone &&
      (t.coreOf ⟨5, .a⟩).pending.isEmpty) = true ∧
    after .readReply (waiting (replying 1) 1) (fun t => decide ((t.coreOf ⟨5, .a⟩).events = [{ cause := 29, tval := 0x40 }])) = true := by decide +kernel

/-- A load's round sends the request again; after round 5 it has failed (R259, R264). -/
theorem test_rld_round :
    after .rldRoundExpiry (waiting (replying 0) 4) (fun t => decide (t.net.length = 2)) = true ∧
    after .rldRoundExpiry (waiting (replying 0) 5) (fun t => decide ((t.coreOf ⟨5, .a⟩).events = [{ cause := 43, tval := 0x40 }])) = true := by decide +kernel

/-- Port 3 as it is, with a beat of a packet for this chip or of link control. -/
def beating (p : Option Packet) (amount : Nat) (pt : Port := {}) : State :=
  { bench .a {} with
    ports := [(3, pt)], service := { ({} : State).service with portsEnabled := true }, now := 1024, args := { port := 3, packet := p, flag := true, amount := amount } }

/-- A port that is up and one that is not; beats that can be rebuilt and not; packets that are taken and dropped; the interval. -/
theorem test_witness_ports :
    (((beating none 0).port 3).fenced = false ∧ (beating none 0).service.portsEnabled = true) ∧ ((beating none 0 { fenced := true }).port 3).fenced = true ∧
    (let pt : Port := {}; ¬ (pt.rxBad = true ∨ (if pt.railsOut = [] ∧ pt.railsFenced = [] then 1 else 0) < 1)) ∧
    (let pt : Port := { railsOut := [2] }; pt.rxBad = true ∨ (if pt.railsOut = [] ∧ pt.railsFenced = [] then 1 else 0) < 1) ∧
    ((writing 15 0).wellFormed = true ∧ (writing 15 0).dchip = (beating none 0).chip ∧ (writing 15 0).kind ≠ 7 ∧ (writing 15 0).kind ≠ 8 ∧ (writing 15 0).kind ≠ 9) ∧
    ({ writing 15 0 with vn := 3 } : Packet).wellFormed = false ∧ ((beating none 0).now < 1 + 1024 ∧ 0 + 1024 ≤ (beating none 0).now) ∧
    (packetOf 9 0 0 0 0 0).kind = 9 ∧ (packetOf 9 0 0 0 0 0).wellFormed = true ∧
    (3 < 48 ∧ ¬ 48 < 48) ∧ (beating none 0).heldUnits 3 0 + 1 ≤ (beating none 0).space 3 0 ∧
    ({ beating none 0 with net := List.replicate 65 { packet := { writing 15 0 with flits := 2 }, outbound := false, offered := false, port := some 3 } } : State).space 3 0 <
      ({ beating none 0 with net := List.replicate 65 { packet := { writing 15 0 with flits := 2 }, outbound := false, offered := false, port := some 3 } } : State).heldUnits 3 0 + 1 ∧
    (({ beating none 0 with sent := [writing 15 0] } : State).sent[0]? = some (writing 15 0)) ∧ (64 < tget [(0, 64)] 0 0 + 1 ∧ tget [] 0 0 + 1 ≤ 64) ∧
    ((List.range 4).map fun v => tget ({ occupancy := [(0, 2), (3, 2)] } : Port).occupancy 0 v).sum ≠ 0 := by decide +kernel

/-- A whole packet enters the network; with a beat lost it is dropped (R268). -/
theorem test_flit_beat :
    after .flitBeat (beating (some (writing 15 0)) 1) (fun t => decide (t.net.length = 1) && decide (tget (t.port 3).occupancy 0 (writing 15 0).vn.toNat = 1)) = true ∧
    after .flitBeat (beating (some (writing 15 0)) 2) (fun t => t.net.isEmpty) = true := by decide +kernel

/-- A packet that waits to leave crosses port 3 within the peer's limit, and the peer drains its unit (R269). -/
theorem test_port_sends : after .flitBeat { beating none 0 with sent := [{ writing 15 0 with flits := 2 }], args := { port := 3, memory := 1 } } (fun t =>
    t.sent.isEmpty && decide (t.crossed.length = 1) && decide (tget (t.port 3).out 0 0 = 1) &&
      after .flitBeat { t with args := { port := 3, memory := 2, amount := 1 } } (fun u => decide (tget (u.port 3).out 0 0 = 0))) = true := by decide +kernel

/-- LINK_CONTROL takes the four limits; the interval announces them (R269). -/
theorem test_links :
    after .linkControl (beating (some { packetOf 9 0 0 0 0 0 with data := 0x0004000300020001 }) 0) (fun t =>
      (List.range 4).all fun v => decide (tget (t.port 3).limits 0 v = v + 1)) = true ∧
    after .bufferInterval (beating none 0) (fun t => decide (t.crossed.length = 1) && decide ((t.port 3).lastInterval = 1024)) = true := by decide +kernel

/-! ### Sorters -/

/-- A packet of TYPE 4 at sorter 31, whose kernel runs at index 3 with k5 = 7, k6 = 9 and w2 = 0x0102. -/
def running (p : Packet) (r : Run → Run := id) (x : Sorter := {}) : State :=
  let run : Run :=
    { packet := p, outbound := false, key := 0, attachment := { ctx := 1, cls := 4, lo := 0, hi := 0, sorter := 31, kernel := 0, fb := 120, fc := 8 }
      code := [], pc := 3, k := [(5, 7), (6, 9)], w := [(2, 0x0102)], flow := 127, length := p.payload.length, emitted := [], wrotePayload := false }
  { ({} : State) with contexts := [benchContext], sorters := [(31, { x with run := some (r run) })], cur := { core := ⟨0, .a⟩, sorter := 31 } }

/-- Register n of the kernel after an instruction, and its index. -/
def kAfter (i : Instr) (s : State) (n : BitVec 4) : Option (Word × Nat) :=
  match exec i s with
  | .next t => t.mySorter.run.map fun r => (r.kr n, r.pc)
  | _ => none

/-- A counted write of 40 bytes, which the kernel holds. -/
def parcel : Packet :=
  { (packetOf 0 0 0x300 5 1 0x0000001000000000#64).withPayload ((List.range 40).map (BitVec.ofNat 8)) with ctr := 15, seq := 2, bytes := 40 }

/-- A kernel runs; k0 and another register as destination; branches taken and not. -/
theorem test_witness_sorter_registers :
    (running parcel).mySorter.run.isSome = true ∧ (match (running parcel).mySorter.run with
      | some r => decide (r.kr 5 = 7) && decide (r.kr 6 = 9) && decide (r.kr 0 = 0) && decide (r.pc = 3) | none => false) = true := by decide +kernel

/-- Arithmetic, with k0 as source and destination (R273, R282). -/
theorem test_sorter_arithmetic :
    kAfter (.sorterAdd 7 5 6) (running parcel) 7 = some (16, 4) ∧ kAfter (.sorterSub 7 5 6) (running parcel) 7 = some (0xFFFFFFFFFFFFFFFE, 4) ∧
    kAfter (.sorterAdd 0 5 6) (running parcel) 0 = some (0, 4) ∧ kAfter (.sorterShl 7 5 6) (running parcel) 7 = some (7 * 512, 4) ∧
    kAfter (.sorterShr 7 5 6) (running parcel) 7 = some (0, 4) ∧ kAfter (.sorterXor 7 5 6) (running parcel) 7 = some (14, 4) ∧
    kAfter (.sorterOr 7 5 6) (running parcel) 7 = some (15, 4) ∧ kAfter (.sorterAnd 7 5 6) (running parcel) 7 = some (1, 4) := by decide +kernel

/-- Comparisons, immediates, which ADDK and MOVK extend with the sign and ANDK with zeros (R282). -/
theorem test_sorter_immediates :
    kAfter (.setltu 7 5 6) (running parcel) 7 = some (1, 4) ∧ kAfter (.seteq 7 5 6) (running parcel) 7 = some (0, 4) ∧
    kAfter (.addk 7 5 0x3FFFF) (running parcel) 7 = some (6, 4) ∧ kAfter (.movk 7 0x20000) (running parcel) 7 = some (0xFFFFFFFFFFFE0000, 4) ∧
    kAfter (.andk 7 5 0x3FFFC) (running parcel) 7 = some (4, 4) ∧ kAfter (.shlk 7 5 63) (running parcel) 7 = some (0x8000000000000000, 4) ∧
    kAfter (.shrk 7 5 1) (running parcel) 7 = some (3, 4) := by decide +kernel

/-- Branches forward (R283). -/
theorem test_sorter_branches :
    kAfter (.sorterBeq 5 5 10) (running parcel) 5 = some (7, 13) ∧ kAfter (.sorterBne 5 5 10) (running parcel) 5 = some (7, 4) ∧
    kAfter (.sorterBltu 5 6 255) (running parcel) 5 = some (7, 258) ∧ kAfter (.jmp 2) (running parcel) 5 = some (7, 5) := by decide +kernel

/-- WGET reads a lane, WSET replaces one (R285). -/
theorem test_sorter_lanes :
    kAfter (.wget 7 2 0) (running parcel) 7 = some (0x0102, 4) ∧
    after (.wset 2 5 3) (running parcel) (fun t => match t.mySorter.run with
      | some r => decide (r.wr 2 = BitVec.ofNat 256 (7 * 2 ^ 192 + 0x0102)) | none => false) = true := by decide +kernel

/-- Fields that a TYPE carries and not, values that HSET refuses and takes, chunks within and beyond the payload, a lost flow state. -/
theorem test_witness_sorter_packet :
    (carries 0 8 = true ∧ carries 3 9 = false ∧ fieldWritable 0 = true ∧ fieldWritable 6 = true ∧ fieldWritable 13 = true ∧ carries 4 13 = true) ∧
    (badField 0 0x1000 = true ∧ badField 0 0xFFF = false ∧ badField 6 0x0001000000000000 = false ∧ badField 6 0x0002000000000000 = true ∧
      badField 10 3 = true ∧ badField 10 2 = false) ∧
    (32 * 1 < parcel.payload.length ∧ parcel.payload.length ≤ 32 * 2) ∧ (127 ∉ (running parcel).mySorter.badFlows) ∧
    (127 ∈ (running parcel id { badFlows := [127] }).mySorter.badFlows) := by decide +kernel

/-- HGET of SEQ and of a field that the TYPE has not; HSET of DCHIP; HSET of a bad value traps with reason 7 (R284, R290). -/
theorem test_sorter_fields :
    kAfter (.hget 7 8) (running parcel) 7 = some (2, 4) ∧ kAfter (.hget 7 13) (running parcel) 7 = some (0, 4) ∧
    after (.hset 5 0) (running parcel) (fun t => match t.mySorter.run with | some r => decide (r.packet.dchip = 7) | none => false) = true ∧
    after (.hset 5 0) (running parcel fun r => { r with k := [(5, 0x1000)] }) (fun t =>
      t.mySorter.run.isNone && decide (t.mySorter.suspended = [127]) && t.net.isEmpty) = true := by decide +kernel

/-- PLDW of the last chunk reads its eight bytes; PSTW writes no byte beyond the payload; chunk 2 traps (R285). -/
theorem test_sorter_payload :
    after (.pldw 2 1) (running parcel) (fun t => match t.mySorter.run with | some r => decide (r.wr 2 = 0x2726252423222120) | none => false) = true ∧
    after (.pstw 2 1) (running parcel) (fun t => match t.mySorter.run with
      | some r => decide (r.packet.payload.length = 40) && decide (r.packet.payload[32]? = some 2) && decide (r.packet.payload[31]? = some 31) && r.wrotePayload
      | none => false) = true ∧
    after (.pldw 2 2) (running parcel) (fun t => t.mySorter.run.isNone) = true := by decide +kernel

/-- FSEL selects 120 + 9 mod 8; SST and SLD, SSTW and SLDW at the last offset of the flow; a lost state traps (R286). -/
theorem test_sorter_flows :
    after (.fsel 6) (running parcel) (fun t => match t.mySorter.run with | some r => decide (r.flow = 121) && decide (r.kr 1 = 1) | none => false) = true ∧
    after (.sst 5 7) (running parcel) (fun t => decide (tget t.mySorter.flows 0 127 = BitVec.ofNat 512 (7 * 2 ^ 448))) = true ∧
    after (.sstw 2 1) (running parcel) (fun t => decide (tget t.mySorter.flows 0 127 = BitVec.ofNat 512 (0x0102 * 2 ^ 256))) = true ∧
    kAfter (.sld 7 7) (running parcel id { flows := [(127, BitVec.ofNat 512 (7 * 2 ^ 448))] }) 7 = some (7, 4) ∧
    after (.sldw 3 1) (running parcel id { flows := [(127, BitVec.ofNat 512 (7 * 2 ^ 448))] }) (fun t => match t.mySorter.run with
      | some r => decide (r.wr 3 = BitVec.ofNat 256 (7 * 2 ^ 192)) | none => false) = true ∧
    after (.sld 7 0) (running parcel id { badFlows := [127] }) (fun t => t.mySorter.run.isNone) = true := by decide +kernel

/-- Groups below and at 1024; one that cannot be read; members and their number; replicas at their limit. -/
theorem test_witness_sorter_groups :
    (running parcel).groupOf 1 1023 = .bad 5 ∧ (1023 < 1024 ∧ 1024 ≤ 1024) ∧
    (63 + 1 ≤ 64 ∧ 64 < 64 + 1) ∧ ((4095 : Nat) < 4096 ∧ 4096 ≤ 4096) ∧ (1 : Nat) ≤ (9 : Word).toNat := by decide +kernel

/-- GLD of a group beyond 1023 answers 0, GMEM and EMITG trap (R288). -/
theorem test_sorter_groups :
    kAfter (.gld 7 5) (running parcel fun r => { r with k := [(5, 1024)] }) 7 = some (0, 4) ∧
    after (.gmem 7 5 6) (running parcel fun r => { r with k := [(5, 1024)] }) (fun t => t.mySorter.run.isNone) = true ∧
    after (.emitg 5) (running parcel) (fun t => t.mySorter.run.isNone && decide (t.mySorter.suspended = [127])) = true ∧
    after (.emit 5) (running parcel) (fun t => match t.mySorter.run with
      | some r => r.emitted.all (fun q => decide (q.dchip = 7) && decide (q.addr = 0x0070001000000000#64)) && decide (r.emitted.length = 1) | none => false) = true := by
  decide +kernel

/-- FWD sends the replicas and the packet, DROP only the replicas, NACK a NACK to the source; TRAP suspends the flow (R289). -/
theorem test_sorter_ends :
    after .fwd (running parcel fun r => { r with emitted := [{ parcel with dchip := 9 }] }) (fun t => decide (t.sent.map (·.dchip) = [9]) && decide (t.net.length = 1)) = true ∧
    after .drop (running parcel fun r => { r with emitted := [{ parcel with dchip := 9 }] }) (fun t => decide (t.sent.map (·.dchip) = [9]) && t.net.isEmpty) = true ∧
    after (.nack 200) (running parcel) (fun t => decide (t.sent.map (fun q => (q.kind, q.reason, q.dchip)) = [(3, 200, 0x300)])) = true ∧
    after (.sorterTrap 200) (running parcel) (fun t => t.mySorter.run.isNone && decide (t.mySorter.suspended = [127])) = true := by decide +kernel

/-- A kernel record of one word, DROP, for packets of class 0 and keys 0 to 8191. -/
def kernelRecord : List Byte :=
  [0x00, 0x00, 0x01, 0x00, 0x00, 0x00, 0x00, 0x00, 0xFF, 0x1F, 0x00, 0x00] ++ List.replicate 20 0 ++ [0x00, 0x00, 0x00, 0x88]

/-- Its attachment at window 120 to 127 of sorter 31. -/
def attaching : Attachment := { ctx := 1, cls := 0, lo := 0, hi := 8191, sorter := 31, kernel := 0, fb := 120, fc := 8 }

/-- The kernel as loaded. -/
def dropper : Kernel := { ctx := 1, cls := 0, lo := 0, hi := 8191, code := [0x88000000#32] }

/-- Sorter 31 with that kernel, its rule, and a packet at the office. -/
def office (x : Sorter := {}) (off : Bool := false) : State :=
  { ({} : State) with
    contexts := [benchContext], sorters := [(31, { x with kernels := [dropper] })], rules := [(attaching, dropper)]
    net := [{ packet := parcel, outbound := false, offered := off }], cur := { core := ⟨0, .a⟩, sorter := 0 } }

/-- The SORTER command of operation `op` for context 1, its data at host address 0 (log 53, DESIGN CHOICE). -/
def controlling (op : Nat) (head : List Byte) (x : Sorter := {}) (rules : List (Attachment × Kernel) := [(attaching, dropper)]) : State :=
  { office x with
    rules := rules, mem := (cellsFrom (2 * 2 ^ 52) head).filter fun c => decide (c.2 ≠ 0)
    service := { stage := 6, busy := some 3, mbcmd := BitVec.ofNat 512 (2 ^ 64 + op * 2 ^ 80) } }

/-- The 16 bytes that name sorter 31, a first flow, a flow count, keys 0 to 8191, and the flag. -/
def sorterHead (fb fc flag : Byte) : List Byte := [0, 31, fb, fc, 0, 0, 0, 0, 0xFF, 0x1F, 0, 0, 0, 0, flag, 0]

/-- The operations that their bytes name. -/
theorem test_witness_sorter_operation :
    (controlling 0 (sorterHead 0 0 0 ++ kernelRecord)).sorterOperation = some (.load 1 31 kernelRecord) ∧
    (controlling 1 (sorterHead 120 8 1)).sorterOperation = some (.attach attaching true) ∧
    (controlling 2 (sorterHead 0 0 0)).sorterOperation = some (.detach 1 0 0 8191) ∧
    (controlling 3 (sorterHead 120 8 1)).sorterOperation = some (.rearm 1 31 (some 120) 120 8) ∧
    (controlling 3 (sorterHead 120 8 0)).sorterOperation = some (.rearm 1 31 none 120 8) ∧
    (controlling 4 (sorterHead 127 0 1 ++ [5])).sorterOperation = some (.state 1 31 127 (some 5)) ∧
    (controlling 4 (sorterHead 127 0 0)).sorterOperation = some (.state 1 31 127 none) ∧ (controlling 5 []).sorterOperation = none ∧
    (controlling 0 []).hostUp = true ∧ (controlling 0 []).service.busy = some 3 := by decide +kernel

/-- Idle and busy sorters; a kernel that is accepted and ones that break a condition; windows in range and out of it; packets offered,
unmatched, to a group, to a suspended flow, behind another. -/
theorem test_witness_sorter_control :
    (running parcel).sorterIdle 31 = false ∧ (office).sorterIdle 31 = true ∧ (office).sorterUp 31 = true ∧ (office).context 1 ≠ none ∧
    kernelOf 1 kernelRecord = some dropper ∧ verify dropper = 0 ∧ verify { dropper with hi := 8192 } = 8 ∧ verify { dropper with code := [] } = 1 ∧
    (256 < 256 + dropper.code.length ∧ 255 + dropper.code.length ≤ 256) ∧
    (127 < attaching.fb + attaching.fc ∧ ∀ r ∈ (office).rules, r.1.ctx = 1 ∧ r.1.sorter = 31 ∧ r.1.fb ≤ 127 ∧ r.1.hi = 8191) ∧
    (sorterAttach (office) { attaching with fb := 121 } false).2.status = 1 ∧ (sorterAttach (office) attaching true).2.status = 0 ∧
    (office {} true).net[(office).args.index]? = some { packet := parcel, outbound := false, offered := true } ∧
    (office).ruleFor parcel false = some (attaching, dropper) ∧ ({ office with rules := [] } : State).ruleFor parcel false = none ∧
    ({ office with rules := [] } : State).ruleFor { parcel with type := 7 } false = none ∧ (office).earlierFor 31 = false ∧
    ({ office with args := { index := 1 } } : State).earlierFor 31 = true ∧ (startRun attaching dropper parcel false).flow ∉ (office).mySorter.suspended ∧
    (startRun attaching dropper parcel false).flow ∈ ((office { suspended := [120 + 15 % 8] }).sorterOf 31).suspended := by decide +kernel

/-- LOAD and ATTACH accept the kernel; DETACH removes its rule (R277, R278). -/
theorem test_sorter_control :
    after .load (controlling 0 (sorterHead 0 0 0 ++ kernelRecord)) (fun t => decide ((t.sorterOf 31).kernels.length = 2) &&
      decide (t.service.mbstatus = 0) && decide (t.service.mbresult = 1)) = true ∧
    after .attach (controlling 1 (sorterHead 120 8 1) {} []) (fun t => decide (t.rules = [(attaching, dropper)])) = true ∧
    after .detach (controlling 2 (sorterHead 0 0 0)) (fun t => t.rules.isEmpty && decide (t.service.mbstatus = 0)) = true := by decide +kernel

/-- REARM clears a suspension, STATE writes a flow of the window, and reads one into the host's bytes (R277, R291). -/
theorem test_sorter_service :
    after .rearm (controlling 3 (sorterHead 120 8 1) { suspended := [120, 127] }) (fun t => decide ((t.sorterOf 31).suspended = [127])) = true ∧
    after .state (controlling 4 (sorterHead 127 0 1 ++ [5])) (fun t => decide (tget (t.sorterOf 31).flows 0 127 = 5)) = true ∧
    after .state (controlling 4 (sorterHead 127 0 0) { flows := [(127, 7)] }) (fun t => decide (t.byteFor .host (2 * 2 ^ 52 + 16) = 7)) = true := by
  decide +kernel

/-- A matched packet runs its kernel to the end, which drops it; an unmatched one stays, offered (R275, R279). -/
theorem test_sorter_packet :
    after .sorterPacket { office with args := { flag := true } } (fun t => t.net.isEmpty && (t.sorterOf 31).run.isNone && t.sent.isEmpty) = true ∧
    after .sorterPacket { office with args := { flag := false } } (fun t => (t.sorterOf 31).run.isSome) = true ∧
    after .sorterPacket { office with rules := [] } (fun t => t.net.all (·.offered)) = true := by decide +kernel

/-! ### Determinism, contexts and units -/

/-- A member of a group with LEN 4096, which has counted `n` instructions. -/
def member (n : Nat) : State :=
  bench .a { quant := 0x10001000#64, member := { active := true, count := n } }

/-- A quantum that is full and one that is not; a boundary that is ready, one that is not, and a context that is failing. -/
theorem test_witness_quanta :
    ((member 4096).me.member.active = true ∧ (member 4096).me.quant.toNat % 2 ^ 21 = 4096 ∧ 4096 ≤ (member 4096).me.member.count) ∧
    (member 4095).me.member.count = 4095 ∧ (member 0).context 0 = none ∧ (member 0).context 1 = some benchContext ∧ benchContext.dying = none ∧
    (bench .a { quant := 0x10001000#64, member := { active := true }, running := true, firing := some { channel := 0, slots := [], popped := 0, produce := 0, lid := 0 } }).boundaryReady 1 0 = false ∧
    (bench .a { quant := 0x10001000#64, member := { active := true, count := 4096, paused := true } }).boundaryReady 1 0 = true ∧
    (bench .a {}).boundaryReady 1 0 = false ∧ (bench .a {}).residentIn 0 = some 1 := by decide +kernel

/-- QUANTUM_END pauses a member that has counted LEN (R339); a boundary raises the number of the quantum (R340). -/
theorem test_quantum :
    after .quantumEnd (member 4096) (fun t => t.me.member.paused) = true ∧ after .quantumEnd (member 4095) (fun t => !t.me.member.paused) = true ∧
    after .boundary { bench .a { quant := 0x10001000#64, member := { active := true, count := 4096, paused := true } } with args := { ctx := 1 } } (fun t =>
      (match t.context 1 with | some c => decide (c.quantum = 1) | none => false) && t.me.member.active) = true := by decide +kernel

/-- Core A of cell 0 with a pending result of the boundary, semaphore 3 at 250 with a waiter before it on semaphore 4, an object whose
phase has one arrival left and one with work outbound. -/
def collecting (r : OwnRec) : State :=
  { bench .a { pending := [{ reg := .x 5, source := .boundary }] } { sems := [(3, 250), (4, 9)], semLines := [(4, [(.core .x, 1)])] } with
    mem := [(1, 2)], own := [(5, r)], poison := [quarterOf 128] }

/-- Every case of a collected operation: sums within and beyond 255, first in line and not, a line that is empty and not, objects with
and without arrivals or outbound work, phases, holders of a page, and sectors with and without poison. -/
theorem test_witness_collected :
    (MemoryOk (collecting {}) ∧ (collecting {}).held 1 0 = some (collecting {}).myCtx ∧ (collecting {}).residentIn 0 = some 1) ∧
    (255 < (collecting {}).myCtx.sem 3 + 6 ∧ (collecting {}).myCtx.sem 3 + 5 ≤ 255) ∧
    ((collecting {}).myCtx.semLine 3 = [] ∧ (collecting {}).myCtx.semLine 4 ≠ [] ∧ ((collecting {}).myCtx.semLine 4).head? ≠ some (.core .a)) ∧
    (barPending ((collecting {}).barAt 0) = 2 ∧ barPending ((collecting {}).barAt 16) = 0 ∧ barOutbound ((collecting {}).barAt 0) = 0 ∧
      barOutbound (({ collecting {} with mem := [(8, 1)] } : State).barAt 0) ≠ 0) ∧
    ((barGen ((collecting {}).barAt 0)).toNat = 0 ∧ (barGen ((collecting {}).barAt 0)).toNat ≠ 1) ∧
    ((collecting {}).poisonedLast (sectorOf 0) = false ∧ (collecting {}).poisonedLast (sectorOf 128) = true) ∧
    (let mine : Nat × Word := (1, (collecting {}).coreId ⟨0, .a⟩)
     ((collecting { holder := some mine }).ownOf 5).holder = some mine ∧ ((collecting { pending := some mine }).ownOf 5).pending = some mine ∧
       (1, 7#64) ≠ mine ∧ ((collecting { pending := some (1, 7), handedBy := some mine }).ownOf 5).handedBy = some mine ∧
       ((collecting {}).ownOf 5).holder = none) := by
  unfold MemoryOk; decide +kernel

/-- What a boundary does with a collected SEMPOST, SEMW, SEMTRY, BARARR and OTAKE (R148, R152, R330, R340). -/
theorem test_collected :
    let x := fun (op : Collected) => (collecting {}).applyOp 1 ⟨0, .a⟩ op
    (decide ((x (.semPost 3 5)).1.myCtx.sem 3 = 255) && (x (.semPost 3 6)).1.me.events.any (fun e => decide (e.cause = 34)) &&
      (x (.semWait 4 1)).2 && !(x (.semWait 3 1)).2 && decide ((x (.semTry 3 200 (some (.x 5)) 0)).1.me.xr 5 = 1) &&
      decide (barPending ((x (.barArrive 0)).1.barAt 0) = 1) && (x (.barWait 0 0)).2 && decide ((x (.take 9 (some (.x 5)) 0)).1.me.xr 5 = 2)) = true := by
  decide +kernel

/-- A boundary takes cells in order and ends with the next quantum number (R337, R340). -/
theorem test_boundary_order :
    let s := { collecting {} with args := { ctx := 1 } }
    ((s.boundary 1 0).context 1).map (fun c => decide (c.quantum = 1)) = some true ∧ (s.cellsWith 1).Pairwise (· < ·) := by decide +kernel

/-- Context 1 with a page table: a leaf of 1 GiB at 0x1000000000, readable and writable, and its images there. -/
def paged (mem : Memory) : State :=
  { bench .a { parked := true } with
    contexts := [{ benchContext with root := 1, savebase := 0x1000000000#64 }]
    mem := [(0, 1), (1, 0x10), (0x1200, 7), (0x1203, 0x40)] ++ mem }

/-- A part of the context switched out of cell 1. -/
def stored (imaged : Bool) : Saved := { ctxid := 1, cell := 1, ctx := {}, imaged := imaged }

/-- Cells with a context, without one and out of service; a cell that is ready to switch and one that is not; images that can be reached
and not, poisoned and not; parts that have been resident and not. -/
theorem test_witness_switching :
    (paged []).residentIn 0 = some 1 ∧ (paged []).residentIn 1 = none ∧ (paged []).cellOut 0 = false ∧
    ({ paged [] with cells := [(0, { resident := some 1, fenced := true })] } : State).cellOut 0 = true ∧ (paged []).isDying 1 = false ∧
    (bench .a {}).switchReady 0 = false ∧
    ({ paged [] with cells := [(0, { resident := some 1, ctx := { coreA := { parked := true }, coreX := { parked := true }, coreC := { parked := true } } })] } : State).switchReady 0 = true ∧
    (bench .a {}).imageFault 1 0 .store = some (7, 0) ∧ (paged []).imageFault 1 1 .load = none ∧
    ({ paged [] with saved := [stored true] } : State).savedOf 1 1 = some (stored true) ∧ (paged []).savedOf 1 1 = none := by decide +kernel

/-- A sector of context state poisoned in the image and in the cell, and none. -/
theorem test_witness_image_poison :
    ({ paged [] with poison := [(0x40000000 + 0x1B0000) / 16] } : State).imagePoison 1 1 = some 0x10001B0000 ∧
    ({ paged [] with poison := [quarterOf (cellKey 0 0xB0000)] } : State).cellPoison 1 0 = some 0x10000B0000 := by decide +kernel

/-- With no sector poisoned, none is met. -/
theorem test_witness_image_clean : (paged []).imagePoison 1 1 = none ∧ (paged []).cellPoison 1 0 = none := by
  have h : ∀ v k, (paged []).poisonedFor v k = false := fun _ _ => rfl
  constructor
  · unfold State.imagePoison State.stateFault
    split
    · rfl
    · rw [Option.map_eq_none_iff, List.find?_eq_none]
      intro off _
      split <;> simp [h]
  · unfold State.cellPoison State.stateFault
    split
    · rfl
    · rw [Option.map_eq_none_iff, List.find?_eq_none]
      intro off _
      simp [h]

/-- PREEMPTION_REQUEST reaches the three cores (R373). -/
theorem test_preemption : after .preemptionRequest (bench .a {}) (fun t =>
    (t.coreOf ⟨0, .a⟩).preempt && (t.coreOf ⟨0, .x⟩).preempt && (t.coreOf ⟨0, .c⟩).preempt) = true := by decide

/-- RESTORE of a part that was never resident places it in its cell (R370, R373; log 6, DEDUCED). -/
theorem test_restore : after .restore { paged [] with saved := [stored false], args := { ctx := 1, cell := 1 } } (fun t =>
    decide (t.residentIn 1 = some 1) && t.saved.isEmpty) = true := by decide +kernel

/-- A switch-out whose image cannot be written is fatal to the context (R373, R377). -/
theorem test_switch_out :
    after .switchOut { bench .a {} with cells := [(0, { resident := some 1, ctx := { coreA := { parked := true }, coreX := { parked := true }, coreC := { parked := true } } })] }
      (fun t => t.isDying 1) = true := by decide +kernel

/-- A context with a fatal fault, one without, and none. -/
theorem test_witness_removal :
    (bench .a {}).context 0 = none ∧ (bench .a {}).context 1 = some benchContext ∧ benchContext.dying = none ∧
    ({ bench .a {} with contexts := [{ benchContext with dying := some [] }] } : State).context 1 = some { benchContext with dying := some [] } := by decide

/-- CONTEXT_REMOVAL frees the cell and forgets the context (R377). -/
theorem test_removal : after .contextRemoval { bench .a {} with contexts := [{ benchContext with dying := some [] }], args := { ctx := 1 } } (fun t =>
    t.contexts.isEmpty && decide (t.residentIn 0 = none)) = true := by decide +kernel

/-- A miss of cluster 0 on the last page of the leaf, and on one that has none. -/
def missing (page : Nat) : State :=
  { paged [] with misses := [{ cluster := 0, ctx := 1, page := page, waiters := [⟨0, .a⟩], assisted := false }] }

/-- Walks that find a leaf and that fail; sectors with and without errors; units of every class in service and fenced; numbers at their
limits; every stage of bring-up. -/
theorem test_witness_device :
    (missing 0x103FFFF).walk 0 1 0x103FFFF000 = .leaf 0x40000007 2 ∧ (missing 0x1040000).walk 0 1 0x1040000000 = .fail ∧
    (missing 0).unitOut 1 0 = false ∧ ({ missing 0 with service := { (missing 0).service with fenced := [(1, 0)] } } : State).unitOut 1 0 = true ∧
    ((missing 0).misses.filter fun m => decide (m.cluster = 0) && !m.assisted).take 8 = (missing 0).misses ∧
    ((1 : Nat) ≠ 3 ∧ (missing 0).args.flag = false) ∧ ((missing 0).args.found = .valid) ∧
    (1023 < 1024 ∧ (63 : Nat) < 64 ∧ 199 < 200 ∧ 47 < 48 ∧ 31 < 32 ∧ 1024 ≤ 1024) ∧ (0, 1023) ∉ (missing 0).service.fenced ∧
    ((104 : Nat) < 105 ∧ 105 ≤ 105 ∧ 105 < 115 ∧ 115 ≤ 115) ∧ State.reset.service.stage = 1 ∧ State.reset.service.chipGiven = false := by decide +kernel

/-- PAGE_WALK caches the leaf, or tells the waiting core of the failure (R89, R93). -/
theorem test_page_walk :
    after .pageWalk (missing 0x103FFFF) (fun t => t.misses.isEmpty && decide (t.tlb.length = 1)) = true ∧
    after .pageWalk (missing 0x1040000) (fun t => decide (t.failedWalks = [(⟨0, .a⟩, 1, 0x1040000)])) = true := by decide +kernel

/-- SCRUB_VISIT poisons a sector with an uncorrectable error and only counts another (R101, R102). -/
theorem test_scrub :
    after .scrubVisit { bench .a {} with service := { ({} : Service) with stage := 4 }, args := { index := 5, found := .uncorrectable } } (fun t => decide (t.poison = [20, 21, 22, 23])) = true ∧
    after .scrubVisit { bench .a {} with service := { ({} : Service) with stage := 4 }, args := { index := 5, found := .correctable } } (fun t => t.poison.isEmpty &&
      decide ((tget t.service.corrected 0 (sectorMemory 5)) = 1)) = true := by decide +kernel

/-- UNIT_FENCE of a cell fails its context (R14, R15, R387); power and temperature (R390). -/
theorem test_units :
    after .unitFence { bench .a { firing := some { channel := 0, slots := [], popped := 0, produce := 0, lid := 0 } } with args := { cls := 0, index := 0 } } (fun t => t.isDying 1 && decide (t.service.fenced = [(0, 0)])) = true ∧
    after .powerWindow { bench .a {} with args := { amount := 1501 } } (fun t => t.service.idleInserted) = true ∧
    after .thermalLimit { bench .a {} with args := { amount := 114 } } (fun t => t.service.halfRate && !t.service.shutDown) = true ∧
    after .thermalLimit { bench .a {} with args := { amount := 115 } } (fun t => t.service.shutDown && t.contexts.isEmpty) = true := by decide +kernel

/-- The stages of bring-up, of which the first depends on the image (log 15, DESIGN CHOICE); a reset keeps host memory only (R386). -/
theorem test_module_reset :
    after .moduleReset { State.reset with service := { stage := 3 }, args := { stage := .linkUp } } (fun t => decide (t.service.stage = 4)) = true ∧
    after .moduleReset { State.reset with args := { stage := .linkUp } } (fun t => decide (t.service.stage = 1)) = true ∧
    after .moduleReset { bench .a {} with mem := [(5, 1), (2 * 2 ^ 52 + 5, 2)], args := { flag := true } } (fun t =>
      decide (t.mem = [(2 * 2 ^ 52 + 5, 2)]) && t.cells.isEmpty) = true := by decide +kernel
/-! ### The host -/

/-- The bench once the CXL link is up. -/
def linked (a : Args) : State := { bench .a {} with service := { stage := 3 }, args := a }

/-- A command in execution, its operands at their byte offsets in MBCMD (log 53, DESIGN CHOICE). -/
def commanded (op : Nat) (operands : List (Nat × Nat)) (sv : Service := {}) (a : Args := {}) : State :=
  { bench .a {} with
    service := { sv with busy := some op, stage := 6, mbcmd := BitVec.ofNat 512 (operands.map fun o => o.2 * 2 ^ (8 * o.1)).sum }
    args := a }

/-- Queues 7 and 8; TAIL within and beyond the size; PLIMIT at its ends and beyond; stores to the registers of the control page that reach
them; ranges of host memory that are clean and poisoned. -/
theorem test_witness_host :
    ((7 : Nat) < 8 ∧ 8 ≤ (8 : Nat)) ∧ (4 ≤ 4 ∧ 2 ^ 4 < ((17#64).setWidth 32 - 0 : BitVec 32).toNat ∧ ¬ 2 ^ 4 < ((16#64).setWidth 32 - 0 : BitVec 32).toNat) ∧
    (600 ≤ 600 ∧ 1500 ≤ 1500 ∧ ¬ 600 ≤ 599 ∧ ¬ 1501 ≤ 1500) ∧
    ({ bench .a {} with args := { target := .host 0x1008 5 } } : State).args.target = .host 0x1008 5 ∧
    ([0x2000, 0x2FC0, 0x8000, 0x8038, 0x9000, 0x9FF8].all fun off =>
      decide ((bench .a { stores := [{ id := 0, target := .control off 5, sector := 0, release := none, after := [], owned := none, quad := false }] }).controlEntry ⟨0, .a⟩ 0
        = some (off, 5))) = true ∧
    hostRange (2 * 2 ^ 52) 8 = true ∧ hostRange (3 * 2 ^ 52 - 8) 8 = true ∧ hostRange (3 * 2 ^ 52) 8 = false ∧ MemoryOk (bench .a {}) ∧
    (∀ a, 2 * 2 ^ 52 ≤ a → a < 2 * 2 ^ 52 + 8 → (linked {}).poisonedFor .host (sectorOf a) = false ∧ (linked {}).keyOut a = false) ∧
    (linked { access := .cdat [1] }).args.access = .cdat [1] ∧ ((2 : Nat) < 3 ∧ 3 ≤ (linked {}).service.stage) := by
  refine ⟨by decide, by decide, by decide, by decide, by decide +kernel, by decide, by decide, by decide, by unfold MemoryOk; decide, ?_,
    by decide, by decide⟩
  intro a h1 h2
  have h : a / 2 ^ 52 = 2 := by omega
  refine ⟨rfl, ?_⟩
  unfold State.keyOut isCellKey
  rw [h]
  rfl

/-- EVHEAD, TAIL, PLIMIT and a queue register (R357, R383, R384, R390). -/
theorem test_host_registers :
    after .evhead (linked { word := 0x100000005 }) (fun t => decide (t.service.evhead = 5)) = true ∧
    after .tail { linked {} with hostQueues := [(7, { qcfg := 0x8000000000000004#64 })], args := { word := 17, queue := 7 } } (fun t =>
      decide ((tget t.hostQueues {} 7).tail = 17) && decide ((tget t.hostQueues {} 7).qcfg = 0xA000000000000004#64)) = true ∧
    after .plimit (linked { word := 599 }) (fun t => decide (t.service.plimit = 1500)) = true ∧
    after .registerWrite (linked { target := .host 0x1008 0x8000000000000004#64 }) (fun t =>
      decide ((tget t.hostQueues {} 0).qcfg = 0x8000000000000004#64)) = true := by decide +kernel

/-- A store to CTL of channel 63 takes effect (R347). -/
theorem test_control_write : after .registerWrite
    { bench .a { stores := [{ id := 0, target := .control 0x2FC0 5, sector := 0, release := none, after := [], owned := none, quad := false }] } with
      args := { target := .core ⟨0, .a⟩ 0 } } (fun t =>
    decide ((tget t.myCtx.pigeons {} 63).ctl = 5) && t.me.stores.isEmpty) = true := by decide +kernel

/-- HOST_MEMORY_ACCESS writes and reads (R382). -/
theorem test_host_memory :
    after .hostMemoryAccess (linked { access := .write (2 * 2 ^ 52 + 8) [1, 2] }) (fun t =>
      decide (t.byteFor .host (2 * 2 ^ 52 + 9) = 2) && decide (t.byteFor .host (2 * 2 ^ 52 + 10) = 0)) = true ∧
    after .hostMemoryAccess { linked {} with mem := [(2 * 2 ^ 52, 7)], args := { access := .read (2 * 2 ^ 52) 2 } } (fun t =>
      decide (t.service.hostReads = [[7, 0]])) = true := by decide +kernel

/-- A descriptor for CTXID 2 in host memory at 0: CBASE 32, CLIMIT 16, everything else in its range. -/
def describing (cbase : Byte) (operands : List (Nat × Nat) := []) : State :=
  { commanded 1 operands {} { cells := [1] } with
    contexts := [benchContext]
    mem := [(2 * 2 ^ 52, 2), (2 * 2 ^ 52 + 2, cbase), (2 * 2 ^ 52 + 4, 16), (2 * 2 ^ 52 + 0xA, 4), (2 * 2 ^ 52 + 0x1C, 0x10)] }

/-- Every command with its opcode in execution and not, and every condition that it distinguishes, at the ends of its range. -/
theorem test_witness_commands :
    ((commanded 1 []).service.busy = some 1 ∧ (commanded 1 []).service.busy ≠ some 2) ∧ (5 : Nat) < 6 ∧ (commanded 1 []).service.stage = 6 ∧
    (commanded 1 []).context 1 ≠ none ∧ (commanded 1 []).context 2 = none ∧ (commanded 1 []).contexts.length < 64 ∧
    64 ≤ (List.replicate 64 benchContext).length ∧
    ((2000 : Nat) ≤ 2000 ∧ 1000000 ≤ 1000000 ∧ 1999 < 2000 ∧ 1000000 < 1000001) ∧ (1023 < unitCountOf 0 ∧ unitCountOf 0 ≤ 1024) ∧
    ((39 : Nat) < 40 ∧ (4 : Nat) < 5 ∧ ¬ (40 : Nat) < 40 ∧ ¬ (5 : Nat) < 5) ∧ ((commanded 7 []).port 39).fenced = false ∧
    ((commanded 7 []).port 39).railsOut = [] ∧ ((commanded 7 []).port 39).railsFenced = [] ∧ ((2 : Nat) < 3 ∧ 3 ≤ (3 : Nat)) ∧
    ((5 : Nat) < 6 ∧ 6 ≤ (6 : Nat)) := by decide +kernel

/-- A miss that the host is asked to answer, with a leaf that is valid and one that is not; a device-side packet that it parses, and none. -/
theorem test_witness_assisted :
    (let m : Miss := { cluster := 0, ctx := 1, page := 5, waiters := [⟨0, .a⟩], assisted := true }
     ({ commanded 11 [(8, 1), (10, 5 * 4096)] with misses := [m] } : State).misses.filter
       (fun m => m.assisted && decide (m.ctx = 1) && decide (m.page = 5)) = [m] ∧ ∀ p ∈ m.waiters, p.role ≠ .s) ∧
    (pteV 0x40000007 = true ∧ pteLeaf 0x40000007 = true ∧ pteMalformed 0x40000007 4 = false ∧ pteV 6 = false) ∧
    (2 ∉ (commanded 1 []).service.assisted ∧ 2 ∈ (commanded 1 [] { assisted := [2] }).service.assisted) ∧
    (commanded 1 []).deviceQueue = [] ∧ (commanded 1 []).freeLid ≠ none ∧ descriptorOk ((describing 32).hostVec 0) = true ∧
    descriptorOk (0 : Vec) = false := by
  decide +kernel

/-- An operation of SORTER that its operands name and one they do not; a record that RESEND finds, and none; clusters that FWACT restarts. -/
theorem test_witness_long_commands :
    (let r : SendRec := { packet := writing 15 0, source := .data, sent := [] }
     let s := commanded 13 [(8, 1), (12, r.packet.ctr.toNat), (14, r.packet.seq.toNat), (16, r.packet.dchip.toNat)]
     r.packet.ctr.toNat = s.operand 12 2 ∧ r.packet.seq.toNat = s.operand 14 2 ∧ r.sentTo (BitVec.ofNat 12 (s.operand 16 2)) = true ∧
       s.canSend 1 0 (r.again 0x300) = true ∧ (s.niOf 1 0).recs = []) ∧
    (commanded 12 []).service.staged = none ∧ ({ staged := some [1] } : Service).staged = some [1] ∧ ({} : Service).restart = none ∧
    (List.range 64).filter (fun k => ((commanded 12 [(8, 2 + 2 ^ 63)]).operand 8 8).testBit k) = 1 :: [63] ∧
    (∀ k, k < 64 → ((commanded 12 []).operand 8 8).testBit k = false) ∧
    (commanded 3 [(10, 5)]).sorterOperation = none ∧ (commanded 3 []).sorterIdle 0 = true := by
  decide +kernel

/-- CTXSET places the context of the descriptor on a free cell; a TRAPVEC that is no multiple of 4 is status 1 (R370, R385). -/
theorem test_ctxset :
    after .ctxset (describing 32) (fun t => decide (t.residentIn 1 = some 2) && decide (t.service.mbstatus = 0) &&
      (match t.context 2 with | some c => decide (c.cbase = 32) && decide (c.climit = 16) && decide (c.trapvec = 0x1000000000#64) | none => false)) = true ∧
    after .ctxset (describing 32 [(8, 8)]) (fun t => decide (t.service.mbstatus = 1)) = true := by decide +kernel

/-- FABCFG takes the chip identifier and T; T outside its range is status 1 (R248, R272, R385). -/
theorem test_fabcfg :
    after .fabcfg (commanded 4 [(8, 0x301), (10, 2000)]) (fun t =>
      decide (t.chip = 0x301) && decide (t.timeout = 2500) && decide (t.service.mbstatus = 0) && t.service.busy.isNone) = true ∧
    after .fabcfg (commanded 4 [(8, 0x301), (10, 1999)]) (fun t => decide (t.chip = 0) && decide (t.service.mbstatus = 1)) = true := by decide +kernel

/-- RAILCAL takes a rail of a scale-up port out, and a second one of the port is status 2 (R10, R269, R385). -/
theorem test_railcal :
    after .railcal (commanded 7 [(8, 39), (9, 4)]) (fun t => decide ((t.port 39).railsOut = [4]) && decide (t.service.mbstatus = 0)) = true ∧
    after .railcal { commanded 7 [(8, 39), (9, 4)] with ports := [(39, { railsOut := [3] })] } (fun t => decide (t.service.mbstatus = 2)) = true := by
  decide +kernel

/-- MODE and ERRCNT (R385, R388, R389). -/
theorem test_commands :
    after .mode (commanded 9 [(8, 5), (9, 1)]) (fun t => decide (5 ∈ t.service.assisted)) = true ∧
    after .errcnt (commanded 10 [(8, 2), (9, 1)] { corrected := [(2, 7)] }) (fun t => decide (tget t.service.corrected 0 2 = 0)) = true := by decide +kernel

/-- FWACT restarts the clusters of its mask one after the other; without an image it answers 1 (R389). -/
theorem test_fwact :
    after .fwact (commanded 12 [(8, 2 + 2 ^ 63)] { staged := some [1] }) (fun t => decide (t.service.restart = some 1) &&
      decide (t.service.toRestart = [63]) && decide (t.service.busy = some 12)) = true ∧
    after .fwact (commanded 12 [(8, 2)]) (fun t => decide (t.service.mbstatus = 1)) = true := by decide +kernel

/-- CTXREMOVE removes a context; WALKANS and RESEND without their miss and record are status 1; SERVICE_FENCE of no unit (R377, R385, R389). -/
theorem test_more_commands :
    after .ctxremove (commanded 2 [(8, 1)]) (fun t => t.contexts.isEmpty && decide (t.service.mbstatus = 0)) = true ∧
    after .walkans (commanded 11 [(8, 1), (10, 0x1000)]) (fun t => decide (t.service.mbstatus = 1)) = true ∧
    after .resend (commanded 13 []) (fun t => decide (t.service.mbstatus = 1)) = true ∧
    after .serviceFence (commanded 5 [(8, 0), (9, 1024)]) (fun t => decide (t.service.mbstatus = 1)) = true := by decide +kernel

/-- DECLARE ends with status 0; SORTER runs its operation, and answers 1 to operands that name none (R277, R316, R385). -/
theorem test_declare_sorter :
    after .declare (commanded 6 [(8, 0x301)]) (fun t => decide (t.service.mbstatus = 0) && t.service.busy.isNone) = true ∧
    after .sorter (commanded 3 [(8, 1), (10, 5)]) (fun t => decide (t.service.mbstatus = 1) && t.service.busy.isNone) = true := by decide +kernel

/-- A ring of events that is off; stages 2 and 3; a chip that is declared and a block that it touches. -/
theorem test_witness_service : ({} : Service).ringSize = 0 ∧ ((2 : Nat) < 3 ∧ 3 ≤ (3 : Nat)) ∧ 4 ∉ ({} : Service).assisted ∧ 4 ∈ ({ assisted := [4] } : Service).assisted ∧
    ({ bench .a {} with args := { flag := true } } : State).args.flag = true ∧ (tfind (mixing 0 0).blocks 4095).isSome = true := by decide +kernel

/-- RAIL_RETURN; an SPDM request before and after the link is up; FAILURE_DECLARATION of a chip clears V of its entries (R269, R316, R388). -/
theorem test_service_events :
    after .railReturn { bench .a {} with ports := [(3, { railsOut := [1, 2] })], args := { port := 3, rail := 1 } } (fun t => decide ((t.port 3).railsOut = [2])) = true ∧
    after .getVersion { bench .a {} with service := { ({} : Service) with stage := 3 } } (fun t => decide (t.service.doe.length = 1)) = true ∧
    after .challenge { bench .a {} with service := { ({} : Service) with stage := 2 } } (fun t => t.service.doe.isEmpty) = true ∧
    after .failureDeclaration { mixing 0 0 with service := { ({} : Service) with portsEnabled := true }, args := { chip := 0x300 } } (fun t => match tfind t.blocks 4095 with
      | some b => !(b.entry 0).getLsbD 63 | none => false) = true := by decide +kernel

/-! ### Encoding, the step, and invariants -/

/-- A reset module with an instruction placed. -/
def ready (nbits w : Nat) : State := State.reset.withFetchWord nbits w

/-- The state in which the turn of a core begins. -/
def turned (s : State) (p : CoreRef) : State := { s.ticked with cur := { s.ticked.cur with core := p, word := 0 } }

/-- A NOP at the head of the A-core of cell 0: every hypothesis of a step that executes the decoded instruction. -/
theorem test_witness_step :
    let v := (turned (ready 64 1) ⟨0, .a⟩).noteArrival ⟨0, .a⟩
    AtHead (ready 64 1) ⟨0, .a⟩ v ∧ v.checkSignature.toOption.isSome = true ∧ v.me.c0.toNat % 4 = 0 ∧ v.me.n0 = false ∧
      (match v.fetch ⟨0, .a⟩ v.me.c0 with | .word w => decide (w = 1) | _ => false) = true ∧ wordLen 1 = 8 ∧
      decodeWord (cutWord 1) = .ok .nop ∧ majorPermitted Role.a (Raw.ofWord (cutWord 1)).maj.toNat = true := by
  refine ⟨⟨by rfl, .inr (.inr ⟨by decide, ?_, ?_, by rfl, ?_, ?_, ?_, ?_, ?_⟩)⟩, ?_, ?_, ?_, ?_, ?_, ?_, ?_⟩ <;> decide +kernel

/-- A turn in trap mode, of a supervisor, of a sorter and of an event; before the head an event, an interrupt, a firing, a quantum. -/
theorem test_witness_turns :
    (let s : State := { bench .a { two 0 0 with tstat := 1 } with turns := [.core ⟨0, .a⟩] }
     s.turn = .core ⟨0, .a⟩ ∧ (turned s ⟨0, .a⟩).running ⟨0, .a⟩ = true ∧ (turned s ⟨0, .a⟩).me.trapMode = true) ∧
    (let s : State := { supervisors := [(63, {})], service := { ({} : Service) with stage := 4 }, turns := [.core ⟨1008, .s⟩] }
     s.turn = .core ⟨1008, .s⟩ ∧ (tfind (turned s ⟨1008, .s⟩).supervisors 63).isSome = true ∧ (turned s ⟨1008, .s⟩).unitOut 1 63 = false) ∧
    (let s : State := { bench .a { two 0 0 with events := [{ cause := 27, tval := 0 }] } with turns := [.core ⟨0, .a⟩] }
     ((turned s ⟨0, .a⟩).noteArrival ⟨0, .a⟩).me.events ≠ [] ∧ (turned s ⟨0, .a⟩).me.trapMode = false) ∧
    (let s : State := { bench .a { two 0 0 with preempt := true } with turns := [.core ⟨0, .a⟩] }
     ((turned s ⟨0, .a⟩).noteArrival ⟨0, .a⟩).me.preempt = true) ∧
    (let s : State := { bench .a (two 0 0) with turns := [.core ⟨0, .a⟩] }
     ((turned s ⟨0, .a⟩).noteArrival ⟨0, .a⟩).me.running = false ∧ ((turned s ⟨0, .a⟩).noteArrival ⟨0, .a⟩).me.atEnd = false) ∧
    (let s : State := { bench .a { two 0 0 with quant := 0x10001000#64, firing := some { channel := 0, slots := [], popped := 0, produce := 0, lid := 0 },
                                                 member := { active := true, count := 4096 } } with turns := [.core ⟨0, .a⟩] }
     ((turned s ⟨0, .a⟩).noteArrival ⟨0, .a⟩).me.atEnd = true ∧ ((turned s ⟨0, .a⟩).noteArrival ⟨0, .a⟩).me.member.paused = false) ∧
    (isEvent .plimit = true ∧ isEvent .nop = false ∧ ({ turns := [.event .plimit {}] } : State).turn = .event .plimit {}) := by
  decide +kernel

/-- Steps from reset with an instruction placed: NOP retires; a sorter's DROP ends its kernel. -/
theorem test_steps :
    (match step (ready 64 1) with | .next t => decide ((t.coreOf ⟨0, .a⟩).retired = 1) | _ => false) = true ∧
    (match step (ready 32 0x88000000) with | .next t => (t.sorterOf 0).run.isNone | _ => false) = true := by decide +kernel

/-- A sorter's turn at an instruction that its kernel holds. -/
theorem test_witness_sorter_turn :
    (ready 32 0x88000000).turn = .sorter 0 ∧ ((ready 32 0x88000000).ticked.sorterOf 0).run.isSome = true ∧ decodeSorter 0x88000000#32 = some .drop := by
  decide +kernel

/-- Memory keeps its form: after reset, with a write listed, and in a step. -/
theorem test_witness_memory : MemoryOk State.reset ∧ MemoryOk { storing (.mem [(cellKey 0 0x1000, 5)]) with poison := [3, 7] } ∧
    (match step (ready 64 1) with | .next _ => true | _ => false) = true := by
  unfold MemoryOk; decide +kernel

/-- Instructions with every field at its highest value come back from their words. -/
theorem test_round_trip :
    ([Instr.add 31 31 31, .cmpieq 31 31 0x1FFFFFF, .semw 63, .rcptw 31 1].all fun i =>
      i.wellFormed && (match encode i with | some w => decide (decodeWord w = .ok i) | none => false)) = true ∧
    ([Instr.sorterAdd 15 15 15, .addk 15 15 0x3FFFF, .nack 255].all fun i =>
      i.wellFormed && (match encodeSorter i with | some w => decide (decodeSorter w = some i) | none => false)) = true := by decide +kernel
/-! ### Accesses that others hold back, waiters, and what a boundary gives later -/

/-- A member of a group that has collected an acquire and a release. -/
def collectingAcquire : Core :=
  { two 0 0 with member := { active := true, ops := [.amo 1 true 0 1 0 none 0 none { id := 0, release := some 2, acquire := true }] } }

/-- A core with a remote load under way to offset 0x40 of its own cell, numbered 0. -/
def remoteLoading : State :=
  { bench .a (two 0x40 0) { windows := [(0, 0xF800000000000000#64 ||| BitVec.ofNat 64 (16 * 2 ^ 32))] } with
    nis := [(1024, { tags := [(0, { packet := { packetOf 1 0 0 0 1 0x0001000100000040#64 with size := 2 }, dst := some (.x 3), signed := false
                                    fa := 0x0001000100000040#64, round := 1, deadline := 100, id := 0 })] })]
    fresh := 1 }

/-- Accesses that wait for a collected one or for a remote load, and those that do not; flags cleared by a write of FCSR and only set. -/
theorem test_witness_held_accesses :
    ((bench .a collectingAcquire).inGroup = true ∧ collectingAcquire.acquiring = true ∧ collectingAcquire.collected ≠ [] ∧
      accessing (.ld 3 1 3 0 0 0) = true ∧ accessing .nop = false ∧ ordering (.fence 2 2) = true ∧ ordering (.ld 3 1 3 0 0 0) = false) ∧
    ((two 0 0).acquiring = false ∧ (two 0 0).collected = []) ∧
    (remoteLoading.remoteBefore ⟨0, .a⟩ 1 (fun x => decide (sectorOf x = sectorOf (cellKey 0 0x40))) = true ∧
      remoteLoading.remoteBefore ⟨0, .a⟩ 1 (fun x => decide (sectorOf x = sectorOf (cellKey 0 0x80))) = false ∧
      remoteLoading.remoteBefore ⟨0, .a⟩ 0 (fun _ => true) = false) ∧
    (remoteLoading.remote ⟨0, .a⟩ (fun _ => true) ≠ [] ∧ (bench .a {}).remote ⟨0, .a⟩ (fun _ => true) = []) ∧
    ((0x1000#64).extractLsb' 8 5 &&& ~~~ (0x100#64).extractLsb' 8 5 ≠ 0#5 ∧ (0x100#64).extractLsb' 8 5 &&& ~~~ (0x1100#64).extractLsb' 8 5 = 0#5) := by
  decide +kernel

/-- A load of the sector waits for the remote load; one of another sector that hands over as it retires does not (R319, R321). -/
theorem test_remote_load_holds : remoteLoading.mayRead (sectorOf (cellKey 0 0x40)) = false ∧ remoteLoading.mayRead (sectorOf (cellKey 0 0x80)) = true := by
  decide +kernel

/-- Waiters that have taken their amounts and pass on or do not; a line whose first waiter COUNT suffices for and not. -/
theorem test_witness_grants :
    (let g : SemGrant := { who := .core .a, sem := 3, amount := 2, posts := [] }
     (bench .a {} { grants := [g] }).myCtx.grantOf 3 2 (.core .a) = some g ∧ (bench .a {}).seenPosts 0 g.posts = true ∧
       (bench .a {}).myCtx.grantOf 3 2 (.core .a) = none) ∧
    (bench .a {} { coreX := (storing .fence).me }).seenPosts 0 [(.x, [0])] = false ∧
    (let x : CellCtx := { sems := [(3, 5)], semLines := [(3, [(.core .x, 5), (.sequencer, 1)])] }
     (tget x.semLines [] 3).head? = some (.core .x, 5) ∧ 5 ≤ x.sem 3 ∧ (x.setSem 3 4).sem 3 < 5 ∧ tget x.semLines [] 4 = []) ∧
    (({ grants := [{ who := .sequencer, sem := 3, amount := 1, posts := [] }] } : CellCtx).grantOf 3 1 .sequencer).isSome = true := by decide +kernel

/-- The first waiter takes its amount where COUNT suffices, and the next is examined after it (R148). -/
theorem test_post_grants : (let x : CellCtx := ({ sems := [(3, 2)], semLines := [(3, [(.core .x, 1), (.sequencer, 3)])] } : CellCtx).examine 3 2
    x.sem 3 = 1 ∧ x.semLine 3 = [.sequencer] ∧ x.grants.map (·.who) = [.core .x]) := by decide +kernel

/-- What a boundary gives x5 while the handler of a pre-emption runs enters it with ERET (R342, R373). -/
theorem test_late_result : after .eret (bench .a { tstat := 1#64, handling := true, lateD := [(5, 7), (6, 1), (5, 9)] }) (fun t =>
    decide (t.me.xr 5 = 9) && decide (t.me.xr 6 = 1) && t.me.lateD.isEmpty && !t.me.handling) = true := by decide +kernel

/-! ### Page walks, the head, and rounding -/

/-- Context 1 with a root in LPDDR at 0; below VA 0x1000000000 leaves of 1 GiB (index 65), 2 MiB (index 1) and 4 KiB (index 1). -/
def tables : State :=
  let entry (pa : Nat) (v : Nat) : Memory := (cellsFrom pa (natToBytes 8 v)).filter fun c => decide (c.2 ≠ 0)
  { bench .a {} with
    contexts := [{ benchContext with root := 1 }]
    mem := entry 0 0x1001 ++ entry 0x1200 0x2001 ++ entry 0x1208 0x40000007 ++ entry 0x1210 0x200000000001000 ++ entry 0x1218 0x100000000001001 ++
      entry 0x2000 0x3001 ++ entry 0x2008 0x40200007 ++ entry 0x2010 0x40201007 ++ entry 0x3008 0x5003 ++ entry 0x3010 0x6001 }

/-- Walks that end at each level, and that fail at each: no root, an invalid entry, a pointer in host memory or with no table behind it, a leaf that is
not aligned, a pointer at level 4; translations that are cached, known to fail and neither; pages that each kind of access may reach. -/
theorem test_witness_walks :
    (tables.walk 0 2 0 = .fail ∧ ({ tables with contexts := [benchContext] } : State).walk 0 1 0x1000000000 = .fail) ∧
    (tables.walk 0 1 0x8000000000 = .fail ∧ tables.walk 0 1 0x1080000000 = .fail ∧ tables.walk 0 1 0x10C0000000 = .fail) ∧
    (tables.walk 0 1 0x1040001234 = .leaf 0x40000007 2 ∧ tables.walk 0 1 0x1000200000 = .leaf 0x40200007 3 ∧ tables.walk 0 1 0x1000400000 = .fail ∧
      tables.walk 0 1 0x1000001000 = .leaf 0x5003 4 ∧ tables.walk 0 1 0x1000002000 = .fail ∧ tables.walk 0 1 0x1000000000 = .fail) ∧
    ((benchPage .a {} 7).cached 0 1 0x1000000000).isSome = true ∧ (bench .a {}).cached 0 1 0x1000000000 = none ∧
    (benchPage .a {} 7).reaches 7 4 0x1000000000 .load = true ∧ (benchPage .a {} 7).reaches 7 4 0x1000000000 .fetch = false := by decide +kernel

/-- The worked walk of the memory chapter: its level 3 leaf maps to vault address 0x1_5836_7890 (R89). -/
theorem test_worked_walk : leafKey 0x0100000158200087 3 0x001234567890 = physKey 1 0x158367890 ∧ tableIndex 0x001234567890 2 = 0x48 ∧
    tableIndex 0x001234567890 3 = 0x1A2 ∧ pteMalformed 0x0100000158200087 3 = false := by decide

/-- Heads that cannot be executed: misaligned, on a page that misses, that fails, without the right, in a hole, poisoned; words of reserved length,
that cross their block, and that the decoder refuses for each reason; a major of another role. -/
theorem test_witness_heads :
    ((0x102#48).toNat % 4 ≠ 0 ∧ (bench .a {}).fetch ⟨0, .a⟩ 0x1000000000 = .miss ∧
      ({ bench .a {} with failedWalks := [(⟨0, .a⟩, 1, 0x1000000)] } : State).fetch ⟨0, .a⟩ 0x1000000000 = .trap 12 ∧
      (benchPage .a {} 7).fetch ⟨0, .a⟩ 0x1000000000 = .trap 1 ∧ (benchPage .a {} 15).fetch ⟨0, .a⟩ 0x1000000000 = .word 0 ∧
      (bench .a {}).fetch ⟨0, .a⟩ 0x60000 = .trap 1 ∧ (bench .a {}).fetch ⟨0, .a⟩ 0xFFFFFFFFF = .trap 1 ∧
      ({ bench .a {} with poison := [quarterOf (cellKey 0 0x5FFC0)] } : State).fetch ⟨0, .a⟩ 0x5FFFC = .trap 29) ∧
    (bench .s {}).fetch ⟨0, .s⟩ 0x60000 = .word 0 ∧ (wordLen 4 = 0 ∧ wordLen 1 = 8 ∧ 32 < 28 + wordLen 1 ∧ 24 + wordLen 1 ≤ 32) ∧
    (decodeWord 0x1FD#128 = .bad .majorUnassigned ∧ decodeWord 0x6#128 = .bad .lenMismatch ∧ decodeWord 0x201#128 = .bad .functionUnassigned ∧
      decodeWord 0x0002000018200061#128 = .bad .reservedValue ∧
      decodeWord ((1 + 0x0C * 2 ^ 2 + 64 * 2 ^ 39 : Nat) : BitVec 128) = .bad .reservedBits) ∧
    (majorPermitted .x 0x38 = false ∧ majorPermitted .a 0x38 = true) := by decide +kernel

/-- A step at a misaligned pc takes cause 0, and one at a hole cause 1, with the address (R19, R33, R82). -/
theorem test_head_traps : (let s (pc : VAddr) : State := { bench .a { c0 := pc, s1 := true, s2 := true, running := true } with turns := [.core ⟨0, .a⟩] }
    let k (pc : VAddr) : Option (Word × Word) := match step (s pc) with | .next t => some (t.me.tcause, t.me.tval) | _ => none
    k 0x102 = some (0, 0x102) ∧ k 0x60000 = some (1, 0x60000)) := by decide +kernel

/-- Formats of each kind; 1 + 2^-8 is a tie of BF16 between 0x3F80 and 0x3F81, and 3/2 one of INT8 between 1 and 2 (R194). -/
theorem test_rounding_modes :
    (match fmtOf 0, fmtOf 2, fmtOf 10 with
     | some (.ieee 32 8 23 127 _), some (.ieee 16 8 7 127 _), some (.int 8 (-128) 127) => true | _, _, _ => false) = true ∧
    ((fmtOf 4).map fun f => (match f with | .narrow .. => true | _ => false)) = some true ∧
    (match fmtOf 2 with
     | some f => decide (([RMode.rne, .rna, .rtz, .rup, .rdn].map fun m => (round (.num false 0x101 (-8)) f (plainChoice m)).code) = [0x3F80, 0x3F81, 0x3F80, 0x3F81, 0x3F80]) &&
         decide ((round (.num false 0x101 (-8)) f { mode := .sr, random := 0x7FFFFFFF }).code = 0x3F81) &&
         decide ((round (.num false 0x101 (-8)) f { mode := .sr, random := 0x80000000 }).code = 0x3F80) &&
         decide ((round (.num false 0x101 (-8)) f (plainChoice .rne)).flags = flagNX) && decide ((round (.num false 1 128) f (plainChoice .rne)).code = 0x7F80)
     | none => false) = true ∧
    (match fmtOf 10 with
     | some f => decide ((round (.num false 3 (-1)) f (plainChoice .rne)) = { code := 2, flags := flagNX }) &&
         decide ((round (.num true 1 9) f (plainChoice .rne)) = { code := 0x80, flags := flagNV })
     | none => false) = true := by decide +kernel

/-! ### Copies, sendings, exchanges, packets and the device -/

/-- A descriptor of format, space, rank and extents 0 and 1, with base and stride 1, and further bits. -/
def descOf (fmt spc rank d0 d1 : Nat) (base : Nat := 0) (stride1 : Nat := 0) (more : Nat := 0) : Vec :=
  BitVec.ofNat 512 (base + (fmt + spc * 2 ^ 5 + rank * 2 ^ 8) * 2 ^ 64 + (d0 + d1 * 2 ^ 16) * 2 ^ 128 + stride1 * 2 ^ 192 + more)

/-- Descriptors against each condition of R164, the lowest first, and one against none; pairs of shapes and formats that meet and that do not; the
lists of GATH and SCAT and the row of an EXP. -/
theorem test_copy_reasons :
    descReason (descOf 11 1 0 0 0) 1 0 0 = 1 ∧ descReason (descOf 11 1 1 64 1) 1 0 0 = 1 ∧ descReason (descOf 11 1 2 64 0) 1 0 0 = 2 ∧
    descReason (descOf 20 1 1 64 0) 1 0 0 = 3 ∧ descReason (descOf 11 1 1 64 0) 0 0 0 = 3 ∧ descReason (descOf 11 1 1 64 0 (2 ^ 48)) 1 0 0 = 4 ∧
    descReason (descOf 11 1 2 64 2 0 (2 ^ 47)) 1 0 0 = 4 ∧ descReason (descOf 1 4 1 64 0) 4 0 0 = 6 ∧ descReason (descOf 13 1 1 64 0) 1 1 0 = 7 ∧
    descReason (descOf 14 1 3 64 1 0 0 (2 ^ 160)) 1 0 0 = 8 ∧ descReason (descOf 14 3 1 64 0 0x100) 3 0 0 = 10 ∧ descReason (descOf 11 1 1 64 0) 1 0 0 = 0 ∧
    pairReason (descOf 11 1 1 64 0) (descOf 11 1 1 63 0) 0 false = 5 ∧ pairReason (descOf 11 1 1 64 0) (descOf 10 1 1 64 0) 0 false = 6 ∧
    pairReason (descOf 0 1 1 64 0) (descOf 1 1 1 64 0) 2 true = 6 ∧ pairReason (descOf 2 1 1 64 0) (descOf 0 1 1 64 0) 2 true = 0 ∧
    rowPairs (descOf 11 1 2 64 2) (descOf 11 1 2 64 8) 6 [7, 0] = [(0, 7), (1, 0)] ∧ rowPairs (descOf 11 1 2 64 8) (descOf 11 1 2 64 2) 7 [7, 0] = [(7, 0), (0, 1)] ∧
    rowPairs (descOf 11 1 2 64 3) (descOf 11 1 2 64 1) 3 [] = [(0, 0), (1, 0), (2, 0)] := by decide +kernel

/-- Ends outside the cell's memories, within a remote window and in no window, and in translated space: a miss, a failure, no right, a race,
and a byte that no translated space holds. -/
theorem test_witness_spaces :
    (bench .a {}).endCheck 3 true [(0x3FFF0, 32)] = some (.bad 7, 0x40000) ∧ (bench .a {}).endCheck 4 false [(0xFFF0, 16)] = none ∧
    (bench .a {} { windows := [(0, 0xF800000000000000#64 ||| BitVec.ofNat 64 (16 * 2 ^ 32))] }).endCheck 2 true [(0x1000003C0, 64)] = none ∧
    (bench .a {}).endCheck 2 true [(0x100000000, 64)] = some (.bad 27, 0x100000000) ∧
    (bench .a {}).translatedByte false true 0x1000 = .bad 7 ∧ (bench .a {}).translatedByte false false 0x1000000000 = .miss ∧
    ({ bench .a {} with failedWalks := [(⟨0, .a⟩, 1, 0x1000000)] } : State).translatedByte false false 0x1000000000 = .bad 13 ∧
    (benchPage .a {} 7).translatedByte true false 0x1000000000 = .bad 5 ∧ (benchPage .a {} 7).translatedByte false true 0x1000000000 = .fine ∧
    ({ benchPage .a {} 0x207 with own := [(0, { written := true })] } : State).translatedByte false false 0x1000000000 = .bad 25 ∧
    (benchPage .a {} 0x207).translatedByte false true 0x1000000000 = .bad 26 := by decide +kernel

/-- A counted write whose two payload bytes at offset 0x40 the interface of cell 0 has still to read. -/
def outgoing (got : List (Nat × Byte) := []) (after : List Nat := []) : State :=
  let r : SendRec := { packet := packetOf 0 0 0 0 1 0x3000001000000000#64, after := after
                       source := .memory [(cellKey 0 0x40, 0x40), (cellKey 0 0x41, 0x41)] }
  { bench .a (storing .fence).me with
    nis := [(1024, { outgoing := [{ record := r, round := 0, got := got }] })]
    mem := [(cellKey 0 0x40, 7), (cellKey 0 0x41, 9)], args := { memory := 1, ctx := 1, cell := 0, index := 0, cells := [cellKey 0 0x41] } }

/-- A sending that waits for an earlier store, that meets poison, and that reads one byte early or all. -/
theorem test_witness_sendings :
    ((outgoing [] [0]).settled ⟨0, .a⟩ [0] 0 = false ∧ (outgoing).settled ⟨0, .a⟩ [] 0 = true ∧ (outgoing).residentIn 0 = some 1 ∧ (outgoing).cellOut 0 = false ∧
      ((outgoing).niOf 1 0).outgoing[0]?.isSome = true) ∧
    ({ outgoing with poison := [quarterOf (cellKey 0 0x40)] } : State).poisonedFor (.cell 0) (sectorOf (cellKey 0 0x40)) = true ∧
    (cellKey 0 0x40 = cellKey 0 0x40 ∧ 0x41 < 0x60000) ∧
    (let g : State := { bench .a {} with contexts := [{ benchContext with gtbase := 0x1000000000 }], service := { assisted := [0] } }
     (g.groupWait 1 0).isSome = true ∧ (bench .a {}).groupWait 1 0 = none) := by decide +kernel

/-- The interface reads one byte and then the other, and the write leaves with both (R267, R325). -/
theorem test_sending : after .copySector { outgoing with args := { (outgoing).args with flag := true } } (fun t =>
    t.net.isEmpty && (((t.niOf 1 0).outgoing.map (·.got)) == [[(cellKey 0 0x41, 9)]]) &&
      after .copySector { t with args := { (outgoing).args with flag := false } } (fun u =>
        (u.niOf 1 0).outgoing.isEmpty && u.net.map (fun i => i.packet.payload) == [[7, 9]])) = true := by decide +kernel

/-- A remote load that an acquire load holds back, and one of a sector that a remote load of the same chip reads. -/
theorem test_witness_remote_order :
    ((bench .a { loads := [{ id := 0, addr := 0, size := 8, signed := false, dst := none, ea := 0, acquire := true }] }).me.loads.any fun l => l.acquire) = true ∧
    (storing .fence).me.fenceWaits = true ∧ (bench .a {}).me.fenceWaits = false ∧
    (remoteLoading.niOf 1 0).tagWaits 0 = true := by decide +kernel

/-- A block whose cluster is switched off, and an exchange of it, which nothing changes (R15); two blocks in the order of an interval (R313). -/
theorem test_witness_engines :
    (let s : State := { mixing 0 0 { mixed with out := some exchanging } with service := { fenced := [(1, 0)] } }
     s.blockOut mixed = true ∧ s.unitOut 1 0 = true ∧ (mixing 0 0).blockOut mixed = false ∧ (mixing 0 0).unitOut 1 0 = false ∧
       after .mixInterval { s with now := 2048, args := { ctx := 1 } } (fun t => decide (tget t.mixTime 0 (mixKey 1 0) = 0)) = true) ∧
    (let s : State := { mixing 0 0 with blocks := [(7, { mixed with num := 7 }), (4095, mixed)] }
     (s.blocks.map Prod.fst).Pairwise (· < ·) ∧ (s.blocks.all fun e => decide (e.1 = 0 + e.2.num)) = true ∧ 0 < s.share 1 0 ∧
       ([(4095, 4095), (7, 7)] : List (Nat × Nat)).Pairwise (fun x y => 8 ≤ x.1 ∧ y.1 < 8 ∨ (8 ≤ x.1 ↔ 8 ≤ y.1) ∧ x.1 < y.1)) ∧
    mixIncrement mixed (.num true 3 (-1)) = rneInt true (3 * 2 ^ 48) (-49) ∧ rneInt true (3 * 2 ^ 48) (-49) = (-2, true) ∧
    (mixValue { mixed with m := 0 } (.int 8 (-128) 127) 0 5).flags = flagNV := by decide +kernel

/-- A member's choice of a channel by the view, a message of a restore that it waits for, and a launch under a parent of a lower class. -/
theorem test_witness_choice :
    (let x : CellCtx := { pigeons := [(3, { ctl := openCtl })], lines := [(3, [1])], taken := [1]
                          view := { ctls := [(3, openCtl ||| 0x4000000000000000#64)], lines := [(3, [1])] } }
     let s := bench .a { member := { active := true } } x
     s.selected ⟨0, .a⟩ = some 3 ∧ (bench .a { member := { active := true } } { x with view := {} }).selected ⟨0, .a⟩ = none ∧
       ((tfind x.view.ctls 3).getD 0).getLsbD 62 = true) ∧
    (({ sending 0 0 with launches := (sending 0 0).launches ++ [(10, { ctx := 1, cls := 5, persistent := false, first := 0, ncell := 1, wdog := 1, energy := 0, crec := 0, user := 0
                                                                       parent := some 9 })] } : State).classOf 10 = 2) ∧
    ((({} : State).imageWait 0).isNone = true ∧
      ({ service := { assisted := [0] } } : State).imageWait (BitVec.ofNat 512 (1 + 1 * 2 ^ 24 + 0x1000000000 * 2 ^ 128)) ≠ none) := by decide +kernel

/-- A slot that heard a notice of its round, and one that did not; a multicast record and a record of another chip; a chunk with an awaited number. -/
theorem test_witness_notices :
    ((1 ∈ ({ awaiting 1 with noticed := [1] } : RelSlot).noticed) ∧ 1 ∉ (awaiting 1).noticed) ∧
    (let r : SendRec := { packet := { packetOf 7 0 5 0 1 0x0050001000000000#64 with ctr := 15, seq := 3 }, source := .memory [] }
     r.packet.kind = 7 ∧ r.sentTo 0x300 = true ∧ r.askedBy 0x300 15 2 [3] = true ∧ r.askedBy 0x300 15 2 [4] = false) ∧
    (tget ({} : Counter).pos .awaited 300 = .awaited ∧ 300 < (releasing 0 1024).bytes.toNat ∧ (noticesOf {} (releasing 0 1024) 0 2).length = 4 ∧
      ((noticesOf { pos := [(0, .arrived)] } (releasing 0 1) 0 2).length = 0)) := by decide +kernel

/-- Requests of the own chip and of another; one that an earlier load holds back; one whose bytes the own store fills. -/
theorem test_witness_own_requests :
    (let p : Packet := { packetOf 1 0 0 0 1 0x0001000100000040#64 with size := 2 }
     p.schip = (carrying p).chip ∧ (asking false).schip ≠ (carrying (asking false)).chip ∧ (carrying p).requestPoison p (span (cellKey 0 0x40) 4) = false ∧
       ({ carrying p with poison := [quarterOf (cellKey 0 0x40)] } : State).requestPoison p (span (cellKey 0 0x40) 4) = true ∧
       ((remoteLoading.heldCore 1 ⟨0, .a⟩).loads = []) ∧ remoteLoading.tagsBefore 1 0 1 (fun _ => true) = true ∧ (remoteLoading.held 1 0).isSome = true) ∧
    sameAdd (asking true) (asking true) = true ∧ ({ carrying (asking true) with service := { fenced := [(0, 0)] } } : State).keyOut (cellKey 0 0x40) = true := by
  decide +kernel

/-- A fault channel whose slot can be reached, with a report of 60 bytes (R290, R376). -/
theorem test_witness_fault_channel :
    (let s : State := { tables with contexts := [{ benchContext with root := 1, fcbase := 0x1040000000 }] }
     (match s.deviceKeys 0 1 .store (span 0x1040000000 64) with | .ok ks => decide (ks = span 0x40000000 64) | .error _ => false) = true ∧
       (s.writeFault 1 (List.replicate 60 5)).byteLast 0x40000004 = 5 ∧ (s.writeFault 1 (List.replicate 60 5)).trailing.length = 1) := by decide +kernel

/-- A collected atomic at a unit that is switched off, and results that land in a handler of a pre-emption; images whose walk is the host's to make. -/
theorem test_witness_boundary_more :
    (let s : State := { bench .a { handling := true, pending := [{ reg := .x 5, source := .boundary }] } with service := { fenced := [(3, 0)] } }
     s.keyOut 8 = true ∧ (bench .a {}).keyOut 8 = false ∧ s.me.handling = true ∧
       ((s.applyOp 1 ⟨0, .a⟩ (.amo 1 true 8 1 0 (some (.x 5)) 0 none { id := 0 })).1.me.events = [{ cause := 7, tval := 0 }])) ∧
    (({ bench .a {} with contexts := [{ benchContext with savebase := 0x1000000000 }], service := { assisted := [0] } } : State).imageAccessWait 1 0).isSome = true ∧
    ((bench .a {}).imageAccessWait 1 0 = none) := by decide +kernel

/-- A refused boot image, ports that have trained and not, a scrubber before stage 4; IDE key messages answer in the mailbox (R382, R386). -/
theorem test_boot_and_keys :
    ({ bootFailed := true } : Service).bootFailed = true ∧ ({} : Service).portsEnabled = false ∧ ¬ (4 ≤ ({} : Service).stage) ∧ 3 ∈ ({ assisted := [3] } : Service).assisted ∧
    after .scrubVisit { bench .a {} with args := { index := 5, found := .uncorrectable } } (fun t => t.poison.isEmpty) = true ∧
    after .moduleReset { State.reset with service := { ({} : Service) with bootFailed := true }, args := { stage := .verified } } (fun t => decide (t.service.stage = 1)) = true ∧
    after .hostMemoryAccess (linked { access := .ideKeys [1, 2] }) (fun t => decide (t.service.doe.map (fun e => (e.code, e.request)) = [(10, [1, 2])])) = true := by
  decide +kernel
end Sys2Proof.Tests
end

section
/-! PROOF. The device's own steps (O52): what a report, a fence, a poison marker and a removal change, said once, and each step from that. -/

namespace Sys2Proof.Machine

/-! ### Reports to the host (R384) -/

/-- Two service states differ in no more than the events that wait for the ring. -/
def Service.SameButHeld (v w : Service) : Prop := { w with heldEvents := v.heldEvents } = v

theorem Service.SameButHeld.trans {u v w : Service} (h : u.SameButHeld v) (g : v.SameButHeld w) : u.SameButHeld w := by
  unfold Service.SameButHeld at h g ⊢
  rw [← g] at h
  exact h

theorem Service.SameButHeld.reads {v w : Service} (h : v.SameButHeld w) {α : Type} (f : Service → α)
    (hf : ∀ (u : Service) e, f { u with heldEvents := e } = f u) : f w = f v :=
  (hf w _).symm.trans (congrArg f h)

/-- A report to the host changes only the event ring in memory, the records under way, and the held events. -/
structure ReportsOnly (s t : State) : Prop where
  service : s.service.SameButHeld t.service
  frame : { t with mem := s.mem, writes := s.writes, trailing := s.trailing, service := s.service } = s

theorem ReportsOnly.refl (s : State) : ReportsOnly s s := ⟨rfl, rfl⟩

theorem ReportsOnly.trans {s t u : State} (h : ReportsOnly s t) (g : ReportsOnly t u) : ReportsOnly s u := by
  obtain ⟨hservice, hframe⟩ := h
  obtain ⟨gservice, gframe⟩ := g
  rw [← gframe] at hframe
  exact ⟨hservice.trans gservice, hframe⟩

theorem State.ringRecord_reportsOnly (s : State) (cells : List Host.Cell) (trailing : List Second) (held : List HostEvent) :
    ReportsOnly s { s.addGlobal cells with trailing := trailing, service := { s.service with heldEvents := held } } := ⟨rfl, rfl⟩

theorem State.flushEvents_reportsOnly (fuel : Nat) : ∀ s : State, ReportsOnly s (s.flushEvents fuel) := by
  induction fuel with
  | zero => exact ReportsOnly.refl
  | succ n ih =>
    intro s
    unfold State.flushEvents
    split
    · exact .refl s
    · dsimp only
      split
      · exact .refl s
      · exact .trans (s.ringRecord_reportsOnly _ _ _) (ih _)

theorem State.report_reportsOnly (s : State) (kind : Nat) (a b c : Word) : ReportsOnly s (s.report kind a b c) := by
  refine .trans ?_ (State.flushEvents_reportsOnly _ _)
  exact ⟨rfl, rfl⟩

/-- Without a ring nothing is written. -/
theorem State.flushEvents_of_no_ring (s : State) (fuel : Nat) (h : s.service.ringSize = 0) : s.flushEvents fuel = s := by
  cases fuel with
  | zero => rfl
  | succ n =>
    unfold State.flushEvents
    split
    · rfl
    · dsimp only
      rw [h, if_pos (Nat.zero_le _)]

/-- Without a ring the event is held. -/
theorem State.report_of_no_ring (s : State) (kind : Nat) (a b c : Word) (h : s.service.ringSize = 0) :
    (s.report kind a b c).service.heldEvents = s.service.heldEvents ++ [{ kind := kind, arg0 := a, arg1 := b, arg2 := c }] := by
  unfold State.report
  refine (congrArg (fun t : State => t.service.heldEvents) (State.flushEvents_of_no_ring _ _ ?_)).trans rfl
  exact h

/-- What no report writes reads as before. -/
theorem ReportsOnly.reads {s t : State} (h : ReportsOnly s t) {α : Type} (f : State → α)
    (hf : ∀ (u : State) m w r v, f { u with mem := m, writes := w, trailing := r, service := v } = f u) : f t = f s :=
  (hf t _ _ _ _).symm.trans (congrArg f h.frame)

/-! ### Fatal faults of many contexts (R16, R377) -/

/-- A context after a fault that hits the contexts `users`: its first record stands. -/
def Context.condemn (users : List Nat) (record : List Byte) (c : Context) : Context :=
  if c.ctxid ∈ users then { c with dying := some (c.dying.getD record) } else c

@[simp] theorem Context.condemn_ctxid (users : List Nat) (record : List Byte) (c : Context) : (c.condemn users record).ctxid = c.ctxid := by
  unfold Context.condemn; split <;> rfl

theorem Context.condemn_nil (record : List Byte) : Context.condemn [] record = id := by
  funext c; simp [Context.condemn]

theorem Context.condemn_cons (u : Nat) (users : List Nat) (record : List Byte) (c : Context) :
    (if c.ctxid = u then { c with dying := some (c.dying.getD record) } else c).condemn users record = c.condemn (u :: users) record := by
  unfold Context.condemn
  by_cases hu : c.ctxid = u <;> by_cases hs : c.ctxid ∈ users <;> simp [hu, hs]

/-- The fatal faults of a fence, one context after the other, touch the descriptors only. -/
theorem State.foldl_fatal (users : List Nat) : ∀ s : State,
    users.foldl (fun s c => s.fatal c (s.removalRecord (Config.freeWord s.tick 4))) s =
      { s with contexts := s.contexts.map (Context.condemn users (s.removalRecord (Config.freeWord s.tick 4))) } := by
  induction users with
  | nil => intro s; rw [Context.condemn_nil, List.map_id]; rfl
  | cons u rest ih =>
    intro s
    rw [List.foldl_cons, ih]
    have hmap : (s.fatal u (s.removalRecord (Config.freeWord s.tick 4))).contexts.map
          (Context.condemn rest (s.removalRecord (Config.freeWord s.tick 4))) =
        s.contexts.map (Context.condemn (u :: rest) (s.removalRecord (Config.freeWord s.tick 4))) := by
      show List.map _ (List.map _ _) = _
      rw [List.map_map]
      exact List.map_congr_left fun c _ => Context.condemn_cons u rest _ c
    exact congrArg (fun cs => { s with contexts := cs }) hmap

/-- The descriptor of a context after fatal faults. -/
theorem State.context_condemn (s : State) (users : List Nat) (record : List Byte) (c : Nat) :
    ({ s with contexts := s.contexts.map (Context.condemn users record) } : State).context c =
      (s.context c).map (Context.condemn users record) := by
  unfold State.context
  rw [List.find?_map]
  congr 2
  funext d
  simp

/-- A context of the list has a descriptor. -/
theorem State.context_of_mem (s : State) (c : Nat) (h : c ∈ s.contexts.map (·.ctxid)) : ∃ d, s.context c = some d ∧ d.ctxid = c := by
  obtain ⟨e, he, rfl⟩ := List.mem_map.mp h
  obtain ⟨d, hd⟩ := Option.isSome_iff_exists.mp ((List.find?_isSome (p := fun d : Context => decide (d.ctxid = e.ctxid))).mpr ⟨e, he, decide_eq_true rfl⟩)
  exact ⟨d, hd, by simpa using List.find?_some hd⟩

/-! ### Switching a unit off (R14 to R16) -/

theorem State.unitOut_iff (s : State) (cls idx : Nat) : s.unitOut cls idx = true ↔ (cls, idx) ∈ s.service.fenced := by
  simp [State.unitOut]

theorem State.switchOff_service (s : State) (cls idx : Nat) :
    (s.switchOff cls idx).service = { s.service with fenced := s.service.fenced ++ [(cls, idx)] } := by
  unfold State.switchOff; dsimp only; split <;> rfl

@[simp] theorem State.switchOff_contexts (s : State) (cls idx : Nat) : (s.switchOff cls idx).contexts = s.contexts := by
  unfold State.switchOff; dsimp only; split <;> rfl

@[simp] theorem State.switchOff_supervisors (s : State) (cls idx : Nat) : (s.switchOff cls idx).supervisors = s.supervisors := by
  unfold State.switchOff; dsimp only; split <;> rfl

@[simp] theorem State.switchOff_tick (s : State) (cls idx : Nat) : (s.switchOff cls idx).tick = s.tick := by
  unfold State.switchOff; dsimp only; split <;> rfl

@[simp] theorem State.switchOff_chip (s : State) (cls idx : Nat) : (s.switchOff cls idx).chip = s.chip := by
  unfold State.switchOff; dsimp only; split <;> rfl

/-- Of the cells, a fence changes the fenced bit of one. -/
theorem State.ctxOf_switchOff (s : State) (cls idx n : Nat) : (s.switchOff cls idx).ctxOf n = s.ctxOf n := by
  unfold State.switchOff
  dsimp only
  split
  case h_1 =>
    by_cases h : idx = n
    · subst h; rw [State.ctxOf, State.cellOf_setCell_same]; rfl
    · rw [State.ctxOf, State.cellOf_setCell_other _ _ _ _ h]; rfl
  all_goals rfl

theorem State.coreOf_switchOff (s : State) (cls idx : Nat) (p : CoreRef) : (s.switchOff cls idx).coreOf p = s.coreOf p := by
  by_cases hp : p.role = .s
  · rw [State.coreOf_super _ p hp, State.coreOf_super _ p hp, State.switchOff_supervisors]
  · rw [State.coreOf_user _ p hp, State.coreOf_user _ p hp, State.ctxOf_switchOff]

theorem State.port_setPort_same (s : State) (n : Nat) (p : Port) : (s.setPort n p).port n = p := tget_tset_same _ _ _ _

theorem State.sorterOf_setSorter_same (s : State) (n : Nat) (x : Sorter) : (s.setSorter n x).sorterOf n = x := tget_tset_same _ _ _ _

theorem State.switchOff_rail (s : State) (idx : Nat) : idx % 5 ∈ ((s.switchOff 4 idx).port (idx / 5)).railsFenced := by
  show _ ∈ (State.port (State.setPort _ _ _) _).railsFenced
  rw [State.port_setPort_same]
  exact (mem_insertNat _ _ _).mpr (.inl rfl)

theorem State.switchOff_port (s : State) (idx : Nat) : ((s.switchOff 5 idx).port idx).fenced = true := by
  show (State.port (State.setPort _ _ _) _).fenced = true
  rw [State.port_setPort_same]

theorem State.switchOff_sorter (s : State) (idx : Nat) :
    ((s.switchOff 6 idx).sorterOf idx).run = none ∧ ∀ r ∈ (s.switchOff 6 idx).rules, r.1.sorter ≠ idx := by
  constructor
  · show (State.sorterOf (State.setSorter _ _ _) _).run = none
    rw [State.sorterOf_setSorter_same]
  · intro r hr
    simpa using (List.mem_filter.mp hr).2

/-- A unit that is listed as fenced takes its cells and its memory with it. -/
theorem State.cellOut_of_cell (s : State) (n : Nat) (h : (0, n) ∈ s.service.fenced) : s.cellOut n = true := by
  simp [State.cellOut, (s.unitOut_iff 0 n).mpr h]

theorem State.cellOut_of_cluster (s : State) (n : Nat) (h : (1, n / 16) ∈ s.service.fenced) : s.cellOut n = true := by
  simp [State.cellOut, (s.unitOut_iff 1 (n / 16)).mpr h]

theorem State.keyOut_of_vault (s : State) (idx a : Nat) (hi : idx < 64) (ha : a < 2 ^ 27) (h : (2, idx) ∈ s.service.fenced) :
    s.keyOut (2 ^ 52 + idx * 2 ^ 27 + a) = true := by
  have hspace : (2 ^ 52 + idx * 2 ^ 27 + a) / 2 ^ 52 = 1 := by omega
  have hvault : (2 ^ 52 + idx * 2 ^ 27 + a) % 2 ^ 52 / 2 ^ 27 = idx := by omega
  rw [State.keyOut, hspace, hvault, if_neg (by decide), if_pos rfl]
  exact (s.unitOut_iff 2 idx).mpr h

theorem State.keyOut_of_stack (s : State) (idx a : Nat) (hi : idx < 8) (ha : a < 2 ^ 37) (h : (3, idx) ∈ s.service.fenced) :
    s.keyOut (idx * 2 ^ 37 + a) = true := by
  have hspace : (idx * 2 ^ 37 + a) / 2 ^ 52 = 0 := by omega
  have hstack : (idx * 2 ^ 37 + a) / 2 ^ 37 = idx := by omega
  rw [State.keyOut, hspace, hstack, if_pos rfl]
  exact (s.unitOut_iff 3 idx).mpr h

/-- The state in which a fence is reported: the unit is switched off and its users are condemned. -/
def State.fencedOff (s : State) (cls idx : Nat) (listed : List Nat) : State :=
  { s.switchOff cls idx with
    contexts := s.contexts.map (Context.condemn (s.usersOf cls idx listed) (s.removalRecord (Config.freeWord s.tick 4))) }

/-- A fence of a unit that is in service. -/
theorem State.fenceUnit_eq_report (s : State) (cls idx : Nat) (listed : List Nat) (h : (cls, idx) ∉ s.service.fenced) :
    s.fenceUnit cls idx listed =
      (s.fencedOff cls idx listed).report 1 (BitVec.ofNat 64 cls) (BitVec.ofNat 64 idx) (BitVec.ofNat 64 (s.usersOf cls idx listed).length) := by
  have hout : ¬ s.unitOut cls idx = true := fun hu => h ((s.unitOut_iff cls idx).mp hu)
  have hrecord : (s.switchOff cls idx).removalRecord (Config.freeWord (s.switchOff cls idx).tick 4) =
      s.removalRecord (Config.freeWord s.tick 4) := by
    simp only [State.removalRecord, State.switchOff_tick, State.switchOff_chip]
  unfold State.fenceUnit
  rw [if_neg hout]
  dsimp only
  rw [State.foldl_fatal, hrecord, State.switchOff_contexts]
  rfl

theorem State.fenceUnit_of_fenced (s : State) (cls idx : Nat) (listed : List Nat) (h : (cls, idx) ∈ s.service.fenced) :
    s.fenceUnit cls idx listed = s := if_pos ((s.unitOut_iff cls idx).mpr h)

theorem State.fenceUnit_reportsOnly (s : State) (cls idx : Nat) (listed : List Nat) (h : (cls, idx) ∉ s.service.fenced) :
    ReportsOnly (s.fencedOff cls idx listed) (s.fenceUnit cls idx listed) := by
  rw [s.fenceUnit_eq_report cls idx listed h]
  exact State.report_reportsOnly _ _ _ _ _

theorem State.fenced_fenceUnit (s : State) (cls idx : Nat) (listed : List Nat) (h : (cls, idx) ∉ s.service.fenced) :
    (s.fenceUnit cls idx listed).service.fenced = s.service.fenced ++ [(cls, idx)] :=
  ((s.fenceUnit_reportsOnly cls idx listed h).service.reads Service.fenced fun _ _ => rfl).trans
    (congrArg Service.fenced (s.switchOff_service cls idx))

theorem State.coreOf_fenceUnit (s : State) (cls idx : Nat) (listed : List Nat) (h : (cls, idx) ∉ s.service.fenced) (p : CoreRef) :
    (s.fenceUnit cls idx listed).coreOf p = s.coreOf p :=
  ((s.fenceUnit_reportsOnly cls idx listed h).reads (·.coreOf p) fun _ _ _ _ _ => rfl).trans (s.coreOf_switchOff cls idx p)

theorem State.context_fenceUnit (s : State) (cls idx : Nat) (listed : List Nat) (h : (cls, idx) ∉ s.service.fenced) (c : Nat) :
    (s.fenceUnit cls idx listed).context c =
      (s.context c).map (Context.condemn (s.usersOf cls idx listed) (s.removalRecord (Config.freeWord s.tick 4))) :=
  ((s.fenceUnit_reportsOnly cls idx listed h).reads (·.context c) fun _ _ _ _ _ => rfl).trans (s.context_condemn _ _ c)

/-- Every user of a unit has a descriptor, whose removal has begun once the unit is fenced. -/
theorem State.isDying_fenceUnit (s : State) (cls idx : Nat) (listed : List Nat) (h : (cls, idx) ∉ s.service.fenced) (c : Nat)
    (hc : c ∈ s.usersOf cls idx listed) : (s.fenceUnit cls idx listed).isDying c = true := by
  obtain ⟨d, hd, hid⟩ := s.context_of_mem c (List.mem_filter.mp hc).1
  simp [State.isDying, s.context_fenceUnit cls idx listed h, hd, Context.condemn, hid, hc]

theorem State.heldEvents_fenceUnit (s : State) (cls idx : Nat) (listed : List Nat) (h : (cls, idx) ∉ s.service.fenced)
    (hring : s.service.ringSize = 0) :
    (s.fenceUnit cls idx listed).service.heldEvents = s.service.heldEvents ++
      [{ kind := 1, arg0 := BitVec.ofNat 64 cls, arg1 := BitVec.ofNat 64 idx, arg2 := BitVec.ofNat 64 (s.usersOf cls idx listed).length }] := by
  have hservice : (s.fencedOff cls idx listed).service = _ := s.switchOff_service cls idx
  rw [s.fenceUnit_eq_report cls idx listed h, State.report_of_no_ring _ _ _ _ _ (by rw [hservice]; exact hring), hservice]

theorem State.port_fenceUnit (s : State) (cls idx : Nat) (listed : List Nat) (h : (cls, idx) ∉ s.service.fenced) (n : Nat) :
    (s.fenceUnit cls idx listed).port n = (s.switchOff cls idx).port n :=
  (s.fenceUnit_reportsOnly cls idx listed h).reads (·.port n) fun _ _ _ _ _ => rfl

theorem State.sorterOf_fenceUnit (s : State) (cls idx : Nat) (listed : List Nat) (h : (cls, idx) ∉ s.service.fenced) (n : Nat) :
    (s.fenceUnit cls idx listed).sorterOf n = (s.switchOff cls idx).sorterOf n :=
  (s.fenceUnit_reportsOnly cls idx listed h).reads (·.sorterOf n) fun _ _ _ _ _ => rfl

theorem State.rules_fenceUnit (s : State) (cls idx : Nat) (listed : List Nat) (h : (cls, idx) ∉ s.service.fenced) :
    (s.fenceUnit cls idx listed).rules = (s.switchOff cls idx).rules :=
  (s.fenceUnit_reportsOnly cls idx listed h).reads (·.rules) fun _ _ _ _ _ => rfl

/-! ### Page walks (R93) -/

theorem pageWalk_idle (s : State)
    (h : s.unitOut 1 s.args.cluster = true ∨ ((s.walkQueue s.args.cluster).take 8).length ≤ s.args.index) : exec .pageWalk s = .next s := by
  show execPageWalk s = _
  unfold execPageWalk
  dsimp only
  by_cases hout : s.unitOut 1 s.args.cluster = true
  · rw [if_pos hout]
  · rw [if_neg hout, List.getElem?_eq_none (h.resolve_left hout)]

theorem pageWalk_answers (s : State) (m : Miss) (hout : s.unitOut 1 s.args.cluster = false)
    (hm : ((s.walkQueue s.args.cluster).take 8)[s.args.index]? = some m) :
    exec .pageWalk s = .next (s.answerMiss m (s.walk s.args.cluster m.ctx (m.page * 4096))) := by
  show execPageWalk s = _
  unfold execPageWalk
  dsimp only
  rw [hout, hm]
  rfl

/-! ### The poison marker written at once (R100) -/

/-- The mark that an older write still has for a quarter once newer marks have reached every party. -/
theorem find_mark_filter (marks ms : List (Nat × Bool)) (q : Nat) :
    (marks.filter fun m => !(ms.any fun n => decide (n.1 = m.1))).find? (fun m => decide (m.1 = q)) =
      if ms.any (fun n => decide (n.1 = q)) then none else marks.find? fun m => decide (m.1 = q) := by
  rw [List.find?_filter]
  split
  case isTrue h =>
    refine List.find?_eq_none.mpr fun m _ hm => ?_
    obtain ⟨hnone, hq⟩ := of_decide_eq_true hm
    rw [of_decide_eq_true hq, h] at hnone
    exact absurd hnone (by decide)
  case isFalse h =>
    congr 1
    funext m
    by_cases hq : m.1 = q
    · simp [hq, Bool.eq_false_iff.mpr h]
    · simp [hq]

/-- What marks that reach every party at once leave of older marks, to a party. -/
theorem readMarks_shadow (ws : List Write) (v : Viewer) (cs : List Host.Cell) (ms : List (Nat × Bool)) (q : Nat) (b : Bool) :
    readMarks (shadow ws cs ms) (·.visibleTo v) q b =
      if ms.any (fun n => decide (n.1 = q)) then b else readMarks ws (·.visibleTo v) q b := by
  induction ws generalizing b with
  | nil => simp [shadow, readMarks]
  | cons w rest ih =>
    have hv : ({ w with
        data := w.data.filter fun c => (cellAt cs c.1).isNone
        marks := w.marks.filter fun m => !(ms.any fun n => decide (n.1 = m.1)) } : Write).visibleTo v = w.visibleTo v := by
      cases v <;> rfl
    show readMarks (shadow rest cs ms) _ q _ = _
    rw [ih, readMarks]
    simp only [hv, find_mark_filter]
    by_cases h : (ms.any fun n => decide (n.1 = q)) = true
    · simp [h]
    · simp [h]

theorem mem_quartersOf (k q : Nat) : q ∈ quartersOf k ↔ q / 4 = k := by
  simp only [quartersOf, span, List.mem_map, List.mem_range]
  constructor
  · rintro ⟨i, hi, rfl⟩; omega
  · intro h; exact ⟨q % 4, by omega, by omega⟩

/-- Marks of the poison marker, one after the other. -/
theorem mem_applyMarks_poison (qs : List Nat) : ∀ (p : List Nat) (q : Nat),
    q ∈ applyMarks p (qs.map fun a => (a, true)) ↔ q ∈ qs ∨ q ∈ p := by
  induction qs with
  | nil => simp [applyMarks]
  | cons a rest ih =>
    intro p q
    show q ∈ applyMarks (insertNat p a) _ ↔ _
    rw [ih, mem_insertNat, List.mem_cons, or_left_comm, or_assoc]

/-- The poison marker is in the quarters of its sector for every party, and nowhere else (R100). -/
theorem State.quarterBad_addPoison (s : State) (k : Nat) (v : Viewer) (q : Nat) :
    (s.addPoison k).quarterBad v q = if q / 4 = k then true else s.quarterBad v q := by
  have hmarks : marksOf true [k] = (quartersOf k).map fun a => (a, true) := List.append_nil _
  have hany : ((marksOf true [k]).any fun n => decide (n.1 = q)) = decide (q / 4 = k) := by
    rw [hmarks, Bool.eq_iff_iff, List.any_map, List.any_eq_true, decide_eq_true_eq, ← mem_quartersOf k q]
    simp
  have hcontains : (applyMarks s.poison (marksOf true [k])).contains q = (decide (q / 4 = k) || s.poison.contains q) := by
    rw [Bool.eq_iff_iff, List.contains_iff_mem, hmarks, mem_applyMarks_poison, mem_quartersOf]
    simp
  show readMarks (shadow s.writes [] (marksOf true [k])) _ q ((applyMarks s.poison (marksOf true [k])).contains q) = _
  rw [readMarks_shadow, hany, hcontains]
  by_cases h : q / 4 = k <;> simp [h, State.quarterBad]

theorem State.poisonedFor_addPoison (s : State) (k j : Nat) (v : Viewer) :
    (s.addPoison k).poisonedFor v j = if j = k then true else s.poisonedFor v j := by
  rw [State.poisonedFor, Bool.eq_iff_iff, List.any_eq_true]
  simp only [State.quarterBad_addPoison, mem_quartersOf]
  by_cases h : j = k
  · subst h
    simp only [if_true, iff_true]
    exact ⟨4 * j, by omega, by rw [if_pos (by omega)]⟩
  · simp only [if_neg h, State.poisonedFor, List.any_eq_true, mem_quartersOf]
    refine exists_congr fun q => and_congr_right fun hq => ?_
    rw [hq, if_neg h]

theorem State.byteFor_addPoison (s : State) (k : Nat) (v : Viewer) (a : Nat) : (s.addPoison k).byteFor v a = s.byteFor v a :=
  readWrites_shadow s.writes v [] _ a _

/-! ### Scrubbing (R100 to R102) -/

theorem scrubVisit_off (s : State) (h3 : s.args.memory ≠ 3) (h4 : s.args.memory ≠ 4) (h : s.service.stage < 4 ∨ 3 ∈ s.service.assisted) :
    exec .scrubVisit s = .next s := by
  show execScrubVisit s = _
  unfold execScrubVisit
  rw [if_neg h3, if_pos ⟨h4, by simpa using h⟩]

theorem scrubVisit_on (s : State) (h3 : s.args.memory ≠ 3) (h : s.args.memory = 4 ∨ 4 ≤ s.service.stage ∧ 3 ∉ s.service.assisted) :
    exec .scrubVisit s = .next (if s.args.flag && decide (s.args.found ≠ .valid)
      then (s.scrub s.args.index s.args.found).countReport (sectorMemory s.args.index) else s.scrub s.args.index s.args.found) := by
  have hon : ¬ (s.args.memory ≠ 4 ∧ (s.service.stage < 4 ∨ s.service.assisted.contains 3)) := by
    rintro ⟨h4, hoff⟩
    obtain ⟨hstage, hmode⟩ := h.resolve_left h4
    exact hoff.elim (by omega) fun hc => hmode (by simpa using hc)
  show execScrubVisit s = _
  unfold execScrubVisit
  rw [if_neg h3, if_neg hon]

/-- Flow state that meets an uncorrectable error is lost (R286). -/
theorem scrubVisit_flow (s : State) (h3 : s.args.memory = 3) (hf : s.args.found = .uncorrectable) :
    exec .scrubVisit s = .next (s.setSorter s.args.index
      { s.sorterOf s.args.index with badFlows := insertNat (s.sorterOf s.args.index).badFlows s.args.slot }) := by
  show execScrubVisit s = _
  unfold execScrubVisit
  rw [if_pos h3]
  exact if_pos hf

/-! ### Removing every context (R377, R390) -/

/-- The device has only written records of a context: the same contexts are on the chip, and of the service state nothing but the held
events may differ. -/
structure KeepsContexts (s t : State) : Prop where
  ids : t.contexts.map (·.ctxid) = s.contexts.map (·.ctxid)
  service : s.service.SameButHeld t.service

theorem KeepsContexts.refl (s : State) : KeepsContexts s s := ⟨rfl, rfl⟩

theorem KeepsContexts.trans {s t u : State} (h : KeepsContexts s t) (g : KeepsContexts t u) : KeepsContexts s u :=
  ⟨g.ids.trans h.ids, h.service.trans g.service⟩

theorem ReportsOnly.keepsContexts {s t : State} (h : ReportsOnly s t) : KeepsContexts s t :=
  ⟨congrArg (List.map Context.ctxid) (h.reads State.contexts fun _ _ _ _ _ => rfl), h.service⟩

theorem State.updContext_keepsContexts (s : State) (c : Nat) (f : Context → Context) (hf : ∀ d, (f d).ctxid = d.ctxid) :
    KeepsContexts s (s.updContext c f) := by
  refine ⟨?_, rfl⟩
  show List.map _ (List.map _ _) = _
  rw [List.map_map]
  refine List.map_congr_left fun d _ => ?_
  show (if d.ctxid = c then f d else d).ctxid = _
  split
  · exact hf d
  · rfl

theorem State.writeFault_keepsContexts (s : State) (c : Nat) (record : List Byte) : KeepsContexts s (s.writeFault c record) := by
  unfold State.writeFault
  split
  · exact .refl s
  next d _ =>
    have hnumber := s.updContext_keepsContexts c (fun e => { e with fcSeq := d.fcSeq + 1 }) fun _ => rfl
    dsimp only
    split
    · exact hnumber.trans ⟨rfl, rfl⟩
    · exact hnumber.trans (State.report_reportsOnly _ _ _ _ _).keepsContexts

theorem State.writeRecord_keepsContexts (s : State) (c lid : Nat) (crec : Word) (bytes : List Byte) :
    KeepsContexts s (s.writeRecord c lid crec bytes) := by
  have hdropped : ∀ a b c, KeepsContexts s (s.report 3 a b c) := fun a b c => (s.report_reportsOnly 3 a b c).keepsContexts
  unfold State.writeRecord
  dsimp only
  split
  · exact hdropped _ _ _
  · split
    · exact hdropped _ _ _
    · exact ⟨rfl, rfl⟩

theorem State.endLaunch_keepsContexts (s : State) (lid status reason : Nat) : KeepsContexts s (s.endLaunch lid status reason) := by
  unfold State.endLaunch
  split
  · exact .refl s
  next l _ =>
    have hrecord : KeepsContexts s (s.recordLaunch lid l status reason) := s.writeRecord_keepsContexts _ _ _ _
    dsimp only
    split
    · exact hrecord.trans ⟨rfl, rfl⟩
    · exact hrecord.trans ⟨rfl, rfl⟩

theorem State.endLaunches_keepsContexts (s : State) (c : Nat) : KeepsContexts s (s.endLaunches c) := by
  have hall : ∀ (lids : List Nat) (u : State), KeepsContexts u (lids.foldl (fun s l => s.endLaunch l 2 0) u) := by
    intro lids
    induction lids with
    | nil => exact .refl
    | cons l rest ih => exact fun u => (u.endLaunch_keepsContexts l 2 0).trans (ih _)
  refine .trans ?_ (hall _ _)
  exact ⟨rfl, rfl⟩

/-- A removal takes one context off the list, and changes of the service state no more than held events. -/
structure RemovesContext (s t : State) (c : Nat) : Prop where
  ids : t.contexts.map (·.ctxid) = (s.contexts.map (·.ctxid)).filter fun i => decide (i ≠ c)
  service : s.service.SameButHeld t.service

theorem State.context_eq_none_iff (s : State) (c : Nat) : s.context c = none ↔ c ∉ s.contexts.map (·.ctxid) := by
  simp [State.context, List.find?_eq_none]

theorem State.freeContext_removes (s : State) (c : Nat) : RemovesContext s (s.freeContext c) c := by
  unfold State.freeContext
  split
  next h =>
    refine ⟨(List.filter_eq_self.mpr fun i hi => ?_).symm, rfl⟩
    exact decide_eq_true fun hic => (s.context_eq_none_iff c).mp h (hic ▸ hi)
  next => exact ⟨by simp [List.filter_map, Function.comp_def], rfl⟩

theorem State.removeContext_removes (s : State) (c : Nat) (record : List Byte) : RemovesContext s (s.removeContext c record) c := by
  unfold State.removeContext
  dsimp only
  have hreset : KeepsContexts s ((((((s.writeFault c record).resetCells c).resetMixing c).resetSorters c).resetInterface c).clearOwnership c) :=
    (s.writeFault_keepsContexts c record).trans ⟨rfl, rfl⟩
  obtain ⟨hids, hservice⟩ := hreset.trans (State.endLaunches_keepsContexts _ c)
  obtain ⟨gids, gservice⟩ := State.freeContext_removes (State.endLaunches _ c) c
  rw [hids] at gids
  exact ⟨gids, hservice.trans gservice⟩

theorem State.removeNow_removes (s : State) (c : Nat) (record : List Byte) : RemovesContext s (s.removeNow c record) c := by
  unfold State.removeNow
  split
  next h =>
    refine ⟨(List.filter_eq_self.mpr fun i hi => ?_).symm, rfl⟩
    exact decide_eq_true fun hic => (s.context_eq_none_iff c).mp h (hic ▸ hi)
  next => exact s.removeContext_removes c _

/-- Removing the contexts of a list one after the other takes all of them off. -/
theorem State.foldl_removeNow (cs : List Nat) : ∀ s : State, let t := cs.foldl (fun s c => s.removeNow c (s.removalRecord 0)) s
    t.contexts.map (·.ctxid) = (s.contexts.map (·.ctxid)).filter (fun i => decide (i ∉ cs)) ∧
      s.service.SameButHeld t.service := by
  induction cs with
  | nil =>
    intro s
    exact ⟨(List.filter_eq_self.mpr fun _ _ => decide_eq_true List.not_mem_nil).symm, rfl⟩
  | cons c rest ih =>
    intro s
    obtain ⟨hids, hservice⟩ := s.removeNow_removes c (s.removalRecord 0)
    obtain ⟨gids, gservice⟩ := ih (s.removeNow c (s.removalRecord 0))
    refine ⟨?_, hservice.trans gservice⟩
    rw [List.foldl_cons, gids, hids, List.filter_filter]
    refine List.filter_congr fun i _ => ?_
    simp [Bool.and_comm]

/-- Removing every context leaves none. -/
theorem State.removeAll (s : State) : let t := (s.contexts.map (·.ctxid)).foldl (fun s c => s.removeNow c (s.removalRecord 0)) s
    t.contexts = [] ∧ s.service.SameButHeld t.service := by
  obtain ⟨hids, hservice⟩ := State.foldl_removeNow (s.contexts.map (·.ctxid)) s
  refine ⟨List.map_eq_nil_iff.mp (hids.trans ?_), hservice⟩
  exact List.filter_eq_nil_iff.mpr fun i hi => by simpa using hi

/-! ### Temperature (R390) -/

/-- The module at half the matrix issue rate. -/
def State.halved (s : State) : State := { s with service := { s.service with halfRate := true } }

/-- The module at half rate, the host told unless it has been so before. -/
def State.warned (s : State) : State :=
  if s.service.halfRate then s.halved else s.halved.report 7 (BitVec.ofNat 64 s.args.amount) 0 0

theorem State.halfRate_warned (s : State) : s.warned.service.halfRate = true := by
  unfold State.warned
  split
  · rfl
  · exact (s.halved.report_reportsOnly 7 _ _ _).service.reads Service.halfRate fun _ _ => rfl

/-- The module at half rate, about to stop. -/
def State.stopping (s : State) : State := { s.warned with service := { s.warned.service with shutDown := true } }

theorem thermalLimit_cool (s : State) (h : s.args.amount < 105) : exec .thermalLimit s = .next s := if_pos h

theorem thermalLimit_warm (s : State) (h : 105 ≤ s.args.amount) (h' : s.args.amount < 115) :
    exec .thermalLimit s = .next (s.halved.report 7 (BitVec.ofNat 64 s.args.amount) 0 0) := by
  show execThermalLimit s = _
  simp only [execThermalLimit, if_neg (Nat.not_lt.mpr h), h', decide_true, Bool.true_or, if_true]
  rfl

theorem thermalLimit_hot (s : State) (h : 115 ≤ s.args.amount) :
    exec .thermalLimit s = .next ((s.stopping.contexts.map (·.ctxid)).foldl (fun s c => s.removeNow c (s.removalRecord 0)) s.stopping) := by
  have h105 : ¬ s.args.amount < 105 := by omega
  have h115 : ¬ s.args.amount < 115 := by omega
  show execThermalLimit s = _
  unfold execThermalLimit State.stopping State.warned
  simp only [if_neg h105, if_neg h115, decide_eq_false h115, Bool.false_or]
  by_cases hr : s.service.halfRate = true
  · simp only [hr]; rfl
  · simp only [hr]; rfl

/-! ### Bring-up (R386, R387) -/

theorem moduleReset_reset (s : State) (h : s.args.flag = true) : exec .moduleReset s = .next s.moduleReset := if_pos h

theorem imageAccepted_iff (image : List Byte) : imageAccepted image = true ↔
    Config.ed25519Verifies image = true ∧ Config.mldsaVerifies image = true ∧ Config.fusedRollback.toNat ≤ (Config.imageVersion image).toNat := by
  simp [imageAccepted, and_assoc]

/-- The boot ROM checks the image that it finds; once it has refused one, nothing starts. -/
theorem moduleReset_verified (s : State) (hf : s.args.flag = false) (ha : s.args.stage = .verified) (hs : s.service.stage = 1) :
    exec .moduleReset s = if s.service.bootFailed then .next s
      else if imageAccepted (Config.bootImage s.tick) then .next (s.updService (·.booted (Config.bootImage s.tick)))
      else .next (s.updService fun v => { v with bootFailed := true }) := by
  show execModuleReset s = _
  simp only [execModuleReset, hf, ha, hs]
  exact if_neg (by decide)

/-- A table that holds one value at every key reads it at every key that it lists. -/
theorem tget_of_mem_const {α : Type} (t : Tbl α) (v d : α) (n : Nat) (hn : (n, v) ∈ t) (hv : ∀ e ∈ t, e.2 = v) : tget t d n = v := by
  induction t with
  | nil => cases hn
  | cons e rest ih =>
    rw [tget]
    split
    · exact hv e (by simp)
    · rename_i hne
      refine ih ?_ fun e he => hv e (by simp [he])
      exact (List.mem_cons.mp hn).resolve_left fun heq => hne (by rw [← heq])

/-- A table with one value under the keys below a bound. -/
theorem tget_map_range {α : Type} (v d : α) (m n : Nat) (h : n < m) : tget ((List.range m).map fun k => (k, v)) d n = v := by
  refine tget_of_mem_const _ v d n ?_ ?_
  · exact List.mem_map.mpr ⟨n, List.mem_range.mpr h, rfl⟩
  · intro e he
    obtain ⟨k, -, rfl⟩ := List.mem_map.mp he
    rfl

/-- Every cluster has the image that the boot ROM has accepted. -/
theorem Service.booted_active (v : Service) (image : List Byte) (n : Nat) (h : n < 64) : tget (v.booted image).active [] n = image :=
  tget_map_range image [] 64 n h

/-- A later stage of bring-up ends where the stage before it has ended. -/
theorem moduleReset_selfTest (s : State) (failed : List (Nat × Nat)) (hf : s.args.flag = false) (ha : s.args.stage = .selfTest failed)
    (hs : s.service.stage = 2) : ∃ t, exec .moduleReset s = .next t ∧ t.service.stage = 3 := by
  show ∃ t, execModuleReset s = _ ∧ _
  simp only [execModuleReset, hf, ha, hs, Bool.false_eq_true, if_false]
  exact ⟨_, rfl, rfl⟩

theorem moduleReset_linkUp (s : State) (hf : s.args.flag = false) (ha : s.args.stage = .linkUp) (hs : s.service.stage = 3) :
    ∃ t, exec .moduleReset s = .next t ∧ t.service.stage = 4 := by
  show ∃ t, execModuleReset s = _ ∧ _
  simp only [execModuleReset, hf, ha, hs, Bool.false_eq_true, if_false]
  exact ⟨_, rfl, rfl⟩

theorem moduleReset_linkUp_out_of_order (s : State) (hf : s.args.flag = false) (ha : s.args.stage = .linkUp) (hs : s.service.stage ≠ 3) :
    exec .moduleReset s = .next s := by
  show execModuleReset s = _
  simp only [execModuleReset, hf, ha, Bool.false_eq_true, if_false]
  split
  case h_3 _ h => exact absurd h hs
  case h_6 => rfl
  all_goals contradiction

theorem moduleReset_firmwareRuns (s : State) (hf : s.args.flag = false) (ha : s.args.stage = .firmwareRuns) (hs : s.service.stage = 4) :
    ∃ t, exec .moduleReset s = .next t ∧ t.service.stage = 5 := by
  show ∃ t, execModuleReset s = _ ∧ _
  simp only [execModuleReset, hf, ha, hs, Bool.false_eq_true, if_false]
  exact ⟨_, rfl, rfl⟩

theorem moduleReset_portsTrained (s : State) (hf : s.args.flag = false) (ha : s.args.stage = .portsTrained) (hs : s.service.stage = 5)
    (hchip : s.service.chipGiven = true) : ∃ t, exec .moduleReset s = .next t ∧ t.service.stage = 6 := by
  show ∃ t, execModuleReset s = _ ∧ _
  simp only [execModuleReset, hf, ha, hs, hchip, Bool.false_eq_true, if_false, if_true]
  exact ⟨_, rfl, rfl⟩

/-- Without a chip identifier the ports do not train. -/
theorem moduleReset_portsTrained_no_chip (s : State) (hf : s.args.flag = false) (ha : s.args.stage = .portsTrained)
    (hchip : s.service.chipGiven = false) : exec .moduleReset s = .next s := by
  show execModuleReset s = _
  simp only [execModuleReset, hf, ha, hchip, Bool.false_eq_true, if_false]
  split
  case h_5 => rfl
  case h_6 => rfl
  all_goals contradiction

/-! ### Fences as steps (R14 to R16) -/

theorem unitFence_none (s : State) (h : unitCountOf s.args.cls ≤ s.args.index ∨ (s.args.cls, s.args.index) ∈ s.service.fenced) :
    exec .unitFence s = .next s := by
  show execUnitFence s = _
  unfold execUnitFence
  split
  next hidx => rw [s.fenceUnit_of_fenced _ _ _ (h.resolve_left (Nat.not_le.mpr hidx))]
  next => rfl

theorem unitFence_unit (s : State) (h : s.args.index < unitCountOf s.args.cls) :
    exec .unitFence s = .next (s.fenceUnit s.args.cls s.args.index s.args.cells) := if_pos h

end Sys2Proof.Machine

open Sys2Proof Sys2Proof.Machine

/-- Settles O52: each step by the lemma that says what it answers, and by what that leaves of the parts of the state. -/
theorem deviceSteps : Obligations.DeviceSteps := by
  unfold Obligations.DeviceSteps
  intro s v
  refine ⟨⟨pageWalk_idle s, fun m hout hm => ?pageWalk⟩, scrubVisit_off s, fun h3 hon => ?scrub, fun h3 hf => ?flow,
    ⟨unitFence_none s, fun hidx hnew => ?fence⟩, rfl, ⟨thermalLimit_cool s, thermalLimit_warm s, fun h => ?hot⟩,
    fun hflag => ⟨_, moduleReset_reset s hflag, rfl, rfl⟩, fun hflag => ?bringUp⟩
  case pageWalk =>
    rw [pageWalk_answers s m hout hm]
    exact ⟨fun e l hw => by rw [hw]; rfl, fun hw => by rw [hw]; rfl⟩
  case scrub =>
    rw [scrubVisit_on s h3 hon]
    refine ⟨fun hf => ?valid, fun hf hflag => ?correctable, fun hf hflag => ?uncorrectable, fun hf hflag => ?told⟩
    case valid =>
      simp only [hf, ne_eq, not_true_eq_false, decide_false, Bool.and_false]
      rfl
    case correctable =>
      simp only [hf, hflag]
      exact ⟨_, rfl, tget_tupd_same _ _ _ _, rfl⟩
    case uncorrectable =>
      simp only [hf, hflag]
      refine ⟨_, rfl, fun w => ?_, fun w j hj => ?_, fun w a => s.byteFor_addPoison _ w a, tget_tupd_same _ _ _ _, rfl⟩
      · exact (s.poisonedFor_addPoison s.args.index _ w).trans (if_pos rfl)
      · exact (s.poisonedFor_addPoison s.args.index j w).trans (if_neg hj)
    case told =>
      rw [hflag, decide_eq_true hf]
      exact ⟨_, rfl, rfl⟩
  case flow =>
    refine ⟨_, scrubVisit_flow s h3 hf, fun f => ?_⟩
    rw [State.sorterOf_setSorter_same, mem_insertNat, or_comm]
  case fence =>
    have hfenced := s.fenced_fenceUnit _ _ s.args.cells hnew
    have hunit : (s.args.cls, s.args.index) ∈ (s.fenceUnit s.args.cls s.args.index s.args.cells).service.fenced := by
      rw [hfenced]; exact List.mem_append_right _ (List.mem_singleton.mpr rfl)
    refine ⟨_, unitFence_unit s hidx, hfenced, fun hc => ?cell, fun hc n hn => ?cluster, fun hc a ha => ?vault, fun hc a ha => ?stack,
      fun hc => ?rail, fun hc => ?port, fun hc => ?sorter, fun c hc => s.isDying_fenceUnit _ _ _ hnew c hc, fun c d hc hd halive => ?record,
      fun hring => s.heldEvents_fenceUnit _ _ _ hnew hring, fun p n => congrArg (·.xr n) (s.coreOf_fenceUnit _ _ _ hnew p)⟩
    case cell => exact State.cellOut_of_cell _ _ (hc ▸ hunit)
    case cluster => exact State.cellOut_of_cluster _ n (by rw [hn, ← hc]; exact hunit)
    case vault => exact State.keyOut_of_vault _ _ a (by simpa [hc] using hidx) ha (by rw [← hc]; exact hunit)
    case stack => exact State.keyOut_of_stack _ _ a (by simpa [hc] using hidx) ha (by rw [← hc]; exact hunit)
    case rail =>
      rw [s.port_fenceUnit _ _ _ hnew, hc]
      exact s.switchOff_rail _
    case port =>
      rw [s.port_fenceUnit _ _ _ hnew, hc]
      exact s.switchOff_port _
    case sorter =>
      rw [s.sorterOf_fenceUnit _ _ _ hnew, s.rules_fenceUnit _ _ _ hnew, hc]
      exact s.switchOff_sorter _
    case record =>
      have hid : d.ctxid = c := by simpa using List.find?_some hd
      rw [s.context_fenceUnit _ _ _ hnew, hd, Option.map_some, Context.condemn, if_pos (hid ▸ hc), halive]
      rfl
  case hot =>
    obtain ⟨hnone, hservice⟩ := State.removeAll s.stopping
    exact ⟨_, thermalLimit_hot s h, (hservice.reads Service.halfRate fun _ _ => rfl).trans s.halfRate_warned,
      hservice.reads Service.shutDown fun _ _ => rfl, hnone⟩
  case bringUp =>
    refine ⟨fun ha hs => ?verified, fun failed ha hs => moduleReset_selfTest s failed hflag ha hs, moduleReset_linkUp s hflag,
      moduleReset_firmwareRuns s hflag, fun hchip ha hs => moduleReset_portsTrained s hflag ha hs hchip,
      moduleReset_portsTrained_no_chip s hflag, moduleReset_linkUp_out_of_order s hflag⟩
    rw [moduleReset_verified s hflag ha hs, ← imageAccepted_iff]
    refine ⟨fun hb => if_pos hb, fun hb hno => ?_, fun hb hyes => ?_⟩
    · rw [if_neg (Bool.eq_false_iff.mp hb), if_neg hno]; rfl
    · rw [if_neg (Bool.eq_false_iff.mp hb), if_pos hyes]
      exact ⟨_, rfl, rfl, rfl, rfl, Service.booted_active _ _⟩
end

section
/-! PROOF. Rounds and answers (O46): a notice for a slot that does not await it is heard by no slot, but the table of slots is written
again, and a write of a table brings its keys into rising order. -/

namespace Sys2Proof.Machine

/-- An interface without records sends nothing again. -/
theorem State.resendAll_of_no_records (s : State) (ctx cell : Nat) (chip : BitVec 12) (ctr : BitVec 13) (round : BitVec 3)
    (seqs : List (BitVec 16)) (h : (s.niOf ctx cell).recs = []) : s.resendAll ctx cell chip ctr round seqs = s := by
  simp [State.resendAll, h]

/-- A shortfall notice for slot 0 of cell 0, context 0. -/
def strayNotice : Packet := packetOf 6 0 0 0 0 0

/-- The notice has arrived. Slot 0 is free, so that it does not await it; the slots are listed out of order. The model writes
such tables with `tset` and `tdel` alone, which keep the keys rising: the state is one of the statement's, not of a run from reset. -/
def strayNoticeArrived : State :=
  { nis := [(niKey 0 0, { rel := [(1, {}), (0, {})] })], net := [{ packet := strayNotice, outbound := false, offered := true }] }

/-- The notice is taken and the interface has heard it. -/
def strayNoticeHeard : State :=
  strayNoticeArrived.taken.setNiFor strayNotice ((strayNoticeArrived.niFor strayNotice).hear strayNotice)

/-- Slot 0 reads as before, and is listed twice now. -/
theorem strayNoticeHeard_rel : (strayNoticeHeard.niOf 0 0).rel = [(0, {}), (1, {}), (0, {})] := rfl

theorem shortfallNotice_strayNoticeArrived : exec .shortfallNotice strayNoticeArrived = .next strayNoticeHeard := by
  have harrived : strayNoticeArrived.arrived 6 = some strayNotice := rfl
  have hmode : strayNoticeArrived.service.assisted.contains 1 = false := rfl
  have hempty : (strayNoticeHeard.niOf strayNotice.ctxid.toNat strayNotice.scell.toNat).recs = [] := rfl
  rw [strayNoticeHeard] at hempty ⊢
  show execShortfallNotice strayNoticeArrived = _
  simp only [execShortfallNotice, harrived, hmode, Bool.false_eq_true, if_false, State.resendAll_of_no_records _ _ _ _ _ _ _ hempty]

end Sys2Proof.Machine

open Sys2Proof Sys2Proof.Machine

/-- Refutes O46: a notice for a slot that does not await it leaves the list of slots as it was only where the slots stand in rising order.
In `strayNoticeArrived`, where they do not, the interface writes slot 0 with what it holds, and the write puts a second entry before
the one that stands too late in the table. The packet is taken, and what `tget` reads of each slot stays. -/
theorem not_roundsAndAnswers : ¬ Obligations.RoundsAndAnswers := by
  intro ⟨⟨_, _, _, _, answers, _⟩, _⟩
  obtain ⟨_, _, _, notice⟩ := answers strayNoticeArrived strayNotice
  obtain ⟨w, hexec, -, hrecs, -, -, -, -, hkept, -⟩ := notice rfl (by decide)
  have hw : w = strayNoticeHeard := by
    rw [State.resendAll_of_no_records _ _ _ _ _ _ _ hrecs, shortfallNotice_strayNoticeArrived] at hexec
    exact (Host.Outcome.next.inj hexec).symm
  have hrel : (w.niOf 0 0).rel = [(1, {}), (0, {})] := hkept (by decide)
  rw [hw, strayNoticeHeard_rel] at hrel
  exact absurd hrel (by decide)
end

section
/-! PROOF. Instruction words (O56, O55): which instructions have a word, and that a word decodes back to its instruction. -/

namespace Sys2Proof.Laws

/-- Every instruction of the table comes back from its word: the family of the per-instruction lemmas, case by case. -/
theorem word_round_trip (i : Instr) : F.Statement i :=
  @Instr.casesOn F.Statement i F.add F.adds F.addus F.sub F.subs F.subus F.and F.andn F.or F.xor F.shl F.shr F.sha F.cmpeq F.cmpne F.cmplt
    F.cmpge F.cmpltu F.cmpgeu F.addi F.andi F.ori F.xori F.shil F.shir F.shia F.cmpieq F.cmpine F.cmpilt F.cmpige F.cmpiltu F.cmpigeu F.li
    F.liu F.liw F.mul F.mulh F.mulhu F.mula F.div F.divu F.divrem F.divremu F.bitcnt F.bitclz F.bitctz F.sel F.beq F.bne F.blt F.bge
    F.bltu F.bgeu F.bz F.bzn F.j F.jl F.jr F.csrd F.cswr F.csset F.csclr F.ld F.lds F.st F.ld64 F.st64 F.amoswap F.amoadd F.amoand F.amoor
    F.amoxor F.amomin F.amomax F.amominu F.amomaxu F.amocas F.fence F.qlen F.qroom F.qpeek F.strgo F.strstop F.strwait F.strcnt F.semw
    F.semp F.semtry F.semrd F.barset F.bararr F.barwait F.bartest F.barexp F.copy F.cwait F.ctest F.ccnt F.tidld F.tidst F.tidbase
    F.osclaim F.ostry F.osrel F.osst F.vadd F.vsub F.vmul F.vfma F.vmin F.vmax F.vabs F.vneg F.vexp2 F.vrcp F.vrsq F.viadd F.viadds
    F.viaddus F.visub F.visubs F.visubus F.vimul F.vimulh F.vimulhu F.vimin F.vimax F.viminu F.vimaxu F.viand F.vior F.vixor F.viandn
    F.vcmpfeq F.vcmpflt F.vcmpfle F.vcmpfun F.vcmpieq F.vcmpilt F.vcmpiltu F.vcmpsel F.vshl F.vshr F.vsha F.vshls F.vshrs F.vshas
    F.vredsum F.vredmax F.vredmin F.vredisum F.vredimax F.vredimin F.vredor F.vredcnt F.vmov F.vmovs F.vmovx F.vmovi F.vmovp F.vmovsr
    F.vcvif F.vcvn F.vcvfi F.vcvw F.vqpq8 F.vqpq4 F.vqpf8ab F.vqpf4ab F.vqpdq8 F.vqpdq4 F.vstrleft F.vstrrow F.vstrdrain F.rst F.rstcp
    F.rstpm F.rstpmrd F.rld F.rlds F.rldadd F.mcst F.crel F.crelm F.rcptw F.rcpttest F.mixreg F.mixadd F.mixrd F.mixst F.mixstep F.mixwait
    F.dereg F.ohand F.otake F.odrop F.otest F.msend F.mpop F.mlen F.mlaunch F.chmask F.chunmask F.chrd F.chprio F.creg F.sysflush F.sigen
    F.sigrd F.sorterAdd F.sorterSub F.sorterAnd F.sorterOr F.sorterXor F.sorterShl F.sorterShr F.setltu F.seteq F.addk F.andk F.shlk
    F.shrk F.movk F.sorterBeq F.sorterBne F.sorterBltu F.jmp F.hget F.hset F.pldw F.pstw F.wget F.wset F.fsel F.sld F.sst F.sldw F.sstw
    F.gld F.gmem F.emit F.emitg F.nack F.sorterTrap F.nop F.cseal F.auto F.share F.nbrset F.fend F.cend F.eret F.syscall F.sysbrk
    F.sysabort F.syspark F.fwd F.drop F.annulledPass F.interrupt F.deferredEvent F.streamElement F.semaphoreStore F.copySector
    F.copyCompletion F.mac F.matrixMul F.fill F.mark F.matrixGate F.matrixComplete F.flush F.resume F.countedWrite F.release
    F.outcomeRecordExpiry F.roundExpiry F.senderRoundExpiry F.shortfallNotice F.receipt F.nackPacket F.readRequest F.readReply
    F.rldRoundExpiry F.linkControl F.bufferInterval F.flitBeat F.messageLeavesSendBuffer F.sorterPacket F.load F.attach F.detach F.rearm
    F.state F.mixInterval F.perform F.drain F.widen F.firingBegin F.launchPacket F.launchCompletion F.energyInterval F.watchdog
    F.quantumEnd F.boundary F.preemptionRequest F.switchOut F.restore F.contextRemoval F.pageWalk F.scrubVisit F.unitFence F.powerWindow
    F.thermalLimit F.moduleReset F.evhead F.tail F.plimit F.registerWrite F.ctxset F.ctxremove F.sorter F.fabcfg F.serviceFence F.declare
    F.railcal F.railReturn F.fwstage F.mode F.errcnt F.walkans F.fwact F.resend F.getVersion F.getCapabilities F.negotiateAlgorithms
    F.getDigests F.getCertificate F.challenge F.getMeasurements F.keyExchange F.finish F.hostMemoryAccess F.failureDeclaration

/-- An instruction has a word of a core exactly where its row is one that a core fetches. -/
theorem isSome_encode (i : Instr) : (encode i).isSome = decide (wordKind i = .core) := by
  cases i <;> rfl

/-- The same for a sorter's word. -/
theorem isSome_encodeSorter (i : Instr) : (encodeSorter i).isSome = decide (wordKind i = .sorter) := by
  cases i <;> rfl

theorem decodeWord_of_encode {i : Instr} {w : BitVec 128} (hi : i.wellFormed = true) (hw : encode i = some w) : decodeWord w = .ok i :=
  (word_round_trip i hi).1 w hw

theorem decodeSorter_of_encodeSorter {i : Instr} {w : BitVec 32} (hi : i.wellFormed = true) (hw : encodeSorter i = some w) :
    decodeSorter w = some i :=
  (word_round_trip i hi).2 w hw

end Sys2Proof.Laws

open Sys2Proof Sys2Proof.Laws

/-- Settles O56: by cases on the instruction, each by the lemma of its row. -/
theorem decodeInvertsEncode : Obligations.DecodeInvertsEncode := by
  unfold Obligations.DecodeInvertsEncode
  refine ⟨fun i => ⟨?_, ?_⟩, word_round_trip⟩
  · rw [isSome_encode, decide_eq_true_iff]
  · rw [isSome_encodeSorter, decide_eq_true_iff]

/-- Settles O55: each word is the one that the encoder gives the instruction. -/
theorem specWordsDecode : Obligations.SpecWordsDecode := by
  unfold Obligations.SpecWordsDecode
  have core {i : Instr} {w : BitVec 128} := @decodeWord_of_encode i w
  have sorter {i : Instr} {w : BitVec 32} := @decodeSorter_of_encodeSorter i w
  exact ⟨core rfl rfl, core rfl rfl, core rfl rfl, core rfl rfl, core rfl rfl, core rfl rfl, core rfl rfl, core rfl rfl, core rfl rfl,
    core rfl rfl, core rfl rfl, sorter rfl rfl, sorter rfl rfl⟩
end

section
/-! PROOF. Queue fields (O5): what stops an instruction at its scalar fields, and what QLEN, QROOM and QPEEK answer. -/

namespace Sys2Proof.Machine

/-! ### Fields that stop an instruction (R27, R137) -/

theorem badQueue_of_first_source {role : Role} {a : Reg} (h : badSource role a = true) (srcs : List Reg) (dst : Option Reg) :
    badQueue role (a :: srcs) dst = some a := by
  unfold badQueue
  rw [List.find?_cons_of_pos h]

/-- A source that names no foreign end leaves the answer to the fields after it. -/
theorem badQueue_of_good_source {role : Role} {a : Reg} (h : badSource role a = false) (srcs : List Reg) (dst : Option Reg) :
    badQueue role (a :: srcs) dst = badQueue role srcs dst := by
  unfold badQueue
  rw [List.find?_cons_of_neg (by simp [h])]

theorem badQueue_of_dest {role : Role} {d : Reg} (h : badDest role d = true) : badQueue role [] (some d) = some d := if_pos h

theorem State.blocked_of_badQueue {s : State} {srcs : List Reg} {dst : Option Reg} {r : Reg}
    (h : badQueue s.cur.core.role srcs dst = some r) : s.blocked srcs dst = some (trap s 35 (r.setWidth 64)) := by
  rw [State.blocked, h]

theorem State.blocked_of_not_ready {s : State} {srcs : List Reg} {dst : Option Reg}
    (h : badQueue s.cur.core.role srcs dst = none) (hr : s.scalarReady srcs dst = false) : s.blocked srcs dst = some (wait s) := by
  simp [State.blocked, h, hr]

theorem alu2_of_blocked {s : State} {d a b : Reg} {o : Out} (h : s.blocked [a, b] (some d) = some o) (f : Word → Word → Word) :
    alu2 s d a b f = o := by
  rw [alu2, h]

theorem alu2_of_badQueue {s : State} {d a b r : Reg} (h : badQueue s.cur.core.role [a, b] (some d) = some r) (f : Word → Word → Word) :
    alu2 s d a b f = trap s 35 (r.setWidth 64) :=
  alu2_of_blocked (State.blocked_of_badQueue h) f

/-! ### QLEN, QROOM and QPEEK (R140) -/

theorem queueInspect_foreign {s : State} {a : Reg}
    (h : ¬ (queuePopper (queueOf a) = s.cur.core.role ∨ queuePusher (queueOf a) = s.cur.core.role)) (d : Reg) (f : Nat → Nat) :
    queueInspect s d a f = trap s 35 (a.setWidth 64) :=
  if_pos (not_or.mp h)

theorem queueInspect_own {s : State} {a : Reg}
    (h : queuePopper (queueOf a) = s.cur.core.role ∨ queuePusher (queueOf a) = s.cur.core.role) (d : Reg) (f : Nat → Nat) :
    queueInspect s d a f = alu0 s d (BitVec.ofNat 64 (f (s.queueCount (queueOf a)))) :=
  if_neg fun hn => not_or.mpr hn h

theorem execQpeek_foreign {s : State} {a : Reg} (h : queuePopper (queueOf a) ≠ s.cur.core.role) (d : Reg) :
    execQpeek d a s = trap s 35 (a.setWidth 64) := if_pos h

/-- The popping core, its destination ready, takes the head or waits for it. -/
theorem execQpeek_own {s : State} {d a : Reg} (h : queuePopper (queueOf a) = s.cur.core.role) (hr : Ready s [] (some d)) :
    execQpeek d a s = if s.poppable (queueOf a) 1 then .next (s.finish [] d (s.sval [] a)) else wait s := by
  rw [execQpeek, if_neg (not_not_intro h), hr.blocked]

/-- With nothing popped before it, a source reads the head of its queue. -/
theorem State.sval_head {s : State} {a : Reg} {e : QEntry} (ha : 32 ≤ a.toNat) (he : (s.queue (queueOf a)).head? = some e) :
    s.sval [] a = e.value := by
  obtain ⟨rest, hq⟩ := List.head?_eq_some_iff.mp he
  have hisQueue : isQueue a = true := decide_eq_true ha
  simp only [State.sval, hisQueue, if_true, countCode, List.filter_nil, List.length_nil, List.drop_zero, hq]

end Sys2Proof.Machine

open Sys2Proof Sys2Proof.Machine

/-- Settles O5: an instruction of two sources and a result is `alu2` of some function, so what blocks its fields answers for it; the
three inspections by the end of the queue that the core is. -/
theorem queueRules : Obligations.QueueRules := by
  unfold Obligations.QueueRules
  refine ⟨fun s d a b i hi => ?twoSources, fun s d a => ?inspect⟩
  case twoSources =>
    obtain ⟨f, hf⟩ : ∃ f, exec i s = alu2 s d a b f := by
      rcases hi with hi | hi | hi <;> revert i <;> simp only [List.forall_mem_cons]
      · exact ⟨⟨_, execAdd.eq_1 ..⟩, ⟨_, execAdds.eq_1 ..⟩, ⟨_, execAddus.eq_1 ..⟩, ⟨_, execSub.eq_1 ..⟩, ⟨_, execSubs.eq_1 ..⟩,
          ⟨_, execSubus.eq_1 ..⟩, ⟨_, execAnd.eq_1 ..⟩, ⟨_, execAndn.eq_1 ..⟩, ⟨_, execOr.eq_1 ..⟩, ⟨_, execXor.eq_1 ..⟩, nofun⟩
      · exact ⟨⟨_, execShl.eq_1 ..⟩, ⟨_, execShr.eq_1 ..⟩, ⟨_, execSha.eq_1 ..⟩, ⟨_, execCmpeq.eq_1 ..⟩, ⟨_, execCmpne.eq_1 ..⟩,
          ⟨_, execCmplt.eq_1 ..⟩, ⟨_, execCmpge.eq_1 ..⟩, ⟨_, execCmpltu.eq_1 ..⟩, ⟨_, execCmpgeu.eq_1 ..⟩, nofun⟩
      · exact ⟨⟨_, execMul.eq_1 ..⟩, ⟨_, execMulh.eq_1 ..⟩, ⟨_, execMulhu.eq_1 ..⟩, ⟨_, execDiv.eq_1 ..⟩, ⟨_, execDivu.eq_1 ..⟩,
          ⟨_, execDivrem.eq_1 ..⟩, ⟨_, execDivremu.eq_1 ..⟩, nofun⟩
    rw [hf]
    refine ⟨fun ha => ?_, fun ha hb => ?_, fun ha hb hd => ?_, fun hgood hwait => ?_⟩
    · exact alu2_of_badQueue (badQueue_of_first_source ha _ _) f
    · exact alu2_of_badQueue ((badQueue_of_good_source ha _ _).trans (badQueue_of_first_source hb _ _)) f
    · exact alu2_of_badQueue (((badQueue_of_good_source ha _ _).trans (badQueue_of_good_source hb _ _)).trans (badQueue_of_dest hd)) f
    · exact alu2_of_blocked (State.blocked_of_not_ready hgood hwait) f
  case inspect =>
    refine ⟨fun hforeign => ?_, fun hforeign => execQpeek_foreign hforeign d,
      fun ha hready => ⟨fun hown => ⟨?_, ?_⟩, fun hpops => ⟨?_, ?_⟩⟩⟩
    · exact ⟨queueInspect_foreign hforeign d _, queueInspect_foreign hforeign d _⟩
    · obtain ⟨t, ht, hretires⟩ := yields_alu0 hready (BitVec.ofNat 64 (s.queueCount (a.toNat - 32)))
      exact ⟨t, (queueInspect_own hown d id).trans ht, hretires⟩
    · obtain ⟨t, ht, hretires⟩ := yields_alu0 hready (BitVec.ofNat 64 (8 - s.queueCount (a.toNat - 32)))
      exact ⟨t, (queueInspect_own hown d (8 - ·)).trans ht, hretires⟩
    · intro e he hpoppable
      refine ⟨_, (execQpeek_own hpops hready).trans (if_pos hpoppable), ?_⟩
      rw [State.sval_head ha he]
      exact retires_finish s [] d e.value
    · intro hnone
      exact (execQpeek_own hpops hready).trans (if_neg (by simp [queueOf, hnone]))
end

section
/-! PROOF. The front end (O57): what a turn begins, what the head of a core answers for each outcome of its checks, and what a
fetch finds. -/

namespace Sys2Proof.Machine

/-! ### A step by what its turn begins -/

theorem step_of_run {s t : State} {i : Instr} (h : s.ticked.begin s.turn = .run i t) : step s = exec i t := by
  rw [step, h]

theorem step_of_done {s : State} {o : Out} (h : s.ticked.begin s.turn = .done o) : step s = o := by
  rw [step, h]

/-- The state in which the turn of core p begins. -/
abbrev State.atTurn (s : State) (p : CoreRef) : State := { s with cur := { s.cur with core := p, word := 0 } }

theorem State.begin_core {s : State} {p : CoreRef} (h : s.turn = .core p) : s.ticked.begin s.turn = s.ticked.front p := by
  rw [h]; rfl

@[simp] theorem State.noteArrival_cur (s : State) (p : CoreRef) : (s.noteArrival p).cur = s.cur := by
  unfold State.noteArrival
  dsimp only
  split
  · exact State.updCore_cur ..
  · rfl

theorem State.front_user {s : State} {p : CoreRef} (hp : p.role ≠ .s) (hrun : (s.atTurn p).running p = true) :
    s.front p = if (s.atTurn p).me.trapMode then (s.atTurn p).head else (s.atTurn p).userTurn := by
  obtain ⟨cell, role⟩ := p
  cases role
  case s => exact absurd rfl hp
  all_goals exact if_neg (by rw [hrun]; decide)

theorem State.front_super {s : State} {p : CoreRef} (hp : p.role = .s) (hcell : p.cell % 16 = 0 ∧ p.cell < 1024) :
    s.front p = (s.atTurn p).superTurn := by
  obtain ⟨cell, role⟩ := p
  subst hp
  exact if_pos hcell

/-- A supervisor core in service that has begun runs its head (R386). -/
theorem State.superTurn_head {s : State} {k : Core} (hstage : 4 ≤ s.service.stage) (hon : s.service.shutDown = false)
    (hunit : s.unitOut 1 (s.cur.core.cell / 16) = false) (hrestart : s.restarting (s.cur.core.cell / 16) = false)
    (hk : tfind s.supervisors (s.cur.core.cell / 16) = some k) (hrun : (k.running || k.trapMode) = true) : s.superTurn = s.head := by
  simp [State.superTurn, Nat.not_lt.mpr hstage, hon, hunit, hrestart, hk, hrun]

/-! ### What comes before the head (R35, R339, R350, R369) -/

section UserTurn

variable {s v : State} (hv : v = s.noteArrival s.cur.core)
include hv

theorem State.userTurn_event (h : v.me.events ≠ []) : s.userTurn = .run .deferredEvent v := by
  subst hv
  simp [State.userTurn, h]

theorem State.userTurn_interrupt (h : v.me.events = []) (hi : v.me.preempt = true ∨ v.me.watchdog ≠ none) :
    s.userTurn = .run .interrupt v := by
  subst hv
  have hi : ((s.noteArrival s.cur.core).me.preempt || (s.noteArrival s.cur.core).me.watchdog.isSome) = true := by
    simpa [Option.isSome_iff_ne_none] using hi
  simp [State.userTurn, h, hi]

/-- Without an event or an interrupt: the end of a quantum, then the begin of a firing, then the head. -/
theorem State.userTurn_quiet (h : v.me.events = []) (hp : v.me.preempt = false) (hw : v.me.watchdog = none) :
    s.userTurn = if v.me.atEnd then (if v.me.member.paused then .done (.next v) else .run .quantumEnd v)
      else if v.me.running then v.head else .run .firingBegin v := by
  subst hv
  cases hr : (s.noteArrival s.cur.core).me.running <;> simp [State.userTurn, h, hp, hw, hr]

end UserTurn

/-! ### The head (R33, R121, R380) -/

theorem State.enterBlock_cur {s u : State} (h : s.enterBlock = .ok u) : u.cur = s.cur := by
  unfold State.enterBlock at h
  dsimp only at h
  split at h
  case h_1 => exact nomatch h
  case h_2 | h_3 => rw [← Except.ok.inj h]; exact State.updMe_cur ..
  case h_4 =>
    split at h
    · rw [← Except.ok.inj h]; exact State.updMe_cur ..
    · split at h
      · exact nomatch h
      · rw [← Except.ok.inj h]; exact State.updMe_cur ..

/-- The checker changes only the core's fold and the answers of walks: it stays the core's turn. -/
theorem State.checkSignature_cur {s u : State} (h : s.checkSignature = .ok u) : u.cur = s.cur := by
  unfold State.checkSignature at h
  dsimp only at h
  split at h
  · split at h
    · exact State.enterBlock_cur h
    · split at h
      · split at h
        · exact State.enterBlock_cur h
        · exact nomatch h
      · rw [Except.ok.inj h]
  · rw [Except.ok.inj h]

theorem State.head_of_checked {s u : State} (h : s.checkSignature = .ok u) :
    s.head = if u.me.c0.toNat % 4 ≠ 0 then .done (trap u 0 (u.me.c0.setWidth 64))
      else if u.me.n0 then .run .annulledPass u else u.fetchHead := by
  rw [State.head, h]

theorem State.fetchHead_miss {s : State} (h : s.fetch s.cur.core s.me.c0 = .miss) :
    s.fetchHead = .done (.next (s.requestWalk s.cur.core s.myCtxId s.me.c0.toNat)) := by
  simp only [State.fetchHead, h]

theorem State.fetchHead_trap {s : State} {c : Nat} (h : s.fetch s.cur.core s.me.c0 = .trap c) :
    s.fetchHead = .done (trap s c (s.me.c0.setWidth 64)) := by
  simp only [State.fetchHead, h]

theorem State.fetchHead_word {s : State} {w : BitVec 128} (h : s.fetch s.cur.core s.me.c0 = .word w) : s.fetchHead = s.checkWord w := by
  simp only [State.fetchHead, h]

/-! ### Words (R17, checks 3 to 11 of R33) -/

theorem lenBytes_eq_zero (len : BitVec 2) : lenBytes len = 0 ↔ len = 0#2 := by
  revert len; decide

/-- Cutting a word to its length keeps LEN. -/
theorem len_cutWord (w : BitVec 128) : (cutWord w).extractLsb' 0 2 = w.extractLsb' 0 2 := by
  unfold cutWord
  split
  · exact Laws.field_cut w 64 0 2 (by decide)
  · exact Laws.field_cut w 96 0 2 (by decide)
  · rfl

theorem cutWord_cutWord (w : BitVec 128) : cutWord (cutWord w) = cutWord w := by
  rw [cutWord.eq_1 (cutWord w), len_cutWord]
  unfold cutWord
  generalize (w.extractLsb' 0 2).toNat = len
  rcases len with _ | _ | _ | len <;> simp [BitVec.setWidth_setWidth_of_le]

theorem decodeWord_cutWord (w : BitVec 128) : decodeWord (cutWord w) = decodeWord w := by
  rw [decodeWord, cutWord_cutWord, decodeWord]

/-- A word of reserved length decodes to nothing (R17, check 3). -/
theorem decodeWord_of_wordLen_zero {w : BitVec 128} (h : wordLen w = 0) : decodeWord w = .bad .lenZero := by
  have hlen : (Raw.ofWord (cutWord w)).len = 0#2 := (len_cutWord w).trans ((lenBytes_eq_zero _).mp h)
  rw [decodeWord, decodeRaw, if_pos hlen]

theorem State.checkWord_lenZero {s : State} {w : BitVec 128} (h : wordLen w = 0) :
    s.checkWord w = .done (trap s 2 ((w.setWidth 32).setWidth 64)) := if_pos h

theorem State.checkWord_crossing {s : State} {w : BitVec 128} (h : wordLen w ≠ 0) (hc : 32 < s.me.c0.toNat % 32 + wordLen w) :
    s.checkWord w = .done (trap s 0 (s.me.c0.setWidth 64)) := (if_neg h).trans (if_pos hc)

section WholeWord

variable {s : State} {w : BitVec 128} (hlen : wordLen w ≠ 0) (hblock : s.me.c0.toNat % 32 + wordLen w ≤ 32)
include hlen hblock

theorem State.checkWord_ok {i : Instr} (hd : decodeWord w = .ok i)
    (hp : majorPermitted s.cur.core.role (Raw.ofWord (cutWord w)).maj.toNat = true) :
    s.checkWord w = if s.lingers (s.reachHead w) then .done (.next (s.reachHead w))
      else if (s.reachHead w).heldBack ((s.reachHead w).mixctlChoice i) then .done (waitCollected (s.reachHead w))
      else .run ((s.reachHead w).mixctlChoice i) (s.reachHead w) := by
  rw [decodeWord] at hd
  rw [State.checkWord, if_neg hlen, if_neg (Nat.not_lt.mpr hblock)]
  simp only [hd, hp, if_true]

/-- A word that decodes to nothing, or whose major is another role's, traps with cause 2. -/
theorem State.checkWord_illegal (h : decodeWord w = .bad .majorUnassigned ∨ decodeWord w = .bad .lenMismatch ∨
      decodeWord w = .bad .functionUnassigned ∨ decodeWord w = .bad .reservedValue ∨
      majorPermitted s.cur.core.role (Raw.ofWord (cutWord w)).maj.toNat = false) :
    s.checkWord w = .done (trap s 2 (w.setWidth 64)) := by
  rw [State.checkWord, if_neg hlen, if_neg (Nat.not_lt.mpr hblock)]
  simp only [decodeWord] at h
  rcases h with hd | hd | hd | hd | hp
  case inr.inr.inr.inr =>
    simp only [hp, Bool.false_eq_true, if_false]
    split <;> rfl
  all_goals simp only [hd]

theorem State.checkWord_reserved (h : decodeWord w = .bad .reservedBits ∨ decodeWord w = .bad .reservedCombination)
    (hp : majorPermitted s.cur.core.role (Raw.ofWord (cutWord w)).maj.toNat = true) :
    s.checkWord w = .done (trap s 24 (w.setWidth 64)) := by
  rw [State.checkWord, if_neg hlen, if_neg (Nat.not_lt.mpr hblock)]
  simp only [decodeWord] at h
  rcases h with hd | hd <;> simp only [hd, hp, if_true]

end WholeWord

theorem State.lingers_iff (s t : State) : s.lingers t = true ↔
    s.me.fragMark = none ∧ t.me.fragMark ≠ none ∧ (Config.freeWord s.tick 501).getLsbD 0 = true := by
  simp only [State.lingers, Bool.and_eq_true, Option.isNone_iff_eq_none, Option.isSome_iff_ne_none, and_assoc]

theorem State.heldBack_iff (s : State) (i : Instr) : s.heldBack i = true ↔
    s.inGroup = true ∧ (s.me.acquiring = true ∧ accessing i = true ∨ s.me.collected ≠ [] ∧ ordering i = true) := by
  simp [State.heldBack]

theorem State.mixctlChoice_of_other (s : State) {i : Instr} (h : ∀ d a b c, i ≠ .dereg d a b c) : s.mixctlChoice i = i := by
  unfold State.mixctlChoice
  split
  · exact absurd rfl (h _ _ _ _)
  · rfl

/-! ### Turns of a sorter, the device, the network and the host -/

theorem State.sorterTurn_head {s : State} {n : Nat} {r : Run} {w : BitVec 32} {i : Instr} (hr : (s.sorterOf n).run = some r)
    (hw : r.code[r.pc]? = some w) (hi : decodeSorter w = some i) :
    s.sorterTurn n = .run i { s with cur := { s.cur with sorter := n } } := by
  have hhead : (s.sorterOf n).head = some i := by simp only [Sorter.head, hr, hw, hi]
  unfold State.sorterTurn
  dsimp only
  rw [show State.mySorter _ = s.sorterOf n from rfl, hhead]

/-! ### Fetching (R18, R81, R82) -/

theorem regionOf_spad {a : Nat} (h : a < 0x60000) : regionOf a = .spad := if_pos h

theorem regionOf_translated {a : Nat} (h : 0x1000000000 ≤ a) : regionOf a = .translated := by
  unfold regionOf
  iterate 6 rw [if_neg (by omega)]

/-- Between the scratchpad and translated memory a core fetches nothing. -/
theorem regionOf_between {a : Nat} (h : 0x60000 ≤ a) (h' : a < 0x1000000000) : regionOf a ≠ .spad ∧ regionOf a ≠ .translated := by
  unfold regionOf
  rw [if_neg (Nat.not_lt.mpr h), if_pos h']
  repeat' split
  all_goals exact ⟨nofun, nofun⟩

theorem State.fetch_super {s : State} {p : CoreRef} (c : VAddr) (hp : p.role = .s) :
    s.fetch p c = s.fetchKey p c.toNat (superKey (p.cell / 16) c.toNat) := by
  obtain ⟨cell, role⟩ := p
  subst hp
  rfl

section UserFetch

variable {s : State} {p : CoreRef} {c : VAddr} (hp : p.role ≠ .s)
include hp

theorem State.fetch_spad (h : c.toNat < 0x60000) : s.fetch p c = s.fetchKey p c.toNat (cellKey p.cell c.toNat) := by
  unfold State.fetch
  split
  · exact absurd ‹_› hp
  · simp only [regionOf_spad h]

theorem State.fetch_between (h : 0x60000 ≤ c.toNat) (h' : c.toNat < 0x1000000000) : s.fetch p c = .trap 1 := by
  obtain ⟨hspad, htranslated⟩ := regionOf_between h h'
  unfold State.fetch
  split
  · exact absurd ‹_› hp
  · dsimp only
    split
    · exact absurd ‹_› hspad
    · exact absurd ‹_› htranslated
    · rfl

/-- Translated memory is fetched from as the core's translation and the leaf's rights allow. -/
theorem State.fetch_translated (h : 0x1000000000 ≤ c.toNat) {found : Trans}
    (hfound : s.transFor p ((s.residentIn p.cell).getD 0) c.toNat = found) :
    (found = .miss → s.fetch p c = .miss) ∧ (found = .fail → s.fetch p c = .trap 12) ∧
      ∀ e l, found = .leaf e l → s.fetch p c =
        if s.reaches e l c.toNat .fetch then s.fetchKey p c.toNat (leafKey e l c.toNat) else .trap 1 := by
  unfold State.fetch
  split
  · exact absurd ‹_› hp
  · simp only [regionOf_translated h, hfound]
    refine ⟨?_, ?_, fun e l => ?_⟩ <;> rintro rfl <;> rfl

end UserFetch

/-- A leaf lets a core fetch: X, and its memory in service (R91; log 79). -/
theorem State.reaches_fetch_iff (s : State) (e : Word) (l a : Nat) :
    s.reaches e l a .fetch = true ↔ e.getLsbD 3 = true ∧ s.keyOut (leafKey e l a) = false := by
  simp [State.reaches, leafGrants, pteX]

end Sys2Proof.Machine

namespace Sys2Proof

open Sys2Proof.Machine

/-! ### A turn that reaches the head (R33, R121, R380) -/

/-- A turn that reaches the head begins with it, in a state in which it is the core's turn. -/
theorem AtHead.begin {s v : State} {p : CoreRef} (h : AtHead s p v) : s.ticked.begin s.turn = v.head ∧ v.cur.core = p := by
  obtain ⟨hturn, hcase⟩ := h
  rw [State.begin_core hturn]
  obtain ⟨hp, h16, hcell, hstage, hon, hunit, hrestart, ⟨k, hk, hrun⟩, rfl⟩ | ⟨hp, hrun, htrap, rfl⟩ |
    ⟨hp, hrun, htrap, rfl, hevents, hpreempt, hwatchdog, hrunning, hend⟩ := hcase
  · exact ⟨(State.front_super hp ⟨h16, hcell⟩).trans (State.superTurn_head hstage hon hunit hrestart hk hrun), rfl⟩
  · exact ⟨(State.front_user hp hrun).trans (if_pos htrap), rfl⟩
  · refine ⟨(State.front_user hp hrun).trans ?_, by rw [State.noteArrival_cur]⟩
    rw [if_neg (Bool.eq_false_iff.mp htrap), State.userTurn_quiet rfl hevents hpreempt hwatchdog, if_neg (Bool.eq_false_iff.mp hend),
      if_pos hrunning]

/-- The head of a core whose checker is satisfied. -/
theorem AtHead.checked {s v u : State} {p : CoreRef} (h : AtHead s p v) (hu : v.checkSignature = .ok u) :
    u.cur.core = p ∧ s.ticked.begin s.turn =
      if u.me.c0.toNat % 4 ≠ 0 then .done (trap u 0 (u.me.c0.setWidth 64))
      else if u.me.n0 then .run .annulledPass u else u.fetchHead := by
  obtain ⟨hbegin, hcur⟩ := h.begin
  exact ⟨hcur ▸ congrArg (·.core) (State.checkSignature_cur hu), hbegin.trans (State.head_of_checked hu)⟩

theorem AtHead.misaligned {s v u : State} {p : CoreRef} (h : AtHead s p v) (hu : v.checkSignature = .ok u) (hpc : u.me.c0.toNat % 4 ≠ 0) :
    step s = trap u 0 (u.me.c0.setWidth 64) :=
  step_of_done ((h.checked hu).2.trans (if_pos hpc))

theorem AtHead.annulled {s v u : State} {p : CoreRef} (h : AtHead s p v) (hu : v.checkSignature = .ok u) (hpc : u.me.c0.toNat % 4 = 0)
    (hn : u.me.n0 = true) : step s = exec .annulledPass u :=
  step_of_run ((h.checked hu).2.trans ((if_neg (not_not_intro hpc)).trans (if_pos hn)))

/-- An entry that is not annulled is fetched. -/
theorem AtHead.fetches {s v u : State} {p : CoreRef} (h : AtHead s p v) (hu : v.checkSignature = .ok u) (hpc : u.me.c0.toNat % 4 = 0)
    (hn : u.me.n0 = false) : s.ticked.begin s.turn = u.fetchHead :=
  (h.checked hu).2.trans ((if_neg (not_not_intro hpc)).trans (if_neg (Bool.eq_false_iff.mp hn)))

end Sys2Proof

open Sys2Proof Sys2Proof.Machine

/-- Settles O57: a step is what its turn begins, so each clause reads off one answer of the front end: the checks of the head in their
order, what comes before the head, the other turns, and what a fetch finds. -/
theorem stepRunsTheInstruction : Obligations.StepRunsTheInstruction := by
  unfold Obligations.StepRunsTheInstruction
  refine ⟨⟨fun s p v u hv hu hpc => ⟨hv.annulled hu hpc, fun w i hn hw hblock hd hp => ?runs⟩, fun s p hturn hp hrun htrap => ?before,
    fun s n i r w hturn hr hw hi => ?sorter, fun s i a hturn => ?event⟩,
    fun s p v u hv hu => ⟨hv.misaligned hu, fun hpc hn => ?refused⟩, fun s p c => ?fetch⟩
  case runs =>
    obtain rfl := (hv.checked hu).1
    rw [decodeWord_cutWord] at hd
    have hlen : wordLen w ≠ 0 := fun h0 => by
      rw [decodeWord_of_wordLen_zero h0] at hd
      exact nomatch hd
    have hbegin := (hv.fetches hu hpc hn).trans ((State.fetchHead_word hw).trans (State.checkWord_ok hlen hblock hd hp))
    simp only [State.lingers_iff, State.heldBack_iff] at hbegin
    refine ⟨fun hlingers => ?_, fun hlingers hheld => ?_, fun hlingers hheld => ?_, State.mixctlChoice_of_other _⟩
    · exact step_of_done (hbegin.trans (if_pos hlingers))
    · exact step_of_done (hbegin.trans ((if_neg hlingers).trans (if_pos hheld)))
    · exact step_of_run (hbegin.trans ((if_neg hlingers).trans (if_neg hheld)))
  case before =>
    have hbegin := (State.begin_core hturn).trans ((State.front_user hp hrun).trans (if_neg (Bool.eq_false_iff.mp htrap)))
    refine ⟨fun hevents => ?_, fun hevents hinterrupt => ?_, fun hevents hpreempt hwatchdog => ?_⟩
    · exact step_of_run (hbegin.trans (State.userTurn_event rfl hevents))
    · exact step_of_run (hbegin.trans (State.userTurn_interrupt rfl hevents hinterrupt))
    · have hquiet := hbegin.trans (State.userTurn_quiet rfl hevents hpreempt hwatchdog)
      refine ⟨fun hend hpaused => ?_, fun hend hpaused => ?_, fun hend hrunning => ?_⟩
      · exact step_of_done (hquiet.trans ((if_pos hend).trans (if_pos hpaused)))
      · exact step_of_run (hquiet.trans ((if_pos hend).trans (if_neg (Bool.eq_false_iff.mp hpaused))))
      · exact step_of_run (hquiet.trans ((if_neg (Bool.eq_false_iff.mp hend)).trans (if_neg (Bool.eq_false_iff.mp hrunning))))
  case sorter =>
    have hbegin : s.ticked.begin s.turn = s.ticked.sorterTurn n := by rw [hturn]; rfl
    exact step_of_run (hbegin.trans (State.sorterTurn_head hr hw hi))
  case event =>
    have hbegin : s.ticked.begin s.turn =
        if isEvent i then .run i { s.ticked with args := a } else .done (.next { s.ticked with args := a }) := by rw [hturn]; rfl
    exact ⟨fun h => step_of_run (hbegin.trans (if_pos h)), fun h => step_of_done (hbegin.trans (if_neg (Bool.eq_false_iff.mp h)))⟩
  case refused =>
    obtain rfl := (hv.checked hu).1
    have hbegin := hv.fetches hu hpc hn
    refine ⟨fun hmiss => ?_, fun c htrap => ?_, fun w hw => ⟨fun hlen => ?_, fun hlen hcross => ?_,
      fun hlen hblock => ⟨fun hillegal => ?_, fun hreserved hp => ?_⟩⟩⟩
    · exact step_of_done (hbegin.trans (State.fetchHead_miss hmiss))
    · exact step_of_done (hbegin.trans (State.fetchHead_trap htrap))
    all_goals refine step_of_done (hbegin.trans ((State.fetchHead_word hw).trans ?_))
    · exact State.checkWord_lenZero hlen
    · exact State.checkWord_crossing hlen hcross
    · exact State.checkWord_illegal hlen hblock hillegal
    · exact State.checkWord_reserved hlen hblock hreserved hp
  case fetch =>
    refine ⟨State.fetch_super c, State.fetch_spad, State.fetch_between, fun hp h => ?_⟩
    obtain ⟨hmiss, hfail, hleaf⟩ := State.fetch_translated (s := s) hp h rfl
    refine ⟨hmiss, hfail, fun e l hfound => (hleaf e l hfound).trans ?_⟩
    simp only [State.reaches_fetch_iff]
    rfl
end
